-- ==== Sys2Proof/Word.lean ====
section
/-!
DEFINITION. Word types of the A9 and the sparse store: register files, predicate files and memories
are lists of (key, value) pairs in one canonical form (keys strictly rising, no value equal to the
value an unlisted key reads as, which is 0).
-/

namespace Sys2Proof

abbrev Byte := BitVec 8
abbrev W32 := BitVec 32
abbrev W64 := BitVec 64

/-- A sparse store of `w`-bit values: an unlisted key reads 0. -/
abbrev Sparse (w : Nat) := List (Nat × BitVec w)

namespace Sparse

/-- The value at key `k`; 0 when `k` is not listed. -/
def get {w : Nat} : Sparse w → Nat → BitVec w
  | [], _ => 0
  | (j, x) :: m, k => if j = k then x else if k < j then 0 else get m k

/-- Puts `x` at key `k` and keeps the canonical form: a 0 removes the entry. -/
def set {w : Nat} : Sparse w → Nat → BitVec w → Sparse w
  | [], k, x => if x = 0 then [] else [(k, x)]
  | (j, y) :: m, k, x =>
    if j = k then (if x = 0 then m else (k, x) :: m)
    else if k < j then (if x = 0 then (j, y) :: m else (k, x) :: (j, y) :: m)
    else (j, y) :: set m k x

/-- Every key of the store lies above `lo` (given as the smallest key allowed), rising, with no 0. -/
def wfFrom {w : Nat} : Nat → Sparse w → Bool
  | _, [] => true
  | lo, (j, x) :: m => decide (lo ≤ j) && decide (x ≠ 0) && wfFrom (j + 1) m

/-- The canonical form: keys strictly rising and no entry equal to what an unlisted key reads as. -/
def wf {w : Nat} (m : Sparse w) : Bool := wfFrom 0 m

end Sparse

end Sys2Proof
end

