-- ==== Sys2Proof/Config.lean ====
section
/-!
DEFINITION. What the manufacture of one A9 fixes, and the free values: constants without a body for
what the manual leaves open, so that nothing can be proved of their value.
-/

namespace Sys2Proof.Config

/-- A fresh 64-bit value for each number, for a value that the manual leaves open (log 2). -/
opaque freeValue : Nat → W64

/-- The silicon stepping in CAPID.STEP (R17). -/
opaque stepping : Byte

/-- The fused minimum security version at manufacture (R428). -/
opaque fusedSvn : BitVec 16

/-- The contents of the package SPI flash at manufacture (R425). -/
opaque spiFlash : List Byte

/-- The fused digests of the two public keys (R428). -/
opaque rsaKeyDigest : List Byte
opaque slhKeyDigest : List Byte

/-- Whether LPDDR-6 training succeeds, by attempt (R425). -/
opaque memoryTrains : Nat → Bool

/-- The capacity, in bytes, that the device on a CXL port reports (R396). -/
opaque cxlCapacity : Nat → Nat

/-- The bytes of an SPDM answer that the manual leaves open: nonces, certificates and the like (R431). -/
opaque spdmBytes : Nat → List Byte → List Byte

/-- The device identity, from which the keys of the SPDM responders are derived (R431). -/
opaque deviceIdentity : List Byte

/-- The RSASSA-3072 signature, with SHA-384, that a key makes over a message (R431). -/
opaque rsaSign : (key message : List Byte) → BitVec 3072

/-- The set of its slice in which a line lies, below 2,048 (R231). -/
opaque slcSet : (line : Nat) → Nat

/-- The copies that the snoop filter of a host die can track (R271, R385). -/
opaque snoopRoom : (host : Nat) → Nat

/-- The clock, in units of 100 MHz, that the power manager chooses for a cluster from its draw, its
temperature and its budget (R432). -/
opaque clockStep : (cluster draw temp budget : Nat) → Nat

/-- The steps by which every cluster in use is slowed where the device limit binds (R433). -/
opaque limitSteps : (diePower : Nat) → Nat

/-- The cycles that a cluster gates in an interval at its lowest clock (R117). -/
opaque gateCycles : (cluster draw budget : Nat) → Nat

end Sys2Proof.Config
end

