-- ==== Sys2Proof/Syntax.lean ====
section
/-!
DEFINITION. The instructions and events of the A9: one constructor of `Instr` for every row of the
opcode table. Rows with an encoding carry their guard and scheduling fields (`Hdr`) and one operand
structure; rows that are an autonomous or host event carry the names of what they act on.
-/

namespace Sys2Proof

/-- Type tags, codes 0–20 of R71. -/
inductive Tag
  | b32 | b64 | i8 | i16 | i32 | i64 | n8 | n16 | n32 | n64 | f32 | f16 | bf16
  | e4m3 | e5m2 | e2m1 | l6 | mx8 | mx4 | a36 | i36
  deriving DecidableEq, Repr

/-- Memory orders, codes 0–4 of R71. -/
inductive Order | weak | rlx | acq | rel | ar
  deriving DecidableEq, Repr

/-- Scopes, codes 0–4 of R71. -/
inductive Scope | wave | grp | clu | dev | sys
  deriving DecidableEq, Repr

/-- Rounding modes, codes 0–3 of R71. -/
inductive Rnd | rne | rz | ru | rd
  deriving DecidableEq, Repr

/-- Integer compare conditions, codes 0–5 of R154 and R205. -/
inductive Cond | eq | ne | lt | le | gt | ge
  deriving DecidableEq, Repr

/-- FP32 compare conditions, codes 0–7 of R165. -/
inductive FCond | eq | ne | lt | le | gt | ge | num | nan
  deriving DecidableEq, Repr

/-- Atomic operations, codes 0–12 of R69. -/
inductive AtomOp
  | add | min | max | and | or | xor | exch | cas | inc | dec | fadd | fmin | fmax
  deriving DecidableEq, Repr

/-- Reduction operations of VRED and VSCAN, codes 0–8 of R181. -/
inductive RedOp | add | min | max | and | or | xor | fadd | fmin | fmax
  deriving DecidableEq, Repr

/-- A guard: predicate index and negation (R56). -/
structure Guard where
  neg : Bool
  p : BitVec 7
  deriving DecidableEq, Repr

/-- The guard and the scheduling field of an instruction (R50, R56–R61). -/
structure Hdr where
  guard : Option Guard
  st : BitVec 4
  wt : BitVec 12
  sf : BitVec 4
  yl : Bool
  ru : BitVec 2
  deriving DecidableEq, Repr

/-- A register source in vector space (R62). -/
inductive VSrc
  | v (n : BitVec 9)      -- v0–v319
  | q (n : BitVec 4)      -- queue port
  | laneid
  | tidX
  | tidY
  | tidZ
  | zero
  | bcast (n : BitVec 7)  -- s0–s127, read by every thread
  deriving DecidableEq, Repr

/-- A register source in scalar space (R63). -/
inductive SSrc
  | s (n : BitVec 8)
  | h (n : BitVec 4)
  | f (n : BitVec 4)      -- f0–f11
  | execLo                -- the whole mask where the operand is 64 bits wide (R64)
  | execHi
  | waveid
  | grpX
  | grpY
  | grpZ
  | launchid
  | partid
  | coreid
  | quarterid
  | width
  | pathidx
  | satflags
  | q (n : BitVec 4)
  deriving DecidableEq, Repr

/-- A source of a U-capable instruction: in vector space when U = 0, in scalar space when U = 1 (R68). -/
inductive Src
  | vec (x : VSrc)
  | sca (x : SSrc)
  deriving DecidableEq, Repr

/-- A register destination: vector register, queue port (LDG and ATOM only) or scalar register. -/
inductive Dst
  | v (n : BitVec 9)
  | q (n : BitVec 4)
  | s (n : BitVec 8)
  deriving DecidableEq, Repr

/-- A pair read by BZ, BNZ or EXSET: an even scalar register or exec (R119). -/
inductive PairSrc
  | s (n : BitVec 8)
  | exec
  deriving DecidableEq, Repr

/-- A handle or a scalar register that holds a token (R310). -/
inductive HSrc
  | h (n : BitVec 4)
  | s (n : BitVec 8)
  deriving DecidableEq, Repr

inductive ExOp | set | and | andn | or
  deriving DecidableEq, Repr

inductive ShflMode | idx | up | down | xor
  deriving DecidableEq, Repr

inductive FenceKind | acq | rel | ar | sc
  deriving DecidableEq, Repr

inductive TexMode | point | bilin | stoch
  deriving DecidableEq, Repr

inductive BlendOp | rep | over | add | min | max
  deriving DecidableEq, Repr

inductive CpyForm | lin | d2 | d3 | gath
  deriving DecidableEq, Repr

/-- Blocking of a grid command: bm × bn (R278). -/
inductive Blk | b1x1 | b2x1 | b1x2 | b2x2
  deriving DecidableEq, Repr

/-- KIND of LAUNCH.cancel (R360). -/
inductive CancelSel | launch | ltag | gtag | jtag
  deriving DecidableEq, Repr

/-- Three-operand integer form (R148–R152). -/
structure Alu3 where
  u : Bool
  tag : Tag
  d : Dst
  a : Src
  b : Src
  deriving DecidableEq, Repr

/-- Two-operand integer form: B unused. -/
structure Alu2 where
  u : Bool
  tag : Tag
  d : Dst
  a : Src
  deriving DecidableEq, Repr

structure AddsOp where
  sub : Bool
  o : Alu3
  deriving DecidableEq, Repr

structure SelOp where
  sp : BitVec 7
  o : Alu3
  deriving DecidableEq, Repr

structure MoviOp where
  u : Bool
  wide : Bool
  d : Dst
  imm : W32
  deriving DecidableEq, Repr

structure CmpOp where
  u : Bool
  tag : Tag
  cond : Cond
  pd : BitVec 7
  a : Src
  b : Src
  deriving DecidableEq, Repr

structure BintOp where
  three : Bool
  o : Alu3
  deriving DecidableEq, Repr

structure BdeiOp where
  three : Bool
  sel : BitVec 2
  o : Alu2
  deriving DecidableEq, Repr

structure PlogOp where
  u : Bool
  lut : BitVec 4
  d : BitVec 7
  a : BitVec 7
  b : BitVec 7
  deriving DecidableEq, Repr

inductive PmovDir
  | tor (d : Dst)
  | fromr (a : Src)
  deriving DecidableEq, Repr

structure PmovOp where
  u : Bool
  cnt : BitVec 5          -- count − 1
  p : BitVec 7
  dir : PmovDir
  deriving DecidableEq, Repr

structure FAlu3 where
  u : Bool
  rnd : Rnd
  d : Dst
  a : Src
  b : Src
  deriving DecidableEq, Repr

structure FMinOp where
  u : Bool
  prop : Bool
  d : Dst
  a : Src
  b : Src
  deriving DecidableEq, Repr

structure FCmpOp where
  u : Bool
  cond : FCond
  pd : BitVec 7
  a : Src
  b : Src
  deriving DecidableEq, Repr

structure FRndOp where
  u : Bool
  rnd : Rnd
  d : Dst
  a : Src
  deriving DecidableEq, Repr

structure HAlu where
  u : Bool
  bf : Bool               -- FN: .bf16
  rnd : Rnd
  d : Dst
  a : Src
  b : Src
  deriving DecidableEq, Repr

structure SfuOp where
  d : BitVec 9
  a : VSrc
  deriving DecidableEq, Repr

structure CvtOp where
  dst : Tag
  src : Tag
  rnd : Rnd
  seld : BitVec 3
  sela : BitVec 3
  d : BitVec 9
  a : VSrc
  deriving DecidableEq, Repr

structure QntOp where
  dst : Tag
  rnd : Rnd
  seld : BitVec 3
  d : BitVec 9
  a : VSrc
  b : VSrc
  deriving DecidableEq, Repr

structure Pack6Op where
  fromF32 : Bool
  rnd : Rnd
  d : BitVec 9
  a : VSrc
  deriving DecidableEq, Repr

structure Unpack6Op where
  toF32 : Bool
  quad : Bool
  sel : BitVec 2
  d : BitVec 9
  a : VSrc
  deriving DecidableEq, Repr

structure MxscOp where
  mx4 : Bool
  seld : BitVec 2
  d : BitVec 9
  a : VSrc
  deriving DecidableEq, Repr

structure ShflOp where
  mode : ShflMode
  wide : Bool
  seg : BitVec 3
  d : BitVec 9
  a : VSrc
  b : VSrc
  deriving DecidableEq, Repr

structure RdlaneOp where
  wide : Bool
  d : BitVec 8
  a : BitVec 9
  b : BitVec 8
  deriving DecidableEq, Repr

structure WrlaneOp where
  wide : Bool
  d : BitVec 9
  a : BitVec 8
  b : BitVec 8
  deriving DecidableEq, Repr

structure VredOp where
  rop : RedOp
  tag : Tag
  rnd : Rnd
  d : BitVec 8
  a : VSrc
  deriving DecidableEq, Repr

structure VscanOp where
  excl : Bool
  rop : RedOp
  tag : Tag
  rnd : Rnd
  d : BitVec 9
  a : VSrc
  deriving DecidableEq, Repr

structure VmatchOp where
  tag : Tag
  d : BitVec 9
  a : VSrc
  deriving DecidableEq, Repr

/-- LDS and STS (R191). -/
structure SpMem where
  tag : Tag
  ord : Order
  sco : Scope
  scl : BitVec 2
  off : BitVec 8
  d : BitVec 9
  a : VSrc
  b : VSrc
  deriving DecidableEq, Repr

/-- ATOMS and REDS; REDS does not use `d` (R191). -/
structure SpAtom where
  op : AtomOp
  tag : Tag
  ord : Order
  sco : Scope
  off : BitVec 8
  d : BitVec 9
  a : VSrc
  b : VSrc
  deriving DecidableEq, Repr

structure BarinitOp where
  sck : Bool
  off : BitVec 8
  a : BitVec 8
  b : BitVec 8
  deriving DecidableEq, Repr

structure ArriveOp where
  drn : Bool
  off : BitVec 8
  cnti : BitVec 11
  d : BitVec 8
  a : BitVec 8
  b : BitVec 8
  deriving DecidableEq, Repr

structure BwaitOp where
  tmo : BitVec 4
  pd : BitVec 7
  a : BitVec 8
  deriving DecidableEq, Repr

structure BtestOp where
  pd : BitVec 7
  a : BitVec 8
  deriving DecidableEq, Repr

structure WaitaOp where
  cond : Cond
  spd : Bool
  tmo : BitVec 4
  sco : Scope
  acq : Bool
  tag : Tag
  pd : BitVec 7
  a : BitVec 8
  b : BitVec 8
  deriving DecidableEq, Repr

/-- LDG and STG (R241). -/
structure GlMem where
  tag : Tag
  ord : Order
  sco : Scope
  scl : BitVec 2
  isgn : Bool
  off : BitVec 8
  d : Dst
  a : VSrc
  b : VSrc
  deriving DecidableEq, Repr

/-- ATOM and RED; RED does not use `d` (R241). -/
structure GlAtom where
  op : AtomOp
  tag : Tag
  ord : Order
  sco : Scope
  off : BitVec 8
  d : Dst
  a : VSrc
  b : VSrc
  deriving DecidableEq, Repr

structure FenceOp where
  kind : FenceKind
  sco : Scope
  deriving DecidableEq, Repr

/-- A range of CCTL: start pair and length register (R248). -/
structure CctlRng where
  a : BitVec 8
  b : BitVec 8
  deriving DecidableEq, Repr

structure PrefOp where
  slc : Bool
  scl : BitVec 2
  isgn : Bool
  off : BitVec 8
  a : VSrc
  b : VSrc
  deriving DecidableEq, Repr

structure TmmaOp where
  blk : Blk
  cont : Bool
  i4 : Bool
  acc : Tag               -- .a36 or .i36
  fmt : Tag
  acq : Bool
  sco : Scope
  k : BitVec 8
  a : BitVec 8
  b : BitVec 8
  deriving DecidableEq, Repr

structure TdrainOp where
  spd : Bool
  clr : Bool
  blk : Blk
  rnd : Rnd
  sco : Scope
  rel : Bool
  acc : Tag
  dst : Tag
  a : BitVec 8
  b : BitVec 8
  deriving DecidableEq, Repr

inductive GprogDir
  | rd (d : BitVec 8)
  | wr (a : BitVec 8)
  deriving DecidableEq, Repr

structure GprogOp where
  reg : BitVec 4
  dir : GprogDir
  deriving DecidableEq, Repr

structure CpyOp where
  form : CpyForm
  acq : Option Scope
  rel : Option Scope
  ssp : Bool
  dsp : Bool
  cw : Bool
  tmm : Bool
  h : BitVec 4
  a : BitVec 8
  deriving DecidableEq, Repr

structure RboxOp where
  d : BitVec 9
  a : BitVec 9
  b : VSrc
  hs : BitVec 8
  deriving DecidableEq, Repr

structure RtriOp where
  a : BitVec 9
  b : VSrc
  hs : BitVec 8
  deriving DecidableEq, Repr

structure RhintOp where
  d : BitVec 9
  a : BitVec 9
  hs : BitVec 8
  deriving DecidableEq, Repr

structure RhsetOp where
  a : BitVec 9
  hs : BitVec 8
  deriving DecidableEq, Repr

structure RastOp where
  d : BitVec 9
  a : BitVec 8
  b : BitVec 8
  deriving DecidableEq, Repr

structure TexOp where
  mode : TexMode
  d : BitVec 9
  a : VSrc
  b : VSrc
  td : BitVec 8
  sd : BitVec 8
  deriving DecidableEq, Repr

structure TexqOp where
  d : BitVec 9
  a : VSrc
  b : VSrc
  td : BitVec 8
  deriving DecidableEq, Repr

structure BlendOpn where
  bop : BlendOp
  f16 : Bool
  ord : Order
  sco : Scope
  off : BitVec 8
  a : VSrc
  b : VSrc
  deriving DecidableEq, Repr

/-- A wave slot of the device: core 0–255, quarter 0–3, wave slot 0–11. -/
structure WaveId where
  core : Nat
  q : Nat
  slot : Nat
  deriving DecidableEq, Repr

/-- A group: partition, launchid and linear group index. -/
structure GroupId where
  part : Nat
  lid : Nat
  idx : Nat
  deriving DecidableEq, Repr

/-- A unit that completes or is cancelled: launch by launchid, graph by (job, graph index), job. -/
inductive UnitRef
  | launch (lid : Nat)
  | graph (jid gi : Nat)
  | job (jid : Nat)
  deriving DecidableEq, Repr

/-- An entry of a port's MSI-X table: its vector, and the mask bit that a host writes there (R379). -/
structure MsixEntry where
  vec : Nat
  mask : Bool
  deriving DecidableEq, Repr

/-- A host's atomic on device memory: its operation, the type that it works on, and what CAS compares with (R244). -/
structure HostAtom where
  op : AtomOp
  tag : Tag
  cmp : W64
  deriving DecidableEq, Repr

/-- Where an uncorrectable error in group state was found (R401). -/
inductive ErrReader
  | wave (w : WaveId)
  | other
  deriving DecidableEq, Repr

/-- What an uncorrectable memory error hit (R402). -/
inductive MemErr | line | tag | dir | dram
  deriving DecidableEq, Repr

/-- What a PLDM sensor read names (R434), and the other registers that the sideband reads (R426, R427). -/
inductive Sensor
  | diePower
  | clusterClk (c : Nat)
  | clusterTemp (c : Nat)
  | partPower (p : Nat)
  | bootsts
  | timebase
  deriving DecidableEq, Repr

/-- What a management mailbox request asks (R428, R431, R434). -/
inductive MailReq
  | spdm (p : Nat) (req : BitVec 8)
  | raiseSvn (svn : BitVec 16)
  | other (data : BitVec 64)
  deriving DecidableEq, Repr

/-- A request of the mailbox, at an offset of its range of BAR0 (R434). -/
structure MailAt where
  off : Nat
  req : MailReq
  deriving DecidableEq, Repr

/-- What GET_MEASUREMENTS asks: the partition, whether the answer is signed, the measurement's index and the nonce
(R431). -/
structure MeasReq where
  p : Nat
  sign : Bool
  idx : Byte
  nonce : List Byte
  deriving DecidableEq, Repr

/-- The path a request to the security and management block arrives on (R431, R434). -/
inductive MgmtPath
  | sideband
  | port (h : Nat)
  deriving DecidableEq, Repr

inductive Instr
  -- control (chapter 05)
  | nop (h : Hdr) (u : Bool)
  | bra (h : Hdr) (imm : W32)
  | bz (h : Hdr) (a : PairSrc) (imm : W32)
  | bnz (h : Hdr) (a : PairSrc) (imm : W32)
  | call (h : Hdr) (d : BitVec 8) (imm : W32)
  | ret (h : Hdr) (a : BitVec 8)
  | jmpi (h : Hdr) (lnk : Option (BitVec 8)) (a : BitVec 8)
  | exit (h : Hdr)
  | exitSucc (h : Hdr) (idx : BitVec 2) (kovr : Bool) (k : BitVec 9)
  | waitc (h : Hdr) (f : BitVec 4) (n : BitVec 6)
  | yield (h : Hdr) (n : BitVec 8)
  | sleep (h : Hdr) (imm : W32)
  | xvi (h : Hdr) (d : BitVec 8) (a : BitVec 9)
  | xviPath
  | exset (h : Hdr) (op : ExOp) (a : PairSrc)
  | exget (h : Hdr) (d : BitVec 8)
  | pmask (h : Hdr) (d : BitVec 8) (p : BitVec 7)
  | gettime (h : Hdr) (d : BitVec 8)
  | csrr (h : Hdr) (d : BitVec 8) (csr : BitVec 12)
  | csrw (h : Hdr) (csr : BitVec 12) (a : SSrc)
  -- scalar loads (chapter 06)
  | sldkArg (h : Hdr) (wide : Bool) (d : BitVec 8) (imm : W32)
  | sldkConst (h : Hdr) (wide : Bool) (d : BitVec 8) (imm : W32)
  | sldkComplete (acc : Nat)
  -- integer and predicate mould (chapter 06)
  | vadd (h : Hdr) (o : Alu3)
  | vsub (h : Hdr) (o : Alu3)
  | vmul (h : Hdr) (o : Alu3)
  | vmulh (h : Hdr) (o : Alu3)
  | vmad (h : Hdr) (o : Alu3)
  | vand (h : Hdr) (o : Alu3)
  | vor (h : Hdr) (o : Alu3)
  | vxor (h : Hdr) (o : Alu3)
  | vshl (h : Hdr) (o : Alu3)
  | vshr (h : Hdr) (o : Alu3)
  | vsra (h : Hdr) (o : Alu3)
  | vmin (h : Hdr) (o : Alu3)
  | vmax (h : Hdr) (o : Alu3)
  | vabsd (h : Hdr) (o : Alu3)
  | vadds (h : Hdr) (o : AddsOp)
  | vclz (h : Hdr) (o : Alu2)
  | vpopc (h : Hdr) (o : Alu2)
  | vbfe (h : Hdr) (o : Alu3)
  | vbfi (h : Hdr) (o : Alu3)
  | vsel (h : Hdr) (o : SelOp)
  | vmov (h : Hdr) (o : Alu2)
  | vmovi (h : Hdr) (o : MoviOp)
  | vcmp (h : Hdr) (o : CmpOp)
  | vbint (h : Hdr) (o : BintOp)
  | vbdei (h : Hdr) (o : BdeiOp)
  | plog (h : Hdr) (o : PlogOp)
  | pmov (h : Hdr) (o : PmovOp)
  -- floating point (chapter 07)
  | fadd (h : Hdr) (o : FAlu3)
  | fsub (h : Hdr) (o : FAlu3)
  | fmul (h : Hdr) (o : FAlu3)
  | ffma (h : Hdr) (o : FAlu3)
  | fmin (h : Hdr) (o : FMinOp)
  | fmax (h : Hdr) (o : FMinOp)
  | fcmp (h : Hdr) (o : FCmpOp)
  | frnd (h : Hdr) (o : FRndOp)
  | hadd2 (h : Hdr) (o : HAlu)
  | hmul2 (h : Hdr) (o : HAlu)
  | hfma2 (h : Hdr) (o : HAlu)
  | frcp (h : Hdr) (o : SfuOp)
  | frsq (h : Hdr) (o : SfuOp)
  | fsqrt (h : Hdr) (o : SfuOp)
  | fex2 (h : Hdr) (o : SfuOp)
  | flg2 (h : Hdr) (o : SfuOp)
  | fsin (h : Hdr) (o : SfuOp)
  | fcos (h : Hdr) (o : SfuOp)
  | ftanh (h : Hdr) (o : SfuOp)
  | sfuResultWrite (acc : Nat)
  | cvt (h : Hdr) (o : CvtOp)
  | qnt (h : Hdr) (o : QntOp)
  | pack6 (h : Hdr) (o : Pack6Op)
  | unpack6 (h : Hdr) (o : Unpack6Op)
  | mxsc (h : Hdr) (o : MxscOp)
  | sattst (h : Hdr) (pd : BitVec 7) (mask : BitVec 8)
  | satclr (h : Hdr) (mask : BitVec 8)
  | satarm (h : Hdr) (set : BitVec 8) (clr : BitVec 8)
  | shfl (h : Hdr) (o : ShflOp)
  | rdlane (h : Hdr) (o : RdlaneOp)
  | wrlane (h : Hdr) (o : WrlaneOp)
  | vred (h : Hdr) (o : VredOp)
  | vscan (h : Hdr) (o : VscanOp)
  | vmatch (h : Hdr) (o : VmatchOp)
  | crossLaneResultWrite (acc : Nat)
  -- scratchpad, barriers, waiting (chapter 08)
  | lds (h : Hdr) (o : SpMem)
  | sts (h : Hdr) (o : SpMem)
  | atoms (h : Hdr) (o : SpAtom)
  | reds (h : Hdr) (o : SpAtom)
  | scratchpadOpPerformed (acc : Nat)
  | barinit (h : Hdr) (o : BarinitOp)
  | arrive (h : Hdr) (o : ArriveOp)
  | barrierArrival (acc : Nat)
  | bwait (h : Hdr) (o : BwaitOp)
  | bwaitWake (w : WaveId)
  | bwaitTimeout (w : WaveId)
  | btest (h : Hdr) (o : BtestOp)
  | btestComplete (acc : Nat)
  | waita (h : Hdr) (o : WaitaOp)
  | waitaWake (w : WaveId)
  | waitaPeriodicReread (w : WaveId)
  | waitaTimeout (w : WaveId)
  -- global memory (chapter 10)
  | ldg (h : Hdr) (o : GlMem)
  | stg (h : Hdr) (o : GlMem)
  | atom (h : Hdr) (o : GlAtom)
  | red (h : Hdr) (o : GlAtom)
  | globalLoadComplete (acc : Nat)
  | entryArrive (acc : Nat)
  | sliceAluPerform (acc lane : Nat)
  | globalStorePerformed (acc : Nat)
  | fence (h : Hdr) (o : FenceOp)
  | fenceComplete (acc : Nat)
  | cctlInv (h : Hdr) (rng : Option CctlRng)
  | cctlClean (h : Hdr) (rng : CctlRng)
  | cctlCleaninv (h : Hdr) (rng : CctlRng)
  | cctlComplete (acc : Nat)
  | pref (h : Hdr) (o : PrefOp)
  | qstat (h : Hdr) (d : BitVec 8) (q : BitVec 4)
  | qstatComplete (acc : Nat)
  | qdrop (h : Hdr) (q : BitVec 4) (n : BitVec 6)
  -- grid (chapter 12)
  | link (h : Hdr)
  | linkComplete (w : WaveId)
  | unlink (h : Hdr)
  | tmma (h : Hdr) (o : TmmaOp)
  | tzero (h : Hdr) (mask : BitVec 4)
  | tdrainSt (h : Hdr) (o : TdrainOp)
  | tdrainAddst (h : Hdr) (o : TdrainOp)
  | gprog (h : Hdr) (o : GprogOp)
  | gridQueueHead (g : GroupId)
  | slabInject (g : GroupId)
  | stepBoundary (g : GroupId)
  | tilePreempt (g : GroupId)
  | tileLinkWaitExpiry (g : GroupId)
  | tileRelink (g : GroupId)
  | tdrainComplete (g : GroupId)
  -- copy engine (chapter 13)
  | cpy (h : Hdr) (o : CpyOp)
  | copyAccept (core : Nat)
  | copyUnit (core : Nat)
  | copyComplete (core : Nat)
  | htest (h : Hdr) (d : BitVec 8) (a : HSrc)
  | hwait (h : Hdr) (d : BitVec 8) (a : HSrc)
  | handleStatusWrite (acc : Nat)
  | hcancel (h : Hdr) (a : HSrc)
  -- rays, raster, texture (chapter 14)
  | rbox (h : Hdr) (o : RboxOp)
  | rtri (h : Hdr) (o : RtriOp)
  | rhint (h : Hdr) (o : RhintOp)
  | rhset (h : Hdr) (o : RhsetOp)
  | rast (h : Hdr) (o : RastOp)
  | tex (h : Hdr) (o : TexOp)
  | texq (h : Hdr) (o : TexqOp)
  | rayOpComplete (acc : Nat)
  | blend (h : Hdr) (o : BlendOpn)
  -- launch, priority (chapter 15)
  | launchEnq (h : Hdr) (d a : BitVec 8)
  | launchEnqComplete (acc : Nat)
  | launchCancel (h : Hdr) (kind : CancelSel) (a : BitVec 8)
  | setpri (h : Hdr) (grp : Bool) (a : BitVec 8)
  -- traps (chapter 09)
  | trap (h : Hdr) (imm : W32)
  | trapret (h : Hdr)
  | faultretRetry (h : Hdr)
  | faultretSkip (h : Hdr)
  | faultretEmul (h : Hdr) (a : BitVec 8)
  -- debug (chapter 17)
  | dbgbrk (h : Hdr) (code : BitVec 16)
  -- scheduler events (chapter 05)
  | waveAged (w : WaveId)
  | yieldExpiry (w : WaveId)
  | sleepWake (w : WaveId)
  -- translation events (chapter 09)
  | walkComplete (fbid : Nat)
  | frespRetry (p fbid : Nat)
  | frespFail (p fbid : Nat)
  | tlbinvPartition (p : Nat)
  | tlbinvRange (p : Nat) (npages : W32)
  | tlbInvalidationEnd (p : Nat)
  -- launch queues (chapter 15)
  | doorbellWrite (port page p q : Nat) (size : Nat) (value : W64)
  | nopPacket (p q : Nat)
  | launchPacket (p q : Nat)
  | graphPacket (p q : Nat)
  | fencePacket (p q : Nat)
  | fenceCounterReread (p q : Nat)
  | signalPacket (p q : Nat)
  | signalWrite (p q : Nat)
  | deadlinePacket (p q : Nat)
  | cancelPacket (p q : Nat)
  | placementDecision (p : Nat)
  | reservationStart (p : Nat)
  | groupRetire (g : GroupId)
  | unitComplete (p : Nat) (u : UnitRef)
  | lehrPromotion (p jid : Nat)
  -- partition control (chapters 15 and 10)
  | commit (p : Nat)
  | carvedWayWritebackEnd (p : Nat)
  | save (p : Nat) (img : W64)
  | coresHalted (p : Nat)
  | imageComplete (p : Nat)
  | imageWritten (p : Nat)
  | restore (p : Nat) (img : W64)
  | migsave (p : Nat) (img : W64)
  | kill (p : Nat)
  -- bias and coherence (chapters 16 and 22)
  | bflipToDevice (page : BitVec 28)
  | bflipToHost (page : BitVec 28)
  | bflipQuery (page : BitVec 28)
  | biasFlipEnd
  | backInvalidateResponse (host line : Nat)
  | hostSnoop (host line : Nat) (own : Bool)
  | hostMemRead (host pa size : Nat) (keep : Bool)
  | hostMemWrite (host pa : Nat) (bytes : List Byte) (own : Bool) (rmw : Option HostAtom)
  | csmApertureAccess (host off size : Nat) (write : Option W64)
  | leaseRenew (port : Nat) (nonce : W32) (period : BitVec 16)
  | leaseArm (port : Nat) (nonce : W32)
  | leaseDisarm (port : Nat) (nonce : W32)
  | leaseYield (port : Nat) (nonce : W32)
  | leaseExpiry
  | linkDown (port : Nat)
  | linkUp (port : Nat)
  | cxwinWrite (n : Nat) (sz : Bool) (value : W64)
  | cxlCompletionTimeout (pa : Nat) (who : Option (Nat × Nat))
  -- errors (chapter 17)
  | correctedError (src : BitVec 8) (addr : W64) (part : BitVec 8)
  | uncorrectableError (src : BitVec 8) (addr : W64) (g : GroupId) (rd : ErrReader)
  | memoryUncorrectableError (kind : MemErr) (pa : Nat)
  | clusterFence (c : Nat)
  -- debug (chapter 17)
  | dresumeResume (p : Nat) (lid : W32) (wave : BitVec 4)
  | dresumeStep (p : Nat) (lid : W32) (wave : BitVec 4)
  | dresumeKill (p : Nat) (lid : W32) (wave : BitVec 4)
  | traceLoss (core : Nat)
  -- management (chapter 18)
  | powerGood
  | recoveryImageCheck (value : W64)
  | pmrExtend (p : Nat) (idx : W64)
  | getVersion (via : MgmtPath) (p : Nat)
  | getCapabilities (via : MgmtPath) (p : Nat)
  | negotiateAlgorithms (via : MgmtPath) (p : Nat)
  | getDigests (via : MgmtPath) (p : Nat)
  | getCertificate (via : MgmtPath) (p : Nat)
  | challenge (via : MgmtPath) (p : Nat) (nonce : List Byte)
  | getMeasurements (via : MgmtPath) (m : MeasReq)
  | mailboxRequest (port : Nat) (m : MailAt)
  | pldmSensorRead (x : Sensor)
  | pldmFwUpdate (image : List Byte)
  | clockInterval (diePower : Nat) (draws temps : List Nat)
  | msixVectorUnmask (port : Nat) (vec : MsixEntry)
  | registerWrite (port addr size : Nat) (value : W64)
  | faultQueueHeadAdvance (p : Nat) (value : W64)
  | stopRingHeadAdvance (p : Nat) (value : W64)
  | instructionFetchReturn (w : WaveId)
  | deviceReset
  | powerLoss
  deriving DecidableEq, Repr

end Sys2Proof
end

