-- ==== Sys2Proof/WellFormed.lean ====
section
/-!
DEFINITION. Which instructions the A9 has an encoding for: operand classes and pairs (R62–R64, R67,
R68), the tags, orders, scopes and rounding modes each entry accepts (R53, R71), and the ranges of the
names an event carries. What depends on the wave's allotment (R66) is checked by the machine.
-/

namespace Sys2Proof

/-- True for the 64-bit integer tags (R148). -/
def Tag.wide : Tag → Bool
  | .b64 | .i64 | .n64 => true
  | _ => false

/-- True for the tags read as signed integers. -/
def Tag.signed : Tag → Bool
  | .i8 | .i16 | .i32 | .i64 | .i36 => true
  | _ => false

def Tag.isBits : Tag → Bool
  | .b32 | .b64 => true
  | _ => false

/-- .i32 .n32 .i64 .n64 -/
def Tag.isInt : Tag → Bool
  | .i32 | .n32 | .i64 | .n64 => true
  | _ => false

/-- .i32 .n32 .b32 .i64 .n64 .b64 -/
def Tag.isIntOrBits (t : Tag) : Bool := t.isInt || t.isBits

def VSrc.ok32 : VSrc → Bool
  | .v n => n.toNat < 320
  | _ => true

/-- A 64-bit vector-space operand (R64). -/
def VSrc.ok64 : VSrc → Bool
  | .v n => n.toNat < 320 && n.toNat % 2 = 0
  | .q _ | .zero => true
  | .bcast n => n.toNat % 2 = 0
  | _ => false

def SSrc.ok32 : SSrc → Bool
  | .f n => n.toNat < 12
  | _ => true

/-- A 64-bit scalar-space operand (R64): an even register, exec, or a queue port. -/
def SSrc.ok64 : SSrc → Bool
  | .s n => n.toNat % 2 = 0
  | .execLo | .q _ => true
  | _ => false

def VSrc.ok (wide : Bool) (x : VSrc) : Bool := if wide then x.ok64 else x.ok32

def SSrc.ok (wide : Bool) (x : SSrc) : Bool := if wide then x.ok64 else x.ok32

/-- A source in the space that U selects (R68). -/
def Src.ok (u wide : Bool) : Src → Bool
  | .vec x => !u && x.ok wide
  | .sca x => u && x.ok wide

/-- A vector register, or an even one for a pair. -/
def vregOk (wide : Bool) (n : BitVec 9) : Bool := n.toNat < 320 && (!wide || n.toNat % 2 = 0)

/-- A scalar register, or an even one for a pair. -/
def sregOk (wide : Bool) (n : BitVec 8) : Bool := !wide || n.toNat % 2 = 0

/-- A register destination in the space that U selects; no queue port. -/
def Dst.ok (u wide : Bool) : Dst → Bool
  | .v n => !u && vregOk wide n
  | .s n => u && sregOk wide n
  | .q _ => false

/-- A vector register, pair or queue port (LDG, ATOM, STG). -/
def Dst.okMem (wide : Bool) : Dst → Bool
  | .v n => vregOk wide n
  | .q _ => true
  | .s _ => false

def PairSrc.ok : PairSrc → Bool
  | .s n => n.toNat % 2 = 0
  | .exec => true

/-- All three operands as wide as the tag. -/
def Alu3.ok (o : Alu3) : Bool :=
  o.d.ok o.u o.tag.wide && o.a.ok o.u o.tag.wide && o.b.ok o.u o.tag.wide

/-- D and A as wide as the tag, B of 32 bits (shifts and bit fields). -/
def Alu3.okB32 (o : Alu3) : Bool :=
  o.d.ok o.u o.tag.wide && o.a.ok o.u o.tag.wide && o.b.ok o.u false

/-- D as wide as the tag, A and B of 32 bits (VBINT, R157). -/
def Alu3.okD (o : Alu3) : Bool :=
  o.d.ok o.u o.tag.wide && o.a.ok o.u false && o.b.ok o.u false

/-- A as wide as the tag, D of 32 bits (VCLZ, VPOPC, VBDEI). -/
def Alu2.okA (o : Alu2) : Bool := o.d.ok o.u false && o.a.ok o.u o.tag.wide

def FAlu3.ok (o : FAlu3) : Bool := o.d.ok o.u false && o.a.ok o.u false && o.b.ok o.u false

def FMinOp.ok (o : FMinOp) : Bool := o.d.ok o.u false && o.a.ok o.u false && o.b.ok o.u false

/-- .bf16 takes .rne only (R91, R166). -/
def HAlu.ok (o : HAlu) : Bool :=
  o.d.ok o.u false && o.a.ok o.u false && o.b.ok o.u false && (!o.bf || o.rnd = .rne)

def SfuOp.ok (o : SfuOp) : Bool := vregOk false o.d && o.a.ok false

/-- Elements of a format in 32 bits: the limit of SELA and SELD (R170). -/
def Tag.elems : Tag → Nat
  | .e2m1 => 8
  | .i8 | .n8 | .e4m3 | .e5m2 | .l6 => 4
  | .i16 | .n16 | .f16 | .bf16 => 2
  | _ => 1

/-- 64 bits wide as a CVT operand (R170). -/
def Tag.cvtWide : Tag → Bool
  | .i64 | .n64 | .a36 | .i36 => true
  | _ => false

/-- Tags that CVT accepts (R170). -/
def Tag.cvtOk : Tag → Bool
  | .b32 | .b64 | .mx8 | .mx4 => false
  | _ => true

def CvtOp.ok (o : CvtOp) : Bool :=
  o.dst.cvtOk && o.src.cvtOk && o.seld.toNat < o.dst.elems && o.sela.toNat < o.src.elems &&
  vregOk o.dst.cvtWide o.d && o.a.ok o.src.cvtWide

/-- Destination formats of QNT (R173). -/
def Tag.qntOk : Tag → Bool
  | .e4m3 | .e5m2 | .e2m1 | .i8 | .n8 | .l6 | .f16 | .bf16 => true
  | _ => false

def QntOp.ok (o : QntOp) : Bool :=
  o.dst.qntOk && o.seld.toNat < o.dst.elems && vregOk false o.d && o.a.ok false && o.b.ok false

/-- Tags of each reduction operation (R181). -/
def RedOp.tagOk : RedOp → Tag → Bool
  | .add, t | .min, t | .max, t => t.isInt
  | .and, t | .or, t | .xor, t => t.isBits
  | .fadd, t | .fmin, t | .fmax, t => t = .f32

/-- RND is assigned for .fadd only (R178). -/
def RedOp.rndOk (r : RedOp) (m : Rnd) : Bool := r = .fadd || m = .rne

/-- Tags of each atomic operation (R194). -/
def AtomOp.tagOk : AtomOp → Tag → Bool
  | .add, t | .min, t | .max, t => t.isInt
  | .and, t | .or, t | .xor, t | .exch, t | .cas, t => t.isBits
  | .inc, t | .dec, t => t = .n32 || t = .n64
  | .fadd, t | .fmin, t | .fmax, t => t = .f32

/-- Memory tags of loads and stores (R193). -/
def Tag.memOk : Tag → Bool
  | .n8 | .i8 | .n16 | .i16 | .b32 | .b64 => true
  | _ => false

/-- A weak access carries scope 0 (R71). -/
def weakOk (o : Order) (sc : Scope) : Bool := o ≠ .weak || sc = .wave

def Scope.inWindow : Scope → Bool
  | .wave | .grp => true
  | _ => false

def loadOrd : Order → Bool
  | .weak | .rlx | .acq => true
  | _ => false

def storeOrd : Order → Bool
  | .weak | .rlx | .rel => true
  | _ => false

/-- LDS when `load`, STS otherwise (R191). -/
def SpMem.ok (load : Bool) (o : SpMem) : Bool :=
  o.tag.memOk && o.sco.inWindow && weakOk o.ord o.sco &&
  (if load then loadOrd o.ord else storeOrd o.ord) &&
  vregOk o.tag.wide o.d && o.a.ok false && o.b.ok false

/-- ATOMS when `ret`, REDS otherwise (R191, R194). -/
def SpAtom.ok (ret : Bool) (o : SpAtom) : Bool :=
  o.op.tagOk o.tag && o.sco.inWindow && weakOk o.ord o.sco && o.a.ok false && o.b.ok o.tag.wide &&
  (if ret then vregOk o.tag.wide o.d
   else storeOrd o.ord && o.op ≠ .exch && o.op ≠ .cas && o.d = 0)

/-- LDG when `load`, STG otherwise (R241). -/
def GlMem.ok (load : Bool) (o : GlMem) : Bool :=
  o.tag.memOk && weakOk o.ord o.sco && (if load then loadOrd o.ord else storeOrd o.ord) &&
  o.d.okMem o.tag.wide && o.a.ok true && o.b.ok false

/-- ATOM when `ret`, RED otherwise; ATOM.cas takes no queue destination (R241). -/
def GlAtom.ok (ret : Bool) (o : GlAtom) : Bool :=
  o.op.tagOk o.tag && weakOk o.ord o.sco && o.a.ok true && o.b.ok o.tag.wide &&
  (if ret then
     o.d.okMem o.tag.wide && (o.op ≠ .cas || match o.d with | .v _ => true | _ => false)
   else storeOrd o.ord && o.op ≠ .exch && o.op ≠ .cas && o.d = .v 0)

def WaitaOp.ok (o : WaitaOp) : Bool :=
  (o.tag.isInt || (o.tag.isBits && (o.cond = .eq || o.cond = .ne))) &&
  (!o.spd || o.sco.inWindow) && sregOk (!o.spd) o.a && sregOk o.tag.wide o.b

/-- Accumulator and operand formats of TMMA (R296). -/
def TmmaOp.ok (o : TmmaOp) : Bool :=
  (match o.acc, o.fmt with
   | .a36, .bf16 | .a36, .f16 | .a36, .e4m3 | .a36, .e5m2 | .a36, .mx8 | .a36, .mx4 | .a36, .l6 => !o.i4
   | .i36, .i8 => true
   | _, _ => false) &&
  (o.acq || o.sco = .wave) && sregOk true o.a && sregOk true o.b

/-- Accumulator reading, destination format, rounding and scope of TDRAIN (R297). -/
def TdrainOp.ok (addst : Bool) (o : TdrainOp) : Bool :=
  (match addst, o.acc, o.dst with
   | false, .a36, .f32 | false, .a36, .bf16 | false, .a36, .f16 | false, .a36, .a36 => true
   | false, .i36, .i32 | false, .i36, .f32 | false, .i36, .i36 => true
   | true, .a36, .f32 | true, .a36, .a36 | true, .i36, .i32 | true, .i36, .i36 => true
   | _, _, _ => false) &&
  (!addst || o.rnd = .rne) && (o.rel || o.sco = .wave) && (!o.spd || o.sco.inWindow) &&
  sregOk (!o.spd) o.a

/-- Registers 10–15 are reserved, GRPR and GSTAT cannot be written (R289, R291). -/
def GprogOp.ok (o : GprogOp) : Bool :=
  match o.dir with
  | .rd _ => o.reg.toNat < 10
  | .wr _ => o.reg.toNat < 8

/-- Each flag's scope is restricted by the side it governs (R302). -/
def CpyOp.ok (o : CpyOp) : Bool :=
  sregOk true o.a &&
  (match o.acq with | none => true | some sc => !o.ssp || sc.inWindow) &&
  (match o.rel with | none => true | some sc => !o.dsp || sc.inWindow)

def BlendOpn.ok (o : BlendOpn) : Bool :=
  storeOrd o.ord && o.sco.inWindow && weakOk o.ord o.sco && o.a.ok false && o.b.ok o.f16

def WaveId.ok (w : WaveId) : Bool := w.core < 256 && w.q < 4 && w.slot < 12

def GroupId.ok (g : GroupId) : Bool := g.part < 16

/-- An EXIT whose SF field names a flag, which is the reserved-field trap (R123). -/
def Instr.exitFlag : Instr → Bool
  | .exit h | .exitSucc h _ _ _ => h.sf.toNat < 12
  | _ => false

/-- No field of the instruction breaks R53; an event names things the device can have. -/
def Instr.legal : Instr → Bool
  | .nop _ _ | .bra _ _ => true
  | .bz _ a _ | .bnz _ a _ => a.ok
  | .call _ d _ => sregOk true d
  | .ret _ a => sregOk true a
  | .jmpi _ l a => sregOk true a && (match l with | none => true | some d => sregOk true d)
  | .exit _ => true
  | .exitSucc _ _ _ k => k.toNat % 8 = 0
  | .waitc _ f n => f.toNat < 12 && n.toNat < 63
  | .yield _ _ | .sleep _ _ => true
  | .xvi _ d a => sregOk true d && vregOk false a
  | .xviPath => true
  | .exset _ _ a => a.ok
  | .exget _ d | .gettime _ d => sregOk true d
  | .pmask _ d _ => sregOk true d
  | .csrr _ _ _ => true
  | .csrw _ _ a => a.ok32
  | .sldkArg _ w d _ | .sldkConst _ w d _ => sregOk w d
  | .sldkComplete _ => true
  | .vadd _ o | .vsub _ o | .vmul _ o | .vmad _ o => o.tag.isIntOrBits && o.ok
  | .vmulh _ o | .vmin _ o | .vmax _ o | .vabsd _ o => o.tag.isInt && o.ok
  | .vand _ o | .vor _ o | .vxor _ o => o.tag.isBits && o.ok
  | .vshl _ o | .vshr _ o | .vsra _ o => o.tag.isBits && o.okB32
  | .vadds _ o => o.o.tag.isInt && o.o.ok
  | .vclz _ o | .vpopc _ o => o.tag.isBits && o.okA
  | .vbfe _ o => o.tag.isInt && o.okB32
  | .vbfi _ o => o.tag.isBits && o.okB32
  | .vsel _ o => o.o.tag.isBits && o.o.ok
  | .vmov _ o => o.tag = .b32 && o.okA
  | .vmovi _ o => o.d.ok o.u o.wide
  | .vcmp _ o => o.tag.isInt && o.a.ok o.u o.tag.wide && o.b.ok o.u o.tag.wide
  | .vbint _ o => o.o.tag.isBits && o.o.okD
  | .vbdei _ o => o.o.tag.isBits && o.o.okA && o.sel.toNat < (if o.three then 3 else 2)
  | .plog _ _ => true
  | .pmov _ o =>
    (!o.u || o.cnt = 0) &&
    (match o.dir with | .tor d => d.ok o.u o.u | .fromr a => a.ok o.u o.u)
  | .fadd _ o | .fsub _ o | .fmul _ o | .ffma _ o => o.ok
  | .fmin _ o | .fmax _ o => o.ok
  | .fcmp _ o => o.a.ok o.u false && o.b.ok o.u false
  | .frnd _ o => o.d.ok o.u false && o.a.ok o.u false
  | .hadd2 _ o | .hmul2 _ o | .hfma2 _ o => o.ok
  | .frcp _ o | .frsq _ o | .fsqrt _ o | .fex2 _ o | .flg2 _ o | .fsin _ o | .fcos _ o | .ftanh _ o => o.ok
  | .sfuResultWrite _ => true
  | .cvt _ o => o.ok
  | .qnt _ o => o.ok
  | .pack6 _ o => vregOk false o.d && o.a.ok false
  | .unpack6 _ o => vregOk false o.d && o.a.ok false && (!o.quad || o.sel = 0)
  | .mxsc _ o => vregOk false o.d && o.a.ok false
  | .sattst _ _ _ | .satclr _ _ | .satarm _ _ _ => true
  | .shfl _ o => o.seg.toNat ≤ 6 && vregOk o.wide o.d && o.a.ok o.wide && o.b.ok o.wide
  | .rdlane _ o => sregOk o.wide o.d && vregOk o.wide o.a && sregOk o.wide o.b
  | .wrlane _ o => vregOk o.wide o.d && sregOk o.wide o.a && sregOk o.wide o.b
  | .vred _ o => o.rop.tagOk o.tag && o.rop.rndOk o.rnd && sregOk o.tag.wide o.d && o.a.ok o.tag.wide
  | .vscan _ o => o.rop.tagOk o.tag && o.rop.rndOk o.rnd && vregOk o.tag.wide o.d && o.a.ok o.tag.wide
  | .vmatch _ o =>
    (o.tag = .b32 || o.tag = .b64 || o.tag = .f32) && vregOk true o.d && o.a.ok o.tag.wide
  | .crossLaneResultWrite _ => true
  | .lds _ o => o.ok true
  | .sts _ o => o.ok false
  | .atoms _ o => o.ok true
  | .reds _ o => o.ok false
  | .scratchpadOpPerformed _ => true
  | .barinit _ _ => true
  | .arrive _ o => o.cnti = 0 || o.b = 0
  | .barrierArrival _ => true
  | .bwait _ _ => true
  | .bwaitWake w | .bwaitTimeout w => w.ok
  | .btest _ _ | .btestComplete _ => true
  | .waita _ o => o.ok
  | .waitaWake w | .waitaPeriodicReread w | .waitaTimeout w => w.ok
  | .ldg _ o => o.ok true
  | .stg _ o => o.ok false
  | .atom _ o => o.ok true
  | .red _ o => o.ok false
  | .globalLoadComplete _ | .entryArrive _ | .sliceAluPerform _ _ | .globalStorePerformed _ => true
  | .fence _ _ | .fenceComplete _ => true
  | .cctlInv _ r => (match r with | none => true | some r => sregOk true r.a)
  | .cctlClean _ r | .cctlCleaninv _ r => sregOk true r.a
  | .cctlComplete _ => true
  | .pref _ o => o.a.ok true && o.b.ok false
  | .qstat _ _ _ | .qstatComplete _ | .qdrop _ _ _ => true
  | .link _ | .unlink _ => true
  | .linkComplete w => w.ok
  | .tmma _ o => o.ok
  | .tzero _ _ => true
  | .tdrainSt _ o => o.ok false
  | .tdrainAddst _ o => o.ok true
  | .gprog _ o => o.ok
  | .gridQueueHead g | .slabInject g | .stepBoundary g | .tilePreempt g | .tileLinkWaitExpiry g
  | .tileRelink g | .tdrainComplete g => g.ok
  | .cpy _ o => o.ok
  | .copyAccept c | .copyUnit c | .copyComplete c => c < 256
  | .htest _ _ _ | .hwait _ _ _ | .handleStatusWrite _ | .hcancel _ _ => true
  | .rbox _ o => vregOk true o.d && vregOk false o.a && o.b.ok false && sregOk true o.hs
  | .rtri _ o => vregOk false o.a && o.b.ok false && sregOk true o.hs
  | .rhint _ o => vregOk true o.d && vregOk false o.a && sregOk true o.hs
  | .rhset _ o => vregOk false o.a && sregOk true o.hs
  | .rast _ o => vregOk false o.d
  | .tex _ o => vregOk false o.d && o.a.ok false && o.b.ok false && sregOk true o.td &&
      (o.mode = .stoch || o.sd = 0)
  | .texq _ o => vregOk false o.d && o.a.ok false && o.b.ok false && sregOk true o.td
  | .rayOpComplete _ => true
  | .blend _ o => o.ok
  | .launchEnq _ d a => sregOk true d && sregOk true a
  | .launchEnqComplete _ | .launchCancel _ _ _ | .setpri _ _ _ => true
  | .trap _ _ | .trapret _ | .faultretRetry _ | .faultretSkip _ => true
  | .faultretEmul _ a => sregOk true a
  | .dbgbrk _ _ => true
  | .waveAged w | .yieldExpiry w | .sleepWake w => w.ok
  | .walkComplete f => f < 4096
  | .frespRetry p f | .frespFail p f => p < 16 && f < 4096
  | .tlbinvPartition p | .tlbinvRange p _ | .tlbInvalidationEnd p => p < 16
  | .doorbellWrite port page p q size _ => port < 2 && page < 2 && p < 16 && q < 8 && (size = 4 || size = 8)
  | .nopPacket p q | .launchPacket p q | .graphPacket p q | .fencePacket p q | .fenceCounterReread p q
  | .signalPacket p q | .signalWrite p q | .deadlinePacket p q | .cancelPacket p q => p < 16 && q < 8
  | .placementDecision p | .reservationStart p => p < 16
  | .groupRetire g => g.ok
  | .unitComplete p _ | .lehrPromotion p _ => p < 16
  | .commit p | .carvedWayWritebackEnd p | .coresHalted p | .imageComplete p | .imageWritten p
  | .kill p => p < 16
  | .save p _ | .restore p _ | .migsave p _ => p < 16
  | .bflipToDevice _ | .bflipToHost _ | .bflipQuery _ | .biasFlipEnd => true
  | .backInvalidateResponse h l => h < 2 && l < 2 ^ 41
  | .hostSnoop h l _ => h < 4 && l < 2 ^ 41
  | .hostMemRead h pa sz _ => h < 4 && pa < 2 ^ 48 && 1 ≤ sz && pa % 128 + sz ≤ 128
  | .hostMemWrite h pa bs _ rmw => h < 4 && pa < 2 ^ 48 && 1 ≤ bs.length && pa % 128 + bs.length ≤ 128 &&
      (rmw.isNone || ((bs.length = 4 || bs.length = 8) && pa % bs.length = 0))
  | .csmApertureAccess h off sz _ => h < 2 && off < 2 ^ 28 && (sz = 4 || sz = 8) && off % sz = 0
  | .leaseRenew p _ _ | .leaseArm p _ | .leaseDisarm p _ | .leaseYield p _ => p < 2
  | .leaseExpiry => true
  | .linkDown p | .linkUp p => p < 2
  | .cxwinWrite n _ _ => n < 2
  | .cxlCompletionTimeout pa _ => pa < 2 ^ 48
  | .correctedError src _ _ => src.toNat ≤ 12
  | .uncorrectableError src _ g _ => src.toNat ≤ 6 && g.ok
  | .memoryUncorrectableError _ pa => pa < 2 ^ 48
  | .clusterFence c => c < 64
  | .dresumeResume p _ _ | .dresumeStep p _ _ | .dresumeKill p _ _ => p < 16
  | .traceLoss c => c < 256
  | .powerGood | .recoveryImageCheck _ => true
  | .pmrExtend p _ => p < 16
  | .getVersion _ p | .getCapabilities _ p | .negotiateAlgorithms _ p | .getDigests _ p
  | .getCertificate _ p | .challenge _ p _ => p < 16
  | .getMeasurements _ m => m.p < 16
  | .mailboxRequest p m => p < 2 && m.off < 0x1000
  | .pldmSensorRead _ | .pldmFwUpdate _ | .clockInterval _ _ _ => true
  | .msixVectorUnmask p v => p < 2 && v.vec < 161
  | .registerWrite p _ sz _ => p < 2 && (sz = 4 || sz = 8)
  | .faultQueueHeadAdvance p _ | .stopRingHeadAdvance p _ => p < 16
  | .instructionFetchReturn w => w.ok
  | .deviceReset | .powerLoss => true

/-- The instruction has an encoding, or the event names things the device can have. -/
def Instr.wf (i : Instr) : Bool := i.legal && !i.exitFlag

end Sys2Proof
end

