-- ==== Sys2Proof/Decode.lean ====
section
/-!
DEFINITION. The 96-bit instruction word: its fields and byte order (R50, R51), the decoder with the
fate of words that are not instructions (R53, R54), and the encoder, both from the encoding tables of
the spec (R69–R71 and the tables of the entries).
-/

namespace Sys2Proof

/-- The fields of an instruction word (R50). -/
structure Fields where
  ru : BitVec 2
  yl : BitVec 1
  sf : BitVec 4
  wt : BitVec 12
  st : BitVec 4
  m : BitVec 24
  ge : BitVec 1
  gn : BitVec 1
  gp : BitVec 7
  b : BitVec 9
  a : BitVec 9
  d : BitVec 9
  u : BitVec 1
  fn : BitVec 4
  opc : BitVec 8
  deriving DecidableEq, Repr

/-- The word that holds the fields, high bit first (R50). -/
def Fields.pack (f : Fields) : BitVec 96 :=
  f.ru ++ (f.yl ++ (f.sf ++ (f.wt ++ (f.st ++ (f.m ++ (f.ge ++ (f.gn ++ (f.gp ++ (f.b ++ (f.a ++
    (f.d ++ (f.u ++ (f.fn ++ f.opc)))))))))))))

/-- The fields of a word, at the fixed positions of R50. -/
def Fields.unpack (w : BitVec 96) : Fields where
  ru := w.extractLsb' 94 2
  yl := w.extractLsb' 93 1
  sf := w.extractLsb' 89 4
  wt := w.extractLsb' 77 12
  st := w.extractLsb' 73 4
  m := w.extractLsb' 49 24
  ge := w.extractLsb' 48 1
  gn := w.extractLsb' 47 1
  gp := w.extractLsb' 40 7
  b := w.extractLsb' 31 9
  a := w.extractLsb' 22 9
  d := w.extractLsb' 13 9
  u := w.extractLsb' 12 1
  fn := w.extractLsb' 8 4
  opc := w.extractLsb' 0 8

/-- The scheduling fields and the guard of a word (R56–R61). -/
def Fields.hdr (f : Fields) : Hdr where
  guard := if f.ge = 1 then some ⟨f.gn == 1, f.gp⟩ else none
  st := f.st
  wt := f.wt
  sf := f.sf
  yl := f.yl == 1
  ru := f.ru

/-! ### Codes of the sub-fields (R69, R71) -/

def Tag.code : Tag → BitVec 5
  | .b32 => 0 | .b64 => 1 | .i8 => 2 | .i16 => 3 | .i32 => 4 | .i64 => 5 | .n8 => 6 | .n16 => 7
  | .n32 => 8 | .n64 => 9 | .f32 => 10 | .f16 => 11 | .bf16 => 12 | .e4m3 => 13 | .e5m2 => 14
  | .e2m1 => 15 | .l6 => 16 | .mx8 => 17 | .mx4 => 18 | .a36 => 19 | .i36 => 20

def Tag.ofCode (c : BitVec 5) : Option Tag :=
  [Tag.b32, .b64, .i8, .i16, .i32, .i64, .n8, .n16, .n32, .n64, .f32, .f16, .bf16, .e4m3, .e5m2,
   .e2m1, .l6, .mx8, .mx4, .a36, .i36][c.toNat]?

def Order.code : Order → BitVec 3
  | .weak => 0 | .rlx => 1 | .acq => 2 | .rel => 3 | .ar => 4

def Order.ofCode (c : BitVec 3) : Option Order :=
  [Order.weak, .rlx, .acq, .rel, .ar][c.toNat]?

def Scope.code : Scope → BitVec 3
  | .wave => 0 | .grp => 1 | .clu => 2 | .dev => 3 | .sys => 4

def Scope.ofCode (c : BitVec 3) : Option Scope :=
  [Scope.wave, .grp, .clu, .dev, .sys][c.toNat]?

def Rnd.code : Rnd → BitVec 2
  | .rne => 0 | .rz => 1 | .ru => 2 | .rd => 3

def Rnd.ofCode (c : BitVec 2) : Option Rnd := [Rnd.rne, .rz, .ru, .rd][c.toNat]?

def Cond.code : Cond → BitVec 3
  | .eq => 0 | .ne => 1 | .lt => 2 | .le => 3 | .gt => 4 | .ge => 5

def Cond.ofCode (c : BitVec 3) : Option Cond := [Cond.eq, .ne, .lt, .le, .gt, .ge][c.toNat]?

def FCond.code : FCond → BitVec 4
  | .eq => 0 | .ne => 1 | .lt => 2 | .le => 3 | .gt => 4 | .ge => 5 | .num => 6 | .nan => 7

def FCond.ofCode (c : BitVec 4) : Option FCond :=
  [FCond.eq, .ne, .lt, .le, .gt, .ge, .num, .nan][c.toNat]?

def AtomOp.code : AtomOp → BitVec 4
  | .add => 0 | .min => 1 | .max => 2 | .and => 3 | .or => 4 | .xor => 5 | .exch => 6 | .cas => 7
  | .inc => 8 | .dec => 9 | .fadd => 10 | .fmin => 11 | .fmax => 12

def AtomOp.ofCode (c : BitVec 4) : Option AtomOp :=
  [AtomOp.add, .min, .max, .and, .or, .xor, .exch, .cas, .inc, .dec, .fadd, .fmin, .fmax][c.toNat]?

def RedOp.code : RedOp → BitVec 4
  | .add => 0 | .min => 1 | .max => 2 | .and => 3 | .or => 4 | .xor => 5 | .fadd => 6 | .fmin => 7
  | .fmax => 8

def RedOp.ofCode (c : BitVec 4) : Option RedOp :=
  [RedOp.add, .min, .max, .and, .or, .xor, .fadd, .fmin, .fmax][c.toNat]?

def ExOp.code : ExOp → BitVec 4
  | .set => 0 | .and => 1 | .andn => 2 | .or => 3

def ExOp.ofCode (c : BitVec 4) : Option ExOp := [ExOp.set, .and, .andn, .or][c.toNat]?

def ShflMode.code : ShflMode → BitVec 4
  | .idx => 0 | .up => 1 | .down => 2 | .xor => 3

def ShflMode.ofCode (c : BitVec 4) : Option ShflMode := [ShflMode.idx, .up, .down, .xor][c.toNat]?

def FenceKind.code : FenceKind → BitVec 4
  | .acq => 0 | .rel => 1 | .ar => 2 | .sc => 3

def FenceKind.ofCode (c : BitVec 4) : Option FenceKind :=
  [FenceKind.acq, .rel, .ar, .sc][c.toNat]?

def TexMode.code : TexMode → BitVec 4
  | .point => 0 | .bilin => 1 | .stoch => 2

def TexMode.ofCode (c : BitVec 4) : Option TexMode := [TexMode.point, .bilin, .stoch][c.toNat]?

def BlendOp.code : BlendOp → BitVec 3
  | .rep => 0 | .over => 1 | .add => 2 | .min => 3 | .max => 4

def BlendOp.ofCode (c : BitVec 3) : Option BlendOp :=
  [BlendOp.rep, .over, .add, .min, .max][c.toNat]?

def CpyForm.code : CpyForm → BitVec 4
  | .lin => 0 | .d2 => 1 | .d3 => 2 | .gath => 3

def CpyForm.ofCode (c : BitVec 4) : Option CpyForm := [CpyForm.lin, .d2, .d3, .gath][c.toNat]?

def Blk.code : Blk → BitVec 2
  | .b1x1 => 0 | .b2x1 => 1 | .b1x2 => 2 | .b2x2 => 3

def Blk.ofCode (c : BitVec 2) : Option Blk := [Blk.b1x1, .b2x1, .b1x2, .b2x2][c.toNat]?

def CancelSel.code : CancelSel → BitVec 2
  | .launch => 0 | .ltag => 1 | .gtag => 2 | .jtag => 3

def CancelSel.ofCode (c : BitVec 2) : Option CancelSel :=
  [CancelSel.launch, .ltag, .gtag, .jtag][c.toNat]?

/-! ### Register fields (R62–R64, R67) -/

def VSrc.code : VSrc → BitVec 9
  | .v n => n
  | .q n => 320 + n.zeroExtend 9
  | .laneid => 336
  | .tidX => 337
  | .tidY => 338
  | .tidZ => 339
  | .zero => 340
  | .bcast n => 384 + n.zeroExtend 9

/-- R62 as a source. -/
def VSrc.ofCode (c : BitVec 9) : Option VSrc :=
  if c.toNat < 320 then some (.v c)
  else if c.toNat < 336 then some (.q ((c - 320).truncate 4))
  else if 384 ≤ c.toNat then some (.bcast ((c - 384).truncate 7))
  else if c = 336 then some .laneid
  else if c = 337 then some .tidX
  else if c = 338 then some .tidY
  else if c = 339 then some .tidZ
  else if c = 340 then some .zero
  else none

def SSrc.code : SSrc → BitVec 9
  | .s n => n.zeroExtend 9
  | .h n => 256 + n.zeroExtend 9
  | .f n => 272 + n.zeroExtend 9
  | .execLo => 284
  | .execHi => 285
  | .waveid => 286
  | .grpX => 287
  | .grpY => 288
  | .grpZ => 289
  | .launchid => 290
  | .partid => 291
  | .coreid => 292
  | .quarterid => 293
  | .width => 294
  | .pathidx => 295
  | .satflags => 296
  | .q n => 320 + n.zeroExtend 9

/-- R63 as a source. -/
def SSrc.ofCode (c : BitVec 9) : Option SSrc :=
  if c.toNat < 256 then some (.s (c.truncate 8))
  else if c.toNat < 272 then some (.h ((c - 256).truncate 4))
  else if c.toNat < 284 then some (.f ((c - 272).truncate 4))
  else if 320 ≤ c.toNat ∧ c.toNat < 336 then some (.q ((c - 320).truncate 4))
  else if c = 284 then some .execLo
  else if c = 285 then some .execHi
  else if c = 286 then some .waveid
  else if c = 287 then some .grpX
  else if c = 288 then some .grpY
  else if c = 289 then some .grpZ
  else if c = 290 then some .launchid
  else if c = 291 then some .partid
  else if c = 292 then some .coreid
  else if c = 293 then some .quarterid
  else if c = 294 then some .width
  else if c = 295 then some .pathidx
  else if c = 296 then some .satflags
  else none

def Src.code : Src → BitVec 9
  | .vec x => x.code
  | .sca x => x.code

/-- A source in the space that U selects (R68). -/
def Src.ofCode (u : Bool) (c : BitVec 9) : Option Src :=
  if u then (SSrc.ofCode c).map .sca else (VSrc.ofCode c).map .vec

def Dst.code : Dst → BitVec 9
  | .v n => n
  | .q n => 320 + n.zeroExtend 9
  | .s n => n.zeroExtend 9

/-- A scalar register s0–s255. -/
def sreg (c : BitVec 9) : Option (BitVec 8) := if c.toNat < 256 then some (c.truncate 8) else none

/-- A vector register v0–v319. -/
def vreg (c : BitVec 9) : Option (BitVec 9) := if c.toNat < 320 then some c else none

/-- A predicate field: bits [8:7] must be 0 (R67). -/
def preg (c : BitVec 9) : Option (BitVec 7) := if c.toNat < 128 then some (c.truncate 7) else none

/-- A destination in the space that U selects. -/
def Dst.ofCode (u : Bool) (c : BitVec 9) : Option Dst :=
  if u then (sreg c).map .s else (vreg c).map .v

/-- A vector register or a queue port. -/
def Dst.ofMem (c : BitVec 9) : Option Dst :=
  if c.toNat < 320 then some (.v c)
  else if c.toNat < 336 then some (.q ((c - 320).truncate 4))
  else none

def PairSrc.code : PairSrc → BitVec 9
  | .s n => n.zeroExtend 9
  | .exec => 284

def PairSrc.ofCode (c : BitVec 9) : Option PairSrc :=
  if c.toNat < 256 then some (.s (c.truncate 8)) else if c = 284 then some .exec else none

def HSrc.code : HSrc → BitVec 9
  | .h n => 256 + n.zeroExtend 9
  | .s n => n.zeroExtend 9

def HSrc.ofCode (c : BitVec 9) : Option HSrc :=
  if c.toNat < 256 then some (.s (c.truncate 8))
  else if c.toNat < 272 then some (.h ((c - 256).truncate 4))
  else none

/-- A field whose value is a small number above a base: flags (272), handles (256), ports (320). -/
def idxCode (base : Nat) (n : BitVec 4) : BitVec 9 := BitVec.ofNat 9 base + n.zeroExtend 9

def idxOf (base top : Nat) (c : BitVec 9) : Option (BitVec 4) :=
  if base ≤ c.toNat ∧ c.toNat < top then some ((c - BitVec.ofNat 9 base).truncate 4) else none

/-! ### Layouts of M (R70 and the entries' own) -/

def bit (b : Bool) : BitVec 1 := if b then 1 else 0

/-- The layout of R70. -/
def mGen (ops : BitVec 6) (rnd : BitVec 2) (sco ord : BitVec 3) (tt2 tt : BitVec 5) : BitVec 24 :=
  ops ++ (rnd ++ (sco ++ (ord ++ (tt2 ++ tt))))

def mOps (m : BitVec 24) : BitVec 6 := m.extractLsb' 18 6
def mRnd (m : BitVec 24) : BitVec 2 := m.extractLsb' 16 2
def mSco (m : BitVec 24) : BitVec 3 := m.extractLsb' 13 3
def mOrd (m : BitVec 24) : BitVec 3 := m.extractLsb' 10 3
def mTt2 (m : BitVec 24) : BitVec 5 := m.extractLsb' 5 5
def mTt (m : BitVec 24) : BitVec 5 := m.extractLsb' 0 5

/-- The layout of R191, R241, R249 and BLEND: OFF, SCO, ORD, then bits [9:7], [6:5] and TT. -/
def mMem (off : BitVec 8) (sco ord : BitVec 3) (x : BitVec 3) (tt : BitVec 5) : BitVec 24 :=
  off ++ (sco ++ (ord ++ (x ++ (0#2 ++ tt))))

def mOff (m : BitVec 24) : BitVec 8 := m.extractLsb' 16 8
def mX (m : BitVec 24) : BitVec 3 := m.extractLsb' 7 3

/-- An immediate form: imm32 = {M[23:0], B[7:0]} (R52). -/
def immOf (f : Fields) : W32 := f.m ++ f.b.extractLsb' 0 8

/-! ### The decoder's table -/

/-- Control, scalar loads and saturation flags: opcodes 0x00–0x18 (R119, R159). -/
def buildCtl (f : Fields) : Option Instr :=
  let h := f.hdr
  match f.opc.toNat with
  | 0x00 => if f.fn = 0 then some (.nop h (f.u == 1)) else none
  | 0x01 => if f.fn = 0 then some (.bra h (immOf f)) else none
  | 0x02 => if f.fn = 0 then do
      let a ← PairSrc.ofCode f.a
      some (.bz h a (immOf f)) else none
  | 0x03 => if f.fn = 0 then do
      let a ← PairSrc.ofCode f.a
      some (.bnz h a (immOf f)) else none
  | 0x04 => if f.fn = 0 then do
      let d ← sreg f.d
      some (.call h d (immOf f)) else none
  | 0x05 => if f.fn = 0 then do
      let a ← sreg f.a
      some (.ret h a) else none
  | 0x06 => if f.fn = 0 then do
      let a ← sreg f.a
      if f.m.extractLsb' 0 1 = 1 then do
        let d ← sreg f.d
        some (.jmpi h (some d) a)
      else some (.jmpi h none a) else none
  | 0x07 =>
      if f.fn = 0 then some (.exit h)
      else if f.fn = 1 then
        some (.exitSucc h (f.m.extractLsb' 0 2) (f.m.extractLsb' 2 1 == 1) (f.m.extractLsb' 3 9))
      else none
  | 0x08 => if f.fn = 0 then do
      let a ← idxOf 272 284 f.a
      some (.waitc h a (f.m.extractLsb' 0 6)) else none
  | 0x09 => if f.fn = 0 then some (.yield h (f.m.extractLsb' 0 8)) else none
  | 0x0A => if f.fn = 0 then some (.sleep h (immOf f)) else none
  | 0x0B => if f.fn = 0 then do
      let d ← sreg f.d
      let a ← vreg f.a
      some (.xvi h d a) else none
  | 0x0C => do
      let op ← ExOp.ofCode f.fn
      let a ← PairSrc.ofCode f.a
      some (.exset h op a)
  | 0x0D => if f.fn = 0 then do
      let d ← sreg f.d
      some (.exget h d) else none
  | 0x0E => if f.fn = 0 then do
      let d ← sreg f.d
      let a ← preg f.a
      some (.pmask h d a) else none
  | 0x0F => if f.fn = 0 then do
      let d ← sreg f.d
      some (.gettime h d) else none
  | 0x10 => if f.fn = 0 then do
      let d ← sreg f.d
      some (.csrr h d (f.m.extractLsb' 0 12)) else none
  | 0x11 => if f.fn = 0 then do
      let a ← SSrc.ofCode f.a
      some (.csrw h (f.m.extractLsb' 0 12) a) else none
  | 0x18 => do
      let d ← sreg f.d
      if f.fn = 0 then some (.sldkArg h false d (immOf f))
      else if f.fn = 1 then some (.sldkArg h true d (immOf f))
      else if f.fn = 2 then some (.sldkConst h false d (immOf f))
      else if f.fn = 3 then some (.sldkConst h true d (immOf f))
      else none
  | _ => none

/-- Operands of the three-operand form, with the tag in TT. -/
def alu3Of (f : Fields) : Option Alu3 := do
  let t ← Tag.ofCode (mTt f.m)
  let d ← Dst.ofCode (f.u == 1) f.d
  let a ← Src.ofCode (f.u == 1) f.a
  let b ← Src.ofCode (f.u == 1) f.b
  some ⟨f.u == 1, t, d, a, b⟩

def alu2Of (f : Fields) : Option Alu2 := do
  let t ← Tag.ofCode (mTt f.m)
  let d ← Dst.ofCode (f.u == 1) f.d
  let a ← Src.ofCode (f.u == 1) f.a
  some ⟨f.u == 1, t, d, a⟩

/-- The integer and predicate mould: opcodes 0x30–0x4A (R151–R158). -/
def buildInt (f : Fields) : Option Instr :=
  let h := f.hdr
  let u := f.u == 1
  match f.opc.toNat with
  | 0x30 => if f.fn = 0 then (alu3Of f).map (.vadd h) else none
  | 0x31 => if f.fn = 0 then (alu3Of f).map (.vsub h) else none
  | 0x32 => if f.fn = 0 then (alu3Of f).map (.vmul h) else none
  | 0x33 => if f.fn = 0 then (alu3Of f).map (.vmulh h) else none
  | 0x34 => if f.fn = 0 then (alu3Of f).map (.vmad h) else none
  | 0x35 => if f.fn = 0 then (alu3Of f).map (.vand h) else none
  | 0x36 => if f.fn = 0 then (alu3Of f).map (.vor h) else none
  | 0x37 => if f.fn = 0 then (alu3Of f).map (.vxor h) else none
  | 0x38 => if f.fn = 0 then (alu3Of f).map (.vshl h) else none
  | 0x39 => if f.fn = 0 then (alu3Of f).map (.vshr h) else none
  | 0x3A => if f.fn = 0 then (alu3Of f).map (.vsra h) else none
  | 0x3B => if f.fn = 0 then (alu3Of f).map (.vmin h) else none
  | 0x3C => if f.fn = 0 then (alu3Of f).map (.vmax h) else none
  | 0x3D => if f.fn = 0 then (alu3Of f).map (.vabsd h) else none
  | 0x3E => if f.fn = 0 then
      (alu3Of f).map fun o => .vadds h ⟨(mOps f.m).extractLsb' 0 1 == 1, o⟩ else none
  | 0x3F => if f.fn = 0 then (alu2Of f).map (.vclz h) else none
  | 0x40 => if f.fn = 0 then (alu2Of f).map (.vpopc h) else none
  | 0x41 => if f.fn = 0 then (alu3Of f).map (.vbfe h) else none
  | 0x42 => if f.fn = 0 then (alu3Of f).map (.vbfi h) else none
  | 0x43 => if f.fn = 0 then
      (alu3Of f).map fun o => .vsel h ⟨f.m.extractLsb' 10 7, o⟩ else none
  | 0x44 => if f.fn = 0 then (alu2Of f).map (.vmov h) else none
  | 0x45 => do
      let d ← Dst.ofCode u f.d
      if f.fn = 0 then some (.vmovi h ⟨u, false, d, immOf f⟩)
      else if f.fn = 1 then some (.vmovi h ⟨u, true, d, immOf f⟩)
      else none
  | 0x46 => if f.fn = 0 then do
      let t ← Tag.ofCode (mTt f.m)
      let c ← Cond.ofCode ((mOps f.m).extractLsb' 0 3)
      let pd ← preg f.d
      let a ← Src.ofCode u f.a
      let b ← Src.ofCode u f.b
      some (.vcmp h ⟨u, t, c, pd, a, b⟩) else none
  | 0x47 =>
      if f.fn = 0 then (alu3Of f).map fun o => .vbint h ⟨false, o⟩
      else if f.fn = 1 then (alu3Of f).map fun o => .vbint h ⟨true, o⟩
      else none
  | 0x48 =>
      if f.fn = 0 then (alu2Of f).map fun o => .vbdei h ⟨false, (mOps f.m).extractLsb' 0 2, o⟩
      else if f.fn = 1 then (alu2Of f).map fun o => .vbdei h ⟨true, (mOps f.m).extractLsb' 0 2, o⟩
      else none
  | 0x49 => if f.fn = 0 then do
      let d ← preg f.d
      let a ← preg f.a
      let b ← preg f.b
      some (.plog h ⟨u, (mOps f.m).extractLsb' 0 4, d, a, b⟩) else none
  | 0x4A => if f.fn = 0 then
      let cnt := (mOps f.m).extractLsb' 1 5
      if (mOps f.m).extractLsb' 0 1 = 1 then do
        let p ← preg f.d
        let a ← Src.ofCode u f.a
        some (.pmov h ⟨u, cnt, p, .fromr a⟩)
      else do
        let p ← preg f.a
        let d ← Dst.ofCode u f.d
        some (.pmov h ⟨u, cnt, p, .tor d⟩)
      else none
  | _ => none

def falu3Of (f : Fields) : Option FAlu3 :=
  if mTt f.m = 10 then do
    let r ← Rnd.ofCode (mRnd f.m)
    let d ← Dst.ofCode (f.u == 1) f.d
    let a ← Src.ofCode (f.u == 1) f.a
    let b ← Src.ofCode (f.u == 1) f.b
    some ⟨f.u == 1, r, d, a, b⟩
  else none

def fminOf (f : Fields) : Option FMinOp :=
  if mTt f.m = 10 then do
    let d ← Dst.ofCode (f.u == 1) f.d
    let a ← Src.ofCode (f.u == 1) f.a
    let b ← Src.ofCode (f.u == 1) f.b
    some ⟨f.u == 1, (mOps f.m).extractLsb' 0 1 == 1, d, a, b⟩
  else none

def haluOf (f : Fields) : Option HAlu := do
  let r ← Rnd.ofCode (mRnd f.m)
  let d ← Dst.ofCode (f.u == 1) f.d
  let a ← Src.ofCode (f.u == 1) f.a
  let b ← Src.ofCode (f.u == 1) f.b
  if f.fn = 0 then some ⟨f.u == 1, false, r, d, a, b⟩
  else if f.fn = 1 then some ⟨f.u == 1, true, r, d, a, b⟩
  else none

def sfuOf (f : Fields) : Option SfuOp :=
  if mTt f.m = 10 then do
    let d ← vreg f.d
    let a ← VSrc.ofCode f.a
    some ⟨d, a⟩
  else none

/-- Floating point and special functions: opcodes 0x50–0x67 (R162–R167). -/
def buildFp (f : Fields) : Option Instr :=
  let h := f.hdr
  match f.opc.toNat with
  | 0x50 => if f.fn = 0 then (falu3Of f).map (.fadd h) else none
  | 0x51 => if f.fn = 0 then (falu3Of f).map (.fsub h) else none
  | 0x52 => if f.fn = 0 then (falu3Of f).map (.fmul h) else none
  | 0x53 => if f.fn = 0 then (falu3Of f).map (.ffma h) else none
  | 0x54 => if f.fn = 0 then (fminOf f).map (.fmin h) else none
  | 0x55 => if f.fn = 0 then (fminOf f).map (.fmax h) else none
  | 0x56 => if f.fn = 0 ∧ mTt f.m = 10 then do
      let c ← FCond.ofCode ((mOps f.m).extractLsb' 0 4)
      let pd ← preg f.d
      let a ← Src.ofCode (f.u == 1) f.a
      let b ← Src.ofCode (f.u == 1) f.b
      some (.fcmp h ⟨f.u == 1, c, pd, a, b⟩) else none
  | 0x57 => if f.fn = 0 ∧ mTt f.m = 10 then do
      let r ← Rnd.ofCode (mRnd f.m)
      let d ← Dst.ofCode (f.u == 1) f.d
      let a ← Src.ofCode (f.u == 1) f.a
      some (.frnd h ⟨f.u == 1, r, d, a⟩) else none
  | 0x58 => (haluOf f).map (.hadd2 h)
  | 0x59 => (haluOf f).map (.hmul2 h)
  | 0x5A => (haluOf f).map (.hfma2 h)
  | 0x60 => if f.fn = 0 then (sfuOf f).map (.frcp h) else none
  | 0x61 => if f.fn = 0 then (sfuOf f).map (.frsq h) else none
  | 0x62 => if f.fn = 0 then (sfuOf f).map (.fsqrt h) else none
  | 0x63 => if f.fn = 0 then (sfuOf f).map (.fex2 h) else none
  | 0x64 => if f.fn = 0 then (sfuOf f).map (.flg2 h) else none
  | 0x65 => if f.fn = 0 then (sfuOf f).map (.fsin h) else none
  | 0x66 => if f.fn = 0 then (sfuOf f).map (.fcos h) else none
  | 0x67 => if f.fn = 0 then (sfuOf f).map (.ftanh h) else none
  | _ => none

/-- Conversions, saturation flags and cross-lane work: opcodes 0x70–0x85 (R170–R178). -/
def buildConv (f : Fields) : Option Instr :=
  let h := f.hdr
  let ops := mOps f.m
  match f.opc.toNat with
  | 0x70 => if f.fn = 0 then do
      let t ← Tag.ofCode (mTt f.m)
      let t2 ← Tag.ofCode (mTt2 f.m)
      let r ← Rnd.ofCode (mRnd f.m)
      let d ← vreg f.d
      let a ← VSrc.ofCode f.a
      some (.cvt h ⟨t, t2, r, ops.extractLsb' 3 3, ops.extractLsb' 0 3, d, a⟩) else none
  | 0x71 => if f.fn = 0 ∧ mTt2 f.m = 10 then do
      let t ← Tag.ofCode (mTt f.m)
      let r ← Rnd.ofCode (mRnd f.m)
      let d ← vreg f.d
      let a ← VSrc.ofCode f.a
      let b ← VSrc.ofCode f.b
      some (.qnt h ⟨t, r, ops.extractLsb' 3 3, d, a, b⟩) else none
  | 0x72 => if f.fn = 0 ∧ mTt f.m = 16 then do
      let r ← Rnd.ofCode (mRnd f.m)
      let d ← vreg f.d
      let a ← VSrc.ofCode f.a
      if mTt2 f.m = 10 then some (.pack6 h ⟨true, r, d, a⟩)
      else if mTt2 f.m = 16 then some (.pack6 h ⟨false, r, d, a⟩)
      else none else none
  | 0x73 => if f.fn = 0 ∧ mTt2 f.m = 16 then do
      let d ← vreg f.d
      let a ← VSrc.ofCode f.a
      if mTt f.m = 10 then
        some (.unpack6 h ⟨true, ops.extractLsb' 2 1 == 1, ops.extractLsb' 0 2, d, a⟩)
      else if mTt f.m = 16 then
        some (.unpack6 h ⟨false, ops.extractLsb' 2 1 == 1, ops.extractLsb' 0 2, d, a⟩)
      else none else none
  | 0x74 => if f.fn = 0 ∧ mTt2 f.m = 10 then do
      let d ← vreg f.d
      let a ← VSrc.ofCode f.a
      if mTt f.m = 17 then some (.mxsc h ⟨false, ops.extractLsb' 3 2, d, a⟩)
      else if mTt f.m = 18 then some (.mxsc h ⟨true, ops.extractLsb' 3 2, d, a⟩)
      else none else none
  | 0x75 => if f.fn = 0 then do
      let pd ← preg f.d
      some (.sattst h pd (f.m.extractLsb' 0 8)) else none
  | 0x76 => if f.fn = 0 then some (.satclr h (f.m.extractLsb' 0 8)) else none
  | 0x77 => if f.fn = 0 then some (.satarm h (f.m.extractLsb' 0 8) (f.m.extractLsb' 8 8)) else none
  | 0x80 => do
      let mode ← ShflMode.ofCode f.fn
      let d ← vreg f.d
      let a ← VSrc.ofCode f.a
      let b ← VSrc.ofCode f.b
      if mTt f.m = 0 then some (.shfl h ⟨mode, false, ops.extractLsb' 0 3, d, a, b⟩)
      else if mTt f.m = 1 then some (.shfl h ⟨mode, true, ops.extractLsb' 0 3, d, a, b⟩)
      else none
  | 0x81 => if f.fn = 0 then do
      let d ← sreg f.d
      let a ← vreg f.a
      let b ← sreg f.b
      if mTt f.m = 0 then some (.rdlane h ⟨false, d, a, b⟩)
      else if mTt f.m = 1 then some (.rdlane h ⟨true, d, a, b⟩)
      else none else none
  | 0x82 => if f.fn = 0 then do
      let d ← vreg f.d
      let a ← sreg f.a
      let b ← sreg f.b
      if mTt f.m = 0 then some (.wrlane h ⟨false, d, a, b⟩)
      else if mTt f.m = 1 then some (.wrlane h ⟨true, d, a, b⟩)
      else none else none
  | 0x83 => if f.fn = 0 then do
      let r ← RedOp.ofCode (ops.extractLsb' 0 4)
      let t ← Tag.ofCode (mTt f.m)
      let rnd ← Rnd.ofCode (mRnd f.m)
      let d ← sreg f.d
      let a ← VSrc.ofCode f.a
      some (.vred h ⟨r, t, rnd, d, a⟩) else none
  | 0x84 => do
      let r ← RedOp.ofCode (ops.extractLsb' 0 4)
      let t ← Tag.ofCode (mTt f.m)
      let rnd ← Rnd.ofCode (mRnd f.m)
      let d ← vreg f.d
      let a ← VSrc.ofCode f.a
      if f.fn = 0 then some (.vscan h ⟨false, r, t, rnd, d, a⟩)
      else if f.fn = 1 then some (.vscan h ⟨true, r, t, rnd, d, a⟩)
      else none
  | 0x85 => if f.fn = 0 then do
      let t ← Tag.ofCode (mTt f.m)
      let d ← vreg f.d
      let a ← VSrc.ofCode f.a
      some (.vmatch h ⟨t, d, a⟩) else none
  | _ => none

def spMemOf (f : Fields) : Option SpMem := do
  let t ← Tag.ofCode (mTt f.m)
  let o ← Order.ofCode (mOrd f.m)
  let sc ← Scope.ofCode (mSco f.m)
  let d ← vreg f.d
  let a ← VSrc.ofCode f.a
  let b ← VSrc.ofCode f.b
  some ⟨t, o, sc, (mX f.m).extractLsb' 1 2, mOff f.m, d, a, b⟩

/-- ATOMS; REDS does not use D, which then reads as 0 here. -/
def spAtomOf (ret : Bool) (f : Fields) : Option SpAtom := do
  let op ← AtomOp.ofCode f.fn
  let t ← Tag.ofCode (mTt f.m)
  let o ← Order.ofCode (mOrd f.m)
  let sc ← Scope.ofCode (mSco f.m)
  let d ← if ret then vreg f.d else some 0
  let a ← VSrc.ofCode f.a
  let b ← VSrc.ofCode f.b
  some ⟨op, t, o, sc, mOff f.m, d, a, b⟩

def glMemOf (f : Fields) : Option GlMem := do
  let t ← Tag.ofCode (mTt f.m)
  let o ← Order.ofCode (mOrd f.m)
  let sc ← Scope.ofCode (mSco f.m)
  let d ← Dst.ofMem f.d
  let a ← VSrc.ofCode f.a
  let b ← VSrc.ofCode f.b
  some ⟨t, o, sc, (mX f.m).extractLsb' 1 2, (mX f.m).extractLsb' 0 1 == 1, mOff f.m, d, a, b⟩

def glAtomOf (ret : Bool) (f : Fields) : Option GlAtom := do
  let op ← AtomOp.ofCode f.fn
  let t ← Tag.ofCode (mTt f.m)
  let o ← Order.ofCode (mOrd f.m)
  let sc ← Scope.ofCode (mSco f.m)
  let d ← if ret then Dst.ofMem f.d else some (.v 0)
  let a ← VSrc.ofCode f.a
  let b ← VSrc.ofCode f.b
  some ⟨op, t, o, sc, mOff f.m, d, a, b⟩

/-- The range of a CCTL with RNG = 1. -/
def rngOf (f : Fields) : Option CctlRng := do
  let a ← sreg f.a
  let b ← sreg f.b
  some ⟨a, b⟩

def prefOf (f : Fields) (slc : Bool) : Option PrefOp := do
  let a ← VSrc.ofCode f.a
  let b ← VSrc.ofCode f.b
  some ⟨slc, (mX f.m).extractLsb' 1 2, (mX f.m).extractLsb' 0 1 == 1, mOff f.m, a, b⟩

/-- Scratchpad, barriers, waiting and global memory: opcodes 0x90–0xA8 (R191, R198, R205, R241). -/
def buildMem (f : Fields) : Option Instr :=
  let h := f.hdr
  match f.opc.toNat with
  | 0x90 => if f.fn = 0 then (spMemOf f).map (.lds h) else none
  | 0x91 => if f.fn = 0 then (spMemOf f).map (.sts h) else none
  | 0x92 => (spAtomOf true f).map (.atoms h)
  | 0x93 => (spAtomOf false f).map (.reds h)
  | 0x94 => if f.fn = 0 then do
      let a ← sreg f.a
      let b ← sreg f.b
      some (.barinit h ⟨f.m.extractLsb' 15 1 == 1, mOff f.m, a, b⟩) else none
  | 0x95 => if f.fn = 0 then do
      let cnti := f.m.extractLsb' 0 11
      let d ← sreg f.d
      let a ← sreg f.a
      let b ← if cnti = 0 then sreg f.b else some 0
      some (.arrive h ⟨f.m.extractLsb' 15 1 == 1, mOff f.m, cnti, d, a, b⟩) else none
  | 0x96 => if f.fn = 0 then do
      let pd ← preg f.d
      let a ← sreg f.a
      some (.bwait h ⟨f.m.extractLsb' 11 4, pd, a⟩) else none
  | 0x97 => if f.fn = 0 then do
      let pd ← preg f.d
      let a ← sreg f.a
      some (.btest h ⟨pd, a⟩) else none
  | 0x98 => if f.fn = 0 then do
      let c ← Cond.ofCode (f.m.extractLsb' 21 3)
      let sc ← Scope.ofCode (mSco f.m)
      let t ← Tag.ofCode (mTt f.m)
      let pd ← preg f.d
      let a ← sreg f.a
      let b ← sreg f.b
      if mOrd f.m = 1 then
        some (.waita h ⟨c, f.m.extractLsb' 20 1 == 1, f.m.extractLsb' 16 4, sc, false, t, pd, a, b⟩)
      else if mOrd f.m = 2 then
        some (.waita h ⟨c, f.m.extractLsb' 20 1 == 1, f.m.extractLsb' 16 4, sc, true, t, pd, a, b⟩)
      else none else none
  | 0xA0 => if f.fn = 0 then (glMemOf f).map (.ldg h) else none
  | 0xA1 => if f.fn = 0 then (glMemOf f).map (.stg h) else none
  | 0xA2 => (glAtomOf true f).map (.atom h)
  | 0xA3 => (glAtomOf false f).map (.red h)
  | 0xA4 => do
      let k ← FenceKind.ofCode f.fn
      let sc ← Scope.ofCode (mSco f.m)
      some (.fence h ⟨k, sc⟩)
  | 0xA5 =>
      if f.fn = 0 then
        if f.m.extractLsb' 0 1 = 1 then (rngOf f).map fun r => .cctlInv h (some r)
        else some (.cctlInv h none)
      else if f.fn = 1 then (rngOf f).map (.cctlClean h)
      else if f.fn = 2 then (rngOf f).map (.cctlCleaninv h)
      else none
  | 0xA6 =>
      if f.fn = 0 then (prefOf f false).map (.pref h)
      else if f.fn = 1 then (prefOf f true).map (.pref h)
      else none
  | 0xA7 => if f.fn = 0 then do
      let d ← sreg f.d
      let q ← idxOf 320 336 f.a
      some (.qstat h d q) else none
  | 0xA8 => if f.fn = 0 then do
      let q ← idxOf 320 336 f.a
      some (.qdrop h q (f.m.extractLsb' 0 6)) else none
  | _ => none

def tdrainOf (f : Fields) : Option TdrainOp := do
  let blk ← Blk.ofCode ((mOps f.m).extractLsb' 2 2)
  let rnd ← Rnd.ofCode (mRnd f.m)
  let sc ← Scope.ofCode (mSco f.m)
  let acc ← Tag.ofCode (mTt2 f.m)
  let dst ← Tag.ofCode (mTt f.m)
  let a ← sreg f.a
  let b ← sreg f.b
  let spd := (mOps f.m).extractLsb' 5 1 == 1
  let clr := (mOps f.m).extractLsb' 4 1 == 1
  if mOrd f.m = 0 then some ⟨spd, clr, blk, rnd, sc, false, acc, dst, a, b⟩
  else if mOrd f.m = 3 then some ⟨spd, clr, blk, rnd, sc, true, acc, dst, a, b⟩
  else none

/-- An acquire or release flag of CPY with its scope. -/
def cpyScope (on : BitVec 1) (c : BitVec 3) : Option (Option Scope) :=
  if on = 1 then (Scope.ofCode c).map some else some none

/-- Grid and copy engine: opcodes 0xB0–0xC3 (R290, R302, R310). -/
def buildGrid (f : Fields) : Option Instr :=
  let h := f.hdr
  match f.opc.toNat with
  | 0xB0 => if f.fn = 0 then some (.link h) else none
  | 0xB1 => if f.fn = 0 then some (.unlink h) else none
  | 0xB2 => if f.fn = 0 then do
      let blk ← Blk.ofCode ((mOps f.m).extractLsb' 4 2)
      let acc ← Tag.ofCode (mTt f.m)
      let fmt ← Tag.ofCode (mTt2 f.m)
      let sc ← Scope.ofCode (mSco f.m)
      let k ← sreg f.d
      let a ← sreg f.a
      let b ← sreg f.b
      let cont := (mOps f.m).extractLsb' 3 1 == 1
      let i4 := (mOps f.m).extractLsb' 2 1 == 1
      if mOrd f.m = 0 then some (.tmma h ⟨blk, cont, i4, acc, fmt, false, sc, k, a, b⟩)
      else if mOrd f.m = 2 then some (.tmma h ⟨blk, cont, i4, acc, fmt, true, sc, k, a, b⟩)
      else none else none
  | 0xB3 => if f.fn = 0 then some (.tzero h (f.m.extractLsb' 0 4)) else none
  | 0xB4 =>
      if f.fn = 0 then (tdrainOf f).map (.tdrainSt h)
      else if f.fn = 1 then (tdrainOf f).map (.tdrainAddst h)
      else none
  | 0xB5 => if f.fn = 0 then
      if f.m.extractLsb' 23 1 = 1 then do
        let d ← sreg f.d
        some (.gprog h ⟨f.m.extractLsb' 0 4, .rd d⟩)
      else do
        let a ← sreg f.a
        some (.gprog h ⟨f.m.extractLsb' 0 4, .wr a⟩)
      else none
  | 0xC0 => do
      let form ← CpyForm.ofCode f.fn
      let acq ← cpyScope (f.m.extractLsb' 23 1) (f.m.extractLsb' 20 3)
      let rel ← cpyScope (f.m.extractLsb' 19 1) (f.m.extractLsb' 16 3)
      let hd ← idxOf 256 272 f.d
      let a ← sreg f.a
      some (.cpy h ⟨form, acq, rel, f.m.extractLsb' 15 1 == 1, f.m.extractLsb' 14 1 == 1,
        f.m.extractLsb' 13 1 == 1, f.m.extractLsb' 12 1 == 1, hd, a⟩)
  | 0xC1 => if f.fn = 0 then do
      let d ← sreg f.d
      let a ← HSrc.ofCode f.a
      some (.htest h d a) else none
  | 0xC2 => if f.fn = 0 then do
      let a ← HSrc.ofCode f.a
      some (.hcancel h a) else none
  | 0xC3 => if f.fn = 0 then do
      let d ← sreg f.d
      let a ← HSrc.ofCode f.a
      some (.hwait h d a) else none
  | _ => none

/-- Rays, raster, texture, launch, traps and debug: opcodes 0xC8–0xDD (R321, R360, R214, R227). -/
def buildSys (f : Fields) : Option Instr :=
  let h := f.hdr
  match f.opc.toNat with
  | 0xC8 => if f.fn = 0 then do
      let d ← vreg f.d
      let a ← vreg f.a
      let b ← VSrc.ofCode f.b
      some (.rbox h ⟨d, a, b, f.m.extractLsb' 0 8⟩) else none
  | 0xC9 => if f.fn = 0 then do
      let a ← vreg f.a
      let b ← VSrc.ofCode f.b
      some (.rtri h ⟨a, b, f.m.extractLsb' 0 8⟩) else none
  | 0xCA => if f.fn = 0 then do
      let d ← vreg f.d
      let a ← vreg f.a
      some (.rhint h ⟨d, a, f.m.extractLsb' 0 8⟩) else none
  | 0xCB => if f.fn = 0 then do
      let a ← vreg f.a
      some (.rhset h ⟨a, f.m.extractLsb' 0 8⟩) else none
  | 0xCC => if f.fn = 0 then do
      let d ← vreg f.d
      let a ← sreg f.a
      let b ← sreg f.b
      some (.rast h ⟨d, a, b⟩) else none
  | 0xCD => do
      let mode ← TexMode.ofCode f.fn
      let d ← vreg f.d
      let a ← VSrc.ofCode f.a
      let b ← VSrc.ofCode f.b
      some (.tex h ⟨mode, d, a, b, f.m.extractLsb' 0 8, f.m.extractLsb' 8 8⟩)
  | 0xCE => if f.fn = 0 then do
      let d ← vreg f.d
      let a ← VSrc.ofCode f.a
      let b ← VSrc.ofCode f.b
      some (.texq h ⟨d, a, b, f.m.extractLsb' 0 8⟩) else none
  | 0xCF => if f.fn = 0 then do
      let bop ← BlendOp.ofCode (mX f.m)
      let o ← Order.ofCode (mOrd f.m)
      let sc ← Scope.ofCode (mSco f.m)
      let a ← VSrc.ofCode f.a
      let b ← VSrc.ofCode f.b
      if mTt f.m = 6 then some (.blend h ⟨bop, false, o, sc, mOff f.m, a, b⟩)
      else if mTt f.m = 11 then some (.blend h ⟨bop, true, o, sc, mOff f.m, a, b⟩)
      else none else none
  | 0xD8 =>
      if f.fn = 0 then do
        let d ← sreg f.d
        let a ← sreg f.a
        some (.launchEnq h d a)
      else if f.fn = 1 then do
        let k ← CancelSel.ofCode (f.m.extractLsb' 0 2)
        let a ← sreg f.a
        some (.launchCancel h k a)
      else none
  | 0xD9 => if f.fn = 0 then do
      let a ← sreg f.a
      some (.setpri h (f.m.extractLsb' 0 1 == 1) a) else none
  | 0xDA => if f.fn = 0 then some (.trap h (immOf f)) else none
  | 0xDB => if f.fn = 0 then some (.trapret h) else none
  | 0xDC =>
      if f.fn = 0 then some (.faultretRetry h)
      else if f.fn = 1 then some (.faultretSkip h)
      else if f.fn = 2 then do
        let a ← sreg f.a
        some (.faultretEmul h a)
      else none
  | 0xDD => if f.fn = 0 then some (.dbgbrk h (f.m.extractLsb' 0 16)) else none
  | _ => none

/-- The instruction whose opcode, function and operands the fields hold, if the opcode map (R69) and
the entries' tables assign them. -/
def build (f : Fields) : Option Instr :=
  if f.opc.toNat < 0x30 then buildCtl f
  else if f.opc.toNat < 0x50 then buildInt f
  else if f.opc.toNat < 0x70 then buildFp f
  else if f.opc.toNat < 0x90 then buildConv f
  else if f.opc.toNat < 0xB0 then buildMem f
  else if f.opc.toNat < 0xC8 then buildGrid f
  else buildSys f

/-! ### The encoder -/

/-- A word with the header of `h` and the given fields. -/
def base (h : Hdr) (opc : BitVec 8) (fn : BitVec 4) (u : Bool) (d a b : BitVec 9) (m : BitVec 24) :
    Fields where
  ru := h.ru
  yl := bit h.yl
  sf := h.sf
  wt := h.wt
  st := h.st
  m := m
  ge := bit h.guard.isSome
  gn := match h.guard with | some g => bit g.neg | none => 0
  gp := match h.guard with | some g => g.p | none => 0
  b := b
  a := a
  d := d
  u := bit u
  fn := fn
  opc := opc

/-- An immediate form (R52): B[8] is 0. -/
def baseImm (h : Hdr) (opc : BitVec 8) (fn : BitVec 4) (u : Bool) (d a : BitVec 9) (imm : W32) :
    Fields :=
  base h opc fn u d a (0#1 ++ imm.extractLsb' 0 8) (imm.extractLsb' 8 24)

def s9 (n : BitVec 8) : BitVec 9 := n.zeroExtend 9
def p9 (n : BitVec 7) : BitVec 9 := n.zeroExtend 9
def m24 {w : Nat} (x : BitVec w) : BitVec 24 := x.zeroExtend 24

def encAlu3 (h : Hdr) (opc : BitVec 8) (fn : BitVec 4) (o : Alu3) (ops : BitVec 6) : Fields :=
  base h opc fn o.u o.d.code o.a.code o.b.code (mGen ops 0 0 0 0 o.tag.code)

def encAlu2 (h : Hdr) (opc : BitVec 8) (fn : BitVec 4) (o : Alu2) (ops : BitVec 6) : Fields :=
  base h opc fn o.u o.d.code o.a.code 0 (mGen ops 0 0 0 0 o.tag.code)

def encFAlu3 (h : Hdr) (opc : BitVec 8) (o : FAlu3) : Fields :=
  base h opc 0 o.u o.d.code o.a.code o.b.code (mGen 0 o.rnd.code 0 0 0 10)

def encFMin (h : Hdr) (opc : BitVec 8) (o : FMinOp) : Fields :=
  base h opc 0 o.u o.d.code o.a.code o.b.code (mGen (0#5 ++ bit o.prop) 0 0 0 0 10)

def encHAlu (h : Hdr) (opc : BitVec 8) (o : HAlu) : Fields :=
  base h opc (if o.bf then 1 else 0) o.u o.d.code o.a.code o.b.code (mGen 0 o.rnd.code 0 0 0 0)

def encSfu (h : Hdr) (opc : BitVec 8) (o : SfuOp) : Fields :=
  base h opc 0 false o.d o.a.code 0 (mGen 0 0 0 0 0 10)

def encSpMem (h : Hdr) (opc : BitVec 8) (o : SpMem) : Fields :=
  base h opc 0 false o.d o.a.code o.b.code
    (mMem o.off o.sco.code o.ord.code (o.scl ++ 0#1) o.tag.code)

def encSpAtom (h : Hdr) (opc : BitVec 8) (o : SpAtom) : Fields :=
  base h opc o.op.code false o.d o.a.code o.b.code (mMem o.off o.sco.code o.ord.code 0 o.tag.code)

def encGlMem (h : Hdr) (opc : BitVec 8) (o : GlMem) : Fields :=
  base h opc 0 false o.d.code o.a.code o.b.code
    (mMem o.off o.sco.code o.ord.code (o.scl ++ bit o.isgn) o.tag.code)

def encGlAtom (h : Hdr) (opc : BitVec 8) (o : GlAtom) : Fields :=
  base h opc o.op.code false o.d.code o.a.code o.b.code
    (mMem o.off o.sco.code o.ord.code 0 o.tag.code)

def encTdrain (h : Hdr) (fn : BitVec 4) (o : TdrainOp) : Fields :=
  base h 0xB4 fn true 0 (s9 o.a) (s9 o.b)
    (mGen (bit o.spd ++ (bit o.clr ++ (o.blk.code ++ 0#2))) o.rnd.code o.sco.code
      (if o.rel then 3 else 0) o.acc.code o.dst.code)

/-- The scope code of a CPY flag; 0 when the flag is clear. -/
def scopeOr0 (x : Option Scope) : BitVec 3 := match x with | some s => s.code | none => 0

/-- The fields of an instruction, from the encoding tables of its entry; events have none. -/
def encodeFields : Instr → Option Fields
  | .nop h u => some (base h 0x00 0 u 0 0 0 0)
  | .bra h imm => some (baseImm h 0x01 0 true 0 0 imm)
  | .bz h a imm => some (baseImm h 0x02 0 true 0 a.code imm)
  | .bnz h a imm => some (baseImm h 0x03 0 true 0 a.code imm)
  | .call h d imm => some (baseImm h 0x04 0 true (s9 d) 0 imm)
  | .ret h a => some (base h 0x05 0 true 0 (s9 a) 0 0)
  | .jmpi h (some d) a => some (base h 0x06 0 true (s9 d) (s9 a) 0 1)
  | .jmpi h none a => some (base h 0x06 0 true 0 (s9 a) 0 0)
  | .exit h => some (base h 0x07 0 true 0 0 0 0)
  | .exitSucc h idx kovr k => some (base h 0x07 1 true 0 0 0 (m24 (k ++ (bit kovr ++ idx))))
  | .waitc h f n => some (base h 0x08 0 true 0 (idxCode 272 f) 0 (m24 n))
  | .yield h n => some (base h 0x09 0 true 0 0 0 (m24 n))
  | .sleep h imm => some (baseImm h 0x0A 0 true 0 0 imm)
  | .xvi h d a => some (base h 0x0B 0 false (s9 d) a 0 0)
  | .exset h op a => some (base h 0x0C op.code true 0 a.code 0 0)
  | .exget h d => some (base h 0x0D 0 true (s9 d) 0 0 0)
  | .pmask h d p => some (base h 0x0E 0 true (s9 d) (p9 p) 0 0)
  | .gettime h d => some (base h 0x0F 0 true (s9 d) 0 0 0)
  | .csrr h d csr => some (base h 0x10 0 true (s9 d) 0 0 (m24 csr))
  | .csrw h csr a => some (base h 0x11 0 true 0 a.code 0 (m24 csr))
  | .sldkArg h wide d imm => some (baseImm h 0x18 (if wide then 1 else 0) true (s9 d) 0 imm)
  | .sldkConst h wide d imm => some (baseImm h 0x18 (if wide then 3 else 2) true (s9 d) 0 imm)
  | .vadd h o => some (encAlu3 h 0x30 0 o 0)
  | .vsub h o => some (encAlu3 h 0x31 0 o 0)
  | .vmul h o => some (encAlu3 h 0x32 0 o 0)
  | .vmulh h o => some (encAlu3 h 0x33 0 o 0)
  | .vmad h o => some (encAlu3 h 0x34 0 o 0)
  | .vand h o => some (encAlu3 h 0x35 0 o 0)
  | .vor h o => some (encAlu3 h 0x36 0 o 0)
  | .vxor h o => some (encAlu3 h 0x37 0 o 0)
  | .vshl h o => some (encAlu3 h 0x38 0 o 0)
  | .vshr h o => some (encAlu3 h 0x39 0 o 0)
  | .vsra h o => some (encAlu3 h 0x3A 0 o 0)
  | .vmin h o => some (encAlu3 h 0x3B 0 o 0)
  | .vmax h o => some (encAlu3 h 0x3C 0 o 0)
  | .vabsd h o => some (encAlu3 h 0x3D 0 o 0)
  | .vadds h o => some (encAlu3 h 0x3E 0 o.o (0#5 ++ bit o.sub))
  | .vclz h o => some (encAlu2 h 0x3F 0 o 0)
  | .vpopc h o => some (encAlu2 h 0x40 0 o 0)
  | .vbfe h o => some (encAlu3 h 0x41 0 o 0)
  | .vbfi h o => some (encAlu3 h 0x42 0 o 0)
  | .vsel h o =>
    some (base h 0x43 0 o.o.u o.o.d.code o.o.a.code o.o.b.code (m24 (o.sp ++ (0#5 ++ o.o.tag.code))))
  | .vmov h o => some (encAlu2 h 0x44 0 o 0)
  | .vmovi h o => some (baseImm h 0x45 (if o.wide then 1 else 0) o.u o.d.code 0 o.imm)
  | .vcmp h o =>
    some (base h 0x46 0 o.u (p9 o.pd) o.a.code o.b.code
      (mGen (0#3 ++ o.cond.code) 0 0 0 0 o.tag.code))
  | .vbint h o => some (encAlu3 h 0x47 (if o.three then 1 else 0) o.o 0)
  | .vbdei h o => some (encAlu2 h 0x48 (if o.three then 1 else 0) o.o (0#4 ++ o.sel))
  | .plog h o => some (base h 0x49 0 o.u (p9 o.d) (p9 o.a) (p9 o.b) (mGen (0#2 ++ o.lut) 0 0 0 0 0))
  | .pmov h ⟨u, cnt, p, .tor d⟩ =>
    some (base h 0x4A 0 u d.code (p9 p) 0 (mGen (cnt ++ 0#1) 0 0 0 0 0))
  | .pmov h ⟨u, cnt, p, .fromr a⟩ =>
    some (base h 0x4A 0 u (p9 p) a.code 0 (mGen (cnt ++ 1#1) 0 0 0 0 0))
  | .fadd h o => some (encFAlu3 h 0x50 o)
  | .fsub h o => some (encFAlu3 h 0x51 o)
  | .fmul h o => some (encFAlu3 h 0x52 o)
  | .ffma h o => some (encFAlu3 h 0x53 o)
  | .fmin h o => some (encFMin h 0x54 o)
  | .fmax h o => some (encFMin h 0x55 o)
  | .fcmp h o =>
    some (base h 0x56 0 o.u (p9 o.pd) o.a.code o.b.code (mGen (0#2 ++ o.cond.code) 0 0 0 0 10))
  | .frnd h o => some (base h 0x57 0 o.u o.d.code o.a.code 0 (mGen 0 o.rnd.code 0 0 0 10))
  | .hadd2 h o => some (encHAlu h 0x58 o)
  | .hmul2 h o => some (encHAlu h 0x59 o)
  | .hfma2 h o => some (encHAlu h 0x5A o)
  | .frcp h o => some (encSfu h 0x60 o)
  | .frsq h o => some (encSfu h 0x61 o)
  | .fsqrt h o => some (encSfu h 0x62 o)
  | .fex2 h o => some (encSfu h 0x63 o)
  | .flg2 h o => some (encSfu h 0x64 o)
  | .fsin h o => some (encSfu h 0x65 o)
  | .fcos h o => some (encSfu h 0x66 o)
  | .ftanh h o => some (encSfu h 0x67 o)
  | .cvt h o =>
    some (base h 0x70 0 false o.d o.a.code 0
      (mGen (o.seld ++ o.sela) o.rnd.code 0 0 o.src.code o.dst.code))
  | .qnt h o =>
    some (base h 0x71 0 false o.d o.a.code o.b.code (mGen (o.seld ++ 0#3) o.rnd.code 0 0 10 o.dst.code))
  | .pack6 h o =>
    some (base h 0x72 0 false o.d o.a.code 0 (mGen 0 o.rnd.code 0 0 (if o.fromF32 then 10 else 16) 16))
  | .unpack6 h o =>
    some (base h 0x73 0 false o.d o.a.code 0
      (mGen (0#3 ++ (bit o.quad ++ o.sel)) 0 0 0 16 (if o.toF32 then 10 else 16)))
  | .mxsc h o =>
    some (base h 0x74 0 false o.d o.a.code 0
      (mGen (0#1 ++ (o.seld ++ 0#3)) 0 0 0 10 (if o.mx4 then 18 else 17)))
  | .sattst h pd mask => some (base h 0x75 0 true (p9 pd) 0 0 (m24 mask))
  | .satclr h mask => some (base h 0x76 0 true 0 0 0 (m24 mask))
  | .satarm h set clr => some (base h 0x77 0 true 0 0 0 (m24 (clr ++ set)))
  | .shfl h o =>
    some (base h 0x80 o.mode.code false o.d o.a.code o.b.code
      (mGen (0#3 ++ o.seg) 0 0 0 0 (if o.wide then 1 else 0)))
  | .rdlane h o =>
    some (base h 0x81 0 false (s9 o.d) o.a (s9 o.b) (mGen 0 0 0 0 0 (if o.wide then 1 else 0)))
  | .wrlane h o =>
    some (base h 0x82 0 false o.d (s9 o.a) (s9 o.b) (mGen 0 0 0 0 0 (if o.wide then 1 else 0)))
  | .vred h o =>
    some (base h 0x83 0 false (s9 o.d) o.a.code 0
      (mGen (0#2 ++ o.rop.code) o.rnd.code 0 0 0 o.tag.code))
  | .vscan h o =>
    some (base h 0x84 (if o.excl then 1 else 0) false o.d o.a.code 0
      (mGen (0#2 ++ o.rop.code) o.rnd.code 0 0 0 o.tag.code))
  | .vmatch h o => some (base h 0x85 0 false o.d o.a.code 0 (mGen 0 0 0 0 0 o.tag.code))
  | .lds h o => some (encSpMem h 0x90 o)
  | .sts h o => some (encSpMem h 0x91 o)
  | .atoms h o => some (encSpAtom h 0x92 o)
  | .reds h o => some (encSpAtom h 0x93 o)
  | .barinit h o => some (base h 0x94 0 false 0 (s9 o.a) (s9 o.b) (o.off ++ (bit o.sck ++ 0#15)))
  | .arrive h o =>
    some (base h 0x95 0 false (s9 o.d) (s9 o.a) (s9 o.b) (o.off ++ (bit o.drn ++ (0#4 ++ o.cnti))))
  | .bwait h o => some (base h 0x96 0 false (p9 o.pd) (s9 o.a) 0 (0#9 ++ (o.tmo ++ 0#11)))
  | .btest h o => some (base h 0x97 0 false (p9 o.pd) (s9 o.a) 0 0)
  | .waita h o =>
    some (base h 0x98 0 false (p9 o.pd) (s9 o.a) (s9 o.b)
      (o.cond.code ++ (bit o.spd ++ (o.tmo ++ (o.sco.code ++ ((if o.acq then 2#3 else 1#3) ++
        (0#5 ++ o.tag.code)))))))
  | .ldg h o => some (encGlMem h 0xA0 o)
  | .stg h o => some (encGlMem h 0xA1 o)
  | .atom h o => some (encGlAtom h 0xA2 o)
  | .red h o => some (encGlAtom h 0xA3 o)
  | .fence h o => some (base h 0xA4 o.kind.code true 0 0 0 (mGen 0 0 o.sco.code 0 0 0))
  | .cctlInv h none => some (base h 0xA5 0 true 0 0 0 0)
  | .cctlInv h (some r) => some (base h 0xA5 0 true 0 (s9 r.a) (s9 r.b) 1)
  | .cctlClean h r => some (base h 0xA5 1 true 0 (s9 r.a) (s9 r.b) 1)
  | .cctlCleaninv h r => some (base h 0xA5 2 true 0 (s9 r.a) (s9 r.b) 1)
  | .pref h o =>
    some (base h 0xA6 (if o.slc then 1 else 0) false 0 o.a.code o.b.code
      (mMem o.off 0 0 (o.scl ++ bit o.isgn) 0))
  | .qstat h d q => some (base h 0xA7 0 true (s9 d) (idxCode 320 q) 0 0)
  | .qdrop h q n => some (base h 0xA8 0 true 0 (idxCode 320 q) 0 (m24 n))
  | .link h => some (base h 0xB0 0 true 0 0 0 0)
  | .unlink h => some (base h 0xB1 0 true 0 0 0 0)
  | .tmma h o =>
    some (base h 0xB2 0 true (s9 o.k) (s9 o.a) (s9 o.b)
      (mGen (o.blk.code ++ (bit o.cont ++ (bit o.i4 ++ 0#2))) 0 o.sco.code (if o.acq then 2 else 0)
        o.fmt.code o.acc.code))
  | .tzero h mask => some (base h 0xB3 0 true 0 0 0 (m24 mask))
  | .tdrainSt h o => some (encTdrain h 0 o)
  | .tdrainAddst h o => some (encTdrain h 1 o)
  | .gprog h ⟨reg, .rd d⟩ => some (base h 0xB5 0 true (s9 d) 0 0 (1#1 ++ (0#19 ++ reg)))
  | .gprog h ⟨reg, .wr a⟩ => some (base h 0xB5 0 true 0 (s9 a) 0 (m24 reg))
  | .cpy h o =>
    some (base h 0xC0 o.form.code true (idxCode 256 o.h) (s9 o.a) 0
      (bit o.acq.isSome ++ (scopeOr0 o.acq ++ (bit o.rel.isSome ++ (scopeOr0 o.rel ++
        (bit o.ssp ++ (bit o.dsp ++ (bit o.cw ++ (bit o.tmm ++ 0#12)))))))))
  | .htest h d a => some (base h 0xC1 0 true (s9 d) a.code 0 0)
  | .hcancel h a => some (base h 0xC2 0 true 0 a.code 0 0)
  | .hwait h d a => some (base h 0xC3 0 true (s9 d) a.code 0 0)
  | .rbox h o => some (base h 0xC8 0 false o.d o.a o.b.code (m24 o.hs))
  | .rtri h o => some (base h 0xC9 0 false 0 o.a o.b.code (m24 o.hs))
  | .rhint h o => some (base h 0xCA 0 false o.d o.a 0 (m24 o.hs))
  | .rhset h o => some (base h 0xCB 0 false 0 o.a 0 (m24 o.hs))
  | .rast h o => some (base h 0xCC 0 false o.d (s9 o.a) (s9 o.b) 0)
  | .tex h o => some (base h 0xCD o.mode.code false o.d o.a.code o.b.code (m24 (o.sd ++ o.td)))
  | .texq h o => some (base h 0xCE 0 false o.d o.a.code o.b.code (m24 o.td))
  | .blend h o =>
    some (base h 0xCF 0 false 0 o.a.code o.b.code
      (mMem o.off o.sco.code o.ord.code o.bop.code (if o.f16 then 11 else 6)))
  | .launchEnq h d a => some (base h 0xD8 0 true (s9 d) (s9 a) 0 0)
  | .launchCancel h k a => some (base h 0xD8 1 true 0 (s9 a) 0 (m24 k.code))
  | .setpri h grp a => some (base h 0xD9 0 true 0 (s9 a) 0 (m24 (bit grp)))
  | .trap h imm => some (baseImm h 0xDA 0 true 0 0 imm)
  | .trapret h => some (base h 0xDB 0 true 0 0 0 0)
  | .faultretRetry h => some (base h 0xDC 0 true 0 0 0 0)
  | .faultretSkip h => some (base h 0xDC 1 true 0 0 0 0)
  | .faultretEmul h a => some (base h 0xDC 2 true 0 (s9 a) 0 0)
  | .dbgbrk h code => some (base h 0xDD 0 true 0 0 0 (m24 code))
  | _ => none

/-- The 96-bit word of an instruction; an event has none. -/
def encode (i : Instr) : Option (BitVec 96) := (encodeFields i).map Fields.pack

/-! ### Decoding -/

/-- What a word decodes to: no instruction (R53, cause 0), or an instruction, with the mark that a
field R54 wants 0 is not (cause 1). -/
inductive Decoded
  | illegal
  | ok (i : Instr) (resv : Bool)
  deriving DecidableEq, Repr

/-- The fields R53 does not judge are those of R54: unused D, A, B, a guard without GE, B[8]; and the
SF field of EXIT (R123). -/
def decodeFields (f : Fields) : Decoded :=
  match build f with
  | none => .illegal
  | some i =>
    match encodeFields i with
    | none => .illegal
    | some g =>
      if !i.legal || g.m != f.m || g.u != f.u then .illegal
      else .ok i (g.d != f.d || g.a != f.a || g.b != f.b || g.gn != f.gn || g.gp != f.gp || i.exitFlag)

def decode (w : BitVec 96) : Decoded := decodeFields (Fields.unpack w)

/-- A little-endian number from bytes, the first at the lowest address (R51). -/
def leNat : List Byte → Nat
  | [] => 0
  | b :: bs => b.toNat + 256 * leNat bs

/-- The first `n` bytes of a number, lowest first. -/
def leBytes : Nat → Nat → List Byte
  | 0, _ => []
  | n + 1, x => BitVec.ofNat 8 x :: leBytes n (x / 256)

/-- The three little-endian words of an instruction at consecutive addresses (R51). -/
def wordBytes (w : BitVec 96) : List Byte := leBytes 12 w.toNat

def bytesWord (bs : List Byte) : BitVec 96 := BitVec.ofNat 96 (leNat bs)

/-- The instruction at the head of a list of bytes; fewer than 12 bytes hold none. -/
def decodeBytes (bs : List Byte) : Decoded :=
  if 12 ≤ bs.length then decode (bytesWord (bs.take 12)) else .illegal

/-- The instruction of an opcode-table row's bits, zero above `nbits`. -/
def decodeTableWord (nbits w : Nat) : Option Instr :=
  match decodeBytes (wordBytes (BitVec.ofNat 96 (w % 2 ^ nbits))) with
  | .ok i false => some i
  | _ => none

/-! ### The allotment check (R66) -/

/-- A wave's allotments: vector registers, predicates and scalar registers, and its width. -/
structure Allot where
  vregs : Nat
  preds : Nat
  sregs : Nat
  width : Nat
  deriving DecidableEq, Repr

namespace Allot

/-- `n` vector registers from `x` lie within the allotment. -/
def vr (al : Allot) (x : BitVec 9) (n : Nat) : Bool := x.toNat + n ≤ al.vregs

/-- `n` scalar registers from `x` lie within the allotment. -/
def sr (al : Allot) (x : BitVec 8) (n : Nat) : Bool := x.toNat + n ≤ al.sregs

def pr (al : Allot) (p : BitVec 7) : Bool := p.toNat < al.preds

def span (wide : Bool) : Nat := if wide then 2 else 1

def vsrc (al : Allot) (wide : Bool) : VSrc → Bool
  | .v n => al.vr n (span wide)
  | .bcast n => n.toNat + span wide ≤ al.sregs
  | _ => true

def ssrc (al : Allot) (wide : Bool) : SSrc → Bool
  | .s n => al.sr n (span wide)
  | _ => true

def src (al : Allot) (wide : Bool) : Src → Bool
  | .vec x => al.vsrc wide x
  | .sca x => al.ssrc wide x

def dst (al : Allot) (wide : Bool) : Dst → Bool
  | .v n => al.vr n (span wide)
  | .s n => al.sr n (span wide)
  | .q _ => true

def pair (al : Allot) : PairSrc → Bool
  | .s n => al.sr n 2
  | .exec => true

def hsrc (al : Allot) : HSrc → Bool
  | .s n => al.sr n 1
  | .h _ => true

def guard (al : Allot) (h : Hdr) : Bool :=
  match h.guard with
  | some g => al.pr g.p
  | none => true

def alu3 (al : Allot) (o : Alu3) : Bool :=
  al.dst o.tag.wide o.d && al.src o.tag.wide o.a && al.src o.tag.wide o.b

/-- As `alu3`, with a 32-bit B. -/
def alu3B (al : Allot) (o : Alu3) : Bool :=
  al.dst o.tag.wide o.d && al.src o.tag.wide o.a && al.src false o.b

/-- As `alu3`, with A and B of 32 bits. -/
def alu3D (al : Allot) (o : Alu3) : Bool :=
  al.dst o.tag.wide o.d && al.src false o.a && al.src false o.b

def alu2 (al : Allot) (o : Alu2) : Bool := al.dst false o.d && al.src o.tag.wide o.a

def fields (al : Allot) (d : Dst) (a b : Src) : Bool := al.dst false d && al.src false a && al.src false b

end Allot

/-- No register field lies outside the wave's allotment (R66), nor a range or limit that an entry
checks against the allotment or W with cause 0 (R123, R131, R156, R179, R303, R322). -/
def Instr.fits (al : Allot) : Instr → Bool
  | .nop h _ | .bra h _ | .exit h | .waitc h _ _ | .yield h _ | .sleep h _ | .satclr h _
  | .satarm h _ _ | .fence h _ | .qdrop h _ _ | .link h | .unlink h | .tzero h _ | .trap h _
  | .trapret h | .faultretRetry h | .faultretSkip h | .dbgbrk h _ => al.guard h
  | .bz h a _ | .bnz h a _ | .exset h _ a => al.guard h && al.pair a
  | .call h d _ | .exget h d | .gettime h d => al.guard h && al.sr d 2
  | .ret h a | .faultretEmul h a => al.guard h && al.sr a 2
  | .jmpi h l a => al.guard h && al.sr a 2 && (match l with | some d => al.sr d 2 | none => true)
  | .exitSucc h _ _ k => al.guard h && k.toNat ≤ al.vregs
  | .xvi h d a => al.guard h && al.sr d 2 && al.vr a 3
  | .pmask h d p => al.guard h && al.sr d 2 && al.pr p
  | .csrr h d _ => al.guard h && al.sr d 1
  | .csrw h _ a => al.guard h && al.ssrc false a
  | .sldkArg h w d _ | .sldkConst h w d _ => al.guard h && al.sr d (Allot.span w)
  | .vadd h o | .vsub h o | .vmul h o | .vmulh h o | .vmad h o | .vand h o | .vor h o | .vxor h o
  | .vmin h o | .vmax h o | .vabsd h o => al.guard h && al.alu3 o
  | .vshl h o | .vshr h o | .vsra h o | .vbfe h o | .vbfi h o => al.guard h && al.alu3B o
  | .vadds h o => al.guard h && al.alu3 o.o
  | .vclz h o | .vpopc h o | .vmov h o => al.guard h && al.alu2 o
  | .vsel h o => al.guard h && al.alu3 o.o && al.pr o.sp
  | .vmovi h o => al.guard h && al.dst o.wide o.d
  | .vcmp h o => al.guard h && al.pr o.pd && al.src o.tag.wide o.a && al.src o.tag.wide o.b
  | .vbint h o => al.guard h && al.alu3D o.o
  | .vbdei h o => al.guard h && al.alu2 o.o
  | .plog h o => al.guard h && al.pr o.d && al.pr o.a && al.pr o.b
  | .pmov h o =>
    al.guard h && o.p.toNat + o.cnt.toNat + 1 ≤ al.preds &&
    (match o.dir with | .tor d => al.dst o.u d | .fromr a => al.src o.u a)
  | .fadd h o | .fsub h o | .fmul h o | .ffma h o => al.guard h && al.fields o.d o.a o.b
  | .fmin h o | .fmax h o => al.guard h && al.fields o.d o.a o.b
  | .fcmp h o => al.guard h && al.pr o.pd && al.src false o.a && al.src false o.b
  | .frnd h o => al.guard h && al.dst false o.d && al.src false o.a
  | .hadd2 h o | .hmul2 h o | .hfma2 h o => al.guard h && al.fields o.d o.a o.b
  | .frcp h o | .frsq h o | .fsqrt h o | .fex2 h o | .flg2 h o | .fsin h o | .fcos h o
  | .ftanh h o => al.guard h && al.vr o.d 1 && al.vsrc false o.a
  | .cvt h o => al.guard h && al.vr o.d (Allot.span o.dst.cvtWide) && al.vsrc o.src.cvtWide o.a
  | .qnt h o => al.guard h && al.vr o.d 1 && al.vsrc false o.a && al.vsrc false o.b
  | .pack6 h o => al.guard h && al.vr o.d 1 && al.vsrc false o.a
  | .unpack6 h o => al.guard h && al.vr o.d 1 && al.vsrc false o.a
  | .mxsc h o => al.guard h && al.vr o.d 1 && al.vsrc false o.a
  | .sattst h pd _ => al.guard h && al.pr pd
  | .shfl h o =>
    al.guard h && 2 ^ o.seg.toNat ≤ al.width && al.vr o.d (Allot.span o.wide) &&
    al.vsrc o.wide o.a && al.vsrc o.wide o.b
  | .rdlane h o =>
    al.guard h && al.sr o.d (Allot.span o.wide) && al.vr o.a (Allot.span o.wide) &&
    al.sr o.b (Allot.span o.wide)
  | .wrlane h o =>
    al.guard h && al.vr o.d (Allot.span o.wide) && al.sr o.a (Allot.span o.wide) &&
    al.sr o.b (Allot.span o.wide)
  | .vred h o => al.guard h && al.sr o.d (Allot.span o.tag.wide) && al.vsrc o.tag.wide o.a
  | .vscan h o => al.guard h && al.vr o.d (Allot.span o.tag.wide) && al.vsrc o.tag.wide o.a
  | .vmatch h o => al.guard h && al.vr o.d 2 && al.vsrc o.tag.wide o.a
  | .lds h o | .sts h o =>
    al.guard h && al.vr o.d (Allot.span o.tag.wide) && al.vsrc false o.a && al.vsrc false o.b
  | .atoms h o =>
    al.guard h && al.vr o.d (Allot.span o.tag.wide) && al.vsrc false o.a && al.vsrc o.tag.wide o.b
  | .reds h o => al.guard h && al.vsrc false o.a && al.vsrc o.tag.wide o.b
  | .barinit h o => al.guard h && al.sr o.a 1 && al.sr o.b 1
  | .arrive h o => al.guard h && al.sr o.d 1 && al.sr o.a 1 && (o.cnti ≠ 0 || al.sr o.b 1)
  | .bwait h o => al.guard h && al.pr o.pd && al.sr o.a 1
  | .btest h o => al.guard h && al.pr o.pd && al.sr o.a 1
  | .waita h o =>
    al.guard h && al.pr o.pd && al.sr o.a (Allot.span (!o.spd)) && al.sr o.b (Allot.span o.tag.wide)
  | .ldg h o | .stg h o =>
    al.guard h && al.dst o.tag.wide o.d && al.vsrc true o.a && al.vsrc false o.b
  | .atom h o => al.guard h && al.dst o.tag.wide o.d && al.vsrc true o.a && al.vsrc o.tag.wide o.b
  | .red h o => al.guard h && al.vsrc true o.a && al.vsrc o.tag.wide o.b
  | .cctlInv h none => al.guard h
  | .cctlInv h (some r) | .cctlClean h r | .cctlCleaninv h r =>
    al.guard h && al.sr r.a 2 && al.sr r.b 1
  | .pref h o => al.guard h && al.vsrc true o.a && al.vsrc false o.b
  | .qstat h d _ => al.guard h && al.sr d 1
  | .tmma h o => al.guard h && al.sr o.k 1 && al.sr o.a 2 && al.sr o.b 2
  | .tdrainSt h o | .tdrainAddst h o => al.guard h && al.sr o.a (Allot.span (!o.spd)) && al.sr o.b 1
  | .gprog h o => al.guard h && (match o.dir with | .rd d => al.sr d 1 | .wr a => al.sr a 1)
  | .cpy h o =>
    al.guard h &&
    al.sr o.a (if o.tmm then 22 else match o.form with
      | .lin => if o.cw then 7 else 5
      | .d2 => 10
      | .d3 => 13
      | .gath => 10)
  | .htest h d a | .hwait h d a => al.guard h && al.sr d 1 && al.hsrc a
  | .hcancel h a => al.guard h && al.hsrc a
  | .rbox h o => al.guard h && al.vr o.d 2 && al.vr o.a 16 && al.vsrc false o.b && al.sr o.hs 2
  | .rtri h o => al.guard h && al.vr o.a 48 && al.vsrc false o.b && al.sr o.hs 2
  | .rhint h o => al.guard h && al.vr o.d 2 && al.vr o.a 16 && al.sr o.hs 2
  | .rhset h o => al.guard h && al.vr o.a 16 && al.sr o.hs 2
  | .rast h o => al.guard h && al.vr o.d 3 && al.sr o.a 7 && al.sr o.b 1
  | .tex h o =>
    al.guard h && al.vr o.d 4 && al.vsrc false o.a && al.vsrc false o.b && al.sr o.td 2 &&
    (o.mode ≠ .stoch || al.sr o.sd 1)
  | .texq h o => al.guard h && al.vr o.d 3 && al.vsrc false o.a && al.vsrc false o.b && al.sr o.td 2
  | .blend h o => al.guard h && al.vsrc false o.a && al.vsrc o.f16 o.b
  | .launchEnq h d a => al.guard h && al.sr d 2 && al.sr a 2
  | .launchCancel h _ a | .setpri h _ a => al.guard h && al.sr a 1
  | _ => true

/-! ### Queue ports (R65) -/

/-- A popping field: 0 A, 1 B or 2 D, the port, and whether the operand is 64 bits wide. -/
structure Pop where
  field : Nat
  port : BitVec 4
  wide : Bool
  deriving DecidableEq, Repr

def VSrc.port (f : Nat) (w : Bool) : VSrc → List Pop
  | .q n => [⟨f, n, w⟩]
  | _ => []

def SSrc.port (f : Nat) (w : Bool) : SSrc → List Pop
  | .q n => [⟨f, n, w⟩]
  | _ => []

def Src.port (f : Nat) (w : Bool) : Src → List Pop
  | .vec x => x.port f w
  | .sca x => x.port f w

def Dst.port (f : Nat) (w : Bool) : Dst → List Pop
  | .q n => [⟨f, n, w⟩]
  | _ => []

/-- The fields that pop at issue, in the order A, B, D (R65). -/
def Instr.pops : Instr → List Pop
  | .csrw _ _ a => a.port 0 false
  | .vadd _ o | .vsub _ o | .vmul _ o | .vmulh _ o | .vmad _ o | .vand _ o | .vor _ o | .vxor _ o
  | .vmin _ o | .vmax _ o | .vabsd _ o => o.a.port 0 o.tag.wide ++ o.b.port 1 o.tag.wide
  | .vshl _ o | .vshr _ o | .vsra _ o | .vbfe _ o | .vbfi _ o =>
    o.a.port 0 o.tag.wide ++ o.b.port 1 false
  | .vadds _ o => o.o.a.port 0 o.o.tag.wide ++ o.o.b.port 1 o.o.tag.wide
  | .vsel _ o => o.o.a.port 0 o.o.tag.wide ++ o.o.b.port 1 o.o.tag.wide
  | .vbint _ o => o.o.a.port 0 false ++ o.o.b.port 1 false
  | .vclz _ o | .vpopc _ o | .vmov _ o => o.a.port 0 o.tag.wide
  | .vbdei _ o => o.o.a.port 0 o.o.tag.wide
  | .vcmp _ o => o.a.port 0 o.tag.wide ++ o.b.port 1 o.tag.wide
  | .pmov _ o => (match o.dir with | .fromr a => a.port 0 o.u | .tor _ => [])
  | .fadd _ o | .fsub _ o | .fmul _ o | .ffma _ o => o.a.port 0 false ++ o.b.port 1 false
  | .fmin _ o | .fmax _ o => o.a.port 0 false ++ o.b.port 1 false
  | .fcmp _ o => o.a.port 0 false ++ o.b.port 1 false
  | .frnd _ o => o.a.port 0 false
  | .hadd2 _ o | .hmul2 _ o | .hfma2 _ o => o.a.port 0 false ++ o.b.port 1 false
  | .frcp _ o | .frsq _ o | .fsqrt _ o | .fex2 _ o | .flg2 _ o | .fsin _ o | .fcos _ o
  | .ftanh _ o => o.a.port 0 false
  | .cvt _ o => o.a.port 0 o.src.cvtWide
  | .qnt _ o => o.a.port 0 false ++ o.b.port 1 false
  | .pack6 _ o => o.a.port 0 false
  | .unpack6 _ o => o.a.port 0 false
  | .mxsc _ o => o.a.port 0 false
  | .shfl _ o => o.a.port 0 o.wide ++ o.b.port 1 o.wide
  | .vred _ o => o.a.port 0 o.tag.wide
  | .vscan _ o => o.a.port 0 o.tag.wide
  | .vmatch _ o => o.a.port 0 o.tag.wide
  | .lds _ o | .sts _ o => o.a.port 0 false ++ o.b.port 1 false
  | .atoms _ o | .reds _ o => o.a.port 0 false ++ o.b.port 1 o.tag.wide
  | .ldg _ o => o.a.port 0 true ++ o.b.port 1 false
  | .stg _ o => o.a.port 0 true ++ o.b.port 1 false ++ o.d.port 2 o.tag.wide
  | .atom _ o | .red _ o => o.a.port 0 true ++ o.b.port 1 o.tag.wide
  | .pref _ o => o.a.port 0 true ++ o.b.port 1 false
  | .rbox _ o => o.b.port 1 false
  | .rtri _ o => o.b.port 1 false
  | .tex _ o => o.a.port 0 false ++ o.b.port 1 false
  | .texq _ o => o.a.port 0 false ++ o.b.port 1 false
  | .blend _ o => o.a.port 0 false ++ o.b.port 1 o.f16
  | _ => []

/-- The queue port the instruction pushes one entry to, and the entry's width. -/
def Instr.pushPort : Instr → Option (BitVec 4 × Bool)
  | .ldg _ o => (match o.d with | .q n => some (n, o.tag.wide) | _ => none)
  | .atom _ o => (match o.d with | .q n => some (n, o.tag.wide) | _ => none)
  | _ => none

/-- Every queue port the instruction names; one outside the allotment is queue misuse (R65, R250). -/
def Instr.ports (i : Instr) : List (BitVec 4) :=
  i.pops.map (·.port) ++ i.pushPort.toList.map (·.1) ++
  (match i with | .qstat _ _ q | .qdrop _ q _ => [q] | _ => [])

/-- The handles the instruction reads as a source: a pending one holds it (R309). -/
def Instr.handles : Instr → List (BitVec 4)
  | i =>
    let ofS : SSrc → List (BitVec 4) := fun x => match x with | .h n => [n] | _ => []
    let of : Src → List (BitVec 4) := fun x => match x with | .sca x => ofS x | .vec _ => []
    match i with
    | .csrw _ _ a => ofS a
    | .vadd _ o | .vsub _ o | .vmul _ o | .vmulh _ o | .vmad _ o | .vand _ o | .vor _ o | .vxor _ o
    | .vmin _ o | .vmax _ o | .vabsd _ o | .vshl _ o | .vshr _ o | .vsra _ o | .vbfe _ o
    | .vbfi _ o => of o.a ++ of o.b
    | .vadds _ o => of o.o.a ++ of o.o.b
    | .vsel _ o => of o.o.a ++ of o.o.b
    | .vbint _ o => of o.o.a ++ of o.o.b
    | .vclz _ o | .vpopc _ o | .vmov _ o => of o.a
    | .vbdei _ o => of o.o.a
    | .vcmp _ o => of o.a ++ of o.b
    | .pmov _ o => (match o.dir with | .fromr a => of a | .tor _ => [])
    | .fadd _ o | .fsub _ o | .fmul _ o | .ffma _ o => of o.a ++ of o.b
    | .fmin _ o | .fmax _ o => of o.a ++ of o.b
    | .fcmp _ o => of o.a ++ of o.b
    | .frnd _ o => of o.a
    | .hadd2 _ o | .hmul2 _ o | .hfma2 _ o => of o.a ++ of o.b
    | .htest _ _ (.h n) | .hwait _ _ (.h n) | .hcancel _ (.h n) => [n]
    | _ => []

end Sys2Proof
end

