-- ==== Sys2Proof/Machine/State.lean ====
section
/-!
DEFINITION. The state of the A9 as plain data: waves, groups and the units above them, partitions,
memory and its caches, engines, ports and management, with the machine right after reset.
-/

namespace Sys2Proof.Machine

/-- Why a run stops. -/
inductive Fault
  /-- A wave's instruction is executed while the issue slot names no resident wave. Raised by `exec`
  alone: a step selects a wave before it executes. Safe. -/
  | noWave
  deriving DecidableEq, Repr

/-- Why an instruction has no meaning here. -/
inductive Refusal
  /-- The instruction named has no meaning yet. Raised by `exec`'s arms alone. Safe. -/
  | notModelled (mnemonic : String)
  deriving DecidableEq, Repr

/-- Bytes of memory, a list of `Host.Cell`s in canonical form: rising addresses, no zero byte listed. -/
abbrev Memory := Sparse 8

/-- The canonical form of a memory. -/
def Memory.wf (m : Memory) : Bool := Sparse.wf m

/-! ### A wave (R25) -/

/-- What a kernel descriptor gives a wave and a launch (R76). -/
structure Kern where
  width : Nat
  vregs : Nat
  preds : Nat
  sregs : Nat
  scr : Nat                -- 2 KiB granules
  qn : Nat
  qd : Nat
  gfp : Nat                -- 0 none, 1 G4, 2 G8, 3 G16
  gacc : Nat               -- accumulators per PE − 1
  gang : Bool
  idem : Bool
  gx : Nat
  gy : Nat
  gz : Nat
  entry : W64
  fhnd : W64
  const : W64
  succ : List (Option (Nat × Nat))   -- KEEP·8 and OFFSET of each valid successor
  deriving DecidableEq, Repr

/-- The wave that a trace packet names (R420, R441, R442). -/
structure TrSrc where
  uid : Nat
  slot : Nat               -- 16 · quarter + wave slot
  gidx : Nat
  path : BitVec 16
  pc : W64
  mask : W64
  deriving DecidableEq, Repr

/-- A packet of an event: taken or not, a target, a mask, or the bytes of an EXIT (R419). -/
inductive TrPkt
  | br (taken : Bool)
  | pc (x : W64)
  | mask (x : W64)
  | exit (bytes : List Byte)
  deriving DecidableEq, Repr

/-- The packets that an event of this cycle brings to the trace of a core. -/
structure TrEv where
  at_ : Nat                -- the cycle of the event, and its tick
  time : W64
  core : Nat
  src : TrSrc
  pkts : List TrPkt
  left : Option TrSrc      -- its wave as it was when it left its slot, for a LOSS to come (R442)
  deriving DecidableEq, Repr

/-- An effect of a fixed latency, on its way to the wave (R109, R110). -/
inductive Put
  | v (r : Nat) (xs : List (Nat × W32))     -- a vector register, by thread
  | s (r : Nat) (x : W32)
  | p (n : Nat) (threads bits : W64)        -- a predicate in the named threads
  | flag (f : Nat)                          -- one count off a flag
  | sat (bits : Byte)
  | satClr (mask : Byte)
  | satArm (set clr : Byte)
  | satTst (pd : Nat) (mask : Byte)
  | csr (n : Nat) (x : W32)
  | pri (grp : Bool) (x : Nat)              -- SETPRI
  | cancel (k : CancelSel) (x : W32)        -- LAUNCH.cancel
  | kill (kind cause : Nat) (retpc : W64)   -- a trap at issue that kills the group (R106, R210)
  | entered (src : TrSrc) (v : W64)         -- the trace packets of a trap at issue (R419)
  deriving DecidableEq, Repr

/-- A pending effect and the cluster cycle in which it becomes visible. -/
structure Pend where
  due : Nat
  put : Put
  deriving DecidableEq, Repr

/-- The wave that an effect comes from. -/
structure Sender where
  uid : Nat
  id : WaveId
  grp : GroupId
  deriving DecidableEq, Repr

/-- An effect that reaches outside its wave, kept when the wave ends before it takes effect (R362, R365). -/
structure Post where
  src : Sender
  due : Nat                -- cluster cycle
  put : Put
  deriving DecidableEq, Repr

/-- What a cycle still brings: an event, an effect that reaches outside the wave it comes from, or what an
error of the cycle still has to do. -/
inductive Event
  | instr (i : Instr)
  | out (src : Sender) (x : Put)
  | errTrap (uid : Nat) (tail : W64) -- cause 13 at the wave that read a bad value, after the cancels of its cycle (R36, R401)
  | wake (id : WaveId)     -- the status that an HWAIT waits for is OUTSTANDING no longer (R311): a satisfied wait (R36)
  | restore (part : Nat)   -- a RESTORE that waits for a line that a bias flip holds (R449)
  | interval               -- a 1 µs interval has begun: the clocks are set by what was measured before it (R432)
  | contain (part : Nat)   -- a failed link fences the partition (R394): after what ends by itself (R33)
  | relaunch (g : GroupId) -- an error sends the group back to unplaced (R400), unless a cancel of the cycle wins (R405)
  deriving DecidableEq, Repr

/-- One entry of a queue port (R236–R239). -/
structure QEntry where
  acc : Nat                -- the access that fills it
  wide : Bool
  vals : Sparse 64         -- by thread
  got : Option Nat         -- cluster cycle of its arrival
  dropped : Bool
  poison : Option W64      -- VA of the poisoned access (R245)
  deriving DecidableEq, Repr

/-- A queue port: entries oldest first, and slots of popped entries not free yet. -/
structure Queue where
  entries : List QEntry
  busy : List (Nat × Nat)  -- (cluster cycle from which they are free, slots)
  deriving DecidableEq, Repr

/-- An XVI in progress: its paths, the next one to issue, and what it still owes (R133–R136). In a handler it is
the interrupted one. -/
structure Xvi where
  paths : List (BitVec 96 × W64)   -- key (bits [72:0]) and mask
  next : Nat
  bad : W64
  sf : BitVec 4
  start : Nat                      -- cluster cycle from which the next path may issue
  retPc : W64
  deriving DecidableEq, Repr

inductive HandlerKind | none | trap | fault
  deriving DecidableEq, Repr

/-- What a wave in its fault handler returns to (R226). -/
structure FaultSave where
  pc : W64
  exec : W64
  fmask : W64
  i : Instr
  given : W64 × Sparse 64  -- threads that an earlier handler has emulated, with their values
  deriving DecidableEq, Repr

/-- The instruction that FAULTRET.skip or .emul issues again (R227): with .emul, the threads that make no
access, the values they take, and the last value given; with none, no thread makes one. -/
structure Reissue where
  i : Instr
  emul : Option (W64 × Sparse 64 × W64)
  deriving DecidableEq, Repr

inductive AccKind | read | write | atomic | fetch
  deriving DecidableEq, Repr

/-- How a requester's miss has been settled (R222): a cause that a FAIL reply left, or a fault on a UH
page with its cause and level. -/
inductive MissEnd
  | fail (cause : Nat)
  | uh (cause lvl : Nat)
  deriving DecidableEq, Repr

/-- A page that a parked requester awaits (R220–R222). -/
structure Miss where
  va : W64                 -- of the lowest thread
  kind : AccKind
  threads : W64            -- the threads whose access touches the page
  size : Nat
  settled : Option MissEnd    -- none: not settled yet
  deriving DecidableEq, Repr

/-- What holds a wave whose head instruction has begun to wait (R34). -/
inductive Wait
  | none
  | sleep (wake : W64)
  | bar (pd : BitVec 7) (tok : W32) (deadline : Option W64) (sf : BitVec 4)
  | addr (o : WaitaOp) (va : W64) (pa : Option Nat) (v : W64) (deadline : Option W64) (sf : BitVec 4)
      (reread : Nat)                        -- cluster cycle of the next forced reread
  | arrive (acc : Nat)
  | handle (acc : Nat)                      -- HWAIT until its status is written
  | link (sf : BitVec 4) (since : Nat)
  | unlink
  deriving DecidableEq, Repr

/-- A debug stop or a run of one instruction (R409, R412). -/
inductive DbgState
  | run
  | stopped (kind : Nat)
  | oneshot
  deriving DecidableEq, Repr

/-- No stop holds the wave. -/
def DbgState.isRun : DbgState → Bool
  | .stopped _ => false
  | _ => true

/-- The residence of a wave (R34): pre-empted waves live in an image. -/
inductive Life | live | exited
  deriving DecidableEq, Repr

/-- A trap or a debug stop to take at the wave's next boundary (R100, R136, R245, R313, R408). -/
structure Due where
  cause : Nat
  tval : W64
  stop : Option Nat        -- the KIND of a stop record (R411); none: a trap
  hit : Byte               -- WPHIT
  deriving DecidableEq, Repr

structure TrapRegs where
  cause : Nat
  tepc : W64
  tval : W64
  texec : W64
  tpath : BitVec 16
  tscr : Sparse 32         -- TSCR0–TSCR7
  deriving DecidableEq, Repr

structure Wave where
  uid : Nat
  id : WaveId
  grp : GroupId
  k : Nat                  -- waveid
  kern : Kern
  life : Life
  present : W64
  exec : W64
  v : Sparse 32            -- key 64·r + t
  p : Sparse 64            -- key n: a mask of threads
  s : Sparse 32
  flags : Sparse 6
  h : Sparse 32
  hpend : List Nat         -- handles whose command awaits acceptance
  q : List Queue
  sat : Byte
  arm : Byte
  tst : List (Nat × Byte)  -- the predicates and masks of this cycle's SATTSTs (R177)
  pc : W64
  xvi : Option Xvi
  pathidx : BitVec 16
  stalls : Sparse 32       -- STALL0–STALL15
  stw : Option Nat         -- the one that a CSRW wrote in this cycle
  wcyc : W32
  tr : TrapRegs
  handler : HandlerKind
  fsave : Option FaultSave
  reissue : Option Reissue
  missI : Option Instr     -- the instruction that parked; none: a fetch
  relAfter : List Nat      -- accesses that a FENCE.rel orders before later stores (R247)
  relNear : List Nat       -- those that need only be performed at .wave or .grp (R246)
  prio : Nat
  tprio : Nat              -- the same, as the rules of tiles use it: from the cycle after a SETPRI (R365)
  priSet : Bool
  prev : Option Nat        -- cluster cycle of the previous instruction's last beat
  ctl : Bool               -- and whether it was a control transfer (R107)
  notBefore : Nat          -- cluster cycle before which no instruction issues (R199, R201, R206)
  iss : Option TrSrc       -- the instruction that it issued last, as it stood then, for what a boundary takes (R441)
  met : Option W64         -- timebase at which its BWAIT or WAITA first met R57 and R58 (R201, R206)
  last : Nat               -- cluster cycle of the last issue, for ties (R111)
  age : Nat
  aged : Bool              -- raised for its next issue (R113)
  yield : Nat              -- 1 + the cycles of ineligibility still owed; 0: no YIELD runs (R125)
  yl : Bool                -- pass-over (R114)
  wait : Wait
  miss : List Miss
  lmiss : List (Nat × Miss)   -- what its LAUNCH.enqs in progress await, by access (R361)
  due : List Due
  pend : List Pend
  vwrite : Nat             -- cluster cycle of the last fixed-latency write of a vector register or predicate
  swrite : Nat             -- and of a scalar register (R110)
  dbg : BitVec 3           -- ONESHOT, SSACT, SS
  troff : Bool
  dstate : DbgState
  linkwait : Nat           -- cycles waiting on linked lanes (R41)
  deriving DecidableEq, Repr

/-! ### Accesses of variable latency -/

/-- One thread's access to one location. -/
structure Lane where
  t : Nat
  va : W64
  pa : Nat                 -- physical address, or window offset
  data : W64
  cmp : W64
  l1 : Bool                -- a weak load that L1 may serve (R256)
  given : Bool             -- no access: FAULTRET.emul gives the value (R227)
  perf : Bool              -- performed: its value is fixed, or its home has it
  poison : Bool
  res : W64
  deriving DecidableEq, Repr

/-- The units that complete at a variable cycle (R109). -/
inductive AccOp
  | sfu | xlane | sldk | qstat | handle | launch | cancelled
  | pref                   -- the lines of a PREF that a host still holds (R249)
  | spLoad | spStore | spAtom (op : AtomOp) | spRed (op : AtomOp) | blend (bop : BlendOp) (f16 : Bool)
  | barinit | arrive | btest
  | load | store | atom (op : AtomOp) | red (op : AtomOp)
  | fence (k : FenceKind)
  | cctl (k : Nat)
  | rbox | rtri | rhint | rhset | rast | tex | texq
  deriving DecidableEq, Repr

inductive AccDst
  | none
  | v (r : Nat) (wide : Bool)
  | s (r : Nat) (wide : Bool)
  | p (n : Nat)
  | q (n : Nat) (wide : Bool)
  deriving DecidableEq, Repr

/-- An access or other work outstanding to a variable cycle, in issue order (`id` rising). -/
structure Acc where
  id : Nat
  uid : Nat                -- the wave that issued it
  w : WaveId
  grp : GroupId
  op : AccOp
  tag : Tag
  ord : Order
  sco : Scope
  sf : BitVec 4
  ready : Nat              -- cluster cycle from which it may complete
  dst : AccDst
  lanes : List Lane
  puts : List Put          -- what completion writes, where that is fixed at issue
  args : List W64          -- operands that the operation keeps
  after : List Nat         -- accesses that must be performed first (R257)
  near : List Nat          -- accesses that must be performed first at .wave or .grp (R246)
  left : Option Nat        -- the number of the next access when it left the core; none: not yet (R254)
  told : Bool              -- its flag has counted down, though it is still to be performed (R246)
  redo : Bool              -- restored: its reads are to be translated and made afresh (R240, R323)
  served : Nat             -- threads of an RHINT or RHSET that the Cullet table has served (R335)
  lim : Option Nat         -- a successor restart kept the vector registers below this, and no predicate (R40)
  deriving DecidableEq, Repr

/-! ### Groups and the units above (R26–R33) -/

/-- A command in a tile's queue (R281). -/
inductive GCmd
  | gwr (reg : Nat) (x : W32)
  | grd (reg : Nat) (d : BitVec 8)
  | tzero (mask : BitVec 4)
  | tmma (o : TmmaOp) (k : W32) (a b : W64)
  | tdrain (add : Bool) (o : TdrainOp) (base : W64) (stride : W32)
  | unlink
  deriving DecidableEq, Repr

/-- A queued grid command, with the flag it counts on and the copy that chained it (R307). -/
structure GEntry where
  id : Nat                 -- its number among accesses, for FENCE (R259)
  cmd : GCmd
  sf : BitVec 4
  started : Bool
  chain : Option Nat       -- the chaining copy's number
  after : List Nat         -- accesses that must be performed first (R247, R259)
  rel : List Nat           -- accesses that must be performed before its release (R257, R259)
  regs : Sparse 32         -- grid registers as they stood when it reached the head
  pages : List (Nat × Nat) -- a TDRAIN's pages, each with the physical address that its start found (R298)
  sat : Bool               -- an integer saturation seen
  done : Nat               -- a TDRAIN's elements performed (R298)
  lock : List Nat          -- the window words of a TDRAIN under way, which no other bank operation touches (R299)
  cls : Byte               -- the classes that those saturated (R297)
  deriving DecidableEq, Repr

/-- The exact sum of a slab for one element, finite ones in units of 2^−600 (R102, R103). -/
inductive SlabSum
  | nan
  | inf (neg : Bool)
  | fin (num : Int)
  deriving DecidableEq, Repr

/-- An injected slab: its step, the last cycle before its boundary's end, and its sums by row and column. -/
structure Slab where
  step : Nat
  bound : Nat
  sums : List (Nat × Nat × SlabSum)
  deriving DecidableEq, Repr

/-- A row or column, or its scales, that the load pipes have read for a step: its place among the ranges of the
step, and its bytes (R275, R283). -/
structure Staged where
  step : Nat
  idx : Nat
  bytes : List Byte
  poison : Option Nat      -- VA of the first poisoned byte (R287)
  deriving DecidableEq, Repr

/-- A grid reservation, and the tile while it is owned (R274–R289). -/
structure Tile where
  fp : Nat
  nacc : Nat
  accs : Sparse 36         -- key (index·16 + i)·16 + j
  regs : Sparse 32         -- GASTR … GVAL (0–7), GRPR 8, FCAUSE and FLT of GSTAT 9
  queue : List GEntry
  owner : Option Nat       -- uid of the owning wave
  ann : Bool
  annAt : Nat              -- cluster cycle of the anneal entry or restore
  annAge : Nat             -- cycles that it had been in anneal state when its image was saved (R45, R285)
  runAt : Nat              -- cluster cycle from which it has been running
  inj : Option Nat         -- cluster cycle of the last injection of the running TMMA
  staged : List Staged     -- operands read for steps to come
  flight : List Slab       -- slabs injected whose boundary has not come, oldest first
  stopAt : Option Nat      -- cluster cycle in which a pre-emption condition was first met
  fault : Bool             -- annealed by a translation fault: the owner is parked
  seq : Nat                -- cluster cycle from which the sequencer takes the next command
  miss : List Miss
  deriving DecidableEq, Repr

structure Group where
  id : GroupId
  core : Nat
  q0 : Nat
  nw : Nat
  kern : Kern
  exited : Nat
  relaunch : Nat
  killed : Bool            -- killed or cancelled
  again : Bool             -- killed by an error, to be relaunched in this cycle (R400)
  back : Option Nat        -- the wave that runs its cause-13 handler, when an error has stopped the others (R401)
  window : Memory
  flips : List (Nat × Nat) -- barrier words by offset whose PHASE an arrival set to this value (R204, R208)
  lastExit : Option TrSrc  -- its last wave to exit, for the EXIT packet (R441)
  tile : Option Tile
  deriving DecidableEq, Repr

/-- How a unit stands: in flight as it came, or ending with another status. -/
inductive UStat | live | cancelled | rejected
  deriving DecidableEq, Repr

structure Launch where
  part : Nat
  lid : Nat
  jid : Nat
  gi : Nat
  idx : Nat                -- record index in its graph
  tag : W32
  kern : Kern
  gx : Nat
  gy : Nat
  gz : Nat
  args : List Byte
  cmask : BitVec 4
  lcnt : W64
  preds : List Nat         -- record indices
  next : Nat               -- next group to place
  redo : List (Nat × Nat)  -- groups to place again, rising, with their relaunch counts
  retired : Nat
  since : Option Nat       -- tick from which it is eligible with no group placed
  offer : List (Option Nat)   -- releases offered to it first, each with the group that has its own back (R369, R400)
  stat : UStat
  completed : Bool
  wait : List Miss         -- of its completion counter
  deriving DecidableEq, Repr

structure Graph where
  part : Nat
  jid : Nat
  gi : Nat
  tag : W32
  gcnt : W64
  nl : Nat
  stat : UStat
  completed : Bool
  wait : List Miss
  deriving DecidableEq, Repr

structure Job where
  part : Nat
  jid : Nat
  q : Option Nat           -- its queue; none: a device job
  tag : W32
  prio : Nat
  deadline : Option W64
  est : W64
  jcnt : W64
  promoted : Bool
  ended : Bool             -- its END packet is parsed
  ngraphs : Nat
  order : Nat × Nat × Nat  -- cycle, host before device, queue or wave rank
  stat : UStat
  wait : List Miss
  deriving DecidableEq, Repr

/-! ### Partitions (chapters 15, 09, 17, 18) -/

/-- A launch queue's registers and parse state (R351, R352). -/
structure LQ where
  base : W64               -- LQBASE
  tail : W32
  head : W32
  ev : Bool
  code : Byte
  epos : W32
  job : Option Nat         -- the open job
  skip : Option Nat        -- job whose rest is being consumed (R358)
  dl : Option (W64 × W64)  -- a pending DEADLINE
  hold : Option Nat        -- FENCE or SIGNAL held at HEAD: cycle of the next forced reread
  miss : List Miss
  deriving DecidableEq, Repr

/-- The five registers of a partition descriptor (R345). -/
structure PDesc where
  clu : W64
  root : W64
  band : W64
  mem : W64
  trc : W64
  deriving DecidableEq, Repr

/-- A record of the fault queue, held until the ring takes it (R225). -/
structure FRec where
  bytes : List Byte
  deriving DecidableEq, Repr

/-- A command of PCTL that takes more than one cycle (R346, R372, R231). -/
inductive PRun
  | idle
  | carve (d : PDesc) (wrote : Option Nat)  -- COMMIT of a descriptor: the cycle in which the newly carved ways had been
                                           -- written back; none: not yet
  | save (img : Nat) (mig : Bool) (step : Nat) (size : Nat)
  | restore (img : W64)    -- RESTORE of an image with a line that a bias flip holds (R449)
  deriving DecidableEq, Repr

/-- A reservation of cores (R371). -/
structure Resv where
  lid : Nat
  cores : List Nat
  deriving DecidableEq, Repr

structure Watch where
  ctl : W64
  addr : W64
  len : W32
  deriving DecidableEq, Repr

structure Part where
  staged : PDesc
  force : PDesc
  rsn : Byte
  rej : Bool
  imgc : Bool
  imgw : Bool
  held : Option Nat        -- PA of the image that holds its state
  imgpg : W32
  tboff : W64
  thalt : W64
  timgc : W64
  canc : W32
  run : PRun
  lqs : List LQ
  resv : Option Resv
  nextLid : W32
  placedAt : Option Nat    -- cycle of the last placement decision
  tvec : W64
  fqbase : W64
  fqtail : BitVec 12
  fqhead : BitVec 12
  tlbinv : W64             -- MODE and NPAGES as written
  tlbinva : W64
  tlbbusy : Bool
  tlbwait : List Nat       -- accesses translated through a removed translation
  fqheld : List FRec
  dbgctl : W64
  dsbase : W64
  dstail : BitVec 6
  dshead : BitVec 6
  drgrp : W64
  dsheld : List FRec
  wps : List Watch
  pmr : List (BitVec 384)
  pmdata : BitVec 384
  pwcap : BitVec 16
  capNow : BitVec 16       -- the cap in force since the start of the 1 µs interval (R432)
  hostmap : BitVec 2       -- host halves into which a translation was filled since COMMIT (R394)
  deriving DecidableEq, Repr

/-! ### Memory system -/

structure CxWin where
  win : W64
  sz : W64
  deriving DecidableEq, Repr

/-- What the classification of a physical page rests on: the CSM granules that a partition owns and the CXL
windows (R229, R396). -/
structure Classes where
  csmb : Nat
  csmn : Nat
  win : List CxWin
  deriving DecidableEq, Repr

/-- A cached translation, tagged with its partition and leaf size (R219, R229). -/
structure Tlb where
  part : Nat
  lvl : Nat
  vpn : Nat                -- VA divided by the leaf size
  pa : Nat                 -- base of the leaf
  attr : BitVec 9          -- D A NC UH EX WR RD LEAF V
  cls : Classes            -- what its pages were classified by when it was filled (R229, R397)
  shared : Bool            -- held by the shared TLB
  pipes : List Nat         -- cores whose translation pipes hold it
  deriving DecidableEq, Repr

inductive Requester
  | wave (uid : Nat) (id : WaveId)
  | chan (core : Nat)
  | tile (g : GroupId) (core : Nat)
  | parser (q : Nat)
  | launch (acc : Nat) (id : WaveId)
  | unit (u : UnitRef)
  deriving DecidableEq, Repr

/-- What a walk met (R218). -/
inductive WalkRes
  | leaf (lvl : Nat) (pa : Nat) (attr : BitVec 9)
  | fault (cause lvl : Nat) (uh : Bool) (attr : Option (BitVec 9))
  | malformed (lvl : Nat)
  deriving DecidableEq, Repr

/-- A level-1 or level-2 entry in the walk caches: the table it names (R219). -/
structure WalkEntry where
  part : Nat
  lvl : Nat
  vpn : Nat                -- VA divided by the reach of the entry
  table : Nat
  deriving DecidableEq, Repr

/-- A fault-buffer entry (R221, R222). -/
structure FbEntry where
  fbid : Nat
  part : Nat
  va : W64                 -- of the first requester
  kind : AccKind
  reqs : List (Requester × AccKind)
  pending : Option WalkRes
  acq : Bool               -- its walk follows a RETRY, whose first read is an acquire at .sys (R445)
  deriving DecidableEq, Repr

/-- A requester that waits for its partition's quota (R221). -/
structure FbWait where
  part : Nat
  va : W64
  kind : AccKind
  req : Requester
  since : Nat              -- cycle
  deriving DecidableEq, Repr

/-- A line with its 128 bytes, and the groups whose engine commands have written it since (R256, R259). -/
structure Line where
  core : Nat
  line : Nat
  bytes : List Byte
  eng : List GroupId
  deriving DecidableEq, Repr

/-- A line that an SLC slice holds: its way, and whether a host-homed one is owned, or only shared (R231, R382). -/
structure SlcLine where
  line : Nat
  way : Nat
  own : Bool
  deriving DecidableEq, Repr

/-- A line that a host holds (R271). -/
structure Snoop where
  host : Nat
  line : Nat
  own : Bool
  dirty : Bool
  asked : Bool             -- a back-invalidate of it is under way
  bytes : List Byte
  deriving DecidableEq, Repr

/-- A bias flip in progress (R386). -/
structure Flip where
  page : Nat
  toHost : Bool
  waiting : List (Nat × Nat)   -- host and line whose response is awaited
  back : List (Nat × List Byte) -- write-backs that LPDDR-6 has still to accept: the line, and the bytes as issued (R448);
                                -- `dirty` lists a line of them only if it has been written again
  done : Nat                   -- cycle of the command, or of the last response or write-back
  deriving DecidableEq, Repr

/-- An entry of the Cullet table (R331). -/
structure Cullet where
  idx : Nat
  tag : W32
  gen : BitVec 16
  leaf : BitVec 31
  prim : W32
  deriving DecidableEq, Repr

/-- An entry of the Cullet table that an operation has reached in this cycle: what it held before a write of this
cycle, and whether an RHINT has read it (R335). -/
structure CulletUse where
  idx : Nat
  was : Option Cullet
  hint : Bool
  deriving DecidableEq, Repr

/-! ### Engines -/

/-- STAT of a copy command (R310). -/
inductive CStat | outstanding | done | cancelled | failed | retired
  deriving DecidableEq, Repr

/-- A copy command (R302–R307): its block registers and where it stands. -/
structure Copy where
  num : Nat
  uid : Nat
  w : WaveId
  grp : GroupId
  o : CpyOp
  sf : BitVec 4
  blk : List W32           -- s(a) to s(a+21), as far as the form reads
  after : List Nat         -- accesses that must be performed first (R247, R259)
  rel : List Nat           -- accesses that must be performed before its release (R257, R259)
  prog : Nat               -- units written
  stat : CStat
  cause : Option Nat
  cancel : Bool
  chained : Option Bool    -- none: no TMMA due; some false: to be queued; some true: queued
  cwDone : Bool            -- the completion word has been written
  unit : Option (List Byte)   -- the bytes of the unit that has been read and is to be written (R305)
  deriving DecidableEq, Repr

structure Slot where
  gen : BitVec 16
  cmd : Option Copy
  ended : Nat              -- order in which its command ended; 0: never used
  deriving DecidableEq, Repr

/-- A channel of a cluster's copy engine (R300). -/
structure Chan where
  fifo : List Copy
  slots : List Slot
  running : List Nat       -- accepted slots not ended, in acceptance order
  miss : List Miss
  deriving DecidableEq, Repr

/-- The trace unit of a core (R418–R423). -/
structure Trace where
  rd : W32
  wr : W32
  slot : Option Nat        -- the slot of the last packet
  time : W64               -- tick of the last timed packet written
  vtime : W64              -- tick of the last timed packet, dropped ones included
  need : Bool              -- a SYNC precedes the next packet
  count : Nat              -- packets since the last SYNC, PC and MASK
  sync : W64               -- tick of the last SYNC
  lost : Nat               -- packets dropped since the last LOSS
  src : Option TrSrc       -- the wave of the last dropped packet
  deriving DecidableEq, Repr

/-- A beat at a quarter's scratchpad port (R189): the cycles that it still holds the port when no bank refuses
it, and the services that it still asks of each bank. -/
structure PortBeat where
  acc : Nat
  left : Nat
  banks : List (Nat × Nat)
  deriving DecidableEq, Repr

structure Quarter where
  busy : Nat               -- the slot is free from this cluster cycle
  port : List PortBeat     -- the beats that hold the scratchpad port, the one being served first
  array : Nat              -- RBOX has the lanes until this cluster cycle (R325)
  deriving DecidableEq, Repr

/-- A service of a scratchpad bank (R189): the window and its word, the access or command that asks for it, and which of
its services it is. -/
structure Service where
  grp : GroupId
  word : Nat
  acc : Nat
  part : Nat
  deriving DecidableEq, Repr

structure Core where
  idx : Nat
  quarters : List Quarter
  banks : List Nat         -- the quarter that each scratchpad bank served last (R189)
  used : Nat × List Service   -- a cluster cycle, and what the banks have served in it (R189, R190)
  chan : Chan
  trace : Trace
  deriving DecidableEq, Repr

structure Cluster where
  idx : Nat
  clk : Nat                -- clock step, 10–26 (R432)
  acc : Nat
  cyc : Nat
  gated : Nat              -- gated cycles of the interval still to run
  fenced : Bool
  temp : Nat
  draw : Nat
  deriving DecidableEq, Repr

/-! ### Ports, errors and management -/

structure HostPort where
  up : Bool
  down : Bool              -- latched
  nonce : W32
  bad : Byte
  period : BitVec 16
  armed : Bool
  deadline : Option W64
  expired : Bool           -- the lease expired with no armed standby (R391)
  lost : Bool              -- the link went down with no armed standby, and no RENEW has come since (R391)
  tbl : List Nat           -- pending MSI-X vectors
  mask : List Nat
  deriving DecidableEq, Repr

structure ErrLog where
  base : W64
  tail : BitVec 16
  head : BitVec 16
  ctl : BitVec 2
  ce : BitVec 24
  ue : BitVec 24
  lost : BitVec 16
  held : List (Option Nat × List Byte)  -- records whose line a bias flip holds (R449); with an address, one of LFSAVE (R395)
  deriving DecidableEq, Repr

structure Mgmt where
  stage : BitVec 4
  err : Byte
  svn : BitVec 16
  minSvn : BitVec 16
  raise : BitVec 16        -- a raise of the fused minimum version, from the next reset (R428)
  flash : List Byte        -- the package SPI flash
  power : Nat              -- die power of the last interval
  hot : Nat                -- intervals in a row above the sustained limit (R14)
  clkAt : Nat              -- the 1 µs interval whose clocks were set last (R432)
  img : List Byte          -- the image that step 3 reads, as it stood in the flash at the reset (R425, R434), or that the
                           -- check of a recovery reads (R429)
  checking : Bool          -- a check of a recovery runs (R429)
  deriving DecidableEq, Repr

/-- The grades of R16. -/
inductive Grade | a1024 | a768 | e
  deriving DecidableEq, Repr

/-- What a partition image holds beside its header bytes (R373). -/
structure Image where
  pa : Nat
  part : Nat
  bytes : List Byte        -- as written to memory, by which a moved image is known
  waves : List Wave
  groups : List Group
  launches : List Launch
  graphs : List Graph
  jobs : List Job
  accs : List Acc
  chans : List (Nat × Chan)                -- cluster position·4 + k
  lqs : List LQ
  resv : Option Resv
  nextLid : W32
  csm : Memory
  deriving DecidableEq, Repr

/-- Something the A9 sends out: an interrupt, or an answer on a management path. -/
inductive Out
  | msix (port vec : Nat)
  | reply (via : MgmtPath) (bytes : List Byte)
  | sideband (value : W64)
  | data (host : Nat) (bytes : List Byte)
  | poison (host : Nat)
  | unsupported (host : Nat)
  | snoop (host line : Nat) (data : Option (List Byte))
  | backInvalidate (host line : Nat)
  | lineRequest (host line : Nat) (own : Bool)
  | writeBack (host line : Nat) (bytes : List Byte)
  deriving DecidableEq, Repr

structure State where
  -- time and agenda
  cycle : Nat
  timebase : W64
  tickAcc : Nat
  agenda : List (Nat × Instr)
  eager : Bool             -- work of a variable latency completes as soon as it may
  events : List Event      -- what this cycle still brings, in order
  todo : List (Nat × Nat)  -- cores and quarters whose issue slots it has still to serve
  posts : List Post        -- effects under way whose waves have ended
  trq : List TrEv          -- what the events of this cycle bring to the traces (R419)
  cur : WaveId
  fresh : Nat
  nextSeq : Nat
  grade : Grade
  -- waves and the units above
  waves : List Wave
  accs : List Acc
  groups : List Group
  launches : List Launch
  graphs : List Graph
  jobs : List Job
  parts : List Part
  images : List Image
  -- memory
  mem : Memory
  home : Memory                            -- at the homes, where a modified line differs
  dirty : List Nat                         -- lines modified in the SLC
  slc : List SlcLine                       -- the lines that the SLC holds
  poison : List Nat
  l1 : List Line
  ic : List Line
  tlb : List Tlb
  walks : List WalkEntry                   -- the walk caches
  fb : List FbEntry
  fbwait : List FbWait
  bias : List Nat                          -- host-biased pages
  snoop : List Snoop
  flip : Option Flip
  bfpage : BitVec 28                       -- BFLIP.PAGE
  biasRes : Bool                           -- BFLIP.BIAS
  cullet : List Cullet
  culletUse : List CulletUse
  slccfg : BitVec 24                       -- HWAY
  -- engines
  clusters : List Cluster
  cores : List Core
  -- ports, errors, management
  active : Option Nat
  ports : List HostPort
  hpstat : Byte                            -- LEXP, TKO and the latched marks
  lfsave : W64
  cxwin : List CxWin
  err : ErrLog
  mg : Mgmt
  out : List Out
  deriving DecidableEq, Repr

/-! ### The machine right after reset -/

def Chan.empty : Chan := { fifo := [], slots := List.replicate 32 ⟨0, none, 0⟩, running := [], miss := [] }

def Trace.empty : Trace :=
  { rd := 0, wr := 0, slot := none, time := 0, vtime := 0, need := true, count := 0, sync := 0, lost := 0, src := none }

def Core.reset (c : Nat) : Core :=
  { idx := c, quarters := List.replicate 4 ⟨0, [], 0⟩, banks := List.replicate 32 3, used := (0, []), chan := Chan.empty, trace := Trace.empty }

def Cluster.reset (c : Nat) : Cluster :=
  { idx := c, clk := 26, acc := 0, cyc := 0, gated := 0, fenced := false, temp := 0, draw := 0 }

/-- The reset values of R345: PDBAND has CS 15, FBQ 16 and PCEIL 63. -/
def PDesc.reset : PDesc := { clu := 0, root := 0, band := 0xF00103F00, mem := 0, trc := 0 }

def LQ.reset : LQ :=
  { base := 0, tail := 0, head := 0, ev := false, code := 0, epos := 0, job := none, skip := none,
    dl := none, hold := none, miss := [] }

def Part.reset : Part :=
  { staged := PDesc.reset, force := PDesc.reset, rsn := 0, rej := false, imgc := false, imgw := false,
    held := none, imgpg := 0, tboff := 0, thalt := 0, timgc := 0, canc := 0, run := .idle,
    lqs := List.replicate 8 LQ.reset, resv := none, nextLid := 1, placedAt := none,
    tvec := 0, fqbase := 0, fqtail := 0, fqhead := 0, tlbinv := 0, tlbinva := 0, tlbbusy := false,
    tlbwait := [], fqheld := [], dbgctl := 0, dsbase := 0, dstail := 0, dshead := 0,
    drgrp := 0, dsheld := [], wps := List.replicate 8 ⟨0, 0, 0⟩,
    pmr := List.replicate 8 0, pmdata := 0, pwcap := 0, capNow := 0, hostmap := 0 }

/-- A lease nonce is random and not 0 (R388). -/
def freshNonce (n : Nat) : W32 :=
  let x := (Config.freeValue n).truncate 32
  if x = 0 then 1 else x

def HostPort.reset (n : Nat) : HostPort :=
  { up := true, down := false, nonce := freshNonce n, bad := 0, period := 0, armed := false,
    deadline := none, expired := false, lost := false, tbl := [], mask := List.range 161 }

/-- The machine right after reset, as a GA9-1024: the values the manual gives, and those that the
assumption log names where it gives none. -/
def State.reset : State where
  cycle := 0
  timebase := 0
  tickAcc := 0
  agenda := []
  eager := true
  events := []
  todo := []
  posts := []
  trq := []
  cur := ⟨0, 0, 0⟩
  fresh := 2
  nextSeq := 0
  grade := .a1024
  waves := []
  accs := []
  groups := []
  launches := []
  graphs := []
  jobs := []
  parts := List.replicate 16 Part.reset
  images := []
  mem := []
  home := []
  dirty := []
  slc := []
  poison := []
  l1 := []
  ic := []
  tlb := []
  walks := []
  fb := []
  fbwait := []
  bias := []
  snoop := []
  flip := none
  bfpage := 0
  biasRes := false
  cullet := []
  culletUse := []
  slccfg := 0xFFFFFF
  clusters := (List.range 64).map Cluster.reset
  cores := (List.range 256).map Core.reset
  active := some 0
  ports := [HostPort.reset 0, HostPort.reset 1]
  hpstat := 0
  lfsave := 0
  cxwin := [⟨0, 0x64000000000000⟩, ⟨0, 0x64000000000000⟩]
  err := { base := 0, tail := 0, head := 0, ctl := 0, ce := 0, ue := 0, lost := 0, held := [] }
  mg := { stage := 0, err := 0, svn := 0, minSvn := Config.fusedSvn, raise := 0, flash := Config.spiFlash,
          power := 0, hot := 0, clkAt := 0, img := [], checking := false }
  out := []

end Sys2Proof.Machine
end

