-- ==== Sys2Proof/Machine/Ops.lean ====
section
/-!
DEFINITION. The named operations over the machine's state: finding and replacing its parts, registers
as a beat reads them, bytes of memory, fault-queue records and interrupts, killing a group, and taking
a trap and returning from one (R210, R215).
-/

namespace Sys2Proof.Machine

abbrev Res := Host.Outcome State Fault Refusal

/-! ### Small helpers -/

/-- Replaces every element that `p` names. -/
def upd {α : Type} (p : α → Bool) (f : α → α) (l : List α) : List α :=
  l.map fun x => if p x then f x else x

/-- Inserts a number into a strictly rising list. -/
def insNat (n : Nat) : List Nat → List Nat
  | [] => [n]
  | x :: l => if n < x then n :: x :: l else if n = x then x :: l else x :: insNat n l

/-- Inserts an element before the first one it is not above. -/
def insertBy {α : Type} (le : α → α → Bool) (x : α) : List α → List α
  | [] => [x]
  | y :: l => if le x y then x :: y :: l else y :: insertBy le x l

/-- A list in ascending order, elements of equal rank in their old order. -/
def sortBy {α : Type} (le : α → α → Bool) (l : List α) : List α := l.foldr (insertBy le) []

/-- The numbers of the bits set in a mask, ascending. -/
def bitsOf (m : W64) : List Nat := (List.range 64).filter fun t => m.getLsbD t

/-- The lowest bit set, if any. -/
def lowBit (m : W64) : Option Nat := (bitsOf m).head?

/-- The mask of the numbers in a list. -/
def maskOf (l : List Nat) : W64 := l.foldl (fun m t => m ||| (1#64 <<< t)) 0

/-- The mask of the numbers below `n`. -/
def lowMask (n : Nat) : W64 := if n ≥ 64 then BitVec.allOnes 64 else BitVec.ofNat 64 (2 ^ n - 1)

/-- Bits [hi:lo] of a value, as a number. -/
def bits {w : Nat} (x : BitVec w) (hi lo : Nat) : Nat := (x.toNat / 2 ^ lo) % 2 ^ (hi + 1 - lo)

/-- Replaces bits [hi:lo] of a value. -/
def setBits {w : Nat} (x : BitVec w) (hi lo : Nat) (v : Nat) : BitVec w :=
  let n := x.toNat
  let f := 2 ^ (hi + 1 - lo)
  BitVec.ofNat w (n - ((n / 2 ^ lo) % f) * 2 ^ lo + (v % f) * 2 ^ lo)

/-- A 64-bit value of two 32-bit halves. -/
def pair64 (lo hi : W32) : W64 := hi ++ lo

def lo32 (x : W64) : W32 := x.truncate 32
def hi32 (x : W64) : W32 := (x >>> 32).truncate 32

/-- The first element of greatest key. -/
def argMax {α : Type} (key : α → Nat) : List α → Option α
  | [] => none
  | x :: l => match argMax key l with
    | none => some x
    | some y => if key x ≥ key y then some x else some y

/-! ### Parts of the state -/

def PRun.isSave : PRun → Bool
  | .save _ _ _ _ => true
  | _ => false

namespace State

/-- The partition is being saved. -/
def saving (s : State) (p : Nat) : Bool := (s.parts.getD p Part.reset).run.isSave

def wave? (s : State) (id : WaveId) : Option Wave :=
  s.waves.find? fun w => w.id = id

def waveUid? (s : State) (uid : Nat) : Option Wave :=
  s.waves.find? fun w => w.uid = uid

/-- Changes the wave of a slot. -/
def modWave (s : State) (id : WaveId) (f : Wave → Wave) : State :=
  { s with waves := upd (fun w => w.id = id) f s.waves }

/-- Changes the wave with number `uid`, if it is still resident. -/
def modUid (s : State) (uid : Nat) (f : Wave → Wave) : State :=
  { s with waves := upd (fun w => w.uid = uid) f s.waves }

def group? (s : State) (g : GroupId) : Option Group := s.groups.find? fun x => x.id = g

def modGroup (s : State) (g : GroupId) (f : Group → Group) : State :=
  { s with groups := upd (fun x => x.id = g) f s.groups }

def launch? (s : State) (p lid : Nat) : Option Launch :=
  s.launches.find? fun l => l.part = p && l.lid = lid

def modLaunch (s : State) (p lid : Nat) (f : Launch → Launch) : State :=
  { s with launches := upd (fun l => l.part = p && l.lid = lid) f s.launches }

def job? (s : State) (p jid : Nat) : Option Job := s.jobs.find? fun j => j.part = p && j.jid = jid

def modJob (s : State) (p jid : Nat) (f : Job → Job) : State :=
  { s with jobs := upd (fun j => j.part = p && j.jid = jid) f s.jobs }

def modGraph (s : State) (p jid gi : Nat) (f : Graph → Graph) : State :=
  { s with graphs := upd (fun g => g.part = p && g.jid = jid && g.gi = gi) f s.graphs }

def part (s : State) (p : Nat) : Part := s.parts.getD p Part.reset

def modPart (s : State) (p : Nat) (f : Part → Part) : State :=
  { s with parts := s.parts.modify p f }

def core (s : State) (c : Nat) : Core := s.cores.getD c (Core.reset c)

def modCore (s : State) (c : Nat) (f : Core → Core) : State :=
  { s with cores := s.cores.modify c f }

def cluster (s : State) (c : Nat) : Cluster := s.clusters.getD c (Cluster.reset c)

def modCluster (s : State) (c : Nat) (f : Cluster → Cluster) : State :=
  { s with clusters := s.clusters.modify c f }

/-- The cycle count of a core's cluster: distances and latencies count these cycles (R115). -/
def cyc (s : State) (core : Nat) : Nat := (s.cluster (core / 4)).cyc

def acc? (s : State) (id : Nat) : Option Acc := s.accs.find? fun a => a.id = id

def modAcc (s : State) (id : Nat) (f : Acc → Acc) : State :=
  { s with accs := upd (fun a => a.id = id) f s.accs }

def dropAcc (s : State) (id : Nat) : State :=
  { s with accs := s.accs.filter fun a => a.id ≠ id }

/-- Clusters of the grade (R16). -/
def nclu (s : State) : Nat := match s.grade with | .a1024 => 64 | .a768 | .e => 48

/-- A cluster is present and not fenced (R17). -/
def cluUp (s : State) (c : Nat) : Bool := c < s.nclu && !(s.cluster c).fenced

/-- LPDDR-6 capacity of the grade, in bytes (R16). -/
def dramEnd (s : State) : Nat :=
  match s.grade with | .a1024 => 0x10000000000 | .a768 | .e => 0xC000000000

def nhost (s : State) : Nat := match s.grade with | .e => 1 | _ => 2
def ncxl (s : State) : Nat := match s.grade with | .e => 0 | _ => 2
def hasCullet (s : State) : Bool := match s.grade with | .e => false | _ => true

/-- A free value for something the manual leaves open (log 2). -/
def free (s : State) : W64 × State := (Config.freeValue s.fresh, { s with fresh := s.fresh + 1 })

/-- The next number of an access, wave or command. -/
def seq (s : State) : Nat × State := (s.nextSeq, { s with nextSeq := s.nextSeq + 1 })

end State

/-! ### Fields of the partition descriptor in force (R345) -/

namespace Part

def en (p : Part) : Bool := p.force.root.getLsbD 0
def ptroot (p : Part) : Nat := bits p.force.root 47 15 * 2 ^ 15
def pfloor (p : Part) : Nat := bits p.force.band 5 0
def pceil (p : Part) : Nat := bits p.force.band 13 8
def fbq (p : Part) : Nat := bits p.force.band 28 16
def lfarm (p : Part) : Bool := p.force.band.getLsbD 40
def clu (p : Part) (c : Nat) : Bool := p.force.clu.getLsbD c
def csmb (p : Part) : Nat := bits p.force.mem 7 0
def csmn (p : Part) : Nat := bits p.force.mem 24 16
def clamp (p : Part) (x : Nat) : Nat := max p.pfloor (min x p.pceil)

/-- The SLC ways into which fills on behalf of the partition allocate (R231). -/
def ways (p : Part) : Nat := bits p.force.mem 55 32

/-- A SAVE or MIGSAVE runs: nothing of the partition goes on but what is under way (R372). -/
def saving (p : Part) : Bool := p.run.isSave

/-- A save is past step 3: every part of the partition's state is fixed (R372). -/
def imaged (p : Part) : Bool := match p.run with | .save _ _ 3 _ => true | _ => false

/-- Clusters owned, ascending. -/
def clusters (p : Part) : List Nat := bitsOf p.force.clu

end Part

/-! ### Memory bytes -/

namespace State

/-- In the CSM (R228). -/
def isCsm (pa : Nat) : Bool := 0x10000000000 ≤ pa && pa < 0x10010000000

/-- The window that decodes an address, among the first `n` (R396): its index. -/
def cxlIn (ws : List CxWin) (n pa : Nat) : Option Nat :=
  (List.range n).find? fun k =>
    let w := ws.getD k ⟨0, 0⟩
    let base := bits w.win 47 30 * 2 ^ 30
    let size := bits w.sz 47 30 * 2 ^ 30
    w.win.getLsbD 63 && base ≤ pa && pa < base + size

/-- A CXL window decodes the address. -/
def cxlOf (s : State) (pa : Nat) : Option Nat := cxlIn s.cxwin s.ncxl pa

/-- The host port whose memory homes the address (R381). -/
def hostOf (pa : Nat) : Option Nat :=
  if 0x400000000000 ≤ pa && pa < 0x600000000000 then some 0
  else if 0x600000000000 ≤ pa && pa < 0x800000000000 then some 1
  else none

/-- What a partition's pages are classified by now. -/
def classes (s : State) (p : Nat) : Classes := ⟨(s.part p).csmb, (s.part p).csmn, s.cxwin⟩

/-- The cause of an access that fails classification (R229, R381): 5 for a CSM granule that the partition does
not own, 15 where nothing answers. Whether a host's link is up is judged at the access (R394). -/
def classifyBy (s : State) (x : Classes) (pa : Nat) : Option Nat :=
  if isCsm pa then
    let g := (pa - 0x10000000000) / 2 ^ 20
    if x.csmb ≤ g && g < x.csmb + x.csmn then none else some 5
  else if pa < s.dramEnd || (cxlIn x.win s.ncxl pa).isSome then none
  else match hostOf pa with
    | some h => if h < s.nhost && (s.ports.getD h (HostPort.reset 0)).up then none else some 15
    | none => some 15

def classify (s : State) (p : Nat) (pa : Nat) : Option Nat := s.classifyBy (s.classes p) pa

/-- Memory exists at a physical address (R228, R229, R381). -/
def present (s : State) (pa : Nat) : Bool := (s.classifyBy ⟨0, 256, s.cxwin⟩ pa).isNone

/-- Where the contents of a physical address lie: a byte of a CXL window is its device's, at its offset from BASE
(R396), and stands above the physical addresses. -/
def key (s : State) (pa : Nat) : Nat :=
  match s.cxlOf pa with
  | some k => 2 ^ 48 * (k + 1) + (pa - bits (s.cxwin.getD k ⟨0, 0⟩).win 47 30 * 2 ^ 30)
  | none => if pa < 2 ^ 48 then pa else pa + 2 ^ 50

/-- The address lies in the window of a peer A9, whose lines only the SLC caches (R397). -/
def peerPage (s : State) (pa : Nat) : Bool :=
  match s.cxlOf pa with
  | some k => bits (s.cxwin.getD k ⟨0, 0⟩).win 62 61 = 2
  | none => false

/-- L1 may hold the line for a weak load of a page with this NC (R234, R397). -/
def l1able (s : State) (pa : Nat) (nc : Bool) : Bool := !nc && !isCsm pa && !s.peerPage pa

/-- The coherent byte at a physical address. -/
def rdByte (s : State) (pa : Nat) : Byte := s.mem.get (s.key pa)

/-- Writes a byte at its home; the line is then modified in the SLC (CSM lines have no home below). -/
def wrByte (s : State) (pa : Nat) (x : Byte) : State :=
  { s with mem := s.mem.set (s.key pa) x
           dirty := if isCsm pa then s.dirty else insNat (s.key pa / 128) s.dirty }

def rdBytes (s : State) (pa : Nat) : Nat → List Byte
  | 0 => []
  | n + 1 => s.rdByte pa :: rdBytes s (pa + 1) n

def wrBytes (s : State) (pa : Nat) : List Byte → State
  | [] => s
  | b :: bs => (s.wrByte pa b).wrBytes (pa + 1) bs

/-- A little-endian number of `n` bytes (R85). -/
def rdNat (s : State) (pa n : Nat) : Nat := leNat (s.rdBytes pa n)

def wrNat (s : State) (pa n x : Nat) : State := s.wrBytes pa (leBytes n x)

def rd64 (s : State) (pa : Nat) : W64 := BitVec.ofNat 64 (s.rdNat pa 8)

/-- A line by its contents' place. -/
def lineKey (s : State) (line : Nat) : Nat := s.key (128 * line) / 128

/-- A line is poisoned (R245). -/
def poisoned (s : State) (pa : Nat) : Bool := s.poison.contains (s.key pa / 128)

/-- A write-back of the line that a flip has issued is still to be accepted (R448). -/
def backing (s : State) (k : Nat) : Bool := s.flip.any fun f => f.back.any fun b => b.1 = k

/-- The line is modified in the SLC: until its home has what a write-back has sent, too (R448). -/
def modified (s : State) (line : Nat) : Bool := s.dirty.contains (s.lineKey line) || s.backing (s.lineKey line)

/-- The home of a line, by its contents' place, has what the SLC holds modified (R248); a write-back of the line that a flip has
still under way has no older bytes left to bring. -/
def sendHome (s : State) (k : Nat) : State :=
  if s.dirty.contains k then
    { s with home := (List.range 128).foldl (fun m i => m.set (k * 128 + i) (s.mem.get (k * 128 + i))) s.home
             dirty := s.dirty.filter (fun l => l ≠ k)
             flip := s.flip.map fun f => { f with back := f.back.map fun b =>
               if b.1 = k then (k, (List.range 128).map fun i => s.mem.get (k * 128 + i)) else b } }
  else s

/-- A modified line is written back to its home, which a host learns (R382), and kept. -/
def cleanKey (s : State) (k : Nat) : State :=
  match hostOf (128 * k) with
  | some h => if s.dirty.contains k then
      { s.sendHome k with out := s.out ++ [.writeBack h k ((List.range 128).map fun i => s.mem.get (k * 128 + i))] } else s
  | none => s.sendHome k

def cleanLine (s : State) (line : Nat) : State := s.cleanKey (s.lineKey line)

/-! ### Slices, channels and the SLC (R230, R231, R382) -/

/-- The SLC slice that is the home of a line (R230). -/
def slice (pa : Nat) : Nat :=
  let f (hi lo : Nat) : Nat := (pa / 2 ^ lo) % 2 ^ (hi + 1 - lo)
  f 12 7 ^^^ f 18 13 ^^^ f 24 19 ^^^ f 30 25 ^^^ f 36 31 ^^^ f 42 37 ^^^ f 47 43

/-- The LPDDR-6 channel of an address: NMCH is by grade (R16, R230). -/
def channel (s : State) (pa : Nat) : Nat := pa / 4096 % s.nclu

/-- The home agent of an address, one for four channels (R230). -/
def homeAgent (s : State) (pa : Nat) : Nat := s.channel pa / 4

/-- Ways carved for the CSM, for the descriptors in force and those being committed (R231). -/
def carved (s : State) : Nat :=
  ((List.range 16).foldl (fun n p =>
    let d := s.part p
    n + bits (match d.run with | .carve x _ => x.mem | _ => d.force.mem) 24 16) 0 + 15) / 16

/-- Two lines compete for the ways of one set. -/
def sameSet (a b : Nat) : Bool := slice (128 * a) = slice (128 * b) && Config.slcSet a % 2048 = Config.slcSet b % 2048

/-- A line leaves the SLC: what was modified goes back to its home first. -/
def slcDrop (s : State) (line : Nat) : State :=
  let s := s.cleanLine line
  { s with slc := s.slc.filter fun x => x.line ≠ line }

/-- A host's line is requested over CXL.cache (R382). -/
def askLine (s : State) (line : Nat) (own : Bool) : State :=
  match hostOf (128 * line) with
  | some h => { s with out := s.out ++ [.lineRequest h line own] }
  | none => s

/-- The slice of a line serves an access made on behalf of one who may fill the ways of a mask: it has the line, or
fills it into a free way or in place of a line that a free value picks (log 30); with `own`, it owns it. A CSM line
never leaves its carved way. -/
def slcTouch (s : State) (ways pa : Nat) (own : Bool) : State :=
  let line := pa / 128
  if isCsm pa then s
  else match s.slc.find? fun x => x.line = line with
    | some x =>
      if own && !x.own then { s with slc := upd (fun x => x.line = line) (fun x => { x with own := true }) s.slc }.askLine line true
      else s
    | none =>
      let mine := (List.range (24 - s.carved)).filter fun w => ways.testBit w
      let rivals := s.slc.filter fun x => mine.contains x.way && sameSet x.line line
      match mine.find? fun w => !rivals.any fun x => x.way = w with
      | some w => { s with slc := ⟨line, w, own⟩ :: s.slc }.askLine line own
      | none =>
        match rivals with
        | [] => s.askLine line own
        | _ =>
          let (x, s) := s.free
          let v := rivals.getD (x.toNat % rivals.length) ⟨0, 0, false⟩
          let s := s.slcDrop v.line
          { s with slc := ⟨line, v.way, own⟩ :: s.slc }.askLine line own

/-- Bytes written at their slice on behalf of one who may fill the ways of a mask; a line that no way may hold goes
to its home at once. -/
def slcWrite (s : State) (ways pa : Nat) (bs : List Byte) : State :=
  let s := (s.slcTouch ways pa true).wrBytes pa bs
  if isCsm pa || s.slc.any (fun x => x.line = pa / 128) then s else s.cleanLine (pa / 128)

/-! ### Host copies (R271, R383, R385–R387) -/

/-- A host copy is gone for a flip that awaits it; the last one dates its end. -/
def flipAnswered (s : State) (host line : Nat) : State :=
  { s with flip := s.flip.map fun f =>
      if f.waiting.contains (host, line) then { f with waiting := f.waiting.filter (· ≠ (host, line)), done := s.cycle }
      else f }

/-- A host's copy of a line is given up; what it modified is merged at the slice. -/
def merge (s : State) (x : Snoop) : State :=
  let s := { s with snoop := s.snoop.filter fun y => y ≠ x }
  (if x.dirty then s.slcWrite (bits s.slccfg 23 0) (128 * x.line) x.bytes else s).flipAnswered x.host x.line

/-- A host's copy that an access of its line must wait for: any copy for a write; for a read an owned one, or one that a
flip to device bias has still to get answered (R449). -/
def inWay (s : State) (write : Bool) (x : Snoop) : Bool :=
  write || x.own || s.flip.any fun f => f.waiting.contains (x.host, x.line)

/-- A host holds a copy of the line that an access must wait for. -/
def snoopHeld (s : State) (pa : Nat) (write : Bool) : Bool :=
  s.snoop.any fun x => x.line = pa / 128 && s.inWay write x

/-- Back-invalidates are sent for the copies that an access waits for. -/
def ask (s : State) (pa : Nat) (write : Bool) : State :=
  let need (x : Snoop) : Bool := x.line = pa / 128 && s.inWay write x && !x.asked
  { s with out := s.out ++ (s.snoop.filter need).map fun x => Out.backInvalidate x.host x.line
           snoop := upd need (fun x => { x with asked := true }) s.snoop }

/-- The copies that an access needs given up are given up at once, for the A9's own units (log 34); of a line that a bias
flip holds they wait first (R449). -/
def reclaim (s : State) (pa : Nat) (write : Bool) : State :=
  let s := s.ask pa write
  (s.snoop.filter fun x => x.line = pa / 128 && s.inWay write x).foldl merge s

/-- The same for every line of a range. -/
def reclaimRange (s : State) (pa len : Nat) (write : Bool) : State :=
  (s.snoop.filter fun x => pa / 128 ≤ x.line && 128 * x.line < pa + len).foldl (fun s x => s.reclaim (128 * x.line) write) s

/-- A line of a range has a copy that a flip to device bias has still to get answered: an access of it is held at its slice
(R449). -/
def flipHolds (s : State) (pa len : Nat) : Bool :=
  match s.flip with
  | none => false
  | some f => f.waiting.any fun x => pa / 128 ≤ x.2 && 128 * x.2 < pa + len

/-- The first bytes of the lines of a range. -/
def linesOf (pa len : Nat) : List Nat :=
  if len = 0 then [] else (List.range ((pa + len - 1) / 128 + 1 - pa / 128)).map fun i => max pa (128 * (pa / 128 + i))

/-- A unit of the A9 writes a record: every host copy is given up first (R271). -/
def wrOut (s : State) (ways pa : Nat) (bs : List Byte) : State :=
  let s := (linesOf pa bs.length).foldl (fun s x => (s.reclaim x true).slcTouch ways x true) s
  s.wrBytes pa bs

/-- Invalidates every L1 line of a core. -/
def l1Clear (s : State) (core : Nat) : State :=
  { s with l1 := s.l1.filter fun l => l.core ≠ core }

def l1Drop (s : State) (core line : Nat) : State :=
  { s with l1 := s.l1.filter fun l => ¬ (l.core = core ∧ l.line = line) }

/-- Every core of a partition. -/
def coresOf (s : State) (p : Nat) : List Nat :=
  (s.part p).clusters.flatMap fun c => [4 * c, 4 * c + 1, 4 * c + 2, 4 * c + 3]

end State

/-- Window bytes. -/
def Group.rdBytes (g : Group) (x : Nat) : Nat → List Byte
  | 0 => []
  | n + 1 => g.window.get x :: g.rdBytes (x + 1) n

def Group.rdNat (g : Group) (x n : Nat) : Nat := leNat (g.rdBytes x n)

/-- Puts bytes into a window from offset `x`. -/
def winSet (m : Sparse 8) (x : Nat) : List Byte → Sparse 8
  | [] => m
  | b :: bs => winSet (m.set x b) (x + 1) bs

/-- PHASE of a barrier word (R196). -/
def phaseOf (w : W64) : Nat := bits w 63 48

/-- A window with bytes put into it by anything but an arrival: a barrier word whose PHASE this changes has it
from no arrival (R204). -/
def Group.put (g : Group) (x : Nat) (bs : List Byte) : Group :=
  let g' := { g with window := winSet g.window x bs }
  { g' with flips := g.flips.filter fun f => phaseOf (BitVec.ofNat 64 (g'.rdNat f.1 8)) = f.2 }

def Group.wrNat (g : Group) (x n v : Nat) : Group := g.put x (leBytes n v)

def Group.size (g : Group) : Nat := g.kern.scr * 2048

/-! ### Registers as a beat reads them (R108–R110) -/

/-- Of the pending effects visible in cycle `at_`, the one that stands: the latest cycle, and within
it the later-issued (R110). -/
def look {α : Type} (at_ : Nat) (f : Put → Option α) (pend : List Pend) (base : α) : α :=
  (pend.foldl (fun (acc : Nat × α) p =>
    if p.due ≤ at_ then
      match f p.put with
      | some x => if acc.1 ≤ p.due then (p.due, x) else acc
      | none => acc
    else acc) (0, base)).2

namespace Wave

/-- Vector register `r` of thread `t`, as read in cycle `at_`. -/
def rv (w : Wave) (at_ r t : Nat) : W32 :=
  look at_ (fun p => match p with
    | .v r' xs => if r' = r then (xs.find? fun x => x.1 = t).map (·.2) else none
    | _ => none) w.pend (w.v.get (64 * r + t))

def rs (w : Wave) (at_ r : Nat) : W32 :=
  look at_ (fun p => match p with
    | .s r' x => if r' = r then some x else none
    | _ => none) w.pend (w.s.get r)

/-- Rank of an effect among those of one cycle: SATCLR, then the saturations, then SATTST (R177). -/
def putRank : Put → Nat
  | .satClr _ => 0
  | .satTst _ _ => 2
  | _ => 1

/-- The sticky saturation flags after every pending effect of cycle `at_` (R98, R177). -/
def satAt (w : Wave) (at_ : Nat) : Byte :=
  let ps := sortBy (fun (a b : Pend) => 3 * a.due + putRank a.put ≤ 3 * b.due + putRank b.put)
    (w.pend.filter fun p => p.due ≤ at_)
  ps.foldl (fun x p => match p.put with
    | .sat b => x ||| b
    | .satClr m => x &&& ~~~m
    | _ => x) w.sat

/-- What SATTST writes to its predicate for threads that exist (R176). -/
def satVal (w : Wave) (m sat : Byte) : W64 := if sat &&& m = 0 then 0 else w.present

/-- A predicate in every thread that exists, as SATTST writes it. -/
def tstPut (w : Wave) (t : Nat × Byte) (sat : Byte) : Sparse 64 :=
  w.p.set t.1 ((w.p.get t.1 &&& ~~~w.present) ||| w.satVal t.2 sat)

/-- The saturation flags change; a SATTST whose write falls in this cycle sees them (R177). -/
def setSat (w : Wave) (x : Byte) : Wave :=
  w.tst.foldl (fun w t => { w with p := w.tstPut t x }) { w with sat := x }

/-- A pending effect on predicates, a SATTST with the flags of its cycle. -/
def predPend (w : Wave) (p : Pend) : Pend :=
  match p.put with
  | .satTst pd m => { p with put := .p pd w.present (w.satVal m (w.satAt p.due)) }
  | _ => p

/-- Predicate `n` of thread `t`, as read in cycle `at_`. -/
def rp (w : Wave) (at_ n t : Nat) : Bool :=
  look at_ (fun p => match p with
    | .p n' th b => if n' = n && th.getLsbD t then some (b.getLsbD t) else none
    | _ => none) (w.pend.map w.predPend) ((w.p.get n).getLsbD t)

/-- Predicate `n` as a mask over the wave's threads. -/
def rpMask (w : Wave) (at_ n : Nat) : W64 :=
  maskOf ((List.range w.kern.width).filter fun t => w.rp at_ n t)

def flag (w : Wave) (f : Nat) : Nat := (w.flags.get f).toNat

/-- Every completion flag reads 0. -/
def flagsZero (w : Wave) : Bool := w.flags.isEmpty

/-- In an XVI, its paths still to issue: the PC stays at it (R136). In a handler it is interrupted. -/
def inPath (w : Wave) : Bool := w.xvi.isSome && w.handler = .none

/-- The exec mask an instruction samples: within a path of XVI, the path's mask (R133). -/
def execNow (w : Wave) : W64 :=
  match w.xvi.bind fun x => x.paths[x.next]? with
  | some pm => if w.inPath then pm.2 else w.exec
  | none => w.exec

/-- The wave as the next path of its XVI meets it: pathidx names that path (R38, R133). -/
def atPath (w : Wave) : Wave :=
  match w.xvi with
  | some x => if w.inPath then { w with pathidx := BitVec.ofNat 16 x.next } else w
  | none => w

/-- Puts an effect where reads see it. -/
def land (w : Wave) : Put → Wave
  | .v r xs => { w with v := xs.foldl (fun m x => m.set (64 * r + x.1) x.2) w.v }
  | .s r x => { w with s := w.s.set r x }
  | .p n th b => { w with p := w.p.set n ((w.p.get n &&& ~~~th) ||| (b &&& th)) }
  | .flag f => { w with flags := w.flags.set f (w.flags.get f - 1) }
  | .sat b => w.setSat (w.sat ||| b)
  | .satClr m => w.setSat (w.sat &&& ~~~m)
  | .satArm st cl => { w with arm := (w.arm &&& ~~~cl) ||| st }
  | .satTst pd m => { w with p := w.tstPut (pd, m) w.sat, tst := w.tst ++ [(pd, m)] }
  | .csr n x =>
    if 0x10 ≤ n ∧ n ≤ 0x1F then { w with stalls := w.stalls.set (n - 0x10) x, stw := some (n - 0x10) }
    else if n = 0x101 then { w with tr := { w.tr with tepc := pair64 x (hi32 w.tr.tepc) } }
    else if n = 0x102 then { w with tr := { w.tr with tepc := pair64 (lo32 w.tr.tepc) x } }
    else if n = 0x105 then { w with tr := { w.tr with texec := pair64 x (hi32 w.tr.texec) } }
    else if n = 0x106 then { w with tr := { w.tr with texec := pair64 (lo32 w.tr.texec) x } }
    else if 0x108 ≤ n ∧ n ≤ 0x10F then { w with tr := { w.tr with tscr := w.tr.tscr.set (n - 0x108) x } }
    else if n = 0x200 then { w with dbg := setBits w.dbg 1 0 (bits x 1 0) }
    else if n = 0x201 then { w with troff := x.getLsbD 0 }
    else w
  | .pri _ _ | .cancel _ _ | .kill _ _ _ | .entered _ _ => w

/-- An effect that takes its place among the events of its cycle: it reaches outside the wave (R36). -/
def putOut : Put → Bool
  | .pri _ _ | .cancel _ _ | .kill _ _ _ | .entered _ _ => true
  | _ => false

/-- The effects due by cycle `now` that take their place among the cycle's events. -/
def outs (w : Wave) (now : Nat) : List Put :=
  ((w.pend.filter fun p => p.due ≤ now).map (·.put)).filter putOut

/-- Marks the write ports that writes of cycle `now` take (R110). -/
def marks (w : Wave) (now : Nat) (ps : List Put) : Wave :=
  { w with
    vwrite := if ps.any (fun p => match p with | .v _ _ | .p _ _ _ | .satTst _ _ => true | _ => false) then now else w.vwrite
    swrite := if ps.any (fun p => match p with | .s _ _ => true | _ => false) then now else w.swrite }

/-- Lands every effect due by cycle `now` but those that are events of the cycle. -/
def landDue (w : Wave) (now : Nat) : Wave :=
  let due := (w.pend.filter fun p => p.due ≤ now).map (·.put)
  let w := { w with pend := w.pend.filter fun p => ¬ p.due ≤ now }
  let byRank (w : Wave) (r : Nat) := (due.filter fun p => putRank p = r && !putOut p).foldl land w
  (byRank (byRank (byRank w 0) 1) 2).marks now due

/-- Adds effects visible from cycle `due`. -/
def add (w : Wave) (due : Nat) (ps : List Put) : Wave :=
  { w with pend := w.pend ++ ps.map fun p => ⟨due, p⟩ }

/-- The flag of an SF field loses one count at completion in cycle `at_`: seen from the next (R58). -/
def decSf (w : Wave) (sf : BitVec 4) (at_ : Nat) : Wave :=
  if sf.toNat < 12 then w.add (at_ + 1) [.flag sf.toNat] else w

def incSf (w : Wave) (sf : BitVec 4) : Wave :=
  if sf.toNat < 12 then { w with flags := w.flags.set sf.toNat (w.flags.get sf.toNat + 1) } else w

/-- A 64-bit value written to a scalar pair. -/
def putPair (d : Nat) (x : W64) : List Put := [.s d (lo32 x), .s (d + 1) (hi32 x)]

end Wave

/-! ### Interrupts and fault-queue records -/

/-- The port sends a vector's messages: it is not masked, the link is up, and the lease has not expired
(R379, R391). -/
def HostPort.sends (p : HostPort) (vec : Nat) : Bool := !p.mask.contains vec && p.up && !p.expired

/-- An MSI-X message on the active port, or its pending bit (R379, R391). -/
def State.msix (s : State) (vec : Nat) : State :=
  match s.active with
  | none => s
  | some h =>
    match s.ports[h]? with
    | none => s
    | some p =>
      if p.sends vec then { s with out := s.out ++ [.msix h vec] }
      else { s with ports := s.ports.modify h fun p => { p with tbl := insNat vec p.tbl } }

/-- A fault-queue record as it is posted: WAITERS are those parked on its entry now, and TIME is now (R225). -/
def State.fqStamp (s : State) (p : Nat) (bs : List Byte) : List Byte :=
  let waiters := if (bs.getD 10 0).toNat ≤ 2 then
      ((s.fb.find? fun e => e.part = p && e.fbid = leNat ((bs.drop 8).take 2)).map fun e => e.reqs.length).getD 0 else 0
  bs.take 14 ++ leBytes 2 (min waiters 0xFFFF) ++ (bs.drop 16).take 8 ++ leBytes 8 s.timebase.toNat

/-- Moves held records into the fault-queue ring while it takes them (R225, R449). -/
def State.fqDrain (s : State) (p : Nat) : (fuel : Nat) → State
  | 0 => s
  | n + 1 =>
    let d := s.part p
    match d.fqheld with
    | [] => s
    | r :: rest =>
      let at_ := bits d.fqbase 47 17 * 2 ^ 17 + 32 * d.fqtail.toNat
      if d.fqbase.getLsbD 0 && d.fqtail + 1 ≠ d.fqhead && !s.flipHolds at_ 32 then
        let s := s.wrOut d.ways at_ (s.fqStamp p r.bytes)
        let s := s.modPart p fun d => { d with fqtail := d.fqtail + 1, fqheld := rest }
        State.fqDrain (s.msix (128 + p)) p n
      else s

/-- The 32 bytes of a fault-queue record (R225), WAITERS and TIME still 0. -/
def fqBytes (va : W64) (fbid kind acc lvl core slot lid : Nat) : List Byte :=
  leBytes 8 va.toNat ++ leBytes 2 fbid ++ leBytes 1 kind ++ leBytes 1 acc ++ leBytes 1 lvl ++ leBytes 1 0 ++
  leBytes 2 0 ++ leBytes 2 core ++ leBytes 1 slot ++ leBytes 1 0 ++ leBytes 4 lid ++ leBytes 8 0

/-- Posts a record to a partition's fault queue, in order (R225). -/
def State.fqPost (s : State) (p : Nat) (bytes : List Byte) : State :=
  let s := s.modPart p fun d => { d with fqheld := d.fqheld ++ [⟨bytes⟩] }
  s.fqDrain p (s.part p).fqheld.length

/-! ### Trace (R418–R423, R441, R442) -/

/-- The greatest delta that the packet holds; none: it carries no time (R421). -/
def TrPkt.limit : TrPkt → Option Nat
  | .br _ => some 31
  | .pc _ | .mask _ => some 255
  | .exit _ => none

/-- The bytes of a packet with a delta (R420). -/
def TrPkt.bytes (d : Nat) : TrPkt → List Byte
  | .br t => [BitVec.ofNat 8 (0x80 + (if t then 0x40 else 0) + d)]
  | .pc x => 0xA1 :: BitVec.ofNat 8 d :: leBytes 4 (x.toNat / 12)
  | .mask x => 0xA3 :: BitVec.ofNat 8 d :: leBytes 8 x.toNat
  | .exit b => b

/-- TMODE of the partition; 3 acts as 0 (R410). -/
def Part.tmode (p : Part) : Nat := let m := bits p.dbgctl 9 8; if m = 3 then 0 else m

/-- The launch passes TLID (R410). -/
def Part.tlid (p : Part) (lid : Nat) : Bool := let t := bits p.dbgctl 63 32; t = 0 || t = lid

/-- The segment of a core: its address and size (R418); none where trace is disabled. -/
def State.trSeg (s : State) (core : Nat) : Option (Nat × Nat) :=
  let p := (List.range 16).find? fun p => (s.part p).clu (core / 4)
  match p with
  | none => none
  | some p =>
    let d := s.part p
    let cs := s.coresOf p
    let log := bits d.force.trc 4 0
    let size := 2 ^ log / 2 ^ (if cs.length ≤ 1 then 0 else Nat.log2 (cs.length - 1) + 1)
    if log = 0 || size < 4096 then none
    else some (bits d.force.trc 47 12 * 2 ^ 12 + (cs.idxOf core) * size, size)

/-- The SLC ways of the partition that owns a core's cluster. -/
def State.waysOf (s : State) (core : Nat) : Nat :=
  (((List.range 16).find? fun p => (s.part p).clu (core / 4)).map fun p => (s.part p).ways).getD 0

/-- Bytes written at a ring offset of the segment. -/
def State.trWrite (s : State) (ways base size off : Nat) : List Byte → State
  | [] => s
  | b :: bs => (s.wrOut ways (base + off % size) [b]).trWrite ways base size (off + 1) bs

/-- A packet of so many bytes fits the segment (R418). -/
def State.trFits (s : State) (core size n : Nat) : Bool :=
  let t := (s.core core).trace
  (t.wr - t.rd).toNat + n ≤ size

/-- Changes the trace unit of a core. -/
def State.modTrace (s : State) (core : Nat) (f : Trace → Trace) : State :=
  s.modCore core fun c => { c with trace := f c.trace }

/-- A packet that does not fit is dropped and counted (R423, R442). -/
def State.trDrop (s : State) (core : Nat) (src : TrSrc) (timed : Bool) : State :=
  s.modTrace core fun t => { t with lost := t.lost + 1, src := some src, vtime := if timed then s.timebase else t.vtime }

/-- Writes a packet where it fits, and otherwise counts it as dropped (R418, R423, R442). -/
def State.trPut (s : State) (core base size : Nat) (src : TrSrc) (timed : Bool) (bytes : List Byte) : State :=
  if s.trFits core size bytes.length then
    (s.trWrite (s.waysOf core) base size (s.core core).trace.wr.toNat bytes).modTrace core fun t =>
      { t with wr := t.wr + BitVec.ofNat 32 bytes.length, count := t.count + 1
               time := if timed then s.timebase else t.time
               vtime := if timed then s.timebase else t.vtime }
  else s.trDrop core src timed

/-- SYNC with its PC and MASK (R422, R441). Each is dropped where it does not fit, and a PC and MASK with the SYNC that they
would follow, since their delta counts from it (R442; DESIGN CHOICE, log 95). -/
def State.trSync (s : State) (core base size : Nat) (src : TrSrc) : State :=
  let bytes := [0xA5, BitVec.ofNat 8 src.slot] ++ leBytes 2 core ++ leBytes 4 src.gidx ++
    leBytes 6 s.timebase.toNat ++ leBytes 2 src.path.toNat
  if s.trFits core size 16 then
    let s := s.trPut core base size src true bytes
    let s := s.trPut core base size src true ((TrPkt.pc src.pc).bytes 0)
    let s := s.trPut core base size src true ((TrPkt.mask src.mask).bytes 0)
    s.modTrace core fun t => { t with need := false, sync := s.timebase, slot := some src.slot, count := 0 }
  else ((s.trDrop core src true).trDrop core src true).trDrop core src true

/-- The wave that a SYNC after a LOSS names, as it stands: its head instruction, or its EXIT if it has exited, and its
exec (R442). An instruction that waits is still the head. -/
def Wave.trHead (w : Wave) (src : TrSrc) : TrSrc :=
  let waits : Bool := match w.wait with
    | .bar _ _ _ _ | .addr _ _ _ _ _ _ _ | .arrive _ | .handle _ | .link _ _ | .unlink => true
    | _ => false
  { src with path := w.pathidx, pc := if w.life = .live && waits then w.pc - 12 else w.pc, mask := w.exec }

/-- A line of the core's segment has a copy that a bias flip awaits: its packets wait (R449). -/
def State.trHeld (s : State) (core : Nat) : Bool :=
  match s.trSeg core with
  | some (base, size) => s.flipHolds base size
  | none => false

/-- LOSS, once 36 bytes fit, with the SYNC of the wave of the last dropped packet (R423, R442). -/
def State.trLoss (s : State) (core : Nat) : State :=
  let t := (s.core core).trace
  match s.trSeg core, t.src with
  | some (base, size), some src =>
    if t.lost = 0 || !s.trFits core size 36 || s.trHeld core then s
    else
      let src := match s.waveUid? src.uid with
        | some w => w.trHead src
        | none => src
      let s := s.modTrace core fun t => { t with lost := 0, src := none }
      let s := s.trPut core base size src false (0xA6 :: leBytes 3 (min t.lost 0xFFFFFF))
      s.trSync core base size src
  | _, _ => s

/-- A SYNC is due before the next packet (R422). -/
def State.trDue (s : State) (core : Nat) : Bool :=
  let t := (s.core core).trace
  t.need || 4096 ≤ t.count || 65536 ≤ (s.timebase - t.sync).toNat

/-- The SYNC that is due before a packet, if one is. -/
def State.trSyncDue (s : State) (core base size : Nat) (src : TrSrc) : State :=
  if s.trDue core then s.trSync core base size src else s

/-- One packet of an event, with the SYNC and the TS that come first (R421, R422). Where the TS does not fit, the packet
cannot hold its delta and is dropped as well; dropped packets carry no time (R442). -/
def State.trPacket (s : State) (core base size : Nat) (src : TrSrc) (p : TrPkt) : State :=
  let s := s.trSyncDue core base size src
  match p.limit with
  | none => s.trPut core base size src false (p.bytes 0)
  | some lim =>
    let t := (s.core core).trace
    let d := (s.timebase - t.time).toNat
    if d ≤ lim then s.trPut core base size src true (p.bytes d)
    else if s.trFits core size 4 then
      let s := s.trPut core base size src true (0xA4 :: leBytes 3 (min d 0xFFFFFF))
      (s.trSyncDue core base size src).trPut core base size src true (p.bytes 0)
    else
      let s := if lim < (s.timebase - t.vtime).toNat then s.trDrop core src true else s
      s.trDrop core src true

/-- The packets of an event of the wave named, with the WAVE that its slot calls for (R419), written into the segment of
the core. -/
def State.trEvent (s : State) (e : TrEv) : State :=
  match s.trSeg e.core with
  | none => s
  | some (base, size) =>
    let s := (s.trLoss e.core).trSyncDue e.core base size e.src
    let s := if (s.core e.core).trace.slot = some e.src.slot then s
      else if s.trFits e.core size 2 then
        (s.trPut e.core base size e.src false [0xA2, BitVec.ofNat 8 e.src.slot]).modTrace e.core fun t =>
          { t with slot := some e.src.slot }
      else s.trDrop e.core e.src false
    let s := e.pkts.foldl (fun s p => s.trPacket e.core base size e.src p) s
    -- a LOSS to come knows a wave that has left since as it was then (R442)
    let s := s.modTrace e.core fun t => { t with src := match e.left with
      | some x => t.src.map fun y => if y.uid = x.uid then x else y
      | none => t.src }
    s.trLoss e.core

/-- An EXIT packet. -/
def TrEv.isExit (e : TrEv) : Bool := e.pkts.any fun p => match p with | .exit _ => true | _ => false

/-- An event comes before another, or with it: by cycle; within one EXIT packets first, by group index (R442), and then those of
the quarters, ascending, each quarter's as they came (R419). -/
def TrEv.before (a b : TrEv) : Bool :=
  a.at_ < b.at_ || (a.at_ = b.at_ &&
    (if a.isExit then !b.isExit || a.src.gidx ≤ b.src.gidx else !b.isExit && a.src.slot / 16 ≤ b.src.slot / 16))

/-- The packets of a tick are written at its end, so that a write of TRPTR.RD in it comes before their fit check (R442), each
with the time of its event. -/
def State.trFlush (s : State) : State :=
  (sortBy TrEv.before (s.trq.filter fun e => !s.trHeld e.core)).foldl
    (fun s e => { State.trEvent { s with timebase := e.time } e with timebase := s.timebase })
    { s with trq := s.trq.filter fun e => s.trHeld e.core }

/-- A LOSS to come knows the waves that leave as they ended (R442). -/
def State.trKeep (s : State) (gone : Wave → Bool) : State :=
  let end_ (x : TrSrc) : Option TrSrc := ((s.waveUid? x.uid).filter gone).map fun w => w.trHead x
  { s with cores := s.cores.map fun c => { c with trace := { c.trace with src := c.trace.src.map fun x => (end_ x).getD x } }
           trq := s.trq.map fun e => { e with left := e.left <|> end_ e.src } }

def Wave.trSrc (w : Wave) : TrSrc :=
  { uid := w.uid, slot := w.id.q * 16 + w.id.slot, gidx := w.grp.idx, path := w.pathidx, pc := w.pc, mask := w.exec }

/-- The packets of an instruction or entry of a wave, which stood as `src` says (R419): only with TMODE 2, for
launches that pass TLID, and not with TROFF set (R413). One that brings none writes nothing (R419). -/
def State.traceFrom (s : State) (w : Wave) (src : TrSrc) (ps : List TrPkt) : State :=
  let d := s.part w.grp.part
  if d.tmode = 2 && d.tlid w.grp.lid && !w.troff && !ps.isEmpty then
    { s with trq := s.trq ++ [⟨s.cycle, s.timebase, w.id.core, src, ps, none⟩] }
  else s

/-- The packets of a wave `w`, as it stood when it issued. -/
def State.trace (s : State) (w : Wave) (ps : List TrPkt) : State := s.traceFrom w w.trSrc ps

/-! ### Debug stops (R409, R411) -/

/-- Moves held stop records into the ring while it has room. -/
def State.dsDrain (s : State) (p : Nat) : (fuel : Nat) → State
  | 0 => s
  | n + 1 =>
    let d := s.part p
    match d.dsheld with
    | [] => s
    | r :: rest =>
      let at_ := bits d.dsbase 47 12 * 2 ^ 12 + 64 * d.dstail.toNat
      if d.dstail + 1 ≠ d.dshead && !s.flipHolds at_ 64 then
        let s := s.wrOut d.ways at_ r.bytes
        let s := s.modPart p fun d => { d with dstail := d.dstail + 1, dsheld := rest }
        State.dsDrain (if d.dbgctl.getLsbD 0 then s.msix (144 + p) else s) p n
      else s

/-- The 64 bytes of a stop record (R411). -/
def dsBytes (w : Wave) (time : W64) (d : Due) (kind : Nat) : List Byte :=
  leBytes 8 w.pc.toNat ++ leBytes 8 w.exec.toNat ++ leBytes 8 time.toNat ++ leBytes 8 d.tval.toNat ++
  leBytes 8 w.grp.idx ++ leBytes 4 w.grp.lid ++ leBytes 2 w.id.core ++ leBytes 1 (w.id.q * 16 + w.id.slot) ++
  leBytes 1 d.cause ++ leBytes 2 w.pathidx.toNat ++ leBytes 1 w.k ++ leBytes 1 kind ++ leBytes 1 d.hit.toNat ++
  List.replicate 11 0

/-- Writes a stop record, with DSBASE.EN set; a full ring takes it later (R409, R410). -/
def State.dsPost (s : State) (w : Wave) (d : Due) (kind : Nat) : State :=
  let p := w.grp.part
  if (s.part p).dsbase.getLsbD 0 then
    let s := s.modPart p fun x => { x with dsheld := x.dsheld ++ [⟨dsBytes w s.timebase d kind⟩] }
    s.dsDrain p (s.part p).dsheld.length
  else s

/-- A stop holds the wave with its record (R409). -/
def State.dbgStop (s : State) (w : Wave) (d : Due) (kind : Nat) : State :=
  (s.dsPost w d kind).modWave w.id fun w => { w with dstate := .stopped kind, due := [] }

/-! ### Leaving the fault buffer (R222) -/

def Requester.sameAs (a b : Requester) : Bool :=
  match a, b with
  | .wave u _, .wave u' _ => u = u'
  | a, b => a = b

/-- Removes a requester from the fault buffer: its entries stay. -/
def State.fbLeave (s : State) (r : Requester) : State :=
  { s with fb := s.fb.map fun e => { e with reqs := e.reqs.filter fun q => !q.1.sameAs r }
           fbwait := s.fbwait.filter fun w => !w.req.sameAs r }

/-! ### Killing and cancelling (R32) -/

/-- The wave is parked on misses, its own or those of its LAUNCH.enqs (R220, R361). -/
def Wave.awaits (w : Wave) : Bool := !w.miss.isEmpty || !w.lmiss.isEmpty

/-- The tile that a wave owns. -/
def State.ownTile (s : State) (w : Wave) : Option Tile :=
  ((s.group? w.grp).bind (·.tile)).filter fun t => t.owner = some w.uid

/-- The wave, or its tile by a fault of its translation, awaits translation (R35, R286). -/
def State.parked (s : State) (w : Wave) : Bool := w.awaits || ((s.ownTile w).map (·.fault)).getD false

/-- A stopped wave: it has exited, and nothing more lands in it or arrives at its ports. -/
def Wave.stop (w : Wave) : Wave :=
  { w with life := .exited, wait := .none, miss := [], due := [], q := [], pend := [], tst := [], xvi := none, linkwait := 0,
           handler := .none, reissue := none, pathidx := 0xFFFF, dstate := .run, yield := 0, yl := false }

/-- Cancels the copy commands of a group's waves (R312): those not started are ended, a running one at
its next unit boundary. -/
def Chan.cancelGroup (ch : Chan) (g : GroupId) : Chan :=
  { ch with
    fifo := ch.fifo.map fun c => if c.grp = g then { c with cancel := true } else c
    slots := ch.slots.map fun sl => { sl with cmd := sl.cmd.map fun c =>
      if c.grp = g ∧ c.stat = .outstanding then { c with cancel := true } else c } }

def Wave.sender (w : Wave) : Sender := ⟨w.uid, w.id, w.grp⟩

/-- The effects of a wave that outlive it: SETPRI for its group, and LAUNCH.cancel (R362, R365). -/
def Wave.lasting (w : Wave) : List Post :=
  w.pend.filterMap fun p => match p.put with
    | .pri true _ | .cancel _ _ => some ⟨w.sender, p.due, p.put⟩
    | _ => none

/-- Waves stop at their boundary, which is now: what outlives them goes on, and they leave the fault buffer. Reads that a
restore has still to make afresh are discarded (R323). -/
def State.stopWaves (s : State) (which : Wave → Bool) : State :=
  let mine := s.waves.filter fun w => which w && w.life = .live
  let gone := s.waves.filter which
  let s := { s with waves := upd which Wave.stop s.waves, posts := s.posts ++ mine.flatMap Wave.lasting
                    accs := s.accs.filter fun a => !(a.redo && gone.any fun w => w.uid = a.uid) }
  mine.foldl (fun s w => s.fbLeave (.wave w.uid w.id)) s

/-- Stops every wave of a group and cancels its engines' work; what its waves had stored completes.
The tile's queue and its misses are discarded; its lanes return to SIMT at the boundary of the last injected slab (R288). Of the
waves that stop now the last one counts as the group's last to exit (R34, R441; DESIGN CHOICE, log 95). -/
def State.stopGroup (s : State) (g : GroupId) : State :=
  match s.group? g with
  | none => s
  | some x =>
    let last := ((s.waves.filter fun w => w.grp = g && w.life = .live).getLast?).map fun w => w.trHead w.trSrc
    let s := (s.stopWaves fun w => w.grp = g).modGroup g fun x =>
      { x with killed := true, exited := x.nw, back := none, lastExit := last <|> x.lastExit,
               tile := x.tile.map fun t => { t with queue := [], owner := none, ann := false, fault := false, miss := [] } }
    let s := s.fbLeave (.tile g x.core)
    { s with cores := s.cores.modify x.core fun c => { c with chan := c.chan.cancelGroup g } }

/-- kill_group of R210: the record's VA is the return PC, its ACC the cause. -/
def State.killGroup (s : State) (w : Wave) (kind cause : Nat) (retpc : W64) : State :=
  let s := s.stopGroup w.grp
  s.fqPost w.grp.part
    (fqBytes retpc 0 kind cause 0 w.id.core (w.id.q * 16 + w.id.slot) w.grp.lid)

/-! ### Taking a trap and returning from one -/

/-- The trap vector can be used (R210). -/
def tvecOk (v : W64) : Bool := v ≠ 0 && bits v 1 0 = 0 && bits v 63 51 = 0

/-- The wave enters the trap handler at `v` (R210, R211). -/
def Wave.trapped (w : Wave) (cause : Nat) (retpc tval v : W64) : Wave :=
  { w with
    tr := { w.tr with cause := cause, tepc := retpc, tval := tval, texec := w.exec, tpath := w.pathidx }
    exec := w.present
    pathidx := 0xFFFF
    pc := v
    handler := .trap
    prev := none
    ctl := false
    wait := .none
    miss := []
    reissue := none
    due := [] }

/-- What trap_entry makes of a trap: a kill of the group with a record of a kind, or an entry at TVEC (R210). -/
def State.trapKill (s : State) (w : Wave) : Option Nat :=
  if w.handler ≠ .none then some 3
  else if tvecOk (s.part w.grp.part).tvec then none else some 4

/-- trap_entry of R210, for the wave of a slot, in this cycle: a trap in a handler, or without a usable TVEC,
kills the group; otherwise the trap registers are written and the wave enters its handler. Its trace packets are those of the
instruction that `src` names (R441). -/
def State.trapEntryOf (s : State) (w : Wave) (src : TrSrc) (cause : Nat) (retpc tval : W64) : State :=
  match s.trapKill w with
  | some kind => s.killGroup w kind cause retpc
  | none =>
    let v := (s.part w.grp.part).tvec
    ((s.fbLeave (.wave w.uid w.id)).modWave w.id fun w => w.trapped cause retpc tval v).traceFrom w src [.pc v, .mask w.present]

/-- trap_entry at the wave's head instruction. -/
def State.trapEntry (s : State) (w : Wave) (cause : Nat) (retpc tval : W64) : State :=
  s.trapEntryOf w w.trSrc cause retpc tval

/-- A trap at issue: its instruction holds the slot in this cycle, and the trap is taken in the next one of
the core (R106, R209). The wave issues nothing in between, so its own registers change at once; what reaches
outside the wave, a kill or trace packets, follows in that cycle, after a cancel (R36). -/
def State.trapAt (s : State) (w : Wave) (cause : Nat) (retpc tval : W64) : State :=
  let next := s.cyc w.id.core + 1
  match s.trapKill w with
  | some kind => s.modWave w.id fun w => { (w.add next [.kill kind cause retpc]) with notBefore := next }
  | none =>
    let v := (s.part w.grp.part).tvec
    s.modWave w.id fun w => { ((w.trapped cause retpc tval v).add next [.entered w.trSrc v]) with notBefore := next }

/-- A trap found after the instruction had begun to wait (R199, R206): it counts on its flag no more, and
the return PC is the instruction. -/
def State.trapBack (s : State) (w : Wave) (sf : BitVec 4) (cause : Nat) (tval : W64) : State :=
  let w' : Wave := { w with
    flags := if sf.toNat < 12 then w.flags.set sf.toNat (w.flags.get sf.toNat - 1) else w.flags
    pc := w.pc - 12 }
  (s.modWave w.id fun _ => w').trapEntry w' cause (w.pc - 12) tval

/-- The event of a single step (R408). -/
def Due.step (d : Due) : Bool := d.cause = 11 && (d.stop = some 1 || (d.stop.isNone && d.tval = 0x100000000))

/-- What is due comes from the instruction that the wave issued last, not from its head: a lane fault, a saturation, a step or a
barrier watchpoint (R441). -/
def Wave.dueSrc (w : Wave) (d : Due) : TrSrc :=
  if [2, 10, 11, 12].contains d.cause then w.iss.getD w.trSrc else w.trSrc

/-- At a boundary of a wave the lowest cause that is due is taken (R408): a trap, or a stop; a
watchpoint stop that meets a trap is only recorded (R208, R408). The step of an instruction is not taken where it meets another
trap, whatever the causes (R408; DEDUCED, log 97), nor where the instruction's DBGBRK stops the wave (R414; log 94). A
saturation trap disarms its classes (R100). Between paths of an XVI it is the next path that is recorded (R408). -/
def State.takeDue (s : State) (w : Wave) : State :=
  let w := w.atPath
  let s := s.modWave w.id fun _ => w
  let due := if w.due.any fun d => d.stop = some 0 || (d.stop.isNone && !d.step) then w.due.filter fun d => !d.step else w.due
  let traps := due.filter fun d => d.stop.isNone
  let stops := due.filter fun d => d.stop.isSome
  match argMax (fun d : Due => 32 - d.cause) traps, argMax (fun d : Due => 32 - d.cause) stops with
  | some d, x =>
    match x.filter fun x => x.stop = some 0 && x.cause < d.cause with
    | some x => s.dbgStop w x 0
    | none =>
      let s := stops.foldl (fun s x => if x.cause = 12 then s.dsPost w x 7 else s) s
      let s := s.trapEntryOf w (w.dueSrc d) d.cause w.pc d.tval
      if d.cause = 10 then s.modWave w.id fun w => { w with arm := w.arm &&& ~~~(d.tval.truncate 8) } else s
  | none, some d => s.dbgStop w d (d.stop.getD 0)
  | none, none => s

/-- TRAPRET's return (R215): exec, the PC and the path of an interrupted XVI come back. -/
def Wave.trapReturn (w : Wave) : Wave :=
  { w with exec := w.tr.texec &&& w.present
           pc := w.tr.tepc
           handler := .none
           pathidx := w.tr.tpath
           xvi := if w.tr.tpath = 0xFFFF then none
                  else w.xvi.map fun x => { x with next := w.tr.tpath.toNat } }

end Sys2Proof.Machine
end

