-- ==== Sys2Proof/Machine/Flags.lean ====
section
/-!
DEFINITION. Guards (R24, R56), completion flags (R58, R59), the sticky saturation flags and their
classes (R97–R100).
-/

namespace Sys2Proof.Machine

/-- The threads in which a guard holds, as sampled in cycle `at_` (R23, R56). -/
def Wave.guardMask (w : Wave) (h : Hdr) (at_ : Nat) : W64 :=
  match h.guard with
  | none => lowMask w.kern.width
  | some g =>
    let m := w.rpMask at_ g.p.toNat
    if g.neg then ~~~m &&& lowMask w.kern.width else m

/-- The active threads of a vector instruction. -/
def Wave.active (w : Wave) (h : Hdr) (at_ : Nat) : W64 := w.execNow &&& w.guardMask h at_

/-- The guard of a U = 1 instruction: that of the lowest thread whose exec bit is 1; false when exec is
0; true when unguarded (R24). -/
def Wave.uGuard (w : Wave) (h : Hdr) (at_ : Nat) : Bool :=
  match h.guard with
  | none => true
  | some _ =>
    match lowBit w.execNow with
    | none => false
    | some t => (w.guardMask h at_).getLsbD t

/-- Every flag named in WT reads 0 (R58). -/
def Wave.wtOk (w : Wave) (h : Hdr) : Bool :=
  (List.range 12).all fun f => !h.wt.getLsbD f || w.flag f = 0

/-- The SF flag reads 62 or less (R59). -/
def Wave.sfOk (w : Wave) (h : Hdr) : Bool := 12 ≤ h.sf.toNat || w.flag h.sf.toNat < 63

/-- The earliest first beat that the issue distance allows (R57, R107). -/
def Wave.stAt (w : Wave) (h : Hdr) : Nat :=
  match w.prev with
  | none => 0
  | some c => c + max h.st.toNat (if w.ctl then 2 else 1)

/-- The sticky saturation classes of R97. -/
inductive SatClass | int | f32 | f16 | bf16 | f8 | f4 | l6 | scl
  deriving DecidableEq, Repr

def SatClass.bit : SatClass → Byte
  | .int => 1 | .f32 => 2 | .f16 => 4 | .bf16 => 8 | .f8 => 16 | .f4 => 32 | .l6 => 64 | .scl => 128

/-- satflags as a scalar source reads it (R97). -/
def Wave.satflags (w : Wave) : W32 := (0#16 ++ w.arm) ++ w.sat

/-- The test of R100 in the completion cycle of a BWAIT or WAITA: a class both set and armed makes the
wave take cause 10 at the next boundary. The bits that land in that cycle are seen. -/
def Wave.satTest (w : Wave) : Wave :=
  let x := w.sat &&& w.arm
  if x = 0 then w else { w with due := w.due ++ [⟨10, x.zeroExtend 64, none, 0⟩] }

end Sys2Proof.Machine
end

