-- ==== Sys2Proof/Machine/Translate.lean ====
section
/-!
DEFINITION. Address translation: table walks, cached translations, the fault buffer and its quota, and
parking (R216–R222).
-/

namespace Sys2Proof.Machine

/-! ### Page tables (R216–R218) -/

/-- Bits of the offset within a leaf. -/
def leafShift (lvl : Nat) : Nat := if lvl = 1 then 39 else if lvl = 2 then 27 else 15

/-- Whether a leaf's attributes allow an access: bit 2 RD, 3 WR, 4 EX. -/
def allows (attr : BitVec 9) (k : AccKind) : Bool :=
  match k with
  | .read => attr.getLsbD 2
  | .write => attr.getLsbD 3
  | .atomic => attr.getLsbD 2 && attr.getLsbD 3
  | .fetch => attr.getLsbD 4

/-- The access writes, so its leaf must be dirty. -/
def AccKind.writes : AccKind → Bool
  | .write | .atomic => true
  | _ => false

/-- ACC of a fault record (R225); an engine sets bit 3. -/
def AccKind.code : AccKind → Nat
  | .read => 1
  | .write => 2
  | .atomic => 3
  | .fetch => 4

/-- The walk of R218 below one table, without its update of A and D; the leaf comes with the address of
its entry. -/
def walkFrom (s : State) (va : Nat) : (fuel lvl table : Nat) → WalkRes × Nat
  | 0, lvl, _ => (.malformed lvl, 0)
  | n + 1, lvl, table =>
    let at_ := table + 8 * (va / 2 ^ leafShift lvl % 4096)
    let e := s.rd64 at_
    let attr : BitVec 9 := e.truncate 9
    let next := bits e 47 15 * 2 ^ 15
    if !e.getLsbD 0 then (.fault 4 lvl (e.getLsbD 5) none, at_)
    else if bits e 63 48 ≠ 0 || 0x800000000000 ≤ next then (.malformed lvl, at_)
    else if e.getLsbD 1 then
      if next % 2 ^ leafShift lvl ≠ 0 then (.malformed lvl, at_) else (.leaf lvl next attr, at_)
    else if lvl = 3 then (.malformed 3, at_)
    else walkFrom s va n (lvl + 1) next

/-- The addresses of the entries that the walk reads. -/
def walkReads (s : State) (va : Nat) : (fuel lvl table : Nat) → List Nat
  | 0, _, _ => []
  | n + 1, lvl, table =>
    let at_ := table + 8 * (va / 2 ^ leafShift lvl % 4096)
    let e := s.rd64 at_
    let next := bits e 47 15 * 2 ^ 15
    if !e.getLsbD 0 || bits e 63 48 ≠ 0 || 0x800000000000 ≤ next || e.getLsbD 1 then [at_]
    else at_ :: walkReads s va n (lvl + 1) next

/-- The entries of levels 1 and 2 that the walk passes, for the walk caches. -/
def walkPath (s : State) (p va : Nat) : (fuel lvl table : Nat) → List WalkEntry
  | 0, _, _ => []
  | n + 1, lvl, table =>
    let e := s.rd64 (table + 8 * (va / 2 ^ leafShift lvl % 4096))
    let next := bits e 47 15 * 2 ^ 15
    if lvl = 3 || !e.getLsbD 0 || bits e 63 48 ≠ 0 || 0x800000000000 ≤ next || e.getLsbD 1 then []
    else ⟨p, lvl, va / 2 ^ leafShift lvl, next⟩ :: walkPath s p va n (lvl + 1) next

/-- The level and table from which a walk starts: those that the walk caches give, or the root (R219). -/
def State.walkFrom (s : State) (p va : Nat) : Nat × Nat :=
  let held (lvl : Nat) := s.walks.find? fun x => x.part = p && x.lvl = lvl && x.vpn = va / 2 ^ leafShift lvl
  match held 2, held 1 with
  | some x, _ => (3, x.table)
  | none, some x => (2, x.table)
  | none, none => (1, (s.part p).ptroot)

/-- The result of a walk and the address of the entry where it ends. A table at LPDDR-6 that the grade has not is read as
what stands there, which is 0 where no record was written (R19 names a cause for an access alone; DESIGN CHOICE, log 96). -/
def State.walkEnd (s : State) (p : Nat) (va : W64) : WalkRes × Nat :=
  let (lvl, table) := s.walkFrom p va.toNat
  Sys2Proof.Machine.walkFrom s va.toNat (4 - lvl) lvl table

/-- The addresses of the entries that a walk of a partition reads. -/
def State.walkLines (s : State) (p : Nat) (va : W64) : List Nat :=
  let (lvl, table) := s.walkFrom p va.toNat
  walkReads s va.toNat (4 - lvl) lvl table

/-- A cached translation maps an address: it is not walked. -/
def State.mapHeld (s : State) (p : Nat) (va : W64) : Bool :=
  s.tlb.any fun t => t.part = p && t.vpn = va.toNat / 2 ^ leafShift t.lvl

/-- The entries that a walk reads, level by level, are made coherent: a host's owned copies of their lines are given up
first (R271), but for lines that a bias flip holds (R449). -/
def State.coherentWalk (s : State) (p : Nat) (va : W64) : State :=
  if s.snoop.isEmpty || s.mapHeld p va then s
  else
    let read (s : State) : State :=
      (s.walkLines p va).foldl (fun s x => if s.flipHolds x 8 then s else s.reclaim x false) s
    read (read (read s))

/-- A walk of the address, made coherent, meets a line that a bias flip holds (R449). -/
def State.walkHeld (s : State) (p : Nat) (va : W64) : Bool :=
  s.flip.isSome && !s.mapHeld p va &&
    (let t := s.coherentWalk p va; (t.walkLines p va).any fun x => t.flipHolds x 8)

/-- Keeps the entries that a walk passed. Which ones the walk caches keep, and how long, is open: a free value
says which cached entries of the partition stay (log 30). -/
def State.walkKeep (s : State) (p : Nat) (va : W64) : State :=
  let (lvl, table) := s.walkFrom p va.toNat
  let new := walkPath s p va.toNat (4 - lvl) lvl table
  let (x, s) := s.free
  let old := s.walks.filter fun e => !new.contains e
  { s with walks := (new ++ old).zipIdx.filterMap fun (e, i) => if x.getLsbD (i % 64) then some e else none }

/-- walk(part, va, kind) of R218, with the OR of A and D into the entry at its slice ALU. -/
def State.walk (s : State) (p : Nat) (va : W64) (k : AccKind) : WalkRes × State :=
  match s.walkEnd p va with
  | (.leaf lvl pa attr, at_) =>
    if allows attr k then
      let new := attr ||| 0x80 ||| (if k.writes then 0x100 else 0)
      (.leaf lvl pa new, if new = attr then s else s.slcWrite (s.part p).ways at_ (leBytes 2 ((s.rdNat at_ 2 / 512) * 512 + new.toNat)))
    else (.fault 5 lvl (attr.getLsbD 5) (some attr), s)
  | (r, _) => (r, s)

/-! ### Cached translations (R219) -/

/-- Entries of a core's translation pipe, entries of the shared TLB, and walkers. -/
def pipeSize : Nat := 512
def tlbSize : Nat := 32768
def walkers : Nat := 64

/-- A cached translation serves an access of a core, or of a unit that belongs to none: its partition and page,
with the permission, and with D for a write. One without the permission is walked again. -/
def Tlb.serves (t : Tlb) (core : Option Nat) (p va : Nat) (k : AccKind) : Bool :=
  (t.shared || (core.map t.pipes.contains).getD false) &&
  t.part = p && t.vpn = va / 2 ^ leafShift t.lvl && allows t.attr k && (!k.writes || t.attr.getLsbD 8)

/-- The cached translation that serves an access. -/
def State.tlbFind (s : State) (core : Option Nat) (p : Nat) (va : W64) (k : AccKind) : Option Tlb :=
  s.tlb.find? fun t => t.serves core p va.toNat k

/-- The physical address of a virtual one on a cached page. -/
def Tlb.at_ (t : Tlb) (va : W64) : Nat := t.pa + va.toNat % 2 ^ leafShift t.lvl

/-- The physical address and NC of a virtual one, where a translation is cached. -/
def State.tlbHit (s : State) (core : Option Nat) (p : Nat) (va : W64) (k : AccKind) : Option (Nat × Bool) :=
  (s.tlbFind core p va k).map fun t => (t.at_ va, t.attr.getLsbD 6)

/-- Drops one of the entries that `held` names, the newest apart, where there are more than `max`; which one is
open, so a free value picks it (log 30). -/
def State.tlbEvict (s : State) (held : Tlb → Bool) (max : Nat) (drop : Tlb → Tlb) : State :=
  let ks := (s.tlb.zipIdx.filter fun x => held x.1).map (·.2)
  if ks.length ≤ max then s
  else
    let (x, s) := s.free
    let k := ks.getD (1 + x.toNat % (ks.length - 1)) 0
    { s with tlb := (s.tlb.modify k drop).filter fun t => t.shared || !t.pipes.isEmpty }

/-- Caches a walk's leaf in the shared TLB and in the pipe of the core that asked, in place of an older one of
the same page. -/
def State.tlbFill (s : State) (core : Option Nat) (p : Nat) (va : W64) (lvl pa : Nat) (attr : BitVec 9) : State :=
  let vpn := va.toNat / 2 ^ leafShift lvl
  let s := match State.hostOf pa with
    | some h => s.modPart p fun d => { d with hostmap := d.hostmap ||| (1#2 <<< h) }
    | none => s
  let same (t : Tlb) : Bool := t.part = p && t.lvl = lvl && t.vpn = vpn
  let pipes := (s.tlb.filter same).flatMap (·.pipes) ++ core.toList
  let s := { s with tlb := ⟨p, lvl, vpn, pa, attr, s.classes p, true, pipes.dedup⟩ :: s.tlb.filter fun t => !same t }
  let s := s.tlbEvict (·.shared) tlbSize fun t => { t with shared := false }
  match core with
  | none => s
  | some c => s.tlbEvict (fun t => t.pipes.contains c) pipeSize fun t => { t with pipes := t.pipes.filter fun x => x ≠ c }

/-- The classification of an access that a cached translation serves: that of its fill (R229, R397). -/
def State.classHit (s : State) (core : Option Nat) (p : Nat) (va : W64) (k : AccKind) : Option Nat :=
  match s.tlbFind core p va k with
  | none => none
  | some t => s.classifyBy t.cls (t.at_ va)

/-! ### The fault buffer (R221) -/

def pageOf (va : W64) : Nat := va.toNat / 2 ^ 15

/-- A free entry number: which one is not promised (log 2), so the search starts at a free value. -/
def freeFb (used : List Nat) : (fuel start : Nat) → Nat
  | 0, x => x
  | n + 1, x => if used.contains x then freeFb used n ((x + 1) % 4096) else x

/-- A miss joins its page's entry, or takes one within the quota, or waits. -/
def State.missJoin (s : State) (p : Nat) (va : W64) (k : AccKind) (r : Requester) : State :=
  match s.fb.find? fun e => e.part = p && pageOf e.va = pageOf va with
  | some e =>
    { s with fb := upd (fun x => x.fbid = e.fbid) (fun x =>
        if x.reqs.any fun q => q.1.sameAs r && q.2 = k then x else { x with reqs := x.reqs ++ [(r, k)] }) s.fb }
  | none =>
    if (s.fb.filter fun e => e.part = p).length < (s.part p).fbq then
      let (x, s) := s.free
      let id := freeFb (s.fb.map (·.fbid)) (s.fb.length + 1) (x.toNat % 4096)
      { s with fb := s.fb ++ [⟨id, p, va, k, [(r, k)], none, false⟩] }
    else if s.fbwait.any fun w => w.req.sameAs r && pageOf w.va = pageOf va && w.kind = k then s
    else { s with fbwait := s.fbwait ++ [⟨p, va, k, r, s.cycle⟩] }

/-- The rank of a requester among those that have waited equally long (R221). -/
def Requester.rank : Requester → Nat
  | .wave _ id => id.core * 1000 + id.q * 16 + id.slot
  | .launch _ id => id.core * 1000 + id.q * 16 + id.slot
  | .chan core => core * 1000 + 500
  | .tile _ core => core * 1000 + 501
  | .parser q => 1000000 + q
  | .unit _ => 1000100

/-- Entries of a partition that are free go to the requesters that have waited longest (R221). -/
def State.fbGrant (s : State) (p : Nat) : (fuel : Nat) → State
  | 0 => s
  | n + 1 =>
    if (s.fb.filter fun e => e.part = p).length < (s.part p).fbq then
      let mine := s.fbwait.filter fun w => w.part = p
      let key (w : FbWait) : Nat × Nat := (w.since, w.req.rank)
      let first := mine.foldl (fun (b : Option FbWait) w => match b with
        | none => some w
        | some x => if (key w).1 < (key x).1 || ((key w).1 = (key x).1 && (key w).2 < (key x).2) then some w
                    else some x) none
      match first with
      | none => s
      | some w =>
        let same := s.fbwait.filter fun x => x.part = p && pageOf x.va = pageOf w.va
        let s := { s with fbwait := s.fbwait.filter fun x => ¬ (x.part = p ∧ pageOf x.va = pageOf w.va) }
        let s := (w :: same.filter fun x => x ≠ w).foldl (fun s x => s.missJoin p x.va x.kind x.req) s
        State.fbGrant s p n
    else s

/-- The wave parks on its misses (R220). -/
def State.park (s : State) (w : Wave) (i : Option Instr) (ms : List Miss) : State :=
  let s := s.modWave w.id fun w => { w with miss := ms, missI := i }
  ms.foldl (fun s m => s.missJoin w.grp.part m.va m.kind (.wave w.uid w.id)) s

/-! ### A wave's accesses -/

/-- The translation of a wave's accesses, each a thread with its address: the physical addresses with
NC; or the lowest cause of classification with its address; or the pages missed (R220, R229). -/
inductive Xlate
  | ok (pas : List (Nat × W64 × Nat × Bool))
  | trap (cause : Nat) (va : W64)
  | miss (ms : List Miss)
  deriving DecidableEq, Repr

/-- Adds a missing access to the misses, by page. -/
def missAdd (k : AccKind) (size : Nat) (x : Nat × W64) : List Miss → List Miss
  | [] => [⟨x.2, k, 1#64 <<< x.1, size, none⟩]
  | m :: l => if pageOf m.va = pageOf x.2 then { m with threads := m.threads ||| (1#64 <<< x.1) } :: l
              else m :: missAdd k size x l

def State.xlate (s : State) (core : Option Nat) (p : Nat) (k : AccKind) (size : Nat) (xs : List (Nat × W64)) : Xlate :=
  let rs := xs.map fun x => (x, s.tlbHit core p x.2 k)
  let misses := rs.filter fun r => r.2.isNone
  if misses.isEmpty then
    let bad := rs.filterMap fun r => match r.2 with
      | some _ => (s.classHit core p r.1.2 k).map fun c => (c, r.1.2)
      | none => none
    match argMax (fun b : Nat × W64 => 32 - b.1) bad with
    | some (c, va) => .trap c va
    | none => .ok (rs.filterMap fun r => r.2.map fun h => (r.1.1, r.1.2, h.1, h.2))
  else .miss (misses.foldl (fun ms r => missAdd k size r.1 ms) [])

end Sys2Proof.Machine
end

