-- ==== Sys2Proof/Machine/Operands.lean ====
section
/-!
DEFINITION. Operand forms: sources in vector and scalar space (R62–R65) as each beat reads them, and
the common course of an instruction's issue (R55–R59, R65, R106, R239).
-/

namespace Sys2Proof.Machine

/-- What an issuing instruction reads: its wave, the cycle of its first beat, and the queue entries
its fields pop, in the order A, B, D. -/
structure Env where
  w : Wave
  g : Option Group
  c0 : Nat
  beats : Nat
  ents : List (Option QEntry)    -- for A, B, D
  time : W64
  tvec : W64
  lfarm : Bool
  kgrid : Nat × Nat              -- GX, GY of the launch
  id : Instr

namespace Env

/-- The cycle in which the beat of thread `t` reads (R22, R108). -/
def at_ (e : Env) (t : Nat) : Nat := e.c0 + (if e.beats ≤ 1 then 0 else t / 16)

/-- The cycle of the last beat. -/
def c (e : Env) : Nat := e.c0 + e.beats - 1

/-- The linear index of thread `t` in its group (R26). -/
def lin (e : Env) (t : Nat) : Nat := e.w.k * e.w.kern.width + t

def tid (e : Env) (t : Nat) : Nat × Nat × Nat :=
  let i := e.lin t
  (i % e.w.kern.gx, i / e.w.kern.gx % e.w.kern.gy, i / (e.w.kern.gx * e.w.kern.gy))

/-- The element of thread `t` in the entry popped for field `f` (0 A, 1 B, 2 D). -/
def ent (e : Env) (f t : Nat) : W64 :=
  match e.ents.getD f none with
  | some q => q.vals.get t
  | none => 0

/-- A 32-bit vector-space source (R62) of thread `t`. -/
def v32 (e : Env) (f : Nat) (x : VSrc) (t : Nat) : W32 :=
  match x with
  | .v n => e.w.rv (e.at_ t) n.toNat t
  | .q _ => lo32 (e.ent f t)
  | .laneid => BitVec.ofNat 32 (t % 16)
  | .tidX => BitVec.ofNat 32 (e.tid t).1
  | .tidY => BitVec.ofNat 32 (e.tid t).2.1
  | .tidZ => BitVec.ofNat 32 (e.tid t).2.2
  | .zero => 0
  | .bcast n => e.w.rs (e.at_ t) n.toNat

/-- A 64-bit vector-space source (R64). -/
def v64 (e : Env) (f : Nat) (x : VSrc) (t : Nat) : W64 :=
  match x with
  | .v n => pair64 (e.w.rv (e.at_ t) n.toNat t) (e.w.rv (e.at_ t) (n.toNat + 1) t)
  | .q _ => e.ent f t
  | .bcast n => pair64 (e.w.rs (e.at_ t) n.toNat) (e.w.rs (e.at_ t) (n.toNat + 1))
  | _ => 0

/-- The thread whose element a scalar read of a queue port takes (R63). -/
def qThread (e : Env) : Nat := (lowBit e.w.execNow).getD 0

/-- The group's index in the launch, as grpid.x, .y and .z. -/
def grpid (e : Env) : Nat × Nat × Nat :=
  let i := e.w.grp.idx
  (i % e.kgrid.1, i / e.kgrid.1 % e.kgrid.2, i / (e.kgrid.1 * e.kgrid.2))

/-- A 32-bit scalar-space source (R63). -/
def s32 (e : Env) (f : Nat) (x : SSrc) : W32 :=
  match x with
  | .s n => e.w.rs e.c0 n.toNat
  | .h n => e.w.h.get n.toNat
  | .f n => BitVec.ofNat 32 (e.w.flag n.toNat)
  | .execLo => lo32 e.w.execNow
  | .execHi => hi32 e.w.execNow
  | .waveid => BitVec.ofNat 32 e.w.k
  | .grpX => BitVec.ofNat 32 e.grpid.1
  | .grpY => BitVec.ofNat 32 e.grpid.2.1
  | .grpZ => BitVec.ofNat 32 e.grpid.2.2
  | .launchid => BitVec.ofNat 32 e.w.grp.lid
  | .partid => BitVec.ofNat 32 e.w.grp.part
  | .coreid => BitVec.ofNat 32 e.w.id.core
  | .quarterid => BitVec.ofNat 32 e.w.id.q
  | .width => BitVec.ofNat 32 e.w.kern.width
  | .pathidx => e.w.pathidx.zeroExtend 32
  | .satflags => e.w.satflags
  | .q _ => lo32 (e.ent f e.qThread)

def s64 (e : Env) (f : Nat) (x : SSrc) : W64 :=
  match x with
  | .s n => pair64 (e.w.rs e.c0 n.toNat) (e.w.rs e.c0 (n.toNat + 1))
  | .execLo => e.w.execNow
  | .q _ => e.ent f e.qThread
  | x => (e.s32 f x).zeroExtend 64

/-- Scalar register `n`, and the pair from it, as read at issue. -/
def sr (e : Env) (n : BitVec 8) : W32 := e.w.rs e.c0 n.toNat
def srPair (e : Env) (n : BitVec 8) : W64 := e.s64 0 (.s n)

/-- A source of the space that U selects, of thread `t` (any thread when U = 1). -/
def src (e : Env) (f : Nat) (wide : Bool) (x : Src) (t : Nat) : W64 :=
  match x with
  | .vec x => if wide then e.v64 f x t else (e.v32 f x t).zeroExtend 64
  | .sca x => if wide then e.s64 f x else (e.s32 f x).zeroExtend 64

/-- The old value of a destination that an entry also reads. -/
def old (e : Env) (wide : Bool) (d : Dst) (t : Nat) : W64 :=
  match d with
  | .v n => e.src 2 wide (.vec (.v n)) t
  | .s n => e.src 2 wide (.sca (.s n)) t
  | .q _ => e.ent 2 t

def pairSrc (e : Env) (x : PairSrc) : W64 :=
  match x with
  | .s n => e.srPair n
  | .exec => e.w.execNow

end Env

/-! ### Issue -/

/-- What the checks at issue answer: go on, a trap with its cause and TVAL and the instruction (or the
next one) as its return PC, translations to await
(the wave parks), or a condition of the entry that holds the instruction. -/
inductive Chk
  | ok
  | trap (cause : Nat) (tval : W64)
  | trapNext (cause : Nat) (tval : W64)    -- with the next instruction as return PC
  | trapRec (cause : Nat) (tval : W64) (d : Due)   -- with the record of a stop (R408)
  | stop (d : Due)                         -- a debug stop before any effect
  | park (ms : List Miss)
  | hold
  deriving DecidableEq, Repr

/-- A cause that the instruction meets beside those of an entry's check: the lowest is reported (R209); a stop
that meets a trap is only recorded (R408). -/
def Chk.meet (c : Chk) (cause : Nat) (tval : W64) : Chk :=
  match c with
  | .trap k tv => if k ≤ cause then .trap k tv else .trap cause tval
  | .trapRec k tv d => if k ≤ cause then .trapRec k tv d else .trapRec cause tval d
  | .stop d => if d.cause = 12 then .trapRec cause tval d else .trap cause tval
  | .ok | .trapNext _ _ | .park _ | .hold => .trap cause tval

/-- The allotment of a wave (R66). -/
def Wave.allot (w : Wave) : Allot := ⟨w.kern.vregs, w.kern.preds, w.kern.sregs, w.kern.width⟩

/-! #### Queue ports -/

/-- The entries of a port that have not been dropped, oldest first. -/
def Queue.live (q : Queue) : List QEntry := q.entries.filter fun e => !e.dropped

def QEntry.slots (e : QEntry) : Nat := if e.wide then 2 else 1

/-- Free slots of a port of depth `d` in cluster cycle `now` (R237, R238, R251). -/
def Queue.free (q : Queue) (d now : Nat) : Nat :=
  d - (q.entries.foldl (fun n e => n + e.slots) 0 +
       (q.busy.filter fun b => now < b.1).foldl (fun n b => n + b.2) 0)

/-- Slots that dropped entries will still free (R237). -/
def Queue.droppedSlots (q : Queue) (now : Nat) : Nat :=
  (q.entries.filter (·.dropped)).foldl (fun n e => n + e.slots) 0 +
  (q.busy.filter fun b => now < b.1).foldl (fun n b => n + b.2) 0

/-- An arrived entry can be popped from the cycle after its arrival (R238). -/
def QEntry.ready (e : QEntry) (now : Nat) : Bool :=
  match e.got with | some x => x < now | none => false

/-- The entries that a list of popping fields takes, each with its field: two fields of one port take
consecutive entries (R65). `none` where the port holds too few. -/
def takeEntries (qs : List Queue) : List Pop → (taken : List (BitVec 4)) → List (Pop × Option QEntry)
  | [], _ => []
  | p :: ps, taken =>
    let n := (taken.filter fun x => x = p.port).length
    (p, ((qs.getD p.port.toNat ⟨[], []⟩).live)[n]?) :: takeEntries qs ps (p.port :: taken)

/-- Removes the oldest live entry of a queue; its slots are free from cycle `free` (R238). -/
def Queue.pop1 (q : Queue) (free : Nat) : Queue :=
  match q.live with
  | [] => q
  | e :: _ => { entries := q.entries.filter fun x => x.acc ≠ e.acc, busy := q.busy ++ [(free, e.slots)] }

def popAll (free : Nat) (qs : List Queue) (ps : List Pop) : List Queue :=
  ps.foldl (fun qs p => qs.modify p.port.toNat fun q => q.pop1 free) qs

/-- Drops the `n` oldest live entries: slots of arrived ones are free from cycle `free`, the others keep
theirs until their data arrives (R251). -/
def Queue.drop (q : Queue) (n free : Nat) : Queue :=
  let ids := (q.live.take n).map (·.acc)
  let mine (e : QEntry) : Bool := !e.dropped && ids.contains e.acc
  { entries := (q.entries.filter fun e => !(mine e && e.got.isSome)).map fun e =>
      if mine e then { e with dropped := true } else e
    busy := q.busy ++ (q.entries.filter fun e => mine e && e.got.isSome).map fun e => (free, e.slots) }

/-- Data arrives for an entry in cycle `now`; that of a dropped entry is discarded and frees its slots, in the cycle after as
an arrived one's are after its QDROP (R238, R251; DESIGN CHOICE, log 96). -/
def Queue.arrive (q : Queue) (acc now : Nat) (vals : Sparse 64) (poison : Option W64) : Queue :=
  { entries := (q.entries.filter fun e => !(e.acc = acc && e.dropped)).map fun e =>
      if e.acc = acc then { e with vals := vals, got := some now, poison := poison } else e
    busy := q.busy ++ (q.entries.filter fun e => e.acc = acc && e.dropped).map fun e => (now + 1, e.slots) }

/-- TVAL of queue misuse: the register value named. -/
def portVal (n : BitVec 4) : W64 := BitVec.ofNat 64 (320 + n.toNat)

/-! #### The course of an issue -/

/-- The environment of an instruction that the wave issues now. -/
def mkEnv (s : State) (w : Wave) (u : Bool) (i : Instr) : Env :=
  let taken := takeEntries w.q i.pops []
  let pt := s.part w.grp.part
  { w := w
    g := s.group? w.grp
    c0 := s.cyc w.id.core
    beats := if u then 1 else w.kern.width / 16
    ents := [0, 1, 2].map fun f => ((taken.find? fun x => x.1.field = f).map (·.2)).getD none
    time := s.timebase
    tvec := pt.tvec
    lfarm := pt.lfarm
    kgrid := ((s.launch? w.grp.part w.grp.lid).map fun l => (l.gx, l.gy)).getD (1, 1)
    id := i }

/-- TVAL of causes 0 and 1: {word 1, word 0} of the instruction (R209). -/
def wordVal (i : Instr) : W64 := ((encode i).getD 0).truncate 64

/-- Queue misuse of R65, R237 and R239: the port that is misused. -/
def queueMisuse (w : Wave) (i : Instr) (now : Nat) : Option (BitVec 4) :=
  match i.ports.find? fun q => w.kern.qn ≤ q.toNat with
  | some q => some q
  | none =>
    match (takeEntries w.q i.pops []).find? fun x => match x.2 with | none => true | some e => e.wide ≠ x.1.wide with
    | some x => some x.1.port
    | none =>
      match i.pushPort with
      | none => none
      | some (q, wide) =>
        let qu := w.q.getD q.toNat ⟨[], []⟩
        let need := if wide then 2 else 1
        if need ≤ qu.free w.kern.qd now then none
        else if need ≤ qu.free w.kern.qd now + qu.droppedSlots now then none
        else some q

/-- The entries that the instruction pops are there, each with the width of its operand. -/
def popsOk (w : Wave) (i : Instr) : Bool :=
  (takeEntries w.q i.pops []).all fun x =>
    x.1.port.toNat < w.kern.qn && (match x.2 with | none => false | some e => e.wide = x.1.wide)

/-- The fields from which an instruction forms its address; what it does not check may hold anything else. -/
def addrFields : Instr → List Nat
  | .atom _ _ | .red _ _ | .atoms _ _ | .reds _ _ | .blend _ _ => [0]
  | .csrw _ _ _ | .rbox _ _ | .rtri _ _ | .rhint _ _ | .rhset _ _ | .tex _ _ | .texq _ _ => []
  | _ => [0, 1]

/-- The entries that some fields pop are there, arrived and of the right width. -/
def popsAt (w : Wave) (i : Instr) (now : Nat) (fields : List Nat) : Bool :=
  (takeEntries w.q i.pops []).all fun x =>
    !fields.contains x.1.field ||
    (x.1.port.toNat < w.kern.qn && (match x.2 with | none => false | some e => e.wide = x.1.wide && e.ready now))

/-- The entries from which the address comes are there, arrived and of the right width: what the instruction checks at
issue can be judged though another of its ports is misused (R209). -/
def addrPops (w : Wave) (i : Instr) (now : Nat) : Bool := popsAt w i now (addrFields i)

/-- Nothing outstanding holds an issue: for the causes of an instruction that traps whatever it would wait for. -/
def State.unheld (s : State) : State :=
  { s with accs := [], cores := s.cores.map fun c => { c with quarters := c.quarters.map fun q => { q with port := [] } } }

/-- The instruction waits on its queue ports: an entry it pops has not arrived (R65), or the port it
pushes to waits for dropped entries (R237). -/
def queueHold (w : Wave) (i : Instr) (now : Nat) : Bool :=
  ((takeEntries w.q i.pops []).any fun x => match x.2 with | none => false | some e => !e.ready now) ||
  (match i.pushPort with
   | none => false
   | some (q, wide) => (w.q.getD q.toNat ⟨[], []⟩).free w.kern.qd now < (if wide then 2 else 1))

/-- A poisoned entry that the instruction would pop (R245): cause 6 with the VA of the access; of several, the first
in the order A, B, D (DESIGN CHOICE, log 85). -/
def popPoison (e : Env) : Option W64 :=
  (e.ents.filterMap fun q => q.bind (·.poison)).head?

/-- The single-step event that an issue outside a handler leaves for the next boundary (R413), and the
stop of DRESUME's one instruction (R412). -/
def Wave.stepDue (w : Wave) : Wave :=
  if w.handler ≠ .none then w
  else
    let step : List Due := if w.dbg.getLsbD 0 then
        [⟨11, 0x100000000, if w.dbg.getLsbD 1 then some 1 else none, 0⟩] else []
    let one : List Due := if w.dstate = .oneshot then [⟨11, 0x100000000, some 1, 0⟩] else []
    { w with due := w.due ++ step ++ one, dstate := if w.dstate = .oneshot then .run else w.dstate }

/-- The wave after the common effects of an issue: the flag counts, queue entries are popped, the PC
moves on, and the scheduler's marks are set (R56, R57, R65, R113, R114). -/
def Wave.issued (w : Wave) (e : Env) (h : Hdr) : Wave :=
  let w := w.incSf h.sf
  { w with
    q := popAll (e.c + 1) w.q e.id.pops
    pc := if w.inPath then w.pc else w.pc + 12
    prev := some e.c
    ctl := false
    iss := some e.w.trSrc
    last := e.c0
    age := 0
    aged := false
    linkwait := 0
    met := none
    reissue := none
    yl := h.yl
    dbg := if w.handler = .none then w.dbg &&& 3 else w.dbg }

/-- The wave owns a linked grid, or a tile in anneal state. -/
def Env.ownsTile (e : Env) : Bool :=
  match e.g.bind (·.tile) with
  | some t => t.owner = some e.w.uid
  | none => false

/-- An instruction of its owner may not use the lanes of a tile: cause 14, unless a lower cause applies
(R277). -/
def ownerChk (e : Env) (u : Bool) (c : Chk) : Chk := if u || !e.ownsTile then c else c.meet 14 0

/-- The state after the common effects of an issue, before the instruction's own: the wave has issued, and
its quarter's slot is taken for the beats (R106). -/
def State.enter (s : State) (w : Wave) (e : Env) (h : Hdr) : State :=
  (s.modWave w.id fun w =>
    (match e.id with | .xvi _ _ _ => w | _ => w.stepDue).issued e h).modCore w.id.core fun c =>
    { c with quarters := c.quarters.modify w.id.q fun q => { q with busy := e.c + 1 } }

/-- A trap of an address watchpoint sets ONESHOT (R413). -/
def State.oneshot (s : State) (w : Wave) (cause : Nat) : State :=
  if cause = 12 then s.modWave w.id fun w => { w with dbg := w.dbg ||| 4 } else s

/-- What a check at issue leads to (R106, R209, R220, R408); `go` is the issue. -/
def State.judge (s : State) (w : Wave) (i : Instr) (c : Chk) (go : State → State) : State :=
  match c with
  | .ok => go s
  | .hold => s
  | .trap k tv => (s.trapAt w k w.pc tv).oneshot w k
  | .trapNext k tv => s.trapAt w k (w.pc + 12) tv
  | .trapRec k tv d => ((s.dsPost w d 7).trapAt w k w.pc tv).oneshot w k
  | .stop d => (s.dbgStop w d (d.stop.getD 0)).oneshot w 12
  | .park ms => s.park w (some i) ms

/-- The common course of an issue: the wave of the issue slot is checked (allotment, queue ports, the
entry's own checks, poison), and then the instruction issues and has the effect `eff`. A trap at issue
holds the slot for this cycle and leaves no effect (R55, R106, R209); a wave that waits or parks is
left as it is (R220). -/
def issue (i : Instr) (h : Hdr) (u : Bool) (chk : State → Env → Chk) (eff : Env → State → State)
    (s : State) : Res :=
  match s.wave? s.cur with
  | none => .fault .noWave
  | some w =>
    let now := s.cyc w.id.core
    let e := mkEnv s w u i
    let waits := queueHold w i now || i.handles.any (fun n => w.hpend.contains n.toNat)
    if w.life = .exited then .fault .noWave
    else if !i.fits w.allot then .next (s.judge w i (.trap 0 (wordVal i)) id)
    else match queueMisuse w i now, popPoison e with
    | some q, bad =>
      let own := if addrPops w i now then ownerChk e u (chk s.unheld e) else .ok
      let c := own.meet 7 (portVal q)
      .next (s.judge w i (match bad with | some va => c.meet 6 va | none => c) id)
    | none, none =>
      if waits then .next s
      else .next (s.judge w i (ownerChk e u (chk s e)) fun s => eff e (s.enter w e h))
    | none, some va =>
      if waits then .next s
      else .next (s.judge w i (match ownerChk e u (chk s e) with | .hold => .hold | c => c.meet 6 va) id)

/-- The wave of the issue slot can issue an instruction, its entry's own check apart: conditions on the
state and the operands alone. -/
structure Issues (s : State) (w : Wave) (i : Instr) (u : Bool) : Prop where
  slot : s.wave? s.cur = some w
  live : w.life = .live
  fits : i.fits w.allot = true
  ports : queueMisuse w i (s.cyc w.id.core) = none
  data : queueHold w i (s.cyc w.id.core) = false
  handles : i.handles.any (fun n => w.hpend.contains n.toNat) = false
  owner : u = true ∨ (mkEnv s w u i).ownsTile = false
  poison : popPoison (mkEnv s w u i) = none

/-- No check of the entry's own. -/
def noChk (_ : State) (_ : Env) : Chk := .ok

/-- Sends effects to the wave of the issue slot: visible `lat` cycles after the last beat, and with them
the instruction's completion (R59, R109). -/
def fixed (e : Env) (h : Hdr) (lat : Nat) (ps : List Put) (s : State) : State :=
  s.modWave e.w.id fun w => (w.add (e.c + lat) ps).decSf h.sf (e.c + lat)

/-- An instruction that writes no register completes in c + 1 (R109). -/
def done1 (e : Env) (h : Hdr) (s : State) : State := fixed e h 1 [] s

/-- A vector register written in the given threads. -/
def putV (wide : Bool) (r : Nat) (xs : List (Nat × W64)) : List Put :=
  .v r (xs.map fun x => (x.1, lo32 x.2)) ::
    (if wide then [.v (r + 1) (xs.map fun x => (x.1, hi32 x.2))] else [])

def putS (wide : Bool) (r : Nat) (x : W64) : List Put :=
  .s r (lo32 x) :: (if wide then [.s (r + 1) (hi32 x)] else [])

/-- A destination of either space, for the values of the active threads (one value when U = 1). -/
def putDst (wide : Bool) (d : Dst) (xs : List (Nat × W64)) : List Put :=
  match d with
  | .v n => putV wide n.toNat xs
  | .s n => (match xs with | [] => [] | x :: _ => putS wide n.toNat x.2)
  | .q _ => []

/-- The threads in which a U-capable instruction acts: its active threads, or once, under the guard of
R24, when U = 1. -/
def lanesOf (e : Env) (h : Hdr) (u : Bool) : List Nat :=
  if u then (if e.w.uGuard h e.c0 then [0] else []) else bitsOf (e.w.active h e.c0)

/-- Latency of the ALUs: 4 for vectors, 2 for scalars (R109). -/
def aluLat (u : Bool) : Nat := if u then 2 else 4

/-- The saturation classes that an operation sets, if any (R98). -/
def satPut (b : Byte) : List Put := if b == 0 then [] else [.sat b]

/-- The mould of R150: every lane's result from its operands, written at the ALU latency; `f` gives the
value of lane `t` and the saturation classes it sets (R98). -/
def mould (i : Instr) (h : Hdr) (u : Bool) (d : Dst) (dw : Bool) (f : Env → Nat → W64 × Byte)
    (s : State) : Res :=
  issue i h u noChk (fun e s =>
    let rs := (lanesOf e h u).map fun t => (t, f e t)
    let sat : Byte := rs.foldl (fun m r => m ||| r.2.2) 0
    let ps := putDst dw d (rs.map fun r => (r.1, r.2.1))
    fixed e h (aluLat u) (ps ++ satPut sat) s) s

/-- A predicate result: per active thread when U = 0; in every thread that exists, whatever exec holds,
when U = 1 (R154). -/
def mouldP (i : Instr) (h : Hdr) (u : Bool) (pd : BitVec 7) (f : Env → Nat → Bool) (s : State) : Res :=
  issue i h u noChk (fun e s =>
    let ls := lanesOf e h u
    let hit := ls.filter fun t => f e t
    let ps : List Put :=
      if u then (if ls.isEmpty then [] else [.p pd.toNat e.w.present (if hit.isEmpty then 0 else e.w.present)])
      else [.p pd.toNat (maskOf ls) (maskOf hit)]
    fixed e h (aluLat u) ps s) s

/-! ### Work that completes at a variable cycle (R109) -/

/-- An access of the instruction that `e` issues, with nothing in it yet. -/
def Env.acc (e : Env) (h : Hdr) (op : AccOp) : Acc :=
  { id := 0, uid := e.w.uid, w := e.w.id, grp := e.w.grp, op := op, tag := .b32, ord := .weak, sco := .wave,
    sf := h.sf, ready := e.c + 1, dst := .none, lanes := [], puts := [], args := [], after := [], near := [], left := none, told := false, redo := false, served := 0,
    lim := none }

/-- Adds an access under the next number in issue order. -/
def State.addAcc (s : State) (a : Acc) : State :=
  { s with accs := s.accs ++ [{ a with id := s.nextSeq }], nextSeq := s.nextSeq + 1 }

/-- What a successor restart leaves of a write that was under way: vector registers below the limit, and no
predicate (R40). -/
def Put.keptBy (lim : Option Nat) (p : Put) : Bool :=
  match lim, p with
  | some k, .v r _ => r < k
  | some _, .p _ _ _ | some _, .satTst _ _ => false
  | _, _ => true

/-- What an access writes in its completion cycle lands in its wave, takes the write ports, and the flag counts
down; nothing lands in a wave that has exited or was killed (R32, R110). -/
def State.landIn (s : State) (a : Acc) (ps : List Put) : State :=
  let now := s.cyc a.w.core
  s.modUid a.uid fun w =>
    if w.life = .exited then w
    else (((ps.filter (Put.keptBy a.lim)).foldl Wave.land w).marks now (ps.filter (Put.keptBy a.lim))).decSf a.sf now

/-- An access completes: it writes and is outstanding no more. -/
def State.complete (s : State) (a : Acc) (ps : List Put) : State :=
  (s.landIn a ps).dropAcc a.id

/-- The vector and the scalar write ports of a quarter are left free by the writes that reach its waves in this
cycle, where they are needed; and the wave that is written is between instructions, so that no beat of one reads some
registers before and some after the write (R108, R110; log 31). -/
def State.writeFree (s : State) (uid : Nat) (at_ : WaveId) (vec sca : Bool) : Bool :=
  let now := s.cyc at_.core
  s.waves.all fun w =>
    !(w.id.core = at_.core && w.id.q = at_.q) || (!vec && !sca) ||
    ((!vec || w.vwrite ≠ now) && (!sca || w.swrite ≠ now) &&
     (w.uid ≠ uid || (match w.prev with | some c => c < now | none => true)))

/-- The write ports that an access's completion needs are free: one result of variable latency takes them in a cycle
(R110). -/
def State.portsFree (s : State) (a : Acc) : Bool :=
  s.writeFree a.uid a.w
    ((match a.dst with | .v _ _ | .p _ => true | _ => false) ||
      a.puts.any fun p => match p with | .v _ _ | .p _ _ _ | .sat _ => true | _ => false)
    ((match a.dst with | .s _ _ => true | _ => false) || a.puts.any fun p => match p with | .s _ _ => true | _ => false)

/-- An access of the given kind that may complete in this cycle; none does once an image has taken the partition's state
(R372). -/
def State.ripe (s : State) (id : Nat) (k : AccOp → Bool) : Option Acc :=
  match s.acc? id with
  | none => none
  | some a =>
    if k a.op && a.ready ≤ s.cyc a.w.core && !a.redo && !(s.part a.grp.part).imaged && s.portsFree a then some a else none

/-- No earlier access of the same wave and kind is outstanding: results are written in issue order
(R168, R178). -/
def State.oldest (s : State) (a : Acc) : Bool :=
  s.accs.all fun b => !(b.uid = a.uid && b.op = a.op && b.id < a.id)

end Sys2Proof.Machine
end

