-- ==== Sys2Proof/Machine/Control.lean ====
section
/-!
DEFINITION. Control instructions, opcodes 0x00–0x11 but for the paths of XVI (R119–R134), and the
scheduler's events.
-/

namespace Sys2Proof.Machine

def execNop (h : Hdr) (u : Bool) (s : State) : Res :=
  issue (.nop h u) h u noChk (fun e s => done1 e h s) s

/-! ### Branches, calls and indirect jumps (R121) -/

/-- A branch target's check: misaligned, or outside the 51-bit space. -/
def targetChk (x : W64) : Chk :=
  if bits x 1 0 ≠ 0 then .trap 3 x else if bits x 63 51 ≠ 0 then .trap 5 x else .ok

/-- A control transfer: whether it is taken, its target, and the link it writes; `tr` gives its trace
packets (R419). A taken one spaces the next instruction by R107. A CALL or JMPI.lnk with a false guard writes no link and completes
in c + 1, as what writes no register (R109; DESIGN CHOICE, log 96). -/
def transfer (i : Instr) (h : Hdr) (take : Env → Bool) (target : Env → W64) (link : Option (BitVec 8))
    (tr : Bool → W64 → List TrPkt) (s : State) : Res :=
  issue i h true (fun _ e => if take e then targetChk (target e) else .ok) (fun e s =>
    if take e then
      let s := match link with
        | some d => fixed e h 2 (Wave.putPair d.toNat (e.w.pc + 12)) s
        | none => done1 e h s
      (s.trace e.w (tr true (target e))).modWave e.w.id fun w => { w with pc := target e, ctl := true }
    else (done1 e h s).trace e.w (tr false (e.w.pc + 12))) s

/-- PC + 12 + 12 · sext(imm32). -/
def relTarget (imm : W32) (e : Env) : W64 := e.w.pc + 12 + 12 * imm.signExtend 64

def execBra (h : Hdr) (imm : W32) (s : State) : Res :=
  transfer (.bra h imm) h (fun e => e.w.uGuard h e.c0) (relTarget imm) none
    (fun t _ => if h.guard.isSome then [.br t] else []) s

def execBz (h : Hdr) (a : PairSrc) (imm : W32) (s : State) : Res :=
  transfer (.bz h a imm) h (fun e => e.w.uGuard h e.c0 && e.pairSrc a = 0) (relTarget imm) none
    (fun t _ => [.br t]) s

def execBnz (h : Hdr) (a : PairSrc) (imm : W32) (s : State) : Res :=
  transfer (.bnz h a imm) h (fun e => e.w.uGuard h e.c0 && e.pairSrc a ≠ 0) (relTarget imm) none
    (fun t _ => [.br t]) s

def execCall (h : Hdr) (d : BitVec 8) (imm : W32) (s : State) : Res :=
  transfer (.call h d imm) h (fun e => e.w.uGuard h e.c0) (relTarget imm) (some d)
    (fun t _ => if h.guard.isSome then [.br t] else []) s

def execRet (h : Hdr) (a : BitVec 8) (s : State) : Res :=
  transfer (.ret h a) h (fun e => e.w.uGuard h e.c0) (fun e => e.srPair a) none (fun _ x => [.pc x]) s

/-- The target is read before the link is written. -/
def execJmpi (h : Hdr) (lnk : Option (BitVec 8)) (a : BitVec 8) (s : State) : Res :=
  transfer (.jmpi h lnk a) h (fun e => e.w.uGuard h e.c0) (fun e => e.srPair a) lnk (fun _ x => [.pc x]) s

/-! ### EXIT (R39, R40, R122, R123) -/

/-- A wave ends: it stays in its slot, at its EXIT, until its group retires (R107). -/
def Wave.exited (w : Wave) (pc : W64) : Wave :=
  { w with life := .exited, pc := pc, wait := .none, miss := [], due := [], q := [], pend := [], yield := 0,
           yl := false, handler := .none, linkwait := 0 }

def execExit (h : Hdr) (s : State) : Res :=
  issue (.exit h) h true
    (fun _ e =>
      if !e.w.uGuard h e.c0 then .ok
      else if e.ownsTile then .trap 14 0
      else if e.w.flagsZero then .ok else .hold)
    (fun e s =>
      if e.w.uGuard h e.c0 then
        let s := { s with posts := s.posts ++ e.w.lasting }
        (s.modWave e.w.id fun w => w.exited e.w.pc).modGroup e.w.grp fun g =>
          { g with exited := g.exited + 1, lastExit := some e.w.trSrc }
      else done1 e h s) s

/-- A successor restart that keeps k vector registers (R40); writes still on their way to what reads 0 are dropped
(log 19), and the queue entries are removed. The saturation flags and the age go on. -/
def Wave.restart (w : Wave) (k : Nat) (pc : W64) (free : Nat) : Wave :=
  { w with
    v := w.v.filter fun x => x.1 / 64 < k
    p := []
    exec := w.present
    q := w.q.map fun q => q.drop q.entries.length free
    pathidx := 0xFFFF
    xvi := none
    handler := .none
    fsave := none
    tst := []
    pc := pc
    ctl := true
    pend := w.pend.filter fun x => match x.put with
      | .v r _ => r < k
      | .p _ _ _ | .satTst _ _ => false
      | _ => true }

/-- The vector registers that an EXIT with a successor keeps. -/
def Wave.keepOf (kovr : Bool) (k : BitVec 9) (x : Nat × Nat) : Nat := if kovr then k.toNat else x.1

/-- The successor that an EXIT names, or none where it names no valid one or keeps what it cannot: cause 0 (R123). -/
def Wave.succOk (w : Wave) (idx : BitVec 2) (kovr : Bool) (k : BitVec 9) : Option (Nat × Nat) :=
  ((w.kern.succ[idx.toNat]?).join).filter fun x =>
    Wave.keepOf kovr k x % 8 = 0 && Wave.keepOf kovr k x ≤ w.kern.vregs

/-- A restart as a successor (R40, R123). DESIGN CHOICE (log 10): its traps, too, wait for the flags, and KEEP or M.K is checked
whichever of them the form names. -/
def execExitSucc (h : Hdr) (idx : BitVec 2) (kovr : Bool) (k : BitVec 9) (s : State) : Res :=
  let target (e : Env) (x : Nat × Nat) : W64 := e.w.kern.entry + 12 * BitVec.ofNat 64 x.2
  issue (.exitSucc h idx kovr k) h true
    (fun _ e =>
      if !e.w.uGuard h e.c0 then .ok
      else if (e.w.succOk idx kovr k).isNone then .trap 0 (wordVal (.exitSucc h idx kovr k))
      else if e.ownsTile then .trap 14 0
      else if e.w.flagsZero then .ok else .hold)
    (fun e s =>
      match e.w.succOk idx kovr k, e.w.uGuard h e.c0 with
      | some x, true =>
        let n := Wave.keepOf kovr k x
        let s := s.trace e.w [.pc (target e x)]
        let s := { s with accs := upd (fun a => a.uid = e.w.uid) (fun a => { a with lim := some (min n (a.lim.getD n)) }) s.accs }
        s.modWave e.w.id fun w => w.restart n (target e x) (e.c + 1)
      | _, _ => (done1 e h s).trace e.w [.pc (e.w.pc + 12)]) s

/-! ### Waiting and yielding -/

/-- WAITC completes in its issue cycle (R124). -/
def execWaitc (h : Hdr) (f : BitVec 4) (n : BitVec 6) (s : State) : Res :=
  issue (.waitc h f n) h true
    (fun _ e => if e.w.uGuard h e.c0 && n.toNat < e.w.flag f.toNat then .hold else .ok)
    (fun e s => fixed e h 0 [] s) s

/-- DESIGN CHOICE (log 11): a second YIELD replaces what is left of the first. -/
def execYield (h : Hdr) (n : BitVec 8) (s : State) : Res :=
  issue (.yield h n) h true noChk (fun e s =>
    let s := done1 e h s
    if e.w.uGuard h e.c0 then s.modWave e.w.id fun w => { w with yield := n.toNat + 2 } else s) s

/-- The YIELD of a wave has been served (R125). -/
def execYieldExpiry (id : WaveId) (s : State) : Res :=
  .next (s.modWave id fun w => if w.yield = 1 then { w with yield := 0 } else w)

def execSleep (h : Hdr) (imm : W32) (s : State) : Res :=
  issue (.sleep h imm) h true noChk (fun e s =>
    let s := done1 e h s
    if e.w.uGuard h e.c0 then
      s.modWave e.w.id fun w => { w with wait := .sleep (e.time + imm.zeroExtend 64) }
    else s) s

/-- The timebase has reached the wake-up time of a sleep (R126). -/
def execSleepWake (id : WaveId) (s : State) : Res :=
  .next (s.modWave id fun w => match w.wait with
    | .sleep t => if t ≤ s.timebase && !s.saving w.grp.part then { w with wait := .none } else w
    | _ => w)

/-- A wave whose age has reached 976 is aged (R113). -/
def execWaveAged (id : WaveId) (s : State) : Res :=
  .next (s.modWave id fun w => if 976 ≤ w.age then { w with aged := true } else w)

/-! ### XVI (R131–R134) -/

/-- The opcode lies in the ranges that XVI permits (R132). -/
def xviOpc (opc : Nat) : Bool :=
  (0x30 ≤ opc && opc ≤ 0x4A) || (0x50 ≤ opc && opc ≤ 0x5A) || (0x60 ≤ opc && opc ≤ 0x67) ||
  (0x70 ≤ opc && opc ≤ 0x74) || (0x90 ≤ opc && opc ≤ 0x93)

/-- A word is permitted (R132). -/
def xviPermitted (a : Allot) (x : BitVec 96) : Bool :=
  let q (n : Nat) : Bool := 320 ≤ n && n ≤ 335
  !x.getLsbD 12 && xviOpc (bits x 7 0) && !q (bits x 21 13) && !q (bits x 30 22) && !q (bits x 39 31) &&
  (match decode x with
   | .ok i resv => !resv && i.fits a
   | .illegal => false)

/-- The key of a word: bits [72:0] (R133). -/
def xviKey (x : BitVec 96) : BitVec 96 := x &&& BitVec.ofNat 96 (2 ^ 73 - 1)

/-- Adds a thread to the path that holds its key (R133). -/
def xviAdd : List (BitVec 96 × W64) → BitVec 96 → Nat → List (BitVec 96 × W64)
  | [], k, t => [(k, 1#64 <<< t)]
  | (k', m) :: l, k, t => if k' = k then (k', m ||| (1#64 <<< t)) :: l else (k', m) :: xviAdd l k t

/-- The paths of the active threads and the mask of faulting ones (R133). -/
def xviGroup (a : Allot) (word : Nat → BitVec 96) (ts : List Nat) : List (BitVec 96 × W64) × W64 :=
  ts.foldl (fun r t =>
    if xviPermitted a (word t) then (xviAdd r.1 (xviKey (word t)) t, r.2) else (r.1, r.2 ||| (1#64 <<< t))) ([], 0)

/-- The end of an XVI: the PC moves on, and a lane fault is due at the boundary when LFARM is set, with D
written (R136). -/
def Wave.xviEnd (w : Wave) (bad : W64) (lfarm : Bool) : Wave :=
  { w with xvi := none, pathidx := 0xFFFF,
           due := if lfarm && bad ≠ 0 then w.due ++ [⟨2, bad, none, 0⟩] else w.due }

/-- XVI groups its threads by their words (R133–R136). DESIGN CHOICE (log 13): with no path the next instruction may
issue in the cycle after. -/
def execXvi (h : Hdr) (d : BitVec 8) (a : BitVec 9) (s : State) : Res :=
  issue (.xvi h d a) h false
    (fun _ e => if e.w.handler ≠ .none then .trap 0 (wordVal (.xvi h d a)) else .ok)
    (fun e s =>
      let n := a.toNat
      let word (t : Nat) : BitVec 96 :=
        e.w.rv (e.at_ t) (n + 2) t ++ (e.w.rv (e.at_ t) (n + 1) t ++ e.w.rv (e.at_ t) n t)
      let (paths, bad) := xviGroup e.w.allot word (lanesOf e h false)
      let s := fixed e h 3 (Wave.putPair d.toNat bad) s
      if paths.isEmpty then
        (s.modWave e.w.id fun w =>
          { (w.xviEnd bad e.lfarm).stepDue with
            notBefore := if e.lfarm && bad ≠ 0 then max w.notBefore (e.c + 3) else w.notBefore }).trace e.w [.mask e.w.exec]
      else s.modWave e.w.id fun w =>
        { w with pc := e.w.pc
                 xvi := some { paths := paths, next := 0, bad := bad, sf := h.sf, start := e.c + 3,
                               retPc := e.w.pc + 12 } }) s

/-! ### The exec mask, the timebase and the CSRs -/

/-- exec after EXSET (R127). -/
def exsetVal (op : ExOp) (exec m : W64) : W64 :=
  match op with
  | .set => m
  | .and => exec &&& m
  | .andn => exec &&& ~~~m
  | .or => exec ||| m

def execExset (h : Hdr) (op : ExOp) (a : PairSrc) (s : State) : Res :=
  issue (.exset h op a) h true noChk (fun e s =>
    let x := if e.w.uGuard h e.c0 then exsetVal op e.w.exec (e.pairSrc a) &&& e.w.present else e.w.exec
    ((done1 e h s).modWave e.w.id fun w => { w with exec := x }).trace e.w [.mask x]) s

/-- A scalar result of 64 bits, written in c + 2. -/
def scalarPair (i : Instr) (h : Hdr) (d : BitVec 8) (f : Env → W64) (s : State) : Res :=
  issue i h true noChk (fun e s =>
    fixed e h 2 (if e.w.uGuard h e.c0 then Wave.putPair d.toNat (f e) else []) s) s

def execExget (h : Hdr) (d : BitVec 8) (s : State) : Res :=
  scalarPair (.exget h d) h d (fun e => e.w.exec) s

/-- R37: exec AND the predicate, bits W and above 0. -/
def execPmask (h : Hdr) (d : BitVec 8) (p : BitVec 7) (s : State) : Res :=
  scalarPair (.pmask h d p) h d (fun e => e.w.exec &&& e.w.rpMask e.c0 p.toNat) s

def execGettime (h : Hdr) (d : BitVec 8) (s : State) : Res :=
  scalarPair (.gettime h d) h d (fun e => e.time) s

/-- A CSR as it reads now; none where it does not exist or is not available (R130, R213, R413). -/
def csrRead (e : Env) (n : Nat) : Option W32 :=
  let w := e.w
  let inTrap (x : W32) : Option W32 := if w.handler = .trap then some x else none
  if n = 0x000 then some (BitVec.ofNat 32 w.prio)
  else if n = 0x002 then some (BitVec.ofNat 32 w.id.slot)
  else if n = 0x003 then some (if e.lfarm then 1 else 0)
  else if n = 0x004 then some w.wcyc
  else if 0x010 ≤ n ∧ n ≤ 0x01F then some (w.stalls.get (n - 0x010))
  else if n = 0x100 then inTrap (BitVec.ofNat 32 w.tr.cause)
  else if n = 0x101 then inTrap (lo32 w.tr.tepc)
  else if n = 0x102 then inTrap (hi32 w.tr.tepc)
  else if n = 0x103 then inTrap (lo32 w.tr.tval)
  else if n = 0x104 then inTrap (hi32 w.tr.tval)
  else if n = 0x105 then inTrap (lo32 w.tr.texec)
  else if n = 0x106 then inTrap (hi32 w.tr.texec)
  else if n = 0x107 then inTrap (w.tr.tpath.zeroExtend 32)
  else if 0x108 ≤ n ∧ n ≤ 0x10F then some (w.tr.tscr.get (n - 0x108))
  else if n = 0x110 then some (lo32 e.tvec)
  else if n = 0x111 then some (hi32 e.tvec)
  else if n = 0x200 then some (w.dbg.zeroExtend 32)
  else if n = 0x201 then some (if w.troff then 1 else 0)
  else none

/-- The CSRs with an RW field. -/
def csrRw (n : Nat) : Bool :=
  (0x010 ≤ n && n ≤ 0x01F) || n = 0x101 || n = 0x102 || n = 0x105 || n = 0x106 ||
  (0x108 ≤ n && n ≤ 0x10F) || n = 0x200 || n = 0x201

/-- The CSR is read in the issue cycle (R130; DESIGN CHOICE, log 12). -/
def execCsrr (h : Hdr) (d : BitVec 8) (csr : BitVec 12) (s : State) : Res :=
  issue (.csrr h d csr) h true
    (fun _ e => if e.w.uGuard h e.c0 && (csrRead e csr.toNat).isNone then .trap 0 (wordVal (.csrr h d csr)) else .ok)
    (fun e s => fixed e h 2 (if e.w.uGuard h e.c0 then
        [.s d.toNat ((csrRead e csr.toNat).getD 0)] else []) s) s

def execCsrw (h : Hdr) (csr : BitVec 12) (a : SSrc) (s : State) : Res :=
  issue (.csrw h csr a) h true
    (fun _ e =>
      if e.w.uGuard h e.c0 && ((csrRead e csr.toNat).isNone || !csrRw csr.toNat) then .trap 0 (wordVal (.csrw h csr a))
      else .ok)
    (fun e s => fixed e h 2 (if e.w.uGuard h e.c0 then [.csr csr.toNat (e.s32 0 a)] else []) s) s

end Sys2Proof.Machine
end

