-- ==== Sys2Proof/Machine/Integer.lean ====
section
/-!
DEFINITION. The integer and predicate mould, opcodes 0x30–0x4A (R148–R158).
-/

namespace Sys2Proof.Machine

/-- The width of a tag in the mould (R148). -/
def tagW (t : Tag) : Nat := if t.wide then 64 else 32

/-- A `w`-bit value as the tag reads it: signed for .i, unsigned otherwise. -/
def readInt (t : Tag) (w : Nat) (x : W64) : Int :=
  let n := x.toNat % 2 ^ w
  if t.signed && 2 ^ (w - 1) ≤ n then (n : Int) - 2 ^ w else n

/-- An exact result modulo 2^w. -/
def wrapInt (w : Nat) (x : Int) : W64 := BitVec.ofNat 64 (x % (2 ^ w : Int)).toNat

/-- sat(x, tag) of R93 and the INT class when it saturates. -/
def satInt (t : Tag) (w : Nat) (x : Int) : W64 × Byte :=
  let lo : Int := if t.signed then -(2 ^ (w - 1) : Int) else 0
  let hi : Int := if t.signed then 2 ^ (w - 1) - 1 else 2 ^ w - 1
  if x < lo then (wrapInt w lo, SatClass.int.bit)
  else if hi < x then (wrapInt w hi, SatClass.int.bit)
  else (wrapInt w x, 0)

/-- A three-operand form whose B is as wide as the tag. -/
def alu3 (i : Instr) (h : Hdr) (o : Alu3) (f : Nat → Int → Int → Int → W64) (s : State) : Res :=
  mould i h o.u o.d o.tag.wide (fun e t =>
    let w := tagW o.tag
    let rd := readInt o.tag w
    (f w (rd (e.src 0 o.tag.wide o.a t)) (rd (e.src 1 o.tag.wide o.b t)) (rd (e.old o.tag.wide o.d t)), 0)) s

/-- A three-operand form on bits, with A and D as wide as the tag and a 32-bit B. -/
def aluB (i : Instr) (h : Hdr) (o : Alu3) (f : Nat → Nat → Nat → Nat → Nat) (s : State) : Res :=
  mould i h o.u o.d o.tag.wide (fun e t =>
    (BitVec.ofNat 64 (f (tagW o.tag) (e.src 0 o.tag.wide o.a t).toNat (e.src 1 false o.b t).toNat
      (e.old o.tag.wide o.d t).toNat), 0)) s

def execVadd (h : Hdr) (o : Alu3) (s : State) : Res :=
  alu3 (.vadd h o) h o (fun w a b _ => wrapInt w (a + b)) s

def execVsub (h : Hdr) (o : Alu3) (s : State) : Res :=
  alu3 (.vsub h o) h o (fun w a b _ => wrapInt w (a - b)) s

def execVmul (h : Hdr) (o : Alu3) (s : State) : Res :=
  alu3 (.vmul h o) h o (fun w a b _ => wrapInt w (a * b)) s

/-- ⌊a·b / 2^w⌋ mod 2^w. -/
def execVmulh (h : Hdr) (o : Alu3) (s : State) : Res :=
  alu3 (.vmulh h o) h o (fun w a b _ => wrapInt w (a * b / 2 ^ w)) s

def execVmad (h : Hdr) (o : Alu3) (s : State) : Res :=
  alu3 (.vmad h o) h o (fun w a b d => wrapInt w (a * b + d)) s

/-- Bitwise forms. -/
def aluBits (i : Instr) (h : Hdr) (o : Alu3) (f : W64 → W64 → W64) (s : State) : Res :=
  mould i h o.u o.d o.tag.wide (fun e t =>
    (f (e.src 0 o.tag.wide o.a t) (e.src 1 o.tag.wide o.b t), 0)) s

def execVand (h : Hdr) (o : Alu3) (s : State) : Res := aluBits (.vand h o) h o (fun a b => a &&& b) s

def execVor (h : Hdr) (o : Alu3) (s : State) : Res := aluBits (.vor h o) h o (fun a b => a ||| b) s

def execVxor (h : Hdr) (o : Alu3) (s : State) : Res := aluBits (.vxor h o) h o (fun a b => a ^^^ b) s

/-- Shifts by `w` or more: 0, or the sign (R151). -/
def execVshl (h : Hdr) (o : Alu3) (s : State) : Res :=
  aluB (.vshl h o) h o (fun w a b _ => if b < w then a * 2 ^ b % 2 ^ w else 0) s

def execVshr (h : Hdr) (o : Alu3) (s : State) : Res :=
  aluB (.vshr h o) h o (fun w a b _ => if b < w then a / 2 ^ b else 0) s

def execVsra (h : Hdr) (o : Alu3) (s : State) : Res :=
  aluB (.vsra h o) h o (fun w a b _ =>
    let x : Int := if 2 ^ (w - 1) ≤ a then (a : Int) - 2 ^ w else a
    (wrapInt w (x / 2 ^ min b (w - 1))).toNat) s

def execVmin (h : Hdr) (o : Alu3) (s : State) : Res :=
  alu3 (.vmin h o) h o (fun w a b _ => wrapInt w (min a b)) s

def execVmax (h : Hdr) (o : Alu3) (s : State) : Res :=
  alu3 (.vmax h o) h o (fun w a b _ => wrapInt w (max a b)) s

def execVabsd (h : Hdr) (o : Alu3) (s : State) : Res :=
  alu3 (.vabsd h o) h o (fun w a b _ => wrapInt w (a - b).natAbs) s

/-- Saturating add or subtract; a saturation sets class INT in the completion cycle (R98, R151). -/
def execVadds (h : Hdr) (o : AddsOp) (s : State) : Res :=
  mould (.vadds h o) h o.o.u o.o.d o.o.tag.wide (fun e t =>
    let w := tagW o.o.tag
    let a := readInt o.o.tag w (e.src 0 o.o.tag.wide o.o.a t)
    let b := readInt o.o.tag w (e.src 1 o.o.tag.wide o.o.b t)
    satInt o.o.tag w (if o.sub then a - b else a + b)) s

/-- A form of one source with a 32-bit result. -/
def aluCount (i : Instr) (h : Hdr) (o : Alu2) (f : Nat → W64 → Nat) (s : State) : Res :=
  mould i h o.u o.d false (fun e t =>
    (BitVec.ofNat 64 (f (tagW o.tag) (e.src 0 o.tag.wide o.a t)), 0)) s

/-- Leading zero bits of the low `w` bits. -/
def clz (w : Nat) (x : W64) : Nat :=
  (((List.range w).map fun k => x.getLsbD (w - 1 - k)).takeWhile (!·)).length

def popcount (w : Nat) (x : W64) : Nat := ((List.range w).filter fun k => x.getLsbD k).length

def execVclz (h : Hdr) (o : Alu2) (s : State) : Res := aluCount (.vclz h o) h o clz s

def execVpopc (h : Hdr) (o : Alu2) (s : State) : Res := aluCount (.vpopc h o) h o popcount s

/-- Field position and length of R152. -/
def fieldOf (w b : Nat) : Nat × Nat :=
  let pos := b % 64
  let len := b / 256 % 128
  if w ≤ pos then (pos, 0) else (pos, min len (w - pos))

def execVbfe (h : Hdr) (o : Alu3) (s : State) : Res :=
  aluB (.vbfe h o) h o (fun w a b _ =>
    let (pos, len) := fieldOf w b
    if len = 0 then 0
    else (wrapInt w (readInt o.tag len (BitVec.ofNat 64 (a / 2 ^ pos)))).toNat) s

def execVbfi (h : Hdr) (o : Alu3) (s : State) : Res :=
  aluB (.vbfi h o) h o (fun w a b d =>
    let (pos, len) := fieldOf w b
    if len = 0 then d
    else d - (d / 2 ^ pos % 2 ^ len) * 2 ^ pos + (a % 2 ^ len) * 2 ^ pos) s

/-- VSEL: the predicate of each thread, or, when U = 1, that of the lowest thread whose exec bit is 1,
and 0 when exec is 0 (R153). -/
def execVsel (h : Hdr) (o : SelOp) (s : State) : Res :=
  mould (.vsel h o) h o.o.u o.o.d o.o.tag.wide (fun e t =>
    let p := if o.o.u then
        (match lowBit e.w.execNow with | some l => e.w.rp e.c0 o.sp.toNat l | none => false)
      else e.w.rp (e.at_ t) o.sp.toNat t
    (e.src (if p then 0 else 1) o.o.tag.wide (if p then o.o.a else o.o.b) t, 0)) s

def execVmov (h : Hdr) (o : Alu2) (s : State) : Res :=
  mould (.vmov h o) h o.u o.d false (fun e t => (e.src 0 false o.a t, 0)) s

/-- FN 1 writes imm32 sign-extended to the pair (R153). -/
def execVmovi (h : Hdr) (o : MoviOp) (s : State) : Res :=
  mould (.vmovi h o) h o.u o.d o.wide (fun _ _ => (o.imm.signExtend 64, 0)) s

/-- The compare of R154 on exact readings. -/
def cmpInt (c : Cond) (a b : Int) : Bool :=
  match c with
  | .eq => a = b
  | .ne => a ≠ b
  | .lt => a < b
  | .le => a ≤ b
  | .gt => b < a
  | .ge => b ≤ a

def execVcmp (h : Hdr) (o : CmpOp) (s : State) : Res :=
  mouldP (.vcmp h o) h o.u o.pd (fun e t =>
    cmpInt o.cond (readInt o.tag (tagW o.tag) (e.src 0 o.tag.wide o.a t))
      (readInt o.tag (tagW o.tag) (e.src 1 o.tag.wide o.b t))) s

/-- Interleaves the low `n` bits of the values: bit m·i + k is bit i of value k (R157). -/
def interleave (n : Nat) (xs : List Nat) : Nat :=
  let m := xs.length
  ((List.range n).flatMap fun i => (List.range m).map fun k => (m * i + k, xs.getD k 0 / 2 ^ i % 2)).foldl
    (fun r x => r + x.2 * 2 ^ x.1) 0

/-- Takes phase `k` of `m` out of an interleaved value (R158). -/
def deinterleave (n m k x : Nat) : Nat :=
  (List.range n).foldl (fun r i => r + x / 2 ^ (m * i + k) % 2 * 2 ^ i) 0

/-- Source bits used by an interleave (R157). -/
def bintBits (three wide : Bool) : Nat :=
  match three, wide with
  | false, false => 16
  | true, false => 10
  | false, true => 32
  | true, true => 21

def execVbint (h : Hdr) (o : BintOp) (s : State) : Res :=
  mould (.vbint h o) h o.o.u o.o.d o.o.tag.wide (fun e t =>
    let a := (e.src 0 false o.o.a t).toNat
    let b := (e.src 1 false o.o.b t).toNat
    let d := (e.old false o.o.d t).toNat
    (BitVec.ofNat 64 (interleave (bintBits o.three o.o.tag.wide) (if o.three then [a, b, d] else [a, b])), 0)) s

def execVbdei (h : Hdr) (o : BdeiOp) (s : State) : Res :=
  aluCount (.vbdei h o) h o.o (fun _ a =>
    deinterleave (bintBits o.three o.o.tag.wide) (if o.three then 3 else 2) o.sel.toNat a.toNat) s

/-- LUT[2·P(a) + P(b)] in each thread (R155). -/
def plogBit (lut : BitVec 4) (a b : Bool) : Bool := lut.getLsbD (2 * a.toNat + b.toNat)

/-- With U = 1 every thread that exists writes its own result (R155). -/
def execPlog (h : Hdr) (o : PlogOp) (s : State) : Res :=
  issue (.plog h o) h o.u noChk (fun e s =>
    let ts := if o.u then (if e.w.uGuard h e.c0 then bitsOf e.w.present else [])
              else bitsOf (e.w.active h e.c0)
    let hit := ts.filter fun t =>
      plogBit o.lut (e.w.rp (e.at_ t) o.a.toNat t) (e.w.rp (e.at_ t) o.b.toNat t)
    fixed e h (aluLat o.u) [.p o.d.toNat (maskOf ts) (maskOf hit)] s) s

/-- PMOV (R156): between a run of predicates and a register per thread, or, with U = 1, between one
predicate's threads and the bits of a scalar pair. -/
def execPmov (h : Hdr) (o : PmovOp) (s : State) : Res :=
  issue (.pmov h o) h o.u noChk (fun e s =>
    let n := o.cnt.toNat + 1
    let p := o.p.toNat
    let ls := lanesOf e h o.u
    let ps : List Put :=
      match o.dir with
      | .tor d =>
        if o.u then
          putDst true d (ls.map fun _ => (0, e.w.rpMask e.c0 p))
        else
          putDst false d (ls.map fun t =>
            (t, maskOf ((List.range n).filter fun k => e.w.rp (e.at_ t) (p + k) t)))
      | .fromr a =>
        if o.u then ls.map fun _ => .p p e.w.present (e.src 0 true a 0)
        else (List.range n).map fun k =>
          .p (p + k) (maskOf ls) (maskOf (ls.filter fun t => (e.src 0 false a t).getLsbD k))
    fixed e h (aluLat o.u) ps s) s

end Sys2Proof.Machine
end

