-- ==== Sys2Proof/Machine/Number.lean ====
section
/-!
DEFINITION. Number formats, rounding and conversion (R80–R96) on exact rational values, and the
elementary functions of the special-function unit rounded correctly (R169).
-/

namespace Sys2Proof.Machine

/-! ### Exact values -/

/-- The exact value of a number: a NaN, an infinity, or ±num/den with `den` > 0. -/
inductive Val
  | nan
  | inf (neg : Bool)
  | fin (neg : Bool) (num den : Nat)
  deriving DecidableEq, Repr

/-- A signed rational. -/
structure Rat' where
  num : Int
  den : Nat
  deriving DecidableEq, Repr

def Rat'.add (x y : Rat') : Rat' :=
  let l := Nat.lcm x.den y.den
  ⟨x.num * (l / x.den : Nat) + y.num * (l / y.den : Nat), l⟩

def Rat'.mul (x y : Rat') : Rat' := ⟨x.num * y.num, x.den * y.den⟩

def Rat'.neg (x : Rat') : Rat' := ⟨-x.num, x.den⟩

def Rat'.sub (x y : Rat') : Rat' := x.add y.neg

/-- x < y. -/
def Rat'.lt (x y : Rat') : Bool := x.num * y.den < y.num * x.den

def Rat'.le (x y : Rat') : Bool := x.num * y.den ≤ y.num * x.den

def Rat'.ofInt (x : Int) : Rat' := ⟨x, 1⟩

def Rat'.floor (x : Rat') : Int := x.num / x.den

/-- x / y for y ≠ 0. -/
def Rat'.div (x y : Rat') : Rat' :=
  if y.num < 0 then ⟨-(x.num * y.den), (x.den * y.num.natAbs)⟩ else ⟨x.num * y.den, x.den * y.num.natAbs⟩

def ratOf (neg : Bool) (num den : Nat) : Rat' := ⟨if neg then -(num : Int) else num, den⟩

/-- A rational as a value; zero takes the given sign. -/
def Rat'.val (x : Rat') (zneg : Bool) : Val :=
  if x.num = 0 then .fin zneg 0 1 else .fin (x.num < 0) x.num.natAbs x.den

/-- m · 2^e as numerator and denominator. -/
def scale2 (m : Nat) (e : Int) : Nat × Nat :=
  match e with
  | .ofNat k => (m * 2 ^ k, 1)
  | .negSucc k => (m, 2 ^ (k + 1))

/-! ### Formats (R80) -/

/-- A binary floating-point format: exponent and fraction widths, bias, the code of the largest finite
magnitude, and the codes of infinity and NaN where the format has them. -/
structure Fmt where
  e : Nat
  f : Nat
  bias : Nat
  maxc : Nat
  infc : Option Nat
  nanc : Option Nat
  deriving DecidableEq, Repr

def Fmt.width (x : Fmt) : Nat := 1 + x.e + x.f

def fp32 : Fmt := ⟨8, 23, 127, 0x7F7FFFFF, some 0x7F800000, some 0x7FC00000⟩
def fp16 : Fmt := ⟨5, 10, 15, 0x7BFF, some 0x7C00, some 0x7E00⟩
def bf16 : Fmt := ⟨8, 7, 127, 0x7F7F, some 0x7F80, some 0x7FC0⟩
def e4m3 : Fmt := ⟨4, 3, 7, 0x7E, none, some 0x7F⟩
def e5m2 : Fmt := ⟨5, 2, 15, 0x7B, some 0x7C, some 0x7E⟩
def e2m1 : Fmt := ⟨2, 1, 1, 7, none, none⟩
def fa36 : Fmt := ⟨8, 27, 127, 0x7F7FFFFFF, some 0x7F8000000, some 0x7FC000000⟩

/-- The value of a code (R80). -/
def Fmt.val (x : Fmt) (c : Nat) : Val :=
  let neg := c / 2 ^ (x.e + x.f) % 2 = 1
  let m := c % 2 ^ (x.e + x.f)
  let special : Option Val :=
    match x.infc with
    | some i => if m = i then some (.inf neg) else if i < m then some .nan else none
    | none => if x.nanc = some m then some .nan else none
  match special with
  | some v => v
  | none =>
    let ef := m / 2 ^ x.f
    let fr := m % 2 ^ x.f
    let nd := if ef = 0 then scale2 fr (1 - (x.bias : Int) - x.f)
              else scale2 (2 ^ x.f + fr) ((ef : Int) - x.bias - x.f)
    .fin neg nd.1 nd.2

/-! ### Rounding (R90) -/

/-- Whether a magnitude `k` with remainder `r` of `d` rounds up in a mode. -/
def roundsUp (m : Rnd) (neg : Bool) (k r d : Nat) : Bool :=
  match m with
  | .rne => d < 2 * r || (2 * r = d && k % 2 = 1)
  | .rz => false
  | .ru => !neg && r ≠ 0
  | .rd => neg && r ≠ 0

/-- ⌊log2 (n/d)⌋ of a positive rational. -/
def ilog2 (n d : Nat) : Int :=
  let l : Int := (Nat.log2 n : Int) - Nat.log2 d
  let below : Bool := match l with
    | .ofNat k => decide (n < d * 2 ^ k)
    | .negSucc k => decide (n * 2 ^ (k + 1) < d)
  if below then l - 1 else l

/-- The code of the magnitude n/d rounded to the format as though its exponent were unbounded above:
codes of a format rise with the value. -/
def Fmt.magCode (x : Fmt) (m : Rnd) (neg : Bool) (n d : Nat) : Nat :=
  if n = 0 then 0
  else
    let emin : Int := 1 - x.bias
    let e := max (ilog2 n d) emin
    let q := e - x.f
    let (n', d') := match q with
      | .ofNat k => (n, d * 2 ^ k)
      | .negSucc k => (n * 2 ^ (k + 1), d)
    let k := n' / d'
    let k := if roundsUp m neg k (n' % d') d' then k + 1 else k
    (e - emin).toNat * 2 ^ x.f + k

def Fmt.signed (x : Fmt) (neg : Bool) (c : Nat) : Nat := if neg then c + 2 ^ (x.e + x.f) else c

/-- An arithmetic result: rounded once, with IEEE overflow and the canonical NaN (R81, R92). -/
def Fmt.round (x : Fmt) (m : Rnd) (v : Val) : Nat :=
  let inf := x.infc.getD x.maxc
  match v with
  | .nan => x.nanc.getD 0
  | .inf neg => x.signed neg inf
  | .fin neg n d =>
    let c := x.magCode m neg n d
    if c ≤ x.maxc then x.signed neg c
    else
      let toInf := match m with | .rne => true | .rz => false | .ru => !neg | .rd => neg
      x.signed neg (if toInf then inf else x.maxc)

/-- A conversion: rounded, then saturated (R93, R94); true when the class's flag is set. -/
def Fmt.conv (x : Fmt) (m : Rnd) (v : Val) : Nat × Bool :=
  match v with
  | .nan => (match x.nanc with | some c => (c, false) | none => (0, true))
  | .inf neg => (match x.infc with | some c => (x.signed neg c, false) | none => (x.signed neg x.maxc, true))
  | .fin neg n d =>
    let c := x.magCode m neg n d
    if c ≤ x.maxc then (x.signed neg c, false) else (x.signed neg x.maxc, true)

/-- A magnitude rounded to an integer. -/
def roundNat (m : Rnd) (neg : Bool) (n d : Nat) : Nat :=
  let k := n / d
  if roundsUp m neg k (n % d) d then k + 1 else k

/-- Conversion to an integer range (R93, R94). -/
def convInt (lo hi : Int) (m : Rnd) (v : Val) : Int × Bool :=
  match v with
  | .nan => (0, true)
  | .inf neg => (if neg then lo else hi, true)
  | .fin neg n d =>
    let k : Int := roundNat m neg n d
    let k := if neg then -k else k
    if k < lo then (lo, true) else if hi < k then (hi, true) else (k, false)

/-! ### L6 (R87–R89, R96) -/

/-- The table of R87, in Q1.15. -/
def l6t (i : Nat) : Nat := [0x8000, 0x9838, 0xB505, 0xD744].getD i 0

/-- The magnitude of a code, continued above 31, in units of 2^−19; code 0 is zero. -/
def l6mag (c : Nat) : Nat := if c = 0 then 0 else l6t (c % 4) * 2 ^ (c / 4)

/-- The value of a code (R87). DESIGN CHOICE (log 14): code 0 is +0 with either sign bit. -/
def l6val (x : Nat) : Val :=
  let c := x % 32
  if c = 0 then .fin false 0 1 else .fin (x / 32 % 2 = 1) (l6mag c) (2 ^ 19)

/-- Rounding into L6 by linear distance among the codes, ties to the even code; code 32 or above
saturates to code 31 (R96). -/
def l6conv (m : Rnd) (v : Val) : Nat × Bool :=
  match v with
  | .nan => (0, true)
  | .inf neg => (if neg then 63 else 31, true)
  | .fin neg n d =>
    let x := n * 2 ^ 19
    -- the greatest code, up to 33, whose magnitude is at most n/d
    let c := ((List.range 34).filter fun c => l6mag c * d ≤ x).foldl max 0
    if 33 ≤ c then (if neg then 63 else 31, true)
    else
      let r := x - l6mag c * d
      let gap := (l6mag (c + 1) - l6mag c) * d
      let c := if roundsUp m neg c r gap then c + 1 else c
      if 32 ≤ c then (if neg then 63 else 31, true)
      else (if c = 0 then 0 else if neg then 32 + c else c, false)

/-- The exact product of two L6 values in units of 2^−19 (R89). -/
def l6prod (a b : Nat) : Int :=
  let ca := a % 32
  let cb := b % 32
  if ca = 0 || cb = 0 then 0
  else if ca + cb < 17 then 0
  else
    let mag : Int := l6mag (ca + cb - 16)
    if (a / 32 + b / 32) % 2 = 1 then -mag else mag

/-! ### Reading and writing by tag (R83–R85, R170) -/

/-- The width of an element of a tag. -/
def tagElemW : Tag → Nat
  | .e2m1 => 4
  | .i8 | .n8 | .e4m3 | .e5m2 | .l6 | .mx8 | .mx4 => 8
  | .i16 | .n16 | .f16 | .bf16 => 16
  | .b64 | .i64 | .n64 | .a36 | .i36 => 64
  | _ => 32

def tagFmt : Tag → Option Fmt
  | .f32 => some fp32
  | .f16 => some fp16
  | .bf16 => some bf16
  | .e4m3 => some e4m3
  | .e5m2 => some e5m2
  | .e2m1 => some e2m1
  | .a36 => some fa36
  | _ => none

def signedOf (w n : Nat) : Int := if 2 ^ (w - 1) ≤ n % 2 ^ w then (n % 2 ^ w : Nat) - (2 ^ w : Int) else (n % 2 ^ w : Nat)

def intVal (x : Int) : Val := .fin (x < 0) x.natAbs 1

/-- The value that an element or container holds. -/
def tagVal (t : Tag) (x : Nat) : Val :=
  match (tagFmt t) with
  | some f => f.val (x % 2 ^ f.width)
  | none =>
    match t with
    | .l6 => l6val (x % 64)
    | .i36 => intVal (signedOf 36 x)
    | _ => if t.signed then intVal (signedOf (tagElemW t) x) else .fin false (x % 2 ^ (tagElemW t)) 1

/-- The range of an integer tag. -/
def tagRange (t : Tag) : Int × Int :=
  match t with
  | .i36 => (-(2 ^ 35), 2 ^ 35 - 1)
  | _ => if t.signed then (-(2 ^ ((tagElemW t) - 1) : Int), 2 ^ ((tagElemW t) - 1) - 1) else (0, 2 ^ (tagElemW t) - 1)

/-- The saturation class of a destination (R97). -/
def tagSatClass : Tag → SatClass
  | .f32 => .f32
  | .f16 => .f16
  | .bf16 => .bf16
  | .e4m3 | .e5m2 | .mx8 => .f8
  | .e2m1 | .mx4 => .f4
  | .l6 => .l6
  | .a36 => .f32
  | _ => .int

/-- convert(x, dst, RND) of R93–R96: the element or container, and the class set by a saturation. -/
def convert (t : Tag) (m : Rnd) (v : Val) : Nat × Byte :=
  let (c, f) : Nat × Bool :=
    match (tagFmt t) with
    | some x => x.conv m v
    | none =>
      match t with
      | .l6 => l6conv m v
      | _ =>
        let (lo, hi) := (tagRange t)
        let (k, f) := convInt lo hi m v
        ((k % (2 ^ (tagElemW t) : Int)).toNat, f)
  (c, if f then (tagSatClass t).bit else 0)

/-- CVT between equal tags returns its source, but for a NaN (R171). -/
def convertTag (dst src : Tag) (m : Rnd) (x : Nat) : Nat × Byte :=
  let v := tagVal src x
  if dst = src then
    (match v with
     | .nan => convert dst m v
     | _ =>
       (match dst with
        | .a36 => x % 2 ^ 36
        | .i36 => (signedOf 36 x % (2 ^ 64 : Int)).toNat
        | .l6 => x % 64
        | _ => x % 2 ^ (tagElemW dst), 0))
  else convert dst m v

/-! ### IEEE operations on exact values -/

/-- a + b: the exact sum, with the sign of a zero sum by the mode (R163). -/
def Val.add (m : Rnd) (a b : Val) : Val :=
  match a, b with
  | .nan, _ | _, .nan => .nan
  | .inf x, .inf y => if x = y then .inf x else .nan
  | .inf x, _ => .inf x
  | _, .inf y => .inf y
  | .fin x n d, .fin y n' d' =>
    if n = 0 && n' = 0 then .fin (if x = y then x else m = .rd) 0 1
    else ((ratOf x n d).add (ratOf y n' d')).val (m = .rd)

def Val.neg : Val → Val
  | .nan => .nan
  | .inf x => .inf (!x)
  | .fin x n d => .fin (!x) n d

def Val.mul (a b : Val) : Val :=
  match a, b with
  | .nan, _ | _, .nan => .nan
  | .inf x, .inf y => .inf (x != y)
  | .inf x, .fin y n _ => if n = 0 then .nan else .inf (x != y)
  | .fin x n _, .inf y => if n = 0 then .nan else .inf (x != y)
  | .fin x n d, .fin y n' d' => .fin (x != y) (n * n') (d * d')

/-- a·b + c with one rounding to come; 0·∞ + c is NaN whatever c holds (R163). -/
def Val.fma (m : Rnd) (a b c : Val) : Val := (a.mul b).add m c

/-- Numeric order of two values that are not NaN, −0 equal to +0. -/
def Val.lt (a b : Val) : Bool :=
  match a, b with
  | .inf x, .inf y => x && !y
  | .inf x, .fin _ _ _ => x
  | .fin _ _ _, .inf y => !y
  | .fin x n d, .fin y n' d' => (ratOf x n d).lt (ratOf y n' d')
  | _, _ => false

def Val.isNan : Val → Bool
  | .nan => true
  | _ => false

def Val.eqv (a b : Val) : Bool := !a.isNan && !b.isNan && !a.lt b && !b.lt a

/-- The numeric compare of R165. -/
def fcmp (c : FCond) (a b : Val) : Bool :=
  let un := a.isNan || b.isNan
  match c with
  | .eq => a.eqv b
  | .ne => un || !a.eqv b
  | .lt => !un && a.lt b
  | .le => !un && !b.lt a
  | .gt => !un && b.lt a
  | .ge => !un && !a.lt b
  | .num => !un
  | .nan => un

/-- FMIN and FMAX on codes of a format: −0 below +0, a result that is not NaN being one of the operands
bit for bit (R164). -/
def fminmax (x : Fmt) (isMax prop : Bool) (a b : Nat) : Nat :=
  let va := x.val a
  let vb := x.val b
  let nan := x.nanc.getD 0
  match va.isNan, vb.isNan with
  | true, true => nan
  | true, false => if prop then nan else b
  | false, true => if prop then nan else a
  | false, false =>
    let less := va.lt vb || (va.eqv vb && a / 2 ^ (x.e + x.f) % 2 = 1)
    if less != isMax then a else b

def f32add (m : Rnd) (a b : W32) : W32 :=
  BitVec.ofNat 32 (fp32.round m ((fp32.val a.toNat).add m (fp32.val b.toNat)))

/-- A value rounded to an integral value in the mode, keeping its sign (R163). -/
def Val.integral (m : Rnd) : Val → Val
  | .fin neg n d => .fin neg (roundNat m neg n d) 1
  | v => v

/-! ### Elementary functions (R169)

Each is computed as a fixed-point number whose error lies far below half a unit in the last place of
FP32, then rounded once. The results of the transcendental functions at the inputs not listed by R169
are never FP32 midpoints, so the one rounding of the close value is that of the exact one. -/

/-- ⌊√n⌋, from the highest of `k` bits down. -/
def isqrt (n : Nat) : Nat → Nat → Nat
  | 0, r => r
  | k + 1, r => let t := r + 2 ^ k; isqrt n k (if t * t ≤ n then t else r)

/-- √(n/d) as a close fraction: exact when the root is, otherwise strictly between the same two
multiples of 2^−p. -/
def sqrtFrac (n d p : Nat) : Nat × Nat :=
  let x := n * 4 ^ p / d
  let r := isqrt x (Nat.log2 x / 2 + 1) 0
  if r * r * d = n * 4 ^ p then (r, 2 ^ p) else (2 * r + 1, 2 ^ (p + 1))

/-- Fixed point with 384 fraction bits. -/
def fxOne : Int := 2 ^ 384

def fxMul (a b : Int) : Int := a * b / fxOne

/-- ⌊π · 2^512⌋. -/
def piFx : Int := 0x3243f6a8885a308d313198a2e03707344a4093822299f31d0082efa98ec4e6c89452821e638d01377be5466cf34e90c6cc0ac29b7c97c50dd3f84d5b5b5470917

/-- ⌊ln 2 · 2^512⌋. -/
def ln2Fx : Int := 0xb17217f7d1cf79abc9e3b39803f2f6af40f343267298b62d8a0d175b8baafa2be7b876206debac98559552fb4afa1b10ed2eae35c138214427573b291169b825

/-- Σ term over `k` steps, each term the last times x / n, for e^x, and with the alternating signs and
strides of sin and cos. -/
def expSum (x : Int) : Nat → Nat → Int → Int → Int
  | 0, _, _, acc => acc
  | k + 1, n, term, acc =>
    let t := fxMul term x / n
    expSum x k (n + 1) t (acc + t)

/-- e^x for |x| ≤ 1, in fixed point. -/
def fxExp (x : Int) : Int := expSum x 100 1 fxOne fxOne

def trigSum (x2 : Int) : Nat → Nat → Int → Int → Int
  | 0, _, _, acc => acc
  | k + 1, n, term, acc =>
    let t := -(fxMul term x2 / (n * (n + 1)))
    trigSum x2 k (n + 2) t (acc + t)

def fxSin (x : Int) : Int := trigSum (fxMul x x) 60 2 x x
def fxCos (x : Int) : Int := trigSum (fxMul x x) 60 1 fxOne fxOne

def atanhSum (z2 : Int) : Nat → Nat → Int → Int → Int
  | 0, _, _, acc => acc
  | k + 1, n, pow, acc =>
    let p := fxMul pow z2
    atanhSum z2 k (n + 2) p (acc + p / n)

/-- ln m for 1 ≤ m < 2, with m in fixed point: 2·atanh((m − 1)/(m + 1)). -/
def fxLn (m : Int) : Int :=
  let z := (m - fxOne) * fxOne / (m + fxOne)
  2 * atanhSum (fxMul z z) 125 3 z z

/-- n/d in fixed point. -/
def toFx (n d : Nat) : Int := ((n * 2 ^ 384 / d : Nat) : Int)

/-- A fixed-point number as a value strictly inside its last place. -/
def fxVal (x : Int) : Val := .fin (x < 0) (2 * x.natAbs + 1) (2 ^ 385)

/-- 2^a for a rational a that is not an integer. -/
def ex2Val (neg : Bool) (n d : Nat) : Val :=
  let k : Int := (ratOf neg n d).floor
  let f := (ratOf neg n d).sub (Rat'.ofInt k)
  let y := fxExp (fxMul (toFx f.num.natAbs f.den) (ln2Fx / 2 ^ 128))
  match k with
  | .ofNat j => .fin false ((2 * y.natAbs + 1) * 2 ^ j) (2 ^ 385)
  | .negSucc j => .fin false (2 * y.natAbs + 1) (2 ^ (386 + j))

/-- log2 of a positive rational that is no power of two. -/
def lg2Val (n d : Nat) : Val :=
  let e := ilog2 n d
  let (n', d') := match e with
    | .ofNat k => (n, d * 2 ^ k)
    | .negSucc k => (n * 2 ^ (k + 1), d)
  fxVal (e * fxOne + fxLn (toFx n' d') * fxOne / (ln2Fx / 2 ^ 128))

/-- Sine and cosine of |x|: the quadrant of x over π/2 and the remainder, with π to 512 bits. -/
def sinCos (n d : Nat) : Int × Int :=
  let k := (2 * (n : Int) * 2 ^ 512) / (d * piFx)
  let r := ((n : Int) * 2 ^ 513 / d - k * piFx) / 2 ^ 129
  let s := fxSin r
  let c := fxCos r
  match k.toNat % 4 with
  | 0 => (s, c)
  | 1 => (c, -s)
  | 2 => (-s, -c)
  | _ => (-c, s)

/-- tanh of |x| < 9: (e^{2x} − 1)/(e^{2x} + 1), with e^{2x} = 2^{2x/ln 2}. -/
def tanhMag (n d : Nat) : Int :=
  let y := toFx (2 * n) d
  let l := ln2Fx / 2 ^ 128
  let k := y / l
  let ex := fxExp (y - k * l) * 2 ^ k.toNat
  (ex - fxOne) * fxOne / (ex + fxOne)

/-- The eight functions of R167. -/
inductive Sfu | rcp | rsq | sqrt | ex2 | lg2 | sin | cos | tanh
  deriving DecidableEq, Repr

/-- f(a) before its one rounding; the special values of R169 are returned exactly. -/
def sfuVal (f : Sfu) (a : Val) : Val :=
  match f, a with
  | _, .nan => .nan
  | .rcp, .inf x => .fin x 0 1
  | .rcp, .fin x n d => if n = 0 then .inf x else .fin x d n
  | .rsq, .inf x => if x then .nan else .fin false 0 1
  | .rsq, .fin x n d =>
    if n = 0 then .inf x else if x then .nan
    else let r := sqrtFrac d n 200; .fin false r.1 r.2
  | .sqrt, .inf x => if x then .nan else .inf false
  | .sqrt, .fin x n d =>
    if n = 0 then .fin x 0 1 else if x then .nan
    else let r := sqrtFrac n d 200; .fin false r.1 r.2
  | .ex2, .inf x => if x then .fin false 0 1 else .inf false
  | .ex2, .fin x n d =>
    if !x && 128 * d ≤ n then .inf false
    else if x && 150 * d < n then .fin false 0 1
    else if n % d = 0 then
      let p := scale2 1 (if x then -((n / d : Nat) : Int) else (n / d : Nat))
      .fin false p.1 p.2
    else ex2Val x n d
  | .lg2, .inf x => if x then .nan else .inf false
  | .lg2, .fin x n d =>
    if n = 0 then .inf true else if x then .nan
    else
      let e := ilog2 n d
      let p := scale2 1 e
      if n * p.2 = d * p.1 then intVal e else lg2Val n d
  | .sin, .inf _ => .nan
  | .sin, .fin x n d =>
    if n = 0 then .fin x 0 1
    else let s := (sinCos n d).1; fxVal (if x then -s else s)
  | .cos, .inf _ => .nan
  | .cos, .fin _ n d => if n = 0 then .fin false 1 1 else fxVal (sinCos n d).2
  | .tanh, .inf x => .fin x 1 1
  | .tanh, .fin x n d =>
    if n * 2 ^ 12 < d then .fin x n d
    else if 9 * d ≤ n then .fin x 1 1
    else let t := tanhMag n d; fxVal (if x then -t else t)

/-- The result bits of a special function (R169). -/
def sfu (f : Sfu) (a : W32) : W32 := BitVec.ofNat 32 (fp32.round .rne (sfuVal f (fp32.val a.toNat)))

end Sys2Proof.Machine
end

