-- ==== Sys2Proof/Machine/Access.lean ====
section
/-!
DEFINITION. Memory accesses: their order (R246, R247, R257), their performance at a home (R190, R244,
R255), and L1 (R234, R256).
-/

namespace Sys2Proof.Machine

/-! ### Kinds of work -/

namespace AccOp

/-- Performed at a scratchpad bank. -/
def sp : AccOp → Bool
  | .spLoad | .spStore | .spAtom _ | .spRed _ | .blend _ _ | .barinit | .arrive | .btest => true
  | _ => false

/-- An access of memory by a wave (R252). -/
def access : AccOp → Bool
  | .sldk | .load | .store | .atom _ | .red _ | .rbox | .rtri | .rhint | .rhset | .tex | .texq => true
  | op => op.sp

/-- A load or an atomic that returns a value, for FENCE.acq (R247). -/
def loads : AccOp → Bool
  | .sldk | .load | .atom _ | .spLoad | .spAtom _ | .rbox | .rtri | .rhint | .rhset | .tex | .texq | .btest => true
  | _ => false

/-- A write at an SLC slice. -/
def writes : AccOp → Bool
  | .store | .atom _ | .red _ => true
  | _ => false

def atomic : AccOp → Bool
  | .atom _ | .red _ => true
  | _ => false

end AccOp

/-- Every lane has been performed. -/
def Acc.performed (a : Acc) : Bool := a.lanes.all (·.perf)

/-- An acquire that holds later memory instructions of its wave (R195, R203, R246, R247, R311): a read of a handle is one when
it writes DONE. -/
def Acc.acquires (a : Acc) : Bool :=
  (a.op.access && (a.ord = .acq || a.ord = .ar)) ||
  (match a.op with
   | .fence .acq | .fence .ar | .fence .sc => true
   | .btest => true
   | .handle => a.ord = .acq
   | _ => false)

/-- Scopes whose acquire invalidates L1 (R234). -/
def scopeFar : Scope → Bool
  | .wave | .grp => false
  | _ => true

/-- The outstanding work of a wave. -/
def State.accsOf (s : State) (uid : Nat) : List Acc := s.accs.filter fun a => a.uid = uid

/-- A later memory instruction of the wave waits for an acquire (R195, R246). -/
def State.memHold (s : State) (w : Wave) : Bool := (s.accsOf w.uid).any (·.acquires)

/-- An engine command with this number has not ended (R259). -/
def State.engineBusy (s : State) (id : Nat) : Bool :=
  (s.cores.any fun c => c.chan.fifo.any (fun x => x.num = id) ||
    c.chan.slots.any fun sl => (sl.cmd.map fun x => x.num = id && x.stat = .outstanding).getD false) ||
  s.groups.any fun g => (g.tile.map fun t => t.queue.any fun x => x.id = id).getD false

/-- A weak load, or the reads of a ray or texture instruction: a restore makes them afresh (R240, R273, R323). -/
def Acc.remade (a : Acc) : Bool :=
  !a.lanes.isEmpty && (match a.op with
    | .load => a.ord = .weak
    | .sldk | .rbox | .rtri | .rhint | .rhset | .tex | .texq => true
    | _ => false)

/-- A fence or a read of a handle has no lanes: it is done when it has completed. So is what a restore may make afresh, whose
values are not fixed before (R273). -/
def Acc.doneAtEnd (a : Acc) : Bool := match a.op with | .fence _ | .handle => true | _ => a.remade

/-- What comes after an access may be performed. -/
def Acc.settled (a : Acc) : Bool := a.performed && !a.doneAtEnd

/-- The accesses named have been performed. -/
def State.afterDone (s : State) (ids : List Nat) : Bool :=
  ids.all fun id => match s.acc? id with | some a => a.settled | none => !s.engineBusy id

/-- The accesses named have been performed at .wave and .grp: a load's value is fixed, and a store or atomic has
left the core (R246). -/
def State.nearDone (s : State) (ids : List Nat) : Bool :=
  ids.all fun id => match s.acc? id with
    | some a => a.settled || a.left.isSome
    | none => !s.engineBusy id

/-- The accesses of a wave that have not been performed. -/
def State.pendingIds (s : State) (uid : Nat) : List Nat :=
  ((s.accsOf uid).filter fun a => a.op.access && !a.settled).map (·.id)

/-- The engine commands of a wave that have not ended, each an access for FENCE (R259). -/
def State.engineIds (s : State) (uid : Nat) : List Nat :=
  (s.cores.flatMap fun c =>
    ((c.chan.fifo ++ c.chan.slots.filterMap (·.cmd)).filter fun x => x.uid = uid && x.stat = .outstanding).map (·.num)) ++
  s.groups.flatMap fun g => match g.tile with
    | some t => if t.owner = some uid then
        (t.queue.filter fun x => match x.cmd with | .tmma _ _ _ _ | .tdrain _ _ _ _ => true | _ => false).map (·.id) else []
    | none => []

/-- The accesses of a core that have left it and have still to reach their homes. -/
def State.leftIds (s : State) (core : Nat) : List Nat :=
  (s.accs.filter fun a => a.w.core = core && a.left.isSome && !a.performed).map (·.id)

/-- A lane of an access is still to be performed, or may be made afresh. -/
def Acc.open_ (a : Acc) (l : Lane) : Bool := !l.perf || (a.remade && !l.given)

/-- Two lanes touch one 8-byte word, both at its home (R257 row a). -/
def sameWord (a b : Lane) : Bool := a.pa / 8 = b.pa / 8 && !a.l1 && !b.l1

/-- The wave's earlier accesses of a word that the new one touches (R257 row a). A load that L1 serves sees the
wave's own stores (R256). -/
def State.wordIds (s : State) (w : Wave) (sp : Bool) (lanes : List Lane) : List Nat :=
  ((s.accsOf w.uid).filter fun b => b.op.access && !b.settled && b.op.sp = sp &&
    b.lanes.any fun x => b.open_ x && lanes.any fun y => sameWord x y ||
      (y.l1 && b.left.isNone && b.op.writes && x.pa / 8 = y.pa / 8)).map (·.id)

/-- What must be performed before a new access of the wave: with a release every earlier access at its scope, for a
store-class access what a FENCE.rel names, and the earlier accesses of its words, which need only have left the core
before a store that leaves after them (R246, R247, R257). -/
def State.ordered (s : State) (w : Wave) (a : Acc) (store rel : Bool) : Acc :=
  let word := s.wordIds w a.op.sp a.lanes
  let mine := if rel then s.pendingIds w.uid else []
  let far := scopeFar a.sco
  let leaves := store && !a.op.sp
  { a with
    after := (if rel && far then mine else []) ++ (if store then w.relAfter else []) ++ (if leaves then [] else word)
    near := (if rel && !far then mine else []) ++ (if store then w.relNear else []) ++ (if leaves then word else []) }

/-! ### L1 (R234, R256) -/

def State.l1Line (s : State) (core line : Nat) : Option Line :=
  s.l1.find? fun l => l.core = core && l.line = line

/-- The core's outstanding accesses whose instant bounds a fill of these lines from below (R256):
acquires, fences, and atomics of a line. -/
def State.l1Bound (s : State) (core : Nat) (lines : List Nat) : List Nat :=
  (s.accs.filter fun a => a.w.core = core &&
    (a.acquires || (a.op.atomic && a.lanes.any fun l => lines.contains (l.pa / 128)))).map (·.id)

/-- The bounds of a fill have passed. -/
def State.l1Free (s : State) (core : Nat) (lines : List Nat) : Bool := s.afterDone (s.l1Bound core lines)

/-- Access size of a tag, in bytes. -/
def sizeOf' (t : Tag) : Nat :=
  match t with
  | .n8 | .i8 => 1
  | .n16 | .i16 => 2
  | t => if t.wide then 8 else 4

/-- Overlays the bytes of a value on a line. -/
def overlay (bytes : List Byte) (off : Nat) : List Byte → List Byte
  | [] => bytes
  | b :: bs => overlay (bytes.set off b) (off + 1) bs

/-- The bytes of a line that a store of a core has sent, among those whose number passes `sel`, and that have not
reached the home, in the order in which the stores left the core. -/
def State.inFlight (s : State) (core line : Nat) (sel : Nat → Bool) (bytes : List Byte) : List Byte :=
  let sent := s.accs.filter fun a => a.w.core = core && a.op = .store && (a.left.map sel).getD false
  let own := (sortBy (fun (a b : Acc) => a.left.getD 0 ≤ b.left.getD 0) sent).flatMap fun a =>
    (a.lanes.filter fun l => !l.perf && l.pa / 128 = line).map fun l => (l.pa % 128, leBytes (sizeOf' a.tag) l.data.toNat)
  own.foldl (fun b x => overlay b x.1 x.2) bytes

/-- Lines of a core's L1: 256 KiB (R10). -/
def l1Size : Nat := 2048

/-- A fill of a line into the core's L1 for load number `id`: the load takes the home's bytes with those of the
core's stores that had left the core before it issued (R256); the line kept has those of every store that has
left. A poisoned line is not kept; of a full L1 a line that a free value picks leaves (log 30). -/
def State.l1Fill (s : State) (ways core line id : Nat) : List Byte × State :=
  let s := s.slcTouch ways (128 * line) false
  let home := s.rdBytes (128 * line) 128
  let mine := s.inFlight core line (· ≤ id) home
  if s.poisoned (128 * line) then (mine, s)
  else
    let s := s.l1Drop core line
    let s := { s with l1 := ⟨core, line, s.inFlight core line (fun _ => true) home, []⟩ :: s.l1 }
    let ks := (s.l1.zipIdx.filter fun x => x.1.core = core).map (·.2)
    if ks.length ≤ l1Size then (mine, s)
    else
      let (x, s) := s.free
      (mine, { s with l1 := s.l1.eraseIdx (ks.getD (1 + x.toNat % (ks.length - 1)) 0) })

/-- A store that leaves the core updates its L1's copy. -/
def State.l1Store (s : State) (core pa : Nat) (bytes : List Byte) : State :=
  let put (l : Line) : Line := { l with bytes := overlay l.bytes (pa % 128) bytes }
  { s with l1 := upd (fun l => l.core = core && l.line = pa / 128) put s.l1 }

/-- An engine command of a group has written a line of which its core's L1 has a copy: a later acquire of the group
at .wave or .grp takes the copy out (R256, R257 row f). -/
def State.l1Eng (s : State) (g : GroupId) (core line : Nat) : State :=
  { s with l1 := upd (fun l => l.core = core && l.line = line) (fun l => { l with eng := l.eng ++ [g] }) s.l1 }

/-- An acquire of a wave of a group takes the lines out of its core's L1: at .clu and above every line (R234), and at
.wave and .grp those that the group's engine commands have written. -/
def State.l1Acquire (s : State) (g : GroupId) (core : Nat) (sco : Scope) : State :=
  if scopeFar sco then s.l1Clear core
  else { s with l1 := s.l1.filter fun l => !(l.core = core && l.eng.contains g) }

/-! ### Values -/

/-- Extension by a load's tag (R193). -/
def extend (t : Tag) (x : Nat) : W64 :=
  match t with
  | .i8 => (BitVec.ofNat 8 x).signExtend 32 |>.zeroExtend 64
  | .i16 => (BitVec.ofNat 16 x).signExtend 32 |>.zeroExtend 64
  | _ => BitVec.ofNat 64 x

/-- The new value of an atomic (R194) on old value o, operand b and compare value d. -/
def atomNew (op : AtomOp) (t : Tag) (o b d : Nat) : Nat :=
  let w := tagW t
  let rd (x : Nat) := readInt t w (BitVec.ofNat 64 x)
  match op with
  | .add => (o + b) % 2 ^ w
  | .min => if rd b < rd o then b else o
  | .max => if rd o < rd b then b else o
  | .and => o &&& b
  | .or => o ||| b
  | .xor => o ^^^ b
  | .exch => b
  | .cas => if o = d then b else o
  | .inc => if b ≤ o then 0 else o + 1
  | .dec => if o = 0 ∨ b < o then b else o - 1
  | .fadd => fp32.round .rne ((fp32.val o).add .rne (fp32.val b))
  | .fmin => fminmax fp32 false false o b
  | .fmax => fminmax fp32 true false o b

/-- The new value of a read-modify-write. -/
def AccOp.newValue (op : AccOp) (t : Tag) (o b d : Nat) : Nat :=
  match op with
  | .atom a | .red a | .spAtom a | .spRed a => atomNew a t o b d
  | _ => b

/-! ### Performing at an SLC slice -/

/-- The bytes of a range in L1 lines. -/
def State.l1Bytes (s : State) (core pa n : Nat) : List Byte :=
  (List.range n).map fun i =>
    ((s.l1Line core ((pa + i) / 128)).map fun l => l.bytes.getD ((pa + i) % 128) 0).getD 0

/-- Every line of a range is in the core's L1. -/
def State.l1Has (s : State) (core pa n : Nat) : Bool := (linesOf pa n).all fun x => (s.l1Line core (x / 128)).isSome

/-- A weak load's value from fills of the lines it touches, with whether one was poisoned. -/
def State.l1Load (s : State) (ways core pa n id : Nat) : List Byte × Bool × State :=
  (linesOf pa n).foldl (fun (r : List Byte × Bool × State) x =>
    let (line, s') := r.2.2.l1Fill ways core (x / 128) id
    let len := min (pa + n) (128 * (x / 128 + 1)) - x
    (r.1 ++ (line.drop (x % 128)).take len, r.2.1 || s'.poisoned x, s')) ([], false, s)

/-- The SLC ways for the fills of a partition. -/
def State.partWays (s : State) (p : Nat) : Nat := (s.part p).ways

/-- A strong access at .sys, or a write, needs ownership of a host-homed line (R246, R382). -/
def Acc.owns (a : Acc) : Bool := a.op.writes || (a.ord ≠ .weak && a.sco = .sys)

/-- One lane of a global access takes effect at its home, or at its L1 fill (R244, R245, R255, R256). -/
def State.perform (s : State) (a : Acc) (l : Lane) : Lane × State :=
  let n := sizeOf' a.tag
  let ways := s.partWays a.grp.part
  match a.op with
  | .load | .sldk | .rbox | .rtri | .tex =>
    if l.l1 then
      let (bs, p, s) := s.l1Load ways a.w.core l.pa n a.id
      ({ l with perf := true, poison := l.poison || p, res := extend a.tag (leNat bs) }, s)
    else
      let s := (linesOf l.pa n).foldl (fun s x => s.slcTouch ways x a.owns) s
      ({ l with perf := true, poison := l.poison || s.poisoned l.pa || s.poisoned (l.pa + n - 1)
                res := extend a.tag (s.rdNat l.pa n) }, s)
  | .store => ({ l with perf := true }, s.slcWrite ways l.pa (leBytes n l.data.toNat))
  | .atom _ | .red _ =>
    let s := s.l1Drop a.w.core (l.pa / 128)
    if s.poisoned l.pa then ({ l with perf := true, poison := true }, s)
    else
      let o := s.rdNat l.pa n
      ({ l with perf := true, res := BitVec.ofNat 64 o },
       s.slcWrite ways l.pa (leBytes n (a.op.newValue a.tag o l.data.toNat l.cmp.toNat)))
  | _ => ({ l with perf := true }, s)

/-- Number order of two accesses that have left a core. -/
def Acc.leftFirst (b a : Acc) : Bool :=
  match b.left, a.left with
  | some n, some m => n < m || (n = m && b.id < a.id)
  | some n, none => n ≤ a.id
  | none, _ => false

/-- Nothing that has left a core is still on its way to the home of an address (R254). -/
def State.pathFree (s : State) (core pa : Nat) : Bool :=
  s.accs.all fun b => b.w.core ≠ core || b.op.sp || b.left.isNone || b.lanes.all fun x => x.perf || slice x.pa ≠ slice pa

/-- Nothing that left the core earlier is still on its way to the home of a lane (R254). -/
def State.pathClear (s : State) (a : Acc) (l : Lane) : Bool :=
  l.l1 || s.accs.all fun b =>
    b.id = a.id || b.w.core ≠ a.w.core || b.op.sp || !b.leftFirst a ||
    b.lanes.all fun x => x.perf || slice x.pa ≠ slice l.pa

/-- The accesses that come before have been performed, each at the scope that its order asks for. -/
def State.orderOk (s : State) (a : Acc) : Bool := s.afterDone a.after && s.nearDone a.near

/-- A lane may be performed, host copies apart: its access may begin, what R257 puts first is performed, earlier
lanes of its word are performed, and what left the core before it has arrived. -/
def State.laneFree (s : State) (a : Acc) (l : Lane) : Bool :=
  !l.perf && !a.redo && a.ready ≤ s.cyc a.w.core && (if a.op.writes then a.left.isSome else s.orderOk a) &&
  (a.lanes.all fun x => x.perf || l.t ≤ x.t || x.pa / 8 ≠ l.pa / 8) && s.pathClear a l

/-- A lane may be performed: no host holds a copy in the way. -/
def State.laneReady (s : State) (a : Acc) (l : Lane) : Bool := s.laneFree a l && !s.snoopHeld l.pa a.op.writes

/-- A store, reduction or atomic leaves the core in order, once its order allows it; a store then updates the core's
L1 copy of its bytes, and an atomic takes its lines out (R234, R246, R254). -/
def State.leave (s : State) (id : Nat) : State :=
  match s.acc? id with
  | none => s
  | some a =>
    if a.left.isSome || !a.op.writes || a.redo || s.cyc a.w.core < a.ready || !s.orderOk a then s
    else
      let s := { s with nextSeq := s.nextSeq + 1 }.modAcc id fun a => { a with left := some s.nextSeq }
      a.lanes.foldl (fun s l =>
        if a.op = .store then s.l1Store a.w.core l.pa (leBytes (sizeOf' a.tag) l.data.toNat)
        else s.l1Drop a.w.core (l.pa / 128)) s

def State.setLane (s : State) (id : Nat) (l : Lane) : State :=
  s.modAcc id fun a => { a with lanes := upd (fun x => x.t = l.t) (fun _ => l) a.lanes }

/-- The poison of a line goes when one STG has written all of it, with its last byte (R245). -/
def State.unpoison (s : State) (id line : Nat) : State :=
  match s.acc? id with
  | none => s
  | some a =>
    let mine := a.lanes.filter fun l => l.pa / 128 = line
    if a.op = .store && mine.all (·.perf) && (List.range 128).all fun i => mine.any fun l =>
        l.pa % 128 ≤ i && i < l.pa % 128 + sizeOf' a.tag then
      { s with poison := s.poison.filter fun x => x ≠ s.lineKey line }
    else s

/-- Performs the ready lanes of an access, in ascending thread index; for a lane that a host's copy holds up, the
copy is asked for. -/
def State.performReady (s : State) (id : Nat) : List Lane → State
  | [] => s
  | l :: ls =>
    match s.acc? id with
    | none => s
    | some a =>
      if s.laneReady a l then
        let r := s.perform a l
        ((r.2.setLane id r.1).unpoison id (l.pa / 128)).performReady id ls
      else (if s.laneFree a l then s.ask l.pa a.op.writes else s).performReady id ls

/-! ### Address watchpoints (R415, R416) -/

/-- A watchpoint of kinds 0–2 matches an access of `size` bytes at an address. -/
def Watch.hits (x : Watch) (lid : Nat) (rd wr sp : Bool) (size : Nat) (a : W64) : Bool :=
  let k := bits x.ctl 5 3
  let f := bits x.ctl 63 32
  x.ctl.getLsbD 7 && (f = 0 || f = lid) && x.ctl.getLsbD 2 = sp &&
  ((k = 0 && rd) || (k = 1 && wr) || (k = 2 && (rd || wr))) &&
  x.len ≠ 0 && a.toNat < x.addr.toNat + x.len.toNat && x.addr.toNat < a.toNat + size

/-- The event of the watchpoints that match: TVAL, WPHIT and the KIND of a stop record (R408, R411). -/
def watchDue (ws : List (Nat × Watch)) (xs : List (Nat × W64)) (lid : Nat) (rd wr sp : Bool) (size : Nat) :
    Option Due :=
  let hit := ws.filter fun w => xs.any fun x => w.2.hits lid rd wr sp size x.2
  match hit with
  | [] => none
  | w :: _ =>
    match xs.find? fun x => hit.any fun w => w.2.hits lid rd wr sp size x.2 with
    | none => none
    | some x =>
      some ⟨12, setBits (setBits (setBits (0#64) 50 0 x.2.toNat) 53 51 w.1) 54 54 sp.toNat,
        some (if bits w.2.ctl 5 3 = 1 || !rd then 3 else 2), hit.foldl (fun m w => m ||| (1#8 <<< w.1)) 0⟩

/-- Adds the partition's watchpoints to the checks at issue: of a trap and a watchpoint that traps the lower cause is taken, with
the record of a stop; then a trap; then a stop. TVAL and WPHIT are of every watchpoint that matches. None acts in a handler or under ONESHOT (R408, R413). -/
def State.watchChk (s : State) (e : Env) (rd wr sp : Bool) (size : Nat) (xs : List (Nat × W64)) (c : Chk) : Chk :=
  if e.w.handler ≠ .none || e.w.dbg.getLsbD 2 then c
  else
    let ws := (List.range 8).zip (s.part e.w.grp.part).wps
    let acts (act : Bool) : Bool :=
      ws.any fun w => w.2.ctl.getLsbD 6 = act && xs.any fun x => w.2.hits e.w.grp.lid rd wr sp size x.2
    match c, watchDue ws xs e.w.grp.lid rd wr sp size with
    | .trap k tv, some d =>
      let t : Nat × W64 := if acts false && 12 < k then (12, d.tval) else (k, tv)
      if acts true then .trapRec t.1 t.2 d else .trap t.1 t.2
    | .ok, some d => if !acts false then .stop d else if acts true then .trapRec 12 d.tval d else .trap 12 d.tval
    | c, _ => c

/-- Cause 12 of a memory access against the checks of its addresses and the outcome of its translation: of a cause that a
translation hit finds and cause 12 the lower is taken; a miss is met only once no watchpoint stands before it (R408, R416;
log 97). -/
def State.watchXlate (s : State) (e : Env) (rd wr : Bool) (size : Nat) (xs : List (Nat × W64)) (c x : Chk) : Chk :=
  let c := match c, x with
    | .ok, .trap k tv => .trap k tv
    | c, _ => c
  match s.watchChk e rd wr false size xs c with
  | .ok => x
  | c => c

end Sys2Proof.Machine
end

