-- ==== Sys2Proof/Machine/Global.lean ====
section
/-!
DEFINITION. Global memory: loads, stores, atomics, reductions, fences, cache control, prefetch, queue
ports and scalar loads (R159–R161, R241–R251).
-/

namespace Sys2Proof.Machine

/-! ### Addresses and checks (R242) -/

/-- The threads that make an access: none, or those outside FMASK, when FAULTRET issues the instruction
again (R227). -/
def Env.accessing (e : Env) (ts : List Nat) : List Nat :=
  match e.w.reissue with
  | none => ts
  | some r => (match r.emul with
    | none => []
    | some (m, _) => ts.filter fun t => !m.getLsbD t)

/-- The value that FAULTRET.emul gives to the threads in FMASK. -/
def Env.emulated (e : Env) (ts : List Nat) : List (Nat × W64) :=
  match e.w.reissue with
  | some ⟨_, some (m, vs, _)⟩ => (ts.filter fun t => m.getLsbD t).map fun t => (t, vs.get t)
  | _ => []

def signedOff (off : BitVec 8) (size : Nat) : W64 := off.signExtend 64 * BitVec.ofNat 64 size

/-- x(l) of LDG, STG and PREF. -/
def indexAddr (e : Env) (a b : VSrc) (scl : BitVec 2) (isgn : Bool) (off : BitVec 8) (size t : Nat) : W64 :=
  let b := e.v32 1 b t
  let b : W64 := if isgn then b.signExtend 64 else b.zeroExtend 64
  e.v64 0 a t + (b <<< scl.toNat) + signedOff off size

/-- Alignment and range, the lowest cause with the lowest offending thread's address (R242). -/
def addrChk (size : Nat) (xs : List (Nat × W64)) : Chk :=
  match xs.find? fun x => x.2.toNat % size ≠ 0 with
  | some x => .trap 3 x.2
  | none =>
    match xs.find? fun x => bits x.2 63 51 ≠ 0 with
    | some x => .trap 5 x.2
    | none => .ok

def Xlate.chk : Xlate → Chk
  | .ok _ => .ok
  | .trap c va => .trap c va
  | .miss ms => .park ms

/-- The checks of a global access at issue: it waits for an acquire; then address, watchpoints,
translation and classification, in that order (R242, R246, R416). -/
def globalChk (s : State) (e : Env) (k : AccKind) (rd : Bool) (size : Nat) (xs : List (Nat × W64)) : Chk :=
  if s.memHold e.w then .hold
  else
    s.watchXlate e rd (k ≠ .read) size xs (addrChk size xs) (s.xlate (some e.w.id.core) e.w.grp.part k size xs).chk

/-- The translated accesses of an instruction that has passed its checks. -/
def State.pasOf (s : State) (e : Env) (k : AccKind) (size : Nat) (xs : List (Nat × W64)) :
    List (Nat × W64 × Nat × Bool) :=
  match s.xlate (some e.w.id.core) e.w.grp.part k size xs with | .ok ps => ps | _ => []

def Lane.mk' (t : Nat) (va : W64) (pa : Nat) (data cmp : W64) (l1 : Bool) : Lane :=
  { t := t, va := va, pa := pa, data := data, cmp := cmp, l1 := l1, given := false, perf := false, poison := false, res := 0 }

/-- A lane whose value FAULTRET.emul gives. -/
def Lane.emul (t : Nat) (v : W64) : Lane :=
  { t := t, va := 0, pa := 0, data := 0, cmp := 0, l1 := true, given := true, perf := true, poison := false, res := v }

/-! ### Queue entries (R237) -/

/-- Reserves the entry of a load with a queue destination. -/
def State.reserve (s : State) (w : WaveId) (q : BitVec 4) (wide : Bool) (acc : Nat) : State :=
  s.modWave w fun w => { w with q := w.q.modify q.toNat fun p =>
    { p with entries := p.entries ++ [⟨acc, wide, [], none, false, none⟩] } }

/-- Starts a load: lanes whose lines are in L1 have their values at once (R256). Any line may have been replaced by
now: a free value says which of them have (R234; log 30). -/
def State.startLoad (s : State) (a : Acc) (bound : List Nat) : State :=
  let n := sizeOf' a.tag
  let may (l : Lane) : Bool := l.l1 && !l.perf && bound.isEmpty && a.after.isEmpty
  let lines := (a.lanes.filter fun l => may l && s.l1Has a.w.core l.pa n).flatMap fun l =>
    (linesOf l.pa n).map fun x => x / 128
  let s := if lines.isEmpty then s
    else
      let (x, s) := s.free
      lines.foldl (fun s k => if x.getLsbD (k % 64) then s.l1Drop a.w.core k else s) s
  let hit (l : Lane) : Lane := { l with perf := true, res := extend a.tag (leNat (s.l1Bytes a.w.core l.pa n)) }
  let lanes := a.lanes.map fun l => if may l && s.l1Has a.w.core l.pa n then hit l else l
  s.addAcc { a with lanes := lanes, after := a.after ++ (if a.lanes.any (·.l1) then bound else []) }

/-! ### A header or descriptor that is read at issue (R322) -/

/-- Where a 32-byte block lies, and whether L1 serves it; none where its address is not one or has no translation. -/
def State.blockAt (s : State) (w : Wave) (va : W64) : Option (Nat × Bool) :=
  if va.toNat % 32 ≠ 0 || bits va 63 51 ≠ 0 then none
  else match s.xlate (some w.id.core) w.grp.part .read 32 [(0, va)] with
    | .ok ((_, _, pa, nc) :: _) => some (pa, s.l1able pa nc)
    | _ => none

/-- The block's words as lanes of an access. -/
def blockLanes (va : W64) (pa : Nat) (l1 : Bool) : List Lane :=
  (List.range 4).map fun i => Lane.mk' i (va + BitVec.ofNat 64 (8 * i)) (pa + 8 * i) 0 0 l1

/-- The read of the block waits: for what bounds a fill to complete, and so to have taken older lines out of L1 (R234, R256), for the wave's earlier accesses of its words (R257),
for what has left the core before it on its way to its slice (R254), or for a host's copy. -/
def State.blockWait (s : State) (w : Wave) (va : W64) : Bool :=
  match s.blockAt w va with
  | none => false
  | some (pa, l1) =>
    !(s.wordIds w false (blockLanes va pa l1)).isEmpty ||
    (if l1 then
      !(s.l1Bound w.id.core [pa / 128]).isEmpty || (!s.l1Has w.id.core pa 32 && s.snoopHeld pa false)
     else
      s.snoopHeld pa false || s.accs.any fun b => b.w.core = w.id.core && b.left.isSome &&
        b.lanes.any fun x => !x.perf && slice x.pa = slice pa)

/-- The block as a wave reads it: its bytes, whether they are poisoned, and the state after a fill of L1. -/
def State.blockRead (s : State) (w : Wave) (pa : Nat) (l1 : Bool) : List Byte × Bool × State :=
  if !l1 then
    (s.rdBytes pa 32, s.poisoned pa, s.slcTouch (s.partWays w.grp.part) pa false)
  else if s.l1Has w.id.core pa 32 then (s.l1Bytes w.id.core pa 32, false, s)
  else s.l1Load (s.partWays w.grp.part) w.id.core pa 32 s.nextSeq

/-- The address of the header or descriptor of an instruction. -/
def blockVa (e : Env) (i : Instr) : Option W64 :=
  match i with
  | .rbox _ o => some (e.srPair o.hs)
  | .rtri _ o => some (e.srPair o.hs)
  | .rhint _ o => some (e.srPair o.hs)
  | .rhset _ o => some (e.srPair o.hs)
  | .tex _ o => some (e.srPair o.td)
  | .texq _ o => some (e.srPair o.td)
  | _ => none

/-! ### LDG, STG, ATOM, RED -/

def glAddrs (e : Env) (h : Hdr) (o : GlMem) : List (Nat × W64) :=
  (e.accessing (lanesOf e h false)).map fun t =>
    (t, indexAddr e o.a o.b o.scl o.isgn o.off (sizeOf' o.tag) t)

/-- The destination of a load of either width. -/
def accDst (d : Dst) (wide : Bool) : AccDst :=
  match d with
  | .v n => .v n.toNat wide
  | .q n => .q n.toNat wide
  | .s n => .s n.toNat wide

def State.pushDst (s : State) (e : Env) (d : Dst) (wide : Bool) : State :=
  match d with
  | .q n => s.reserve e.w.id n wide s.nextSeq
  | _ => s

def execLdg (h : Hdr) (o : GlMem) (s : State) : Res :=
  let size := sizeOf' o.tag
  issue (.ldg h o) h false (fun s e => globalChk s e .read true size (glAddrs e h o)) (fun e s =>
    let ps := s.pasOf e .read size (glAddrs e h o)
    let lanes := (ps.map fun x => Lane.mk' x.1 x.2.1 x.2.2.1 0 0
        (o.ord = .weak && s.l1able x.2.2.1 x.2.2.2)) ++
      (e.emulated (lanesOf e h false)).map fun x => Lane.emul x.1 (if o.tag.wide then x.2 else (lo32 x.2).zeroExtend 64)
    let a : Acc := { e.acc h .load with tag := o.tag, ord := o.ord, sco := o.sco, lanes := lanes, dst := accDst o.d o.tag.wide }
    let a := s.ordered e.w a false false
    let s := s.pushDst e o.d o.tag.wide
    s.startLoad a (s.l1Bound e.w.id.core (lanes.map fun l => l.pa / 128))) s

def execStg (h : Hdr) (o : GlMem) (s : State) : Res :=
  let size := sizeOf' o.tag
  issue (.stg h o) h false (fun s e => globalChk s e .write false size (glAddrs e h o)) (fun e s =>
    let ps := s.pasOf e .write size (glAddrs e h o)
    let lanes := ps.map fun x => Lane.mk' x.1 x.2.1 x.2.2.1 (e.old o.tag.wide o.d x.1) 0 false
    let a : Acc := { e.acc h .store with tag := o.tag, ord := o.ord, sco := o.sco, lanes := lanes }
    s.addAcc (s.ordered e.w a true (o.ord = .rel))) s

def atomAddrs (e : Env) (h : Hdr) (o : GlAtom) : List (Nat × W64) :=
  (e.accessing (lanesOf e h false)).map fun t => (t, e.v64 0 o.a t + signedOff o.off (sizeOf' o.tag))

/-- The lanes of a global atomic and its access. -/
def State.startAtom (s : State) (e : Env) (h : Hdr) (o : GlAtom) (op : AccOp) (dst : AccDst) : State :=
  let ps := s.pasOf e .atomic (sizeOf' o.tag) (atomAddrs e h o)
  let lanes := (ps.map fun x => Lane.mk' x.1 x.2.1 x.2.2.1 (e.src 1 o.tag.wide (.vec o.b) x.1)
      (if o.op = .cas then e.old o.tag.wide o.d x.1 else 0) false) ++
    (match dst with
     | .none => []
     | _ => (e.emulated (lanesOf e h false)).map fun x =>
        Lane.emul x.1 (if o.tag.wide then x.2 else (lo32 x.2).zeroExtend 64))
  let a : Acc := { e.acc h op with tag := o.tag, ord := o.ord, sco := o.sco, lanes := lanes, dst := dst }
  s.addAcc (s.ordered e.w a true (o.ord = .rel || o.ord = .ar))

def execAtom (h : Hdr) (o : GlAtom) (s : State) : Res :=
  issue (.atom h o) h false (fun s e => globalChk s e .atomic true (sizeOf' o.tag) (atomAddrs e h o))
    (fun e s => (s.pushDst e o.d o.tag.wide).startAtom e h o (.atom o.op) (accDst o.d o.tag.wide)) s

def execRed (h : Hdr) (o : GlAtom) (s : State) : Res :=
  issue (.red h o) h false (fun s e => globalChk s e .atomic false (sizeOf' o.tag) (atomAddrs e h o))
    (fun e s => s.startAtom e h o (.red o.op) .none) s

/-! ### Performing and completing -/

/-- The lanes of an access that may be performed are, once a store has left its core. -/
def State.performAll (s : State) (id : Nat) : State :=
  let s := s.leave id
  match s.acc? id with
  | some a => if a.performed then s else s.performReady id a.lanes
  | none => s

/-- One access on one word at its slice, in the slice's single order (R244). -/
def execSliceAluPerform (id t : Nat) (s : State) : Res :=
  match s.acc? id with
  | none => .next s
  | some a =>
    if a.op.sp then .next s
    else match a.lanes.find? fun l => l.t = t with
      | none => .next s
      | some l => .next ((s.leave id).performReady id [l])

/-- The lowest thread that met poison. -/
def Acc.poisoned (a : Acc) : Option W64 := (a.lanes.find? (·.poison)).map (·.va)

/-- What a completed load writes. -/
def Acc.loadPuts (a : Acc) : List Put :=
  match a.dst with
  | .v r wide => putV wide r (a.lanes.map fun l => (l.t, l.res))
  | .s r wide => (match a.lanes with
    | [] => []
    | l :: ls => putS wide r (if ls.isEmpty then l.res
        else BitVec.ofNat 64 (leNat (a.lanes.map fun l => l.res.truncate 8))))
  | _ => []

/-- An acquire that completes takes lines out of its core's L1 (R234). -/
def State.acquired (s : State) (a : Acc) : State :=
  if a.ord = .acq || a.ord = .ar then s.l1Acquire a.grp a.w.core a.sco else s

/-- A poisoned load or ATOM into a register writes nothing; the wave takes cause 6 at its next boundary
(R245). -/
def State.loadDone (s : State) (a : Acc) : State :=
  let s := s.acquired a
  match a.poisoned with
  | none => s.complete a a.loadPuts
  | some va => (s.complete a []).modUid a.uid fun w =>
      if w.life = .exited then w else { w with due := w.due ++ [⟨6, va, none, 0⟩] }

/-- LDG or ATOM into a register completes: what is still to be performed is performed first. -/
def execGlobalLoadComplete (id : Nat) (s : State) : Res :=
  match s.ripe id fun op => op = .load || (match op with | .atom _ => true | _ => false) with
  | none => .next s
  | some a0 =>
    match a0.dst with
    | .q _ _ => .next s
    | _ =>
      let s := s.performAll id
      match s.acc? id with
      | none => .next s
      | some a => if a.performed then .next (s.loadDone a) else .next s

/-- The entry of a queue destination arrives with all its elements (R238). -/
def execEntryArrive (id : Nat) (s : State) : Res :=
  match s.ripe id fun op => op = .load || (match op with | .atom _ => true | _ => false) with
  | none => .next s
  | some a0 =>
    match a0.dst with
    | .q n _ =>
      let s := s.performAll id
      (match s.acc? id with
       | none => .next s
       | some a =>
         if a.performed then
           let vals : Sparse 64 := a.lanes.foldl (fun m l => m.set l.t l.res) []
           let s := (s.acquired a).complete a []
           .next (s.modUid a.uid fun w =>
             if w.life = .exited then w
             else { w with q := w.q.modify n fun q => q.arrive a.id (s.cyc a.w.core) vals a.poisoned })
         else .next s)
    | _ => .next s

/-- Stores at .wave and .grp complete when they have left the core in order, before their slices have them (R246); a
reduction completes at its slice ALU whatever its scope (R243, R257 row e). -/
def Acc.nearStore (a : Acc) : Bool := a.op = .store && !scopeFar a.sco

/-- A store or reduction is performed and completes; a store at .wave or .grp first completes and then, at a
second event, is performed at its slice. -/
def execGlobalStorePerformed (id : Nat) (s : State) : Res :=
  match s.ripe id fun op => op = .store || (match op with | .red _ => true | _ => false) with
  | none => .next s
  | some a =>
    if a.nearStore && !a.told then
      let s := s.leave id
      match s.acc? id with
      | none => .next s
      | some b => if b.left.isSome then .next ((s.landIn a []).modAcc id fun a => { a with told := true }) else .next s
    else
      let s := s.performAll id
      match s.acc? id with
      | none => .next s
      | some a =>
        if a.performed then .next (if a.told then s.dropAcc id else s.complete a []) else .next s

/-! ### FENCE (R247) -/

/-- The accesses that a fence waits for: earlier loads and atomics for .acq and .ar; every earlier access, engine
commands too, for .sc. -/
def State.fenceAfter (s : State) (uid : Nat) (k : FenceKind) : List Nat :=
  match k with
  | .sc => s.pendingIds uid ++ s.engineIds uid
  | _ => ((s.accsOf uid).filter fun a => a.op.loads).map (·.id)

/-- Later store-class accesses wait for every earlier access, engine commands too, at the scope. -/
def Wave.fenceRel (w : Wave) (s : State) (sco : Scope) : Wave :=
  let ids := s.pendingIds w.uid ++ s.engineIds w.uid
  let live (l : List Nat) : List Nat := l.filter fun id => (s.acc? id).isSome || s.engineBusy id
  if scopeFar sco then { w with relAfter := live w.relAfter ++ ids, relNear := live w.relNear }
  else { w with relAfter := live w.relAfter, relNear := live w.relNear ++ ids }

def execFence (h : Hdr) (o : FenceOp) (s : State) : Res :=
  issue (.fence h o) h true (fun s e => if s.memHold e.w then .hold else .ok) (fun e s =>
    if !e.w.uGuard h e.c0 then done1 e h s
    else
      -- an .sc orders what the wave's engines do after it as a .rel does (R257 row d)
      let s := if o.kind = .acq then s else s.modWave e.w.id fun w => w.fenceRel s o.sco
      if o.kind = .rel then fixed e h 0 [] s
      else
        let ids := s.fenceAfter e.w.uid o.kind
        let near := o.kind = .sc && !scopeFar o.sco
        s.addAcc { e.acc h (.fence o.kind) with sco := o.sco, after := if near then [] else ids, near := if near then ids else [] }) s

/-- The condition of a fence's completion: its loads have completed, or for .sc its accesses have been
performed at the scope. -/
def State.fenceOk (s : State) (a : Acc) : Bool :=
  match a.op with
  | .fence .sc => s.orderOk a
  | _ => a.after.all fun id => (s.acc? id).isNone

def execFenceComplete (id : Nat) (s : State) : Res :=
  match s.ripe id fun op => match op with | .fence _ => true | _ => false with
  | none => .next s
  | some a => if s.fenceOk a then .next ((s.l1Acquire a.grp a.w.core a.sco).complete a []) else .next s

/-! ### CCTL and PREF (R248, R249) -/

/-- The leaf that maps an address, whatever it allows: pages that are not mapped are skipped. -/
def State.mapped (s : State) (p : Nat) (va : W64) : Option Nat :=
  match s.tlb.find? fun t => t.part = p && t.vpn = va.toNat / 2 ^ leafShift t.lvl with
  | some t => some (t.pa + va.toNat % 2 ^ leafShift t.lvl)
  | none =>
    match s.walkEnd p va with
    | (.leaf lvl pa _, _) => some (pa + va.toNat % 2 ^ leafShift lvl)
    | _ => none

/-- The ranges of physical addresses that a virtual range covers, page by page. -/
def State.physRanges (s : State) (p : Nat) (va : W64) (len : Nat) : List (Nat × Nat) :=
  if len = 0 then []
  else
    let a := va.toNat
    let last := min (a + len - 1) (2 ^ 51 - 1)
    (List.range (last / 2 ^ 15 + 1 - a / 2 ^ 15)).filterMap fun k =>
      let page := a / 2 ^ 15 + k
      let lo := max a (page * 2 ^ 15)
      let hi := min last (page * 2 ^ 15 + 2 ^ 15 - 1)
      if 2 ^ 51 ≤ lo then none
      else (s.mapped p (BitVec.ofNat 64 lo)).map fun pa => (pa, pa + (hi - lo))

/-- The walks of a range are made coherent. -/
def State.coherentRange (s : State) (p : Nat) (va : W64) (len : Nat) : State :=
  if s.snoop.isEmpty || len = 0 then s
  else
    let a := va.toNat
    let last := min (a + len - 1) (2 ^ 51 - 1)
    (List.range (last / 2 ^ 15 + 1 - a / 2 ^ 15)).foldl
      (fun s k => s.coherentWalk p (BitVec.ofNat 64 (max a ((a / 2 ^ 15 + k) * 2 ^ 15)))) s

/-- The walks that waiting WAITAs of a partition take again are made coherent. -/
def State.coherentWaits (s : State) (p : Nat) (ws : List Wave) : State :=
  ws.foldl (fun s w => match w.wait with
    | .addr _ va (some _) _ _ _ _ => if w.grp.part = p then s.coherentWalk p va else s
    | _ => s) s

def inRanges (rs : List (Nat × Nat)) (line : Nat) : Bool :=
  rs.any fun r => r.1 / 128 ≤ line && line ≤ r.2 / 128

/-- The contents of a line lie in a range. -/
def State.keyIn (s : State) (rs : List (Nat × Nat)) (k : Nat) : Bool :=
  rs.any fun r => s.lineKey (r.1 / 128) ≤ k && k ≤ s.lineKey (r.1 / 128) + (r.2 / 128 - r.1 / 128)

/-- A walk that the range of a CCTL takes meets a line that a bias flip holds (R449). -/
def State.rangeHeld (s : State) (p : Nat) (va : W64) (len : Nat) : Bool :=
  s.flip.isSome && len ≠ 0 &&
    (let a := va.toNat
     let last := min (a + len - 1) (2 ^ 51 - 1)
     (List.range (last / 2 ^ 15 + 1 - a / 2 ^ 15)).any fun k =>
       s.walkHeld p (BitVec.ofNat 64 (max a ((a / 2 ^ 15 + k) * 2 ^ 15))))

/-- A CCTL.inv of a range walks at its issue, and waits for lines that a bias flip holds. -/
def State.cctlHeld (s : State) (e : Env) (h : Hdr) (rng : Option CctlRng) : Bool :=
  match rng with
  | some r => e.w.uGuard h e.c0 && s.rangeHeld e.w.grp.part (e.srPair r.a) (e.sr r.b).toNat
  | none => false

/-- CCTL: an invalidation takes effect at issue; .clean and .cleaninv when the command completes. -/
def cctl (i : Instr) (h : Hdr) (k : Nat) (rng : Option CctlRng) (s : State) : Res :=
  issue i h true (fun s e => if s.memHold e.w || (k = 0 && s.cctlHeld e h rng) then .hold else .ok) (fun e s =>
    if !e.w.uGuard h e.c0 then done1 e h s
    else
      let args := match rng with | some r => [e.srPair r.a, (e.sr r.b).zeroExtend 64] | none => []
      let s := if k ≠ 0 then s else match rng with
        | none => s.l1Clear e.w.id.core
        | some _ =>
          let s := s.coherentRange e.w.grp.part (args.getD 0 0) (args.getD 1 0).toNat
          let rs := s.physRanges e.w.grp.part (args.getD 0 0) (args.getD 1 0).toNat
          { s with l1 := s.l1.filter fun l => !(l.core = e.w.id.core && inRanges rs l.line) }
      s.addAcc { e.acc h (.cctl k) with args := args }) s

def execCctlInv (h : Hdr) (rng : Option CctlRng) (s : State) : Res := cctl (.cctlInv h rng) h 0 rng s
def execCctlClean (h : Hdr) (rng : CctlRng) (s : State) : Res := cctl (.cctlClean h rng) h 1 (some rng) s
def execCctlCleaninv (h : Hdr) (rng : CctlRng) (s : State) : Res := cctl (.cctlCleaninv h rng) h 2 (some rng) s

/-- Every line is done: the homes have accepted the modified ones, those of a bias flip's write-backs among them (R448). The
walks of the range wait for lines that a flip holds (R449). -/
def execCctlComplete (id : Nat) (s : State) : Res :=
  match s.ripe id fun op => match op with | .cctl _ => true | _ => false with
  | none => .next s
  | some a =>
    let va := a.args.getD 0 0
    let len := (a.args.getD 1 0).toNat
    if a.op = .cctl 0 then .next (s.complete a [])
    else if s.rangeHeld a.grp.part va len then .next s
    else
      let s := s.coherentRange a.grp.part va len
      let rs := s.physRanges a.grp.part va len
      if s.flip.any fun f => f.back.any fun b => s.keyIn rs b.1 then .next s
      else
        let s := (s.dirty.filter (s.keyIn rs)).foldl State.cleanKey s
        let s := if a.op = .cctl 2 then { s with slc := s.slc.filter fun x => !inRanges rs x.line } else s
        .next (s.complete a [])

/-- What a thread of a PREF fetches: its line's address, and whether into L1; none where the access would trap or miss, or an
L1 prefetch bypasses L1. It is dropped for that thread alone (R220, R249; DESIGN CHOICE, log 87). -/
def State.prefLine (s : State) (p core : Nat) (l1 : Bool) (va : W64) : Option (Nat × Bool) :=
  if bits va 63 51 ≠ 0 then none
  else match s.tlbHit (some core) p va .read with
    | none => none
    | some (pa, nc) => if (s.classHit (some core) p va .read).isSome || (l1 && !s.l1able pa nc) then none else some (pa, l1)

/-- A line is fetched into the SLC, and with `l1` into L1 (R249). -/
def State.prefFill (s : State) (p core pa : Nat) (l1 : Bool) : State :=
  if !l1 then s.slcTouch (s.partWays p) pa false
  else if s.l1Has core pa 1 then s
  else (s.l1Fill (s.partWays p) core (pa / 128) s.nextSeq).2

/-- The prefetches of an instruction's threads: a line of which a host has the only copy, or that a bias flip holds, is asked
for and comes when the host has given it up (R271, R449). -/
def State.prefetch (s : State) (e : Env) (h : Hdr) (l1 : Bool) (xs : List (Nat × W64)) : State :=
  let p := e.w.grp.part
  let core := e.w.id.core
  let ls := xs.filterMap fun x => (s.prefLine p core l1 x.2).map fun y => (x, y)
  let held := ls.filter fun x => s.snoopHeld x.2.1 false
  let s := (ls.filter fun x => !s.snoopHeld x.2.1 false).foldl (fun s x => s.prefFill p core x.2.1 x.2.2) s
  if held.isEmpty then s
  else (held.foldl (fun s x => s.ask x.2.1 false) s).addAcc
    { e.acc h .pref with sf := 15, lanes := held.map fun x => Lane.mk' x.1.1 x.1.2 x.2.1 0 0 x.2.2 }

/-- The lines of a PREF that hosts have given up by now come, and it is over with the last of them. -/
def State.prefStep (s : State) (a : Acc) : State :=
  let free := a.lanes.filter fun l => !s.snoopHeld l.pa false
  let left := a.lanes.filter fun l => s.snoopHeld l.pa false
  let s := free.foldl (fun s l => s.prefFill a.grp.part a.w.core l.pa l.l1) s
  if left.isEmpty then s.dropAcc a.id
  else (left.foldl (fun s l => s.ask l.pa false) s).modAcc a.id fun a => { a with lanes := left }

/-- A PREF that its queue ports, a poisoned entry or a tile that its wave owns would make trap is dropped, and completes
as one that fetches nothing (R249); a misused port has nothing popped (log 87). One that names a register outside the allotment
is no PREF at all and takes cause 0 (R66; DESIGN CHOICE, log 87). -/
def execPref (h : Hdr) (o : PrefOp) (s : State) : Res :=
  let go (s : State) : Res :=
    issue (.pref h o) h false (fun s e => if s.memHold e.w then .hold else .ok) (fun e s =>
      (done1 e h s).prefetch e h (!o.slc)
        ((lanesOf e h false).map fun t => (t, indexAddr e o.a o.b o.scl o.isgn o.off 1 t))) s
  match s.wave? s.cur with
  | none => go s
  | some w =>
    let i := Instr.pref h o
    let e := mkEnv s w false i
    if w.life = .exited || !i.fits w.allot then go s
    else if (queueMisuse w i e.c0).isSome then .next (done1 e h (s.enter w { e with id := .nop h false } h))
    else if (popPoison e).isSome || e.ownsTile then
      .next (if queueHold w i e.c0 || s.memHold w then s else done1 e h (s.enter w e h))
    else go s

/-! ### QSTAT and QDROP (R250, R251) -/

/-- The snapshot of a port at cycle `now`. -/
def qstatVal (q : Queue) (d now : Nat) : W32 :=
  let live := q.live
  BitVec.ofNat 32 (d * 2 ^ 24 + q.free d now * 2 ^ 16 + (live.filter fun e => match e.got with | none => true | some x => now ≤ x).length * 2 ^ 8 +
    (live.takeWhile fun e => e.ready now).length)

def execQstat (h : Hdr) (d : BitVec 8) (q : BitVec 4) (s : State) : Res :=
  issue (.qstat h d q) h true noChk (fun e s =>
    s.addAcc { e.acc h .qstat with puts := if e.w.uGuard h e.c0 then
      [.s d.toNat (qstatVal (e.w.q.getD q.toNat ⟨[], []⟩) e.w.kern.qd e.c0)] else [] }) s

def execQstatComplete (id : Nat) (s : State) : Res :=
  match s.ripe id (· = .qstat) with
  | none => .next s
  | some a => .next (s.complete a a.puts)

def execQdrop (h : Hdr) (q : BitVec 4) (n : BitVec 6) (s : State) : Res :=
  let live (e : Env) : Nat := (e.w.q.getD q.toNat ⟨[], []⟩).live.length
  issue (.qdrop h q n) h true
    (fun _ e => if e.w.uGuard h e.c0 && live e < n.toNat then .trap 7 (portVal q) else .ok)
    (fun e s =>
      let s := done1 e h s
      if e.w.uGuard h e.c0 then
        let gone := if n = 0 then live e else n.toNat
        s.modWave e.w.id fun w => { w with q := w.q.modify q.toNat fun p => p.drop gone (e.c + 1) }
      else s) s

/-! ### SLDK (R159–R161) -/

/-- SLDK.arg reads the launch's argument block. -/
def execSldkArg (h : Hdr) (wide : Bool) (d : BitVec 8) (imm : W32) (s : State) : Res :=
  let size := if wide then 8 else 4
  let args (s : State) (e : Env) : List Byte := ((s.launch? e.w.grp.part e.w.grp.lid).map (·.args)).getD []
  issue (.sldkArg h wide d imm) h true
    (fun s e =>
      if !e.w.uGuard h e.c0 then .ok
      else if imm.toNat % size ≠ 0 then .trap 3 (imm.zeroExtend 64)
      else if (args s e).length < imm.toNat + size then .trap 5 (imm.zeroExtend 64)
      else .ok)
    (fun e s =>
      if e.w.uGuard h e.c0 then
        s.addAcc { e.acc h .sldk with
          puts := putS wide d.toNat (BitVec.ofNat 64 (leNat (((args s e).drop imm.toNat).take size))) }
      else done1 e h s) s

/-- SLDK.const is a weak load of one address per wave. -/
def execSldkConst (h : Hdr) (wide : Bool) (d : BitVec 8) (imm : W32) (s : State) : Res :=
  let tag : Tag := if wide then .b64 else .b32
  let size := if wide then 8 else 4
  let addr (e : Env) : W64 := e.w.kern.const + imm.zeroExtend 64
  -- an address that is no multiple of the size is read byte by byte, since it may reach into the next page
  let odd (e : Env) : Bool := (addr e).toNat % size ≠ 0
  let unit (e : Env) : Nat := if odd e then 1 else size
  let xs (e : Env) : List (Nat × W64) :=
    if e.w.reissue.isSome then []
    else if odd e then (List.range size).map fun i => (i, addr e + BitVec.ofNat 64 i) else [(0, addr e)]
  issue (.sldkConst h wide d imm) h true
    (fun s e =>
      if !e.w.uGuard h e.c0 then .ok
      else if s.memHold e.w then .hold
      else if imm.toNat % size ≠ 0 then .trap 3 (addr e)
      else
        s.watchXlate e true false size (if e.w.reissue.isSome then [] else [(0, addr e)])
          (if bits (addr e) 63 51 ≠ 0 then .trap 5 (addr e) else .ok)
          (match s.xlate (some e.w.id.core) e.w.grp.part .read (unit e) (xs e) with
           | .trap c _ => .trap c (addr e)
           | x => x.chk))
    (fun e s =>
      if e.w.uGuard h e.c0 then
        let lanes := (s.pasOf e .read (unit e) (xs e)).map (fun x =>
            Lane.mk' x.1 x.2.1 x.2.2.1 0 0 (s.l1able x.2.2.1 x.2.2.2)) ++
          (match e.w.reissue with
           | some ⟨_, some (_, _, v)⟩ => [Lane.emul 0 v]
           | _ => [])
        let a : Acc := { e.acc h .sldk with tag := if odd e then .n8 else tag, lanes := lanes, dst := .s d.toNat wide }
        s.startLoad (s.ordered e.w a false false)
          (s.l1Bound e.w.id.core (lanes.map fun l => l.pa / 128))
      else done1 e h s) s

def execSldkComplete (id : Nat) (s : State) : Res :=
  match s.ripe id (· = .sldk) with
  | none => .next s
  | some _ =>
    let s := s.performAll id
    match s.acc? id with
    | none => .next s
    | some a =>
      if a.performed then
        .next (if a.lanes.isEmpty then s.complete a a.puts else s.loadDone a)
      else .next s

end Sys2Proof.Machine
end

