-- ==== Sys2Proof/Machine/Order.lean ====
section
/-!
DEFINITION. The order of a cycle: what a cycle brings, by the place that its rules give it (R13, R33, R36, R144, R374,
R387, R390).
-/

namespace Sys2Proof.Machine

/-! ### Places of BAR0 -/

/-- The start of BAR0. -/
def bar0 : Nat := 0xF00000000000

/-- The partition and CMD that a write of a register offset gives to some PCTL. -/
def pctlCmd (off : Nat) (v : W64) : Option (Nat × Nat) :=
  if 0x60000 ≤ off && off < 0x62000 && off % 0x200 = 0x80 then some ((off - 0x60000) / 0x200, bits v 63 61) else none

/-- The offset of some partition's FRESP (R224). -/
def frespWrite (off : Nat) : Bool := 0x30000 ≤ off && off < 0x31000 && off % 0x100 = 0x18

/-! ### What the device answers (R425, R429) -/

/-- Requests of a host: answered from step 4 of bring-up on. -/
def hostEvent : Instr → Bool
  | .doorbellWrite _ _ _ _ _ _ | .commit _ | .save _ _ | .restore _ _ | .migsave _ _ | .kill _
  | .bflipToDevice _ | .bflipToHost _ | .bflipQuery _ | .hostSnoop _ _ _ | .hostMemRead _ _ _ _
  | .hostMemWrite _ _ _ _ _ | .csmApertureAccess _ _ _ _ | .leaseRenew _ _ _ | .leaseArm _ _ | .leaseDisarm _ _
  | .leaseYield _ _ | .cxwinWrite _ _ _ | .dresumeResume _ _ _ | .dresumeStep _ _ _ | .dresumeKill _ _ _
  | .frespRetry _ _ | .frespFail _ _ | .tlbinvPartition _ | .tlbinvRange _ _ | .pmrExtend _ _ | .mailboxRequest _ _
  | .msixVectorUnmask _ _ | .registerWrite _ _ _ _ | .faultQueueHeadAdvance _ _ | .stopRingHeadAdvance _ _ => true
  | .getVersion v _ | .getCapabilities v _ | .negotiateAlgorithms v _ | .getDigests v _ | .getCertificate v _
  | .challenge v _ _ | .getMeasurements v _ => v ≠ .sideband
  | _ => false

/-- The host port that a request comes through, where it names one. -/
def eventPort : Instr → Option Nat
  | .doorbellWrite h _ _ _ _ _ | .hostSnoop h _ _ | .hostMemRead h _ _ _ | .hostMemWrite h _ _ _ _
  | .csmApertureAccess h _ _ _ | .leaseRenew h _ _ | .leaseArm h _ | .leaseDisarm h _ | .leaseYield h _
  | .mailboxRequest h _ | .msixVectorUnmask h _ | .registerWrite h _ _ _ => some h
  | .getVersion (.port h) _ | .getCapabilities (.port h) _ | .negotiateAlgorithms (.port h) _ | .getDigests (.port h) _
  | .getCertificate (.port h) _ | .challenge (.port h) _ _ | .getMeasurements (.port h) _ => some h
  | _ => none

/-- A host's access of memory over CXL.mem or CXL.cache: in recovery only CXL.io is answered (R429). -/
def memEvent : Instr → Bool
  | .hostSnoop _ _ _ | .hostMemWrite _ _ _ _ _ => true
  | .hostMemRead _ pa _ _ => decide (pa < bar0)
  | _ => false

/-! ### The order of a cycle (R13, R33, R36, R374, R387, R390; log 3) -/

/-- The register that a host's write reaches decides where in the cycle it takes effect, as it does for the
event that names the same action. -/
def regPhase (addr : Nat) (value : W64) : Nat :=
  let off := addr - bar0
  if off = 0x70000 || off = 0x70008 then 0
  else if off = 0x70018 then 2
  else if 0x90000 ≤ off && off < 0x90020 then 0
  else if 0x70010 ≤ off && off < 0x70080 then 2
  else match pctlCmd off value with
    | some (_, 2) | some (_, 3) | some (_, 4) => 8
    | _ => if frespWrite off then 7 else if 0xB4000 ≤ off && off < 0xB8000 && off % 0x400 = 0x230 then 11 else 6

/-- Packets that a parser meets, and what it does at its own time. -/
def packetEvent : Instr → Bool
  | .nopPacket _ _ | .launchPacket _ _ | .graphPacket _ _ | .fencePacket _ _ | .fenceCounterReread _ _
  | .signalPacket _ _ | .signalWrite _ _ | .deadlinePacket _ _ | .cancelPacket _ _ => true
  | _ => false

/-- Events of the error fabric, of power and of management. -/
def planeEvent : Instr → Bool
  | .correctedError _ _ _ | .uncorrectableError _ _ _ _ | .memoryUncorrectableError _ _ | .clusterFence _
  | .clockInterval _ _ _ | .recoveryImageCheck _ | .pldmFwUpdate _ | .pldmSensorRead _ => true
  | _ => false

/-- The place of an event among those of its cycle: links and leases of the management plane; the expiry of a
lease; errors, bias flips, clocks and promotions; work performed and completed; groups that retire; units that
complete; the control plane's packets and commands and the accesses of hosts, with what they cancel and kill;
ends of walks, replies and arrivals, which may trap; context switches; the satisfaction of waits, the commands of tiles
among it; tiles; placement. -/
def Instr.phase (i : Instr) : Nat :=
  match i with
  | .powerLoss | .deviceReset | .powerGood | .linkDown _ | .linkUp _ => 0
  | .leaseRenew _ _ _ | .leaseArm _ _ | .leaseDisarm _ _ | .leaseYield _ _ => 0
  | .leaseExpiry => 1
  | .bflipToDevice _ | .bflipToHost _ | .bflipQuery _ | .cxwinWrite _ _ _ => 2
  | .groupRetire _ => 4
  | .unitComplete _ _ => 5
  | .registerWrite _ a _ v => regPhase a v
  | .walkComplete _ | .frespRetry _ _ | .frespFail _ _ | .barrierArrival _ => 7
  | .getVersion v _ | .getCapabilities v _ | .negotiateAlgorithms v _ | .getDigests v _ | .getCertificate v _
  | .challenge v _ _ | .getMeasurements v _ => if v = .sideband then 2 else 6
  | .pmrExtend _ _ => 11
  | .save _ _ | .migsave _ _ | .restore _ _ => 8
  | .coresHalted _ | .imageComplete _ | .imageWritten _ | .carvedWayWritebackEnd _ | .tlbInvalidationEnd _ => 8
  | .bwaitWake _ | .bwaitTimeout _ | .waitaWake _ | .waitaPeriodicReread _ | .waitaTimeout _ => 9
  | .gridQueueHead _ | .slabInject _ | .tdrainComplete _ => 9
  | .sleepWake _ | .handleStatusWrite _ | .yieldExpiry _ | .waveAged _ | .instructionFetchReturn _ => 9
  | .linkComplete _ | .tileLinkWaitExpiry _ | .tilePreempt _ | .tileRelink _ => 10
  | .placementDecision _ | .reservationStart _ | .biasFlipEnd | .traceLoss _ => 12
  | .lehrPromotion _ _ => 2
  | i => if planeEvent i then 2 else if hostEvent i || packetEvent i then 6 else 3

/-- A host reads an occupancy register: as every placement and release before this cycle left it (R144, R188). -/
def occRead : Instr → Bool
  | .hostMemRead _ pa _ _ =>
    let off := pa - bar0
    decide (bar0 ≤ pa) && (decide (0x10000 ≤ off && off < 0x12000) || decide (0x20000 ≤ off && off < 0x20800))
  | _ => false

/-- The place of what a cycle brings; a trap of the cycle before follows what kills its group (R36), and a fence that a
failed link brings comes after the work that ends by itself (R33); an error's relaunch or trap, after the cancels of its cycle
(R36, R405). -/
def Event.phase (e : Event) : Nat :=
  match e with
  | .instr i => if occRead i then 0 else Instr.phase i + 1
  | .contain _ => 7
  | .relaunch _ | .errTrap _ _ => 8
  | .restore _ => 9
  | .wake _ => 10
  | .interval => 3
  | .out _ (.cancel _ _) => 7
  | .out _ (.kill _ _ _) | .out _ (.entered _ _) => 8
  | .out _ _ => 3

/-- An event that this cycle's events bring takes its place among those still to come. -/
def insEvent (x : Event) (es : List Event) : List Event :=
  es.takeWhile (fun e => decide (e.phase < x.phase)) ++ x :: es.dropWhile fun e => decide (e.phase < x.phase)

/-- A SAVE, MIGSAVE or RESTORE of the partition is still to come in this cycle. -/
def State.switchDue (s : State) (p : Nat) : Bool :=
  s.events.any fun e => match e with
    | .instr (.save q _) => q = p
    | .instr (.migsave q _) => q = p
    | .instr (.restore q _) => q = p
    | .instr (.registerWrite _ a _ v) => (match pctlCmd (a - bar0) v with
      | some (q, c) => q = p && (c = 2 || c = 3 || c = 4)
      | none => false)
    | _ => false

/-- A wait of a wave of the partition is not satisfied now: a context switch is under way, or meets it in its cycle (R36). -/
def State.switching (s : State) (p : Nat) : Bool := s.saving p || s.switchDue p

end Sys2Proof.Machine
end

