-- ==== Sys2Proof/Machine/Scratchpad.lean ====
section
/-!
DEFINITION. Scratchpad, bank ALUs, barriers and WAITA (R185–R208).
-/

namespace Sys2Proof.Machine

/-! ### Addresses, checks and the port (R189, R192) -/

def Env.winSize (e : Env) : Nat := (e.g.map (·.size)).getD 0

/-- Alignment and bounds of window accesses: the lowest cause, with the lowest offending thread's
offset. -/
def winChk (size win : Nat) (xs : List (Nat × Nat)) : Chk :=
  match xs.find? fun x => x.2 % size ≠ 0 with
  | some x => .trap 3 (BitVec.ofNat 64 x.2)
  | none =>
    match xs.find? fun x => win < x.2 + size with
    | some x => .trap 5 (BitVec.ofNat 64 x.2)
    | none => .ok

def offs (xs : List (Nat × Nat)) : List (Nat × W64) := xs.map fun x => (x.1, BitVec.ofNat 64 x.2)

/-- The quarter's scratchpad port is free (R189). -/
def State.portFree (s : State) (e : Env) : Bool :=
  (((s.core e.w.id.core).quarters[e.w.id.q]?).map fun q => q.port.isEmpty).getD true

/-- The services that one beat asks of each bank: threads of a load or store that address one word share one. -/
def bankCosts (atom : Bool) (xs : List Nat) : List (Nat × Nat) :=
  let words := xs.map fun x => x / 8
  let words := if atom then words else words.dedup
  ((List.range 32).map fun b => (b, (words.filter fun w => w % 32 = b).length)).filter fun b => 0 < b.2

/-- A beat at the port: with no bank refused it holds the port for as many cycles as it asks services of one
bank, and for one at least. -/
def PortBeat.of (acc : Nat) (atom : Bool) (xs : List Nat) : PortBeat :=
  let ks := bankCosts atom xs
  { acc := acc, left := (ks.map (·.2)).foldl max 1, banks := ks }

/-- The beats of an instruction take the port, one after another. -/
def State.takePort (s : State) (e : Env) (acc : Nat) (atom : Bool) (xs : List (Nat × Nat)) : State :=
  let beats := (List.range e.beats).map fun b => PortBeat.of acc atom ((xs.filter fun x => x.1 / 16 = b).map (·.2))
  s.modCore e.w.id.core fun c =>
    { c with quarters := c.quarters.modify e.w.id.q fun q => { q with port := q.port ++ beats } }

/-- The beats of an access have left the port. -/
def State.pastPort (s : State) (a : Acc) : Bool :=
  (((s.core a.w.core).quarters[a.w.q]?).map fun q => q.port.all fun b => b.acc ≠ a.id).getD true

/-- The quarter that a bank serves among those that ask it: round-robin, from the one after the last served. -/
def bankPick (last : Nat) (asks : Nat → Bool) : Option Nat :=
  [last + 1, last + 2, last + 3, last + 4].map (· % 4) |>.find? asks

/-- One cycle of a core's scratchpad ports (R189): each bank serves one word; a port that some bank refused is
held one more cycle. -/
def Core.portStep (c : Core) : Core :=
  let beat (q : Nat) : Option PortBeat := ((c.quarters[q]?).map (·.port)).bind List.head?
  let asks (q b : Nat) : Bool := ((beat q).map fun x => x.banks.any fun y => y.1 = b && 0 < y.2).getD false
  let picks := (List.range 32).map fun b => bankPick (c.banks.getD b 3) fun q => asks q b
  let got (q b : Nat) : Bool := (picks.getD b none) = some q
  let refused (q : Nat) : Bool := (List.range 32).any fun b => asks q b && !got q b
  let served (q : Nat) (x : PortBeat) : PortBeat :=
    { x with left := if refused q then x.left else x.left - 1,
             banks := x.banks.map fun y => (y.1, if got q y.1 then y.2 - 1 else y.2) }
  { c with
    quarters := c.quarters.mapIdx fun q x => match x.port with
      | [] => x
      | b :: bs => let b := served q b; { x with port := if b.left = 0 then bs else b :: bs }
    banks := (List.range 32).map fun b => (picks.getD b none).getD (c.banks.getD b 3) }

/-- The checks of LDS, STS, ATOMS, REDS and BLEND at issue. -/
def spChk (s : State) (e : Env) (rd wr : Bool) (size : Nat) (xs : List (Nat × Nat)) : Chk :=
  if s.memHold e.w || !s.portFree e then .hold
  else s.watchChk e rd wr true size (offs xs) (winChk size e.winSize xs)

/-- Starts a scratchpad access. -/
def State.startSp (s : State) (e : Env) (a : Acc) (store rel atom : Bool) : State :=
  let s' := s.takePort e s.nextSeq atom (a.lanes.map fun l => (l.t, l.pa))
  s'.addAcc (s.ordered e.w a store rel)

/-! ### LDS, STS, ATOMS, REDS (R191–R195) -/

def spMemAddrs (e : Env) (h : Hdr) (o : SpMem) : List (Nat × Nat) :=
  (lanesOf e h false).map fun t =>
    (t, (e.v32 0 o.a t).toNat + (e.v32 1 o.b t).toNat * 2 ^ o.scl.toNat + o.off.toNat * sizeOf' o.tag)

def execLds (h : Hdr) (o : SpMem) (s : State) : Res :=
  issue (.lds h o) h false (fun s e => spChk s e true false (sizeOf' o.tag) (spMemAddrs e h o)) (fun e s =>
    s.startSp e { e.acc h .spLoad with
      tag := o.tag, ord := o.ord, sco := o.sco, dst := .v o.d.toNat o.tag.wide,
      lanes := (spMemAddrs e h o).map fun x => Lane.mk' x.1 (BitVec.ofNat 64 x.2) x.2 0 0 false } false false false) s

def execSts (h : Hdr) (o : SpMem) (s : State) : Res :=
  issue (.sts h o) h false (fun s e => spChk s e false true (sizeOf' o.tag) (spMemAddrs e h o)) (fun e s =>
    s.startSp e { e.acc h .spStore with
      tag := o.tag, ord := o.ord, sco := o.sco,
      lanes := (spMemAddrs e h o).map fun x =>
        Lane.mk' x.1 (BitVec.ofNat 64 x.2) x.2 (e.old o.tag.wide (.v o.d) x.1) 0 false } true (o.ord = .rel) false) s

def spAtomAddrs (e : Env) (h : Hdr) (o : SpAtom) : List (Nat × Nat) :=
  (lanesOf e h false).map fun t => (t, (e.v32 0 o.a t).toNat + o.off.toNat * sizeOf' o.tag)

def spAtomic (i : Instr) (h : Hdr) (o : SpAtom) (op : AccOp) (dst : AccDst) (rd : Bool) (s : State) : Res :=
  issue i h false (fun s e => spChk s e rd true (sizeOf' o.tag) (spAtomAddrs e h o)) (fun e s =>
    s.startSp e { e.acc h op with
      tag := o.tag, ord := o.ord, sco := o.sco, dst := dst,
      lanes := (spAtomAddrs e h o).map fun x =>
        Lane.mk' x.1 (BitVec.ofNat 64 x.2) x.2 (e.src 1 o.tag.wide (.vec o.b) x.1)
          (if o.op = .cas then e.old o.tag.wide (.v o.d) x.1 else 0) false }
      true (o.ord = .rel || o.ord = .ar) true) s

def execAtoms (h : Hdr) (o : SpAtom) (s : State) : Res :=
  spAtomic (.atoms h o) h o (.spAtom o.op) (.v o.d.toNat o.tag.wide) true s

def execReds (h : Hdr) (o : SpAtom) (s : State) : Res :=
  spAtomic (.reds h o) h o (.spRed o.op) .none false s

/-! ### The bank ALU (R190) -/

/-- EXP, SCK, CNT and CSAT as BARINIT leaves them (R200): PHASE, LSAT and bit 15 are kept. -/
def barinitWord (w : W64) (arg : W64) : W64 :=
  let w := setBits w 30 16 (bits arg 14 0)
  let w := setBits w 31 31 (bits arg 31 31)
  setBits (setBits w 14 0 0) 39 32 0

/-- One lane of a scratchpad access, on the group's window. -/
def State.performSp (s : State) (a : Acc) (l : Lane) : Lane × State :=
  match s.group? a.grp with
  | none => ({ l with perf := true }, s)
  | some g =>
    let n := sizeOf' a.tag
    let o := g.rdNat l.pa n
    match a.op with
    | .spLoad => ({ l with perf := true, res := extend a.tag o }, s)
    | .spStore => ({ l with perf := true }, s.modGroup a.grp fun g => g.wrNat l.pa n l.data.toNat)
    | .spAtom op | .spRed op =>
      ({ l with perf := true, res := BitVec.ofNat 64 o },
       s.modGroup a.grp fun g => g.wrNat l.pa n (atomNew op a.tag o l.data.toNat l.cmp.toNat))
    | .barinit =>
      ({ l with perf := true },
       s.modGroup a.grp fun g => g.wrNat l.pa 8 (barinitWord (BitVec.ofNat 64 (g.rdNat l.pa 8)) l.data).toNat)
    | _ => ({ l with perf := true }, s)

/-- The services of a lane at its bank: threads of one beat of a load or a store that address one word share one. -/
def Acc.service (a : Acc) (l : Lane) : Service :=
  ⟨a.grp, l.pa / 8, a.id, match a.op with | .spLoad | .spStore => l.t / 16 | _ => 64 + l.t⟩

/-- A TDRAIN into the window, other than the one that `id` names, is between its first and its last element, and a word is one of its
tile's: no other operation of the bank touches it (R299). -/
def State.wordLocked (s : State) (g : GroupId) (id : Option Nat) (word : Nat) : Bool :=
  ((s.group? g).bind (·.tile)).any fun t => t.queue.any fun x => some x.id ≠ id && x.lock.contains word

/-- A core's bank can perform a service in this cycle: it has served no other word, and performed no other operation
on this one (R189, R190; log 21), and no TDRAIN bars the word (R299). Windows lie at granule boundaries, so b0 is 0. -/
def State.bankFree (s : State) (core : Nat) (x : Service) : Bool :=
  let u := (s.core core).used
  !s.wordLocked x.grp (some x.acc) x.word && (u.1 ≠ s.cyc core || u.2.all fun y => y.word % 32 ≠ x.word % 32 || y = x)

/-- Notes a service as performed in this cycle. -/
def State.bankUse (s : State) (core : Nat) (x : Service) : State :=
  let now := s.cyc core
  s.modCore core fun c => { c with used := (now, if c.used.1 = now then x :: c.used.2 else [x]) }

/-- The services of the words of a range of a window, one each. -/
def wordServices (g : GroupId) (acc part at_ len : Nat) : List Service :=
  (List.range ((at_ + len - 1) / 8 + 1 - at_ / 8)).map fun k => ⟨g, at_ / 8 + k, acc, part⟩

/-- The lanes that the bank ALUs can perform in this cycle, in ascending thread index: a bank serves one word in a cycle,
with one operation of it, so none before those of lower threads (R189, R190). `perf` performs one. -/
def State.performSpAll (perf : State → Acc → Lane → Lane × State) (s : State) (a : Acc) : List Lane → List Lane × State
  | [] => ([], s)
  | l :: ls =>
    let x := a.service l
    let r := if l.perf || !s.bankFree a.w.core x then (l, s) else perf (s.bankUse a.w.core x) a l
    let rest := State.performSpAll perf r.2 a ls
    (r.1 :: rest.1, rest.2)

/-- LDS and ATOMS of one wave complete in issue order (R193). -/
def State.spInOrder (s : State) (a : Acc) : Bool :=
  let ret (op : AccOp) : Bool := match op with | .spLoad | .spAtom _ => true | _ => false
  !ret a.op || s.accs.all fun b => !(b.uid = a.uid && ret b.op && b.id < a.id)

/-- The bank ALUs perform what they can of a scratchpad access in this cycle; once every thread's operation has
been performed, the instruction completes; an acquire then takes its lines out of L1 (R256). -/
def scratchpadOp (perf : State → Acc → Lane → Lane × State) (a : Acc) (s : State) : Res :=
  if s.orderOk a && s.spInOrder a && s.pastPort a then
    let r := State.performSpAll perf s a a.lanes
    let b := { a with lanes := r.1 }
    .next (if b.performed then (r.2.acquired b).complete b b.loadPuts else r.2.modAcc a.id fun _ => b)
  else .next s

/-! ### Barriers (R196–R203) -/

/-- The arrival of R197: over, or the token, the new word, and whether it completed the phase. -/
def arrival (w : W64) (n : Nat) (sat : Byte) (idx : Nat) : Option (W32 × W64 × Bool) :=
  let exp := bits w 30 16
  let cnt := bits w 14 0
  if exp = 0 || exp < cnt + n then none
  else
    let token := BitVec.ofNat 32 (phaseOf w * 2 ^ 16 + idx)
    if n = 0 then some (token, w, false)
    else
      let w := if w.getLsbD 31 then setBits w 39 32 (bits w 39 32 ||| sat.toNat) else w
      if cnt + n = exp then
        let w := setBits (setBits w 63 48 (phaseOf w + 1)) 47 40 (bits w 39 32)
        some (token, setBits (setBits w 39 32 0) 14 0 0, true)
      else some (token, setBits w 14 0 (cnt + n), false)

/-- A window whose barrier word a last arrival changes: its PHASE is that of an arrival (R208). -/
def Group.flip (g : Group) (x : Nat) (new : W64) : Group :=
  let g := g.put x (leBytes 8 new.toNat)
  { g with flips := (x, phaseOf new) :: g.flips.filter fun f => f.1 ≠ x }

/-- Offset and bounds of a barrier word. -/
def barChk (s : State) (e : Env) (h : Hdr) (x : Nat) (wait : Bool) : Chk :=
  if !e.w.uGuard h e.c0 then .ok
  else if s.memHold e.w || wait then .hold
  else winChk 8 e.winSize [(0, x)]

def execBarinit (h : Hdr) (o : BarinitOp) (s : State) : Res :=
  let x (e : Env) : Nat := (e.sr o.a).toNat + 8 * o.off.toNat
  issue (.barinit h o) h false (fun s e => barChk s e h (x e) false) (fun e s =>
    if e.w.uGuard h e.c0 then
      let arg : W64 := setBits (setBits (0#64) 14 0 (bits (e.sr o.b) 14 0)) 31 31 o.sck.toNat
      let a : Acc := { e.acc h .barinit with
        tag := .b64, ord := .rlx, sco := .grp, lanes := [Lane.mk' 0 (BitVec.ofNat 64 (x e)) (x e) arg 0 false] }
      s.addAcc (s.ordered e.w a true false)
    else done1 e h s) s

def execArrive (h : Hdr) (o : ArriveOp) (s : State) : Res :=
  let x (e : Env) : Nat := (e.sr o.a).toNat + 8 * o.off.toNat
  issue (.arrive h o) h false (fun s e => barChk s e h (x e) (o.drn && !e.w.flagsZero)) (fun e s =>
    if e.w.uGuard h e.c0 then
      let n := if o.cnti ≠ 0 then o.cnti.toNat else bits (e.sr o.b) 14 0
      let a : Acc := { e.acc h .arrive with
        tag := .b64, ord := .rel, sco := .grp, dst := .s o.d.toNat false,
        lanes := [Lane.mk' 0 (BitVec.ofNat 64 (x e)) (x e) (BitVec.ofNat 64 n) (e.w.sat.zeroExtend 64) false] }
      let id := s.nextSeq
      (s.addAcc (s.ordered e.w a true true)).modWave e.w.id fun w => { w with wait := .arrive id }
    else done1 e h s) s

/-- A partition's watchpoints of barrier events (R417) that match the word at an offset: kind 3
arrival, 4 last arrival, 5 phase flip. TVAL and WPHIT name every one that matches (R408, R411). -/
def State.barrierDue (s : State) (w : Wave) (kinds : List Nat) (x : Nat) : List Due :=
  if w.handler ≠ .none then []
  else
    let ws := (List.range 8).zip (s.part w.grp.part).wps
    let hit := ws.filter fun p =>
      let f := bits p.2.ctl 63 32
      p.2.ctl.getLsbD 7 && (f = 0 || f = w.grp.lid) && kinds.contains (bits p.2.ctl 5 3) && p.2.addr.toNat = x
    let mk (act : Bool) : List Due :=
      match hit, hit.find? fun p => p.2.ctl.getLsbD 6 = act with
      | p :: _, some m =>
        [⟨12, setBits (setBits (setBits (0#64) 50 0 x) 53 51 p.1) 54 54 1,
          if act then some (bits m.2.ctl 5 3 + 1) else none, hit.foldl (fun b p => b ||| (1#8 <<< p.1)) 0⟩]
      | _, _ => []
    mk false ++ mk true

/-- The bank ALU answers an ARRIVE (R197, R199). No thread of a parked wave arrives (R48); and an arrival, which ends its
wave's wait, does not come in the cycle of a context switch or under one, while a trap of its instruction does (R36). -/
def execBarrierArrival (id : Nat) (s : State) : Res :=
  match s.ripe id (· = .arrive) with
  | none => .next s
  | some a =>
    if !s.orderOk a || s.saving a.grp.part || ((s.waveUid? a.uid).map s.parked).getD false then .next s
    else match s.group? a.grp, a.lanes with
    | some g, l :: _ =>
      if !s.bankFree a.w.core (a.service l) then .next s else
      let old := BitVec.ofNat 64 (g.rdNat l.pa 8)
      let w? := (s.waveUid? a.uid).filter fun w => w.life = .live
      (match arrival old l.data.toNat (l.cmp.truncate 8) (l.pa / 8), w? with
       | none, none => .next ((s.bankUse a.w.core (a.service l)).dropAcc id)
       | none, some w => .next (((s.bankUse a.w.core (a.service l)).dropAcc id).trapBack { w with wait := .none } a.sf 9 (BitVec.ofNat 64 l.pa))
       | some (token, new, last), w? =>
         if s.switchDue a.grp.part then .next s else
         let s := (s.bankUse a.w.core (a.service l)).modGroup a.grp fun g => if last then g.flip l.pa new else g.put l.pa (leBytes 8 new.toNat)
         let s := s.complete a [.s (match a.dst with | .s d _ => d | _ => 0) token]
         match w? with
         | none => .next s
         | some w =>
           let ds := s.barrierDue w (if last then [3, 4] else [3]) l.pa
           .next (s.modUid a.uid fun w =>
             { w with wait := .none, notBefore := s.cyc a.w.core + 1, due := w.due ++ ds }))
    | _, _ => .next (s.dropAcc id)

/-- A deadline of a TMO code, from the timebase at the first cycle in which the instruction met R57 and R58
(R201, R206). -/
def deadlineOf (tmo : BitVec 4) (time : W64) : Option W64 :=
  if tmo = 0 then none else some (time + BitVec.ofNat 64 (2 ^ (tmo.toNat + 5)))

/-- A BWAIT or WAITA completes in this cycle: the predicate in every thread that exists, the flag, the
test of R100. -/
def Wave.waitDone (w : Wave) (pd : BitVec 7) (x : Bool) (sat : Byte) (sf : BitVec 4) (now : Nat) (ds : List Due) : Wave :=
  let w := (w.setSat (w.sat ||| sat)).land (.p pd.toNat w.present (if x then w.present else 0))
  let w := w.satTest
  { w.decSf sf now with wait := .none, notBefore := now + 1, due := w.due ++ ds }

/-- An access of the wave to the word is still to reach its home, before the wave's own read (R257 row
a). -/
def State.ownPending (s : State) (w : Wave) (sp : Bool) (pa : Nat) : Bool :=
  s.accs.any fun b => b.uid = w.uid && b.op.access && b.op.sp = sp &&
    b.lanes.any fun l => b.open_ l && !l.l1 && l.pa / 8 = pa / 8

/-- The word of a token as BWAIT and BTEST read it. -/
def State.barWord (s : State) (g : GroupId) (tok : W32) : W64 :=
  match s.group? g with
  | some g => BitVec.ofNat 64 (g.rdNat (8 * bits tok 15 0) 8)
  | none => 0

def passed (word : W64) (tok : W32) : Bool := phaseOf word ≠ bits tok 31 16

/-- A wave's BWAIT reads its word now, and completes when it has passed or when `late` says that the
deadline has come (R201, R202). While an earlier access of the wave to the word is pending, the wave does not read
it as passed, so a deadline that comes then ends the wait with 0 (DESIGN CHOICE, log 33); nor while a TDRAIN is under way on it
(R299). -/
def State.bwaitRead (s : State) (w : Wave) (pd : BitVec 7) (tok : W32) (sf : BitVec 4) (late : Bool) : State :=
  let word := s.barWord w.grp tok
  let now := s.cyc w.id.core
  let x := 8 * bits tok 15 0
  let flip := ((s.group? w.grp).map fun g => g.flips.contains (x, phaseOf word)).getD false
  if passed word tok && !s.ownPending w true x && !s.wordLocked w.grp none (x / 8) then
    (s.l1Acquire w.grp w.id.core .grp).modWave w.id fun w' => w'.waitDone pd true (if word.getLsbD 31 then BitVec.ofNat 8 (bits word 47 40) else 0) sf now
      (if flip then s.barrierDue w [5] x else [])
  else if late then s.modWave w.id fun w' => w'.waitDone pd false 0 sf now []
  else s

def execBwait (h : Hdr) (o : BwaitOp) (s : State) : Res :=
  issue (.bwait h o) h false (fun s e => barChk s e h (8 * bits (e.sr o.a) 15 0) false) (fun e s =>
    if e.w.uGuard h e.c0 then
      let tok := e.sr o.a
      let s := s.modWave e.w.id fun w => { w with wait := .bar o.pd tok (deadlineOf o.tmo (e.w.met.getD e.time)) h.sf }
      s.bwaitRead e.w o.pd tok h.sf false
    else done1 e h s) s

def execBwaitWake (id : WaveId) (s : State) : Res :=
  match s.wave? id with
  | none => .next s
  | some w =>
    match w.wait with
    | .bar pd tok _ sf => .next (if s.saving w.grp.part || s.parked w then s else s.bwaitRead w pd tok sf false)
    | _ => .next s

/-- The deadline of a wait has been reached. -/
def late (d : Option W64) (time : W64) : Bool := match d with | some d => d ≤ time | none => false

def execBwaitTimeout (id : WaveId) (s : State) : Res :=
  match s.wave? id with
  | none => .next s
  | some w =>
    match w.wait with
    | .bar pd tok d sf =>
      .next (if s.saving w.grp.part || s.parked w then s else s.bwaitRead w pd tok sf (late d s.timebase))
    | _ => .next s

def execBtest (h : Hdr) (o : BtestOp) (s : State) : Res :=
  issue (.btest h o) h false (fun s e => barChk s e h (8 * bits (e.sr o.a) 15 0) false) (fun e s =>
    if e.w.uGuard h e.c0 then
      let x := 8 * bits (e.sr o.a) 15 0
      let a : Acc := { e.acc h .btest with
        tag := .b64, ord := .acq, sco := .grp, dst := .p o.pd.toNat, args := [(e.sr o.a).zeroExtend 64],
        lanes := [Lane.mk' 0 (BitVec.ofNat 64 x) x 0 0 false] }
      s.addAcc (s.ordered e.w a false false)
    else done1 e h s) s

def execBtestComplete (id : Nat) (s : State) : Res :=
  match s.ripe id (· = .btest) with
  | none => .next s
  | some a =>
    if !s.orderOk a then .next s
    else
      let x := a.service (a.lanes.getD 0 (Lane.mk' 0 0 0 0 0 false))
      if !s.bankFree a.w.core x then .next s else
      let s := s.bankUse a.w.core x
      let tok := lo32 (a.args.getD 0 0)
      let p := passed (s.barWord a.grp tok) tok
      let all := ((s.waveUid? a.uid).map (·.present)).getD 0
      let s := if p then s.l1Acquire a.grp a.w.core .grp else s
      .next (s.complete a (match a.dst with | .p n => [.p n all (if p then all else 0)] | _ => []))

/-! ### WAITA (R205–R207) -/

/-- The condition of WAITA on a memory value. -/
def waitaCond (o : WaitaOp) (m v : W64) : Bool :=
  cmpInt o.cond (readInt o.tag (tagW o.tag) m) (readInt o.tag (tagW o.tag) v)

/-- What a read of WAITA's location at its home gives; none while it cannot be read: the wave's own access of the word,
or one of its core on the way to that home, comes first (R254, R257), a TDRAIN is under way on a window's word (R299), or a host
holds the line. -/
def State.waitaRead (s : State) (w : Wave) (o : WaitaOp) (pa : Nat) : Option W64 :=
  let n := sizeOf' o.tag
  if s.ownPending w o.spd pa then none
  else if o.spd && s.wordLocked w.grp none (pa / 8) then none
  else if o.spd then (s.group? w.grp).map fun g => BitVec.ofNat 64 (g.rdNat pa n)
  else if s.snoopHeld pa false || !s.pathFree w.id.core pa then none
  else some (BitVec.ofNat 64 (s.rdNat pa n))

/-- A read of a waiting WAITA, which its slice serves as a load (R382): completion by the condition or, when `late`, by
timeout, either an acquire with .acq; a poisoned line takes cause 6. One whose location cannot be read when its deadline
comes completes by timeout (DESIGN CHOICE, log 33). -/
def State.waitaTry (s : State) (w : Wave) (o : WaitaOp) (va : W64) (pa : Option Nat) (v : W64) (sf : BitVec 4)
    (late : Bool) : State :=
  let now := s.cyc w.id.core
  let fin (x : Bool) (s : State) : State :=
    let s := if o.acq then s.l1Acquire w.grp w.id.core o.sco else s
    s.modWave w.id fun w => w.waitDone o.pd x 0 sf now []
  let s := match pa with | some x => (if o.spd then s else s.ask x false) | none => s
  match pa.bind fun pa => s.waitaRead w o pa with
  | some m =>
    let s := if o.spd then s else s.slcTouch (s.partWays w.grp.part) (pa.getD 0) (o.sco = .sys)
    if !o.spd && (pa.map s.poisoned).getD false then s.trapBack { w with wait := .none } sf 6 va
    else if waitaCond o m v then fin true s
    else if late then fin false s else s
  | none => if late then fin false s else s

/-- WAITA's address. -/
def waitaAddr (e : Env) (o : WaitaOp) : W64 :=
  if o.spd then (e.sr o.a).zeroExtend 64 else e.srPair o.a

def waitaVal (e : Env) (o : WaitaOp) : W64 :=
  if o.tag.wide then e.srPair o.b else (e.sr o.b).zeroExtend 64

def execWaita (h : Hdr) (o : WaitaOp) (s : State) : Res :=
  let size := sizeOf' o.tag
  let xs (e : Env) : List (Nat × W64) := if e.w.reissue.isSome then [] else [(0, waitaAddr e o)]
  issue (.waita h o) h false
    (fun s e =>
      let x := waitaAddr e o
      if !e.w.uGuard h e.c0 then .ok
      else if s.memHold e.w then .hold
      else if o.spd then
        s.watchChk e true false true size (xs e) (winChk size e.winSize [(0, x.toNat)])
      else
        s.watchXlate e true false size (xs e) (addrChk size (xs e))
          (match s.xlate (some e.w.id.core) e.w.grp.part .read size (xs e) with
           | .ok ps => if ps.any fun p => s.poisoned p.2.2.1 then .trap 6 x else .ok
           | r => r.chk))
    (fun e s =>
      if e.w.uGuard h e.c0 then
        let x := waitaAddr e o
        let v := waitaVal e o
        let pa := if o.spd then some x.toNat else ((s.pasOf e .read size (xs e)).head?).map fun p => p.2.2.1
        match e.w.reissue with
        | some ⟨_, none⟩ =>      -- skipped: no access, and the predicate keeps its value
          s.modWave e.w.id fun w => { (w.satTest).decSf h.sf e.c0 with notBefore := e.c0 + 1 }
        | some ⟨_, some (_, _, m)⟩ =>
          if waitaCond o m v then s.modWave e.w.id fun w => w.waitDone o.pd true 0 h.sf e.c0 []
          else s.modWave e.w.id fun w =>
            { w with wait := .addr o x none v (deadlineOf o.tmo (e.w.met.getD e.time)) h.sf (e.c0 + 4096) }
        | none =>
          let s := s.modWave e.w.id fun w =>
            { w with wait := .addr o x pa v (deadlineOf o.tmo (e.w.met.getD e.time)) h.sf (e.c0 + 4096) }
          s.waitaTry e.w o x pa v h.sf false
      else done1 e h s) s

/-- A change at the home of a scratchpad, device-memory or CSM word is notified. -/
def State.notifies (s : State) (o : WaitaOp) (pa : Option Nat) : Bool :=
  match pa with
  | none => false
  | some pa => o.spd || pa < s.dramEnd || State.isCsm pa

def execWaitaWake (id : WaveId) (s : State) : Res :=
  match s.wave? id with
  | none => .next s
  | some w =>
    match w.wait with
    | .addr o va pa v _ sf _ => if s.notifies o pa && !s.saving w.grp.part then .next (s.waitaTry w o va pa v sf false) else .next s
    | _ => .next s

/-- The reread that comes at least once every 4,096 cycles. -/
def execWaitaPeriodicReread (id : WaveId) (s : State) : Res :=
  match s.wave? id with
  | none => .next s
  | some w =>
    match w.wait with
    | .addr o va pa v d sf at_ =>
      if at_ ≤ s.cyc id.core && !s.saving w.grp.part then
        let s := s.modWave id fun w => { w with wait := .addr o va pa v d sf (s.cyc id.core + 4096) }
        .next (s.waitaTry w o va pa v sf false)
      else .next s
    | _ => .next s

def execWaitaTimeout (id : WaveId) (s : State) : Res :=
  match s.wave? id with
  | none => .next s
  | some w =>
    match w.wait with
    | .addr o va pa v d sf _ => .next (if s.saving w.grp.part then s else s.waitaTry w o va pa v sf (late d s.timebase))
    | _ => .next s

end Sys2Proof.Machine
end

