-- ==== Sys2Proof/Machine/Traps.lean ====
section
/-!
DEFINITION. TRAP, TRAPRET, FAULTRET and DBGBRK, entry to a kernel's fault handler, and how a parked wave
goes on (R214, R215, R222, R226, R227, R414).
-/

namespace Sys2Proof.Machine

def execTrap (h : Hdr) (imm : W32) (s : State) : Res :=
  issue (.trap h imm) h true
    (fun _ e => if e.w.uGuard h e.c0 then .trapNext 16 (imm.zeroExtend 64) else .ok)
    (fun e s => done1 e h s) s

/-- TRAPRET waits for the flags; outside the trap handler it raises cause 0; in a cause-13 handler it
kills the group (R401). -/
def execTrapret (h : Hdr) (s : State) : Res :=
  issue (.trapret h) h true
    (fun _ e =>
      if !e.w.uGuard h e.c0 then .ok
      else if !e.w.flagsZero then .hold
      else if e.w.handler ≠ .trap then .trap 0 (wordVal (.trapret h))
      else .ok)
    (fun e s =>
      if !e.w.uGuard h e.c0 then
        (done1 e h s).trace e.w [.pc (e.w.pc + 12), .mask e.w.exec]
      else if e.w.tr.cause = 13 then s.stopGroup e.w.grp
      else
        let s := (done1 e h s).modWave e.w.id Wave.trapReturn
        s.trace e.w [.pc e.w.tr.tepc, .mask (e.w.tr.texec &&& e.w.present)]) s

/-- The return from a fault handler: exec and the PC come back, and the faulting instruction issues
again as `mode` says (R227). -/
def Wave.faultReturn (w : Wave) (f : FaultSave) (mode : Option (Option (W64 × Sparse 64 × W64))) : Wave :=
  { w with exec := f.exec &&& w.present
           pc := f.pc
           handler := .none
           fsave := none
           reissue := mode.map fun m => ⟨f.i, m⟩ }

def faultret (i : Instr) (h : Hdr) (mode : Env → FaultSave → Option (Option (W64 × Sparse 64 × W64))) (s : State) : Res :=
  issue i h true
    (fun _ e =>
      if !e.w.uGuard h e.c0 then .ok
      else if !e.w.flagsZero then .hold
      else if e.w.handler ≠ .fault then .trap 0 (wordVal i)
      else .ok)
    (fun e s =>
      let s := done1 e h s
      match e.w.fsave with
      | some f =>
        if e.w.uGuard h e.c0 then
          let m := mode e f
          (s.modWave e.w.id fun w => w.faultReturn f m).trace e.w
            [.pc (if m.isNone then f.pc else f.pc + 12), .mask (f.exec &&& e.w.present)]
        else s.trace e.w [.pc (e.w.pc + 12), .mask e.w.exec]
      | none => s.trace e.w [.pc (e.w.pc + 12), .mask e.w.exec]) s

def execFaultretRetry (h : Hdr) (s : State) : Res := faultret (.faultretRetry h) h (fun _ _ => none) s

def execFaultretSkip (h : Hdr) (s : State) : Res := faultret (.faultretSkip h) h (fun _ _ => some none) s

/-- The threads of FMASK take `v`; those emulated before keep their values (R227). -/
def FaultSave.emulate (f : FaultSave) (v : W64) : W64 × Sparse 64 × W64 :=
  (f.given.1 ||| f.fmask, (bitsOf f.fmask).foldl (fun m t => m.set t v) f.given.2, v)

def execFaultretEmul (h : Hdr) (a : BitVec 8) (s : State) : Res :=
  faultret (.faultretEmul h a) h (fun e f => some (some (f.emulate (e.srPair a)))) s

/-- DBGBRK's event traps, or stops the wave at the boundary after it; in a handler there is none
(R408). -/
def execDbgbrk (h : Hdr) (code : BitVec 16) (s : State) : Res :=
  let acts (e : Env) : Bool := e.w.uGuard h e.c0 && e.w.handler = .none
  issue (.dbgbrk h code) h true
    (fun s e =>
      if acts e && !(s.part e.w.grp.part).dbgctl.getLsbD 1 then .trapNext 11 (code.zeroExtend 64) else .ok)
    (fun e s =>
      let s := done1 e h s
      if acts e then s.modWave e.w.id fun w => { w with due := ⟨11, code.zeroExtend 64, some 0, 0⟩ :: w.due }
      else s) s

/-! ### A parked wave goes on (R222, R226) -/

/-- The access of an instruction that may vector to the fault handler: LDG, STG, ATOM, RED, a global
WAITA or SLDK.const. -/
def instrUhAble : Instr → Bool
  | .ldg _ _ | .stg _ _ | .atom _ _ | .red _ _ | .sldkConst _ _ _ _ => true
  | .waita _ o => !o.spd
  | _ => false

/-- The instruction makes one access per wave. -/
def oneAccess : Instr → Bool
  | .sldkConst _ _ _ _ | .waita _ _ => true
  | _ => false

/-- The one address and the size of an SLDK.const, which may reach into a second page (R76, R226). -/
def Wave.oneAddr (w : Wave) : Instr → Option (W64 × Nat)
  | .sldkConst _ wide _ imm => some (w.kern.const + imm.zeroExtend 64, if wide then 8 else 4)
  | _ => none

/-- The kernel has a fault handler, and the wave is in none (R222). -/
def Wave.canVector (w : Wave) : Bool :=
  w.kern.fhnd ≠ 0 && w.handler = .none && (w.missI.map instrUhAble).getD false

/-- Enters the fault handler with the record in s240–s255 (R226). -/
def State.faultEnter (s : State) (w : Wave) (i : Instr) (ms : List Miss) (cause lvl : Nat) : State :=
  let word := (encode i).getD 0
  let fmask := if oneAccess i then w.exec else ms.foldl (fun m x => m ||| x.threads) 0
  let low := (lowBit fmask).getD 0
  let m := (ms.find? fun m => oneAccess i || m.threads.getLsbD low).getD ⟨0, .read, 0, 0, none⟩
  let at_ := (w.oneAddr i).getD (m.va, m.size)
  let regs : List (Nat × W32) :=
    [(240, lo32 at_.1), (241, hi32 at_.1), (242, lo32 w.pc), (243, hi32 w.pc),
     (244, BitVec.ofNat 32 (at_.2 * 2 ^ 24 + bits word 7 0 * 2 ^ 16 + lvl * 2 ^ 12 + m.kind.code * 2 ^ 8 + cause)),
     (245, BitVec.ofNat 32 (low * 2 ^ 16 + 0xFFFF)), (246, lo32 w.exec), (247, hi32 w.exec),
     (248, lo32 fmask), (249, hi32 fmask), (250, BitVec.ofNat 32 (bits word 21 13)), (251, 0),
     (252, lo32 s.timebase), (253, hi32 s.timebase), (254, 0), (255, 0)]
  let s := s.modWave w.id fun w =>
    { w with
      fsave := some ⟨w.pc, w.exec, fmask, i, match w.reissue with
        | some ⟨_, some (m, vs, _)⟩ => (m, vs)
        | _ => (0, [])⟩
      reissue := none
      s := regs.foldl (fun f r => f.set r.1 r.2) w.s
      exec := fmask
      pc := w.kern.fhnd
      handler := .fault
      miss := []
      prev := none
      ctl := false }
  s.trace w [.pc w.kern.fhnd, .mask fmask]

/-- Once every miss of a parked wave is settled, it takes the lowest cause that a reply left, or enters
its fault handler, or issues its instruction again. -/
def State.settle (s : State) (uid : Nat) : State :=
  match s.waveUid? uid with
  | none => s
  | some w =>
    if w.life = .exited || w.miss.isEmpty || w.miss.any (fun m => m.settled.isNone) then s
    else
      let fails := w.miss.filterMap fun m => match m.settled with | some (.fail c) => some (c, m.va) | _ => none
      let uhs := w.miss.filterMap fun m => match m.settled with | some (.uh c l) => some (m, c, l) | _ => none
      match argMax (fun f : Nat × W64 => 32 - f.1) fails, uhs, w.missI with
      | some (c, va), _, _ => s.trapEntry w c w.pc (((w.missI.bind w.oneAddr).map (·.1)).getD va)
      | none, (_, c, l) :: _, some i => s.faultEnter w i (uhs.map (·.1)) c l
      | _, _, _ => s

end Sys2Proof.Machine
end

