-- ==== Sys2Proof/Machine/Ready.lean ====
section
/-!
DEFINITION. The head instruction of a wave, its fetch (R51, R111, R220), and the conditions that hold it,
each with the stall reason that it charges (R34, R111, R443).
-/

namespace Sys2Proof.Machine

/-! ### Fetch -/

/-- What the fetch of a wave's head gives. -/
inductive Fetch
  | word (x : BitVec 96)
  | trap (cause : Nat) (va : W64)
  | miss (va : W64)        -- no translation of the page that holds this address
  | wait                   -- the instruction cache awaits a line
  deriving DecidableEq, Repr

def State.icLine (s : State) (core line : Nat) : Option Line :=
  s.ic.find? fun l => l.core = core && l.line = line

/-- The byte of a physical address in the core's instruction cache. -/
def State.icByte (s : State) (core pa : Nat) : Option Byte :=
  (s.icLine core (pa / 128)).map fun l => l.bytes.getD (pa % 128) 0

/-- The physical address of a code byte, or why there is none. -/
def State.codePa (s : State) (core p : Nat) (va : W64) : Nat ⊕ Fetch :=
  if bits va 63 51 ≠ 0 then .inr (.trap 5 va)
  else match s.tlbHit (some core) p va .fetch with
    | none => .inr (.miss va)
    | some (pa, _) =>
      match s.classHit (some core) p va .fetch with
      | some c => .inr (.trap c va)
      | none => .inl pa

/-- The fetch at the wave's PC: alignment and range first, then the translations of the pages that the
bytes span, the lower one first (R52, R215). -/
def State.fetch (s : State) (w : Wave) : Fetch :=
  if bits w.pc 1 0 ≠ 0 then .trap 3 w.pc
  else
    let p := w.grp.part
    match s.codePa w.id.core p w.pc, s.codePa w.id.core p (w.pc + 11) with
    | .inr f, _ => f
    | .inl _, .inr f => f
    | .inl lo, .inl hi =>
      let at_ (i : Nat) : Nat := if pageOf (w.pc + BitVec.ofNat 64 i) = pageOf w.pc then lo + i else hi + i - 11
      if s.poisoned lo then .trap 6 w.pc
      else if s.poisoned hi then .trap 6 (w.pc + 11)
      else
        let bs := (List.range 12).map fun i => s.icByte w.id.core (at_ i)
        if bs.all (·.isSome) then .word (bytesWord (bs.map fun b => b.getD 0)) else .wait

/-- Lines of a core's instruction cache: 128 KiB (R7). -/
def icSize : Nat := 1024

/-- A line leaves a full instruction cache: which one is open, so a free value picks it (log 30). -/
def State.icEvict (s : State) (core : Nat) : State :=
  let ks := (s.ic.zipIdx.filter fun x => x.1.core = core).map (·.2)
  if ks.length ≤ icSize then s
  else
    let (x, s) := s.free
    { s with ic := s.ic.eraseIdx (ks.getD (1 + x.toNat % (ks.length - 1)) 0) }

/-- The lines that a fetch awaits arrive in the core's instruction cache (R111). -/
def State.icFill (s : State) (w : Wave) : State :=
  let p := w.grp.part
  match s.codePa w.id.core p w.pc, s.codePa w.id.core p (w.pc + 11) with
  | .inl lo, .inl hi =>
    [lo / 128, hi / 128].foldl (fun s line =>
      if (s.icLine w.id.core line).isSome then s
      else if s.snoopHeld (128 * line) false then s.ask (128 * line) false
      else ({ (s.slcTouch (s.partWays p) (128 * line) false) with ic := ⟨w.id.core, line, s.rdBytes (128 * line) 128, []⟩ :: s.ic }).icEvict w.id.core) s
  | _, _ => s

/-- The fetch of a wave returns. -/
def execInstructionFetchReturn (id : WaveId) (s : State) : Res :=
  match s.wave? id with
  | none => .next s
  | some w => if s.fetch w = .wait then .next (s.icFill w) else .next s

/-! ### The head instruction -/

/-- The word that path `k` of an XVI runs: its key, with the SF of the XVI and no other scheduling field
(R133, R135). -/
def Xvi.word (x : Xvi) (k : Nat) : Option (BitVec 96) :=
  (x.paths[k]?).map fun p => p.1 ||| (x.sf.zeroExtend 96 <<< 89)

/-- The fields of an instruction with an encoding. -/
def fieldsOf (i : Instr) : Fields := (encodeFields i).getD (Fields.unpack 0)

/-- What a wave is to issue next. -/
inductive Head
  | instr (i : Instr)
  | bad (f : Fields) (cause : Nat) (val : W64)    -- a word that is no instruction (R53, R54)
  | fetch (f : Fetch)
  deriving DecidableEq, Repr

/-- A word as a head: illegal words take cause 0, words with a reserved field cause 1, but cause 0 first
for an operand outside the allotment (R55, R66). -/
def headOf (a : Allot) (x : BitVec 96) : Head :=
  let f := Fields.unpack x
  match decode x with
  | .illegal => .bad f 0 (x.truncate 64)
  | .ok i resv => if !i.fits a then .bad f 0 (x.truncate 64) else if resv then .bad f 1 (x.truncate 64) else .instr i

/-- The check of an instruction's own that raises cause 0 at issue (R123, R130, R212, R215, R227), which comes before
the cause 1 of a reserved field (R209). -/
def State.ownIllegal (s : State) (w : Wave) (i : Instr) : Bool :=
  let e := mkEnv s w ((fieldsOf i).u == 1) i
  match i with
  | .xvi _ _ _ => w.handler ≠ .none
  | .exitSucc h idx kovr k => w.uGuard h e.c0 && (w.succOk idx kovr k).isNone
  | .csrr h _ n => w.uGuard h e.c0 && (csrRead e n.toNat).isNone
  | .csrw h n _ => w.uGuard h e.c0 && ((csrRead e n.toNat).isNone || !csrRw n.toNat)
  | .trapret h => w.uGuard h e.c0 && w.handler ≠ .trap
  | .faultretRetry h | .faultretSkip h | .faultretEmul h _ => w.uGuard h e.c0 && w.handler ≠ .fault
  | _ => false

/-- The head that a word is to a wave. -/
def State.wordHead (s : State) (w : Wave) (x : BitVec 96) : Head :=
  match headOf w.allot x with
  | .bad f c v =>
    (match decode x with
     | .ok i true => if s.ownIllegal w i then .bad f 0 v else .bad f c v
     | _ => .bad f c v)
  | h => h

def State.head (s : State) (w : Wave) : Head :=
  match w.reissue with
  | some r => .instr r.i
  | none =>
    match (if w.inPath then w.xvi.bind fun x => x.word x.next else none) with
    | some x => s.wordHead w x
    | none =>
      match s.fetch w with
      | .word x => s.wordHead w x
      | f => .fetch f

/-- A memory instruction (R246). -/
def isMem (i : Instr) : Bool :=
  let f := fieldsOf i
  let o := f.opc.toNat
  (0x90 ≤ o && o ≤ 0x98) || (0xA0 ≤ o && o ≤ 0xA6) || (0xC8 ≤ o && o ≤ 0xCB) || (0xCD ≤ o && o ≤ 0xCF) ||
  (match i with
   | .sldkConst _ _ _ _ | .launchEnq _ _ _ | .tmma _ _ | .tdrainSt _ _ | .tdrainAddst _ _ | .cpy _ _ => true
   | _ => false)

/-- The instruction uses the quarter's scratchpad port (R189). BARINIT, ARRIVE, BWAIT, BTEST and WAITA.sp have no beats
there and pass it by (DESIGN CHOICE, log 16). -/
def usesPort : Instr → Bool
  | .lds _ _ | .sts _ _ | .atoms _ _ | .reds _ _ | .blend _ _ => true
  | _ => false

/-! ### Footprints (R274, R277) -/

/-- A quarter lies on the footprint of a group at a core, whose wave 0 is in quarter `q0`. -/
def footCovers (fp at_ q0 core q : Nat) : Bool :=
  match fp with
  | 1 => core = at_ && q = q0
  | 2 => core = at_
  | 3 => core / 4 = at_ / 4
  | _ => false

def Group.covers (g : Group) (fp core q : Nat) : Bool := footCovers fp g.core g.q0 core q

/-- The lanes of a tile form the array: it is running, or killed with slabs in flight (R276, R288). -/
def Tile.running (t : Tile) : Bool := (t.owner.isSome && !t.ann) || !t.flight.isEmpty

/-- The tile's owner is another wave, and its array covers the wave's quarter: the wave's vector
instructions do not issue (R277). -/
def State.lanesHeld (s : State) (w : Wave) : Bool :=
  s.groups.any fun g => match g.tile with
    | none => false
    | some t => t.running && t.owner ≠ some w.uid && g.covers t.fp w.id.core w.id.q

/-- A chained TMMA of an outstanding copy of the wave has not entered the queue (R307). -/
def State.chainDue (s : State) (w : Wave) : Bool :=
  let ch := (s.core w.id.core).chan
  let due (c : Copy) : Bool := c.uid = w.uid && c.stat = .outstanding && c.chained = some false
  ch.fifo.any due || ch.slots.any fun sl => (sl.cmd.map due).getD false

/-! ### What holds a wave (R34, R111) -/

/-- Stall reasons of an entry's own conditions. -/
def State.entryHolds (s : State) (w : Wave) (i : Instr) : List Nat :=
  let e := mkEnv s w ((fieldsOf i).u == 1) i
  let on (h : Hdr) : Bool := e.w.uGuard h e.c0
  let flags (h : Hdr) : List Nat := if on h && !w.flagsZero then [2] else []
  let full (h : Hdr) : List Nat :=
    if on h && 4 ≤ ((s.ownTile w).map fun t => t.queue.length).getD 0 then
      [if ((s.ownTile w).map (·.ann)).getD false then 10 else 9] else []
  match i with
  | .waitc h f n => if on h && n.toNat < w.flag f.toNat then [2] else []
  | .exit h | .exitSucc h _ _ _ => if e.ownsTile then [] else flags h
  | .trapret h | .faultretRetry h | .faultretSkip h | .faultretEmul h _ => flags h
  | .arrive h o => if o.drn then flags h else []
  | .tmma h _ | .tzero h _ | .tdrainSt h _ | .tdrainAddst h _ | .gprog h _ => full h
  | .unlink h => full h ++ (if on h && s.chainDue w then [if ((s.ownTile w).map (·.ann)).getD false then 10 else 9] else [])
  | .cpy h o => if on h && (8 ≤ (s.core w.id.core).chan.fifo.length || w.hpend.contains o.h.toNat) then [5] else []
  | .launchEnq h _ a =>
    if on h && (e.srPair a).toNat % 64 = 0 && bits (e.srPair a) 63 51 = 0 &&
        256 ≤ (s.jobs.filter fun j => j.part = w.grp.part && j.q.isNone).length then [15] else []
  | .cctlInv h rng => if s.cctlHeld e h rng then [15] else []
  | i => if ((blockVa e i).map (s.blockWait w)).getD false then [15] else []

/-- Stall reasons of an instruction at the head, but for linked lanes. -/
def State.instrHolds (s : State) (w : Wave) (i : Instr) : List Nat :=
  let now := s.cyc w.id.core
  let f := fieldsOf i
  let h := f.hdr
  let q := ((s.core w.id.core).quarters[w.id.q]?).getD ⟨0, [], 0⟩
  let sched : List Nat := match w.xvi with
    | some x => if w.inPath then (if now < x.start then [1] else []) else []
    | none => []
  let st := if w.reissue.isSome || w.inPath then (if now < w.stAt { h with st := 0 } then [1] else [])
    else if now < w.stAt h then [1] else []
  let wt := if w.reissue.isSome || w.inPath then [] else if w.wtOk h then [] else [2]
  if !i.fits w.allot || (queueMisuse w i now).isSome then sched ++ st ++ wt
  else
    sched ++ st ++ wt ++ (if w.sfOk h then [] else [2]) ++
    (if (takeEntries w.q i.pops []).any fun x => match x.2 with | none => false | some e => !e.ready now then [3] else []) ++
    (match i.pushPort with
     | some (p, wide) => if (w.q.getD p.toNat ⟨[], []⟩).free w.kern.qd now < (if wide then 2 else 1) then [4] else []
     | none => []) ++
    (if i.handles.any fun n => w.hpend.contains n.toNat then [5] else []) ++
    (if usesPort i && !q.port.isEmpty then [11] else []) ++
    (if (isMem i && s.memHold w) || (f.u == 0 && now < q.array) then [15] else []) ++
    s.entryHolds w i

/-- Stall reasons of what holds a wave that has begun to wait. -/
def State.waitHolds (s : State) (w : Wave) : List Nat :=
  match w.wait with
  | .none => []
  | .sleep _ => [15]
  | .bar _ _ _ _ | .arrive _ => [6]
  | .addr _ _ _ _ _ _ _ => [7]
  | .handle _ => [5]
  | .link _ _ => [9]
  | .unlink => [if ((s.ownTile w).map (·.ann)).getD false then 10 else 9]

/-- A stop holds the wave (R409). -/
def Wave.stopped (w : Wave) : Bool := !w.dstate.isRun

/-- What the head holds a wave by: its own conditions, or its fetch, with the distance after a control transfer that
runs meanwhile (R52, R107, R443). -/
def State.headHolds (s : State) (w : Wave) : List Nat :=
  let now := s.cyc w.id.core
  let dist : List Nat := if now < w.stAt (Fields.unpack 0).hdr then [1] else []
  match s.head w with
  | .instr i => s.instrHolds w i
  | .bad f _ _ => (if now < w.stAt f.hdr then [1] else []) ++ (if w.wtOk f.hdr then [] else [2])
  | .fetch .wait => 12 :: dist
  | .fetch (.miss _) => 8 :: dist
  | .fetch _ => dist

/-- The head is a word that is no instruction, whose ST and WT hold: only a stop, a park, or a wait that has begun
keeps its trap from the selection (R55). -/
def State.badReady (s : State) (w : Wave) : Bool :=
  match s.head w with
  | .bad _ _ _ => (s.headHolds w).isEmpty
  | _ => false

/-- Every condition that keeps a live wave from issuing, but for a stop, the issue slot, gating and linked lanes, as stall
reasons (R34, R443). A parked wave's head, and that of one that sleeps, may be held by more than that; a SLEEP does not hold
a head that is no instruction (R55). -/
def State.heldBy (s : State) (w : Wave) : List Nat :=
  let now := s.cyc w.id.core
  let early : List Nat := if now < w.notBefore then [1] else []
  if s.parked w then 8 :: (s.waitHolds w ++ early ++ s.headHolds w)
  else match w.wait with
    | .none => if early.isEmpty then s.headHolds w else early
    | .sleep _ =>
      if s.badReady w && early.isEmpty then []
      else 15 :: (early ++ (s.headHolds w).filter fun r => r ≠ 8)
    | _ => s.waitHolds w ++ early

/-- The same with a stop, which holds a wave beside what holds its head (R409, R443). A stopped wave's fetch parks it only
once it runs again. -/
def State.holds (s : State) (w : Wave) : List Nat :=
  if w.stopped then 15 :: (s.heldBy w).filter fun r => r ≠ 8 || s.parked w else s.heldBy w

/-- A host's copy of the header or descriptor that the head reads at issue is asked for. -/
def State.askBlock (s : State) (w : Wave) : State :=
  if w.life = .exited || w.wait ≠ .none || w.awaits || s.saving w.grp.part then s
  else match s.head w with
    | .instr i =>
      match (blockVa (mkEnv s w ((fieldsOf i).u == 1) i) i).bind (s.blockAt w) with
      | some (pa, _) => s.ask pa false
      | none => s
    | _ => s

/-- The head instruction is a vector one, for linked lanes. -/
def State.vecHead (s : State) (w : Wave) : Bool :=
  match s.head w with
  | .instr i => (fieldsOf i).u == 0
  | _ => false

/-- A vector instruction at the head waits for linked lanes (R277). -/
def State.lanesWait (s : State) (w : Wave) : Bool := s.lanesHeld w && s.vecHead w

/-- The wave waits on linked lanes (R34, R277): LINK, or a vector instruction that nothing else holds. -/
def State.linkHeld (s : State) (w : Wave) : Bool :=
  match w.wait with
  | .link _ _ => true
  | .none => s.lanesWait w && (s.holds w).isEmpty
  | _ => false

/-- The waves of a quarter that have not exited. -/
def State.liveAt (s : State) (core q : Nat) : List Wave :=
  s.waves.filter fun w => w.id.core = core && w.id.q = q && w.life = .live

/-- Every condition of R111 but the last, and the wave's own YIELD and YL apart. -/
def State.willing (s : State) (w : Wave) : Bool :=
  !s.saving w.grp.part && (match w.prev with | some c => c < s.cyc w.id.core | none => true) &&
  (s.holds w).isEmpty && !s.lanesWait w

/-- The slot is in the middle of another instruction's beats. -/
def State.slotBusy (s : State) (core q : Nat) : Bool :=
  s.cyc core < (((s.core core).quarters[q]?).getD ⟨0, [], 0⟩).busy

/-- Its own YIELD keeps the wave back, unless its head is no instruction (R55, R125). -/
def State.yielding (s : State) (w : Wave) : Bool := 1 < w.yield && !s.badReady w

/-- Among the willing waves of a quarter, one other than `w` is eligible, whatever its own pass-over: its YIELD
does not hold it (R114, R125). -/
def State.anyOther (s : State) (cs : List Wave) (w : Wave) : Bool := cs.any fun x => x.uid ≠ w.uid && !s.yielding x

/-- The wave's YIELD holds it in this cycle: another wave of its quarter is eligible (R125). -/
def State.yieldHeld (s : State) (w : Wave) : Bool :=
  s.yielding w && !s.slotBusy w.id.core w.id.q &&
  s.anyOther ((s.liveAt w.id.core w.id.q).filter s.willing) w

/-- Ready but for linked lanes (R277): every condition of R111, the issue slot among them. A wave that waits at LINK has its
head behind it and does not count, for R41 and R43 alike (DESIGN CHOICE, log 96). -/
def State.readyWave (s : State) (w : Wave) : Bool :=
  w.life = .live && (s.holds w).isEmpty && !s.slotBusy w.id.core w.id.q && !s.yieldHeld w

end Sys2Proof.Machine
end

