-- ==== Sys2Proof/Machine/Grid.lean ====
section
/-!
DEFINITION. The grid: LINK, the tile's command queue and sequencer, slabs and their boundaries, anneal
state and relink, and TDRAIN (R274–R299, R41–R45, R101–R103).
-/

namespace Sys2Proof.Machine

/-! ### Shapes (R278) -/

def Blk.dims : Blk → Nat × Nat
  | .b1x1 => (1, 1)
  | .b2x1 => (2, 1)
  | .b1x2 => (1, 2)
  | .b2x2 => (2, 2)

/-- N of a footprint. -/
def gridN (fp : Nat) : Nat := if fp = 1 then 4 else if fp = 2 then 8 else 16

/-- The quarter, counted from the first of the footprint, and the lane that hold PE (i, j): blocks of 4 × 4 PEs lie
row-major (R9). For G16 the quarter counts those of a core, with the core's number in the cluster. -/
def pePlace (fp i j : Nat) : Nat × Nat × Nat :=
  let lane := 4 * (i % 4) + j % 4
  match fp with
  | 1 => (0, 0, lane)
  | 2 => (0, 2 * (i / 4) + j / 4, lane)
  | _ => (i / 4, j / 4, lane)

/-- The core and quarter that hold PE (i, j) of a group's grid, and its lane there (R9, R274). -/
def Group.peAt (g : Group) (fp i j : Nat) : Nat × Nat × Nat :=
  let x := pePlace fp i j
  match fp with
  | 1 => (g.core, g.q0, x.2.2)
  | 2 => (g.core, x.2)
  | _ => (g.core / 4 * 4 + x.1, x.2)

/-- Where element (r, c) lies: the key of its accumulator in `Tile.accs`, which the lane of R9 holds. -/
def accKey (n bn r c : Nat) : Nat := ((r / n * bn + c / n) * 16 + r % n) * 16 + c % n

/-- The valid rows and columns of a GVAL value; 0 means all of them (R280). -/
def validOf (gval : W32) (tr tc : Nat) : Nat × Nat :=
  let vr := bits gval 5 0
  let vc := bits gval 21 16
  (if vr = 0 then tr else vr, if vc = 0 then tc else vc)

/-- The slab width of an operand format (R101). -/
def slabW (fmt : Tag) (i4 : Bool) : Nat :=
  match fmt with
  | .bf16 | .f16 => 8
  | .mx4 | .l6 => 32
  | .i8 => if i4 then 32 else 16
  | _ => 16

def stepsOf (o : TmmaOp) (k : Nat) : Nat := let w := slabW o.fmt o.i4; (k + w - 1) / w

/-! ### Operands and slab sums (R279, R102, R103) -/

/-- The bytes of a row or column that hold elements from `lo` to `hi`, as offsets. -/
def elemSpan (fmt : Tag) (i4 : Bool) (lo hi : Nat) : Nat × Nat :=
  match fmt with
  | .bf16 | .f16 => (2 * lo, 2 * hi + 1)
  | .mx4 => (lo / 2, hi / 2)
  | .l6 => (3 * (lo / 4) + lo % 4 * 6 / 8, 3 * (hi / 4) + (hi % 4 * 6 + 5) / 8)
  | .i8 => if i4 then (lo / 2, hi / 2) else (lo, hi)
  | _ => (lo, hi)

/-- The element format of a microscaled format (R86). -/
def elemTag : Tag → Tag
  | .mx8 => .e4m3
  | .mx4 => .e2m1
  | t => t

/-- Element k of a row or column, read through `rd`, the byte at an offset. -/
def elemCode (fmt : Tag) (i4 : Bool) (rd : Nat → Byte) (k : Nat) : Nat :=
  let nib : Nat := ((rd (k / 2)).toNat / (if k % 2 = 0 then 1 else 16)) % 16
  match fmt with
  | .bf16 | .f16 => (rd (2 * k)).toNat + 256 * (rd (2 * k + 1)).toNat
  | .mx4 => nib
  | .l6 =>
    let g := 3 * (k / 4)
    let lo := k % 4 * 6 / 8
    let two := (rd (g + lo)).toNat + (if (k % 4 * 6 + 5) / 8 = lo then 0 else 256 * (rd (g + lo + 1)).toNat)
    two / 2 ^ (k % 4 * 6 % 8) % 64
  | .i8 => if i4 then nib else (rd k).toNat
  | _ => (rd k).toNat

/-- The unit of slab sums is 2^−600. -/
def slabUnit : Nat := 2 ^ 600

def Val.sum : Val → SlabSum
  | .nan => .nan
  | .inf n => .inf n
  | .fin neg n d => let x : Int := ((n * slabUnit / d : Nat) : Int); .fin (if neg then -x else x)

def SlabSum.add : SlabSum → SlabSum → SlabSum
  | .nan, _ | _, .nan => .nan
  | .inf a, .inf b => if a = b then .inf a else .nan
  | .inf a, _ | _, .inf a => .inf a
  | .fin x, .fin y => .fin (x + y)

/-- The value of a sum. DESIGN CHOICE (log 9): an exactly zero one is +0, whatever the signs of its products. -/
def SlabSum.val : SlabSum → Val
  | .nan => .nan
  | .inf n => .inf n
  | .fin x => .fin (x < 0) x.natAbs slabUnit

/-- 2^(X − 127), or NaN (R86). -/
def e8m0 (x : Byte) : Val :=
  if x = 0xFF then .nan else let nd := scale2 1 ((x.toNat : Int) - 127); .fin false nd.1 nd.2

/-- One exact product (R89, R102): a microscaled one takes both scales. -/
def gridProd (fmt : Tag) (i4 : Bool) (a b : Nat) (xa xb : Byte) : SlabSum :=
  match fmt with
  | .l6 => .fin (l6prod a b * 2 ^ 581)
  | .i8 => let w := if i4 then 4 else 8; .fin (signedOf w a * signedOf w b * slabUnit)
  | .mx8 | .mx4 =>
    let t := elemTag fmt
    ((((tagVal t a).mul (tagVal t b)).mul (e8m0 xa)).mul (e8m0 xb)).sum
  | _ => ((tagVal fmt a).mul (tagVal fmt b)).sum

/-! ### The tile's state and its owner -/

def State.modTile (s : State) (g : GroupId) (f : Tile → Tile) : State :=
  s.modGroup g fun x => { x with tile := x.tile.map f }

def State.tile? (s : State) (g : GroupId) : Option (Group × Tile) :=
  (s.group? g).bind fun x => x.tile.map fun t => (x, t)

def State.ownerWave (s : State) (t : Tile) : Option Wave := t.owner.bind s.waveUid?

/-- Every wave on a tile's footprint. -/
def State.onFootprint (s : State) (g : Group) (fp : Nat) : List Wave :=
  s.waves.filter fun w => g.covers fp w.id.core w.id.q && w.life = .live

/-- A footprint wave other than `uid` is ready with a base priority above `prio`, or was ready and has issued in this
cycle (R41, R277). A SETPRI counts from the cycle after it takes effect (R365). -/
def State.outranked (s : State) (g : Group) (fp uid prio : Nat) : Bool :=
  (s.onFootprint g fp).any fun w => w.uid ≠ uid && prio < w.tprio &&
    (s.readyWave w || (w.last = s.cyc w.id.core && w.prev.isSome))

/-- Two footprints share a quarter. -/
def footOverlap (a : Group) (fa : Nat) (b : Group) (fb : Nat) : Bool :=
  (List.range 4).any fun k => (List.range 4).any fun q =>
    let core := a.core / 4 * 4 + k
    a.covers fa core q && b.covers fb core q

/-- No other tile's array lies on the footprint (R276, R285, R292). -/
def State.lanesFree (s : State) (g : Group) (fp : Nat) : Bool :=
  s.groups.all fun x => x.id = g.id || (match x.tile with
    | none => true
    | some t => !t.running || !footOverlap g fp x t.fp)

/-- Every vector-register result of fixed latency on the footprint is written (R285, R292). -/
def State.footSettled (s : State) (g : Group) (fp : Nat) : Bool :=
  (s.onFootprint g fp).all fun w => w.pend.all fun p => match p.put with | .v _ _ => false | _ => true

/-- No RBOX has borrowed lanes of the footprint (R325). -/
def State.arraysFree (s : State) (g : Group) (fp : Nat) : Bool :=
  (List.range 4).all fun k => (List.range 4).all fun q =>
    let core := g.core / 4 * 4 + k
    !g.covers fp core q || (((s.core core).quarters[q]?).getD ⟨0, [], 0⟩).array ≤ s.cyc core

/-! ### Issue of the grid instructions (R290, R291) -/

/-- The lowest of the causes found. -/
def lowest (l : List (Nat × W64)) : Chk :=
  match argMax (fun x : Nat × W64 => 32 - x.1) l with
  | some x => .trap x.1 x.2
  | none => .ok

/-- The causes of a TMMA's operands. -/
def tmmaBad (nacc : Nat) (o : TmmaOp) (k : W32) (a b : W64) : List (Nat × W64) :=
  let dims := Blk.dims o.blk
  let n := k.toNat
  let mx := o.fmt = .mx8 || o.fmt = .mx4
  (if nacc < dims.1 * dims.2 then [(14, 0)] else []) ++
  (if n = 0 || 2 ^ 20 < n || (mx && n % 32 ≠ 0) then [(14, 0)] else []) ++
  ([a, b].filter fun x => x.toNat % 4 ≠ 0).map (fun x => (3, x)) ++
  ([a, b].filter fun x => bits x 63 51 ≠ 0).map (fun x => (5, x))

/-- Bytes of a TDRAIN destination. -/
def drainSize : Tag → Nat
  | .bf16 | .f16 => 2
  | .a36 | .i36 => 8
  | _ => 4

/-- The causes of a TDRAIN's operands: the full tile is judged. TVAL is the base, whichever of base, stride and extent is at
fault (DESIGN CHOICE, log 96). -/
def tdrainBad (t : Tile) (o : TdrainOp) (base : W64) (stride : W32) (win : Nat) : List (Nat × W64) :=
  let dims := Blk.dims o.blk
  let n := gridN t.fp
  let size := drainSize o.dst
  let last := base.toNat + (n * dims.1 - 1) * stride.toNat + n * dims.2 * size
  (if t.nacc < dims.1 * dims.2 then [(14, 0)] else []) ++
  (if base.toNat % size ≠ 0 || stride.toNat % size ≠ 0 then [(3, base)] else []) ++
  (if (if o.spd then win < last else 2 ^ 51 < last) then [(5, base)] else [])

/-- A reservation of nothing, for the operand checks of a kernel with GFP = 0. -/
def noTile : Tile :=
  { fp := 1, nacc := 4, accs := [], regs := [], queue := [], owner := none, ann := false, annAt := 0, annAge := 0, runAt := 0,
    inj := none, staged := [], flight := [], stopAt := none, fault := false, seq := 0, miss := [] }

/-- The checks of an instruction for the owner's tile: ownership, its own causes, then what holds it. -/
def ownerOnly (h : Hdr) (bad : Env → Tile → List (Nat × W64)) (mem : Bool) (s : State) (e : Env) : Chk :=
  if !e.w.uGuard h e.c0 then .ok
  else match e.g.bind (·.tile) with
    | none => lowest ((14, 0) :: bad e noTile)
    | some t =>
      if t.owner ≠ some e.w.uid then lowest ((14, 0) :: bad e t)
      else match lowest (bad e t) with
        | .ok =>
          if (mem && s.memHold e.w) || 4 ≤ t.queue.length || !(s.entryHolds e.w e.id).isEmpty then .hold else .ok
        | c => c

/-- A command enters the tile's queue (R281). -/
def State.enqueue (s : State) (g : GroupId) (core : Nat) (x : GEntry) : State :=
  s.modTile g fun t => { t with queue := t.queue ++ [x], seq := max t.seq (s.cyc core + 1) }

/-- A command as it is queued. -/
def GEntry.mk' (id : Nat) (c : GCmd) (sf : BitVec 4) (after rel : List Nat) : GEntry :=
  { id := id, cmd := c, sf := sf, started := false, chain := none, after := after, rel := rel, regs := [], pages := [], sat := false, done := 0, lock := [], cls := 0 }

/-- A command enters the queue under the next number of accesses. -/
def State.post (s : State) (e : Env) (h : Hdr) (c : GCmd) (after rel : List Nat) : State :=
  { s with nextSeq := s.nextSeq + 1 }.enqueue e.w.grp e.w.id.core (GEntry.mk' s.nextSeq c h.sf after rel)

/-- Issue of a command: with a false guard it has only the effects of R56. -/
def command (i : Instr) (h : Hdr) (bad : Env → Tile → List (Nat × W64)) (mem : Bool)
    (c : Env → GCmd) (after rel : State → Env → List Nat) (s : State) : Res :=
  issue i h true (ownerOnly h bad mem) (fun e s =>
    if e.w.uGuard h e.c0 then s.post e h (c e) (after s e) (rel s e)
    else done1 e h s) s

/-- A waiting LINK completes in the first cycle in which every condition of R292 holds: the lanes become the array,
and the wave may issue again in the next cycle. A second LINK of the group waits on while another wave owns the tile (R291;
DESIGN CHOICE, log 91). -/
def State.tryLink (s : State) (id : WaveId) : State :=
  match s.wave? id with
  | none => s
  | some w =>
    match w.wait, s.tile? w.grp with
    | .link sf _, some (g, t) =>
      if !s.saving w.grp.part && t.owner.isNone && !t.running && s.lanesFree g t.fp && s.arraysFree g t.fp && s.footSettled g t.fp &&
          !s.outranked g t.fp w.uid w.tprio then
        let now := s.cyc id.core
        let s := s.modTile w.grp fun t =>
          { t with owner := some w.uid, ann := false, runAt := now, inj := none, stopAt := none, fault := false,
                   seq := now + 1, miss := [] }
        s.modWave id fun w => { w.decSf sf now with wait := .none, notBefore := now + 1 }
      else s
    | _, _ => s

/-- LINK completes in its cycle of issue where it may; otherwise it waits in its wave, uncharged in that cycle, and completes
without the slot (R291, R292; DESIGN CHOICE, log 86). -/
def execLink (h : Hdr) (s : State) : Res :=
  issue (.link h) h true
    (fun _ e =>
      if !e.w.uGuard h e.c0 then .ok
      else match e.g with
        | none => .trap 14 0
        | some g => match g.tile with
          | none => .trap 14 0
          | some t => if t.owner.isSome || !g.covers t.fp e.w.id.core e.w.id.q then .trap 14 0 else .ok)
    (fun e s =>
      if e.w.uGuard h e.c0 then (s.modWave e.w.id fun w => { w with wait := .link h.sf e.c0 }).tryLink e.w.id
      else done1 e h s) s

def execLinkComplete (id : WaveId) (s : State) : Res := .next (s.tryLink id)

/-- UNLINK enters the queue and holds its owner (R293, R307). -/
def execUnlink (h : Hdr) (s : State) : Res :=
  issue (.unlink h) h true (ownerOnly h (fun _ _ => []) false) (fun e s =>
    if e.w.uGuard h e.c0 then
      (s.post e h .unlink [] []).modWave e.w.id fun w => { w with wait := .unlink }
    else done1 e h s) s

/-- What must be at home before an engine's first read. A command that acquires is a release of the wave at its issue;
each is a store-class access for a FENCE, and comes after what has left the core, which another wave of the group may have
released at .wave or .grp (R247, R257, R259; log 28). -/
def State.engineFirst (s : State) (w : Wave) (acq : Bool) : List Nat :=
  (if acq then s.pendingIds w.uid else []) ++ s.leftIds w.id.core ++ w.relAfter ++ w.relNear

def engineAfter (acq : Bool) (s : State) (e : Env) : List Nat := s.engineFirst e.w acq

/-- What the wave's earlier accesses are to a command that releases (R257 row b). -/
def engineRel (rel : Bool) (s : State) (e : Env) : List Nat := if rel then s.pendingIds e.w.uid else []

/-- No access comes first. -/
def noIds (_ : State) (_ : Env) : List Nat := []

def execTmma (h : Hdr) (o : TmmaOp) (s : State) : Res :=
  command (.tmma h o) h (fun e t => tmmaBad t.nacc o (e.sr o.k) (e.srPair o.a) (e.srPair o.b)) true
    (fun e => .tmma o (e.sr o.k) (e.srPair o.a) (e.srPair o.b)) (engineAfter o.acq) noIds s

def execTzero (h : Hdr) (mask : BitVec 4) (s : State) : Res :=
  command (.tzero h mask) h (fun _ t => if mask.toNat < 2 ^ t.nacc then [] else [(14, 0)]) false
    (fun _ => .tzero mask) noIds noIds s

/-- TDRAIN's destination: a pair, or a window offset. -/
def drainBase (e : Env) (o : TdrainOp) : W64 := if o.spd then (e.sr o.a).zeroExtend 64 else e.srPair o.a

def tdrain (i : Instr) (h : Hdr) (o : TdrainOp) (add : Bool) (s : State) : Res :=
  command i h (fun e t => tdrainBad t o (drainBase e o) (e.sr o.b) e.winSize) true
    (fun e => .tdrain add o (drainBase e o) (e.sr o.b)) (engineAfter false) (engineRel o.rel) s

def execTdrainSt (h : Hdr) (o : TdrainOp) (s : State) : Res := tdrain (.tdrainSt h o) h o false s
def execTdrainAddst (h : Hdr) (o : TdrainOp) (s : State) : Res := tdrain (.tdrainAddst h o) h o true s

def execGprog (h : Hdr) (o : GprogOp) (s : State) : Res :=
  command (.gprog h o) h (fun _ _ => []) false
    (fun e => match o.dir with
      | .wr a => .gwr o.reg.toNat (e.sr a)
      | .rd d => .grd o.reg.toNat d) noIds noIds s

/-! ### Completion and stops (R287) -/

/-- A command's completion in the owner: its flag, and what it lands. -/
def State.gridDone (s : State) (t : Tile) (x : GEntry) (core : Nat) (ps : List Put) : State :=
  match t.owner with
  | none => s
  | some uid => s.modUid uid fun w =>
      if w.life = .exited then w else ((ps.foldl Wave.land w).marks (s.cyc core) ps).decSf x.sf (s.cyc core)

/-- The head command completes: the next one starts in the next cycle; a chaining copy hears of it. -/
def State.gridPop (s : State) (g : Group) (t : Tile) (x : GEntry) (ps : List Put) : State :=
  let s := s.gridDone t x g.core ps
  s.modTile g.id fun t =>
    { t with queue := t.queue.tail, seq := s.cyc g.core + 1, inj := none, staged := [], miss := [] }

/-- A wave that waits or is parked is back at its head instruction, for a trap that comes even then
(R287, R401): an instruction that has begun to wait counts on its flag no more. An arrival that is under way ends first. -/
def Wave.unwait (w : Wave) : Wave :=
  let back (sf : Option (BitVec 4)) : Wave :=
    let flags := match sf with
      | some f => if f.toNat < 12 then w.flags.set f.toNat (w.flags.get f.toNat - 1) else w.flags
      | none => w.flags
    { w with wait := .none, pc := w.pc - 12, flags := flags }
  match w.wait with
  | .sleep _ => back none
  | .bar _ _ _ sf => back (some sf)
  | .addr _ _ _ _ _ sf _ => back (some sf)
  | .link sf _ => back (some sf)
  | .unlink => back none
  | _ => w

/-- A wave gives up what it waits for, and goes back to its head instruction: an HWAIT that waits with its read and its count,
the misses that park it, and with `all` an ARRIVE that is under way. -/
def State.giveUp (s : State) (w0 : Wave) (all : Bool) : State :=
  let acc := match w0.wait with
    | .handle a => s.acc? a
    | .arrive a => if all then s.acc? a else none
    | _ => none
  let s := match acc with
    | some a => (s.dropAcc a.id).modUid w0.uid fun w => { w with wait := .bar 0 0 none a.sf }
    | none => s
  let s := if w0.miss.isEmpty then s else s.fbLeave (.wave w0.uid w0.id)
  s.modUid w0.uid fun w => { w.unwait with miss := [] }

/-- TILE_STOP: the head command ends, later commands are discarded, and the owner takes the cause at its
next boundary (R287). A pre-emption that was due stays due. -/
def State.tileStop (s : State) (g : Group) (t : Tile) (cause : Nat) (tval : W64) : State :=
  let now := s.cyc g.core
  let s := t.queue.foldl (fun s x => s.gridDone t x g.core (if x.sat then [.sat SatClass.int.bit] else [])) s
  let s := s.fbLeave (.tile g.id g.core)
  let s := s.modTile g.id fun t =>
    { t with queue := [], seq := now + 1, inj := none, fault := false, staged := [], miss := []
             regs := t.regs.set 9 (BitVec.ofNat 32 (cause * 2 ^ 16 + 256)) }
  match s.ownerWave t with
  | none => s
  | some w =>
    if w.life = .exited then s
    else (s.giveUp w false).modUid w.uid fun w =>
      { w with due := w.due ++ [⟨cause, if cause = 14 then 0 else tval, none, 0⟩] }

/-! ### Translation of an engine's accesses (R286, R313) -/

/-- The first address of each page of a byte range. -/
def pageStarts (lo hi : Nat) : List W64 :=
  (List.range (hi / 2 ^ 15 + 1 - lo / 2 ^ 15)).map fun k => BitVec.ofNat 64 (max lo ((lo / 2 ^ 15 + k) * 2 ^ 15))

/-- The pages of a list of byte ranges, each once, ascending. -/
def rangePages (rs : List (Nat × Nat)) : List W64 :=
  sortBy (fun a b => a.toNat ≤ b.toNat) ((rs.flatMap fun r => pageStarts r.1 r.2).foldl (fun l va =>
    if l.any fun x => pageOf x = pageOf va then l else l ++ [va]) [])

/-- What an engine meets when it translates its pages. -/
inductive EngX
  | ok
  | bad (cause : Nat) (va : W64)
  | wait (ms : List Miss)
  deriving DecidableEq, Repr

/-- Looks up the pages for accesses of a kind; `old` are the misses that the engine already awaits. -/
def State.engXlate (s : State) (core : Option Nat) (p : Nat) (k : AccKind) (size : Nat) (pages : List W64) (old : List Miss) : EngX :=
  match old.findSome? fun m => match m.settled with | some (.fail c) => some (c, m.va) | _ => none with
  | some (c, va) => .bad c va
  | none =>
    match s.xlate core p k size (pages.map fun va => (0, va)) with
    | .ok _ => .ok
    | .trap c va => .bad c va
    | .miss ms => .wait ms

/-- The misses of an engine join the fault buffer; those it awaits already stay. -/
def joinMisses (old new : List Miss) : List Miss :=
  old ++ new.filter fun m => !old.any fun o => pageOf o.va = pageOf m.va && o.kind = m.kind

def State.tileMiss (s : State) (g : Group) (t : Tile) (ms : List Miss) : State :=
  let new := ms.filter fun m => !t.miss.any fun o => pageOf o.va = pageOf m.va && o.kind = m.kind
  let s := new.foldl (fun s m => s.missJoin g.id.part m.va m.kind (.tile g.id g.core)) s
  s.modTile g.id fun t => { t with miss := joinMisses t.miss new }

/-- The physical address of an engine's byte whose page is cached. -/
def State.engPa (s : State) (core : Option Nat) (p : Nat) (k : AccKind) (va : Nat) : Nat :=
  ((s.tlbHit core p (BitVec.ofNat 64 va) k).map (·.1)).getD 0

/-! ### Slabs (R282, R283) -/

/-- The byte ranges that step n reads: rows of A, columns of B, and their scales. -/
def slabRanges (o : TmmaOp) (k : Nat) (a b : W64) (regs : Sparse 32) (n vr vc : Nat) : List (Nat × Nat) :=
  let w := slabW o.fmt o.i4
  let lo := n * w
  let hi := min (n * w + w - 1) (k - 1)
  let sp := elemSpan o.fmt o.i4 lo hi
  let lines (base : W64) (stride cnt : Nat) : List (Nat × Nat) :=
    (List.range cnt).map fun r => (base.toNat + r * stride + sp.1, base.toNat + r * stride + sp.2)
  let asc := (pair64 (regs.get 2) (regs.get 3)).toNat
  let bsc := (pair64 (regs.get 4) (regs.get 5)).toNat
  let scales (base stride cnt : Nat) : List (Nat × Nat) :=
    (List.range cnt).map fun r => (base + r * stride + lo / 32, base + r * stride + hi / 32)
  lines a (regs.get 0).toNat vr ++ lines b (regs.get 1).toNat vc ++
  (if o.fmt = .mx8 || o.fmt = .mx4 then
    scales asc (bits (regs.get 6) 15 0) vr ++ scales bsc (bits (regs.get 6) 31 16) vc else [])

/-- The load pipes hold range `i` of step `n`. -/
def Tile.stagedAt (t : Tile) (n i : Nat) : Option Staged := t.staged.find? fun x => x.step = n && x.idx = i

/-- The load pipes read the ranges of a step that they do not hold and that `pick` names, each at this instant, once
no host's copy is in the way (R283); with `own`, at .sys, they own a host's lines (R382). -/
def State.stage (s : State) (g : Group) (n : Nat) (rs : List (Nat × Nat)) (pick : W64) (own : Bool) : State :=
  rs.zipIdx.foldl (fun s (r, i) =>
    match s.tile? g.id with
    | none => s
    | some (_, t) =>
      let pas := (List.range (r.2 + 1 - r.1)).map fun k => s.engPa (some g.core) g.id.part .read (r.1 + k)
      if (t.stagedAt n i).isSome || !pick.getLsbD (i % 64) then s
      else if pas.any fun pa => s.snoopHeld pa false then pas.foldl (fun s pa => s.ask pa false) s
      else
        let x : Staged := ⟨n, i, pas.map s.rdByte, (pas.zipIdx.find? fun y => s.poisoned y.1).map fun y => r.1 + y.2⟩
        let s := (pas.map (· / 128)).dedup.foldl (fun s l => s.slcTouch (s.partWays g.id.part) (128 * l) own) s
        s.modTile g.id fun t => { t with staged := t.staged ++ [x] }) s

/-- The slab sums of step n, from the bytes that the load pipes hold: the rows of A, the columns of B, then the
scales of each. -/
def Tile.slabSums (t : Tile) (rs : List (Nat × Nat)) (o : TmmaOp) (k : Nat) (a b : W64) (regs : Sparse 32) (n vr vc : Nat) :
    List (Nat × Nat × SlabSum) :=
  let w := slabW o.fmt o.i4
  let ks := (List.range w).filterMap fun i => if n * w + i < k then some (n * w + i) else none
  let rd (i va : Nat) : Byte := ((t.stagedAt n i).map fun x => x.bytes.getD (va - (rs.getD i (0, 0)).1) 0).getD 0
  let row (i : Nat) (base : W64) (stride r : Nat) : List Nat :=
    ks.map fun x => elemCode o.fmt o.i4 (fun y => rd i (base.toNat + r * stride + y)) x
  let mx := o.fmt = .mx8 || o.fmt = .mx4
  let scale (i base stride r : Nat) : Byte := if mx then rd i (base + r * stride + n * w / 32) else 127
  let as := (List.range vr).map fun r =>
    (row r a (regs.get 0).toNat r, scale (vr + vc + r) (pair64 (regs.get 2) (regs.get 3)).toNat (bits (regs.get 6) 15 0) r)
  let bs := (List.range vc).map fun c =>
    (row (vr + c) b (regs.get 1).toNat c,
     scale (2 * vr + vc + c) (pair64 (regs.get 4) (regs.get 5)).toNat (bits (regs.get 6) 31 16) c)
  (List.range vr).flatMap fun r => (List.range vc).map fun c =>
    let x := as.getD r ([], 127)
    let y := bs.getD c ([], 127)
    (r, c, (x.1.zip y.1).foldl (fun t ab => t.add (gridProd o.fmt o.i4 ab.1 ab.2 x.2 y.2)) (.fin 0))

/-- One accumulator after a slab: one rounding for A36, saturation for I36 (R102). -/
def slabAdd (acc : Tag) (x : BitVec 36) (v : SlabSum) : BitVec 36 × Bool :=
  match acc with
  | .i36 =>
    let r := convInt (-(2 ^ 35)) (2 ^ 35 - 1) .rne ((intVal (signedOf 36 x.toNat)).add .rne v.val)
    (BitVec.ofInt 36 r.1, r.2)
  | _ => (BitVec.ofNat 36 (fa36.round .rne ((fa36.val x.toNat).add .rne v.val)), false)

/-- The running TMMA of a tile: its entry, operation and operands. -/
def Tile.tmma? (t : Tile) : Option (GEntry × TmmaOp × Nat × W64 × W64) :=
  match t.queue with
  | x :: _ => (match x.cmd with
    | .tmma o k a b => if x.started then some (x, o, k.toNat, a, b) else none
    | _ => none)
  | [] => none

/-- STEP of the next slab to inject. -/
def Tile.nextStep (t : Tile) : Nat :=
  match t.flight.getLast? with
  | some f => f.step + 1
  | none => bits (t.regs.get 8) 19 0

/-- A slab may be injected in this cycle, its operands apart: the array has run since the cycle before, the last slab
is far enough ahead, and no stop of an earlier cycle bars it (R282, R284). -/
def State.mayInject (s : State) (g : Group) (t : Tile) (nacc : Nat) : Bool :=
  let now := s.cyc g.core
  !t.ann && t.runAt < now && (match t.inj with | some i => i + nacc ≤ now | none => true) &&
  (match t.stopAt with | some y => now ≤ y | none => true)

/-- Slab n is injected in the first cycle that R282 and R284 allow; a stop or a miss of its operands comes instead
where there is one (R286, R287). Until then the load pipes read for steps n and n + 1; which reads have finished
when is open, so a free value picks them (R283; log 35). -/
def execSlabInject (id : GroupId) (s : State) : Res :=
  match s.tile? id with
  | none => .next s
  | some (g, t) =>
    match t.tmma? with
    | none => .next s
    | some (x, o, k, a, b) =>
      let n := t.nextStep
      let dims := Blk.dims o.blk
      let nacc := dims.1 * dims.2
      let gn := gridN t.fp
      let v := validOf (x.regs.get 7) (gn * dims.1) (gn * dims.2)
      if t.owner.isNone || (s.saving id.part && !s.mayInject g t nacc) || stepsOf o k ≤ n then .next s
      else
        let ranges (n : Nat) : List (Nat × Nat) := slabRanges o k a b x.regs n v.1 v.2
        let rs := ranges n
        let stop (cause : Nat) (va : Nat) (s : State) : Res :=
          .next (if t.flight.isEmpty then s.tileStop g t cause (BitVec.ofNat 64 va) else s)
        match rs.find? fun r => 2 ^ 51 ≤ r.2 with
        | some r => stop 5 (max r.1 (2 ^ 51)) s
        | none =>
          let todo := (rs.zipIdx.filter fun r => (t.stagedAt n r.2).isNone).map (·.1)
          match s.engXlate (some g.core) id.part .read 4 (rangePages todo) t.miss with
          | .bad c va => stop c va.toNat s
          | .wait ms => .next (s.tileMiss g t ms)
          | .ok =>
            let may := s.mayInject g t nacc
            let (pick, s) := s.free
            let own := o.acq && o.sco = .sys
            let s := s.stage g n rs (if may then BitVec.allOnes 64 else pick) own
            match s.tile? id with
            | none => .next s
            | some (_, t) =>
              let held := rs.zipIdx.filterMap fun r => (t.stagedAt n r.2).map fun x => (r.1.1, x)
              if held.length < rs.length then .next s
              else match held.findSome? fun h => h.2.poison with
                | some va => stop 6 va s
                | none =>
                  if may then
                    let now := s.cyc g.core
                    let sums := t.slabSums rs o k a b x.regs n v.1 v.2
                    .next (s.modTile id fun t =>
                      { t with inj := some now, miss := [], staged := t.staged.filter fun y => y.step ≠ n
                               flight := t.flight ++ [⟨n, now + 2 * (gn - 1) + nacc - 1, sums⟩] })
                  else
                    let next := ranges (n + 1)
                    if stepsOf o k ≤ n + 1 || next.any (fun r => 2 ^ 51 ≤ r.2) then .next s
                    else match s.engXlate (some g.core) id.part .read 4 (rangePages next) [] with
                      | .ok => .next (s.stage g (n + 1) next (pick >>> 1) own)
                      | _ => .next s

/-- STEP of GRPR. -/
def Tile.setStep (t : Tile) (n : Nat) : Tile := { t with regs := t.regs.set 8 (BitVec.ofNat 32 n) }

/-- The boundary of the oldest slab in flight has passed: every PE has added it, and STEP moves on. A
TMMA completes after the boundary of its last step (R282, R44). -/
def execStepBoundary (id : GroupId) (s : State) : Res :=
  match s.tile? id with
  | none => .next s
  | some (g, t) =>
    match t.flight with
    | [] => .next s
    | f :: rest =>
      if s.cyc g.core ≤ f.bound then .next s
      else match t.tmma? with
        | none => .next (s.modTile id fun t => { t with flight := rest })
        | some (x, o, k, _, _) =>
          let bn := (Blk.dims o.blk).2
          let n := gridN t.fp
          let r := f.sums.foldl (fun (r : Sparse 36 × Bool) e =>
              let key := accKey n bn e.1 e.2.1
              let y := slabAdd o.acc (r.1.get key) e.2.2
              (r.1.set key y.1, r.2 || y.2)) (t.accs, x.sat)
          let x := { x with sat := r.2 }
          let t := { t.setStep (f.step + 1) with accs := r.1, flight := rest, queue := x :: t.queue.tail }
          let s := s.modTile id fun _ => t
          if stepsOf o k ≤ f.step + 1 then
            .next ((s.gridPop g t x (if r.2 then [.sat SatClass.int.bit] else [])).modTile id fun t =>
              { t with stopAt := none })
          else .next s

/-! ### Anneal state (R41–R45, R284–R286) -/

/-- A TDRAIN is writing, so anneal waits for it. -/
def Tile.draining (t : Tile) : Bool :=
  match t.queue with
  | x :: _ => (match x.cmd with | .tdrain _ _ _ _ => x.started | _ => false)
  | [] => false

/-- A pending fault-buffer entry is needed by the next step, or by a TDRAIN. -/
def State.tileFaulted (s : State) (g : Group) (t : Tile) : Bool :=
  t.miss.any fun m => m.settled.isNone && s.fb.any fun e =>
    e.part = g.id.part && pageOf e.va = pageOf m.va && e.pending.isSome

/-- The lanes return to SIMT, and the tile's state is kept (R42). -/
def State.anneal (s : State) (g : Group) (fault : Bool) : State :=
  s.modTile g.id fun t => { t with ann := true, annAt := s.cyc g.core, annAge := 0, stopAt := none, inj := none, fault := fault }

/-- A condition of R41 meets a running tile: no slab is injected after this cycle. -/
def State.markStop (s : State) (g : Group) (t : Tile) (cond : Bool) : State :=
  if cond && t.stopAt.isNone then s.modTile g.id fun t => { t with stopAt := some (s.cyc g.core) } else s

/-- The tile enters anneal state in the cycle after the boundary of the last injected step, or in the
cycle after the condition when no slab is in flight (R284, R44); for a fault with no slab in flight, in the cycle in which
its entry becomes pending (R286; DESIGN CHOICE, log 91). -/
def State.annealDue (s : State) (g : Group) (t : Tile) : State :=
  let now := s.cyc g.core
  let fault := s.tileFaulted g t
  if t.owner.isSome && !t.ann && t.flight.isEmpty && !t.draining &&
      (fault || (match t.stopAt with | some x => x < now | none => false)) then s.anneal g fault
  else if t.owner.isSome && t.ann && !t.fault && fault then s.modTile g.id fun t => { t with fault := true }
  else s

def execTilePreempt (id : GroupId) (s : State) : Res :=
  match s.tile? id with
  | none => .next s
  | some (g, t) =>
    match s.ownerWave t with
    | none => .next s
    | some o =>
      let s := if t.ann then s else s.markStop g t (s.saving id.part || s.outranked g t.fp o.uid o.tprio)
      .next (match s.tile? id with | some (g, t) => s.annealDue g t | none => s)

/-- A footprint wave has waited on linked lanes for 4,096 cycles (R41). -/
def execTileLinkWaitExpiry (id : GroupId) (s : State) : Res :=
  match s.tile? id with
  | none => .next s
  | some (g, t) =>
    if t.ann || t.owner.isNone then .next s
    else .next (s.markStop g t ((s.onFootprint g t.fp).any fun w => some w.uid ≠ t.owner && 4096 ≤ w.linkwait))

/-- The conditions of a relink, but for the competition (R43, R285). -/
def State.relinkable (s : State) (g : Group) (t : Tile) : Bool :=
  match s.ownerWave t with
  | none => false
  | some o =>
    !s.saving g.id.part && t.ann && !t.fault && t.annAt + 256 ≤ s.cyc g.core && s.lanesFree g t.fp && s.footSettled g t.fp &&
    s.arraysFree g t.fp && !s.outranked g t.fp o.uid o.tprio

/-- Cycles that a tile has been in anneal state, those before its image was saved among them (R45, R285). -/
def Tile.annealed (t : Tile) (now : Nat) : Nat := now - t.annAt + t.annAge

def execTileRelink (id : GroupId) (s : State) : Res :=
  match s.tile? id with
  | none => .next s
  | some (g, t) =>
    let now := s.cyc g.core
    let prio (t : Tile) : Nat := ((s.ownerWave t).map (·.tprio)).getD 0
    let ahead := s.groups.any fun x => x.id ≠ id && (match x.tile with
      | none => false
      | some u => footOverlap g t.fp x u.fp && s.relinkable x u &&
          (prio t < prio u || (prio t = prio u && t.annealed now < u.annealed now)))
    if s.relinkable g t && !ahead then
      .next (s.modTile id fun t => { t with ann := false, runAt := now, inj := none, stopAt := none })
    else .next s

/-! ### TDRAIN (R297–R299) -/

/-- The elements of a TDRAIN, in order: row, column and address. -/
def drainElems (t : Tile) (o : TdrainOp) (base stride : Nat) : List (Nat × Nat × Nat) :=
  let dims := Blk.dims o.blk
  let n := gridN t.fp
  let v := validOf (t.regs.get 7) (n * dims.1) (n * dims.2)
  (List.range v.1).flatMap fun r => (List.range v.2).map fun c => (r, c, base + r * stride + c * drainSize o.dst)

/-- A new word: the converted accumulator, or its sum with the old word; with the class that saturates. -/
def drainValue (add : Bool) (o : TdrainOp) (old : Nat) (x : BitVec 36) : Nat × Byte :=
  let v := tagVal o.acc x.toNat
  if !add then convert o.dst o.rnd v
  else
    let sum := (tagVal o.dst old).add .rne v
    match tagFmt o.dst with
    | some f => (f.round .rne sum, 0)
    | none => convert o.dst .rne sum

/-- The physical address of a byte of a TDRAIN's destination, by the translations of its start (R298). -/
def GEntry.pa (x : GEntry) (va : Nat) : Nat :=
  ((x.pages.find? fun p => p.1 = va / 2 ^ 15).map fun p => p.2 + va % 2 ^ 15).getD 0

/-- One element is performed at its home; the state carries the classes and the lowest poisoned address. -/
def State.drainOne (s : State) (core : Nat) (g : GroupId) (add : Bool) (o : TdrainOp) (x : BitVec 36) (va pa : Nat) :
    State × Byte × Option W64 :=
  let n := drainSize o.dst
  if o.spd then
    match s.group? g with
    | none => (s, 0, none)
    | some gr =>
      let r := drainValue add o (gr.rdNat va n) x
      (s.modGroup g fun gr => gr.wrNat va n r.1, r.2, none)
  else
    if add && s.poisoned pa then (s, 0, some (BitVec.ofNat 64 va))
    else
      let r := drainValue add o (s.rdNat pa n) x
      ((s.slcWrite (s.partWays g.part) pa (leBytes n r.1)).l1Eng g core (pa / 128), r.2, none)

/-- The elements of a TDRAIN from the `n`th on are performed, in order: into memory all of them, into a window as far as
the banks serve their words in this cycle (R189, R190). The answer: how many are done, the classes that saturated and the
lowest poisoned address. -/
def State.drainAll (x : GEntry) (g : Group) (add : Bool) (o : TdrainOp) (val : Nat → Nat → BitVec 36) :
    List (Nat × Nat × Nat) → Nat → State → State × Nat × Byte × Option W64
  | [], n, s => (s, n, 0, none)
  | e :: es, n, s =>
    let v : Service := ⟨g.id, e.2.2 / 8, x.id, n⟩
    if o.spd && !s.bankFree g.core v then (s, n, 0, none)
    else
      let s := if o.spd then s.bankUse g.core v else s
      let y := s.drainOne g.core g.id add o (val e.1 e.2.1) e.2.2 (x.pa e.2.2)
      let r := State.drainAll x g add o val es (n + 1) y.1
      (r.1, r.2.1, y.2.1 ||| r.2.2.1, match y.2.2, r.2.2.2 with
        | some a, some b => some (if b.toNat < a.toNat then b else a)
        | some a, none => some a
        | none, p => p)

/-- The elements are performed and the release follows; CLR then clears the blocking's accumulators. A TDRAIN into memory
lasts to the cycle after its start, and one into a window for as long as its banks take (log 57): between its
first and last element no other operation touches a word of its tile (R299). -/
def execTdrainComplete (id : GroupId) (s : State) : Res :=
  match s.tile? id with
  | none => .next s
  | some (g, t) =>
    match t.queue with
    | [] => .next s
    | x :: _ =>
      match x.cmd with
      | .tdrain add o base stride =>
        let els := drainElems t o base.toNat stride.toNat
        if !x.started || s.cyc g.core < t.seq ||
            !(if scopeFar o.sco then s.afterDone x.rel else s.nearDone x.rel) then .next s
        else if !o.spd && els.any fun e => s.snoopHeld (x.pa e.2.2) true then
          .next (els.foldl (fun s e => s.ask (x.pa e.2.2) true) s)
        else
          let n := gridN t.fp
          let dims := Blk.dims o.blk
          let r := s.drainAll x g add o (fun r c => t.accs.get (accKey n dims.2 r c)) (els.drop x.done) x.done
          let cls := x.cls ||| r.2.2.1
          if r.2.1 < els.length then
            let lock := if r.2.1 = 0 then [] else (els.map fun e => e.2.2 / 8).dedup
            .next (r.1.modTile id fun t => { t with queue := { x with done := r.2.1, cls := cls, lock := lock } :: t.queue.tail })
          else
            let s := if o.rel && !scopeFar o.sco && !o.spd then
                els.foldl (fun s' e => s'.l1Drop g.core (x.pa e.2.2 / 128)) r.1 else r.1
            let s := if o.clr then s.modTile id fun t =>
                { t with accs := t.accs.filter fun e => dims.1 * dims.2 * 256 ≤ e.1 } else s
            let now := s.cyc g.core
            let s := (s.gridPop g t x (satPut cls)).modTile id fun t => { t with stopAt := t.stopAt.map fun _ => now }
            match r.2.2.2, s.tile? id with
            | some va, some (g, t) => .next (s.tileStop g t 6 va)
            | _, _ => .next s
      | _ => .next s

/-! ### The sequencer (R281) -/

/-- A grid register as GPROG reads it (R289). -/
def Tile.reg (t : Tile) (n : Nat) : W32 :=
  if n = 9 then t.regs.get 9 ||| (if t.ann then 1 else 0) else t.regs.get n

/-- A command clears FLT and FCAUSE as it starts. -/
def Tile.start (t : Tile) (x : GEntry) : Tile :=
  { t with regs := t.regs.set 9 0, queue := { x with started := true, regs := t.regs } :: t.queue.tail, inj := none, staged := [] }

/-- A condition of an earlier cycle takes the tile to anneal state in this one: no TDRAIN starts before that (R284). -/
def Tile.annealing (t : Tile) (now : Nat) : Bool :=
  !t.ann && (match t.stopAt with | some x => x < now | none => false)

/-- The sequencer takes the command at the head: GPROG, TZERO and UNLINK complete; TMMA and TDRAIN start,
or stop on a check made at execution (R289, R291, R293–R296, R298), with a TVAL of 0 for the strides of cause 3 (R287;
DESIGN CHOICE, log 91). -/
def execGridQueueHead (id : GroupId) (s : State) : Res :=
  match s.tile? id with
  | none => .next s
  | some (g, t) =>
    match t.queue with
    | [] => .next s
    | x :: _ =>
      let now := s.cyc g.core
      if x.started || now < t.seq || s.saving id.part || t.owner.isNone || !s.afterDone x.after then .next s
      else match x.cmd with
      | .gwr n v =>
        let v := if n = 7 then v &&& 0x003F003F else v
        .next ((s.modTile id fun t => { t with regs := t.regs.set n v }).gridPop g t x [])
      | .grd n d =>
        match s.ownerWave t with
        | some w => .next (if s.writeFree w.uid w.id false true then s.gridPop g t x [.s d.toNat (t.reg n)] else s)
        | none => .next (s.gridPop g t x [])
      | .tzero m =>
        let keep (k : Nat) : Bool := !(m = 0 || m.getLsbD k)
        .next ((s.modTile id fun t => { t with accs := t.accs.filter fun e => keep (e.1 / 256) }).gridPop g t x [])
      | .unlink =>
        let s := s.gridPop g t x []
        let s := s.modTile id fun t => { t with owner := none, ann := false, fault := false }
        .next (match t.owner with
          | some uid => s.modUid uid fun w => { w with wait := .none, notBefore := now + 1 }
          | none => s)
      | .tmma o k _ _ =>
        let t := if o.cont then t.start x else (t.start x).setStep 0
        let s := s.modTile id fun _ => t
        let n := gridN t.fp
        let dims := Blk.dims o.blk
        let gv := t.regs.get 7
        if (t.regs.get 0).toNat % 4 ≠ 0 || (t.regs.get 1).toNat % 4 ≠ 0 then .next (s.tileStop g t 3 0)
        else if n * dims.1 < bits gv 5 0 || n * dims.2 < bits gv 21 16 then .next (s.tileStop g t 14 0)
        else if stepsOf o k.toNat ≤ bits (t.regs.get 8) 19 0 then .next (s.gridPop g t x [])
        else .next s
      | .tdrain add o base stride =>
        let n := gridN t.fp
        let dims := Blk.dims o.blk
        let gv := t.regs.get 7
        let els := drainElems t o base.toNat stride.toNat
        let size := drainSize o.dst
        if t.annealing now then .next s
        else if n * dims.1 < bits gv 5 0 || n * dims.2 < bits gv 21 16 then
          .next ((s.modTile id fun t => { t with regs := t.regs.set 9 0 }).tileStop g t 14 0)
        else if o.spd then .next (s.modTile id fun t => { t.start x with seq := now + 1 })
        else
          let k : AccKind := if add then .atomic else .write
          let pages := rangePages (els.map fun e => (e.2.2, e.2.2 + size - 1))
          match s.engXlate (some g.core) id.part k size pages t.miss with
          | .bad c va => .next (s.tileStop g t c va)
          | .wait ms => .next (s.tileMiss g t ms)
          | .ok =>
            let found := pages.map fun va => (va.toNat / 2 ^ 15, s.engPa (some g.core) id.part k (va.toNat / 2 ^ 15 * 2 ^ 15))
            .next (s.modTile id fun t => { t.start { x with pages := found } with seq := now + 1, miss := [] })

end Sys2Proof.Machine
end

