-- ==== Sys2Proof/Machine/Copy.lean ====
section
/-!
DEFINITION. The copy engine: CPY, channels, units, completion and chained TMMAs, handles and tokens
(R300–R313).
-/

namespace Sys2Proof.Machine

/-! ### The command block (R303) -/

namespace Copy

def b (c : Copy) (i : Nat) : Nat := (c.blk.getD i 0).toNat
def b64 (c : Copy) (i : Nat) : Nat := c.b i + c.b (i + 1) * 2 ^ 32

def src (c : Copy) : Nat := c.b64 0
def dst (c : Copy) : Nat := c.b64 2

/-- Bytes of one span. -/
def spanLen (c : Copy) : Nat := match c.o.form with | .gath => c.b 7 | _ => c.b 4

def rows (c : Copy) : Nat := match c.o.form with | .d2 | .d3 => c.b 7 | _ => 1
def planes (c : Copy) : Nat := match c.o.form with | .d3 => c.b 10 | _ => 1

def spans (c : Copy) : Nat := match c.o.form with | .gath => c.b 4 | _ => c.planes * c.rows

/-- Source and destination offsets of span `n`, but for a gather's index. -/
def spanAt (c : Copy) (n : Nat) : Nat × Nat :=
  match c.o.form with
  | .lin => (0, 0)
  | .d2 => (n * c.b 8, n * c.b 9)
  | .d3 => (n / c.rows * c.b 11 + n % c.rows * c.b 8, n / c.rows * c.b 12 + n % c.rows * c.b 9)
  | .gath => (0, n * c.b 7)

/-- Units of one span: each of 128 bytes, the last one of what is left (R305). -/
def perSpan (c : Copy) : Nat := (c.spanLen + 127) / 128

def units (c : Copy) : Nat := c.spans * c.perSpan

/-- End of the bytes that one side touches, from its base; a gather's source is not bounded here. -/
def extentEnd (c : Copy) (isDst : Bool) : Nat :=
  let last := c.spanAt (c.spans - 1)
  let last := match c.o.form with
    | .d3 => ((c.planes - 1) * c.b 11 + (c.rows - 1) * c.b 8, (c.planes - 1) * c.b 12 + (c.rows - 1) * c.b 9)
    | _ => last
  (if isDst then c.dst + last.2 else c.src + last.1) + c.spanLen

end Copy

/-- The chained TMMA of a command: its M image decoded as TMMA's, or none (R307). -/
def chainOp (m : W32) : Option TmmaOp :=
  match decodeFields { Fields.unpack 0 with opc := 0xB2, u := 1, m := m.truncate 24 } with
  | .ok (.tmma _ o) false => some o
  | _ => none

/-- The causes of a CPY at issue (R304). -/
def cpyBad (c : Copy) (win : Nat) (t : Option Tile) (word : W64) : List (Nat × W64) :=
  let v (x : Nat) : W64 := BitVec.ofNat 64 x
  let lens := match c.o.form with
    | .lin => [c.b 4]
    | .d2 => [c.b 4, c.b 7]
    | .d3 => [c.b 4, c.b 7, c.b 10]
    | .gath => [c.b 4]
  let aligned := [c.src, c.dst] ++ (match c.o.form with
    | .lin => [c.b 4]
    | .d2 => [c.b 4, c.b 8, c.b 9]
    | .d3 => [c.b 4, c.b 8, c.b 9, c.b 11, c.b 12]
    | .gath => [c.b64 8]) ++ (if c.o.cw then [c.b 5] else [])
  let side (sp : Bool) (base last : Nat) : List (Nat × W64) :=
    if last ≤ (if sp then win else 2 ^ 51) then [] else [(5, v base)]
  ((aligned.filter fun x => x % 4 ≠ 0).map fun x => (3, v x)) ++
  (if c.o.form = .gath && !([4, 8, 16, 32, 64, 128].contains (c.b 7)) then [(3, v (c.b 7))] else []) ++
  (if lens.any fun x => x = 0 || 2 ^ 24 < x then [(0, word)] else
    side c.o.dsp c.dst (c.extentEnd true) ++
    (if c.o.form = .gath then side false (c.b64 8) (c.b64 8 + 4 * c.b 4) else side c.o.ssp c.src (c.extentEnd false))) ++
  (if c.o.cw && win < c.b 5 + 4 then [(5, v (c.b 5))] else []) ++
  (if !c.o.tmm then []
   else match chainOp (c.blk.getD 16 0) with
    | none => [(0, word)]
    | some o =>
      (match t with
       | none => (14, 0) :: tmmaBad 4 o (c.blk.getD 17 0) (v (c.b64 18)) (v (c.b64 20))
       | some t => tmmaBad t.nacc o (c.blk.getD 17 0) (v (c.b64 18)) (v (c.b64 20))))

/-- The command that CPY would submit. -/
def cpyCmd (e : Env) (h : Hdr) (o : CpyOp) : Copy :=
  { num := 0, uid := e.w.uid, w := e.w.id, grp := e.w.grp, o := o, sf := h.sf,
    blk := (List.range 22).map fun i => e.w.rs e.c0 (o.a.toNat + i),
    after := [], rel := [], prog := 0, stat := .outstanding, cause := none, cancel := false,
    chained := if o.tmm then some false else none, cwDone := false, unit := none }

def execCpy (h : Hdr) (o : CpyOp) (s : State) : Res :=
  issue (.cpy h o) h true
    (fun s e =>
      if !e.w.uGuard h e.c0 then .ok
      else if s.memHold e.w || !(s.entryHolds e.w (.cpy h o)).isEmpty then .hold
      else lowest (cpyBad (cpyCmd e h o) e.winSize (s.ownTile e.w) (wordVal (.cpy h o))))
    (fun e s =>
      if e.w.uGuard h e.c0 then
        let (n, s) := s.seq
        let c := { cpyCmd e h o with num := n, after := engineAfter o.acq.isSome s e, rel := engineRel o.rel.isSome s e }
        let s := s.modCore e.w.id.core fun x => { x with chan := { x.chan with fifo := x.chan.fifo ++ [c] } }
        s.modWave e.w.id fun w => { w with hpend := insNat o.h.toNat w.hpend }
      else done1 e h s) s

/-! ### Acceptance and tokens (R300, R308) -/

/-- The cluster's position among its partition's clusters. -/
def State.cluPos (s : State) (p core : Nat) : Nat := (s.part p).clusters.idxOf (core / 4)

def token (core slot pos : Nat) (gen : BitVec 16) : W32 :=
  BitVec.ofNat 32 (2 ^ 31 + core % 4 * 2 ^ 29 + slot * 2 ^ 24 + pos * 2 ^ 18 + gen.toNat)

/-- A slot holds no command, or one that has ended. -/
def Slot.free (x : Slot) : Bool := match x.cmd with | none => true | some c => c.stat ≠ .outstanding

/-- The free slot whose command ended longest ago; of those that never held one, the lowest (DESIGN CHOICE, log 96). -/
def Chan.freeSlot (ch : Chan) : Option Nat :=
  let xs := (List.range 32).zip ch.slots
  (argMax (fun x : Nat × Slot => 2 ^ 64 - x.2.ended) (xs.filter fun x => x.2.free)).map (·.1)

def State.modChan (s : State) (core : Nat) (f : Chan → Chan) : State :=
  s.modCore core fun c => { c with chan := f c.chan }

/-- The oldest command of the FIFO takes a slot, and its handle the token. -/
def execCopyAccept (core : Nat) (s : State) : Res :=
  let ch := (s.core core).chan
  match ch.fifo, ch.freeSlot with
  | c :: rest, some n =>
    if s.saving c.grp.part then .next s else
    let gen := (ch.slots.getD n ⟨0, none, 0⟩).gen + 1
    let s := s.modChan core fun ch =>
      { ch with fifo := rest, slots := ch.slots.modify n (fun x => { x with gen := gen, cmd := some c })
                running := ch.running ++ [n] }
    .next (s.modUid c.uid fun w => if w.life = .exited then w
      else { w with h := w.h.set c.o.h.toNat (token core n (s.cluPos c.grp.part core) gen)
                    hpend := w.hpend.filter fun x => x ≠ c.o.h.toNat })
  | _, _ => .next s

/-! ### Ending (R301, R306, R312, R313) -/

/-- The running command of a channel with its slot. -/
def Chan.current (ch : Chan) : Option (Nat × Copy) :=
  match ch.running with
  | [] => none
  | n :: _ => ((ch.slots[n]?).bind (·.cmd)).map fun c => (n, c)

def State.modCmd (s : State) (core n : Nat) (f : Copy → Copy) : State :=
  s.modChan core fun ch => { ch with slots := ch.slots.modify n fun x => { x with cmd := x.cmd.map f } }

/-! ### Status (R309, R311) -/

def CStat.code : CStat → Nat
  | .outstanding => 0
  | .done => 1
  | .cancelled => 2
  | .failed => 3
  | .retired => 4

/-- The status word: PROG and STAT. -/
def Copy.status (c : Copy) : W32 := BitVec.ofNat 32 (min c.prog 0xFFFFFF * 256 + c.stat.code)

/-- A command's status as a read of its handle takes it: DONE acquires at the command's RSCO, which is .wave without REL
(R302, R311). -/
def Acc.withStatus (a : Acc) (c : Copy) : Acc :=
  let a := { a with puts := [.s (match a.dst with | .s d _ => d | _ => 0) c.status], args := [] }
  if c.stat = .done then { a with ord := .acq, sco := c.o.rel.getD .wave } else a

/-- A wave whose HWAIT waits for the access. -/
def Wave.awaitsAcc (w : Wave) (id : Nat) : Bool := w.wait = .handle id

/-- The command of a slot ends: its slot is free and keeps the status, HWAITs that wait for it take that status whatever
becomes of the slot (R310) and their waits are satisfied in this cycle (R36, R311), its flag counts down, HCANCELs of it complete, and a failure reaches the wave at its next
boundary. The pages that the channel awaits are those of the running command. -/
def State.endCopy (s : State) (core n : Nat) (c : Copy) (stat : CStat) (fail : Option (Nat × W64)) : State :=
  let (k, s) := s.seq
  let head := (s.core core).chan.running.head? = some n
  let s := s.modChan core fun ch =>
    { ch with running := ch.running.filter (· ≠ n), miss := if head then [] else ch.miss
              slots := ch.slots.modify n fun x =>
                { x with ended := k, cmd := x.cmd.map fun c => { c with stat := stat, cause := fail.map (·.1), unit := none } } }
  let s := if head then s.fbLeave (.chan core) else s
  let mine (a : Acc) : Bool := a.op = .handle && a.args = [BitVec.ofNat 64 c.num]
  let woken := s.waves.filter fun w => s.accs.any fun a => mine a && w.awaitsAcc a.id
  let s : State := { s with
    accs := upd (fun a => mine a) (fun a => a.withStatus { c with stat := stat }) s.accs
    events := woken.foldl (fun es w => insEvent (.wake w.id) es) s.events }
  let s := s.modUid c.uid fun w => if w.life = .exited then w
    else { w.decSf c.sf (s.cyc core) with
           due := w.due ++ (match fail with | some (k, va) => [⟨k, va, none, 0⟩] | none => []) }
  (s.accs.filter fun a => a.op = .cancelled && a.args = [BitVec.ofNat 64 c.num]).foldl (fun s a => s.complete a []) s

/-! ### Units (R305) -/

/-- A side's translation of one unit: nothing to do in a window. -/
def State.copyXlate (s : State) (core : Nat) (p : Nat) (sp : Bool) (k : AccKind) (at_ len : Nat) : EngX :=
  if sp then .ok
  else s.engXlate (some core) p k len (rangePages [(at_, at_ + len - 1)]) (s.core core).chan.miss

/-- The channel awaits pages. -/
def State.chanMiss (s : State) (core p : Nat) (ms : List Miss) : State :=
  let old := (s.core core).chan.miss
  let new := ms.filter fun m => !old.any fun o => pageOf o.va = pageOf m.va && o.kind = m.kind
  let s := new.foldl (fun s m => s.missJoin p m.va m.kind (.chan core)) s
  s.modChan core fun ch => { ch with miss := joinMisses ch.miss new }

/-- The bytes of a unit's source. -/
def State.copyRead (s : State) (core : Nat) (g : GroupId) (sp : Bool) (at_ len : Nat) : List Byte :=
  if sp then ((s.group? g).map fun x => x.rdBytes at_ len).getD (List.replicate len 0)
  else (List.range len).map fun i => s.rdByte (s.engPa (some core) g.part .read (at_ + i))

/-- Writes a unit; a release at .wave or .grp takes its lines out of the core's L1 (R259). -/
def State.copyWrite (s : State) (core : Nat) (c : Copy) (at_ : Nat) (bs : List Byte) : State :=
  if c.o.dsp then s.modGroup c.grp fun g => g.put at_ bs
  else
    let near := match c.o.rel with | some sc => !scopeFar sc | none => false
    ((List.range bs.length).zip bs).foldl (fun s x =>
      let pa := s.engPa (some core) c.grp.part .write (at_ + x.1)
      let s := s.slcWrite (s.partWays c.grp.part) pa [x.2]
      if near then s.l1Drop core (pa / 128) else s.l1Eng c.grp core (pa / 128)) s

/-- The lines of a side of a unit. -/
def State.copyLines (s : State) (core : Nat) (g : GroupId) (sp : Bool) (k : AccKind) (at_ len : Nat) : List Nat :=
  if sp then []
  else (List.range ((len + 127) / 128 + 1)).map fun i =>
    s.engPa (some core) g.part k (min (at_ + 128 * i) (at_ + len - 1))

/-- The banks can serve a unit's words of a window in this cycle: none are asked for a unit elsewhere. -/
def State.unitFree (s : State) (core : Nat) (sp : Bool) (vs : List Service) : Bool :=
  !sp || vs.all fun v => s.bankFree core v

def State.unitUse (s : State) (core : Nat) (sp : Bool) (vs : List Service) : State :=
  if sp then vs.foldl (fun s v => s.bankUse core v) s else s

/-- The unit that a command has read is written, in this cycle if the banks serve its words of a window (R189, R190). -/
def State.landUnit (s : State) (core n : Nat) (c : Copy) (dst : Nat) (bs : List Byte) : State :=
  let vs := wordServices c.grp c.num (2 * c.prog + 1) dst bs.length
  if s.unitFree core c.o.dsp vs then
    (((s.unitUse core c.o.dsp vs).copyWrite core c dst bs).modCmd core n fun c =>
      { c with prog := c.prog + 1, unit := none }).modChan core fun ch => { ch with miss := [] }
  else s.modCmd core n fun c => { c with unit := some bs }

/-- A command that acquires at .sys owns a host's lines as it reads them (R271, R382). -/
def Copy.ownsSrc (c : Copy) : Bool := c.o.acq = some .sys

/-- Reads a unit whole and writes it, once its pages are there and the banks serve its words of a window; a failure ends
the command (R313). -/
def State.moveUnit (s : State) (core n : Nat) (c : Copy) (src dst len : Nat) : State :=
  let p := c.grp.part
  match s.copyXlate core p c.o.ssp .read src len, s.copyXlate core p c.o.dsp .write dst len with
  | .bad k va, _ => s.endCopy core n c .failed (some (k, va))
  | .wait ms, _ => s.chanMiss core p ms
  | .ok, .bad k va => s.endCopy core n c .failed (some (k, va))
  | .ok, .wait ms => s.chanMiss core p ms
  | .ok, .ok =>
    let rd := s.copyLines core c.grp c.o.ssp .read src len
    let wr := s.copyLines core c.grp c.o.dsp .write dst len
    let vs := wordServices c.grp c.num (2 * c.prog) src len
    if rd.any s.poisoned then s.endCopy core n c .failed (some (6, BitVec.ofNat 64 src))
    else if rd.any (fun pa => s.snoopHeld pa false) || wr.any (fun pa => s.snoopHeld pa true) then
      wr.foldl (fun s pa => s.ask pa true) (rd.foldl (fun s pa => s.ask pa false) s)
    else if !s.unitFree core c.o.ssp vs then s
    else
      let s := rd.foldl (fun s pa => s.slcTouch (s.partWays p) pa c.ownsSrc) s
      (s.unitUse core c.o.ssp vs).landUnit core n c dst (s.copyRead core c.grp c.o.ssp src len)

/-- Cancelled commands of a channel other than the running one end at this unit boundary (R300, R312): those in a
slot, with their status, and those still in the FIFO, whose waves have exited. -/
def State.dropCancelled (s : State) (core : Nat) : State :=
  let ch := (s.core core).chan
  let gone := (ch.running.drop 1).filterMap fun n =>
    (((ch.slots[n]?).bind (·.cmd)).filter fun c => c.cancel && !s.saving c.grp.part).map fun c => (n, c)
  let s := gone.foldl (fun s x => s.endCopy core x.1 x.2 .cancelled none) s
  s.modChan core fun ch => { ch with fifo := ch.fifo.filter fun c => !c.cancel || s.saving c.grp.part }

/-- The next unit of the running command. A unit that has been read is written before anything else: only then is the channel at
a unit boundary, where a context switch (R314) or a cancel (R312) stops it. -/
def execCopyUnit (core : Nat) (s0 : State) : Res :=
  let s := s0.dropCancelled core
  let ch := (s.core core).chan
  match ch.current with
  | none => .next s
  | some (n, c) =>
    if c.units ≤ c.prog then .next s
    else if let some bs := c.unit then
      let at_ := c.dst + (c.spanAt (c.prog / c.perSpan)).2 + c.prog % c.perSpan * 128
      .next (s.landUnit core n c at_ bs)
    else if s.saving c.grp.part then .next s
    else if c.cancel then .next (s.endCopy core n c .cancelled none)
    else if !s.afterDone c.after then .next s
    else
      let span := c.prog / c.perSpan
      let off := c.prog % c.perSpan * 128
      let len := min 128 (c.spanLen - off)
      let at_ := c.spanAt span
      match c.o.form with
      | .gath =>
        let ix := c.b64 8 + 4 * span
        (match s.copyXlate core c.grp.part false .read ix 4 with
         | .bad k va => .next (s.endCopy core n c .failed (some (k, va)))
         | .wait ms => .next (s.chanMiss core c.grp.part ms)
         | .ok =>
           let pa := s.engPa (some core) c.grp.part .read ix
           if s.poisoned pa then .next (s.endCopy core n c .failed (some (6, BitVec.ofNat 64 ix)))
           else if s.snoopHeld pa false then .next (s.ask pa false)
           else
             let s := s.slcTouch (s.partWays c.grp.part) pa c.ownsSrc
             let src := c.src + s.rdNat pa 4 * c.spanLen
             let win := ((s.group? c.grp).map (·.size)).getD 0
             if (if c.o.ssp then win else 2 ^ 51) < src + c.spanLen then
               .next (s.endCopy core n c .failed (some (5, BitVec.ofNat 64 src)))
             else .next (s.moveUnit core n c src (c.dst + at_.2) len))
      | _ => .next (s.moveUnit core n c (c.src + at_.1 + off) (c.dst + at_.2 + off) len)

/-! ### Completion (R306, R307) -/

/-- A chained TMMA is still in a tile's queue. -/
def State.chainQueued (s : State) (num : Nat) : Bool :=
  s.groups.any fun g => match g.tile with
    | none => false
    | some t => t.queue.any fun x => x.chain = some num

/-- After the last unit: the completion word, then a chained TMMA, then the status and the flag. A cancel ends the command
until it completes or its TMMA is queued (R33, R312; log 90). -/
def execCopyComplete (core : Nat) (s : State) : Res :=
  match (s.core core).chan.current with
  | none => .next s
  | some (n, c) =>
    let word := wordServices c.grp c.num (2 * c.prog) (c.b 5) 4
    if c.prog < c.units || s.saving c.grp.part then .next s
    else if c.cancel && c.chained ≠ some true then .next (s.endCopy core n c .cancelled none)
    else if !c.cwDone && !(if (c.o.rel.map scopeFar).getD true then s.afterDone c.rel else s.nearDone c.rel) then .next s
    else if !c.cwDone && !s.unitFree core c.o.cw word then .next s
    else
      let s := if c.o.cw && !c.cwDone then (s.unitUse core true word).modGroup c.grp fun g => g.wrNat (c.b 5) 4 (c.b 6) else s
      let s := s.modCmd core n fun c => { c with cwDone := true }
      match c.chained with
      | none => .next (s.endCopy core n c .done none)
      | some true => if s.chainQueued c.num then .next s else .next (s.endCopy core n c .done none)
      | some false =>
        match s.waveUid? c.uid, chainOp (c.blk.getD 16 0) with
        | some w, some o =>
          (match s.ownTile w with
           | none => .next (s.endCopy core n { c with chained := none } .failed (some (14, 0)))
           | some t =>
             if 4 ≤ t.queue.length then .next s
             else
               let v (x : Nat) : W64 := BitVec.ofNat 64 x
               let x := GEntry.mk' s.nextSeq (.tmma o (c.blk.getD 17 0) (v (c.b64 18)) (v (c.b64 20))) 15
                 (s.engineFirst w o.acq) []
               .next (({ s with nextSeq := s.nextSeq + 1 }.enqueue c.grp core { x with chain := some c.num }).modCmd core n fun c =>
                 { c with chained := some true }))
        | _, _ => .next (s.endCopy core n c .failed (some (14, 0)))

/-! ### HTEST, HWAIT and HCANCEL (R309–R312) -/

/-- What a token names: nothing of the wave's core and cluster, a slot allotted again, or a slot's command,
which another group may have issued (R310). -/
inductive HRes
  | misuse
  | retired
  | cmd (slot : Nat) (c : Copy)
  deriving DecidableEq, Repr

def State.resolve (s : State) (w : Wave) (t : W32) : HRes :=
  let k := w.id.core % 4
  if t = 0 || !t.getLsbD 31 || bits t 17 16 ≠ 0 || bits t 30 29 ≠ k ||
      bits t 23 18 ≠ s.cluPos w.grp.part w.id.core then .misuse
  else
    let n := bits t 28 24
    let sl := (s.core w.id.core).chan.slots.getD n ⟨0, none, 0⟩
    if sl.gen.toNat ≠ bits t 15 0 then .retired
    else match sl.cmd with
      | none => .retired
      | some c => if c.grp = w.grp then .cmd n c else .misuse

/-- The token that A names, and TVAL of handle misuse: the A field's value. -/
def hTok (e : Env) (a : HSrc) : W32 × W64 :=
  match a with
  | .h n => (e.w.h.get n.toNat, BitVec.ofNat 64 (256 + n.toNat))
  | .s n => (e.sr n, BitVec.ofNat 64 n.toNat)

def handleChk (h : Hdr) (a : HSrc) (s : State) (e : Env) : Chk :=
  if !e.w.uGuard h e.c0 then .ok
  else if s.resolve e.w (hTok e a).1 = .misuse then .trap 8 (hTok e a).2 else .ok

/-- HTEST and HWAIT: the token is resolved and the status taken at issue; HWAIT on an outstanding command keeps its
number, and holds its wave until that has ended. The status is written at a later cycle (R311; log 60). -/
def handleRead (i : Instr) (h : Hdr) (d : BitVec 8) (a : HSrc) (wait : Bool) (s : State) : Res :=
  issue i h true (handleChk h a) (fun e s =>
    if e.w.uGuard h e.c0 then
      let id := s.nextSeq
      let acc := { e.acc h .handle with dst := .s d.toNat false }
      let acc : Acc := match s.resolve e.w (hTok e a).1 with
        | .cmd _ c => if wait && c.stat = .outstanding then { acc with args := [BitVec.ofNat 64 c.num] }
                      else acc.withStatus c
        | _ => { acc with puts := [.s d.toNat (BitVec.ofNat 32 CStat.retired.code)] }
      let s := s.addAcc acc
      if !acc.args.isEmpty then s.modWave e.w.id fun w => { w with wait := .handle id } else s
    else done1 e h s) s

def execHtest (h : Hdr) (d : BitVec 8) (a : HSrc) (s : State) : Res := handleRead (.htest h d a) h d a false s
def execHwait (h : Hdr) (d : BitVec 8) (a : HSrc) (s : State) : Res := handleRead (.hwait h d a) h d a true s

/-- The command that a wave's HWAIT waits for is OUTSTANDING no longer, and no context switch of its partition is under way
(R36, R311). -/
def State.wakeable (s : State) (w : Wave) : Bool :=
  !s.saving w.grp.part && (match w.wait with
    | .handle a => ((s.acc? a).map fun x => x.args.isEmpty).getD true
    | _ => false)

/-- The wait of an HWAIT is satisfied: its wave may issue again from the next cycle. -/
def State.takeWake (s : State) (id : WaveId) : State :=
  match s.wave? id with
  | some w => if s.wakeable w then s.modWave id fun w => { w with wait := .none, notBefore := s.cyc id.core + 1 } else s
  | none => s

/-- The status is written (R311), once the command that is waited for has ended. -/
def execHandleStatusWrite (id : Nat) (s : State) : Res :=
  match s.ripe id (· = .handle) with
  | none => .next s
  | some a =>
    match s.waveUid? a.uid with
    | none => .next (s.dropAcc id)
    | some _ =>
      if !a.args.isEmpty then .next s
      else .next ((if a.ord = .acq then s.l1Acquire a.grp a.w.core a.sco else s).complete a a.puts)

/-- HCANCEL marks an outstanding command, and completes when it has ended; on any other status it has no
effect (R312). -/
def execHcancel (h : Hdr) (a : HSrc) (s : State) : Res :=
  issue (.hcancel h a) h true (handleChk h a) (fun e s =>
    if !e.w.uGuard h e.c0 then done1 e h s
    else match s.resolve e.w (hTok e a).1 with
      | .cmd n c =>
        if c.stat = .outstanding then
          (s.modCmd e.w.id.core n fun c => { c with cancel := true }).addAcc
            { e.acc h .cancelled with args := [BitVec.ofNat 64 c.num] }
        else done1 e h s
      | _ => done1 e h s) s

end Sys2Proof.Machine
end

