-- ==== Sys2Proof/Machine/Float.lean ====
section
/-!
DEFINITION. Lanes: FP32, packed 16-bit, special functions, conversion, and the saturation-flag
instructions (R162–R177).
-/

namespace Sys2Proof.Machine

/-! ### FP32 (R162–R165) -/

/-- A three-operand FP32 form: the exact value of a, b and d, rounded once. -/
def fp3 (i : Instr) (h : Hdr) (o : FAlu3) (f : Val → Val → Val → Val) (s : State) : Res :=
  mould i h o.u o.d false (fun e t =>
    let rd (x : W64) := fp32.val (x.toNat % 2 ^ 32)
    (BitVec.ofNat 64 (fp32.round o.rnd
      (f (rd (e.src 0 false o.a t)) (rd (e.src 1 false o.b t)) (rd (e.old false o.d t)))), 0)) s

def execFadd (h : Hdr) (o : FAlu3) (s : State) : Res := fp3 (.fadd h o) h o (fun a b _ => a.add o.rnd b) s
def execFsub (h : Hdr) (o : FAlu3) (s : State) : Res := fp3 (.fsub h o) h o (fun a b _ => a.add o.rnd b.neg) s
def execFmul (h : Hdr) (o : FAlu3) (s : State) : Res := fp3 (.fmul h o) h o (fun a b _ => a.mul b) s
def execFfma (h : Hdr) (o : FAlu3) (s : State) : Res := fp3 (.ffma h o) h o (fun a b d => a.fma o.rnd b d) s

/-- FMIN and FMAX (R164). -/
def fpMinMax (i : Instr) (h : Hdr) (o : FMinOp) (isMax : Bool) (s : State) : Res :=
  mould i h o.u o.d false (fun e t =>
    (BitVec.ofNat 64 (fminmax fp32 isMax o.prop (e.src 0 false o.a t).toNat (e.src 1 false o.b t).toNat), 0)) s

def execFmin (h : Hdr) (o : FMinOp) (s : State) : Res := fpMinMax (.fmin h o) h o false s
def execFmax (h : Hdr) (o : FMinOp) (s : State) : Res := fpMinMax (.fmax h o) h o true s

def execFcmp (h : Hdr) (o : FCmpOp) (s : State) : Res :=
  mouldP (.fcmp h o) h o.u o.pd (fun e t =>
    fcmp o.cond (fp32.val (e.src 0 false o.a t).toNat) (fp32.val (e.src 1 false o.b t).toNat)) s

def execFrnd (h : Hdr) (o : FRndOp) (s : State) : Res :=
  mould (.frnd h o) h o.u o.d false (fun e t =>
    (BitVec.ofNat 64 (fp32.round o.rnd ((fp32.val (e.src 0 false o.a t).toNat).integral o.rnd)), 0)) s

/-! ### Packed 16-bit (R166, R91) -/

/-- One rounding for .f16; FP32 and then BF16, both .rne, for .bf16. -/
def hround (bf : Bool) (m : Rnd) (v : Val) : Nat :=
  if bf then bf16.round .rne (fp32.val (fp32.round .rne v)) else fp16.round m v

def hmould (i : Instr) (h : Hdr) (o : HAlu) (f : Val → Val → Val → Val) (s : State) : Res :=
  mould i h o.u o.d false (fun e t =>
    let fmt := if o.bf then bf16 else fp16
    let a := (e.src 0 false o.a t).toNat
    let b := (e.src 1 false o.b t).toNat
    let d := (e.old false o.d t).toNat
    let el (k : Nat) : Nat :=
      let rd (x : Nat) := fmt.val (x / 2 ^ (16 * k) % 2 ^ 16)
      hround o.bf o.rnd (f (rd a) (rd b) (rd d))
    (BitVec.ofNat 64 (el 0 + el 1 * 2 ^ 16), 0)) s

def execHadd2 (h : Hdr) (o : HAlu) (s : State) : Res := hmould (.hadd2 h o) h o (fun x y _ => x.add o.rnd y) s
def execHmul2 (h : Hdr) (o : HAlu) (s : State) : Res := hmould (.hmul2 h o) h o (fun x y _ => x.mul y) s
def execHfma2 (h : Hdr) (o : HAlu) (s : State) : Res := hmould (.hfma2 h o) h o (fun x y z => x.fma o.rnd y z) s

/-! ### Special functions (R167–R169) -/

/-- The unit reads its source in the beats and writes every thread at a variable cycle. -/
def special (i : Instr) (h : Hdr) (o : SfuOp) (f : Sfu) (s : State) : Res :=
  issue i h false noChk (fun e s =>
    s.addAcc { e.acc h .sfu with
      puts := [.v o.d.toNat ((lanesOf e h false).map fun t => (t, sfu f (e.v32 0 o.a t)))] }) s

def execFrcp (h : Hdr) (o : SfuOp) (s : State) : Res := special (.frcp h o) h o .rcp s
def execFrsq (h : Hdr) (o : SfuOp) (s : State) : Res := special (.frsq h o) h o .rsq s
def execFsqrt (h : Hdr) (o : SfuOp) (s : State) : Res := special (.fsqrt h o) h o .sqrt s
def execFex2 (h : Hdr) (o : SfuOp) (s : State) : Res := special (.fex2 h o) h o .ex2 s
def execFlg2 (h : Hdr) (o : SfuOp) (s : State) : Res := special (.flg2 h o) h o .lg2 s
def execFsin (h : Hdr) (o : SfuOp) (s : State) : Res := special (.fsin h o) h o .sin s
def execFcos (h : Hdr) (o : SfuOp) (s : State) : Res := special (.fcos h o) h o .cos s
def execFtanh (h : Hdr) (o : SfuOp) (s : State) : Res := special (.ftanh h o) h o .tanh s

/-- A unit's result write that keeps issue order within the wave (R168, R178). -/
def orderedWrite (k : AccOp → Bool) (id : Nat) (s : State) : Res :=
  match s.ripe id k with
  | none => .next s
  | some a => if s.oldest a then .next (s.complete a a.puts) else .next s

def execSfuResultWrite (id : Nat) (s : State) : Res := orderedWrite (· = .sfu) id s

/-! ### Conversion (R170–R175) -/

/-- Replaces element `k` of `w` bits. -/
def putEl (w k old x : Nat) : Nat := old - (old / 2 ^ (w * k) % 2 ^ w) * 2 ^ (w * k) + x % 2 ^ w * 2 ^ (w * k)

def execCvt (h : Hdr) (o : CvtOp) (s : State) : Res :=
  let ws := tagElemW o.src
  let wd := tagElemW o.dst
  mould (.cvt h o) h false (.v o.d) (wd = 64) (fun e t =>
    let a := (e.src 0 (ws = 64) (.vec o.a) t).toNat
    let x := if ws = 64 then a else a / 2 ^ (ws * o.sela.toNat) % 2 ^ ws
    let y := convertTag o.dst o.src o.rnd x
    let d := (e.old false (.v o.d) t).toNat
    (BitVec.ofNat 64 (if wd < 32 then putEl wd o.seld.toNat d y.1 else y.1), y.2)) s

/-- a · 2^(127 − X), exactly. -/
def unscale (x : Nat) (v : Val) : Val :=
  if x = 255 then .nan
  else match v with
    | .fin neg n d => let p := scale2 1 (127 - (x : Int)); .fin neg (n * p.1) (d * p.2)
    | v => v

def execQnt (h : Hdr) (o : QntOp) (s : State) : Res :=
  mould (.qnt h o) h false (.v o.d) false (fun e t =>
    let x := (e.v32 1 o.b t).toNat % 256
    let y := convert o.dst o.rnd (unscale x (fp32.val (e.v32 0 o.a t).toNat))
    (BitVec.ofNat 64 (putEl (tagElemW o.dst) o.seld.toNat (e.old false (.v o.d) t).toNat y.1), y.2)) s

/-- The scale of a block's largest magnitude (R172). -/
def mxScale (emax : Nat) (v : Val) : Nat × Byte :=
  match v with
  | .nan => (255, 0)
  | .inf _ => (254, SatClass.scl.bit)
  | .fin _ n d => if n = 0 then (0, 0) else ((ilog2 n d - emax + 127).toNat, 0)

def execMxsc (h : Hdr) (o : MxscOp) (s : State) : Res :=
  mould (.mxsc h o) h false (.v o.d) false (fun e t =>
    let x := mxScale (if o.mx4 then 2 else 8) (fp32.val (e.v32 0 o.a t).toNat)
    (BitVec.ofNat 64 (putEl 8 o.seld.toNat (e.old false (.v o.d) t).toNat x.1), x.2)) s

/-- PACK6 (R174): the lowest thread of each quad takes the four codes. -/
def execPack6 (h : Hdr) (o : Pack6Op) (s : State) : Res :=
  issue (.pack6 h o) h false noChk (fun e s =>
    let act := e.w.active h e.c0
    let code (t : Nat) : Nat × Byte :=
      if act.getLsbD t then
        let a := (e.v32 0 o.a t).toNat
        if o.fromF32 then convert .l6 o.rnd (fp32.val a) else (a % 64, 0)
      else (0, 0)
    let quads := (List.range (e.w.kern.width / 4)).map (4 * ·)
    let sat : Byte := (quads.flatMap fun m => [0, 1, 2, 3].map fun k => (code (m + k)).2).foldl (· ||| ·) 0
    let xs := (quads.filter fun m => act.getLsbD m).map fun m =>
      (m, BitVec.ofNat 64 ((code m).1 + (code (m + 1)).1 * 2 ^ 6 + (code (m + 2)).1 * 2 ^ 12 +
        (code (m + 3)).1 * 2 ^ 18))
    fixed e h 4 (putV false o.d.toNat xs ++ satPut sat) s) s

def execUnpack6 (h : Hdr) (o : Unpack6Op) (s : State) : Res :=
  mould (.unpack6 h o) h false (.v o.d) false (fun e t =>
    let g := (e.v32 0 o.a (if o.quad then t / 4 * 4 else t)).toNat
    let i := if o.quad then t % 4 else o.sel.toNat
    let c := g / 2 ^ (6 * i) % 64
    (BitVec.ofNat 64 (if o.toF32 then fp32.round .rne (l6val c) else c), 0)) s

/-! ### Saturation flags (R176, R177) -/

def satInstr (i : Instr) (h : Hdr) (p : Put) (s : State) : Res :=
  issue i h true noChk (fun e s => fixed e h 2 (if e.w.uGuard h e.c0 then [p] else []) s) s

def execSattst (h : Hdr) (pd : BitVec 7) (mask : Byte) (s : State) : Res :=
  satInstr (.sattst h pd mask) h (.satTst pd.toNat mask) s
def execSatclr (h : Hdr) (mask : Byte) (s : State) : Res := satInstr (.satclr h mask) h (.satClr mask) s
def execSatarm (h : Hdr) (set clr : Byte) (s : State) : Res := satInstr (.satarm h set clr) h (.satArm set clr) s

end Sys2Proof.Machine
end

