-- ==== Sys2Proof/Machine/CrossLane.lean ====
section
/-!
DEFINITION. Cross-lane work (R178–R184, R104, R105): results computed from the sources as the beats
read them, written in every thread at one variable cycle, in issue order.
-/

namespace Sys2Proof.Machine

/-- A cross-lane instruction: what it will write, from what its beats read. -/
def crossLane (i : Instr) (h : Hdr) (f : Env → List Put) (s : State) : Res :=
  issue i h false noChk (fun e s => s.addAcc { e.acc h .xlane with puts := f e }) s

def execCrossLaneResultWrite (id : Nat) (s : State) : Res := orderedWrite (· = .xlane) id s

/-- The source thread of SHFL (R179). -/
def shflSrc (m : ShflMode) (n l k : Nat) : Nat :=
  let base := l - l % n
  match m with
  | .idx => base + k % n
  | .up => if n ≤ k ∨ l < base + k then l else l - k
  | .down => if n ≤ k ∨ base + n ≤ l + k then l else l + k
  | .xor => base + ((l - base) ^^^ (k % n))

def execShfl (h : Hdr) (o : ShflOp) (s : State) : Res :=
  crossLane (.shfl h o) h (fun e =>
    putV o.wide o.d.toNat ((lanesOf e h false).map fun l =>
      let k := (e.src 1 o.wide (.vec o.b) l).toNat % 2 ^ 32
      let t := shflSrc o.mode (2 ^ o.seg.toNat) l k
      (l, if e.w.present.getLsbD t then e.src 0 o.wide (.vec o.a) t else 0))) s

/-- The thread that RDLANE and WRLANE name exists (R180). S(b), as S(a) of WRLANE, is read in the first beat (DESIGN
CHOICE, log 15). -/
def laneOf (e : Env) (b : BitVec 8) : Option Nat :=
  let i := (e.sr b).toNat % 64
  if i < e.w.kern.width && e.w.present.getLsbD i then some i else none

def execRdlane (h : Hdr) (o : RdlaneOp) (s : State) : Res :=
  crossLane (.rdlane h o) h (fun e =>
    if e.w.uGuard h e.c0 then
      putS o.wide o.d.toNat (match laneOf e o.b with
        | some i => e.src 0 o.wide (.vec (.v o.a)) i
        | none => 0)
    else []) s

def execWrlane (h : Hdr) (o : WrlaneOp) (s : State) : Res :=
  crossLane (.wrlane h o) h (fun e =>
    if e.w.uGuard h e.c0 then
      match laneOf e o.b with
      | some i => putV o.wide o.d.toNat [(i, e.src 0 o.wide (.sca (.s o.a)) 0)]
      | none => []
    else []) s

/-- A NaN result is canonical (R81). -/
def canon32 (x : Nat) : Nat := if (fp32.val x).isNan then 0x7FC00000 else x

/-- The combination of R181. -/
def redComb (op : RedOp) (t : Tag) (m : Rnd) (a b : Nat) : Nat :=
  let w := tagW t
  let rd (x : Nat) := readInt t w (BitVec.ofNat 64 x)
  match op with
  | .add => (a + b) % 2 ^ w
  | .min => if rd b < rd a then b else a
  | .max => if rd a < rd b then b else a
  | .and => a &&& b
  | .or => a ||| b
  | .xor => a ^^^ b
  | .fadd => fp32.round m ((fp32.val a).add m (fp32.val b))
  | .fmin => fminmax fp32 false false a b
  | .fmax => fminmax fp32 true false a b

def redIdent (op : RedOp) (t : Tag) : Nat :=
  let w := tagW t
  match op with
  | .min => if t.signed then 2 ^ (w - 1) - 1 else 2 ^ w - 1
  | .max => if t.signed then 2 ^ (w - 1) else 0
  | .and => 2 ^ w - 1
  | .fmin => 0x7F800000
  | .fmax => 0xFF800000
  | _ => 0

/-- One level of the tree of R104: an absent child leaves the other as it is. -/
def treeLevel (f : Nat → Nat → Nat) : List (Option Nat) → List (Option Nat)
  | x :: y :: l =>
    (match x, y with
     | some a, some b => some (f a b)
     | some a, none => some a
     | none, y => y) :: treeLevel f l
  | l => l

/-- The tree of R104 over 2^k leaves. -/
def treeFold (f : Nat → Nat → Nat) : Nat → List (Option Nat) → Option Nat
  | 0, l => l.head?.join
  | k + 1, l => treeFold f k (treeLevel f l)

def redOut (t : Tag) (x : Nat) : W64 := BitVec.ofNat 64 (if t = .f32 then canon32 x else x)

def execVred (h : Hdr) (o : VredOp) (s : State) : Res :=
  crossLane (.vred h o) h (fun e =>
    let act := e.w.active h e.c0
    let leaves := (List.range 64).map fun t =>
      if act.getLsbD t then some (e.src 0 o.tag.wide (.vec o.a) t).toNat else none
    putS o.tag.wide o.d.toNat
      (redOut o.tag ((treeFold (redComb o.rop o.tag o.rnd) 6 leaves).getD (redIdent o.rop o.tag)))) s

/-- The fold of R105 from the left: each thread with its inclusive and exclusive results. -/
def scanFold (f : Nat → Nat → Nat) (ident : Nat) : Option Nat → List (Nat × Nat) → List (Nat × Nat × Nat)
  | _, [] => []
  | acc, (t, x) :: l =>
    let y := match acc with | none => x | some a => f a x
    (t, y, acc.getD ident) :: scanFold f ident (some y) l

def execVscan (h : Hdr) (o : VscanOp) (s : State) : Res :=
  crossLane (.vscan h o) h (fun e =>
    let xs := (lanesOf e h false).map fun t => (t, (e.src 0 o.tag.wide (.vec o.a) t).toNat)
    putV o.tag.wide o.d.toNat
      ((scanFold (redComb o.rop o.tag o.rnd) (redIdent o.rop o.tag) none xs).map fun r =>
        (r.1, redOut o.tag (if o.excl then r.2.2 else r.2.1)))) s

/-- Keys that match (R184). -/
def keyEq (t : Tag) (a b : W64) : Bool :=
  match t with
  | .f32 =>
    let x := fp32.val a.toNat
    let y := fp32.val b.toNat
    (x.isNan && y.isNan) || x.eqv y
  | _ => a = b

def execVmatch (h : Hdr) (o : VmatchOp) (s : State) : Res :=
  crossLane (.vmatch h o) h (fun e =>
    let xs := (lanesOf e h false).map fun t => (t, e.src 0 o.tag.wide (.vec o.a) t)
    putV true o.d.toNat (xs.map fun x =>
      (x.1, maskOf ((xs.filter fun y => keyEq o.tag x.2 y.2).map (·.1))))) s

end Sys2Proof.Machine
end

