-- ==== Sys2Proof/Machine/Rays.lean ====
section
/-!
DEFINITION. Rays and the Cullet table, rasterisation, texture and blending (R315–R343), with the
performance of scratchpad operations.
-/

namespace Sys2Proof.Machine

/-! ### Reading a structure header or a texture descriptor -/

/-- A 32-byte block read at issue: its bytes, or why the instruction does not issue. -/
inductive Blk32
  | bytes (bs : List Byte) (pa : Nat) (l1 : Bool)
  | stop (c : Chk)
  deriving DecidableEq, Repr

def State.block32 (s : State) (e : Env) (t : Nat) (va : W64) : Blk32 :=
  if va.toNat % 32 ≠ 0 then .stop (.trap 3 va)
  else if bits va 63 51 ≠ 0 then .stop (.trap 5 va)
  else match s.xlate (some e.w.id.core) e.w.grp.part .read 32 [(t, va)] with
    | .miss ms => .stop (.park ms)
    | .trap c va => .stop (.trap c va)
    | .ok _ =>
      match s.blockAt e.w va with
      | some (pa, l1) => if s.blockWait e.w va then .stop .hold else .bytes (s.blockRead e.w pa l1).1 pa l1
      | none => .stop .hold

def getLe (bs : List Byte) (off n : Nat) : Nat := leNat ((bs.drop off).take n)

/-- A structure header (R315). -/
structure RayHdr where
  nodes : Nat
  tris : Nat
  root : W32
  ntri : Nat
  gen : BitVec 16
  asid : Nat
  qexp : Int
  bad : Bool
  deriving DecidableEq, Repr

def rayHdr (bs : List Byte) : RayHdr :=
  let nodes := getLe bs 0 8
  let tris := getLe bs 8 8
  { nodes := nodes, tris := tris, root := BitVec.ofNat 32 (getLe bs 16 4), ntri := getLe bs 20 4,
    gen := BitVec.ofNat 16 (getLe bs 24 2), asid := getLe bs 26 2, qexp := signedOf 8 (getLe bs 28 1),
    bad := nodes % 256 ≠ 0 || tris % 16 ≠ 0 || getLe bs 29 3 ≠ 0 }

/-! ### Exact comparisons -/

def Val.le (a b : Val) : Bool := !a.isNan && !b.isNan && !b.lt a
def Val.max' (a b : Val) : Val := if a.isNan || b.isNan then .nan else if a.lt b then b else a
def Val.min' (a b : Val) : Val := if a.isNan || b.isNan then .nan else if b.lt a then b else a

/-- a / b for b ≠ 0. -/
def Val.div' (a b : Val) : Val :=
  match a, b with
  | .nan, _ | _, .nan => .nan
  | .inf _, .inf _ => .nan
  | .inf x, .fin y _ _ => .inf (x != y)
  | .fin x _ _, .inf y => .fin (x != y) 0 1
  | .fin x n d, .fin y n' d' => if n' = 0 then .nan else .fin (x != y) (n * d') (d * n')

def Val.isZero : Val → Bool
  | .fin _ 0 _ => true
  | _ => false

def Val.finite : Val → Bool
  | .fin _ _ _ => true
  | _ => false

/-- The rational of a finite value. -/
def Val.rat : Val → Rat'
  | .fin neg n d => ratOf neg n d
  | _ => ⟨0, 1⟩

def f32v (x : W32) : Val := fp32.val x.toNat
def f32r (m : Rnd) (v : Val) : W32 := BitVec.ofNat 32 (fp32.round m v)

/-! ### RBOX (R324) -/

/-- One axis: its interval, or none where it is empty. -/
def slab1 (lo hi org dir : Val) : Option (Val × Val) :=
  if lo.isNan || hi.isNan || org.isNan || dir.isNan || hi.lt lo then none
  else if dir.isZero then
    if lo.le org && org.le hi then some (.inf true, .inf false) else none
  else
    let t1 := (lo.add .rne org.neg).div' dir
    let t2 := (hi.add .rne org.neg).div' dir
    some (t1.min' t2, t1.max' t2)

/-- The rounded entry point of a hit child. -/
def boxHit (box ray : List W32) : Option W32 :=
  let f (l : List W32) (i : Nat) : Val := f32v (l.getD i 0)
  match slab1 (f box 0) (f box 3) (f ray 0) (f ray 3), slab1 (f box 1) (f box 4) (f ray 1) (f ray 4),
      slab1 (f box 2) (f box 5) (f ray 2) (f ray 5) with
  | some x, some y, some z =>
    let n := ((f ray 6).max' x.1).max' (y.1.max' z.1)
    let m := (x.2.min' y.2).min' z.2
    let r := f32r .rd n
    if n.le m && (f32v r).le (f ray 7) then some r else none
  | _, _, _ => none

/-- Inserts a child by its entry point; equal ones keep their order. -/
def insNear (x : Nat × W32) : List (Nat × W32) → List (Nat × W32)
  | [] => [x]
  | y :: l => if (f32v x.2).lt (f32v y.2) then x :: y :: l else y :: insNear x l

/-- The results of RBOX for one thread, from the node's bytes. -/
def rboxThread (node : List Byte) (ray : List W32) : W32 × W32 :=
  let word (off : Nat) : W32 := BitVec.ofNat 32 (getLe node off 4)
  let hits := (List.range 8).filterMap fun i =>
    if word (192 + 4 * i) = 0xFFFFFFFF then none
    else (boxHit ((List.range 6).map fun j => word (24 * i + 4 * j)) ray).map fun r => (i, r)
  let order := (hits.foldl (fun l x => insNear x l) []).map (·.1)
  let slots := ((List.range order.length).zip order).foldl (fun n x => n + x.2 * 8 ^ x.1) 0
  let mask (l : List Nat) : Nat := l.foldl (fun n i => n + 2 ^ i) 0
  let leaves := order.filter fun i => (word (192 + 4 * i)).getLsbD 31
  (BitVec.ofNat 32 (order.length * 2 ^ 24 + slots), BitVec.ofNat 32 (mask leaves * 256 + mask order))

/-! ### RTRI (R326, R327) -/

abbrev V3 := Rat' × Rat' × Rat'

def V3.sub (a b : V3) : V3 := (a.1.sub b.1, a.2.1.sub b.2.1, a.2.2.sub b.2.2)

def V3.cross (a b : V3) : V3 :=
  ((a.2.1.mul b.2.2).sub (a.2.2.mul b.2.1), (a.2.2.mul b.1).sub (a.1.mul b.2.2), (a.1.mul b.2.1).sub (a.2.1.mul b.1))

def V3.dot (a b : V3) : Rat' := ((a.1.mul b.1).add (a.2.1.mul b.2.1)).add (a.2.2.mul b.2.2)

/-- The exact t, and t, u and v rounded, of a triangle that the ray hits; a zero is +0 (R326; DESIGN CHOICE, log 93). -/
def triHit (tri ray : List W32) : Option (Rat' × W32 × W32 × W32) :=
  let vs := (tri.take 9 ++ ray.take 6).map f32v
  if vs.all Val.finite then
    let r (l : List W32) (i : Nat) : Rat' := (f32v (l.getD i 0)).rat
    let vec (l : List W32) (i : Nat) : V3 := (r l i, r l (i + 1), r l (i + 2))
    let o := vec ray 0
    let d := vec ray 3
    let v0 := vec tri 0
    let v1 := vec tri 3
    let v2 := vec tri 6
    let e0 := V3.dot d (V3.cross (V3.sub v1 o) (V3.sub v2 o))
    let e1 := V3.dot d (V3.cross (V3.sub v2 o) (V3.sub v0 o))
    let e2 := V3.dot d (V3.cross (V3.sub v0 o) (V3.sub v1 o))
    let sum := (e0.add e1).add e2
    let es := [e0, e1, e2]
    if sum.num ≠ 0 && (es.all (fun e => 0 ≤ e.num) || es.all (fun e => e.num ≤ 0)) then
      let tx := (V3.dot (V3.sub v0 o) (V3.cross (V3.sub v1 v0) (V3.sub v2 v0))).div sum
      some (tx, f32r .rne (tx.val false), f32r .rne ((e1.div sum).val false), f32r .rne ((e2.div sum).val false))
    else none
  else none

/-- A key: t, then prim (R320). -/
def keyLt (a b : W32 × W32) : Bool :=
  (f32v a.1).lt (f32v b.1) || ((f32v a.1).eqv (f32v b.1) && a.2.toNat < b.2.toNat)

/-- A candidate: CT, CPRIM, CU, CV. -/
structure Cand where
  t : W32
  prim : W32
  u : W32
  v : W32
  deriving DecidableEq, Repr

def Cand.key (c : Cand) : W32 × W32 := (c.t, c.prim)

def insCand (x : Cand) : List Cand → List Cand
  | [] => [x]
  | y :: l => if keyLt x.key y.key then x :: y :: l else y :: insCand x l

/-- The ray block as RTRI works on it (R319). -/
structure RayBlk where
  tmax : W32
  hprim : W32
  hu : W32
  hv : W32
  hit : Bool
  steps : W32
  hleaf : W32
  dropt : W32
  dropp : W32
  cands : List Cand
  deriving DecidableEq, Repr

/-- One triangle of a leaf reference, from its bytes. -/
def RayBlk.test (b : RayBlk) (ray : List W32) (ref : W32) (bs : List Byte) : RayBlk :=
  let b := { b with steps := b.steps + 1 }
  let word (off : Nat) : W32 := BitVec.ofNat 32 (getLe bs off 4)
  let prim := word 36
  match triHit ((List.range 9).map fun i => word (4 * i)) ray with
  | none => b
  | some (tx, t, u, v) =>
    let k := (t, prim)
    if prim = 0xFFFFFFFF || (tx.val false).lt (f32v (ray.getD 6 0)) || !keyLt k (b.tmax, b.hprim) then b
    else if (word 40).getLsbD 0 then
      { b with tmax := t, hprim := prim, hu := u, hv := v, hleaf := ref, hit := true,
               cands := b.cands.filter fun c => keyLt c.key k }
    else if b.cands.any fun c => c.prim = prim then b
    else if b.cands.length < 8 then { b with cands := insCand ⟨t, prim, u, v⟩ b.cands }
    else
      let last := (b.cands.getD 7 ⟨0, 0, 0, 0⟩).key
      let m := if keyLt last k then k else last
      let b := if m = k then b else { b with cands := insCand ⟨t, prim, u, v⟩ (b.cands.take 7) }
      if keyLt m (b.dropt, b.dropp) then { b with dropt := m.1, dropp := m.2 } else b

/-- The block from its 48 registers, and back: offsets 7 to 47. -/
def RayBlk.ofRegs (r : List W32) : RayBlk :=
  let g (i : Nat) : W32 := r.getD i 0
  { tmax := g 7, hprim := g 8, hu := g 9, hv := g 10, hit := (g 11).getLsbD 5, steps := g 12, hleaf := g 13,
    dropt := g 14, dropp := g 15,
    cands := (List.range (min 8 (bits (g 11) 3 0))).map fun k =>
      ⟨g (16 + 4 * k), g (17 + 4 * k), g (18 + 4 * k), g (19 + 4 * k)⟩ }

def RayBlk.toRegs (b : RayBlk) (old : List W32) : List (Nat × W32) :=
  let ovf := keyLt (b.dropt, b.dropp) (b.tmax, b.hprim)
  let stat : W32 := BitVec.ofNat 32 ((if b.hit then 32 else 0) + (if ovf then 16 else 0) + b.cands.length)
  [(7, b.tmax), (8, b.hprim), (9, b.hu), (10, b.hv), (11, stat), (12, b.steps), (13, b.hleaf), (14, b.dropt),
   (15, b.dropp)] ++
  (List.range 8).flatMap fun k =>
    match b.cands[k]? with
    | some c => [(16 + 4 * k, c.t), (17 + 4 * k, c.prim), (18 + 4 * k, c.u), (19 + 4 * k, c.v)]
    | none => (List.range 4).map fun i => (16 + 4 * k + i, old.getD (16 + 4 * k + i) 0)

/-- The triangle indices of a leaf reference below NTRI. -/
def leafTris (hd : RayHdr) (ref : W32) : List Nat :=
  if ref = 0xFFFFFFFF || !ref.getLsbD 31 then []
  else ((List.range (bits ref 30 27 + 1)).map fun i => bits ref 26 0 + i).filter (· < hd.ntri)

/-! ### The Cullet table (R331–R334) -/

/-- The lookup key of a ray: K, or none. -/
def rayKey (hd : RayHdr) (ray : List W32) : Option W64 :=
  let vs := (ray.take 6).map f32v
  let dirs := vs.drop 3
  if !vs.all Val.finite || dirs.all Val.isZero then none
  else
    let r (i : Nat) : Rat' := (vs.getD i .nan).rat
    let cell (i : Nat) : Nat :=
      let sc := scale2 1 (-hd.qexp)
      (((r i).mul ⟨sc.1, sc.2⟩).floor % 65536).toNat
    let ab (x : Rat') : Rat' := ⟨x.num.natAbs, x.den⟩
    let s := ((ab (r 3)).add (ab (r 4))).add (ab (r 5))
    let x := (r 3).div s
    let y := (r 4).div s
    let one : Rat' := ⟨1, 1⟩
    let sg (v a : Rat') : Rat' := if a.num < 0 then v.neg else v
    let p := if (r 5).num < 0 then (sg (one.sub (ab y)) x, sg (one.sub (ab x)) y) else (x, y)
    let oct (v : Rat') : Nat := min 31 (((v.add one).mul ⟨16, 1⟩).floor.toNat)
    let k : Nat := cell 2 * 2 ^ 48 + cell 1 * 2 ^ 32 + cell 0 * 2 ^ 16 + hd.asid
    some (BitVec.ofNat 64 k ^^^ BitVec.ofNat 64 (oct p.2 * 2 ^ 59 + oct p.1 * 2 ^ 54))

/-- CS and CUB of the share in force. -/
def Part.cs (p : Part) : Nat := bits p.force.band 35 32
def Part.cub (p : Part) : Nat := bits p.force.band 63 56

/-- The table entry of a key in a partition's share, and its TAG; none without a share. -/
def State.culletAt (s : State) (p : Nat) (k : W64) : Option (Nat × W32) :=
  let d := s.part p
  if !s.hasCullet || 8 < d.cs then none
  else
    let idx := (bits k 19 0 ^^^ bits k 39 20 ^^^ bits k 59 40 ^^^ bits k 63 60) % (4096 * 2 ^ d.cs)
    some (d.cub * 4096 + idx, lo32 k ^^^ hi32 k)

/-- What the table holds of an entry for an RHINT of this cycle: as it stood before the cycle's write (R335). -/
def State.culletSeen (s : State) (idx : Nat) : Option Cullet :=
  match s.culletUse.find? fun u => u.idx = idx with
  | some u => u.was
  | none => s.cullet.find? fun c => c.idx = idx

/-- RHINT's answer for one ray; none while another RHINT of the cycle has the entry, for the table performs at most
one operation on an entry in a cycle (R335). -/
def State.rayHint (s : State) (p : Nat) (hd : RayHdr) (ray : List W32) : Option ((W32 × W32) × State) :=
  let miss : W32 × W32 := (0xFFFFFFFF, 0xFFFFFFFF)
  if hd.bad then some (miss, s)
  else match (rayKey hd ray).bind (s.culletAt p) with
    | none => some (miss, s)
    | some (idx, tag) =>
      if s.culletUse.any fun u => u.idx = idx && u.hint then none
      else
        let c := s.culletSeen idx
        let r := match c with
          | some c => if c.tag = tag && c.gen = hd.gen then ((1#1 ++ c.leaf : W32), c.prim) else miss
          | none => miss
        some (r, { s with culletUse := ⟨idx, c, true⟩ :: s.culletUse.filter fun u => u.idx ≠ idx })

/-- RHSET of one ray; none while an operation of the cycle has reached the entry (R335). -/
def State.raySet (s : State) (p : Nat) (hd : RayHdr) (ray : List W32) : Option State :=
  let hleaf := ray.getD 13 0
  if hd.bad || !(ray.getD 11 0).getLsbD 5 || !hleaf.getLsbD 31 then some s
  else match (rayKey hd ray).bind (s.culletAt p) with
    | none => some s
    | some (idx, tag) =>
      if s.culletUse.any fun u => u.idx = idx then none
      else some { s with
        cullet := ⟨idx, tag, hd.gen, hleaf.truncate 31, ray.getD 8 0⟩ :: s.cullet.filter fun c => c.idx ≠ idx
        culletUse := ⟨idx, s.cullet.find? fun c => c.idx = idx, false⟩ :: s.culletUse }

/-! ### Issue of the ray instructions (R322) -/

/-- Operands of one thread, as an access keeps them: the thread, the operand B, and block registers. -/
def rayArg (e : Env) (a : BitVec 9) (n : Nat) (b : Nat → W32) (t : Nat) : List W64 :=
  BitVec.ofNat 64 t :: (b t).zeroExtend 64 ::
    (List.range n).map fun i => (e.w.rv (e.at_ t) (a.toNat + i) t).zeroExtend 64

/-- Cuts a list into pieces of `n`. -/
def chunks {α : Type} (n : Nat) : (fuel : Nat) → List α → List (List α)
  | 0, _ => []
  | k + 1, l => if l.isEmpty then [] else l.take n :: chunks n k (l.drop n)

/-- The threads of kept operands, each with B and its registers. -/
def rayThreads (n : Nat) (args : List W64) : List (Nat × W32 × List W32) :=
  (chunks (n + 2) args.length args).map fun c => ((c.getD 0 0).toNat, lo32 (c.getD 1 0), (c.drop 2).map lo32)

/-- The header's four words as lanes performed at issue. -/
def hdrLanes (va : W64) (pa : Nat) (bs : List Byte) (poison : Bool) : List Lane :=
  (blockLanes va pa true).map fun l =>
    { l with perf := true, poison := poison, res := BitVec.ofNat 64 (getLe bs (8 * l.t) 8) }

/-- The data that an instruction will read, from the header it has read: threads with addresses. -/
abbrev Reads := List Byte → List (Nat × W64)

/-- The data reads that the checks at issue judge: all of them where the operands that give their addresses are there, and else
none, for a misused port has no entry (R209). -/
def Env.judged (e : Env) (rd : Reads) : Reads := if popsAt e.w e.id e.c0 [0, 1] then rd else fun _ => []

/-- The checks of an instruction that reads a header or descriptor and then `reads`, `size` bytes each. The header is
read and checked whether or not a thread is active (R322); watchpoints do not watch these reads (R416). -/
def blockChk (s : State) (e : Env) (ts : List Nat) (va : W64) (size : Nat) (reads : Reads) : Chk :=
  if s.memHold e.w then .hold
  else match s.block32 e (ts.headD 0) va with
    | .stop c => c
    | .bytes bs _ _ =>
      let xs := reads bs
      match addrChk 1 xs with
      | .ok => (s.xlate (some e.w.id.core) e.w.grp.part .read size xs).chk
      | c => c

/-- The lanes of the data that an instruction reads after its header: the header's own are 0 to 3. -/
def State.dataLanes (s : State) (ps : List (Nat × W64 × Nat × Bool)) : List Lane :=
  ps.zipIdx.map fun (x, k) => Lane.mk' (4 + k) x.2.1 x.2.2.1 0 0 (s.l1able x.2.2.1 x.2.2.2)

/-- Starts it: the header is read now, and a lane stands for each datum still to be read. -/
def State.startBlock (s : State) (e : Env) (a : Acc) (va : W64) (size : Nat) (reads : Reads) : State :=
  match s.blockAt e.w va with
  | none => s.addAcc a
  | some (pa, l1) =>
    let (bs, poison, s) := s.blockRead e.w pa l1
    let data := s.dataLanes (s.pasOf e .read size (reads bs))
    let a := s.ordered e.w { a with lanes := hdrLanes va pa bs poison ++ data } false false
    s.startLoad a (s.l1Bound e.w.id.core (data.map fun l => l.pa / 128))

/-- An instruction on ray blocks: header pair, block registers, B and what it reads of each thread. -/
def rayOp (i : Instr) (h : Hdr) (op : AccOp) (hs : BitVec 8) (a : BitVec 9) (n : Nat) (b : Env → Nat → W32)
    (reads : RayHdr → W32 → List W64) (dst : AccDst) (s : State) : Res :=
  let rd (e : Env) (ts : List Nat) : Reads := fun bs =>
    let hd := rayHdr bs
    if hd.bad then [] else ts.flatMap fun t => (reads hd (b e t)).map fun va => (t, va)
  issue i h false
    (fun s e => let ts := lanesOf e h false; blockChk s e ts (e.srPair hs) 8 (e.judged (rd e ts)))
    (fun e s =>
      let ts := lanesOf e h false
      let args := BitVec.ofNat 64 a.toNat :: ts.flatMap fun t => rayArg e a n (b e) t
      s.startBlock e { e.acc h op with tag := .b64, args := args, dst := dst } (e.srPair hs) 8 (rd e ts)) s

/-- The 8-byte words of a range of bytes. -/
def words8 (base n : Nat) : List W64 := (List.range n).map fun i => BitVec.ofNat 64 (base + 8 * i)

def execRbox (h : Hdr) (o : RboxOp) (s : State) : Res :=
  rayOp (.rbox h o) h .rbox o.hs o.a 16 (fun e t => e.v32 1 o.b t)
    (fun hd b => words8 (hd.nodes + 256 * b.toNat) 28) (.v o.d.toNat true) s

def execRtri (h : Hdr) (o : RtriOp) (s : State) : Res :=
  rayOp (.rtri h o) h .rtri o.hs o.a 48 (fun e t => e.v32 1 o.b t)
    (fun hd b => (leafTris hd b).flatMap fun i => words8 (hd.tris + 48 * i) 6) .none s

def execRhint (h : Hdr) (o : RhintOp) (s : State) : Res :=
  rayOp (.rhint h o) h .rhint o.hs o.a 16 (fun _ _ => 0) (fun _ _ => []) (.v o.d.toNat true) s

def execRhset (h : Hdr) (o : RhsetOp) (s : State) : Res :=
  rayOp (.rhset h o) h .rhset o.hs o.a 16 (fun _ _ => 0) (fun _ _ => []) .none s

/-! ### RAST (R336, R337) -/

/-- The operands of RAST, and what it works out of them. -/
structure Rast where
  x : List Int
  y : List Int
  sw : Nat
  sh : Nat
  deriving DecidableEq, Repr

namespace Rast

def px (r : Rast) (i : Nat) : Int := r.x.getD i 0
def py (r : Rast) (i : Nat) : Int := r.y.getD i 0

/-- E(i, j, P). -/
def edge (r : Rast) (i j : Nat) (px py : Int) : Int :=
  (r.px j - r.px i) * (py - r.py i) - (r.py j - r.py i) * (px - r.px i)

def area (r : Rast) : Int := r.edge 0 1 (r.px 2) (r.py 2)

def sg (r : Rast) : Int := if 0 < r.area then 1 else if r.area < 0 then -1 else 0

def covered (r : Rast) (x y : Nat) : Bool :=
  let p : Int × Int := (256 * x + 128, 256 * y + 128)
  [(0, 1), (1, 2), (2, 0)].all fun (i, j) =>
    let f := r.sg * r.edge i j p.1 p.2
    let dx := r.sg * (r.px j - r.px i)
    let dy := r.sg * (r.py j - r.py i)
    decide (0 < f) || (decide (f = 0) && (decide (dy < 0) || (decide (dy = 0) && decide (0 < dx))))

/-- The region's bounds: x from, x to, y from, y to; none when it is empty. -/
def region (r : Rast) : Option (Nat × Nat × Nat × Nat) :=
  let lo (l : List Int) : Int := (l.foldl min (l.getD 0 0)) / 256
  let hi (l : List Int) : Int := (l.foldl max (l.getD 0 0)) / 256
  let x0 := max 0 (lo r.x)
  let x1 := min ((r.sw : Int) - 1) (hi r.x)
  let y0 := max 0 (lo r.y)
  let y1 := min ((r.sh : Int) - 1) (hi r.y)
  if x1 < x0 || y1 < y0 then none else some (x0.toNat, x1.toNat, y0.toNat, y1.toNat)

def pos (x y : Nat) : Nat := (y / 2) * 2 ^ 17 + (x / 2) * 4 + y % 2 * 2 + x % 2

/-- The region's pixels of a quad at or above a position, in walk order. -/
def quadPix (b : Nat × Nat × Nat × Nat) (qx qy from_ : Nat) : List (Nat × Nat) :=
  ([(0, 0), (1, 0), (0, 1), (1, 1)].map fun (i, j) => (2 * qx + i, 2 * qy + j)).filter fun (x, y) =>
    b.1 ≤ x && x ≤ b.2.1 && b.2.2.1 ≤ y && y ≤ b.2.2.2 && from_ ≤ pos x y

/-- The next quad in row-major order; none at the region's end. -/
def nextQuad (b : Nat × Nat × Nat × Nat) (q : Nat × Nat) : Option (Nat × Nat) :=
  if q.1 < b.2.1 / 2 then some (q.1 + 1, q.2)
  else if q.2 < b.2.2.2 / 2 then some (b.1 / 2, q.2 + 1) else none

/-- Takes covered pixels of one quad until `na` are found. -/
def takePix (r : Rast) (na : Nat) : List (Nat × Nat) → List (Nat × Nat) → List (Nat × Nat)
  | found, [] => found
  | found, p :: ps =>
    if found.length = na then found
    else takePix r na (if r.covered p.1 p.2 then found ++ [p] else found) ps

/-- The scan: at most as many quads as the fuel; found pixels and the token. -/
def scan (r : Rast) (na : Nat) (b : Nat × Nat × Nat × Nat) (from_ : Nat) :
    (fuel : Nat) → (q : Option (Nat × Nat)) → (found : List (Nat × Nat)) → (last : Nat) → List (Nat × Nat) × W32
  | _, none, found, _ => (found, 0xFFFFFFFF)
  | 0, some _, found, last => (found, BitVec.ofNat 32 last)
  | n + 1, some q, found, last =>
    let ps := quadPix b q.1 q.2 from_
    let found := takePix r na found ps
    if found.length = na then
      (found, BitVec.ofNat 32 (match found.getLast? with | some p => pos p.1 p.2 + 1 | none => last))
    else scan r na b from_ n (nextQuad b q) found (match ps.getLast? with | some p => pos p.1 p.2 + 1 | none => last)

/-- The quad from which a scan at a token starts. -/
def start (b : Nat × Nat × Nat × Nat) (token : Nat) : Option (Nat × Nat) :=
  let q : Nat × Nat := (token / 4 % 2 ^ 15, token / 2 ^ 17)
  let x0 := b.1 / 2
  let x1 := b.2.1 / 2
  let y0 := b.2.2.1 / 2
  let q := if q.2 < y0 then (x0, y0) else if q.1 < x0 then (x0, q.2) else if x1 < q.1 then (x0, q.2 + 1) else q
  if b.2.2.2 / 2 < q.2 then none
  else if (quadPix b q.1 q.2 token).isEmpty then nextQuad b q else some q

/-- One issue of RAST with `na` active threads: the pixels and the token. -/
def run (r : Rast) (na : Nat) (token : W32) : List (Nat × Nat) × W32 :=
  if token = 0xFFFFFFFF || r.area = 0 then ([], 0xFFFFFFFF)
  else match r.region with
    | none => ([], 0xFFFFFFFF)
    | some b => r.scan na b token.toNat 4096 (start b token.toNat) [] token.toNat

end Rast

def intQuot (a b : Int) : W32 := f32r .rne ((Rat'.div ⟨a, 1⟩ ⟨b, 1⟩).val false)

def execRast (h : Hdr) (o : RastOp) (s : State) : Res :=
  issue (.rast h o) h false noChk (fun e s =>
    let ts := lanesOf e h false
    let sx (i : Nat) : W32 := e.w.rs e.c0 (o.a.toNat + i)
    let c (i : Nat) : Int := signedOf 24 (bits (sx i) 23 0)
    let r : Rast := ⟨[c 0, c 2, c 4], [c 1, c 3, c 5], bits (sx 6) 15 0, bits (sx 6) 31 16⟩
    let res := r.run ts.length (e.sr o.b)
    let out (k : Nat) : W32 × W32 × W32 := match res.1[k]? with
      | some (x, y) =>
        (BitVec.ofNat 32 (y % 65536 * 65536 + x % 65536),
         intQuot (r.edge 2 0 (256 * x + 128) (256 * y + 128)) r.area,
         intQuot (r.edge 0 1 (256 * x + 128) (256 * y + 128)) r.area)
      | none => (0xFFFFFFFF, 0, 0)
    let outs := ((List.range ts.length).zip ts).map fun (k, t) => (t, out k)
    let d := o.d.toNat
    let puts : List Put := if ts.isEmpty then [] else
      [.v d (outs.map fun x => (x.1, x.2.1)), .v (d + 1) (outs.map fun x => (x.1, x.2.2.1)),
       .v (d + 2) (outs.map fun x => (x.1, x.2.2.2)), .s o.b.toNat res.2]
    s.addAcc { e.acc h .rast with puts := puts }) s

/-! ### TEX and TEXQ (R338–R341) -/

/-- A texture descriptor. -/
structure TexDesc where
  base : Nat
  w : Nat
  h : Nat
  pitch : Nat
  fmt : Nat
  wrapU : Bool
  wrapV : Bool
  frame : W32
  bad : Bool
  deriving DecidableEq, Repr

def texelSize (fmt : Nat) : Nat := if fmt = 3 then 8 else 4

def texDesc (bs : List Byte) : TexDesc :=
  let fmt := getLe bs 16 1
  let ts := texelSize fmt
  let base := getLe bs 0 8
  let w := getLe bs 8 2
  let h := getLe bs 10 2
  let pitch := getLe bs 12 4
  let addr := getLe bs 17 1
  { base := base, w := w, h := h, pitch := pitch, fmt := fmt, wrapU := addr % 2 = 1, wrapV := addr / 2 % 2 = 1,
    frame := BitVec.ofNat 32 (getLe bs 20 4),
    bad := base % ts ≠ 0 || w = 0 || h = 0 || pitch % ts ≠ 0 || 3 < fmt || 4 ≤ addr || getLe bs 18 2 ≠ 0 ||
      getLe bs 24 8 ≠ 0 }

/-- A coordinate: the exact u · size − (1/2 or 0). -/
def texCoord (x : W32) (size : Nat) (wrap half : Bool) : Rat' :=
  let u : Rat' := match f32v x with
    | .nan => ⟨0, 1⟩
    | .inf neg => if wrap || neg then ⟨0, 1⟩ else ⟨1, 1⟩
    | v => v.rat
  (u.mul ⟨size, 1⟩).sub (if half then ⟨1, 2⟩ else ⟨0, 1⟩)

/-- A column or row after addressing. -/
def texWrap (i : Int) (n : Nat) (wrap : Bool) : Nat :=
  if wrap then (i % (n : Int)).toNat else (min (max i 0) ((n : Int) - 1)).toNat

/-- Where a sample falls: i0, j0, and the fractions. -/
structure TexPos where
  i : Int
  j : Int
  fx : Rat'
  fy : Rat'
  deriving DecidableEq, Repr

def texPos (d : TexDesc) (half : Bool) (u v : W32) : TexPos :=
  let x := texCoord u d.w d.wrapU half
  let y := texCoord v d.h d.wrapV half
  ⟨x.floor, y.floor, x.sub ⟨x.floor, 1⟩, y.sub ⟨y.floor, 1⟩⟩

def TexPos.fxq (p : TexPos) : Nat := ((p.fx.mul ⟨16, 1⟩).floor).toNat
def TexPos.fyq (p : TexPos) : Nat := ((p.fy.mul ⟨16, 1⟩).floor).toNat

def texelVa (d : TexDesc) (i j : Int) : Nat :=
  d.base + texWrap j d.h d.wrapV * d.pitch + texWrap i d.w d.wrapU * texelSize d.fmt

/-- x8 of R340. -/
def texRand (seed frame : W32) (t : Nat) : Nat :=
  let g : W32 := seed ^^^ (frame * 0x6C8E9CF5) ^^^ (BitVec.ofNat 32 t * 0x2545F491)
  let g := g ^^^ (g >>> 16)
  let g := g * 0x5A3CD1E7
  let g := g ^^^ (g >>> 15)
  let g := g * 0x93B14C2F
  let g := g ^^^ (g >>> 16)
  bits g 31 24

/-- The texels that a thread reads, each with its weight. -/
def texTexels (d : TexDesc) (m : TexMode) (u v seed : W32) (t : Nat) : List (Nat × Rat') :=
  let one : Rat' := ⟨1, 1⟩
  match m with
  | .point => let p := texPos d false u v; [(texelVa d p.i p.j, one)]
  | .bilin =>
    let p := texPos d true u v
    let gx := one.sub p.fx
    let gy := one.sub p.fy
    [(texelVa d p.i p.j, gx.mul gy), (texelVa d (p.i + 1) p.j, p.fx.mul gy),
     (texelVa d p.i (p.j + 1), gx.mul p.fy), (texelVa d (p.i + 1) (p.j + 1), p.fx.mul p.fy)]
  | .stoch =>
    let p := texPos d true u v
    let w00 := (16 - p.fxq) * (16 - p.fyq)
    let w10 := p.fxq * (16 - p.fyq)
    let w01 := (16 - p.fxq) * p.fyq
    let x := texRand seed d.frame t
    let ij : Int × Int := if x < w00 then (p.i, p.j) else if x < w00 + w10 then (p.i + 1, p.j)
      else if x < w00 + w10 + w01 then (p.i, p.j + 1) else (p.i + 1, p.j + 1)
    [(texelVa d ij.1 ij.2, one)]

/-- The channels of a texel. -/
def texChannels (fmt : Nat) (bs : List Byte) : List Val :=
  let h (i : Nat) : Val := fp16.val (getLe bs (2 * i) 2)
  let z : Val := .fin false 0 1
  let one : Val := .fin false 1 1
  match fmt with
  | 0 => (List.range 4).map fun i => .fin false (getLe bs i 1) 255
  | 1 => [fp32.val (getLe bs 0 4), z, z, one]
  | 2 => [h 0, h 1, z, one]
  | _ => [h 0, h 1, h 2, h 3]

/-- The weighted sum of one channel: texels of weight 0 take no part. A sum of exactly 0 is −0 only where every term is
(R340; DESIGN CHOICE, log 93). -/
def texMix (xs : List (Rat' × Val)) : Val :=
  match (xs.filter fun x => x.1.num ≠ 0).map fun x => (x.1.val false).mul x.2 with
  | [] => .fin false 0 1
  | v :: vs => vs.foldl (fun a b => a.add .rne b) v

/-- The four results of a thread, from the bytes at an address. -/
def texResult (d : TexDesc) (xs : List (Nat × Rat')) (rd : Nat → List Byte) : List W32 :=
  let cs := xs.map fun x => (x.2, texChannels d.fmt (rd x.1))
  (List.range 4).map fun k => f32r .rne (texMix (cs.map fun c => (c.1, c.2.getD k .nan)))

def execTex (h : Hdr) (o : TexOp) (s : State) : Res :=
  let rd (e : Env) (ts : List Nat) : Reads := fun bs =>
    let d := texDesc bs
    if d.bad then []
    else ts.flatMap fun t =>
      (texTexels d o.mode (e.v32 0 o.a t) (e.v32 1 o.b t) (e.sr o.sd) t).flatMap fun x =>
        (List.range (texelSize d.fmt / 4)).map fun i => (t, BitVec.ofNat 64 (x.1 + 4 * i))
  issue (.tex h o) h false
    (fun s e => let ts := lanesOf e h false; blockChk s e ts (e.srPair o.td) 4 (e.judged (rd e ts)))
    (fun e s =>
      let ts := lanesOf e h false
      let code : W64 := match o.mode with | .point => 0 | .bilin => 1 | .stoch => 2
      let args := code :: (e.sr o.sd).zeroExtend 64 :: ts.flatMap fun t =>
        [BitVec.ofNat 64 t, (e.v32 0 o.a t).zeroExtend 64, (e.v32 1 o.b t).zeroExtend 64]
      s.startBlock e { e.acc h .tex with args := args, dst := .v o.d.toNat false } (e.srPair o.td) 4 (rd e ts)) s

def execTexq (h : Hdr) (o : TexqOp) (s : State) : Res :=
  issue (.texq h o) h false
    (fun s e => let ts := lanesOf e h false; blockChk s e ts (e.srPair o.td) 4 (fun _ => []))
    (fun e s =>
      let ts := lanesOf e h false
      let args := ts.flatMap fun t =>
        [BitVec.ofNat 64 t, (e.v32 0 o.a t).zeroExtend 64, (e.v32 1 o.b t).zeroExtend 64]
      s.startBlock e { e.acc h .texq with args := args, dst := .v o.d.toNat false } (e.srPair o.td) 4 (fun _ => [])) s

/-! ### Completion (R323, R325) -/

/-- The instructions that complete in issue order with one another. -/
def AccOp.ray : AccOp → Bool
  | .rbox | .rtri | .rhint | .rhset | .rast | .tex | .texq => true
  | _ => false

/-- The bytes that an access has read at an address, in pieces of `size`. -/
def Acc.bytesAt (a : Acc) (size va n : Nat) : List Byte :=
  (List.range ((n + size - 1) / size)).flatMap fun i =>
    match (a.lanes.drop 4).find? fun l => l.va = BitVec.ofNat 64 (va + size * i) with
    | some l => leBytes size l.res.toNat
    | none => List.replicate size 0

/-- The header or descriptor that an access has read. -/
def Acc.head (a : Acc) : List Byte := (a.lanes.take 4).flatMap fun l => leBytes 8 l.res.toNat

def AccDst.reg : AccDst → Nat
  | .v r _ => r
  | .s r _ => r
  | .p n => n
  | .q n _ => n
  | .none => 0

/-- Registers from `d`, one list of values per thread. -/
def putRegs (d : Nat) (xs : List (Nat × List W32)) (n : Nat) : List Put :=
  (List.range n).map fun k => .v (d + k) (xs.map fun x => (x.1, x.2.getD k 0))

/-- Operations of the Cullet table for threads in ascending index, as far as this cycle takes them: how many, what the
RHINTs among them return, and the table after them (R335). -/
def State.tableOps (s : State) (a : Acc) (hd : RayHdr) (d : Nat) : List (Nat × W32 × List W32) → Nat × List Put × State
  | [] => (0, [], s)
  | (t, _, ray) :: l =>
    let p := a.grp.part
    let r : Option (List Put × State) :=
      if a.op = .rhint then
        (s.rayHint p hd ray).map fun r => (putRegs d [(t, [r.1.1, r.1.2])] 2, r.2)
      else (s.raySet p hd ray).map fun s => ([], s)
    match r with
    | none => (0, [], s)
    | some (ps, s) =>
      let (n, qs, s) := State.tableOps s a hd d l
      (n + 1, ps ++ qs, s)

/-- The threads of an access of the Cullet table. -/
def Acc.tableThreads (a : Acc) : List (Nat × W32 × List W32) := rayThreads 16 (a.args.drop 1)

/-- The Cullet table serves what it can of an RHINT or RHSET in this cycle. -/
def State.serveTable (s : State) (a : Acc) : State :=
  if a.op = .rhint || a.op = .rhset then
    let (n, ps, s) := s.tableOps a (rayHdr a.head) a.dst.reg (a.tableThreads.drop a.served)
    s.modAcc a.id fun a => { a with served := a.served + n, puts := a.puts ++ ps }
  else s

/-- The table has served every thread, or there is nothing for it to serve. -/
def Acc.tableDone (a : Acc) : Bool :=
  (a.op ≠ .rhint && a.op ≠ .rhset) || a.tableThreads.length ≤ a.served

/-- What an instruction writes at completion. -/
def Acc.rayPuts (a : Acc) : List Put :=
  let hd := rayHdr a.head
  let d := a.dst.reg
  let base := (a.args.getD 0 0).toNat
  match a.op with
  | .rbox =>
    let ts := rayThreads 16 (a.args.drop 1)
    let rs := ts.map fun (t, b, ray) =>
      (t, if hd.bad then ((0 : W32), (0 : W32)) else rboxThread (a.bytesAt 8 (hd.nodes + 256 * b.toNat) 224) ray)
    putRegs d (rs.map fun r => (r.1, [r.2.1, r.2.2])) 2 ++
      (if hd.bad then [] else [.v (base + 12) (ts.map fun (t, _, ray) => (t, ray.getD 12 0 + 1))])
  | .rtri =>
    let ts := (rayThreads 48 (a.args.drop 1)).filter fun (_, ref, _) =>
      !hd.bad && ref ≠ 0xFFFFFFFF && ref.getLsbD 31
    let out := ts.map fun (t, ref, ray) =>
      let b := (leafTris hd ref).foldl (fun (b : RayBlk) i => b.test ray ref (a.bytesAt 8 (hd.tris + 48 * i) 48)) (RayBlk.ofRegs ray)
      (t, b.toRegs ray)
    (List.range 41).map fun k => .v (base + 7 + k) (out.map fun x =>
      (x.1, ((x.2.find? fun r => r.1 = 7 + k).map (·.2)).getD 0))
  | .rhint | .rast => a.puts
  | .tex =>
    let td := texDesc a.head
    let m : TexMode := match (a.args.getD 0 0).toNat with | 0 => .point | 1 => .bilin | _ => .stoch
    let seed := lo32 (a.args.getD 1 0)
    let ts := rayThreads 1 (a.args.drop 2)
    putRegs d (ts.map fun (t, u, r) =>
      (t, if td.bad then List.replicate 4 (0x7FC00000 : W32)
          else texResult td (texTexels td m u (r.getD 0 0) seed t) fun va => a.bytesAt 4 va (texelSize td.fmt))) 4
  | .texq =>
    let td := texDesc a.head
    let ts := rayThreads 1 a.args
    putRegs d (ts.map fun (t, u, r) =>
      (t, if td.bad then List.replicate 3 (0xFFFFFFFF : W32)
          else
            let p := texPos td true u (r.getD 0 0)
            [BitVec.ofNat 32 (texWrap p.j td.h td.wrapV * 65536 + texWrap p.i td.w td.wrapU),
             BitVec.ofNat 32 (p.fyq * 16 + p.fxq), BitVec.ofNat 32 (td.h * 65536 + td.w)])) 3
  | _ => []

/-- The group of an access was killed or cancelled, or is gone: it is discarded (R323). The wave that runs its cause-13 handler
lives until its TRAPRET (R401). -/
def State.discarded (s : State) (a : Acc) : Bool :=
  ((s.group? a.grp).map fun g => g.killed && decide (g.back ≠ some a.uid)).getD true

/-- A ray, raster or texture instruction completes, in issue order. RBOX first borrows the lanes for its
compare, which waits while a tile has them. -/
def execRayOpComplete (id : Nat) (s : State) : Res :=
  match s.ripe id AccOp.ray with
  | none => .next s
  | some a0 =>
    if s.discarded a0 then .next (s.dropAcc id)
    else if s.accs.any fun b => b.uid = a0.uid && b.op.ray && b.id < id then .next s
    else
      let s := s.performAll id
      match s.acc? id with
      | none => .next s
      | some a =>
        if !a.performed then .next s
        else if a.op = .rbox && !a.told then
          match s.waveUid? a.uid with
          | none => .next (s.dropAcc id)
          | some w =>
            if s.lanesHeld w then .next s
            else
              let till := s.cyc w.id.core + 4 * (w.kern.width / 16)
              let s := s.modCore w.id.core fun c =>
                { c with quarters := c.quarters.modify w.id.q fun q => { q with array := max q.array till } }
              .next (s.modAcc id fun a => { a with told := true, ready := till })
        else match a.poisoned with
          | some va => .next ((s.complete a []).modUid a.uid fun w =>
              if w.life = .exited then w else { w with due := w.due ++ [⟨6, va, none, 0⟩] })
          | none =>
            let s := s.serveTable a
            match s.acc? id with
            | none => .next s
            | some a => if a.tableDone then .next (s.complete a a.rayPuts) else .next s

/-! ### BLEND (R342) and the bank ALUs -/

/-- One U8X4 channel. -/
def blendU8 (op : BlendOp) (s d sa : Nat) : Nat :=
  match op with
  | .rep => s
  | .over => min 255 (s + roundNat .rne false (d * (255 - sa)) 255)
  | .add => min 255 (s + d)
  | .min => min s d
  | .max => max s d

/-- One F16X4 channel. -/
def blendF16 (op : BlendOp) (s d sa : Nat) : Nat :=
  let v := fp16.val
  match op with
  | .rep => s
  | .over => fp16.round .rne ((v s).add .rne ((v d).mul ((Val.fin false 1 1).add .rne (v sa).neg)))
  | .add => fp16.round .rne ((v s).add .rne (v d))
  | .min => fminmax fp16 false false s d
  | .max => fminmax fp16 true false s d

/-- The new word of a blend. -/
def blendWord (op : BlendOp) (f16 : Bool) (s d : Nat) : Nat :=
  let w := if f16 then 16 else 8
  let ch (x k : Nat) : Nat := x / 2 ^ (w * k) % 2 ^ w
  (List.range 4).foldl (fun n k =>
    n + (if f16 then blendF16 op (ch s k) (ch d k) (ch s 3) else blendU8 op (ch s k) (ch d k) (ch s 3)) * 2 ^ (w * k)) 0

def blendAddrs (e : Env) (h : Hdr) (o : BlendOpn) : List (Nat × Nat) :=
  (lanesOf e h false).map fun t => (t, (e.v32 0 o.a t).toNat + o.off.toNat * (if o.f16 then 8 else 4))

def execBlend (h : Hdr) (o : BlendOpn) (s : State) : Res :=
  let size := if o.f16 then 8 else 4
  issue (.blend h o) h false (fun s e => spChk s e false true size (blendAddrs e h o)) (fun e s =>
    s.startSp e { e.acc h (.blend o.bop o.f16) with
      tag := if o.f16 then .b64 else .b32, ord := o.ord, sco := o.sco,
      lanes := (blendAddrs e h o).map fun x =>
        Lane.mk' x.1 (BitVec.ofNat 64 x.2) x.2 (e.src 1 o.f16 (.vec o.b) x.1) 0 false } true (o.ord = .rel) true) s

/-- One element of a blend (R342, R343). -/
def State.blendLane (op : BlendOp) (f16 : Bool) (s : State) (a : Acc) (l : Lane) : Lane × State :=
  let n := if f16 then 8 else 4
  ({ l with perf := true },
   s.modGroup a.grp fun g => g.wrNat l.pa n (blendWord op f16 l.data.toNat (g.rdNat l.pa n)))

/-- A scratchpad operation is performed at its bank ALUs and completes. -/
def execScratchpadOpPerformed (id : Nat) (s : State) : Res :=
  match s.ripe id fun op => match op with
      | .spLoad | .spStore | .spAtom _ | .spRed _ | .barinit | .blend _ _ => true
      | _ => false with
  | none => .next s
  | some a =>
    match a.op with
    | .blend op f16 => scratchpadOp (State.blendLane op f16) a s
    | _ => scratchpadOp State.performSp a s

end Sys2Proof.Machine
end

