-- ==== Sys2Proof/Machine/Place.lean ====
section
/-!
DEFINITION. The distributor: what a group costs and whether a core holds it, ranks, placement, gangs and
reservations, and the retirement of groups (R27, R28, R138–R146, R363–R371).
-/

namespace Sys2Proof.Machine

/-! ### Costs (R138, R142, R367) -/

namespace Kern

def beats (k : Kern) : Nat := k.width / 16

/-- Threads and waves of a group. -/
def threads (k : Kern) : Nat := k.gx * k.gy * k.gz
def waves (k : Kern) : Nat := (k.threads + k.width - 1) / k.width

/-- VRF entries per lane of one wave. -/
def vrf (k : Kern) : Nat := k.beats * (k.vregs + k.qn * k.qd)

def pbits (k : Kern) : Nat := k.beats * k.preds

/-- VRF entries per lane of the grid reservation on a quarter that it covers. -/
def gres (k : Kern) : Nat := if k.gfp = 0 then 0 else 24 * (k.gacc + 1)

/-- Quarters of its core that the reservation covers. -/
def covered (k : Kern) : Nat := if k.gfp = 0 then 0 else if k.gfp = 1 then 1 else 4

/-- One group fits on an empty core (R142). -/
def fitsEmpty (k : Kern) : Bool :=
  let n := (k.waves + 3) / 4
  n * k.vrf + k.gres ≤ 2048 && n * k.pbits ≤ 4096 && n * k.sregs ≤ 2048

/-- Capacity of a core and cost of one group: wave slots, VRF, granules, predicates, scalar registers. -/
def costs (k : Kern) : List (Nat × Nat) :=
  [(48, k.waves), (8192, k.waves * k.vrf + k.gres * k.covered), (160, k.scr), (16384, k.waves * k.pbits),
   (8192, k.waves * k.sregs)]

/-- The row of the limiting resource: the smallest ratio of capacity to cost, ties to the earlier row. -/
def limiting (k : Kern) : Nat :=
  let rows := (List.range 5).zip k.costs
  (rows.foldl (fun (b : Nat × Nat × Nat) r =>
    if r.2.1 * b.2.2 < b.2.1 * r.2.2 then r else b) (0, 48, k.waves)).1

end Kern

/-! ### What is free (R144, R188) -/

/-- What the groups of a core use in one quarter. -/
structure QUse where
  slots : Nat
  vrf : Nat
  preds : Nat
  sregs : Nat
  deriving DecidableEq, Repr

def State.wavesAt (s : State) (core q : Nat) : List Wave :=
  s.waves.filter fun w => w.id.core = core && w.id.q = q

def sumBy {α : Type} (f : α → Nat) (l : List α) : Nat := l.foldl (fun n x => n + f x) 0

def State.use (s : State) (core q : Nat) : QUse :=
  let ws := s.wavesAt core q
  let res := s.groups.filter fun g => match g.tile with | some t => g.covers t.fp core q | none => false
  { slots := ws.length
    vrf := sumBy (fun w => w.kern.vrf) ws + sumBy (fun g => g.kern.gres) res
    preds := sumBy (fun w => w.kern.pbits) ws
    sregs := sumBy (fun w => w.kern.sregs) ws }

/-- Scratchpad granules used on a core. -/
def State.scrUse (s : State) (core : Nat) : Nat :=
  sumBy (fun g => g.kern.scr) (s.groups.filter fun g => g.core = core)

/-- The quarter with the fewest resident waves, ties to the lower (R368). -/
def State.firstQuarter (s : State) (core : Nat) : Nat :=
  ((argMax (fun q => 100 - (s.wavesAt core q).length) [0, 1, 2, 3]).getD 0)

/-- Waves of a group of `n` that the layout gives to quarter `q`. -/
def layout (n q0 q : Nat) : Nat := ((List.range n).filter fun k => (q0 + k) % 4 = q).length

/-- The core takes one group of the kernel, every allotment of it (R140, R186, R274, R366). -/
def State.fits (s : State) (k : Kern) (core : Nat) : Bool :=
  let q0 := s.firstQuarter core
  let grid (c q : Nat) : Nat := if footCovers k.gfp core q0 c q then k.gres else 0
  (List.range 4).all (fun q =>
    let u := s.use core q
    let n := layout k.waves q0 q
    u.slots + n ≤ 12 && u.vrf + n * k.vrf + grid core q ≤ 2048 && u.preds + n * k.pbits ≤ 4096 &&
    u.sregs + n * k.sregs ≤ 2048) &&
  s.scrUse core + k.scr ≤ 160 &&
  (k.gfp ≠ 3 || (List.range 4).all fun j =>
    let c := core / 4 * 4 + j
    c = core || (List.range 4).all fun q => (s.use c q).vrf + grid c q ≤ 2048)

/-- Free units of a row of R367 on a core. -/
def State.freeUnits (s : State) (core row : Nat) : Nat :=
  let us := (List.range 4).map (s.use core)
  match row with
  | 0 => 48 - sumBy (·.slots) us
  | 1 => 8192 - sumBy (·.vrf) us
  | 2 => 160 - s.scrUse core
  | 3 => 16384 - sumBy (·.preds) us
  | _ => 8192 - sumBy (·.sregs) us

/-- The cores that CMASK allows a launch of the clusters that its partition owns and that are present and not fenced (R458). -/
def State.allowed (s : State) (p : Nat) (cmask : BitVec 4) : List Nat :=
  (s.coresOf p).filter fun c => s.cluUp (c / 4) && (cmask = 0 || cmask.getLsbD (c % 4))

/-- The partition keeps a cluster: a COMMIT that waits for the carved ways may be about to give it up (R8, R231). -/
def Part.keeps (d : Part) (c : Nat) : Bool :=
  match d.run with
  | .carve x _ => x.clu.getLsbD c
  | _ => true

/-- The cores on which groups of a launch are placed now: the allowed ones of clusters that the partition keeps. -/
def State.placeable (s : State) (p : Nat) (cmask : BitVec 4) : List Nat :=
  (s.allowed p cmask).filter fun c => (s.part p).keeps (c / 4)

/-- The candidate with the most free units of the limiting resource, ties to the lower core. -/
def State.pick (s : State) (k : Kern) (cores : List Nat) : Option Nat :=
  argMax (fun c => s.freeUnits c k.limiting) (cores.filter (s.fits k))

/-! ### Placing one group (R27, R28, R141, R186, R368) -/

/-- A wave as its group's placement leaves it. -/
def Wave.fresh (uid : Nat) (id : WaveId) (g : GroupId) (k : Nat) (kern : Kern) (prio now : Nat) : Wave :=
  let m := lowMask (min kern.width (kern.threads - k * kern.width))
  { uid := uid, id := id, grp := g, k := k, kern := kern, life := .live, present := m, exec := m,
    v := [], p := [], s := [], flags := [], h := [], hpend := [], q := List.replicate kern.qn ⟨[], []⟩,
    sat := 0, arm := 0, tst := [], pc := kern.entry, xvi := none, pathidx := 0xFFFF, stalls := [], stw := none, wcyc := 0,
    tr := { cause := 0, tepc := 0, tval := 0, texec := 0, tpath := 0xFFFF, tscr := [] },
    handler := .none, fsave := none, reissue := none, missI := none, relAfter := [], relNear := [], prio := prio, tprio := prio, priSet := false,
    prev := none, ctl := false, notBefore := now + 1, last := now, age := 0, aged := false, yield := 0, yl := false,
    wait := .none, miss := [], lmiss := [], due := [], pend := [], dbg := 0, troff := false, dstate := .run, linkwait := 0, iss := none, met := none,
    vwrite := 0, swrite := 0 }

def Tile.fresh (k : Kern) : Option Tile :=
  if k.gfp = 0 then none
  else some { fp := k.gfp, nacc := k.gacc + 1, accs := [], regs := [], queue := [], owner := none, ann := false,
              annAt := 0, annAge := 0, runAt := 0, inj := none, staged := [], flight := [], stopAt := none, fault := false, seq := 0, miss := [] }

/-- A window at first issue: the group barrier, and zeros. -/
def freshWindow (k : Kern) : Memory :=
  if k.scr = 0 then [] else winSet [] 0 (leBytes 8 (k.waves * 2 ^ 16))

/-- The lowest wave slot free in a quarter. -/
def State.freeSlot (s : State) (core q : Nat) : Nat :=
  ((List.range 12).find? fun n => !(s.wave? ⟨core, q, n⟩).isSome).getD 0

/-- Wave `k` of a group takes its quarter and slot. -/
def State.placeWave (s : State) (g : GroupId) (kern : Kern) (core q0 prio k : Nat) : State :=
  let q := (q0 + k) % 4
  let (uid, s) := s.seq
  { s with waves := s.waves ++ [Wave.fresh uid ⟨core, q, s.freeSlot core q⟩ g k kern prio (s.cyc core)] }

/-- Group `idx` of a launch is placed on a core. -/
def State.placeGroup (s : State) (l : Launch) (idx relaunch core prio : Nat) : State :=
  let q0 := s.firstQuarter core
  let id : GroupId := ⟨l.part, l.lid, idx⟩
  let g : Group :=
    { id := id, core := core, q0 := q0, nw := l.kern.waves, kern := l.kern, exited := 0, relaunch := relaunch,
      killed := false, again := false, back := none, window := freshWindow l.kern, flips := [], lastExit := none, tile := Tile.fresh l.kern }
  let s := { s with groups := s.groups ++ [g] }
  (List.range l.kern.waves).foldl (fun s k => s.placeWave id l.kern core q0 prio k) s

/-! ### Launches as the distributor sees them -/

def Launch.total (l : Launch) : Nat := l.gx * l.gy * l.gz

/-- The lowest-indexed unplaced group with its relaunch count; a group whose own release is offered to it
comes first (R400). -/
def Launch.nextGroup (l : Launch) : Option (Nat × Nat) :=
  match l.offer.head?.bind fun o => o.bind fun i => l.redo.find? fun r => r.1 = i with
  | some r => some r
  | none => match l.redo with
    | r :: _ => some r
    | [] => if l.next < l.total then some (l.next, 0) else none

/-- The launch after its group `idx` is placed. -/
def Launch.placed (l : Launch) (idx : Nat) : Launch :=
  { l with redo := l.redo.filter (fun r => r.1 ≠ idx), next := if idx = l.next then l.next + 1 else l.next
           offer := l.offer.drop 1 }

/-- A group goes back to unplaced, its relaunch count given. -/
def redoIns (x : Nat × Nat) : List (Nat × Nat) → List (Nat × Nat)
  | [] => [x]
  | y :: l => if x.1 < y.1 then x :: y :: l else y :: redoIns x l

def State.jobOf (s : State) (l : Launch) : Option Job := s.job? l.part l.jid

def State.jp (s : State) (l : Launch) : Nat := ((s.jobOf l).map (·.prio)).getD 0

/-- The launch's predecessors and the earlier graphs of its job have completed (R30, R356). -/
def State.depsDone (s : State) (l : Launch) : Bool :=
  (s.launches.all fun x => !(x.part = l.part && x.jid = l.jid && x.gi = l.gi && l.preds.contains x.idx) || x.completed) &&
  (s.graphs.all fun g => !(g.part = l.part && g.jid = l.jid && g.gi < l.gi) || g.completed)

def State.eligible (s : State) (l : Launch) : Bool :=
  l.stat = .live && !l.completed && s.depsDone l

/-- Eligible with a group to place. -/
def State.waiting (s : State) (l : Launch) : Bool := s.eligible l && l.nextGroup.isSome

/-- Compares lists lexicographically. -/
def lexLt : List Nat → List Nat → Bool
  | a :: as, b :: bs => a < b || (a = b && lexLt as bs)
  | _, _ => false

/-- The rank of a launch (R364); `ahead` comes before others of equal JP. -/
def State.rankBy (s : State) (l : Launch) (ahead : Bool) : List Nat :=
  match s.jobOf l with
  | none => [64]
  | some j =>
    [63 - j.prio, if ahead then 0 else 1, if j.deadline.isSome then 0 else 1, ((j.deadline.map (·.toNat)).getD 0),
     j.order.1, j.order.2.1, j.order.2.2, l.gi, l.idx]

/-- The rank of a launch among launches, by R364 alone. -/
def State.rank (s : State) (l : Launch) : List Nat := s.rankBy l false

/-- The order of a decision: a launch to which a release is offered comes before others of equal JP (R369). -/
def State.turn (s : State) (l : Launch) : List Nat := s.rankBy l (!l.offer.isEmpty && l.nextGroup.isSome)

/-- The best-ranked of some launches. -/
def State.best (s : State) (ls : List Launch) : Option Launch :=
  ls.foldl (fun b l => match b with
    | none => some l
    | some x => if lexLt (s.rank l) (s.rank x) then some l else b) none

/-- The cores that a reservation of another launch, ranked above this one, leaves it (R371). -/
def State.open_ (s : State) (l : Launch) (cores : List Nat) : List Nat :=
  match (s.part l.part).resv with
  | none => cores
  | some r =>
    if r.lid = l.lid then cores
    else match s.launch? l.part r.lid with
      | some h => if lexLt (s.rank h) (s.rank l) then cores.filter fun c => !r.cores.contains c else cores
      | none => cores

/-! ### Gangs (R49, R370) -/

/-- Places groups one after another, each by R366–R368 over what the earlier ones leave; none where one
fails. -/
def State.placeAll (s : State) (l : Launch) (cores : List Nat) (prio : Nat) : List Nat → Option State
  | [] => some s
  | i :: is => match s.pick l.kern cores with
    | none => none
    | some c => (s.placeGroup l i 0 c prio).placeAll l cores prio is

/-- More groups than a device holds never fit. -/
def gangMax : Nat := 48 * 256

/-- The partition with every core empty. -/
def State.emptied (s : State) (p : Nat) : State :=
  { s with waves := s.waves.filter (fun w => w.grp.part ≠ p), groups := s.groups.filter fun g => g.id.part ≠ p }

/-- The partition can hold the gang whole (R49). -/
def State.gangFits (s : State) (l : Launch) : Bool :=
  l.total ≤ gangMax &&
  ((s.emptied l.part).placeAll l (s.allowed l.part l.cmask) 0 (List.range l.total)).isSome

/-! ### The placement decision (R366–R371) -/

/-- The partition places groups: enabled, not held, and neither being saved nor about to be restored. -/
def Part.open_ (d : Part) : Bool :=
  d.en && d.held.isNone && !d.saving && (match d.run with | .restore _ => false | _ => true)

/-- What a launch would place now: the whole gang, or one group. -/
def State.tryPlace (s : State) (l : Launch) : Option State :=
  let cores := s.open_ l (s.placeable l.part l.cmask)
  let prio := s.jp l
  let first := l.next = 0 && l.redo.isEmpty
  -- the acquire of the first placement empties the partition's L1s (R260)
  let s0 := if first then (s.coresOf l.part).foldl State.l1Clear s else s
  let placedL (s : State) (f : Launch → Launch) : State :=
    s.modLaunch l.part l.lid fun l => { f l with since := some s.timebase.toNat }
  if l.kern.gang && first then
    if l.total ≤ gangMax then
      (s0.placeAll l cores prio (List.range l.total)).map fun s => placedL s fun l => { l with next := l.total }
    else none
  else
    match l.nextGroup, s.pick l.kern cores with
    | some (i, n), some c => some (placedL (s0.placeGroup l i n c prio) fun l => l.placed i)
    | _, _ => none

/-- The launches of a partition with a group to place, best rank first. -/
def State.ranked (s : State) (p : Nat) : List Launch :=
  sortBy (fun a b => !lexLt (s.turn b) (s.turn a)) (s.launches.filter fun l => l.part = p && s.waiting l)

/-- The first launch that can be placed, and the state after it. -/
def State.firstPlace (s : State) : List Launch → Option (Launch × State)
  | [] => none
  | l :: ls => match s.tryPlace l with
    | some s' => some (l, s')
    | none => s.firstPlace ls

/-- The releases of a cycle have been offered: a launch that could not take its own loses its turn, and one that has
not come up keeps it for the next decision (R369). -/
def State.offered (s : State) (tried : List Nat) (p : Nat) : State :=
  { s with launches := upd (fun l => l.part = p && tried.contains l.lid) (fun l => { l with offer := [] }) s.launches }

/-- A placement decision is open in this cycle, and what it does. -/
def State.placement (s : State) (p : Nat) : Option (Launch × State) :=
  let d := s.part p
  if d.open_ && d.placedAt ≠ some s.cycle then s.firstPlace (s.ranked p) else none

/-- One placement decision. A reservation ends with the placement of its launch. -/
def execPlacementDecision (p : Nat) (s : State) : Res :=
  let tried := (s.ranked p).map (·.lid)
  match s.placement p with
  | none => .next (if (s.part p).open_ && (s.part p).placedAt ≠ some s.cycle then s.offered tried p else s)
  | some (l, s') => .next ((s'.offered (tried.takeWhile (· ≠ l.lid)) p).modPart p fun d =>
      { d with placedAt := some s.cycle
               resv := match d.resv with
                 | some r => if r.lid = l.lid then none else d.resv
                 | none => none })

/-- Ticks after which a launch starts a reservation: 200 µs. -/
def resvTicks : Nat := 200000

/-- The launch that starts a reservation now: a gang, or the highest-ranked launch, with no group placed
for 200 µs while eligible (R371). -/
def State.resvDue (s : State) (p : Nat) : Option Launch :=
  let d := s.part p
  if !d.open_ || d.resv.isSome then none
  else
    let ls := sortBy (fun a b => !lexLt (s.rank b) (s.rank a)) (s.ranked p)
    let top := ls.head?.map (·.lid)
    ls.find? fun l =>
      ((l.kern.gang && l.next = 0) || some l.lid = top) &&
      (match l.since with | some t => t + resvTicks ≤ s.timebase.toNat | none => false)

/-- Places groups one after another as far as they fit. -/
def State.placeSome (s : State) (l : Launch) (cores : List Nat) : List Nat → State
  | [] => s
  | i :: is => match s.pick l.kern cores with
    | none => s
    | some c => (s.placeGroup l i 0 c 0).placeSome l cores is

/-- The cores that R370 would use if the partition held no group: of a gang that fits all its groups', and of any other launch
those of as many groups as fit (R371). -/
def State.resvCores (s : State) (l : Launch) : List Nat :=
  let e := s.emptied l.part
  let cores := s.placeable l.part l.cmask
  let is := List.range (min l.total gangMax)
  match (if l.kern.gang then e.placeAll l cores 0 is else some (e.placeSome l cores is)) with
  | some s' => cores.filter fun c => s'.groups.any fun g => g.id.part = l.part && g.core = c
  | none => []

def execReservationStart (p : Nat) (s : State) : Res :=
  match s.resvDue p with
  | none => .next s
  | some l => .next (s.modPart p fun d => { d with resv := some ⟨l.lid, s.resvCores l⟩ })

/-- A launch is eligible from now on with no group placed. -/
def State.markEligible (s : State) : State :=
  { s with launches := s.launches.map fun l =>
      if l.since.isNone && s.eligible l then { l with since := some s.timebase.toNat } else l }

/-! ### Retirement (R28, R145, R187, R424) -/

/-- The copy commands of a group that have not ended. -/
def State.copiesOf (s : State) (g : Group) : Bool :=
  let ch := (s.core g.core).chan
  ch.fifo.any (fun c => c.grp = g.id) ||
  ch.slots.any fun x => match x.cmd with | some c => c.grp = g.id && c.stat = .outstanding | none => false

/-- Every store and atomic of the group has been performed, its launches are made, and every entry that its RHSETs write
has been written (R453), unless they are discarded (R323). -/
def State.storesDone (s : State) (g : GroupId) : Bool :=
  (s.accs.filter fun a => a.grp = g).all fun a => match a.op with
    | .store | .atom _ | .red _ => a.performed
    | .rhset => s.discarded a
    | .spStore | .spAtom _ | .spRed _ | .blend _ _ | .barinit | .arrive | .launch => false
    | _ => true

/-- The group may retire. -/
def State.retirable (s : State) (g : Group) : Bool :=
  !s.saving g.id.part && !g.again && g.exited = g.nw && !s.copiesOf g && s.storesDone g.id &&
  (match g.tile with | some t => t.flight.isEmpty && t.queue.isEmpty | none => true)

/-- The EXIT packet: each stall counter summed over the waves, saturating (R420, R424). -/
def State.exitPacket (s : State) (g : Group) : State :=
  let d := s.part g.id.part
  if !(d.tmode = 1 || d.tmode = 2) || !d.tlid g.id.lid then s
  else
    let ws := s.waves.filter fun w => w.grp = g.id
    let sums := (List.range 16).flatMap fun k =>
      leBytes 4 (min (sumBy (fun w : Wave => (w.stalls.get k).toNat) ws) 0xFFFFFFFF)
    match (g.lastExit <|> ws.getLast?.map Wave.trSrc) with
    | none => s
    | some src =>
      { s with trq := s.trq ++
          [⟨s.cycle, s.timebase, g.core, src, [.exit ([0xA7, BitVec.ofNat 8 g.nw, 0, 0] ++ leBytes 4 g.id.idx ++ sums)], none⟩] }

/-- A group's waves, its allotments and its window are given back, and a LOSS to come knows them as they ended (R442); of its
outstanding work what `keep` names goes on. -/
def State.releaseGroup (s : State) (g : Group) (keep : Acc → Bool) : State :=
  let s := s.trKeep fun w => w.grp = g.id
  let s := (s.waves.filter fun w => w.grp = g.id).foldl (fun s w =>
    w.lmiss.foldl (fun s x => s.fbLeave (.launch x.1 w.id)) (s.fbLeave (.wave w.uid w.id))) s
  let s := s.fbLeave (.tile g.id g.core)
  { s with groups := s.groups.filter (fun x => x.id ≠ g.id), waves := s.waves.filter (fun w => w.grp ≠ g.id)
           accs := s.accs.filter fun a => a.grp ≠ g.id || keep a }

/-- A group retires: its allotments and window return, and its release is offered to its launch (R369). -/
def execGroupRetire (id : GroupId) (s : State) : Res :=
  match s.group? id with
  | none => .next s
  | some g =>
    if !s.retirable g then .next s
    else .next (((s.exitPacket g).releaseGroup g fun _ => false).modLaunch id.part id.lid fun l =>
      { l with retired := l.retired + 1, offer := l.offer ++ [none] })

end Sys2Proof.Machine
end

