-- ==== Sys2Proof/Machine/Launch.lean ====
section
/-!
DEFINITION. Launch queues and their packets, kernel descriptors, jobs, graphs and launches, cancels,
completion, promotion, and the launch instructions (R29–R33, R76, R350–R365, R458, R459).
-/

namespace Sys2Proof.Machine

/-! ### Fields of a packet -/

/-- A little-endian field of a byte list. -/
def fld (b : List Byte) (off n : Nat) : Nat := leNat ((b.drop off).take n)

/-- Bytes `lo` to `hi` − 1 are 0. -/
def zeros (b : List Byte) (lo hi : Nat) : Bool := ((b.drop lo).take (hi - lo)).all fun x => x = 0

/-- What a reader awaits: pages, and the host copies of these physical addresses. -/
structure Await where
  ms : List Miss
  held : List Nat
  deriving DecidableEq, Repr

/-- What reading something of a packet gives: it, a rejection code (R358), or what to await. -/
inductive Parsed (α : Type)
  | ok (x : α)
  | code (n : Nat)
  | wait (x : Await)
  deriving DecidableEq, Repr

/-! ### Kernel descriptors (R76) -/

/-- One entry of the successor table: KEEP·8 and OFFSET, where it is valid. -/
def succOf (x : Nat) : Option (Nat × Nat) :=
  if x / 2 ^ 31 % 2 = 1 then some (x / 2 ^ 25 % 64 * 8, x % 2 ^ 24) else none

/-- A descriptor, if it breaks none of R76's rules. -/
def parseKern (b : List Byte) : Option Kern :=
  let f (hi lo : Nat) : Nat := leNat b / 2 ^ lo % 2 ^ (hi + 1 - lo)
  let w := 16 * 2 ^ f 129 128
  let succ := [f 287 256, f 319 288, f 351 320, f 383 352]
  let addrOk (x : Nat) : Bool := x % 4 = 0 && x < 2 ^ 51
  let bad :=
    f 129 128 = 3 ||
    f 135 130 = 0 || 40 < f 135 130 || f 139 136 = 0 || 8 < f 139 136 || f 144 140 = 0 || 16 < f 144 140 ||
    160 < f 152 145 || 16 < f 157 153 ||
    f 511 448 ≠ 0 || f 255 222 ≠ 0 || f 191 169 ≠ 0 || succ.any (fun x => x / 2 ^ 24 % 2 = 1) ||
    !addrOk (f 63 0) || !addrOk (f 127 64) || (f 127 64 ≠ 0 && f 144 140 ≠ 16) || (f 166 165 ≠ 0 && f 164 163 = 0) ||
    16 * w < (f 201 192 + 1) * (f 211 202 + 1) * (f 221 212 + 1) ||
    succ.any fun x => 40 < x / 2 ^ 25 % 64 || (match succOf x with | some s => f 135 130 * 8 < s.1 | none => false)
  if bad then none
  else some
    { width := w, vregs := f 135 130 * 8, preds := f 139 136 * 16, sregs := f 144 140 * 16, scr := f 152 145,
      qn := f 157 153, qd := f 162 158 + 1, gfp := f 164 163, gacc := f 166 165, gang := f 167 167 = 1,
      idem := f 168 168 = 1, gx := f 201 192 + 1, gy := f 211 202 + 1, gz := f 221 212 + 1,
      entry := BitVec.ofNat 64 (f 63 0), fhnd := BitVec.ofNat 64 (f 127 64), const := BitVec.ofNat 64 (f 447 384),
      succ := succ.map succOf }

/-! ### Reads through the partition's tables (R358, R359) -/

/-- Bytes at a virtual address, as an engine reads them; `old` are the misses awaited so far. -/
def State.readVa (s : State) (p : Nat) (old : List Miss) (va n : Nat) : Parsed (List Byte) :=
  if n = 0 then .ok []
  else if 2 ^ 51 < va + n then .code 10
  else match s.engXlate none p .read 8 (rangePages [(va, va + n - 1)]) old with
    | .bad _ _ => .code 10
    | .wait ms => .wait ⟨ms, []⟩
    | .ok =>
      let pas := (List.range n).map fun i => s.engPa none p .read (va + i)
      let held := pas.filter fun pa => s.snoopHeld pa false
      if held.isEmpty then .ok (pas.map s.rdByte) else .wait ⟨[], held⟩

/-- The slices of what is read at a virtual address serve it as a load, or with `own` as a .sys access (R271, R382). -/
def State.touchVa (s : State) (p : Nat) (old : List Miss) (va n : Nat) (own : Bool) : State :=
  match s.readVa p old va n with
  | .ok _ => (linesOf va n).foldl (fun s x => s.slcTouch (s.part p).ways (s.engPa none p .read x) own) s
  | _ => s

/-- The host copies that a reader awaits are asked for. -/
def State.askAll (s : State) (pas : List Nat) (write : Bool) : State := pas.foldl (fun s pa => s.ask pa write) s

/-! ### Launch bodies (R354) -/

structure Body where
  kern : Kern
  gx : Nat
  gy : Nat
  gz : Nat
  args : List Byte
  cmask : BitVec 4
  lcnt : W64
  tag : W32
  preds : List Nat
  deriving DecidableEq, Repr

/-- The code that a body earns before anything that it names is read. -/
def bodyCode (b : List Byte) : Option Nat :=
  if !zeros b 35 40 || !zeros b 56 64 || 16 ≤ fld b 34 1 then some 2
  else if fld b 16 4 = 0 || fld b 20 2 = 0 || fld b 22 2 = 0 then some 6
  else if fld b 8 8 % 64 ≠ 0 || fld b 24 8 % 8 ≠ 0 || fld b 32 2 % 4 ≠ 0 || 1024 < fld b 32 2 then some 7
  else none

/-- The reads of a body, as its slices serve them. -/
def State.touchBody (s : State) (p : Nat) (old : List Miss) (b : List Byte) : State :=
  match bodyCode b, s.readVa p old (fld b 8 8) 64 with
  | none, .ok _ => (s.touchVa p old (fld b 8 8) 64 false).touchVa p old (fld b 24 8) (fld b 32 2) false
  | _, _ => s

/-- The body of a LAUNCH packet, or of a record, past its header. -/
def State.parseBody (s : State) (p : Nat) (old : List Miss) (b : List Byte) : Parsed Body :=
  match bodyCode b with
  | some n => .code n
  | none => match s.readVa p old (fld b 8 8) 64 with
    | .code n => .code n
    | .wait ms => .wait ms
    | .ok kb => match s.readVa p old (fld b 24 8) (fld b 32 2) with
      | .code n => .code n
      | .wait ms => .wait ms
      | .ok args => match parseKern kb with
        | none => .code 3
        | some k =>
          if !k.fitsEmpty then .code 4
          else if (s.allowed p (BitVec.ofNat 4 (fld b 34 1))).isEmpty then .code 11
          else .ok { kern := k, gx := fld b 16 4, gy := fld b 20 2, gz := fld b 22 2, args := args,
                     cmask := BitVec.ofNat 4 (fld b 34 1), lcnt := BitVec.ofNat 64 (fld b 40 8),
                     tag := BitVec.ofNat 32 (fld b 4 4), preds := [] }

/-- The records of a graph table, each with its predecessors (R355). -/
def State.parseRecs (s : State) (p : Nat) (old : List Miss) (tab : List Byte) (nl : Nat) :
    List Nat → Parsed (List Body)
  | [] => .ok []
  | i :: is =>
    let m := fld tab (64 * nl + 32 * i) 32
    if m / 2 ^ i ≠ 0 then .code 8
    else match s.parseBody p old ((tab.drop (64 * i)).take 64) with
      | .code n => .code n
      | .wait ms => .wait ms
      | .ok b => match s.parseRecs p old tab nl is with
        | .ok bs => .ok ({ b with preds := (List.range i).filter fun j => m / 2 ^ j % 2 = 1 } :: bs)
        | r => r

/-- The launches that a LAUNCH or GRAPH packet asks for (R354, R355). -/
def State.parseUnits (s : State) (p : Nat) (old : List Miss) (b : List Byte) : Parsed (List Body) :=
  if fld b 0 1 = 1 then
    match s.parseBody p old b with
    | .ok x => .ok [x]
    | .code n => .code n
    | .wait ms => .wait ms
  else if !zeros b 18 40 || !zeros b 56 64 then .code 2
  else
    let nl := fld b 16 2
    if fld b 8 8 % 64 ≠ 0 || nl = 0 || 256 < nl then .code 8
    else match s.readVa p old (fld b 8 8) (96 * nl) with
      | .code n => .code n
      | .wait ms => .wait ms
      | .ok tab => s.parseRecs p old tab nl (List.range nl)

/-- The reads of a LAUNCH or GRAPH packet, as its slices serve them (R382). -/
def State.touchUnits (s : State) (p : Nat) (old : List Miss) (b : List Byte) : State :=
  if fld b 0 1 = 1 then s.touchBody p old b
  else
    let nl := fld b 16 2
    if !zeros b 18 40 || !zeros b 56 64 || fld b 8 8 % 64 ≠ 0 || nl = 0 || 256 < nl then s
    else match s.readVa p old (fld b 8 8) (96 * nl) with
      | .ok tab => (List.range nl).foldl (fun s i => s.touchBody p old ((tab.drop (64 * i)).take 64))
          (s.touchVa p old (fld b 8 8) (96 * nl) false)
      | _ => s

/-! ### Creating units (R352, R356, R361, R459) -/

/-- The next launchid that no launch in flight has: 1 to 0xFFFFFFFE. -/
def nextId (used : List Nat) : (fuel n : Nat) → Nat
  | 0, n => n
  | k + 1, n => if used.contains n then nextId used k (n % 0xFFFFFFFE + 1) else n

def State.newLid (s : State) (p : Nat) : Nat × State :=
  let used := (s.launches.filter fun l => l.part = p && !l.completed).map (·.lid)
  let n := nextId used (used.length + 1) (s.part p).nextLid.toNat
  (n, s.modPart p fun d => { d with nextLid := BitVec.ofNat 32 (n % 0xFFFFFFFE + 1) })

def Body.launch (b : Body) (p lid jid gi idx : Nat) (stat : UStat) : Launch :=
  { part := p, lid := lid, jid := jid, gi := gi, idx := idx, tag := b.tag, kern := b.kern, gx := b.gx, gy := b.gy,
    gz := b.gz, args := b.args, cmask := b.cmask, lcnt := b.lcnt, preds := b.preds, next := 0, redo := [], retired := 0,
    since := none, offer := [], stat := stat, completed := false, wait := [] }

/-- A gang among the bodies is larger than the partition can hold (R49). -/
def State.gangBad (s : State) (p : Nat) (bs : List Body) : Bool :=
  bs.any fun b => b.kern.gang && !s.gangFits (b.launch p 0 0 0 0 .live)

/-- Creates one graph of a job with its launches, in record order. -/
def State.newGraph (s : State) (p jid : Nat) (tag : W32) (gcnt : W64) (bs : List Body) : State :=
  match s.job? p jid with
  | none => s
  | some j =>
    let gi := j.ngraphs
    let g : Graph := { part := p, jid := jid, gi := gi, tag := tag, gcnt := gcnt, nl := bs.length, stat := j.stat,
                       completed := false, wait := [] }
    let s := { s with graphs := s.graphs ++ [g] }
    let s := s.modJob p jid fun j => { j with ngraphs := gi + 1 }
    ((List.range bs.length).zip bs).foldl (fun s x =>
      let (lid, s) := s.newLid p
      { s with launches := s.launches ++ [x.2.launch p lid jid gi x.1 j.stat] }) s

/-- Opens a job: its priority is clamped to the band (R363). -/
def State.newJob (s : State) (p : Nat) (q : Option Nat) (tag : W32) (prio : Nat) (dl : Option (W64 × W64))
    (order : Nat × Nat × Nat) : Nat × State :=
  let (jid, s) := s.seq
  let j : Job :=
    { part := p, jid := jid, q := q, tag := tag, prio := (s.part p).clamp prio, deadline := dl.map (·.1),
      est := (dl.map (·.2)).getD 0, jcnt := 0, promoted := false, ended := false, ngraphs := 0, order := order,
      stat := .live, wait := [] }
  (jid, { s with jobs := s.jobs ++ [j] })

/-! ### Cancels (R32, R33) -/

/-- Cancels one launch; one whose groups have all retired completes as it is (R33). -/
def State.cancelOne (s : State) (p lid : Nat) (st : UStat) : State :=
  match s.launch? p lid with
  | none => s
  | some l =>
    if l.stat ≠ .live || l.completed || l.retired = l.total then s
    else
      let s := s.modLaunch p lid fun l => { l with stat := st }
      let s := (s.groups.filter fun g => g.id.part = p && g.id.lid = lid).foldl (fun s g => s.stopGroup g.id) s
      s.modPart p fun d => { d with resv := match d.resv with
        | some r => if r.lid = lid then none else some r
        | none => none }

def State.launchesOf (s : State) (p jid gi : Nat) : List Launch :=
  s.launches.filter fun l => l.part = p && l.jid = jid && l.gi = gi

/-- A launch with a cancelled predecessor is cancelled too; records name only lower ones. -/
def State.cancelSucc (s : State) (p jid gi : Nat) : State :=
  (s.launchesOf p jid gi).foldl (fun s l =>
    if (s.launchesOf p jid gi).any fun x => l.preds.contains x.idx && x.stat ≠ .live then
      s.cancelOne p l.lid .cancelled
    else s) s

def State.cancelLaunch (s : State) (p : Nat) (l : Launch) (st : UStat) : State :=
  (s.cancelOne p l.lid st).cancelSucc p l.jid l.gi

/-- Every launch of a graph has completed. -/
def State.graphDone (s : State) (g : Graph) : Bool := (s.launchesOf g.part g.jid g.gi).all (·.completed)

def State.cancelGraph (s : State) (p : Nat) (g : Graph) (st : UStat) : State :=
  if g.stat ≠ .live || g.completed || s.graphDone g then s
  else
    let s := s.modGraph p g.jid g.gi fun g => { g with stat := st }
    (s.launchesOf p g.jid g.gi).foldl (fun s l => s.cancelOne p l.lid st) s

def State.graphsOf (s : State) (p jid : Nat) : List Graph := s.graphs.filter fun g => g.part = p && g.jid = jid

/-- Every graph of a job has completed, and its last packet is parsed. -/
def State.jobDone (s : State) (j : Job) : Bool := j.ended && (s.graphsOf j.part j.jid).all (·.completed)

def State.cancelJob (s : State) (p : Nat) (j : Job) (st : UStat) : State :=
  if j.stat ≠ .live || s.jobDone j then s
  else
    let s := s.modJob p j.jid fun j => { j with stat := st }
    (s.graphsOf p j.jid).foldl (fun s g => s.cancelGraph p g st) s

/-- Cancels every unit of a partition that matches (R357, R362). -/
def State.cancelBy (s : State) (p : Nat) (k : CancelSel) (x : W32) : State :=
  match k with
  | .launch => (s.launches.filter fun l => l.part = p && l.lid = x.toNat).foldl (fun s l => s.cancelLaunch p l .cancelled) s
  | .ltag => (s.launches.filter fun l => l.part = p && l.tag = x).foldl (fun s l => s.cancelLaunch p l .cancelled) s
  | .gtag => (s.graphs.filter fun g => g.part = p && g.tag = x).foldl (fun s g => s.cancelGraph p g .cancelled) s
  | .jtag => (s.jobs.filter fun j => j.part = p && j.tag = x).foldl (fun s j => s.cancelJob p j .cancelled) s

/-! ### Completion (R29–R31, R359) -/

/-- Removes a requester of one partition from the fault buffer. -/
def State.fbLeaveIn (s : State) (p : Nat) (r : Requester) : State :=
  { s with fb := s.fb.map fun e => if e.part = p then { e with reqs := e.reqs.filter fun q => !q.1.sameAs r } else e
           fbwait := s.fbwait.filter fun w => !(w.part = p && w.req.sameAs r) }

/-- Joins the misses that a requester does not await yet. -/
def State.joinNew (s : State) (p : Nat) (r : Requester) (old ms : List Miss) : State :=
  (ms.filter fun m => !old.any fun o => pageOf o.va = pageOf m.va && o.kind = m.kind).foldl
    (fun s m => s.missJoin p m.va m.kind r) s

/-- What adding 1 to a completion counter comes to: done or dropped, or what to await. -/
inductive CntRes
  | done (s : State)
  | wait (x : Await)

def State.addCounter (s : State) (p : Nat) (va : W64) (old : List Miss) : CntRes :=
  if va = 0 || va.toNat % 8 ≠ 0 || 2 ^ 51 ≤ va.toNat then .done s
  else match s.engXlate none p .atomic 8 [va] old with
    | .bad _ _ => .done s
    | .wait ms => .wait ⟨ms, []⟩
    | .ok =>
      let pa := s.engPa none p .atomic va.toNat
      if s.snoopHeld pa true then .wait ⟨[], [pa]⟩
      else if s.poisoned pa then .done s
      else .done (s.slcWrite (s.part p).ways pa (leBytes 8 ((s.rdNat pa 8 + 1) % 2 ^ 64)))

/-- A unit awaits what its counter needs. -/
def State.unitAwait (s : State) (p : Nat) (u : UnitRef) (old : List Miss) (x : Await) : State :=
  (s.askAll x.held true).joinNew p (.unit u) old x.ms

/-- PCANC counts a unit that ends cancelled or rejected (R346). -/
def State.countUnit (s : State) (p : Nat) (st : UStat) : State :=
  if st = .live then s else s.modPart p fun d => { d with canc := d.canc + 1 }

/-- A miss that its reply has not settled. -/
def unsettled (ms : List Miss) : Bool := ms.any fun m => m.settled.isNone

/-- Everything that the groups of a launch, those of a run that an error has ended among them, have sent to memory is performed
(R31, R400). -/
def State.effectsDone (s : State) (p lid : Nat) : Bool :=
  s.accs.all fun a => !(a.grp.part = p && a.grp.lid = lid && a.op.writes) || a.performed

/-- The launch has ended: every group retired, or cancelled with none resident, and its memory effects are performed. -/
def State.launchOver (s : State) (l : Launch) : Bool :=
  !l.completed && !unsettled l.wait && s.effectsDone l.part l.lid &&
  (if l.stat = .live then l.retired = l.total
   else l.retired = l.total || s.groups.all fun g => !(g.id.part = l.part && g.id.lid = l.lid))

def State.unitOver (s : State) (p : Nat) (u : UnitRef) : Bool :=
  match u with
  | .launch lid => (match s.launch? p lid with | some l => s.launchOver l | none => false)
  | .graph jid gi => (match s.graphs.find? fun g => g.part = p && g.jid = jid && g.gi = gi with
    | some g => !g.completed && !unsettled g.wait && s.graphDone g
    | none => false)
  | .job jid => (match s.job? p jid with | some j => !unsettled j.wait && s.jobDone j | none => false)

/-- A unit completes: its counter is added first. With its job, its records go. -/
def execUnitComplete (p : Nat) (u : UnitRef) (s : State) : Res :=
  if s.saving p || !s.unitOver p u then .next s
  else match u with
  | .launch lid => (match s.launch? p lid with
    | none => .next s
    | some l => match s.addCounter p l.lcnt l.wait with
      | .wait x => .next ((s.unitAwait p u l.wait x).modLaunch p lid fun l => { l with wait := joinMisses l.wait x.ms })
      | .done s => .next (((s.fbLeaveIn p (.unit u)).countUnit p l.stat).modLaunch p lid fun l =>
          { l with completed := true, wait := [] }))
  | .graph jid gi => (match s.graphs.find? fun g => g.part = p && g.jid = jid && g.gi = gi with
    | none => .next s
    | some g => match s.addCounter p g.gcnt g.wait with
      | .wait x => .next ((s.unitAwait p u g.wait x).modGraph p jid gi fun g => { g with wait := joinMisses g.wait x.ms })
      | .done s => .next (((s.fbLeaveIn p (.unit u)).countUnit p g.stat).modGraph p jid gi fun g =>
          { g with completed := true, wait := [] }))
  | .job jid => (match s.job? p jid with
    | none => .next s
    | some j => match s.addCounter p j.jcnt j.wait with
      | .wait x => .next ((s.unitAwait p u j.wait x).modJob p jid fun j => { j with wait := joinMisses j.wait x.ms })
      | .done s =>
        let s := (s.fbLeaveIn p (.unit u)).countUnit p j.stat
        .next { s with jobs := s.jobs.filter fun x => !(x.part = p && x.jid = jid)
                       graphs := s.graphs.filter fun x => !(x.part = p && x.jid = jid)
                       launches := s.launches.filter fun x => !(x.part = p && x.jid = jid) })

/-! ### Launch queues (R350–R353) -/

namespace LQ

/-- The ring has 2^SZLOG slots; 0: disabled. -/
def szlog (l : LQ) : Nat := let n := bits l.base 3 0; if 6 ≤ n then n else 0
def slotAt (l : LQ) (k : Nat) : Nat := bits l.base 47 12 * 2 ^ 12 + 64 * ((l.head.toNat + k) % 2 ^ l.szlog)

end LQ

def State.lq (s : State) (p q : Nat) : LQ := ((s.part p).lqs[q]?).getD LQ.reset

def State.modLq (s : State) (p q : Nat) (f : LQ → LQ) : State :=
  s.modPart p fun d => { d with lqs := d.lqs.modify q f }

/-- The bytes of `n` slots from HEAD. -/
def State.slotBytes (s : State) (l : LQ) (n : Nat) : List Byte :=
  (List.range n).flatMap fun k => s.rdBytes (l.slotAt k) 64

/-- Lines of `n` slots from HEAD of which a host holds the only copy: the read of a slot is an acquire at .sys
(R261, R351). -/
def State.slotsHeld (s : State) (l : LQ) (n : Nat) : List Nat :=
  ((List.range n).map l.slotAt).filter fun pa => s.snoopHeld pa false

/-- The parser may read at HEAD. -/
def State.parses (s : State) (p : Nat) (l : LQ) : Bool :=
  (s.part p).open_ && l.szlog ≠ 0 && l.head ≠ l.tail && !unsettled l.miss

/-- The slots of the packet at HEAD: one, or the four of a FENCE, all below TAIL. -/
def State.slotCount (s : State) (l : LQ) : Nat :=
  if fld (s.slotBytes l 1) 0 1 = 3 then (if (l.tail - l.head).toNat < 4 then 0 else 4) else 1

/-- The packet at the head of a queue that its partition parses (R345, R351): its bytes. -/
def State.packet (s : State) (p q : Nat) : Option (List Byte) :=
  match (s.part p).lqs[q]? with
  | none => none
  | some l =>
    if !s.parses p l || !(s.slotsHeld l 1).isEmpty || !(s.slotsHeld l (s.slotCount l)).isEmpty || s.slotCount l = 0 then none
    else some (s.slotBytes l (s.slotCount l))

/-- The host copies of the slots that the parsers are to read are asked for. -/
def State.askSlots (s : State) : State :=
  (List.range 16).foldl (fun s p =>
    if (s.part p).en then (s.part p).lqs.foldl (fun s l =>
      if s.parses p l then s.askAll (s.slotsHeld l 1 ++ (if (s.slotsHeld l 1).isEmpty then s.slotsHeld l (s.slotCount l) else [])) false
      else s) s
    else s) s

/-- A packet is consumed. -/
def State.consume (s : State) (p q : Nat) (b : List Byte) : State :=
  (s.fbLeaveIn p (.parser q)).modLq p q fun l =>
    { l with head := l.head + (if fld b 0 1 = 3 then 4 else 1), hold := none, miss := [] }

/-- LQSTAT, EV and the queue's interrupt (R358). -/
def State.lqEvent (s : State) (p q code : Nat) : State :=
  (s.modLq p q fun l => { l with ev := true, code := BitVec.ofNat 8 code, epos := l.head }).msix (8 * p + q)

/-- The packet at the head waits. -/
def State.lqMiss (s : State) (p q : Nat) (x : Await) (write : Bool) : State :=
  ((s.askAll x.held write).joinNew p (.parser q) (s.lq p q).miss x.ms).modLq p q fun l => { l with miss := joinMisses l.miss x.ms }

/-- The open job of a queue, or a new one from this packet (R356, R363). -/
def State.hostJob (s : State) (p q : Nat) (b : List Byte) : Nat × State :=
  match (s.lq p q).job with
  | some j => (j, s)
  | none =>
    let (jid, s) := s.newJob p (some q) (BitVec.ofNat 32 (fld b 4 4)) (fld b 3 1 % 64) (s.lq p q).dl (s.cycle, 0, q)
    (jid, s.modLq p q fun l => { l with job := some jid, dl := none })

/-- The packet with END closes its job. -/
def State.closeJob (s : State) (p q jid : Nat) (b : List Byte) : State :=
  if fld b 2 1 % 2 = 1 then
    (s.modJob p jid fun j => { j with ended := true, jcnt := BitVec.ofNat 64 (fld b 48 8) }).modLq p q fun l =>
      { l with job := none, skip := none }
  else s

/-- A packet is rejected (R358): a LAUNCH or GRAPH cancels the rest of its job, up to END. -/
def State.reject (s : State) (p q code : Nat) (b : List Byte) : State :=
  let s := s.lqEvent p q code
  let t := fld b 0 1
  if t = 1 || t = 2 then
    let (jid, s) := s.hostJob p q b
    let s := match s.job? p jid with | some j => s.cancelJob p j .rejected | none => s
    let s := s.modLq p q fun l => { l with skip := some jid }
    (s.closeJob p q jid b).consume p q b
  else s.consume p q b

/-- Code 1: TYPE or NSLOT; code 2: a bit of FLAGS or PRIO that its packet does not define (R353). -/
def hdrCode (b : List Byte) : Option Nat :=
  let t := fld b 0 1
  let flags := if t = 1 || t = 2 then 1 else if t = 4 then 6 else 0
  if 6 < t || fld b 1 1 ≠ (if t = 3 then 4 else 1) then some 1
  else if fld b 2 1 &&& (255 - flags) ≠ 0 || (if t = 1 || t = 2 then 64 ≤ fld b 3 1 else fld b 3 1 ≠ 0) then some 2
  else none

/-- The slots of a packet are read at their slices (R382). -/
def State.touchSlots (s : State) (p q : Nat) : State :=
  let l := s.lq p q
  (List.range (s.slotCount l)).foldl (fun s k => s.slcTouch (s.part p).ways (l.slotAt k) false) s

/-- A packet event: it acts only on a packet of its type, at the head of a queue not held; a bad header
rejects the packet. -/
def onPacket (p q : Nat) (t : Nat → Bool) (f : List Byte → State → Res) (s : State) : Res :=
  match s.packet p q with
  | none => .next s
  | some b =>
    if !t (fld b 0 1) || (s.lq p q).hold.isSome then .next s
    else
    let s := s.touchSlots p q
    match hdrCode b with
      | some c => .next (s.reject p q c b)
      | none => f b s

/-- A NOP, and any packet of a TYPE that does not exist. -/
def execNopPacket (p q : Nat) (s : State) : Res :=
  onPacket p q (fun t => t = 0 || 6 < t) (fun b s =>
    .next (if zeros b 8 64 then s.consume p q b else s.reject p q 2 b)) s

/-- A LAUNCH or GRAPH of a job that is being skipped is consumed with no unit (R358). -/
def State.skipPacket (s : State) (p q jid : Nat) (b : List Byte) : State := (s.closeJob p q jid b).consume p q b

/-- Parses a LAUNCH or GRAPH packet and creates its launches. The partition's instruction caches lose
their lines (R79). -/
def State.parsePacket (s : State) (p q : Nat) (b : List Byte) : State :=
  let s := s.touchUnits p (s.lq p q).miss b
  match s.parseUnits p (s.lq p q).miss b with
  | .wait x => s.lqMiss p q x false
  | .code n => s.reject p q n b
  | .ok bs =>
    let full : Bool := match (s.lq p q).job.bind (s.job? p) with | some j => 16 ≤ j.ngraphs | none => false
    if full then s.reject p q 9 b
    else if s.gangBad p bs then s.reject p q 5 b
    else
      let (jid, s) := s.hostJob p q b
      let gcnt := if fld b 0 1 = 2 then BitVec.ofNat 64 (fld b 40 8) else 0
      let s := s.newGraph p jid (BitVec.ofNat 32 (fld b 4 4)) gcnt bs
      let cores := s.coresOf p
      let s := { s with ic := s.ic.filter fun l => !cores.contains l.core }
      (s.closeJob p q jid b).consume p q b

def launchOrGraph (t p q : Nat) (s : State) : Res :=
  match s.packet p q, (s.lq p q).skip with
  | some b, some jid =>
    if fld b 0 1 = t && fld b 1 1 = 1 then .next ((s.touchSlots p q).skipPacket p q jid b)
    else onPacket p q (fun x => x = t) (fun b s => .next (s.parsePacket p q b)) s
  | _, _ => onPacket p q (fun x => x = t) (fun b s => .next (s.parsePacket p q b)) s

def execLaunchPacket (p q : Nat) (s : State) : Res := launchOrGraph 1 p q s
def execGraphPacket (p q : Nat) (s : State) : Res := launchOrGraph 2 p q s

/-! ### FENCE, SIGNAL, DEADLINE, CANCEL (R357) -/

/-- The counters of a FENCE: met, not met, a rejection, or pages to await. -/
def State.fenceTest (s : State) (p : Nat) (old : List Miss) (b : List Byte) : List Nat → Parsed Bool
  | [] => .ok true
  | k :: ks => match s.readVa p old (fld b (16 + 16 * k) 8) 8 with
    | .code n => .code n
    | .wait ms => .wait ms
    | .ok v => match s.fenceTest p old b ks with
      | .ok r => .ok (r && decide (fld b (24 + 16 * k) 8 ≤ leNat v))
      | r => r

/-- Reads the counters of the FENCE at the head, each an acquire at .sys: it passes, holds, waits or is rejected. -/
def State.fenceTry (s : State) (p q : Nat) (b : List Byte) : State :=
  let s := (List.range (fld b 8 1)).foldl (fun s k => s.touchVa p (s.lq p q).miss (fld b (16 + 16 * k) 8) 8 true) s
  match s.fenceTest p (s.lq p q).miss b (List.range (fld b 8 1)) with
  | .ok true => s.consume p q b
  | .ok false => s.modLq p q fun l => { l with hold := some (s.cycle + 4096), miss := [] }
  | .wait x => s.lqMiss p q x false
  | .code n => s.reject p q n b

def execFencePacket (p q : Nat) (s : State) : Res :=
  onPacket p q (· = 3) (fun b s =>
    let n := fld b 8 1
    if n = 0 || 12 < n then .next (s.reject p q 8 b)
    else if !zeros b 9 16 || !zeros b (16 + 16 * n) 256 then .next (s.reject p q 2 b)
    else .next (s.fenceTry p q b)) s

/-- A held FENCE reads its counters again. -/
def execFenceCounterReread (p q : Nat) (s : State) : Res :=
  match s.packet p q with
  | none => .next s
  | some b => if fld b 0 1 = 3 && (s.lq p q).hold.isSome then .next (s.fenceTry p q b) else .next s

/-- A SIGNAL holds its queue's parse. -/
def execSignalPacket (p q : Nat) (s : State) : Res :=
  onPacket p q (· = 4) (fun b s =>
    if zeros b 24 64 then .next (s.modLq p q fun l => { l with hold := some 0 }) else .next (s.reject p q 2 b)) s

/-- Every job parsed earlier from the queue has completed. -/
def State.jobsDone (s : State) (p q : Nat) : Bool := s.jobs.all fun j => !(j.part = p && j.q = some q)

/-- The write or addition of a SIGNAL, and its interrupt. -/
def execSignalWrite (p q : Nat) (s : State) : Res :=
  match s.packet p q with
  | none => .next s
  | some b =>
    let l := s.lq p q
    if fld b 0 1 ≠ 4 || l.hold.isNone || !s.jobsDone p q then .next s
    else
      let va := fld b 8 8
      let add := fld b 2 1 / 4 % 2 = 1
      let k : AccKind := if add then .atomic else .write
      if 2 ^ 51 < va + 8 then .next (s.reject p q 10 b)
      else match s.engXlate none p k 8 (rangePages [(va, va + 7)]) l.miss with
        | .bad _ _ => .next (s.reject p q 10 b)
        | .wait ms => .next (s.lqMiss p q ⟨ms, []⟩ true)
        | .ok =>
          let pas := (List.range 8).map fun i => s.engPa none p k (va + i)
          if pas.any fun pa => s.snoopHeld pa true then .next (s.askAll pas true)
          else
            let old := leNat (pas.map s.rdByte)
            let new := if add then (old + fld b 16 8) % 2 ^ 64 else fld b 16 8
            let s := if add && pas.any s.poisoned then s
              else (pas.zip (leBytes 8 new)).foldl (fun s x => s.slcWrite (s.part p).ways x.1 [x.2]) s
            let s := s.consume p q b
            .next (if fld b 2 1 / 2 % 2 = 1 then s.msix (8 * p + q) else s)

def execDeadlinePacket (p q : Nat) (s : State) : Res :=
  onPacket p q (· = 5) (fun b s =>
    if zeros b 24 64 then
      .next ((s.modLq p q fun l =>
        { l with dl := some (BitVec.ofNat 64 (fld b 8 8), BitVec.ofNat 64 (fld b 16 8)) }).consume p q b)
    else .next (s.reject p q 2 b)) s

def execCancelPacket (p q : Nat) (s : State) : Res :=
  onPacket p q (· = 6) (fun b s =>
    if !zeros b 9 12 || !zeros b 16 64 || 2 < fld b 8 1 then .next (s.reject p q 2 b)
    else
      let k : CancelSel := if fld b 8 1 = 0 then .ltag else if fld b 8 1 = 1 then .gtag else .jtag
      .next ((s.cancelBy p k (BitVec.ofNat 32 (fld b 12 4))).consume p q b)) s

/-- The event that the packet at the head of a queue calls for now. -/
def State.parserNext (s : State) (p q : Nat) : Option Instr :=
  match s.packet p q with
  | none => none
  | some b =>
    let l := s.lq p q
    match l.hold, fld b 0 1 with
    | none, 1 => some (.launchPacket p q)
    | none, 2 => some (.graphPacket p q)
    | none, 3 => some (.fencePacket p q)
    | none, 4 => some (.signalPacket p q)
    | none, 5 => some (.deadlinePacket p q)
    | none, 6 => some (.cancelPacket p q)
    | none, _ => some (.nopPacket p q)
    | some t, 3 =>
      if t ≤ s.cycle || s.fenceTest p l.miss b (List.range (fld b 8 1)) ≠ .ok false then some (.fenceCounterReread p q)
      else none
    | some _, _ => if s.jobsDone p q then some (.signalWrite p q) else none

/-! ### Doorbells (R350, R351, R392) -/

/-- A doorbell. One that overflows the ring leaves every slot unparsed, a FENCE or SIGNAL held at HEAD among them (R351). -/
def execDoorbellWrite (port page p q size : Nat) (value : W64) (s : State) : Res :=
  let l := s.lq p q
  let v := lo32 value
  let back := (l.tail - v).toNat
  if s.active ≠ some port || page ≠ port || 8 ≤ q || 16 ≤ p || !(size = 4 || size = 8) ||
      (1 ≤ back && back < 2 ^ 31) then .next s
  else
    let s := s.modLq p q fun l => { l with tail := v }
    if 2 ^ l.szlog < (v - l.head).toNat then
      .next (((s.lqEvent p q 13).fbLeaveIn p (.parser q)).modLq p q fun l =>
        { l with tail := l.head, hold := none, miss := [] })
    else .next s

/-! ### Promotion (R363) -/

/-- The waves of a job follow its priority, but for those that SETPRI has set. -/
def State.setJobPrio (s : State) (p jid prio : Nat) : State :=
  let lids := (s.launches.filter fun l => l.part = p && l.jid = jid).map (·.lid)
  let s := s.modJob p jid fun j => { j with prio := prio }
  { s with waves := upd (fun w => w.grp.part = p && lids.contains w.grp.lid && !w.priSet) (fun w => { w with prio := prio, tprio := prio }) s.waves }

/-- The slack of a job has fallen below its estimate. -/
def State.lehrDue (s : State) (j : Job) : Bool :=
  !s.saving j.part && !j.promoted && (match j.deadline with
    | some dl => (dl.toNat : Int) - s.timebase.toNat < j.est.toNat
    | none => false)

def execLehrPromotion (p jid : Nat) (s : State) : Res :=
  match s.job? p jid with
  | none => .next s
  | some j =>
    if s.lehrDue j then
      .next ((s.setJobPrio p jid (min (min (j.prio + 8) 63) (s.part p).pceil)).modJob p jid fun j => { j with promoted := true })
    else .next s

/-! ### LAUNCH and SETPRI (R360–R362, R365) -/

/-- What a LAUNCH.enq in progress awaits. -/
def Wave.launchMisses (w : Wave) (acc : Nat) : List Miss := (w.lmiss.filter fun x => x.1 = acc).map (·.2)

/-- Sets what a LAUNCH.enq in progress awaits. -/
def Wave.launchMiss (w : Wave) (acc : Nat) (ms : List Miss) : Wave :=
  { w with lmiss := w.lmiss.filter (fun x => x.1 ≠ acc) ++ ms.map fun m => (acc, m) }

/-- The issue of LAUNCH.enq: a release at .dev. Its record is read after it, and after what has left the core, which another
wave of the group may have released at .wave or .grp (R257, R258). -/
def execLaunchEnq (h : Hdr) (d a : BitVec 8) (s : State) : Res :=
  issue (.launchEnq h d a) h true
    (fun s e =>
      let va := e.srPair a
      if !e.w.uGuard h e.c0 then .ok
      else if va.toNat % 64 ≠ 0 then .trap 3 va
      else if bits va 63 51 ≠ 0 then .trap 5 va
      else if s.memHold e.w || !(s.entryHolds e.w (.launchEnq h d a)).isEmpty then .hold
      else (s.xlate (some e.w.id.core) e.w.grp.part .read 64 [(0, va)]).chk)
    (fun e s =>
      if e.w.uGuard h e.c0 then
        let lanes := (s.pasOf e .read 64 [(0, e.srPair a)]).map fun x => Lane.mk' x.1 x.2.1 x.2.2.1 0 0 false
        let a := s.ordered e.w { e.acc h .launch with
          tag := .b64, lanes := lanes, sco := .dev, dst := .s d.toNat true, args := [e.srPair a, BitVec.ofNat 64 s.cycle] } true true
        s.addAcc { a with after := a.after ++ s.leftIds e.w.id.core }
      else done1 e h s) s

/-- The code that a record's header earns as a LAUNCH packet, END ignored. -/
def recordCode (b : List Byte) : Option Nat :=
  if fld b 0 1 ≠ 1 || fld b 1 1 ≠ 1 then some 1
  else if 2 ≤ fld b 2 1 || 64 ≤ fld b 3 1 then some 2
  else none

/-- The code that a record earns as a LAUNCH packet, END and JCNT ignored, or its body (R361). -/
def State.parseRecord (s : State) (p : Nat) (old : List Miss) (b : List Byte) : Parsed Body :=
  match recordCode b with
  | some n => .code n
  | none => match s.parseBody p old b with
    | .ok x => if s.gangBad p [x] then .code 5 else .ok x
    | r => r

/-- Creates the one-launch job of a record. -/
def State.deviceJob (s : State) (a : Acc) (prio : Nat) (b : Body) : Nat × State :=
  let p := a.grp.part
  let rank := a.w.core * 1000 + a.w.q * 16 + a.w.slot
  let (jid, s) := s.newJob p none b.tag prio none ((a.args.getD 1 0).toNat, 1, rank)
  let s := s.modJob p jid fun j => { j with ended := true }
  let s := s.newGraph p jid b.tag 0 [b]
  (((s.launches.getLast?).map (·.lid)).getD 0, s)

/-- LAUNCH.enq reads its record where its issue found it, then what the record names, and writes its pair, whatever its
wave does meanwhile; pages that its engine reads miss park the wave. -/
def execLaunchEnqComplete (id : Nat) (s : State) : Res :=
  match s.ripe id (· = .launch) with
  | none => .next s
  | some a =>
    match s.waveUid? a.uid, a.lanes with
    | some w, l :: _ =>
      let p := a.grp.part
      let old := w.launchMisses id
      if s.saving p || a.redo || !s.orderOk a || unsettled old then .next s
      else if s.snoopHeld l.pa false then .next (s.ask l.pa false)
      else
        let b := s.rdBytes l.pa 64
        let s := s.slcTouch (s.part p).ways l.pa false
        let s := if (recordCode b).isSome then s else s.touchBody p old b
        let fin (lid code : Nat) (s : State) : State :=
          ((s.fbLeave (.launch id a.w)).modUid a.uid fun w => w.launchMiss id []).complete a (match a.dst with
            | .s d _ => [.s d (BitVec.ofNat 32 lid), .s (d + 1) (BitVec.ofNat 32 code)]
            | _ => [])
        (match s.parseRecord p old b with
         | .wait x =>
           let s := s.askAll x.held false
           if x.ms.isEmpty then .next s
           else .next ((s.joinNew p (.launch id a.w) old x.ms).modUid a.uid fun w => w.launchMiss id (joinMisses old x.ms))
         | .code n => .next (fin 0 n s)
         | .ok x =>
           let (lid, s) := s.deviceJob a (fld b 3 1 % 64) x
           .next (fin lid 0 s))
    | _, _ => .next (s.dropAcc id)

/-- LAUNCH.cancel completes in c + 2; its cancels follow before the cycle after that issues (R362). -/
def execLaunchCancel (h : Hdr) (kind : CancelSel) (a : BitVec 8) (s : State) : Res :=
  issue (.launchCancel h kind a) h true noChk (fun e s =>
    s.modWave e.w.id fun w =>
      (w.add (e.c + 3) (if e.w.uGuard h e.c0 then [.cancel kind (e.sr a)] else [])).decSf h.sf (e.c + 2)) s

/-- SETPRI's write stands in c + 2; R41, R43 and R292 use it from c + 3. -/
def execSetpri (h : Hdr) (grp : Bool) (a : BitVec 8) (s : State) : Res :=
  issue (.setpri h grp a) h true noChk (fun e s =>
    fixed e h 2 (if e.w.uGuard h e.c0 then [.pri grp (bits (e.sr a) 5 0)] else []) s) s

/-- The part of a landing effect that lies outside its wave: SETPRI, and LAUNCH.cancel. -/
def State.landOut (s : State) (src : Sender) (x : Put) : State :=
  match x with
  | .pri grp n =>
    let prio := (s.part src.grp.part).clamp n
    let hit (v : Wave) : Bool := v.life = .live && (if grp then v.grp = src.grp else v.uid = src.uid)
    { s with waves := upd hit (fun v => { v with prio := prio, priSet := true }) s.waves }
  | .cancel k y => s.cancelBy src.grp.part k y
  | _ => s

end Sys2Proof.Machine
end

