-- ==== Sys2Proof/Machine/PartCtl.lean ====
section
/-!
DEFINITION. Partition control: COMMIT, SAVE, MIGSAVE, RESTORE and KILL, with the partition image
(R344–R349, R372–R376).
-/

namespace Sys2Proof.Machine

/-! ### COMMIT (R345, R348) -/

/-- A bit that R345 reserves is set. -/
def PDesc.reserved (d : PDesc) : Bool :=
  bits d.root 63 48 ≠ 0 || bits d.root 14 1 ≠ 0 ||
  bits d.band 55 41 ≠ 0 || bits d.band 39 36 ≠ 0 || bits d.band 31 29 ≠ 0 || bits d.band 15 14 ≠ 0 ||
  bits d.band 7 6 ≠ 0 || bits d.mem 63 56 ≠ 0 || bits d.mem 31 25 ≠ 0 || bits d.mem 15 8 ≠ 0 ||
  bits d.trc 63 48 ≠ 0 || bits d.trc 11 5 ≠ 0

/-- The Cullet granules of a share: first and number. -/
def PDesc.share (d : PDesc) : Nat × Nat :=
  let cs := bits d.band 35 32
  (bits d.band 63 56, if cs ≤ 8 then 2 ^ cs else 0)

/-- The CSM granules owned: first and number. -/
def PDesc.csm (d : PDesc) : Nat × Nat := (bits d.mem 7 0, bits d.mem 24 16)

/-- Two runs of granules share one. -/
def overlaps (a b : Nat × Nat) : Bool := a.1 < b.1 + b.2 && b.1 < a.1 + a.2 && 0 < a.2 && 0 < b.2

/-- Ways carved for a number of CSM granules (R231). -/
def waysFor (granules : Nat) : Nat := (granules + 15) / 16

/-- The descriptors of a partition that stand or are about to: the one in force, and one whose COMMIT still waits for
the carved ways (R231). -/
def Part.descs (d : Part) : List PDesc :=
  match d.run with
  | .carve x _ => [d.force, x]
  | _ => [d.force]

/-- The other partitions. -/
def State.otherParts (s : State) (p : Nat) : List Part :=
  ((List.range 16).filter fun k => k ≠ p).map s.part

/-- The descriptors of the other partitions. -/
def State.others (s : State) (p : Nat) : List PDesc := (s.otherParts p).flatMap Part.descs

/-- The most that a field of the other partitions comes to. -/
def State.othersSum (s : State) (p : Nat) (f : PDesc → Nat) : Nat :=
  sumBy (fun d : Part => d.descs.foldl (fun n x => max n (f x)) 0) (s.otherParts p)

/-- Ways carved if partition p had descriptor d. -/
def State.carveWith (s : State) (p : Nat) (d : PDesc) : Nat := waysFor (d.csm.2 + s.othersSum p fun x => x.csm.2)

/-- A group, tile or copy command of the partition is on a cluster. -/
def State.usedClu (s : State) (p c : Nat) : Bool :=
  s.groups.any (fun g => g.id.part = p && (g.core / 4 = c)) ||
  (List.range 4).any fun k =>
    let ch := (s.core (4 * c + k)).chan
    ch.fifo.any (fun x => x.grp.part = p) ||
    ch.slots.any fun x => match x.cmd with | some y => y.grp.part = p && y.stat = .outstanding | none => false

/-- The rules that the staged descriptor breaks, lowest first (R348). -/
def State.commitBad (s : State) (p : Nat) : List Nat :=
  let d := (s.part p).staged
  let old := (s.part p).force
  let os := s.others p
  let clus := bitsOf d.clu
  let fbq := bits d.band 28 16
  let cs := bits d.band 35 32
  let trlog := bits d.trc 4 0
  let carved := s.carveWith p d
  let ways := bits d.mem 55 32
  [(1, (d.root.getLsbD 0 && d.clu = 0) || clus.any fun c => !s.cluUp c || os.any fun o => o.clu.getLsbD c),
   (2, s.dramEnd < bits d.root 47 15 * 2 ^ 15 + 2 ^ 15),
   (3, fbq < 16 || 4096 < fbq + s.othersSum p fun o => bits o.band 28 16),
   (4, bits d.band 13 8 < bits d.band 5 0),
   (5, (8 < cs && cs ≠ 15) || (cs ≤ 8 && (bits d.band 63 56 % 2 ^ cs ≠ 0 || 256 < bits d.band 63 56 + 2 ^ cs ||
         os.any fun o => overlaps d.share o.share))),
   (6, 256 < d.csm.1 + d.csm.2 || os.any (fun o => overlaps d.csm o.csm) || 16 < carved),
   (7, ways = 0 || ways / 2 ^ (24 - carved) ≠ 0),
   (8, (bitsOf old.clu).any fun c => !d.clu.getLsbD c && s.usedClu p c),
   (9, (1 ≤ trlog && trlog ≤ 11) || 30 < trlog || (12 ≤ trlog && bits d.trc 47 12 * 2 ^ 12 % 2 ^ trlog ≠ 0)),
   (10, (s.part p).held.isSome &&
     (d.clu ≠ old.clu || d.csm.2 ≠ old.csm.2 || bits d.band 35 32 ≠ bits old.band 35 32)),
   (11, d.reserved)].filterMap fun x => if x.2 then some x.1 else none

/-- A command is rejected (R346). -/
def State.rejectCmd (s : State) (p rsn : Nat) : State :=
  s.modPart p fun d => { d with rej := true, rsn := BitVec.ofNat 8 rsn }

/-- Physical addresses of a run of CSM granules: from, and up to. -/
def csmRange (g : Nat × Nat) : Nat × Nat := (0x10000000000 + g.1 * 2 ^ 20, 0x10000000000 + (g.1 + g.2) * 2 ^ 20)

/-- Granule `g` lies in a run. -/
def inRun (r : Nat × Nat) (g : Nat) : Bool := r.1 ≤ g && g < r.1 + r.2

/-- The next packet of each core of the partition follows a SYNC. -/
def State.syncNext (s : State) (p : Nat) : State :=
  (s.coresOf p).foldl (fun s c => s.modCore c fun x => { x with trace := { x.trace with need := true } }) s

/-- The 40 bytes of a descriptor. -/
def PDesc.bytes (d : PDesc) : List Byte :=
  [d.clu, d.root, d.band, d.mem, d.trc].flatMap fun x => leBytes 8 x.toNat

/-- The measurement registers after an accepted COMMIT (R430). -/
def Part.measured (p : Part) (d : PDesc) : List (BitVec 384) :=
  let pmr := if p.force.clu = 0 && d.clu ≠ 0 then p.pmr.take 1 ++ List.replicate 7 0 else p.pmr
  pmr.modify 1 fun x => pmrExt x (toPmr (sha384 d.bytes))

/-- A committed descriptor takes effect: granules newly allotted read 0, and Cullet entries newly allotted
are invalid (R233, R331); a changed trace buffer starts with a SYNC (R422); and the L1s of clusters newly owned are empty,
for what their groups acquire lies behind it (R260; DESIGN CHOICE, log 72). A requester that waits for quota gets its entry when
one is freed, and not from a raised FBQ alone (R221; DESIGN CHOICE, log 96). -/
def State.applyDesc (s : State) (p : Nat) (d : PDesc) : State :=
  let old := (s.part p).force
  let newCsm (pa : Nat) : Bool :=
    State.isCsm pa && inRun d.csm ((pa - 0x10000000000) / 2 ^ 20) && !inRun old.csm ((pa - 0x10000000000) / 2 ^ 20)
  let newCul (idx : Nat) : Bool := inRun d.share (idx / 4096) && !inRun old.share (idx / 4096)
  let s := s.modPart p fun x => { x with force := d, run := .idle, hostmap := 0 }
  let s := ((bitsOf d.clu).filter fun c => !old.clu.getLsbD c).foldl
    (fun s c => [4 * c, 4 * c + 1, 4 * c + 2, 4 * c + 3].foldl State.l1Clear s) s
  let s := if d.trc ≠ old.trc || d.clu ≠ old.clu then s.syncNext p else s
  { s with mem := s.mem.filter fun x => !newCsm x.1
           poison := s.poison.filter fun l => !newCsm (128 * l)
           cullet := s.cullet.filter fun c => !newCul c.idx }

/-! ### Commands of one cycle (R346, R374) -/

/-- A COMMIT or KILL is rejected: a command is running, or a context switch meets it in its cycle. -/
def State.busyNow (s : State) (p : Nat) : Bool := (s.part p).run ≠ .idle || s.switchDue p

/-- An accepted COMMIT is measured at once (R430). One that raises the number of carved ways takes effect when the lines
in them have been written back (R231). -/
def execCommit (p : Nat) (s : State) : Res :=
  if s.busyNow p then .next (s.rejectCmd p 10)
  else match s.commitBad p with
    | r :: _ => .next (s.rejectCmd p r)
    | [] =>
      let d := (s.part p).staged
      let s := s.modPart p fun x => { x with pmr := x.measured d }
      if s.carveWith p (s.part p).force < s.carveWith p d then
        .next (s.modPart p fun x => { x with run := .carve d none })
      else .next (s.applyDesc p d)

/-- The lines in newly carved ways are written back and leave the SLC; in the next cycle the committed descriptor takes
effect. When the write-back is over is open (log 88). -/
def execCarvedWayWritebackEnd (p : Nat) (s : State) : Res :=
  match (s.part p).run with
  | .carve d none =>
    let lines := (s.slc.filter fun x => 24 - s.carved ≤ x.way).map (·.line)
    .next ((lines.foldl State.slcDrop s).modPart p fun x => { x with run := .carve d (some s.cycle) })
  | .carve d (some c) => .next (if c < s.cycle then s.applyDesc p d else s)
  | _ => .next s

/-- A cluster that fails is taken out of the partition's descriptors, of one about to take effect too; a partition left with
none is disabled (R8, R403). -/
def Part.lose (d : Part) (c : Nat) : Part :=
  let cut (x : PDesc) : PDesc :=
    let clu := x.clu &&& ~~~(1#64 <<< c)
    { x with clu := clu, root := if clu = 0 then x.root &&& ~~~1#64 else x.root }
  { d with force := cut d.force, run := match d.run with | .carve x n => .carve (cut x) n | r => r }

/-- The partition is disabled, by a descriptor about to take effect too. -/
def Part.disable (d : Part) : Part :=
  let cut (x : PDesc) : PDesc := { x with root := x.root &&& ~~~1#64 }
  { d with force := cut d.force, run := match d.run with | .carve x n => .carve (cut x) n | r => r }

/-! ### KILL (R349, R375) -/

/-- IMGC, IMGW and IMGPG describe the last image only (R347). -/
def Part.noImage (d : Part) : Part := { d with imgc := false, imgw := false, imgpg := 0 }

/-- What a queue has parsed but not finished is given up. -/
def LQ.clearParse (l : LQ) : LQ := { l with job := none, skip := none, dl := none, hold := none, miss := [] }

/-- A partition's jobs are cancelled and its groups killed; held state is discarded. -/
def State.killPart (s : State) (p : Nat) : State :=
  let s := s.modPart p Part.noImage
  if (s.part p).held.isSome then
    s.modPart p fun d => { d with held := none, lqs := d.lqs.map LQ.clearParse }
  else
    let s := (s.jobs.filter fun j => j.part = p).foldl (fun s j => s.cancelJob p j .cancelled) s
    (s.groups.filter fun g => g.id.part = p).foldl (fun s g => s.stopGroup g.id) s

def execKill (p : Nat) (s : State) : Res :=
  .next (if s.busyNow p then s.rejectCmd p 10 else s.killPart p)

/-! ### What an image holds (R45, R118, R240, R314, R323) -/

/-- Renumbers what an image names: cores by `f`, the partition `p`, and running numbers by `k`. -/
structure Ren where
  f : Nat → Nat
  p : Nat
  k : Nat

namespace Ren

def w (r : Ren) (x : WaveId) : WaveId := { x with core := r.f x.core }
def g (r : Ren) (x : GroupId) : GroupId := { x with part := r.p }

def wait (r : Ren) : Wait → Wait
  | .arrive a => .arrive (a + r.k)
  | .handle a => .handle (a + r.k)
  | x => x

def queue (r : Ren) (q : Queue) : Queue := { q with entries := q.entries.map fun e => { e with acc := e.acc + r.k } }

def src (r : Ren) (x : TrSrc) : TrSrc := { x with uid := x.uid + r.k }

def wave (r : Ren) (x : Wave) : Wave :=
  { x with uid := x.uid + r.k, id := r.w x.id, grp := r.g x.grp, q := x.q.map r.queue,
           relAfter := x.relAfter.map (· + r.k), relNear := x.relNear.map (· + r.k), wait := r.wait x.wait,
           iss := x.iss.map r.src }

def acc (r : Ren) (x : Acc) : Acc :=
  { x with id := x.id + r.k, uid := x.uid + r.k, w := r.w x.w, grp := r.g x.grp, after := x.after.map (· + r.k),
           near := x.near.map (· + r.k), left := x.left.map (· + r.k),
           args := if x.op = .cancelled || x.op = .handle then x.args.map (fun n => n + BitVec.ofNat 64 r.k) else x.args }

def entry (r : Ren) (x : GEntry) : GEntry := 
  { x with id := x.id + r.k, chain := x.chain.map (· + r.k), after := x.after.map (· + r.k), rel := x.rel.map (· + r.k) }

def group (r : Ren) (x : Group) : Group :=
  { x with id := r.g x.id, core := r.f x.core, lastExit := x.lastExit.map r.src,
           back := x.back.map (· + r.k)
           tile := x.tile.map fun t => { t with owner := t.owner.map (· + r.k), queue := t.queue.map r.entry } }

def copy (r : Ren) (x : Copy) : Copy :=
  { x with num := x.num + r.k, uid := x.uid + r.k, w := r.w x.w, grp := r.g x.grp, after := x.after.map (· + r.k)
           rel := x.rel.map (· + r.k) }

def chan (r : Ren) (x : Chan) : Chan :=
  { x with fifo := x.fifo.map r.copy, slots := x.slots.map fun y => { y with cmd := y.cmd.map r.copy } }

end Ren

/-- A wave as it is saved: what is due has landed, and nothing of its issue distance and no miss stays (R118, R222).
Its age stays (DESIGN CHOICE, log 36). -/
def Wave.saved (w : Wave) : Wave :=
  let w := w.landDue (w.pend.foldl (fun n x => max n x.due) 0)
  { w with prev := none, ctl := false, notBefore := 0, last := 0, miss := [], lmiss := [], stw := none, tst := [], vwrite := 0, swrite := 0,
           xvi := w.xvi.map fun x => { x with start := 0 },
           q := w.q.map fun q => { entries := q.entries.map fun e => { e with got := e.got.map fun _ => 0 }, busy := [] } }

/-- A group as it is saved in cycle `now` of its cluster: of a tile in anneal state, how long it has been there (R45, R285). -/
def Group.saved (g : Group) (now : Nat) : Group :=
  { g with tile := g.tile.map fun t =>
      { t with miss := [], fault := false, runAt := 0, seq := 0, annAt := 0, annAge := if t.ann then t.annealed now else 0 } }

/-- Weak loads and ray work are saved to be made afresh, the loads as their addresses (R240); of a ray instruction
its header's address and its operands stay (R323). What comes after such an access has waited for its end (R273; log 99). -/
def Acc.saved (a : Acc) : Acc :=
  if a.op = .arrive then { a with ready := 0 }
  else if a.op.ray then
    { a with ready := 0, told := false, redo := a.op ≠ .rast, served := 0, puts := if a.op = .rast then a.puts else []
             lanes := (a.lanes.take 1).map fun l => { l with perf := false } }
  else
    { a with ready := 0, redo := a.redo || a.lanes.any fun l => !l.given
             lanes := a.lanes.map fun l => if l.given then l else { l with perf := false, poison := false, res := 0 } }

/-- Work that an image may hold: the rest arrives or is performed first (R372). -/
def Acc.savable (a : Acc) : Bool :=
  a.op.ray || (a.op = .load && a.ord = .weak) ||
  (match a.op with
   | .sldk | .fence _ | .cctl _ | .handle | .cancelled | .launch | .arrive | .pref => true
   | _ => false)

def Launch.saved (l : Launch) : Launch := { l with wait := [], since := none, offer := [] }

/-! ### SAVE and MIGSAVE (R372, R373, R375, R376) -/

end Sys2Proof.Machine

/-- What the bytes of an image of another A9 stand for: VERSION and ARCH define them (R373, log 37). -/
opaque Sys2Proof.Config.foreignImage : (bytes : List Byte) → Option Machine.Image

namespace Sys2Proof.Machine

/-- Length of the header and the directory. -/
def imgHdr : Nat := 0x40 + 16 * 80

/-- The largest image of a partition. -/
def imgBound (d : Part) (mig : Bool) : Nat :=
  65536 + d.clusters.length * 2 ^ 22 + (if mig then d.csmn * 2 ^ 20 else 0)

/-- The base of an image from PCTL.IMG. -/
def imgBase (img : W64) : Nat := bits img 47 12 * 2 ^ 12

/-- The partition holds a resident wave. -/
def State.resident (s : State) (p : Nat) : Bool := s.waves.any fun w => w.grp.part = p

/-- Step 1: parsing and placing stop. The bytes that the image will use are a free value within the
bound. With no resident wave, steps 2 and 3 complete at once (R375). -/
def startSave (p : Nat) (img : W64) (mig : Bool) (s : State) : Res :=
  if (s.part p).run ≠ .idle then .next (s.rejectCmd p 10)
  else
    let (x, s) := s.free
    let size := imgHdr + x.toNat % (imgBound (s.part p) mig - imgHdr + 1)
    if s.dramEnd < imgBase img + size then .next (s.rejectCmd p 2)
    else if s.resident p then .next (s.modPart p fun d => { d.noImage with run := .save (imgBase img) mig 1 size })
    else .next (s.modPart p fun d =>
      { d.noImage with run := .save (imgBase img) mig 3 size, imgc := true, thalt := s.timebase, timgc := s.timebase })

def execSave (p : Nat) (img : W64) (s : State) : Res := startSave p img false s
def execMigsave (p : Nat) (img : W64) (s : State) : Res := startSave p img true s

/-- Every wave is at a boundary with its fixed-latency results written, what ended waves still bring has come, every copy channel
is at a unit boundary (R314), and every tile is annealed. -/
def State.halted (s : State) (p : Nat) : Bool :=
  (s.posts.all fun x => x.src.grp.part ≠ p) &&
  ((s.coresOf p).all fun c => ((s.core c).chan.current.map fun x => decide (x.2.grp.part ≠ p) || x.2.unit.isNone).getD true) &&
  (s.waves.all fun w => w.grp.part ≠ p || w.life = .exited || w.pend.isEmpty) &&
  s.groups.all fun g => g.id.part ≠ p || (match g.tile with
    | none => true
    | some t => t.flight.isEmpty && !t.draining && (t.owner.isNone || t.ann))

def execCoresHalted (p : Nat) (s : State) : Res :=
  match (s.part p).run with
  | .save img mig 1 size =>
    if s.halted p then .next (s.modPart p fun d => { d with run := .save img mig 2 size, thalt := s.timebase }) else .next s
  | _ => .next s

/-- Step 3: the image is complete. -/
def execImageComplete (p : Nat) (s : State) : Res :=
  match (s.part p).run with
  | .save img mig 2 size =>
    if s.accs.all fun a => a.grp.part ≠ p || a.savable then
      .next (s.modPart p fun d => { d with run := .save img mig 3 size, imgc := true, timgc := s.timebase })
    else .next s
  | _ => .next s

/-- The sections of an image: control, the clusters, and CSM for MIGSAVE (R373). -/
def imgKinds (d : Part) (mig : Bool) : List Nat :=
  1 :: (List.range d.clusters.length).map (· + 2) ++ (if mig then [80] else [])

/-- An image as it stands in memory: the header and its directory, then the sections, whose contents only VERSION and
ARCH define. Where the sections begin, in the order of the directory, and their bytes are free values (DESIGN CHOICE, log 37). -/
def imgBytes (d : Part) (mig : Bool) (size : Nat) (free : Nat → Nat) : List Byte :=
  let kinds := imgKinds d mig
  let offs := sortBy (fun a b => a ≤ b) ((List.range kinds.length).map fun i => imgHdr + free i % (size - imgHdr + 1))
  let dir := (kinds.zip offs).flatMap fun x => leBytes 4 x.1 ++ leBytes 4 0 ++ leBytes 8 x.2
  let dir := dir ++ List.replicate (16 * 80 - dir.length) 0
  leBytes 4 0x39414750 ++ leBytes 2 1 ++ leBytes 1 1 ++ leBytes 1 d.clusters.length ++ leBytes 2 (if mig then 1 else 0) ++
  leBytes 2 d.csmn ++ leBytes 4 0 ++ leBytes 8 size ++ leBytes 8 d.timgc.toNat ++ leBytes 4 d.nextLid.toNat ++
  List.replicate 28 0 ++ dir ++ (List.range (size - imgHdr)).map fun i => BitVec.ofNat 8 (free (80 + i))

/-- The CSM of a partition, by offset in its granules. -/
def State.csmOf (s : State) (p : Nat) : Memory :=
  let r := csmRange (s.part p).force.csm
  (s.mem.filter fun x => r.1 ≤ x.1 && x.1 < r.2).map fun x => (x.1 - r.1, x.2)

/-- What the image of a partition holds. -/
def State.capture (s : State) (p pa : Nat) (mig : Bool) (bytes : List Byte) : Image :=
  let d := s.part p
  let r : Ren := ⟨fun c => s.cluPos p c * 4 + c % 4, p, 0⟩
  let mine (g : GroupId) : Bool := g.part = p
  { pa := pa, part := p, bytes := bytes,
    waves := (s.waves.filter fun w => mine w.grp).map fun w => r.wave w.saved,
    groups := (s.groups.filter fun g => mine g.id).map fun g => r.group (g.saved (s.cyc g.core)),
    launches := (s.launches.filter fun l => l.part = p).map Launch.saved,
    graphs := (s.graphs.filter fun g => g.part = p).map fun g => { g with wait := [] },
    jobs := (s.jobs.filter fun j => j.part = p).map fun j => { j with wait := [] },
    accs := (s.accs.filter fun a => mine a.grp && a.savable && a.op ≠ .pref).map fun a => r.acc a.saved,
    chans := (s.coresOf p).map fun c => (r.f c, r.chan { (s.core c).chan with miss := [] }),
    lqs := d.lqs, nextLid := d.nextLid,
    resv := d.resv.map fun x => { x with cores := x.cores.map r.f },
    csm := if mig then s.csmOf p else [] }

/-- The requesters of a partition leave the fault buffer; its entries stay (R222). -/
def State.fbQuit (s : State) (p : Nat) : State :=
  { s with fb := s.fb.map (fun e => if e.part = p then { e with reqs := [] } else e)
           fbwait := s.fbwait.filter fun w => w.part ≠ p }

/-- Nothing of the partition is resident any more, but for stores of ended groups on their way; its L1s are empty (R146, R187, R234), and so are its copy channels, GEN
and kept statuses included (R314; DESIGN CHOICE, log 92). -/
def State.evict (s : State) (p : Nat) : State :=
  let s := (s.trKeep fun w => w.grp.part = p).fbQuit p
  let cores := s.coresOf p
  let s := { s with waves := s.waves.filter (fun w => w.grp.part ≠ p), groups := s.groups.filter (fun g => g.id.part ≠ p)
                    launches := s.launches.filter (fun l => l.part ≠ p), graphs := s.graphs.filter (fun g => g.part ≠ p)
                    jobs := s.jobs.filter (fun j => j.part ≠ p), accs := s.accs.filter (fun a => a.grp.part ≠ p || (a.op.writes && !a.savable))
                    l1 := s.l1.filter fun l => !cores.contains l.core }
  let s := cores.foldl (fun s c => s.modChan c fun _ => Chan.empty) s
  s.modPart p fun d => { d with resv := none, lqs := d.lqs.map LQ.clearParse }

/-- Step 4: the image is written, once no bias flip holds a line of it (R449), and the allotments are released. A partition that
is held already keeps what its image holds (DESIGN CHOICE, log 70). -/
def execImageWritten (p : Nat) (s : State) : Res :=
  match (s.part p).run with
  | .save img mig 3 size =>
    if s.flipHolds img size then .next s else
    let n := s.fresh
    let s := { s with fresh := n + 80 + size }
    let bytes := imgBytes (s.part p) mig size fun i => (Config.freeValue (n + i)).toNat
    let old := (s.part p).held.bind fun h => s.images.find? fun x => x.pa = h
    let x := match old with
      | some x => { x with pa := img, bytes := bytes, csm := if mig then s.csmOf p else [] }
      | none => s.capture p img mig bytes
    let s := (s.evict p).wrOut (s.part p).ways img bytes
    .next ({ s with images := x :: s.images.filter fun y => y.pa ≠ img }.modPart p fun d =>
      { d with run := .idle, imgw := true, held := some img, imgpg := BitVec.ofNat 32 ((size + 4095) / 4096) })
  | _ => .next s

/-! ### RESTORE (R374) -/

/-- The image whose bytes stand in memory at an address; one at that very address comes first. -/
def State.imageAt (s : State) (pa : Nat) : Option Image :=
  let here (x : Image) : Bool := s.rdBytes pa x.bytes.length = x.bytes
  (s.images.find? fun x => x.pa = pa && here x) <|> (s.images.find? here)

/-- What R374 asks of an image's header and of its partition. -/
def State.restorable (s : State) (p pa : Nat) : Bool :=
  let d := s.part p
  let h (off n : Nat) : Nat := s.rdNat (pa + off) n
  (d.held.isSome || !(s.waves.any (fun w => w.grp.part = p) || s.jobs.any (fun j => j.part = p))) &&
  h 0 4 = 0x39414750 && h 4 2 = 1 && h 6 1 ≤ 1 && h 7 1 = d.clusters.length &&
  (h 8 2 % 2 = 0 || h 10 2 = d.csmn)

/-- An image with nothing in it. -/
def Image.empty : Image :=
  { pa := 0, part := 0, bytes := [], waves := [], groups := [], launches := [], graphs := [], jobs := [], accs := [],
    chans := [], lqs := [], resv := none, nextLid := 1, csm := [] }

/-- A store in canonical form. -/
def Sparse.canon {w : Nat} (m : Sparse w) : Sparse w := m.foldl (fun m x => Sparse.set m x.1 x.2) []

def Queue.canon (q : Queue) : Queue := { q with entries := q.entries.map fun e => { e with vals := Sparse.canon e.vals } }

/-- A wave whose stores are in canonical form. -/
def Wave.canon (w : Wave) : Wave :=
  { w with v := Sparse.canon w.v, p := Sparse.canon w.p, s := Sparse.canon w.s, flags := Sparse.canon w.flags, h := Sparse.canon w.h
           stalls := Sparse.canon w.stalls, tr := { w.tr with tscr := Sparse.canon w.tr.tscr }, q := w.q.map Queue.canon }

/-- A group whose stores are in canonical form. -/
def Group.canon (g : Group) : Group :=
  { g with window := Sparse.canon g.window
           tile := g.tile.map fun t => { t with accs := Sparse.canon t.accs, regs := Sparse.canon t.regs } }

/-- An image of another A9 as this one takes it up: as many queues and slots as there are. -/
def Image.foreign (x : Image) : Image :=
  { x with waves := x.waves.map Wave.canon, groups := x.groups.map Group.canon, csm := Sparse.canon x.csm
           lqs := if x.lqs.length = 8 then x.lqs else List.replicate 8 LQ.reset
           chans := x.chans.filter fun c => c.2.slots.length = 32 }

/-- What an image holds: of one that this A9 wrote, what it put there; of any other, what VERSION and ARCH make its bytes
mean, which is open (log 37). The next launchid stands in the header of each (R373). -/
def State.imageOf (s : State) (p pa : Nat) : Image :=
  let x := match s.imageAt pa with
    | some x => x
    | none => ((Config.foreignImage (s.rdBytes pa (min (s.rdNat (pa + 16) 8) (imgBound (s.part p) true)))).getD Image.empty).foreign
  { x with nextLid := BitVec.ofNat 32 (s.rdNat (pa + 32) 4) }

/-- The first number above those that an image uses for waves, accesses and commands. -/
def Image.top (x : Image) : Nat :=
  let ids := x.waves.map (·.uid) ++ x.accs.flatMap (fun a => [a.id, a.uid]) ++
    x.chans.flatMap (fun c => (c.2.fifo ++ c.2.slots.filterMap (·.cmd)).flatMap fun y => [y.num, y.uid]) ++
    x.groups.flatMap fun g => match g.tile with | some t => t.queue.map (·.id) | none => []
  ids.foldl (fun n i => max n (i + 1)) 0

/-- The misses of a load that is made afresh park its wave. -/
def State.redoMiss (s : State) (a : Acc) (ms : List Miss) : State :=
  match s.waveUid? a.uid with
  | none => s
  | some w =>
    let s := s.joinNew w.grp.part (.wave w.uid w.id) w.miss ms
    s.modUid a.uid fun w => { w with miss := joinMisses w.miss ms, missI := none }

/-- A load made afresh that classification or a reply refuses: the wave takes the cause at its next
boundary. -/
def State.redoFail (s : State) (a : Acc) (cause : Nat) (va : W64) : State :=
  (s.complete a []).modUid a.uid fun w => if w.life = .exited then w else { w with due := w.due ++ [⟨cause, va, none, 0⟩] }

/-- The data that a ray or texture instruction reads, by its header: addresses, each `size` bytes. -/
def Acc.rayReads (a : Acc) (bs : List Byte) : List (Nat × W64) :=
  let hd := rayHdr bs
  match a.op with
  | .rbox => if hd.bad then [] else
      (rayThreads 16 (a.args.drop 1)).flatMap fun (t, b, _) => (words8 (hd.nodes + 256 * b.toNat) 28).map fun va => (t, va)
  | .rtri => if hd.bad then [] else
      (rayThreads 48 (a.args.drop 1)).flatMap fun (t, b, _) =>
        (leafTris hd b).flatMap fun i => (words8 (hd.tris + 48 * i) 6).map fun va => (t, va)
  | .tex =>
    let d := texDesc bs
    if d.bad then []
    else
      let m : TexMode := match (a.args.getD 0 0).toNat with | 0 => .point | 1 => .bilin | _ => .stoch
      (rayThreads 1 (a.args.drop 2)).flatMap fun (t, u, r) =>
        (texTexels d m u (r.getD 0 0) (lo32 (a.args.getD 1 0)) t).flatMap fun x =>
          (List.range (texelSize d.fmt / 4)).map fun i => (t, BitVec.ofNat 64 (x.1 + 4 * i))
  | _ => []

/-- The first address with a bit of [63:51] set. -/
def farVa (xs : List (Nat × W64)) : Option W64 := (xs.find? fun x => bits x.2 63 51 ≠ 0).map (·.2)

/-- The pages of a read that is made afresh: a load's, or a ray instruction's header and, once that can be read, its
data. -/
def State.redoPages (s : State) (a : Acc) : List Nat :=
  a.lanes.map (fun l => pageOf l.va) ++
  match a.op.ray, a.lanes, s.waveUid? a.uid with
  | true, l :: _, some w =>
    (match s.blockAt w l.va with
     | some (pa, l1) => (a.rayReads (s.blockRead w pa l1).1).map fun x => pageOf x.2
     | none => [])
  | _, _, _ => []

/-- A ray or texture instruction in flight is issued again from its first operands (R323). -/
def State.redoRay (s : State) (a : Acc) : State :=
  match a.lanes, s.waveUid? a.uid with
  | l :: _, some w =>
    (match s.xlate (some a.w.core) a.grp.part .read 32 [(0, l.va)] with
     | .miss ms => s.redoMiss a ms
     | .trap c va => s.redoFail a c va
     | .ok _ => match s.blockAt w l.va with
       | none => s
       | some (pa, l1) =>
         if s.blockWait w l.va then s.ask pa false
         else
           let (bs, poison, t) := s.blockRead w pa l1
           let xs := a.rayReads bs
           match farVa xs, s.xlate (some a.w.core) a.grp.part .read 8 xs with
           | some va, _ => s.redoFail a 5 va
           | none, .miss ms => s.redoMiss a ms
           | none, .trap c va => s.redoFail a c va
           | none, .ok qs =>
             t.modAcc a.id fun a => { a with lanes := hdrLanes l.va pa bs poison ++ s.dataLanes qs, redo := false })
  | _, _ => s.modAcc a.id fun a => { a with redo := false }

/-- A weak load in flight is made afresh at its addresses (R240). -/
def State.redoLoad (s : State) (a : Acc) : State :=
  let xs := (a.lanes.filter fun l => !l.given).map fun l => (l.t, l.va)
  match s.xlate (some a.w.core) a.grp.part .read (sizeOf' a.tag) xs with
  | .miss ms => s.redoMiss a ms
  | .trap c va => s.redoFail a c va
  | .ok ps =>
    let put (l : Lane) : Lane := match ps.find? fun x => x.1 = l.t with
      | some x => if l.given then l else { l with pa := x.2.2.1, l1 := s.l1able x.2.2.1 x.2.2.2 }
      | none => l
    s.modAcc a.id fun a => { a with lanes := a.lanes.map put, redo := false }

/-- Everything of a partition that is still to be made afresh is tried, but not once its state is fixed in an image (R372). -/
def State.redoAll (s : State) (p : Nat) : State :=
  if (s.part p).imaged then s
  else (s.accs.filter fun a => a.redo && a.grp.part = p).foldl (fun s a => if a.op.ray then s.redoRay a else s.redoLoad a) s

/-- A wave as it comes back: TBOFF is added to its saved times (R126, R202, R207), and a WAITA's location is translated
afresh; where no leaf maps it now, or a bias flip holds a line of the walk (R449), it issues again (R376). -/
def State.waveBack (s : State) (off : W64) (w : Wave) : Wave :=
  let now := s.cyc w.id.core
  let w := { w with last := now, met := w.met.map (· + off) }
  match w.wait with
  | .sleep t => { w with wait := .sleep (t + off) }
  | .bar pd tok d sf => { w with wait := .bar pd tok (d.map (· + off)) sf }
  | .addr o va pa v d sf _ =>
    let d := d.map (· + off)
    if o.spd || pa.isNone then { w with wait := .addr o va pa v d sf now }
    else (match (if s.walkHeld w.grp.part va then none else s.mapped w.grp.part va) with
      | some x => { w with wait := .addr o va (some x) v d sf now }
      | none => w.unwait)
  | .link sf _ => { w with wait := .link sf now }
  | _ => w

/-- The partition's state comes back, and what its cores' L1s held before is invalidated, for a restored wave's
acquires lie behind it (R273). -/
def State.unpackImage (s : State) (p : Nat) (x : Image) (mig : Bool) : State :=
  let d := s.part p
  let clus := d.clusters
  let r : Ren := ⟨fun c => clus.getD (c / 4) 0 * 4 + c % 4, p, s.nextSeq⟩
  let off := d.tboff
  let s := (s.coresOf p).foldl State.l1Clear { s with nextSeq := s.nextSeq + max s.nextSeq x.top }
  let s := s.modPart p fun d =>
    { d.noImage with
      held := none
      nextLid := x.nextLid
      resv := x.resv.map fun y => { y with cores := y.cores.map r.f }
      lqs := (d.lqs.zip x.lqs).map fun y =>
        { y.1 with head := y.2.head, job := y.2.job, skip := y.2.skip, dl := y.2.dl.map fun z => (z.1 + off, z.2), hold := y.2.hold } }
  let back (g : Group) : Group := { g with tile := g.tile.map fun t => { t with annAt := s.cyc g.core } }
  let s := x.chans.foldl (fun s y => s.modChan (r.f y.1) fun _ => r.chan y.2) s
  let csm := csmRange d.force.csm
  let s := if mig then
      { s with mem := (x.csm.filter fun y => csm.1 + y.1 < csm.2).foldl (fun m y => m.set (csm.1 + y.1) y.2)
                 (s.mem.filter fun y => !(csm.1 ≤ y.1 && y.1 < csm.2))
               cullet := s.cullet.filter fun c => !inRun d.force.share (c.idx / 4096) }
    else s
  let s := s.coherentWaits p (x.waves.map r.wave)
  { s with waves := s.waves ++ x.waves.map fun w => s.waveBack off (r.wave w)
           groups := s.groups ++ x.groups.map fun g => back (r.group g)
           launches := s.launches ++ x.launches.map fun l => { l with part := p }
           graphs := s.graphs ++ x.graphs.map fun g => { g with part := p }
           jobs := s.jobs ++ x.jobs.map fun j => { j with part := p, deadline := j.deadline.map (· + off) }
           accs := s.accs ++ x.accs.map r.acc }

/-- The restore of an image reads its header, then the rest; host copies of what is read are given up first (R271), and it waits
while a bias flip holds a line of it (R449). -/
def State.restoreGo (s : State) (p : Nat) (img : W64) : State :=
  let pa := imgBase img
  let wait (s : State) : State := s.modPart p fun d => { d with run := .restore img }
  if s.flipHolds pa imgHdr then wait s
  else
    let s := (s.reclaimRange pa imgHdr false).modPart p fun d => { d with run := .idle }
    if !s.restorable p pa then s.rejectCmd p 12
    else
      let n := min (s.rdNat (pa + 16) 8) (imgBound (s.part p) true)
      if s.flipHolds pa n then wait s
      else
        let s := s.reclaimRange pa n false
        ((s.unpackImage p (s.imageOf p pa) (s.rdNat (pa + 8) 2 % 2 = 1)).redoAll p).syncNext p

def execRestore (p : Nat) (img : W64) (s : State) : Res :=
  .next (if (s.part p).run ≠ .idle then s.rejectCmd p 10 else s.restoreGo p img)

/-- A RESTORE that waits is tried again. -/
def State.restoreAgain (s : State) (p : Nat) : State :=
  match (s.part p).run with
  | .restore img => s.restoreGo p img
  | _ => s

end Sys2Proof.Machine
end

