-- ==== Sys2Proof/Machine/Faults.lean ====
section
/-!
DEFINITION. Ends of walks, replies to pending fault-buffer entries, invalidations of translations, and
the fault queue's and stop ring's heads (R221, R222, R224, R225, R286, R313, R359, R409).
-/

namespace Sys2Proof.Machine

/-! ### What a requester awaits -/

/-- Changes the misses that a requester of partition `p` awaits. -/
def State.modMiss (s : State) (p : Nat) (r : Requester) (f : List Miss → List Miss) : State :=
  match r with
  | .wave uid _ => s.modUid uid fun w => { w with miss := f w.miss }
  | .chan core => s.modChan core fun ch => { ch with miss := f ch.miss }
  | .tile g _ => s.modTile g fun t => { t with miss := f t.miss, fault := t.fault && !(f t.miss).isEmpty }
  | .parser q => s.modLq p q fun l => { l with miss := f l.miss }
  | .launch acc id => s.modWave id fun w => w.launchMiss acc (f (w.launchMisses acc))
  | .unit (.launch lid) => s.modLaunch p lid fun l => { l with wait := f l.wait }
  | .unit (.graph jid gi) => s.modGraph p jid gi fun g => { g with wait := f g.wait }
  | .unit (.job jid) => s.modJob p jid fun j => { j with wait := f j.wait }

/-- The page's translation has been filled for an access kind: the miss is over. -/
def fillMiss (page : Nat) (k : AccKind) (ms : List Miss) : List Miss :=
  ms.filter fun m => !(pageOf m.va = page && m.kind = k && m.settled.isNone)

/-- The miss is settled otherwise. -/
def endMiss (page : Nat) (k : AccKind) (x : MissEnd) (ms : List Miss) : List Miss :=
  ms.map fun m => if pageOf m.va = page && m.kind = k && m.settled.isNone then { m with settled := some x } else m

/-- Once nothing of a parked wave is unsettled, it goes on (R222), unless its state is fixed in an image (R372). -/
def State.afterMiss (s : State) (r : Requester) : State :=
  match r with
  | .wave uid _ => if ((s.waveUid? uid).map fun w => (s.part w.grp.part).imaged).getD false then s else s.settle uid
  | _ => s

/-- An engine: bit 3 of ACC (R225). -/
def Requester.engine : Requester → Bool
  | .wave _ _ => false
  | _ => true

/-- CORE, SLOT and LAUNCH of a requester in a fault record (R225, R359, R361). -/
def State.whereIs (s : State) (r : Requester) : Nat × Nat × Nat :=
  match r with
  | .wave uid id => (id.core, id.q * 16 + id.slot, ((s.waveUid? uid).map (·.grp.lid)).getD 0)
  | .launch _ id => (id.core, id.q * 16 + id.slot, ((s.wave? id).map (·.grp.lid)).getD 0)
  | .chan core => (core, 0xFF, (((s.core core).chan.current).map fun c => c.2.grp.lid).getD 0)
  | .tile g core => (core, 0xFF, g.lid)
  | .parser _ => (0xFFFF, 0xFF, 0)
  | .unit (.launch lid) => (0xFFFF, 0xFF, lid)
  | .unit _ => (0xFFFF, 0xFF, 0)

/-- The address of a requester's access to a page. -/
def State.missVa (s : State) (p : Nat) (r : Requester) (page : Nat) : Option W64 :=
  let ms : List Miss := match r with
    | .wave uid _ => ((s.waveUid? uid).map (·.miss)).getD []
    | .chan core => (s.core core).chan.miss
    | .tile g _ => ((s.tile? g).map (·.2.miss)).getD []
    | .parser q => (s.lq p q).miss
    | .launch acc id => ((s.wave? id).map fun w => w.launchMisses acc).getD []
    | .unit (.launch lid) => ((s.launch? p lid).map (·.wait)).getD []
    | .unit (.graph jid gi) =>
      ((s.graphs.find? fun g => g.part = p && g.jid = jid && g.gi = gi).map (·.wait)).getD []
    | .unit (.job jid) => ((s.job? p jid).map (·.wait)).getD []
  (ms.find? fun m => pageOf m.va = page).map (·.va)

/-! ### The end of a walk (R221, R222) -/

/-- What a walk's result means for an access kind: none where it may go on, and otherwise its cause,
level and UH. -/
def WalkRes.meets (r : WalkRes) (k : AccKind) : Option (Nat × Nat × Bool) :=
  match r with
  | .leaf lvl _ attr => if allows attr k then none else some (5, lvl, attr.getLsbD 5)
  | .fault c lvl uh (some attr) => if allows attr k then none else some (c, lvl, uh)
  | .fault c lvl uh none => some (c, lvl, uh)
  | .malformed lvl => some (5, lvl, false)

/-- The requester is a wave that vectors to its fault handler on a UH page. -/
def State.vectors (s : State) (r : Requester) : Bool :=
  match r with
  | .wave uid _ => ((s.waveUid? uid).map fun w => w.canVector && w.life = .live).getD false
  | _ => false

/-- The record of an entry that becomes pending. -/
def State.postFault (s : State) (e : FbEntry) (res : WalkRes) (r : Requester) (k : AccKind) : State :=
  let (core, slot, lid) := s.whereIs r
  let va := (s.missVa e.part r (pageOf e.va)).getD e.va
  let acc := k.code + (if r.engine then 8 else 0)
  let (kind, lvl) := match res with
    | .malformed lvl => (2, lvl)
    | .fault 4 lvl _ _ => (0, lvl)
    | .fault _ lvl _ _ => (1, lvl)
    | .leaf lvl _ _ => (1, lvl)
  s.fqPost e.part (fqBytes va e.fbid kind acc lvl core slot lid)

/-- An entry of the buffer is freed, and waiting requesters take its place. -/
def State.fbFree (s : State) (e : FbEntry) : State :=
  let s := { s with fb := s.fb.filter fun x => x.fbid ≠ e.fbid }
  s.fbGrant e.part s.fbwait.length

/-- The entries whose walks run: as many as there are walkers, the oldest first (R219). -/
def State.walking (s : State) : List Nat :=
  ((s.fb.filter fun e => e.pending.isNone).take walkers).map (·.fbid)

/-- The core whose translation pipe serves a requester; none for one that belongs to no core. -/
def Requester.core : Requester → Option Nat
  | .wave _ id | .launch _ id => some id.core
  | .chan c | .tile _ c => some c
  | .parser _ | .unit _ => none

/-- The cores that asked for a page with an access of a kind. -/
def FbEntry.cores (e : FbEntry) (k : AccKind) : List (Option Nat) :=
  ((e.reqs.filter fun q => q.2 = k).map fun q => q.1.core).dedup

/-- A walk ends: it fills, with A and D set, for the kinds that it allows; a wave on a UH page vectors;
any other requester makes the entry pending, with one record. The walk after a RETRY is an acquire at .sys of its requesters'
cores (R234, R260, R445). -/
def execWalkComplete (fbid : Nat) (s : State) : Res :=
  match s.fb.find? fun e => e.fbid = fbid with
  | none => .next s
  | some e =>
    let lines := s.walkLines e.part e.va
    if e.pending.isSome || !s.walking.contains fbid then .next s
    else if lines.any (fun pa => s.snoopHeld pa true) then .next (lines.foldl (fun s pa => s.ask pa true) s)
    else
      let page := pageOf e.va
      let s := if e.acq then ((e.reqs.filterMap fun q => q.1.core).dedup).foldl State.l1Clear s else s
      let res := (s.walkEnd e.part e.va).1
      let s := (lines.foldl (fun s pa => s.slcTouch (s.part e.part).ways pa true) s).walkKeep e.part e.va
      let oks := e.reqs.filter fun q => (res.meets q.2).isNone
      let uhs := e.reqs.filter fun q => match res.meets q.2 with | some (_, _, uh) => uh && s.vectors q.1 | none => false
      let rest := e.reqs.filter fun q => match res.meets q.2 with | some (_, _, uh) => !(uh && s.vectors q.1) | none => false
      -- the fill, by a walk for each kind that asks for one
      let s := (oks.map (·.2)).dedup.foldl (fun s k => match s.walk e.part e.va k with
        | (.leaf lvl pa attr, s) => (e.cores k).foldl (fun s c => s.tlbFill c e.part e.va lvl pa attr) s
        | (_, s) => s) s
      let s := oks.foldl (fun s q => s.modMiss e.part q.1 (fillMiss page q.2)) s
      let s := uhs.foldl (fun s q => match res.meets q.2 with
        | some (c, lvl, _) => s.modMiss e.part q.1 (endMiss page q.2 (.uh c lvl))
        | none => s) s
      let e' := { e with reqs := rest }
      let s := match rest with
        | [] => s.fbFree e
        | (r, k) :: _ =>
          let pend := match res.meets k, res with
            | some (c, lvl, uh), .leaf _ _ attr => WalkRes.fault c lvl uh (some attr)
            | _, x => x
          { s with fb := upd (fun x => x.fbid = fbid) (fun _ => { e' with pending := some pend }) s.fb }.postFault e' pend r k
      let s := (oks ++ uhs).foldl (fun s q => s.afterMiss q.1) s
      .next (s.redoAll e.part)

/-! ### Replies (R222) -/

def State.pendingOf (s : State) (p fbid : Nat) : Option FbEntry :=
  s.fb.find? fun e => e.fbid = fbid && e.part = p && e.pending.isSome

/-- RETRY walks again, as an acquire (R260). -/
def execFrespRetry (p fbid : Nat) (s : State) : Res :=
  match s.pendingOf p fbid with
  | none => .next s
  | some _ => .next { s with fb := upd (fun x => x.fbid = fbid) (fun x => { x with pending := none, acq := true }) s.fb }

/-- The reads that a restored wave makes afresh of a page end unwritten, a ray instruction's header and data alike. -/
def State.dropRedo (s : State) (r : Requester) (page : Nat) : State :=
  match r with
  | .wave uid _ => (s.accs.filter fun a => a.redo && a.uid = uid && (s.redoPages a).contains page).foldl
      (fun s a => s.complete a []) s
  | _ => s

/-- FAIL frees the entry; requesters whose kind the walk's leaf allows go on. -/
def execFrespFail (p fbid : Nat) (s : State) : Res :=
  match s.pendingOf p fbid with
  | none => .next s
  | some e =>
    let page := pageOf e.va
    let res := e.pending.getD (.malformed 0)
    let s := e.reqs.foldl (fun s q => match res.meets q.2 with
      | none => s.modMiss p q.1 (fillMiss page q.2)
      | some (c, _, _) =>
        let s := s.modMiss p q.1 (endMiss page q.2 (.fail c))
        if (s.part p).imaged then s else s.dropRedo q.1 page) s
    let s := s.fbFree e
    .next (e.reqs.foldl (fun s q => s.afterMiss q.1) s)

/-! ### Invalidation (R224) -/

/-- The pages of a range hold an address. -/
def inPages (rng : Option (Nat × Nat)) (va : Nat) : Bool :=
  match rng with
  | none => true
  | some (lo, n) => lo ≤ va / 2 ^ 15 && va / 2 ^ 15 < lo + n

/-- A leaf overlaps the range. -/
def Tlb.hitBy (t : Tlb) (rng : Option (Nat × Nat)) : Bool :=
  match rng with
  | none => true
  | some (lo, n) =>
    let pages := 2 ^ (leafShift t.lvl - 15)
    t.vpn * pages < lo + n && lo < (t.vpn + 1) * pages && 0 < n

/-- An address was translated through what an invalidation removes: its page is in the range, or in a removed
leaf. -/
def removedBy (rng : Option (Nat × Nat)) (gone : List Tlb) (va : Nat) : Bool :=
  inPages rng va || gone.any fun t => t.vpn = va / 2 ^ leafShift t.lvl

/-- Accesses that were translated through a removed translation and are still to be performed, those of a running TDRAIN
included. -/
def State.translated (s : State) (p : Nat) (rng : Option (Nat × Nat)) (gone : List Tlb) : List Nat :=
  (s.accs.filter fun a => a.grp.part = p && !a.op.sp && !a.redo &&
    a.lanes.any fun l => !l.perf && removedBy rng gone l.va.toNat).map (·.id) ++
  (s.groups.filter fun g => g.id.part = p).flatMap fun g => match g.tile with
    | some t => (t.queue.filter fun x => x.started && x.pages.any fun y => removedBy rng gone (y.1 * 2 ^ 15)).map (·.id)
    | none => []

/-- A waiting WAITA whose translation is removed is translated afresh; where no leaf maps it now, it issues
again, and so where a bias flip holds a line of the walk (R449). -/
def State.waitaAgain (s : State) (p : Nat) (rng : Option (Nat × Nat)) (gone : List Tlb) (w : Wave) : Wave :=
  match w.wait with
  | .addr o va (some _) v d sf at_ =>
    if w.grp.part = p && !o.spd && removedBy rng gone va.toNat then
      match (if s.walkHeld p va then none else s.mapped p va) with
      | some pa => { w with wait := .addr o va (some pa) v d sf at_ }
      | none => w.unwait
    else w
  | _ => w

/-- The reach of a walk-cache entry overlaps the range. -/
def WalkEntry.hitBy (e : WalkEntry) (rng : Option (Nat × Nat)) : Bool :=
  match rng with
  | none => true
  | some (lo, n) =>
    let pages := 2 ^ (leafShift e.lvl - 15)
    e.vpn * pages < lo + n && lo < (e.vpn + 1) * pages && 0 < n

/-- An invalidation starts: the translations go at once, from the pipes, the shared TLB and the walk caches. -/
def State.tlbStart (s : State) (p : Nat) (rng : Option (Nat × Nat)) (reg : W64) : State :=
  if (s.part p).tlbbusy then s
  else
    let gone := s.tlb.filter fun t => t.part = p && t.hitBy rng
    let s := s.modPart p fun d => { d with tlbinv := reg, tlbbusy := true, tlbwait := s.translated p rng gone }
    let s := { s with tlb := s.tlb.filter (fun t => !(t.part = p && t.hitBy rng))
                      walks := s.walks.filter fun e => !(e.part = p && e.hitBy rng) }
    let s := s.coherentWaits p s.waves
    { s with waves := s.waves.map (s.waitaAgain p rng gone) }

def execTlbinvPartition (p : Nat) (s : State) : Res := .next (s.tlbStart p none (setBits (0#64) 63 62 1))

def execTlbinvRange (p : Nat) (npages : W32) (s : State) : Res :=
  .next (s.tlbStart p (some (bits (s.part p).tlbinva 50 15, npages.toNat))
    (setBits (npages.zeroExtend 64) 63 62 2))

/-- BUSY falls when every access translated through a removed translation has been performed. -/
def execTlbInvalidationEnd (p : Nat) (s : State) : Res :=
  let d := s.part p
  if d.tlbbusy && s.afterDone d.tlbwait then
    .next (s.modPart p fun d => { d with tlbbusy := false, tlbwait := [] })
  else .next s

/-! ### Heads of the rings (R225, R409) -/

def execFaultQueueHeadAdvance (p : Nat) (value : W64) (s : State) : Res :=
  let s := s.modPart p fun d => { d with fqhead := value.truncate 12 }
  .next (s.fqDrain p (s.part p).fqheld.length)

def execStopRingHeadAdvance (p : Nat) (value : W64) (s : State) : Res :=
  let s := s.modPart p fun d => { d with dshead := value.truncate 6 }
  .next (s.dsDrain p (s.part p).dsheld.length)

end Sys2Proof.Machine
end

