-- ==== Sys2Proof/Machine/Errors.lean ====
section
/-!
DEFINITION. The error log, errors in arrays and their containment, resuming stopped waves, and the end of
a loss of trace packets (R398–R407, R412, R423).
-/

namespace Sys2Proof.Machine

/-! ### The error log (R399, R406, R407) -/

/-- Log2 of the ring's records; none where it is disabled. -/
def ErrLog.elog (e : ErrLog) : Option Nat :=
  let n := bits e.base 4 1
  if e.base.getLsbD 0 && 7 ≤ n then some n else none

/-- What an error record says of its place: partition, core, slot, relaunch count, launch, group. -/
structure ErrAt where
  part : Nat
  core : Nat
  slot : Nat
  reln : Nat
  lid : Nat
  gidx : Nat
  deriving DecidableEq, Repr

/-- Nothing of a group. -/
def ErrAt.none : ErrAt := ⟨0xFF, 0xFFFF, 0xFF, 0, 0, 0⟩

/-- The 32 bytes of an error record. -/
def errBytes (time addr : W64) (src sev act : Nat) (x : ErrAt) : List Byte :=
  leBytes 8 time.toNat ++ leBytes 8 addr.toNat ++ leBytes 1 src ++ leBytes 1 sev ++ leBytes 1 act ++ leBytes 1 x.part ++
  leBytes 2 x.core ++ leBytes 1 x.slot ++ leBytes 1 x.reln ++ leBytes 4 x.lid ++ leBytes 4 x.gidx

/-- A record for which there is no room is counted in LOST. -/
def State.errLose (s : State) : State :=
  { s with err := { s.err with lost := if s.err.lost = 0xFFFF then 0xFFFF else s.err.lost + 1 } }

/-- The next error record's place in the log, those counted that a bias flip holds up. -/
def ErrLog.pos (e : ErrLog) : Nat :=
  let n := e.tail.toNat + (e.held.filter fun x => x.1.isNone).length
  match e.elog with
  | some k => n % 2 ^ k
  | none => e.tail.toNat

/-- Records are written in order, each once no bias flip holds a line of it (R449); one that meets a full or disabled ring is
counted in LOST. -/
def State.errDrain (s : State) : (fuel : Nat) → State
  | 0 => s
  | n + 1 =>
    match s.err.held with
    | [] => s
    | (some at_, bytes) :: rest =>
      if s.flipHolds at_ bytes.length then s
      else State.errDrain (({ s with err := { s.err with held := rest } }).wrOut 0xFFFFFF at_ bytes) n
    | (none, bytes) :: rest =>
      let t : State := { s with err := { s.err with held := rest } }
      let at_ := bits s.err.base 47 12 * 2 ^ 12 + 32 * s.err.tail.toNat
      match s.err.elog with
      | none => State.errDrain t.errLose n
      | some k =>
        let next : BitVec 16 := BitVec.ofNat 16 ((s.err.tail.toNat + 1) % 2 ^ k)
        if next = s.err.head then State.errDrain t.errLose n
        else if s.flipHolds at_ 32 then s
        else
          let t := t.wrOut 0xFFFFFF at_ bytes
          let t : State := { t with err := { t.err with tail := next } }
          State.errDrain (if t.err.ctl.getLsbD 1 then t.msix 160 else t) n

/-- A record of the error fabric comes behind those still to be written. -/
def State.errQueue (s : State) (at_ : Option Nat) (bytes : List Byte) : State :=
  let s : State := { s with err := { s.err with held := s.err.held ++ [(at_, bytes)] } }
  s.errDrain s.err.held.length

/-- A record is posted, or counted in LOST while the ring is full or disabled. -/
def State.errPost (s : State) (src sev act : Nat) (addr : W64) (x : ErrAt) : State :=
  s.errQueue none (errBytes s.timebase addr src sev act x)

/-- Counts an uncorrectable error. -/
def State.ueCount (s : State) : State :=
  { s with err := { s.err with ue := if s.err.ue = 0xFFFFFF then 0xFFFFFF else s.err.ue + 1 } }

/-- The rows of SRC whose ADDR is a physical address (R407). -/
def srcPhys (src : Nat) : Bool := (7 ≤ src && src ≤ 11) || src = 13

/-- The core that an ADDR names, or 0xFFFF. -/
def addrCore (src : Nat) (addr : W64) : Nat := if srcPhys src then 0xFFFF else bits addr 63 48

def execCorrectedError (src : BitVec 8) (addr : W64) (part : BitVec 8) (s : State) : Res :=
  let s := { s with err := { s.err with ce := if s.err.ce = 0xFFFFFF then 0xFFFFFF else s.err.ce + 1 } }
  .next (if s.err.ctl.getLsbD 0 then
    s.errPost src.toNat 0 0 addr { ErrAt.none with part := part.toNat, core := addrCore src.toNat addr } else s)

/-! ### Errors in the state of a group (R400, R401, R404) -/

def Group.errAt (g : Group) (slot reln : Nat) : ErrAt :=
  ⟨g.id.part, g.core, slot, reln, g.id.lid, g.id.idx⟩

/-- The group is placed again after an error. -/
def Group.relaunches (g : Group) : Bool := g.kern.idem && decide (g.relaunch < 2)

/-- A kind-5 record: the group is killed and not relaunched. -/
def State.errRecord (s : State) (g : GroupId) (core slot : Nat) : State :=
  s.fqPost g.part (fqBytes (BitVec.ofNat 64 g.idx) 0 5 13 0 core slot g.lid)

/-- The group is killed as a cancel kills it; in the same cycle, once every cancel of it has taken effect, it goes back
to unplaced (R400, R405). -/
def State.errRelaunch (s : State) (g : Group) : State :=
  let s := (s.stopGroup g.id).modGroup g.id fun x => { x with again := true }
  { s with events := insEvent (.relaunch g.id) s.events }

/-- A group that an error has killed gives its allotments back and is unplaced again, its release offered to itself;
what it has sent to memory is still performed, and a unit that a copy has read for its window is dropped with the window (R400).
One that a cancel of the same cycle has met stays killed (R405). -/
def State.relaunchGroup (s : State) (id : GroupId) : State :=
  match (s.group? id).filter (·.again), s.launch? id.part id.lid with
  | some g, some l =>
    if l.stat = .live then
      let drop (c : Copy) : Copy := if c.grp = id && c.o.dsp then { c with unit := none } else c
      let s := s.modChan g.core fun ch => { ch with slots := ch.slots.map fun x => { x with cmd := x.cmd.map drop } }
      (s.releaseGroup g fun a => a.op.writes).modLaunch id.part id.lid fun l =>
        { l with redo := redoIns (id.idx, g.relaunch + 1) l.redo, offer := l.offer ++ [some id.idx] }
    else s.modGroup id fun x => { x with again := false }
  | _, _ => s.modGroup id fun x => { x with again := false }

/-- Every wave of the group but one stops at its next boundary, which is now. -/
def State.stopOthers (s : State) (g : GroupId) (uid : Nat) : State :=
  let other (w : Wave) : Bool := w.grp = g && w.uid ≠ uid && w.life = .live
  let n := (s.waves.filter other).length
  (s.stopWaves other).modGroup g fun x => { x with killed := true, exited := x.exited + n, back := some uid }

/-- Cause 13 precisely at the instruction that read the bad value: a wait that has begun is given up, an ARRIVE under way too. -/
def State.trap13 (s : State) (uid : Nat) (tail : W64) : State :=
  match s.waveUid? uid with
  | none => s
  | some w =>
    let s := s.giveUp w true
    match s.waveUid? uid with
    | some w => s.trapEntry w 13 w.pc tail
    | none => s

/-- The other waves of the group stop, and the group has its record (R401, R404). -/
def State.errTrap (s : State) (g : Group) (w : Wave) (tail : W64) : State :=
  ((s.errRecord g.id w.id.core (w.id.q * 16 + w.id.slot)).stopOthers g.id w.uid).trap13 w.uid tail

/-- A wave that read a bad value takes cause 13, after the cancels and kills of its cycle (R36, R401). Its group may have ended
by then; in the group's cause-13 handler it is a double trap, and of a wave that the handler's has stopped it kills the group. -/
def State.takeErr (s : State) (uid : Nat) (tail : W64) : State :=
  match s.waveUid? uid with
  | none => s
  | some w =>
    match s.group? w.grp with
    | none => s
    | some g =>
      if g.back.isSome then
        if w.life = .live then s.trap13 uid tail else (s.stopGroup g.id).errRecord g.id 0xFFFF 0xFF
      else if g.killed || w.life ≠ .live then s
      else s.errTrap g w tail

/-- A wave of the group is in the group's cause-13 handler, or will be in this cycle. -/
def State.trapping (s : State) (g : Group) : Bool :=
  g.back.isSome || s.events.any fun e => match e with
    | .errTrap uid _ => ((s.waveUid? uid).map fun w => decide (w.grp = g.id)).getD false
    | _ => false

/-- One entry of some leaves a list: the one of that index among those of the core. -/
def dropNth {α : Type} (mine : α → Bool) (idx : Nat) (l : List α) : List α :=
  let ks := (l.zipIdx.filter fun x => mine x.1).map (·.2)
  match ks[idx % ks.length]? with
  | some k => l.eraseIdx k
  | none => l

/-- L1, the instruction cache, the TLBs and the walk caches hold only copies: the line or entry goes, and is fetched
or walked again (R398). -/
def State.refetch (s : State) (src core idx : Nat) : State :=
  if src = 4 then { s with l1 := dropNth (fun l => l.core = core) idx s.l1 }
  else if src = 5 then { s with ic := dropNth (fun l => l.core = core) idx s.ic }
  else if idx % (s.tlb.length + s.walks.length) < s.tlb.length then
    { s with tlb := s.tlb.eraseIdx (idx % (s.tlb.length + s.walks.length)) }
  else { s with walks := s.walks.eraseIdx (idx % (s.tlb.length + s.walks.length) - s.tlb.length) }

/-- The partition that owns a core's cluster. -/
def State.partOf (s : State) (core : Nat) : Option Nat := (List.range 16).find? fun p => (s.part p).clu (core / 4)

/-- An uncorrectable error in an array of a core: of copies, which are fetched again; or of the state of
a group, which is relaunched, takes cause 13 at the reading wave, or is killed. -/
def execUncorrectableError (src : BitVec 8) (addr : W64) (g : GroupId) (rd : ErrReader) (s : State) : Res :=
  let n := src.toNat
  if 4 ≤ n && n ≤ 6 then
    let core := addrCore n addr
    .next ((s.ueCount.refetch n (bits addr 63 48) (bits addr 31 0)).errPost n 1 1 addr
      { ErrAt.none with part := (s.partOf core).getD 0xFF, core := core })
  else match s.group? g with
    | none => .next s
    | some x =>
      if 6 < n then .next s
      else if x.killed && x.back.isNone then .next (s.ueCount.errPost n 1 4 addr (x.errAt 0xFF x.relaunch))
      else
        let tail := BitVec.ofNat 64 s.err.pos
        let w : Option Wave := match rd with
          | .wave id => (s.wave? id).bind fun w => if w.grp = g && w.life = .live then some w else none
          | .other => none
        let slot := (w.map fun w => w.id.q * 16 + w.id.slot).getD 0xFF
        let s := s.ueCount
        if x.relaunches && x.back.isNone then
          .next ((s.errPost n 1 3 addr (x.errAt slot (x.relaunch + 1))).errRelaunch x)
        else match w with
          | some w =>
            let s := s.errPost n 1 (if s.trapping x then 4 else 7) addr (x.errAt slot x.relaunch)
            .next { s with events := insEvent (.errTrap w.uid tail) s.events }
          | none => .next (((s.errPost n 1 4 addr (x.errAt slot x.relaunch)).stopGroup g).errRecord g 0xFFFF 0xFF)

/-! ### Errors in memory (R402) -/

def State.poisonLine (s : State) (line : Nat) : State := { s with poison := insNat (s.lineKey line) s.poison }

/-- Every host copy of a line is back-invalidated without its data. -/
def State.dropCopies (s : State) (line : Nat) : State :=
  (s.snoop.filter fun x => x.line = line).foldl (fun s x =>
    ({ s with snoop := s.snoop.filter (fun y => y ≠ x)
              out := s.out ++ [Out.backInvalidate x.host line] }).flipAnswered x.host line) s

/-- SRC of a memory error. -/
def MemErr_src : MemErr → Nat
  | .line => 7
  | .tag => 8
  | .dir => 9
  | .dram => 10

/-- A clean line is fetched again from its home; a modified line, a CSM line, a line of a lost directory
entry and what LPDDR-6 reports are poisoned. -/
def execMemoryUncorrectableError (kind : MemErr) (pa : Nat) (s : State) : Res :=
  let line := pa / 128
  if !s.present pa then .next s
  else
    let s := s.ueCount
    let post (s : State) (act : Nat) : State := s.errPost (MemErr_src kind) 1 act (BitVec.ofNat 64 pa) ErrAt.none
    match kind with
    | .dir => .next (post ((s.poisonLine line).dropCopies line) 2)
    | .dram => .next (post (s.poisonLine line) 2)
    | _ =>
      if s.modified line || State.isCsm pa then .next (post (s.poisonLine line) 2)
      else .next (post { s with slc := s.slc.filter fun x => x.line ≠ line } 1)

/-! ### Fencing a cluster (R403, R404) -/

/-- The copy commands of a channel fail, running and queued. -/
def State.failChan (s : State) (core : Nat) : State :=
  let ch := (s.core core).chan
  let s := ch.running.foldl (fun s n => match (ch.slots[n]?).bind (·.cmd) with
    | some c => s.endCopy core n c .failed none
    | none => s) s
  s.modChan core fun ch => { ch with fifo := [] }

/-- A group with a wave on a fenced cluster, one that runs its cause-13 handler included. -/
def State.fenceGroup (s : State) (g : Group) : State :=
  if g.killed && g.back.isNone then s
  else if g.relaunches && g.back.isNone then s.errRelaunch g
  else (s.stopGroup g.id).errRecord g.id 0xFFFF 0xFF

/-- Its tile is discarded with what was in flight. -/
def Group.noTile (g : Group) : Group :=
  { g with tile := g.tile.map fun t => { t with queue := [], flight := [], owner := none, ann := false, miss := [] } }

def execClusterFence (c : Nat) (s : State) : Res :=
  if !s.cluUp c then .next s
  else
    let owner := (List.range 16).find? fun p => (s.part p).clu c
    let s := s.ueCount.errPost 12 1 5 (setBits (0#64) 63 48 (4 * c)) { ErrAt.none with part := owner.getD 0xFF, core := 4 * c }
    let s := s.modCluster c fun x => { x with fenced := true }
    let s := (s.groups.filter fun g => g.core / 4 = c).foldl State.fenceGroup s
    let s := [4 * c, 4 * c + 1, 4 * c + 2, 4 * c + 3].foldl State.failChan s
    let s := { s with groups := upd (fun g => g.core / 4 = c) Group.noTile s.groups }
    match owner with
    | none => .next s
    | some p =>
      let s := s.modPart p fun d => d.lose c
      .next (s.fqPost p (fqBytes (BitVec.ofNat 64 c) 0 6 13 0 (4 * c) 0xFF 0))

/-! ### Resuming a stopped wave (R412) -/

/-- The stopped wave that LID, DRGRP and WAVE name. -/
def State.stoppedWave (s : State) (p : Nat) (lid : W32) (wave : BitVec 4) : Option Wave :=
  s.waves.find? fun w => w.grp = ⟨p, lid.toNat, (s.part p).drgrp.toNat⟩ && w.k = wave.toNat && w.life = .live &&
    (match w.dstate with | .stopped _ => true | _ => false)

/-- The wave goes on at its recorded PC. -/
def State.dresume (s : State) (p : Nat) (lid : W32) (wave : BitVec 4) (d : DbgState) : Res :=
  match s.stoppedWave p lid wave with
  | none => .next s
  | some w => .next ((s.modWave w.id fun w => { w with dstate := d }).trace w [.pc w.pc])

def execDresumeResume (p : Nat) (lid : W32) (wave : BitVec 4) (s : State) : Res := s.dresume p lid wave .run

def execDresumeStep (p : Nat) (lid : W32) (wave : BitVec 4) (s : State) : Res := s.dresume p lid wave .oneshot

def execDresumeKill (p : Nat) (lid : W32) (wave : BitVec 4) (s : State) : Res :=
  match s.stoppedWave p lid wave with
  | none => .next s
  | some w => .next (s.stopGroup w.grp)

/-! ### Trace (R423) -/

def execTraceLoss (core : Nat) (s : State) : Res := .next (s.trLoss core)

end Sys2Proof.Machine
end

