-- ==== Sys2Proof/Machine/HostSide.lean ====
section
/-!
DEFINITION. What the hosts do: bias flips, snoops and back-invalidates, CXL.mem and CSM accesses, the
lease, the links, and the CXL windows (R377–R397, R447–R449).
-/

namespace Sys2Proof.Machine

namespace State

def port (s : State) (h : Nat) : HostPort := s.ports.getD h (HostPort.reset h)

def modPort (s : State) (h : Nat) (f : HostPort → HostPort) : State := { s with ports := s.ports.modify h f }

/-- The port is present and its link is up. -/
def portUp (s : State) (h : Nat) : Bool := h < s.nhost && (s.port h).up

/-! ### Bias (R385–R387, R447–R449) -/

/-- The page of an address behaves as host-biased: a page that a flip is changing behaves as
device-biased. -/
def hostBiased (s : State) (pa : Nat) : Bool :=
  s.bias.contains (pa / 4096) && (s.flip.map (·.page)) ≠ some (pa / 4096)

/-- The 32 lines of a page. -/
def pageLines (page : Nat) : List Nat := (List.range 32).map fun i => 32 * page + i

/-- A BFLIP command on a page, while none runs: `op` acts on the page's bias. -/
def bflip (s : State) (page : BitVec 28) (op : Nat → Bool → State → State) : State :=
  if s.flip.isSome then s
  else
    let s := { s with bfpage := page }
    let n := page.toNat
    if s.dramEnd ≤ 4096 * n then { s with biasRes := false }
    else
      let b := s.bias.contains n
      op n b { s with biasRes := b }

end State

/-- Host copies of the page's lines are back-invalidated. -/
def execBflipToDevice (page : BitVec 28) (s : State) : Res :=
  .next (s.bflip page fun n b s =>
    if !b then s
    else
      let held := (State.pageLines n).flatMap fun l => (s.snoop.filter fun x => x.line = l).map fun x => (x.host, l)
      let s := (State.pageLines n).foldl (fun s l => s.ask (128 * l) true) s
      { s with flip := some ⟨n, false, held, [], s.cycle⟩ })

/-- Write-backs of the page's modified lines are issued, in ascending order, each with the bytes that the line has now; the lines
are kept, and a line written from now on is modified anew (R448). -/
def execBflipToHost (page : BitVec 28) (s : State) : Res :=
  .next (s.bflip page fun n b s =>
    if b then s
    else
      let ks := ((State.pageLines n).map s.lineKey).filter fun k => s.dirty.contains k
      { s with dirty := s.dirty.filter fun k => !ks.contains k
               flip := some ⟨n, true, [], ks.map fun k => (k, (List.range 128).map fun i => s.mem.get (k * 128 + i)), s.cycle⟩ })

def execBflipQuery (page : BitVec 28) (s : State) : Res := .next (s.bflip page fun _ _ s => s)

/-- LPDDR-6 has the bytes of a write-back that it accepts. -/
def State.acceptBack (s : State) (b : Nat × List Byte) : State := { s with home := winSet s.home (b.1 * 128) b.2 }

/-- LPDDR-6 accepts the write-backs that a free value names, in any order; with `eager`, one at least (R448, log 73). -/
def State.flipAccept (s : State) (f : Flip) : State :=
  match f.back with
  | [] => s
  | l :: ls =>
    let (x, s) := s.free
    let first := if s.eager then ((l :: ls).getD (x.toNat / 2 ^ 32 % (ls.length + 1)) l).1 else 2 ^ 64
    let goes (b : Nat × List Byte) : Bool := x.getLsbD (b.1 % 32) || b.1 = first
    let s := ((l :: ls).filter goes).foldl State.acceptBack s
    { s with flip := some { f with back := (l :: ls).filter fun b => !goes b, done := s.cycle } }

/-- In the cycle after the last write-back or answer, the bit changes and BUSY falls; until then write-backs are
accepted. -/
def execBiasFlipEnd (s : State) : Res :=
  match s.flip with
  | none => .next s
  | some f =>
    if f.waiting.isEmpty && f.back.isEmpty && f.done < s.cycle then
      .next { s with bias := if f.toHost then insNat f.page s.bias else s.bias.filter fun x => x ≠ f.page
                     biasRes := f.toHost
                     flip := none }
    else .next (if f.back.isEmpty then s else s.flipAccept f)

/-! ### Snoops and back-invalidates (R271, R382, R383) -/

/-- A host gives up a line, as a back-invalidate has asked it to. -/
def execBackInvalidateResponse (host line : Nat) (s : State) : Res :=
  match s.snoop.find? fun x => x.host = host && x.line = line && x.asked with
  | none => .next s
  | some x => .next (s.merge x)

/-- The slice gives a host's line up to its home, where it holds it modified; it then shares it at most, or with `own`
has it no more. -/
def State.yieldLine (s : State) (line : Nat) (own : Bool) : State :=
  let s := s.sendHome (s.lineKey line)
  { s with slc := if own then s.slc.filter fun x => x.line ≠ line
                  else upd (fun x => x.line = line) (fun x => { x with own := false }) s.slc }

/-- The line is homed behind a port: in a host's memory, or in the window of a peer A9 behind a CXL port, which back-invalidates
its lines (R271, R397). -/
def State.homedAt (s : State) (host line : Nat) : Bool :=
  (s.portUp host && decide (State.hostOf (128 * line) = some host)) ||
  (2 ≤ host && decide (s.cxlOf (128 * line) = some (host - 2)) && s.peerPage (128 * line))

/-- A slice answers a snoop from the home of a line, with data where it holds the line modified; the home then has it. -/
def execHostSnoop (host line : Nat) (own : Bool) (s : State) : Res :=
  if !s.homedAt host line then .next s
  else
    let data := if s.modified line then some (s.rdBytes (128 * line) 128) else none
    let s := s.yieldLine line own
    .next { s with out := s.out ++ [.snoop host line data] }

/-! ### Host accesses (R261, R378, R385) -/

namespace State

/-- Who may send host accesses: a host port, or a peer A9 behind a CXL port, which has no cache (R397). -/
def memPort (s : State) (host : Nat) : Bool :=
  s.portUp host ||
  (2 ≤ host && host - 2 < s.ncxl &&
    (let w := (s.cxwin.getD (host - 2) ⟨0, 0⟩).win
     w.getLsbD 63 && bits w 62 61 = 2))

/-- The HDM range, and the host's own memory. -/
def hostReach (s : State) (host pa size : Nat) : Bool :=
  pa % 128 + size ≤ 128 && (pa + size ≤ s.dramEnd || (host < 2 && hostOf pa = some host))

/-- The host that homes the line has it: what the SLC holds modified goes back first. -/
def homeLine (s : State) (pa : Nat) (own : Bool) : State :=
  if (hostOf pa).isSome then s.yieldLine (pa / 128) own else s

def copyOf (s : State) (host line : Nat) : Option Snoop := s.snoop.find? fun x => x.host = host && x.line = line

end State

/-- The ways for fills on behalf of a host: HWAY (R231). -/
def State.hostWays (s : State) : Nat := bits s.slccfg 23 0

/-- The copies of a line that stand in the way of a host's access are given up: its own without a message. -/
def State.takeLine (s : State) (host pa : Nat) (write : Bool) : State :=
  let mine := s.snoop.filter fun x => x.host = host && x.line = pa / 128
  ((if write then mine.foldl State.merge s else s).reclaim pa write)

/-- A snoop filter without room for one more copy frees an entry: a free value names the copy that its host gives up. What
a filter holds is open (R385, log 88). -/
def State.makeRoom (s : State) (host : Nat) : State :=
  let mine := s.snoop.filter fun x => x.host = host
  if mine.length ≠ 0 && Config.snoopRoom host ≤ mine.length then
    let (n, s) := s.free
    match mine[n.toNat % mine.length]? with
    | none => s
    | some x =>
      let s := if x.asked then s else { s with out := s.out ++ [.backInvalidate x.host x.line] }
      s.merge x
  else s

/-- A read of memory by a host is served from its own valid copy, or at the slice once what another host modified is
merged; the host keeps the line only under host bias. -/
def State.hostRead (s : State) (host pa size : Nat) (keep : Bool) : State :=
  let line := pa / 128
  if !s.memPort host || !s.hostReach host pa size then s
  else match s.copyOf host line with
    | some x => { s with out := s.out ++ [.data host ((x.bytes.drop (pa % 128)).take size)] }
    | none =>
      let s := (s.homeLine pa false).takeLine host pa false
      let s := if (State.hostOf pa).isSome then s else s.slcTouch s.hostWays pa false
      if s.poisoned pa then { s with out := s.out ++ [.poison host] }
      else
        let s := { s with out := s.out ++ [.data host (s.rdBytes pa size)] }
        if keep && host < 2 && s.hostBiased pa then
          let s := s.makeRoom host
          { s with snoop := s.snoop ++ [⟨host, line, false, false, false, s.rdBytes (128 * line) 128⟩] }
        else s

/-- What a host's write or atomic leaves of the bytes it finds (R244). -/
def hostNew (rmw : Option HostAtom) (old bytes : List Byte) : List Byte :=
  match rmw with
  | none => bytes
  | some x => leBytes bytes.length (atomNew x.op x.tag (leNat old) (leNat bytes) x.cmp.toNat)

/-- A host's atomic returns what it finds. -/
def State.hostOld (s : State) (host : Nat) (rmw : Option HostAtom) (old : List Byte) : State :=
  if rmw.isSome then { s with out := s.out ++ [.data host old] } else s

/-- A write or atomic made with ownership is made in the host's owned copy under host bias; any other is merged at the slice
once every copy is given up, the host's own among them (R385). A write of a whole line takes its poison away. -/
def execHostMemWrite (host pa : Nat) (bytes : List Byte) (own : Bool) (rmw : Option HostAtom) (s : State) : Res :=
  let line := pa / 128
  let n := bytes.length
  if !s.memPort host || !s.hostReach host pa n then .next s
  else
    let mine := s.copyOf host line
    let owned := (mine.map (·.own)).getD false
    if own && (owned || (host < 2 && s.hostBiased pa && !s.poisoned pa)) then
      let s := (s.snoop.filter fun x => x.line = line && x.host ≠ host).foldl
        (fun s x => (s.ask (128 * line) true).merge { x with asked := true }) s
      let s := if mine.isSome then s else s.makeRoom host
      let all := (mine.map (·.bytes)).getD (s.rdBytes (128 * line) 128)
      let old := (all.drop (pa % 128)).take n
      let x : Snoop := ⟨host, line, true, true, (mine.map (·.asked)).getD false, overlay all (pa % 128) (hostNew rmw old bytes)⟩
      .next ({ s with snoop := x :: s.snoop.filter fun x => ¬ (x.host = host ∧ x.line = line) }.hostOld host rmw old)
    else
      let s := (s.homeLine pa true).takeLine host pa true
      if rmw.isSome && s.poisoned pa then .next { s with out := s.out ++ [.poison host] }
      else
        let old := s.rdBytes pa n
        let new := hostNew rmw old bytes
        let s := if (State.hostOf pa).isSome then { s with mem := winSet s.mem pa new, home := winSet s.home pa new }
          else s.slcWrite s.hostWays pa new
        let s := if n = 128 then { s with poison := s.poison.filter fun l => l ≠ s.lineKey line } else s
        .next (s.hostOld host rmw old)

/-- The CSM aperture takes aligned accesses of 4 or 8 bytes; a granule that no partition owns reads 0 and
ignores writes. -/
def execCsmApertureAccess (host off size : Nat) (write : Option W64) (s : State) : Res :=
  if !s.portUp host then .next s
  else if !((size = 4 || size = 8) && off % size = 0 && off < 2 ^ 28) then .next { s with out := s.out ++ [.unsupported host] }
  else
    let pa := 0x10000000000 + off
    let owned := (List.range 16).any fun p => (s.classify p pa).isNone
    match write with
    | some v => .next (if owned then s.wrNat pa size v.toNat else s)
    | none =>
      if owned && s.poisoned pa then .next { s with out := s.out ++ [.poison host] }
      else .next { s with out := s.out ++ [.data host (if owned then s.rdBytes pa size else List.replicate size 0)] }

/-! ### The lease (R388–R392) -/

/-- Pending vectors of the active port that may be sent now are sent, once each. -/
def State.flush (s : State) (h : Nat) : State :=
  if s.active ≠ some h then s
  else
    let p := s.port h
    { s with out := s.out ++ (p.tbl.filter p.sends).map fun v => Out.msix h v }.modPort h fun p =>
      { p with tbl := p.tbl.filter fun v => !p.sends v }

/-- The two ports exchange roles; what the old one had still to send goes to the new one (R390). A new active port whose
link is down waits for a RENEW or an ARM (R391). -/
def State.takeover (s : State) : State :=
  match s.active with
  | none => s
  | some a =>
    let b := 1 - a
    let pending := (s.port a).tbl
    let clear (p : HostPort) : HostPort := { p with armed := false, deadline := none, expired := false, lost := !p.up }
    let s := (s.modPort a fun p => { clear p with tbl := [] }).modPort b clear
    let s := { s with active := some b, hpstat := s.hpstat ||| 0x04 }
    (pending.foldl State.msix s).flush b

/-- A takeover, if the standby is there and armed. -/
def State.takeoverIf (s : State) : State :=
  match s.active with
  | some a => if 1 - a < s.nhost && (s.port (1 - a)).armed then s.takeover else s
  | none => s

/-- A lease write through its own port: accepted with the nonce where `ok` holds, and then the nonce
changes; any other is counted in BAD (R389). -/
def State.leaseWrite (s : State) (h : Nat) (nonce : W32) (ok : Bool) (f : State → State) : State :=
  if !s.portUp h then s
  else if nonce = (s.port h).nonce && ok then
    let n := s.fresh
    f ({ s with fresh := n + 1 }.modPort h fun p => { p with nonce := freshNonce n })
  else s.modPort h fun p => { p with bad := if p.bad = 0xFF then 0xFF else p.bad + 1 }

def execLeaseRenew (port : Nat) (nonce : W32) (period : BitVec 16) (s : State) : Res :=
  .next (s.leaseWrite port nonce (s.active = some port && period ≠ 0) fun s =>
    (s.modPort port fun p =>
      { p with period := period, deadline := some (s.timebase + BitVec.ofNat 64 (1000 * period.toNat)), expired := false,
                                lost := false }).flush port)

/-- Where the active port's link is down, or went down or its lease expired with no RENEW since, a takeover follows at
once (R391). -/
def execLeaseArm (port : Nat) (nonce : W32) (s : State) : Res :=
  .next (s.leaseWrite port nonce (s.active ≠ some port) fun s =>
    let s := s.modPort port fun p => { p with armed := true }
    match s.active with
    | some a => if !(s.port a).up || (s.port a).expired || (s.port a).lost then s.takeover else s
    | none => s)

def execLeaseDisarm (port : Nat) (nonce : W32) (s : State) : Res :=
  .next (s.leaseWrite port nonce (s.active ≠ some port) fun s => s.modPort port fun p => { p with armed := false })

def execLeaseYield (port : Nat) (nonce : W32) (s : State) : Res :=
  .next (s.leaseWrite port nonce
    (s.active = some port && 1 - port < s.nhost && (s.port (1 - port)).armed) State.takeover)

/-- The last cycle of a tick: a RENEW that arrives in the tick of the deadline has come by now (R390). -/
def State.lastOfTick (s : State) : Bool := 8 ≤ s.tickAcc

/-- The active port's deadline has come. -/
def State.leaseDue (s : State) : Bool :=
  match s.active with
  | some a => s.lastOfTick && !(s.port a).expired && (match (s.port a).deadline with | some d => d.toNat ≤ s.timebase.toNat | none => false)
  | none => false

/-- The lease expires: a takeover with an armed standby, or LEXP. -/
def execLeaseExpiry (s : State) : Res :=
  match s.active with
  | some a =>
    if !s.leaseDue then .next s
    else if 1 - a < s.nhost && (s.port (1 - a)).armed then .next s.takeover
    else .next ({ s with hpstat := s.hpstat ||| 0x08 }.modPort a fun p => { p with expired := true })
  | none => .next s

/-! ### Links (R394, R395) -/

/-- A line that cannot go back to a failed host is put in the save area, or discarded (R395). -/
def State.lfSave (s : State) (line : Nat) : State :=
  let cnt := bits s.lfsave 63 48
  let base := bits s.lfsave 47 20
  let bytes := leBytes 8 (128 * line) ++ leBytes 8 s.timebase.toNat ++ s.rdBytes (128 * line) 128
  let s := if base = 0 || bits s.lfsave 15 0 ≤ cnt then
      s.ueCount.errPost 13 1 6 (BitVec.ofNat 64 (128 * line)) ErrAt.none
    else s.errQueue (some (base * 2 ^ 20 + 144 * cnt)) bytes
  { s with lfsave := setBits s.lfsave 63 48 (min (cnt + 1) 0xFFFF) }

/-- The SLC gives a line up: its home's bytes are what it has now. -/
def State.lineLost (s : State) (line : Nat) : State :=
  { s with mem := (List.range 128).foldl (fun m i => m.set (128 * line + i) (s.home.get (128 * line + i))) s.mem
           dirty := s.dirty.filter fun l => l ≠ line
           slc := s.slc.filter fun x => x.line ≠ line }

/-- Accesses outstanding to a failed host's memory: reads deliver poison, and the rest is lost. -/
def Acc.hostLost (h : Nat) (a : Acc) : Acc :=
  if a.op.sp then a
  else { a with lanes := a.lanes.map fun l =>
      if !l.perf && State.hostOf l.pa = some h then { l with perf := true, poison := true } else l }

/-- A partition is killed and disabled (R394). -/
def State.fencePart (s : State) (p : Nat) : State :=
  (s.killPart p).modPart p Part.disable

def execLinkDown (port : Nat) (s : State) : Res :=
  if !s.portUp port then .next s
  else
    let s := s.modPort port fun p => { p with down := true, up := false }
    let copies := s.snoop.filter fun x => x.host = port
    let drop (s : State) (x : Snoop) : State :=
      State.flipAnswered (if x.dirty then s.poisonLine x.line else s) port x.line
    let s := copies.foldl drop s
    let s := { s with snoop := s.snoop.filter fun x => x.host ≠ port }
    let s := (s.dirty.filter fun l => State.hostOf (128 * l) = some port).foldl (fun (s : State) l => (s.lfSave l).lineLost l) s
    let s := { s with accs := s.accs.map (Acc.hostLost port) }
    let s : State := { s with events := ((List.range 16).filter fun p => (s.part p).hostmap.getLsbD port).foldr (fun p es => insEvent (.contain p) es) s.events }
    if s.active ≠ some port then .next s
    else
      let t : State := s.takeoverIf
      .next (if t.active = some port then t.modPort port fun p => { p with lost := true } else t)

def execLinkUp (port : Nat) (s : State) : Res :=
  if port < s.nhost then .next ((s.modPort port fun p => { p with up := true }).flush port) else .next s

/-! ### CXL windows (R396, R397) -/

/-- The base and size of a window. -/
def CxWin.range (w : CxWin) : Nat × Nat := (bits w.win 47 30 * 2 ^ 30, bits w.sz 47 30 * 2 ^ 30)

/-- A window may be enabled. -/
def State.cxOk (s : State) (n : Nat) (w : CxWin) : Bool :=
  let (base, size) := w.range
  let o := s.cxwin.getD (1 - n) ⟨0, 0⟩
  (bits w.win 62 61 = 1 || bits w.win 62 61 = 2) &&
  0x20000000000 ≤ base && base + size ≤ 0x400000000000 && size ≤ Config.cxlCapacity n &&
  !(o.win.getLsbD 63 && overlaps w.range o.range)

/-- A write of CXWINn or CXSZn: while EN is 1 only EN changes. -/
def execCxwinWrite (n : Nat) (sz : Bool) (value : W64) (s : State) : Res :=
  if s.ncxl ≤ n then .next s
  else
    let w := s.cxwin.getD n ⟨0, 0⟩
    let put (x : CxWin) : Res := .next { s with cxwin := s.cxwin.set n x }
    if sz then
      if w.win.getLsbD 63 then .next s
      else put { w with sz := value &&& 0xFFFFFFFFC0000000 }
    else if w.win.getLsbD 63 then
      put { w with win := setBits w.win 63 63 ((value.getLsbD 63 && s.cxOk n w).toNat) }
    else
      let x : CxWin := { w with win := value &&& 0x6000FFFFC0000000 }
      put { x with win := setBits x.win 63 63 ((value.getLsbD 63 && s.cxOk n x).toNat) }

/-- A completion that a CXL port reports as timed out, or as poisoned, delivers its line poisoned: to a lane of a
wave's access, or to a fill for another unit (R235, R397, R407). -/
def execCxlCompletionTimeout (pa : Nat) (who : Option (Nat × Nat)) (s : State) : Res :=
  let fail (at_ : ErrAt) : Res := .next ((s.ueCount.errPost 11 1 2 (BitVec.ofNat 64 pa) at_).poisonLine (pa / 128))
  if (s.cxlOf pa).isNone || s.slc.any (fun x => x.line = pa / 128) then .next s
  else match who with
    | none => fail ErrAt.none
    | some (acc, lane) =>
      match s.acc? acc with
      | none => .next s
      | some a =>
        if a.lanes.any fun l => l.t = lane && !l.perf && l.pa / 128 = pa / 128 && !a.op.sp then
          let reln := ((s.group? a.grp).map (·.relaunch)).getD 0
          fail ⟨a.grp.part, a.w.core, a.w.q * 16 + a.w.slot, reln, a.grp.lid, a.grp.idx⟩
        else .next s

end Sys2Proof.Machine
end

