-- ==== Sys2Proof/Machine/Sig.lean ====
section
/-!
DEFINITION. The two signature checks of R428: RSASSA-PSS with SHA-384 over RSA-3072 (FIPS 186-5), and
SLH-DSA-SHA2-192s (FIPS 205), with the hashes that they use beside SHA-384 (FIPS 180-4).
-/

namespace Sys2Proof.Machine

/-! ### SHA-512 and SHA-256 -/

def sha512Init : List W64 :=
  [0x6A09E667F3BCC908, 0xBB67AE8584CAA73B, 0x3C6EF372FE94F82B, 0xA54FF53A5F1D36F1,
   0x510E527FADE682D1, 0x9B05688C2B3E6C1F, 0x1F83D9ABFB41BD6B, 0x5BE0CD19137E2179]

def sha512 (bs : List Byte) : List Byte :=
  let pad := (239 - bs.length % 128) % 128
  let m := bs ++ [0x80] ++ List.replicate pad 0 ++ (leBytes 16 (8 * bs.length)).reverse
  (shaBlocks (m.length / 128) sha512Init m).flatMap fun w => (leBytes 8 w.toNat).reverse

def sha256K : List W32 :=
  [0x428A2F98, 0x71374491, 0xB5C0FBCF, 0xE9B5DBA5, 0x3956C25B, 0x59F111F1, 0x923F82A4, 0xAB1C5ED5,
   0xD807AA98, 0x12835B01, 0x243185BE, 0x550C7DC3, 0x72BE5D74, 0x80DEB1FE, 0x9BDC06A7, 0xC19BF174,
   0xE49B69C1, 0xEFBE4786, 0x0FC19DC6, 0x240CA1CC, 0x2DE92C6F, 0x4A7484AA, 0x5CB0A9DC, 0x76F988DA,
   0x983E5152, 0xA831C66D, 0xB00327C8, 0xBF597FC7, 0xC6E00BF3, 0xD5A79147, 0x06CA6351, 0x14292967] ++
  [0x27B70A85, 0x2E1B2138, 0x4D2C6DFC, 0x53380D13, 0x650A7354, 0x766A0ABB, 0x81C2C92E, 0x92722C85,
   0xA2BFE8A1, 0xA81A664B, 0xC24B8B70, 0xC76C51A3, 0xD192E819, 0xD6990624, 0xF40E3585, 0x106AA070,
   0x19A4C116, 0x1E376C08, 0x2748774C, 0x34B0BCB5, 0x391C0CB3, 0x4ED8AA4A, 0x5B9CCA4F, 0x682E6FF3,
   0x748F82EE, 0x78A5636F, 0x84C87814, 0x8CC70208, 0x90BEFFFA, 0xA4506CEB, 0xBEF9A3F7, 0xC67178F2]

def sha256Init : List W32 :=
  [0x6A09E667, 0xBB67AE85, 0x3C6EF372, 0xA54FF53A, 0x510E527F, 0x9B05688C, 0x1F83D9AB, 0x5BE0CD19]

def rotr32 (x : W32) (n : Nat) : W32 := (x >>> n) ||| (x <<< (32 - n))

/-- The message schedule's next words; the words so far, the last one first. -/
def sha256Words : (fuel : Nat) → List W32 → List W32
  | 0, ws => ws.reverse
  | n + 1, ws =>
    let w (k : Nat) : W32 := ws.getD (k - 1) 0
    let g0 (x : W32) : W32 := rotr32 x 7 ^^^ rotr32 x 18 ^^^ (x >>> 3)
    let g1 (x : W32) : W32 := rotr32 x 17 ^^^ rotr32 x 19 ^^^ (x >>> 10)
    sha256Words n ((g1 (w 2) + w 7 + g0 (w 15) + w 16) :: ws)

def sha256Round (v : List W32) (kw : W32) : List W32 :=
  let g (i : Nat) : W32 := v.getD i 0
  let ch := (g 4 &&& g 5) ^^^ (~~~(g 4) &&& g 6)
  let maj := (g 0 &&& g 1) ^^^ (g 0 &&& g 2) ^^^ (g 1 &&& g 2)
  let s0 := rotr32 (g 0) 2 ^^^ rotr32 (g 0) 13 ^^^ rotr32 (g 0) 22
  let s1 := rotr32 (g 4) 6 ^^^ rotr32 (g 4) 11 ^^^ rotr32 (g 4) 25
  let t1 := g 7 + s1 + ch + kw
  [t1 + s0 + maj, g 0, g 1, g 2, g 3 + t1, g 4, g 5, g 6]

def sha256Blocks : (fuel : Nat) → List W32 → List Byte → List W32
  | 0, h, _ => h
  | n + 1, h, bs =>
    let m := (List.range 16).map fun i => BitVec.ofNat 32 (beNat ((bs.drop (4 * i)).take 4))
    let v := (sha256K.zip (sha256Words 48 m.reverse)).foldl (fun v x => sha256Round v (x.1 + x.2)) h
    sha256Blocks n ((h.zip v).map fun x => x.1 + x.2) (bs.drop 64)

def sha256 (bs : List Byte) : List Byte :=
  let pad := (119 - bs.length % 64) % 64
  let m := bs ++ [0x80] ++ List.replicate pad 0 ++ (leBytes 8 (8 * bs.length)).reverse
  (sha256Blocks (m.length / 64) sha256Init m).flatMap fun w => (leBytes 4 w.toNat).reverse

/-- Big-endian bytes. -/
def beBytes (n x : Nat) : List Byte := (leBytes n x).reverse

/-- MGF1: `len` bytes of the hashes of the seed with a counter, each `hlen` bytes. -/
def mgf1 (hash : List Byte → List Byte) (hlen : Nat) (seed : List Byte) (len : Nat) : List Byte :=
  ((List.range ((len + hlen - 1) / hlen)).flatMap fun i => hash (seed ++ beBytes 4 i)).take len

/-! ### RSASSA-PSS, SHA-384, salt of 48 bytes, exponent 65,537 -/

/-- x^65537 modulo n. -/
def rsaPublic (n x : Nat) : Nat := ((List.range 16).foldl (fun y _ => y * y % n) x) * x % n

/-- EMSA-PSS verification of an encoded message of 384 bytes, of which 3,071 bits count. -/
def pssOk (msg em : List Byte) : Bool :=
  let db := em.take 335
  let h := (em.drop 335).take 48
  let x := (db.zip (mgf1 sha384 48 h 335)).map fun (a, b) => a ^^^ b
  let x := x.modify 0 fun a => a &&& 0x7F
  em.length = 384 && em.getD 383 0 = 0xBC && db.getD 0 0 &&& 0x80 = 0 &&
  (x.take 286).all (fun a => a = 0) && x.getD 286 0 = 1 &&
  sha384 (List.replicate 8 0 ++ sha384 msg ++ x.drop 287) = h

/-- The signature, a byte string of 384, verifies under a modulus of 3,072 bits, an integer of the image (log 89). -/
def rsaVerify (modulus signature message : List Byte) : Bool :=
  let n := leNat modulus
  let s := beNat signature
  2 ^ 3071 ≤ n && n < 2 ^ 3072 && s < n && pssOk message (beBytes 384 (rsaPublic n s))

/-! ### SLH-DSA-SHA2-192s: n 24, h 63, d 7, h′ 9, a 14, k 17, w 16 -/

/-- The fields of an address (ADRS) that the compressed form of 22 bytes holds. -/
structure SlhAdrs where
  layer : Nat
  tree : Nat
  type : Nat
  pair : Nat
  height : Nat             -- or the chain
  index : Nat              -- or the step of the chain
  deriving DecidableEq, Repr

def SlhAdrs.bytes (a : SlhAdrs) : List Byte :=
  beBytes 1 a.layer ++ beBytes 8 a.tree ++ beBytes 1 a.type ++ beBytes 4 a.pair ++ beBytes 4 a.height ++ beBytes 4 a.index

/-- F, and H and T of any number of nodes. -/
def slhF (seed : List Byte) (a : SlhAdrs) (m : List Byte) : List Byte :=
  (sha256 (seed ++ List.replicate 40 0 ++ a.bytes ++ m)).take 24
def slhH (seed : List Byte) (a : SlhAdrs) (m : List Byte) : List Byte :=
  (sha512 (seed ++ List.replicate 104 0 ++ a.bytes ++ m)).take 24

/-- The first `len` digits of `b` bits of a byte string, the highest first. -/
def slhDigits (x : List Byte) (b len : Nat) : List Nat :=
  (List.range len).map fun i => beNat x / 2 ^ (8 * x.length - (i + 1) * b) % 2 ^ b

/-- The node `i` of a signature part. -/
def slhNode (sig : List Byte) (i : Nat) : List Byte := (sig.drop (24 * i)).take 24

/-- From a leaf up a path of siblings; `idx` is the leaf's place and `base` its index among all leaves of the height. -/
def slhClimb (seed : List Byte) (a : SlhAdrs) (sib : Nat → List Byte) (idx base : Nat) (leaf : List Byte) (height : Nat) :
    List Byte :=
  (List.range height).foldl (fun x j =>
    let a := { a with height := j + 1, index := (base + idx) / 2 ^ (j + 1) }
    if idx / 2 ^ j % 2 = 0 then slhH seed a (x ++ sib j) else slhH seed a (sib j ++ x)) leaf

/-- The WOTS+ chain from step `i` to step 15. -/
def slhChain (seed : List Byte) (a : SlhAdrs) (i : Nat) (x : List Byte) : List Byte :=
  (List.range (15 - i)).foldl (fun x j => slhF seed { a with index := i + j } x) x

/-- The WOTS+ public key of a signature of a node. -/
def slhWots (seed : List Byte) (a : SlhAdrs) (sig m : List Byte) : List Byte :=
  let msg := slhDigits m 4 48
  let csum := msg.foldl (fun n x => n + (15 - x)) 0
  let ds := msg ++ slhDigits (beBytes 2 (csum * 16)) 4 3
  let tops := (List.range 51).flatMap fun i => slhChain seed { a with height := i, index := 0 } (ds.getD i 0) (slhNode sig i)
  slhH seed { a with type := 1, height := 0, index := 0 } tops

/-- The root of an XMSS tree from a signature of a node. -/
def slhXmss (seed : List Byte) (layer tree leaf : Nat) (sig m : List Byte) : List Byte :=
  let a : SlhAdrs := ⟨layer, tree, 0, leaf, 0, 0⟩
  slhClimb seed { a with type := 2, pair := 0 } (fun j => slhNode sig (51 + j)) leaf 0 (slhWots seed a sig m) 9

/-- The FORS public key of a signature of a digest. -/
def slhFors (seed : List Byte) (tree leaf : Nat) (sig md : List Byte) : List Byte :=
  let a : SlhAdrs := ⟨0, tree, 3, leaf, 0, 0⟩
  let ds := slhDigits md 14 17
  let roots := (List.range 17).flatMap fun i =>
    let part := sig.drop (24 * 15 * i)
    let idx := ds.getD i 0
    let sk := slhF seed { a with index := i * 2 ^ 14 + idx } (slhNode part 0)
    slhClimb seed a (fun j => slhNode part (1 + j)) idx (i * 2 ^ 14) sk 14
  slhH seed { a with type := 4 } roots

/-- A signature of 16,224 bytes verifies under a public key of 48: the pure version with an empty context (log 89). -/
def slhVerify (key signature message : List Byte) : Bool :=
  let seed := key.take 24
  let root := key.drop 24
  let r := signature.take 24
  let m := [0, 0] ++ message
  let digest := mgf1 sha512 64 (r ++ seed ++ sha512 (r ++ seed ++ root ++ m)) 39
  let tree := beNat ((digest.drop 30).take 7) % 2 ^ 54
  let leaf := beNat ((digest.drop 37).take 2) % 2 ^ 9
  let fors := slhFors seed tree leaf (signature.drop 24) (digest.take 30)
  let top := (List.range 7).foldl (fun (x : List Byte × Nat × Nat) j =>
      (slhXmss seed j x.2.1 x.2.2 (signature.drop (24 * (1 + 255 + 60 * j))) x.1, x.2.1 / 2 ^ 9, x.2.1 % 2 ^ 9))
    (fors, tree, leaf)
  key.length = 48 && signature.length = 16224 && top.1 = root

end Sys2Proof.Machine
end

