-- ==== Sys2Proof/Machine/Mgmt.lean ====
section
/-!
DEFINITION. The management plane: bring-up and the firmware image, measurement and attestation, clocks
and caps, the sideband, device reset and loss of power (R117, R379, R425–R434).
-/

/-- What a write to the management mailbox asks for: how requests are laid out there is the firmware's (R434, log 40). -/
opaque Sys2Proof.Config.mailReq : (off : Nat) → (value : Sys2Proof.W64) → Option Sys2Proof.MailReq

namespace Sys2Proof.Machine

/-! ### The firmware image (R428) -/

/-- A little-endian field of an image. -/
def imgFld (img : List Byte) (off n : Nat) : Nat := leNat ((img.drop off).take n)

/-- The body of an image, and the message that its signatures cover. -/
def imgBody (img : List Byte) : List Byte := (img.drop 17056).take (imgFld img 8 4)
def imgMsg (img : List Byte) : List Byte := img.take 16 ++ imgBody img

/-- There is an image: its magic, its size and its bytes. -/
def imgThere (img : List Byte) : Bool :=
  let size := imgFld img 8 4
  imgFld img 0 4 = 0x46574741 && 4096 ≤ size && size ≤ 2 ^ 24 - 17056 && 17056 + size ≤ img.length

def imgRsaOk (img : List Byte) : Bool :=
  let key := (img.drop 16).take 384
  sha384 key = Config.rsaKeyDigest && rsaVerify key ((img.drop 400).take 384) (imgMsg img)

def imgSlhOk (img : List Byte) : Bool :=
  let key := (img.drop 784).take 48
  sha384 key = Config.slhKeyDigest && slhVerify key ((img.drop 832).take 16224) (imgMsg img)

/-- The lowest ERR code that applies to an image; 0: it passes. -/
def imgErr (minSvn : Nat) (img : List Byte) : Nat :=
  if !imgThere img then 1
  else if !imgRsaOk img then 2
  else if !imgSlhOk img then 3
  else if imgFld img 4 2 < minSvn then 4
  else 0

/-! ### Bring-up (R388, R425, R429, R430) -/

/-- In recovery with an ERR code. -/
def State.recover (s : State) (err : Nat) : State :=
  { s with mg := { s.mg with stage := 15, err := BitVec.ofNat 8 err } }

/-- The port that trains in recovery: A, or B when A does not (R429). -/
def State.recoveryPort (s : State) : Option Nat := (List.range s.nhost).find? s.portUp

/-- The end of step 3, or of a recovery's check: step 4 begins, with PMR0 and no partition enabled, or recovery. -/
def State.verify (s : State) (img : List Byte) : State :=
  match imgErr s.mg.minSvn.toNat img with
  | 0 =>
    let d := toPmr (sha384 (imgBody img))
    { s with parts := s.parts.map fun p => { p.disable with pmr := p.pmr.modify 0 fun x => pmrExt x d }
             mg := { s.mg with stage := 4, err := 0, checking := false, svn := BitVec.ofNat 16 (imgFld img 4 2) } }
  | n => { s.recover n with mg := { (s.recover n).mg with checking := false } }

/-- The end of step 4: the host links have trained, and the lease reset rule names the active port; then ready. -/
def State.trained (s : State) : State :=
  match s.recoveryPort with
  | none => s.recover 6
  | some h => { s with active := some h, mg := { s.mg with stage := 5 } }

/-- A step of bring-up, or a check in recovery, is under way. -/
def State.booting (s : State) : Bool :=
  (1 ≤ s.mg.stage.toNat && s.mg.stage.toNat ≤ 4 && s.mg.err = 0) || (s.mg.stage = 15 && s.mg.checking)

/-- Step 2 trains LPDDR-6. -/
def State.trainMemory (s : State) : State :=
  let n := s.fresh
  let s := { s with fresh := n + 1 }
  if Config.memoryTrains n then { s with mg := { s.mg with stage := 3 } }
  else { s with mg := { s.mg with err := 5 } }

/-- The step of bring-up that is under way ends, and the next one starts (R425). -/
def State.bootNext (s : State) : State :=
  if s.mg.stage = 1 then { s with mg := { s.mg with stage := 2 } }
  else if s.mg.stage = 2 then s.trainMemory
  else if s.mg.stage = 4 then s.trained
  else s.verify s.mg.img

/-- How long a step takes is open: it ends at once, or when a free value says so. -/
def State.bootStep (s : State) : State :=
  if !s.booting then s
  else if s.eager then s.bootNext
  else
    let (x, s) := s.free
    if x.getLsbD 0 then s.bootNext else s

/-- Power-good of a machine without power: step 1 starts, on the image that the flash has now (R434). -/
def execPowerGood (s : State) : Res :=
  .next (if s.mg.stage ≠ 0 then s
    else { s with timebase := 0, tickAcc := 0, mg := { s.mg with stage := 1, err := 0, img := s.mg.flash } })

/-- A write to RCVCTL in recovery, while no check runs, starts one. -/
def execRecoveryImageCheck (value : W64) (s : State) : Res :=
  let len := bits value 31 0
  if s.mg.stage ≠ 15 || s.mg.checking || bits value 63 60 ≠ 5 || bits value 59 32 ≠ 0 then .next s
  else if len < 21152 || 2 ^ 24 < len then .next (s.recover 1)
  else .next { s with mg := { s.mg with img := s.rdBytes 0 len, checking := true } }

/-! ### Device reset and loss of power (R18, R427) -/

/-- The reset values, with what a reset does not touch: the grade, the links, the flash and the fuses. The
agenda is the world's. -/
def State.cleared (s : State) : State :=
  let n := s.fresh
  { State.reset with
    cycle := s.cycle, timebase := s.timebase, tickAcc := s.tickAcc, agenda := s.agenda, eager := s.eager, events := [],
    fresh := n + 2, nextSeq := s.nextSeq, grade := s.grade, out := s.out
    ports := s.ports.mapIdx fun i p => { HostPort.reset (n + i) with up := p.up }
    mg := { State.reset.mg with flash := s.mg.flash, minSvn := if s.mg.minSvn < s.mg.raise then s.mg.raise else s.mg.minSvn } }

/-- Lines that the SLC holds modified, those of write-backs that LPDDR-6 has still to accept among them (R448). -/
def State.unsaved (s : State) : List Nat := s.dirty ++ (s.flip.map fun f => f.back.map (·.1)).getD []

/-- A device reset: memory keeps what its homes have; bring-up starts afresh. -/
def execDeviceReset (s : State) : Res :=
  let kept := s.unsaved.foldl State.lineLost s
  let r := { s.cleared with mem := kept.mem.filter fun x => !State.isCsm x.1, home := s.home, images := s.images }
  .next { r with mg := { r.mg with stage := 1, img := r.mg.flash } }

def execPowerLoss (s : State) : Res :=
  .next { s.cleared with timebase := 0, tickAcc := 0, ports := s.cleared.ports.map fun p => { p with up := true } }

/-! ### Measurement and attestation (R430, R431) -/

def execPmrExtend (p : Nat) (i : W64) (s : State) : Res :=
  if i.toNat < 2 || 8 ≤ i.toNat then .next s
  else .next (s.modPart p fun d => { d with pmr := d.pmr.modify i.toNat fun x => pmrExt x d.pmdata })

/-- The firmware runs: from step 4 of bring-up on (R425). -/
def State.firmware (s : State) : Bool := s.mg.stage = 4 || s.mg.stage = 5

/-- The path is served: the sideband, or the active port while the firmware runs. -/
def State.served (s : State) : MgmtPath → Bool
  | .sideband => true
  | .port h => s.active = some h && s.portUp h && s.firmware

/-- A partition's responder answers. -/
def State.spdm (s : State) (via : MgmtPath) (p : Nat) (bs : List Byte) : Res :=
  if s.served via && p < 16 then .next { s with out := s.out ++ [.reply via bs] } else .next s

/-- Measurement block i + 1 is PMRi. -/
def Part.block (d : Part) (i : Nat) : List Byte := BitVec.ofNat 8 (i + 1) :: leBytes 48 (d.pmr.getD i 0).toNat

def Part.blocks (d : Part) : List Byte := (List.range 8).flatMap d.block

/-- The key of a partition's responder, by what it is derived from: the device identity and p. -/
def spdmKey (p : Nat) : List Byte := Config.deviceIdentity ++ leBytes 1 p

/-- The certificate chain of a partition's key. -/
def spdmChain (p : Nat) : List Byte := Config.spdmBytes p (spdmKey p)

/-- An answer with its signature, over the requester's nonce and the answer (log 40). -/
def spdmSigned (p : Nat) (nonce bs : List Byte) : List Byte :=
  bs ++ leBytes 384 (Config.rsaSign (spdmKey p) (nonce ++ bs)).toNat

/-- A nonce of 32 bytes for each number. -/
def spdmNonce (n : Nat) : List Byte := (List.range 4).flatMap fun i => leBytes 8 (Config.freeValue (n + i)).toNat

/-- The answer to a request that is not supported, or names what there is not. -/
def spdmError : List Byte := [0x13, 0x7F, 0x01, 0]

/-- The answers of SPDM 1.3 (DSP0274; log 40): the version is 1.3; the algorithms are TPM_ALG_SHA_384 for hashes and
measurements and RSASSA-3072 for signatures. -/
def spdmVersion : List Byte := [0x10, 0x04, 0, 0, 0, 1, 0x00, 0x13]

def spdmCapabilities (p : Nat) : List Byte := [0x13, 0x61, 0, 0] ++ Config.spdmBytes (0x100 + p) []

def spdmAlgorithms : List Byte :=
  [0x13, 0x63, 0, 0] ++ leBytes 2 36 ++ [1, 0] ++ leBytes 4 4 ++ leBytes 4 4 ++ leBytes 4 2 ++ List.replicate 16 0

def spdmDigests (p : Nat) : List Byte := [0x13, 0x01, 0, 1] ++ sha384 (spdmChain p)

def spdmCertificate (p : Nat) : List Byte :=
  [0x13, 0x02, 0, 0] ++ leBytes 2 (spdmChain p).length ++ leBytes 2 0 ++ spdmChain p

def State.spdmAuth (s : State) (p : Nat) (nonce : List Byte) : List Byte :=
  spdmSigned p nonce
    ([0x13, 0x03, 0, 1] ++ sha384 (spdmChain p) ++ spdmNonce s.fresh ++ sha384 (s.part p).blocks ++ leBytes 2 0)

/-- Index 0 asks for the number of blocks, 1 to 8 for one, 0xFF for all. -/
def State.spdmMeasure (s : State) (p : Nat) (sign : Bool) (idx : Byte) (nonce : List Byte) : List Byte :=
  let d := s.part p
  let n := idx.toNat
  let rec_ : Option (List Byte) :=
    if n = 0 then some [] else if n ≤ 8 then some (d.block (n - 1)) else if n = 0xFF then some d.blocks else none
  match rec_ with
  | none => spdmError
  | some bs =>
    let count := if n = 0 then 0 else if n ≤ 8 then 1 else 8
    let head : List Byte := [0x13, 0x60, if n = 0 then 8 else 0, 0] ++ [BitVec.ofNat 8 count] ++ leBytes 3 bs.length ++ bs
    let all := head ++ spdmNonce s.fresh ++ leBytes 2 0
    if sign then spdmSigned p nonce all else all

/-- A nonce has been used. -/
def State.nonced (s : State) : State := { s with fresh := s.fresh + 4 }

def execGetVersion (via : MgmtPath) (p : Nat) (s : State) : Res := s.spdm via p spdmVersion
def execGetCapabilities (via : MgmtPath) (p : Nat) (s : State) : Res := s.spdm via p (spdmCapabilities p)
def execNegotiateAlgorithms (via : MgmtPath) (p : Nat) (s : State) : Res := s.spdm via p spdmAlgorithms
def execGetDigests (via : MgmtPath) (p : Nat) (s : State) : Res := s.spdm via p (spdmDigests p)
def execGetCertificate (via : MgmtPath) (p : Nat) (s : State) : Res := s.spdm via p (spdmCertificate p)

def execChallenge (via : MgmtPath) (p : Nat) (nonce : List Byte) (s : State) : Res :=
  s.nonced.spdm via p (s.spdmAuth p nonce)

def execGetMeasurements (via : MgmtPath) (m : MeasReq) (s : State) : Res :=
  s.nonced.spdm via m.p (s.spdmMeasure m.p m.sign m.idx m.nonce)

/-- A request in the mailbox of the active port, at an offset of its range. A raise of the fused minimum version only
raises it, from the next reset. -/
def execMailboxRequest (port : Nat) (m : MailAt) (s : State) : Res :=
  if !s.served (.port port) || 0x1000 ≤ m.off then .next s
  else match m.req with
    | .spdm p code =>
      if code = 0x84 then execGetVersion (.port port) p s
      else if code = 0xE1 then execGetCapabilities (.port port) p s
      else if code = 0xE3 then execNegotiateAlgorithms (.port port) p s
      else if code = 0x81 then execGetDigests (.port port) p s
      else if code = 0x82 then execGetCertificate (.port port) p s
      else if code = 0x83 then execChallenge (.port port) p [] s
      else if code = 0xE0 then execGetMeasurements (.port port) ⟨p, true, 0xFF, []⟩ s
      else s.spdm (.port port) p spdmError
    | .raiseSvn svn => .next { s with mg := { s.mg with raise := if s.mg.raise < svn then svn else s.mg.raise } }
    | .other data => .next { s with out := s.out ++ [.reply (.port port) (Config.spdmBytes 0x10000 (leBytes 8 data.toNat))] }

/-! ### The sideband (R434) -/

def State.bootsts (s : State) : W64 :=
  BitVec.ofNat 64 (s.mg.svn.toNat * 2 ^ 32 + s.mg.err.toNat * 2 ^ 16 + s.mg.stage.toNat)

/-- CLK of a cluster; 0 for one that is absent or fenced (R433). -/
def State.clkOf (s : State) (c : Nat) : Nat := if s.cluUp c then (s.cluster c).clk else 0

def State.sensor (s : State) : Sensor → W64
  | .diePower => BitVec.ofNat 64 s.mg.power
  | .clusterClk c => BitVec.ofNat 64 (s.clkOf c)
  | .clusterTemp c => BitVec.ofNat 64 (s.cluster c).temp
  | .partPower p => BitVec.ofNat 64 (sumBy (fun c => (s.cluster c).draw) (s.part p).clusters)
  | .bootsts => s.bootsts
  | .timebase => s.timebase

def execPldmSensorRead (x : Sensor) (s : State) : Res := .next { s with out := s.out ++ [.sideband (s.sensor x)] }

/-- A staged image stands in the flash, and is verified at the next reset. -/
def execPldmFwUpdate (image : List Byte) (s : State) : Res := .next { s with mg := { s.mg with flash := image } }

/-! ### Clocks and caps (R14, R117, R432, R433) -/

/-- The budget of a cluster: its partition's cap, as it was at the interval's start, shared equally; none without
a cap. -/
def State.budget (s : State) (c : Nat) : Option Nat :=
  ((List.range 16).find? fun p => (s.part p).clu c).bind fun p =>
    let d := s.part p
    if d.capNow = 0 then none else some (d.capNow.toNat / d.clusters.length)

/-- A cluster is in use: a partition owns it. -/
def State.inUse (s : State) (c : Nat) : Bool := (List.range 16).any fun p => (s.part p).clu c

/-- The clock that a cluster needs for the interval, in steps of 100 MHz: what the manager chooses, lower than it was where the
draw exceeds the budget; or, in a cluster in use while the device limit binds, the clock in force less the steps that it takes
from every one of them, whatever the caps. -/
def State.clkNeed (s : State) (c draw temp steps : Nat) : Nat :=
  let old := (s.cluster c).clk
  let want := Config.clockStep c draw temp ((s.budget c).getD 0)
  if s.inUse c && steps ≠ 0 then old - steps
  else match s.budget c with
    | some b => if b < draw then min want (old - 1) else want
    | none => want

/-- The clock of a cluster for the interval: its need, between 1.0 and 2.6 GHz. -/
def State.newClk (s : State) (c draw temp steps : Nat) : Nat := max 10 (min 26 (s.clkNeed c draw temp steps))

/-- Gated cycles of the interval: where the cluster needs less than 1.0 GHz. -/
def State.newGate (s : State) (c draw temp steps : Nat) : Nat :=
  if s.clkNeed c draw temp steps < 10 then min (max 1 (Config.gateCycles c draw ((s.budget c).getD 0))) 1000 else 0

/-- The 1 µs interval of the timebase. -/
def State.interval (s : State) : Nat := s.timebase.toNat / 1000

/-- What power and temperature were measured to be. -/
def State.measure (s : State) (diePower : Nat) (draws temps : List Nat) : State :=
  { s with
    clusters := s.clusters.map fun c => { c with draw := draws.getD c.idx 0, temp := temps.getD c.idx 0 }
    mg := { s.mg with power := diePower } }

/-- The clocks of an interval, from what was measured in the one before: 600 W sustained, and 680 W for 10 ms. -/
def State.setClocks (s : State) : State :=
  let hot := if 600 < s.mg.power then s.mg.hot + 1 else 0
  let steps := if 680 < s.mg.power || 10000 < hot then 1 + Config.limitSteps s.mg.power else 0
  let next (c : Cluster) : Cluster :=
    { c with clk := s.newClk c.idx c.draw c.temp steps, gated := s.newGate c.idx c.draw c.temp steps }
  { s with clusters := s.clusters.map next, mg := { s.mg with hot := hot, clkAt := s.interval } }

/-- A measurement of power and temperature. The first event of a 1 µs interval sets the clocks, by the last measurement
that has come; a later one of the interval is for the next. -/
def execClockInterval (diePower : Nat) (draws temps : List Nat) (s : State) : Res :=
  let s := s.measure diePower draws temps
  .next (if s.interval = s.mg.clkAt then s else s.setClocks)

/-- An interval has begun, and no measurement has come in its cycle: its clocks are set by what was measured last (R432). -/
def State.intervalStart (s : State) : State := if s.interval = s.mg.clkAt then s else s.setClocks

/-! ### MSI-X (R379) -/

/-- A write of a vector's mask bit. Where the mask goes, a pending vector sends its one message. -/
def execMsixVectorUnmask (port : Nat) (vec : MsixEntry) (s : State) : Res :=
  .next (if vec.mask then s.modPort port fun p => { p with mask := insNat vec.vec p.mask }
    else (s.modPort port fun p => { p with mask := p.mask.filter fun v => v ≠ vec.vec }).flush port)

end Sys2Proof.Machine
end

