-- ==== Sys2Proof/Machine/Regs.lean ====
section
/-!
DEFINITION. The registers of BAR0: what each reads as and what a write does (R17, R144, R188, R224, R232,
R301, R344–R346, R350, R351, R378, R380, R386, R388, R393, R395, R396, R406, R410, R415, R418, R426, R427,
R429, R430, R433).
-/

namespace Sys2Proof.Machine

/-- Concatenates fields, each with the place of its lowest bit. -/
def regOf (fs : List (Nat × Nat)) : W64 := BitVec.ofNat 64 (sumBy (fun f => f.1 * 2 ^ f.2) fs)

/-! ### Reads -/

def State.capid (s : State) : W64 :=
  match s.grade with
  | .a1024 => 0x0000_0140_402A_0100 ||| Config.stepping.zeroExtend 64
  | .a768 => 0x0000_0230_302A_0100 ||| Config.stepping.zeroExtend 64
  | .e => 0x0000_0330_3010_0100 ||| Config.stepping.zeroExtend 64

def State.clmask (s : State) : W64 := maskOf ((List.range 64).filter s.cluUp)

def State.qocc (s : State) (core q : Nat) : W64 :=
  if s.cluUp (core / 4) then
    let u := s.use core q
    regOf [(12 - u.slots, 52), (2048 - u.sregs, 36), (4096 - u.preds, 16), (2048 - u.vrf, 0)]
  else 0

def State.scocc (s : State) (core : Nat) : W64 :=
  if s.cluUp (core / 4) then
    regOf [((s.groups.filter fun g => g.core = core && 0 < g.kern.scr).length, 16), (160 - s.scrUse core, 0)]
  else 0

def State.cpocc (s : State) (core : Nat) : W64 :=
  if s.cluUp (core / 4) then
    let ch := (s.core core).chan
    let busy := (ch.slots.filter fun x => match x.cmd with | some c => c.stat = .outstanding | none => false).length
    regOf [(ch.fifo.length, 12), (busy, 6), (32 - busy, 0)]
  else 0

/-- A register of a partition's translation block. -/
def State.transReg (s : State) (p off : Nat) : W64 :=
  let d := s.part p
  match off with
  | 0x00 => d.tvec
  | 0x08 => d.fqbase
  | 0x10 => regOf [(d.fqtail.toNat, 32), (d.fqhead.toNat, 0)]
  | 0x20 => setBits d.tlbinv 61 61 d.tlbbusy.toNat
  | 0x28 => d.tlbinva
  | 0x30 => regOf [(min ((s.fbwait.filter fun w => w.part = p).map (·.req)).dedup.length 0x1FFF, 32), (d.fbq, 16),
                   ((s.fb.filter fun e => e.part = p).length, 0)]
  | _ => 0

/-- A register of a partition's control block. -/
def State.ctlReg (s : State) (p off : Nat) : W64 :=
  let d := s.part p
  if off < 0x100 then
    match off with
    | 0x00 => d.staged.clu
    | 0x08 => d.staged.root
    | 0x10 => d.staged.band
    | 0x18 => d.staged.mem
    | 0x20 => d.staged.trc
    | 0x88 => regOf [(d.rsn.toNat, 56), (d.rej.toNat, 55), ((d.run ≠ .idle : Bool).toNat, 54), (d.imgc.toNat, 53),
                     (d.imgw.toNat, 52), (d.held.isSome.toNat, 51), (d.imgpg.toNat, 0)]
    | 0x90 => d.tboff
    | 0x98 => d.thalt
    | 0xA0 => d.timgc
    | 0xA8 => regOf [(d.canc.toNat, 0)]
    | _ => 0
  else
    let l := s.lq p ((off - 0x100) / 0x20)
    match (off - 0x100) % 0x20 with
    | 0x00 => l.base
    | 0x08 => regOf [(l.tail.toNat, 32), (l.head.toNat, 0)]
    | 0x10 => regOf [(l.ev.toNat, 63), (l.code.toNat, 48), (l.epos.toNat, 0)]
    | _ => 0

def State.leaseReg (s : State) (h : Nat) : W64 :=
  let p := s.port h
  regOf [(p.nonce.toNat, 32), (p.period.toNat, 16), (p.bad.toNat, 8), (p.armed.toNat, 5), ((s.active = some h : Bool).toNat, 4)]

def State.hpstatReg (s : State) : W64 :=
  regOf [((s.port 1).down.toNat, 11), ((s.portUp 1).toNat, 10), ((s.port 0).down.toNat, 9), ((s.portUp 0).toNat, 8),
         ((s.hpstat.getLsbD 3).toNat, 3), ((s.hpstat.getLsbD 2).toNat, 2), (s.active.getD 0, 0)]

def State.bflipReg (s : State) : W64 :=
  regOf [(s.flip.isSome.toNat, 63), (s.biasRes.toNat, 62), (s.bfpage.toNat, 12)]

/-- A register of a partition's debug block. -/
def State.dbgReg (s : State) (p off : Nat) : W64 :=
  let d := s.part p
  match off with
  | 0x00 => d.dbgctl
  | 0x08 => d.dsbase
  | 0x10 => regOf [(d.dstail.toNat, 32), (d.dshead.toNat, 0)]
  | 0x20 => d.drgrp
  | _ =>
    if off < 0x40 then 0
    else
      let w := d.wps.getD ((off - 0x40) / 0x18) ⟨0, 0, 0⟩
      match (off - 0x40) % 0x18 with
      | 0x00 => w.ctl
      | 0x08 => w.addr
      | 0x10 => regOf [(w.len.toNat, 0)]
      | _ => 0

def State.errReg (s : State) (off : Nat) : W64 :=
  match off with
  | 0x00 => s.err.base
  | 0x08 => regOf [(s.err.tail.toNat, 32), (s.err.head.toNat, 0)]
  | 0x10 => regOf [(s.err.ctl.toNat, 0)]
  | 0x18 => regOf [(s.err.lost.toNat, 48), (s.err.ue.toNat, 24), (s.err.ce.toNat, 0)]
  | _ => 0

/-- A register of a partition's measurement block. -/
def State.pmrReg (s : State) (p off : Nat) : W64 :=
  let d := s.part p
  if off < 0x200 then
    if off % 0x40 < 48 then BitVec.ofNat 64 ((d.pmr.getD (off / 0x40) 0).toNat / 2 ^ (8 * (off % 0x40))) else 0
  else if off < 0x230 then BitVec.ofNat 64 (d.pmdata.toNat / 2 ^ (8 * (off - 0x200)))
  else 0

/-- A 64-bit read of BAR0 at an offset, through a port. -/
def State.readReg (s : State) (port off : Nat) : W64 :=
  if off % 8 ≠ 0 then 0
  else if off = 0 then s.capid
  else if off = 8 then s.clmask
  else if 0x10000 ≤ off && off < 0x12000 then s.qocc ((off - 0x10000) / 32) ((off - 0x10000) / 8 % 4)
  else if 0x20000 ≤ off && off < 0x20800 then s.scocc ((off - 0x20000) / 8)
  else if 0x30000 ≤ off && off < 0x31000 then s.transReg ((off - 0x30000) / 0x100) (off % 0x100)
  else if off = 0x40000 then
    let n := waysFor (sumBy (fun p => (s.part p).force.csm.2) (List.range 16))
    regOf [(s.slccfg.toNat, 32), (n, 24), ((2 ^ n - 1) * 2 ^ (24 - n), 0)]
  else if 0x50000 ≤ off && off < 0x50800 then s.cpocc ((off - 0x50000) / 8)
  else if 0x60000 ≤ off && off < 0x62000 then s.ctlReg ((off - 0x60000) / 0x200) (off % 0x200)
  else if off = 0x70000 then (if port = 0 then s.leaseReg 0 else 0)
  else if off = 0x70008 then (if port = 1 && 1 < s.nhost then s.leaseReg 1 else 0)
  else if off = 0x70010 then s.hpstatReg
  else if off = 0x70018 then s.bflipReg
  else if off = 0x70020 then s.lfsave
  else if 0x70040 ≤ off && off < 0x70060 then
    if s.ncxl = 0 then 0
    else
      let w := s.cxwin.getD ((off - 0x70040) / 16) ⟨0, 0⟩
      if off % 16 = 0 then w.win else w.sz
  else if 0x80000 ≤ off && off < 0x81000 then s.dbgReg ((off - 0x80000) / 0x100) (off % 0x100)
  else if 0x90000 ≤ off && off < 0x90020 then s.errReg (off - 0x90000)
  else if 0xA0000 ≤ off && off < 0xA0800 then
    let t := (s.core ((off - 0xA0000) / 8)).trace
    regOf [(t.rd.toNat, 32), (t.wr.toNat, 0)]
  else if off = 0xB0000 then s.bootsts
  else if off = 0xB0010 then s.timebase
  else if 0xB4000 ≤ off && off < 0xB8000 then s.pmrReg ((off - 0xB4000) / 0x400) (off % 0x400)
  else if 0xC0000 ≤ off && off < 0xC0080 then regOf [((s.part ((off - 0xC0000) / 8)).pwcap.toNat, 0)]
  else if 0xC0100 ≤ off && off < 0xC0300 then BitVec.ofNat 64 (s.clkOf ((off - 0xC0100) / 8))
  else if s.mg.stage = 15 && 0x1000000 ≤ off && off < 0x2000000 then s.rd64 (off - 0x1000000)
  else 0

/-! ### Writes -/

def State.transWrite (s : State) (p off : Nat) (v : W64) : Res :=
  match off with
  | 0x00 => .next (s.modPart p fun d => { d with tvec := v })
  | 0x08 =>
    let s := s.modPart p fun d => { d with fqbase := v &&& 0x0000FFFFFFFE0001 }
    .next (s.fqDrain p (s.part p).fqheld.length)
  | 0x10 => execFaultQueueHeadAdvance p v s
  | 0x18 =>
    if bits v 31 30 = 0 then execFrespRetry p (bits v 11 0) s
    else if bits v 31 30 = 1 then execFrespFail p (bits v 11 0) s
    else .next s
  | 0x20 =>
    if bits v 63 62 = 1 then .next (s.tlbStart p none (v &&& 0xC0000000FFFFFFFF))
    else if bits v 63 62 = 2 then
      .next (s.tlbStart p (some (bits (s.part p).tlbinva 50 15, bits v 31 0)) (v &&& 0xC0000000FFFFFFFF))
    else if (s.part p).tlbbusy then .next s
    else .next (s.modPart p fun d => { d with tlbinv := v &&& 0xC0000000FFFFFFFF })
  | 0x28 =>
    if (s.part p).tlbbusy then .next s
    else .next (s.modPart p fun d => { d with tlbinva := v &&& 0x0007FFFFFFFF8000 })
  | _ => .next s

def State.ctlWrite (s : State) (p off : Nat) (v : W64) : Res :=
  let put (f : PDesc → PDesc) : Res := .next (s.modPart p fun d => { d with staged := f d.staged })
  if off < 0x100 then
    match off with
    | 0x00 => put fun d => { d with clu := v }
    | 0x08 => put fun d => { d with root := v }
    | 0x10 => put fun d => { d with band := v }
    | 0x18 => put fun d => { d with mem := v }
    | 0x20 => put fun d => { d with trc := v }
    | 0x80 =>
      (match bits v 63 61 with
       | 1 => execCommit p s
       | 2 => execSave p v s
       | 3 => execRestore p v s
       | 4 => execMigsave p v s
       | 5 => execKill p s
       | _ => .next (if (s.part p).run ≠ .idle then s.rejectCmd p 10 else s))
    | 0x88 => .next (s.modPart p fun d => { d with rej := d.rej && !v.getLsbD 55 })
    | 0x90 => .next (s.modPart p fun d => { d with tboff := v })
    | _ => .next s
  else
    let q := (off - 0x100) / 0x20
    match (off - 0x100) % 0x20 with
    | 0x00 => .next (s.modLq p q fun l => if l.head ≠ l.tail then l else { l with base := v &&& 0x0000FFFFFFFFF00F })
    | 0x10 => .next (s.modLq p q fun l => { l with ev := l.ev && !v.getLsbD 63 })
    | _ => .next s

/-- A lease register, through its own port (R388, R389). -/
def State.leaseCmd (s : State) (port : Nat) (v : W64) : Res :=
  let nonce := hi32 v
  match bits v 3 0 with
  | 1 => execLeaseRenew port nonce (v.extractLsb' 16 16) s
  | 2 => execLeaseArm port nonce s
  | 3 => execLeaseDisarm port nonce s
  | 4 => execLeaseYield port nonce s
  | _ => .next (s.leaseWrite port nonce false id)

def State.bflipCmd (s : State) (v : W64) : Res :=
  let page : BitVec 28 := v.extractLsb' 12 28
  match bits v 61 60 with
  | 1 => execBflipToDevice page s
  | 2 => execBflipToHost page s
  | 3 => execBflipQuery page s
  | _ => .next (if s.flip.isSome then s else { s with bfpage := page })

/-- DBGCTL: trace that is switched on starts with a SYNC (R422). -/
def State.dbgctlWrite (s : State) (p : Nat) (v : W64) : State :=
  let off := (s.part p).tmode = 0
  let s := s.modPart p fun d => { d with dbgctl := v &&& 0xFFFFFFFF00000303 }
  if off then s.syncNext p else s

def State.dbgWrite (s : State) (p off : Nat) (v : W64) : Res :=
  match off with
  | 0x00 => .next (s.dbgctlWrite p v)
  | 0x08 => .next (s.modPart p fun d => { d with dsbase := v &&& 0x0000FFFFFFFFF001 })
  | 0x10 => execStopRingHeadAdvance p v s
  | 0x18 =>
    let lid := lo32 v
    let wave : BitVec 4 := v.extractLsb' 32 4
    (match bits v 63 62 with
     | 1 => execDresumeResume p lid wave s
     | 2 => execDresumeStep p lid wave s
     | 3 => execDresumeKill p lid wave s
     | _ => .next s)
  | 0x20 => .next (s.modPart p fun d => { d with drgrp := v })
  | _ =>
    if off < 0x40 then .next s
    else
      let k := (off - 0x40) / 0x18
      let put (f : Watch → Watch) : Res := .next (s.modPart p fun d => { d with wps := d.wps.modify k f })
      match (off - 0x40) % 0x18 with
      | 0x00 => put fun w => { w with ctl := v &&& 0xFFFFFFFF000000FC }
      | 0x08 => put fun w => { w with addr := v }
      | 0x10 => put fun w => { w with len := lo32 v }
      | _ => .next s

def State.errWrite (s : State) (off : Nat) (v : W64) : Res :=
  match off with
  | 0x00 => .next { s with err := { s.err with base := v &&& 0x0000FFFFFFFFF01F } }
  | 0x08 => .next { s with err := { s.err with head := v.truncate 16 } }
  | 0x10 => .next { s with err := { s.err with ctl := v.truncate 2 } }
  | _ => .next s

def State.pmrWrite (s : State) (p off : Nat) (v : W64) : Res :=
  if 0x200 ≤ off && off < 0x230 then
    .next (s.modPart p fun d => { d with pmdata := setBits d.pmdata (8 * (off - 0x200) + 63) (8 * (off - 0x200)) v.toNat })
  else if off = 0x230 then execPmrExtend p v s
  else .next s

/-- HPSTAT's W1C bits. -/
def State.hpstatWrite (s : State) (v : W64) : State :=
  let clr (n h : Nat) (s : State) : State := s.modPort h fun p => { p with down := p.down && !v.getLsbD n }
  clr 9 0 (clr 11 1 { s with hpstat := s.hpstat &&& ~~~((v.truncate 8 : Byte) &&& 0x0C) })

/-- A 64-bit write of BAR0 at an aligned offset. -/
def State.writeReg (s : State) (port off : Nat) (v : W64) : Res :=
  if 0x30000 ≤ off && off < 0x31000 then s.transWrite ((off - 0x30000) / 0x100) (off % 0x100) v
  else if off = 0x40000 then .next { s with slccfg := v.extractLsb' 32 24 }
  else if 0x60000 ≤ off && off < 0x62000 then s.ctlWrite ((off - 0x60000) / 0x200) (off % 0x200) v
  else if off = 0x70000 then (if port = 0 then s.leaseCmd 0 v else .next s)
  else if off = 0x70008 then (if port = 1 then s.leaseCmd 1 v else .next s)
  else if off = 0x70010 then .next (s.hpstatWrite v)
  else if off = 0x70018 then s.bflipCmd v
  else if off = 0x70020 then .next { s with lfsave := setBits (v &&& 0x0000FFFFFFF0FFFF) 63 48 (bits s.lfsave 63 48) }
  else if 0x70040 ≤ off && off < 0x70060 then execCxwinWrite ((off - 0x70040) / 16) (off % 16 ≠ 0) v s
  else if 0x80000 ≤ off && off < 0x81000 then s.dbgWrite ((off - 0x80000) / 0x100) (off % 0x100) v
  else if 0x90000 ≤ off && off < 0x90020 then s.errWrite (off - 0x90000) v
  else if 0xA0000 ≤ off && off < 0xA0800 then
    let c := (off - 0xA0000) / 8
    .next ((s.modCore c fun x => { x with trace := { x.trace with rd := hi32 v } }).trLoss c)
  else if off = 0xB0008 then execRecoveryImageCheck v s
  else if 0xB2000 ≤ off && off < 0xB3000 then
    (match Config.mailReq (off - 0xB2000) v with
     | some r => execMailboxRequest port ⟨off - 0xB2000, r⟩ s
     | none => .next s)
  else if 0xB4000 ≤ off && off < 0xB8000 then s.pmrWrite ((off - 0xB4000) / 0x400) (off % 0x400) v
  else if 0xC0000 ≤ off && off < 0xC0080 then
    .next (s.modPart ((off - 0xC0000) / 8) fun d => { d with pwcap := v.truncate 16 })
  else .next s

/-- A read of BAR0 at an offset through a host port: a register, or the half of it that a 4-byte read names; no other
access is taken (R378, R380). -/
def State.bar0Read (s : State) (port off size : Nat) : State :=
  if !s.portUp port then s
  else if !((size = 4 || size = 8) && off % size = 0) then { s with out := s.out ++ [.unsupported port] }
  else
    -- the mailbox answers the active port with what its firmware has put there, which is open (R434, log 40)
    let mail : Bool := 0xB2000 ≤ off && off < 0xB3000 && s.served (.port port)
    let x := if mail then Config.freeValue s.fresh else s.readReg port (off / 8 * 8)
    let s := if mail then { s with fresh := s.fresh + 1 } else s
    let v := leBytes 8 x.toNat
    { s with out := s.out ++ [.data port ((v.drop (off % 8)).take size)] }

/-- A host's read: of a register of BAR0, or of memory. -/
def execHostMemRead (host pa size : Nat) (keep : Bool) (s : State) : Res :=
  .next (if bar0 ≤ pa && pa < bar0 + 2 ^ 43 then s.bar0Read host (pa - bar0) size else s.hostRead host pa size keep)

/-- A write through a host port: of a doorbell page; in recovery, of the window over LPDDR-6; of a register,
which takes 64-bit writes alone; anything else of BAR0 has no effect. -/
def execRegisterWrite (port addr size : Nat) (value : W64) (s : State) : Res :=
  let off := addr - bar0
  if !s.portUp port then .next s
  else if addr < bar0 || bar0 + 2 ^ 43 ≤ addr || !((size = 4 || size = 8) && addr % size = 0) then
    .next { s with out := s.out ++ [.unsupported port] }
  else if s.mg.stage = 15 && 0x1000000 ≤ off && off < 0x2000000 then .next (s.wrNat (off - 0x1000000) size value.toNat)
  else if 0x10000000 ≤ off && off < 0x10100000 then
    let n := (off - 0x10000000) / 0x1000
    if off % 0x1000 = 0 then execDoorbellWrite port (n % 2) (n / 16) (n / 2 % 8) size value s else .next s
  else if size = 8 then s.writeReg port off value
  else .next s

end Sys2Proof.Machine
end

