-- ==== Sys2Proof/Machine/Xvi.lean ====
section
/-!
DEFINITION. The paths of an XVI (R133–R136): each issues one permitted word under its mask.
-/

namespace Sys2Proof.Machine

/-- The meaning of a permitted word: opcodes 0x30–0x4A, 0x50–0x5A, 0x60–0x67, 0x70–0x74 and 0x90–0x93
(R132). Nothing else reaches a path. -/
def xviExec (i : Instr) (s : State) : Res :=
  match i with
  | .vadd h o => execVadd h o s
  | .vsub h o => execVsub h o s
  | .vmul h o => execVmul h o s
  | .vmulh h o => execVmulh h o s
  | .vmad h o => execVmad h o s
  | .vand h o => execVand h o s
  | .vor h o => execVor h o s
  | .vxor h o => execVxor h o s
  | .vshl h o => execVshl h o s
  | .vshr h o => execVshr h o s
  | .vsra h o => execVsra h o s
  | .vmin h o => execVmin h o s
  | .vmax h o => execVmax h o s
  | .vabsd h o => execVabsd h o s
  | .vadds h o => execVadds h o s
  | .vclz h o => execVclz h o s
  | .vpopc h o => execVpopc h o s
  | .vbfe h o => execVbfe h o s
  | .vbfi h o => execVbfi h o s
  | .vsel h o => execVsel h o s
  | .vmov h o => execVmov h o s
  | .vmovi h o => execVmovi h o s
  | .vcmp h o => execVcmp h o s
  | .vbint h o => execVbint h o s
  | .vbdei h o => execVbdei h o s
  | .plog h o => execPlog h o s
  | .pmov h o => execPmov h o s
  | .fadd h o => execFadd h o s
  | .fsub h o => execFsub h o s
  | .fmul h o => execFmul h o s
  | .ffma h o => execFfma h o s
  | .fmin h o => execFmin h o s
  | .fmax h o => execFmax h o s
  | .fcmp h o => execFcmp h o s
  | .frnd h o => execFrnd h o s
  | .hadd2 h o => execHadd2 h o s
  | .hmul2 h o => execHmul2 h o s
  | .hfma2 h o => execHfma2 h o s
  | .frcp h o => execFrcp h o s
  | .frsq h o => execFrsq h o s
  | .fsqrt h o => execFsqrt h o s
  | .fex2 h o => execFex2 h o s
  | .flg2 h o => execFlg2 h o s
  | .fsin h o => execFsin h o s
  | .fcos h o => execFcos h o s
  | .ftanh h o => execFtanh h o s
  | .cvt h o => execCvt h o s
  | .qnt h o => execQnt h o s
  | .pack6 h o => execPack6 h o s
  | .unpack6 h o => execUnpack6 h o s
  | .mxsc h o => execMxsc h o s
  | .lds h o => execLds h o s
  | .sts h o => execSts h o s
  | .atoms h o => execAtoms h o s
  | .reds h o => execReds h o s
  | _ => .next s

/-- The wave after a path has issued: the next path is to come, or the XVI ends (R136). Until the next one issues,
pathidx names the path that has (log 13). -/
def Wave.pathDone (w : Wave) (lfarm : Bool) : Wave :=
  match w.xvi with
  | none => w
  | some x =>
    let n := x.next + 1
    if n < x.paths.length then { w with xvi := some { x with next := n } }
    else { w.xviEnd x.bad lfarm with pc := x.retPc }

/-- The next path of the XVI at the issue slot: its word issues with the path's mask as exec, and counts on
the XVI's flag. pathidx names it (R38). A path that traps has no effect, and one that is held stays the next one. -/
def execXviPath (s : State) : Res :=
  match s.wave? s.cur with
  | none => .next s
  | some w =>
    if w.life = .exited || !w.inPath || (w.xvi.map fun x => decide (s.cyc w.id.core < x.start)).getD true then .next s
    else match s.head w with
    | .instr i =>
      match xviExec i (s.modWave w.id fun w => { w.atPath with prev := none }) with
      | .next t =>
        (match t.wave? w.id with
         | none => .next t
         | some w' =>
           if w'.handler ≠ w.handler || w'.life ≠ w.life then .next t
           else match w'.prev with
            | none => .next (t.modWave w.id fun x => { x with prev := w.prev })
            | some _ =>
              let done := w'.pathDone (t.part w.grp.part).lfarm
              let t := t.trace w.atPath [.mask w.execNow]
              let t := t.modWave w.id fun _ => done
              .next (if done.xvi.isNone then t.trace w.atPath [.mask done.exec] else t))
      | r => r
    | _ => .next s

end Sys2Proof.Machine
end

