-- ==== Sys2Proof/Machine/Dispatch.lean ====
section
/-! DEFINITION. The one dispatch: each instruction and event to its meaning. -/

namespace Sys2Proof.Machine

def exec (i : Instr) (s : State) : Host.Outcome State Fault Refusal :=
  match i with
  | .nop h u => Sys2Proof.Machine.execNop h u s
  | .bra h imm => Sys2Proof.Machine.execBra h imm s
  | .bz h a imm => Sys2Proof.Machine.execBz h a imm s
  | .bnz h a imm => Sys2Proof.Machine.execBnz h a imm s
  | .call h d imm => Sys2Proof.Machine.execCall h d imm s
  | .ret h a => Sys2Proof.Machine.execRet h a s
  | .jmpi h lnk a => Sys2Proof.Machine.execJmpi h lnk a s
  | .exit h => Sys2Proof.Machine.execExit h s
  | .exitSucc h idx kovr k => Sys2Proof.Machine.execExitSucc h idx kovr k s
  | .waitc h f n => Sys2Proof.Machine.execWaitc h f n s
  | .yield h n => Sys2Proof.Machine.execYield h n s
  | .sleep h imm => Sys2Proof.Machine.execSleep h imm s
  | .xvi h d a => Sys2Proof.Machine.execXvi h d a s
  | .xviPath => Sys2Proof.Machine.execXviPath s
  | .exset h op a => Sys2Proof.Machine.execExset h op a s
  | .exget h d => Sys2Proof.Machine.execExget h d s
  | .pmask h d p => Sys2Proof.Machine.execPmask h d p s
  | .gettime h d => Sys2Proof.Machine.execGettime h d s
  | .csrr h d csr => Sys2Proof.Machine.execCsrr h d csr s
  | .csrw h csr a => Sys2Proof.Machine.execCsrw h csr a s
  | .sldkArg h wide d imm => Sys2Proof.Machine.execSldkArg h wide d imm s
  | .sldkConst h wide d imm => Sys2Proof.Machine.execSldkConst h wide d imm s
  | .sldkComplete acc => Sys2Proof.Machine.execSldkComplete acc s
  | .vadd h o => Sys2Proof.Machine.execVadd h o s
  | .vsub h o => Sys2Proof.Machine.execVsub h o s
  | .vmul h o => Sys2Proof.Machine.execVmul h o s
  | .vmulh h o => Sys2Proof.Machine.execVmulh h o s
  | .vmad h o => Sys2Proof.Machine.execVmad h o s
  | .vand h o => Sys2Proof.Machine.execVand h o s
  | .vor h o => Sys2Proof.Machine.execVor h o s
  | .vxor h o => Sys2Proof.Machine.execVxor h o s
  | .vshl h o => Sys2Proof.Machine.execVshl h o s
  | .vshr h o => Sys2Proof.Machine.execVshr h o s
  | .vsra h o => Sys2Proof.Machine.execVsra h o s
  | .vmin h o => Sys2Proof.Machine.execVmin h o s
  | .vmax h o => Sys2Proof.Machine.execVmax h o s
  | .vabsd h o => Sys2Proof.Machine.execVabsd h o s
  | .vadds h o => Sys2Proof.Machine.execVadds h o s
  | .vclz h o => Sys2Proof.Machine.execVclz h o s
  | .vpopc h o => Sys2Proof.Machine.execVpopc h o s
  | .vbfe h o => Sys2Proof.Machine.execVbfe h o s
  | .vbfi h o => Sys2Proof.Machine.execVbfi h o s
  | .vsel h o => Sys2Proof.Machine.execVsel h o s
  | .vmov h o => Sys2Proof.Machine.execVmov h o s
  | .vmovi h o => Sys2Proof.Machine.execVmovi h o s
  | .vcmp h o => Sys2Proof.Machine.execVcmp h o s
  | .vbint h o => Sys2Proof.Machine.execVbint h o s
  | .vbdei h o => Sys2Proof.Machine.execVbdei h o s
  | .plog h o => Sys2Proof.Machine.execPlog h o s
  | .pmov h o => Sys2Proof.Machine.execPmov h o s
  | .fadd h o => Sys2Proof.Machine.execFadd h o s
  | .fsub h o => Sys2Proof.Machine.execFsub h o s
  | .fmul h o => Sys2Proof.Machine.execFmul h o s
  | .ffma h o => Sys2Proof.Machine.execFfma h o s
  | .fmin h o => Sys2Proof.Machine.execFmin h o s
  | .fmax h o => Sys2Proof.Machine.execFmax h o s
  | .fcmp h o => Sys2Proof.Machine.execFcmp h o s
  | .frnd h o => Sys2Proof.Machine.execFrnd h o s
  | .hadd2 h o => Sys2Proof.Machine.execHadd2 h o s
  | .hmul2 h o => Sys2Proof.Machine.execHmul2 h o s
  | .hfma2 h o => Sys2Proof.Machine.execHfma2 h o s
  | .frcp h o => Sys2Proof.Machine.execFrcp h o s
  | .frsq h o => Sys2Proof.Machine.execFrsq h o s
  | .fsqrt h o => Sys2Proof.Machine.execFsqrt h o s
  | .fex2 h o => Sys2Proof.Machine.execFex2 h o s
  | .flg2 h o => Sys2Proof.Machine.execFlg2 h o s
  | .fsin h o => Sys2Proof.Machine.execFsin h o s
  | .fcos h o => Sys2Proof.Machine.execFcos h o s
  | .ftanh h o => Sys2Proof.Machine.execFtanh h o s
  | .sfuResultWrite acc => Sys2Proof.Machine.execSfuResultWrite acc s
  | .cvt h o => Sys2Proof.Machine.execCvt h o s
  | .qnt h o => Sys2Proof.Machine.execQnt h o s
  | .pack6 h o => Sys2Proof.Machine.execPack6 h o s
  | .unpack6 h o => Sys2Proof.Machine.execUnpack6 h o s
  | .mxsc h o => Sys2Proof.Machine.execMxsc h o s
  | .sattst h pd mask => Sys2Proof.Machine.execSattst h pd mask s
  | .satclr h mask => Sys2Proof.Machine.execSatclr h mask s
  | .satarm h set clr => Sys2Proof.Machine.execSatarm h set clr s
  | .shfl h o => Sys2Proof.Machine.execShfl h o s
  | .rdlane h o => Sys2Proof.Machine.execRdlane h o s
  | .wrlane h o => Sys2Proof.Machine.execWrlane h o s
  | .vred h o => Sys2Proof.Machine.execVred h o s
  | .vscan h o => Sys2Proof.Machine.execVscan h o s
  | .vmatch h o => Sys2Proof.Machine.execVmatch h o s
  | .crossLaneResultWrite acc => Sys2Proof.Machine.execCrossLaneResultWrite acc s
  | .lds h o => Sys2Proof.Machine.execLds h o s
  | .sts h o => Sys2Proof.Machine.execSts h o s
  | .atoms h o => Sys2Proof.Machine.execAtoms h o s
  | .reds h o => Sys2Proof.Machine.execReds h o s
  | .scratchpadOpPerformed acc => Sys2Proof.Machine.execScratchpadOpPerformed acc s
  | .barinit h o => Sys2Proof.Machine.execBarinit h o s
  | .arrive h o => Sys2Proof.Machine.execArrive h o s
  | .barrierArrival acc => Sys2Proof.Machine.execBarrierArrival acc s
  | .bwait h o => Sys2Proof.Machine.execBwait h o s
  | .bwaitWake w => Sys2Proof.Machine.execBwaitWake w s
  | .bwaitTimeout w => Sys2Proof.Machine.execBwaitTimeout w s
  | .btest h o => Sys2Proof.Machine.execBtest h o s
  | .btestComplete acc => Sys2Proof.Machine.execBtestComplete acc s
  | .waita h o => Sys2Proof.Machine.execWaita h o s
  | .waitaWake w => Sys2Proof.Machine.execWaitaWake w s
  | .waitaPeriodicReread w => Sys2Proof.Machine.execWaitaPeriodicReread w s
  | .waitaTimeout w => Sys2Proof.Machine.execWaitaTimeout w s
  | .ldg h o => Sys2Proof.Machine.execLdg h o s
  | .stg h o => Sys2Proof.Machine.execStg h o s
  | .atom h o => Sys2Proof.Machine.execAtom h o s
  | .red h o => Sys2Proof.Machine.execRed h o s
  | .globalLoadComplete acc => Sys2Proof.Machine.execGlobalLoadComplete acc s
  | .entryArrive acc => Sys2Proof.Machine.execEntryArrive acc s
  | .sliceAluPerform acc lane => Sys2Proof.Machine.execSliceAluPerform acc lane s
  | .globalStorePerformed acc => Sys2Proof.Machine.execGlobalStorePerformed acc s
  | .fence h o => Sys2Proof.Machine.execFence h o s
  | .fenceComplete acc => Sys2Proof.Machine.execFenceComplete acc s
  | .cctlInv h rng => Sys2Proof.Machine.execCctlInv h rng s
  | .cctlClean h rng => Sys2Proof.Machine.execCctlClean h rng s
  | .cctlCleaninv h rng => Sys2Proof.Machine.execCctlCleaninv h rng s
  | .cctlComplete acc => Sys2Proof.Machine.execCctlComplete acc s
  | .pref h o => Sys2Proof.Machine.execPref h o s
  | .qstat h d q => Sys2Proof.Machine.execQstat h d q s
  | .qstatComplete acc => Sys2Proof.Machine.execQstatComplete acc s
  | .qdrop h q n => Sys2Proof.Machine.execQdrop h q n s
  | .link h => Sys2Proof.Machine.execLink h s
  | .linkComplete w => Sys2Proof.Machine.execLinkComplete w s
  | .unlink h => Sys2Proof.Machine.execUnlink h s
  | .tmma h o => Sys2Proof.Machine.execTmma h o s
  | .tzero h mask => Sys2Proof.Machine.execTzero h mask s
  | .tdrainSt h o => Sys2Proof.Machine.execTdrainSt h o s
  | .tdrainAddst h o => Sys2Proof.Machine.execTdrainAddst h o s
  | .gprog h o => Sys2Proof.Machine.execGprog h o s
  | .gridQueueHead g => Sys2Proof.Machine.execGridQueueHead g s
  | .slabInject g => Sys2Proof.Machine.execSlabInject g s
  | .stepBoundary g => Sys2Proof.Machine.execStepBoundary g s
  | .tilePreempt g => Sys2Proof.Machine.execTilePreempt g s
  | .tileLinkWaitExpiry g => Sys2Proof.Machine.execTileLinkWaitExpiry g s
  | .tileRelink g => Sys2Proof.Machine.execTileRelink g s
  | .tdrainComplete g => Sys2Proof.Machine.execTdrainComplete g s
  | .cpy h o => Sys2Proof.Machine.execCpy h o s
  | .copyAccept core => Sys2Proof.Machine.execCopyAccept core s
  | .copyUnit core => Sys2Proof.Machine.execCopyUnit core s
  | .copyComplete core => Sys2Proof.Machine.execCopyComplete core s
  | .htest h d a => Sys2Proof.Machine.execHtest h d a s
  | .hwait h d a => Sys2Proof.Machine.execHwait h d a s
  | .handleStatusWrite acc => Sys2Proof.Machine.execHandleStatusWrite acc s
  | .hcancel h a => Sys2Proof.Machine.execHcancel h a s
  | .rbox h o => Sys2Proof.Machine.execRbox h o s
  | .rtri h o => Sys2Proof.Machine.execRtri h o s
  | .rhint h o => Sys2Proof.Machine.execRhint h o s
  | .rhset h o => Sys2Proof.Machine.execRhset h o s
  | .rast h o => Sys2Proof.Machine.execRast h o s
  | .tex h o => Sys2Proof.Machine.execTex h o s
  | .texq h o => Sys2Proof.Machine.execTexq h o s
  | .rayOpComplete acc => Sys2Proof.Machine.execRayOpComplete acc s
  | .blend h o => Sys2Proof.Machine.execBlend h o s
  | .launchEnq h d a => Sys2Proof.Machine.execLaunchEnq h d a s
  | .launchEnqComplete acc => Sys2Proof.Machine.execLaunchEnqComplete acc s
  | .launchCancel h kind a => Sys2Proof.Machine.execLaunchCancel h kind a s
  | .setpri h grp a => Sys2Proof.Machine.execSetpri h grp a s
  | .trap h imm => Sys2Proof.Machine.execTrap h imm s
  | .trapret h => Sys2Proof.Machine.execTrapret h s
  | .faultretRetry h => Sys2Proof.Machine.execFaultretRetry h s
  | .faultretSkip h => Sys2Proof.Machine.execFaultretSkip h s
  | .faultretEmul h a => Sys2Proof.Machine.execFaultretEmul h a s
  | .dbgbrk h code => Sys2Proof.Machine.execDbgbrk h code s
  | .waveAged w => Sys2Proof.Machine.execWaveAged w s
  | .yieldExpiry w => Sys2Proof.Machine.execYieldExpiry w s
  | .sleepWake w => Sys2Proof.Machine.execSleepWake w s
  | .walkComplete fbid => Sys2Proof.Machine.execWalkComplete fbid s
  | .frespRetry p fbid => Sys2Proof.Machine.execFrespRetry p fbid s
  | .frespFail p fbid => Sys2Proof.Machine.execFrespFail p fbid s
  | .tlbinvPartition p => Sys2Proof.Machine.execTlbinvPartition p s
  | .tlbinvRange p npages => Sys2Proof.Machine.execTlbinvRange p npages s
  | .tlbInvalidationEnd p => Sys2Proof.Machine.execTlbInvalidationEnd p s
  | .doorbellWrite port page p q size value => Sys2Proof.Machine.execDoorbellWrite port page p q size value s
  | .nopPacket p q => Sys2Proof.Machine.execNopPacket p q s
  | .launchPacket p q => Sys2Proof.Machine.execLaunchPacket p q s
  | .graphPacket p q => Sys2Proof.Machine.execGraphPacket p q s
  | .fencePacket p q => Sys2Proof.Machine.execFencePacket p q s
  | .fenceCounterReread p q => Sys2Proof.Machine.execFenceCounterReread p q s
  | .signalPacket p q => Sys2Proof.Machine.execSignalPacket p q s
  | .signalWrite p q => Sys2Proof.Machine.execSignalWrite p q s
  | .deadlinePacket p q => Sys2Proof.Machine.execDeadlinePacket p q s
  | .cancelPacket p q => Sys2Proof.Machine.execCancelPacket p q s
  | .placementDecision p => Sys2Proof.Machine.execPlacementDecision p s
  | .reservationStart p => Sys2Proof.Machine.execReservationStart p s
  | .groupRetire g => Sys2Proof.Machine.execGroupRetire g s
  | .unitComplete p u => Sys2Proof.Machine.execUnitComplete p u s
  | .lehrPromotion p jid => Sys2Proof.Machine.execLehrPromotion p jid s
  | .commit p => Sys2Proof.Machine.execCommit p s
  | .carvedWayWritebackEnd p => Sys2Proof.Machine.execCarvedWayWritebackEnd p s
  | .save p img => Sys2Proof.Machine.execSave p img s
  | .coresHalted p => Sys2Proof.Machine.execCoresHalted p s
  | .imageComplete p => Sys2Proof.Machine.execImageComplete p s
  | .imageWritten p => Sys2Proof.Machine.execImageWritten p s
  | .restore p img => Sys2Proof.Machine.execRestore p img s
  | .migsave p img => Sys2Proof.Machine.execMigsave p img s
  | .kill p => Sys2Proof.Machine.execKill p s
  | .bflipToDevice page => Sys2Proof.Machine.execBflipToDevice page s
  | .bflipToHost page => Sys2Proof.Machine.execBflipToHost page s
  | .bflipQuery page => Sys2Proof.Machine.execBflipQuery page s
  | .biasFlipEnd => Sys2Proof.Machine.execBiasFlipEnd s
  | .backInvalidateResponse host line => Sys2Proof.Machine.execBackInvalidateResponse host line s
  | .hostSnoop host line own => Sys2Proof.Machine.execHostSnoop host line own s
  | .hostMemRead host pa size keep => Sys2Proof.Machine.execHostMemRead host pa size keep s
  | .hostMemWrite host pa bytes own rmw => Sys2Proof.Machine.execHostMemWrite host pa bytes own rmw s
  | .csmApertureAccess host off size write => Sys2Proof.Machine.execCsmApertureAccess host off size write s
  | .leaseRenew port nonce period => Sys2Proof.Machine.execLeaseRenew port nonce period s
  | .leaseArm port nonce => Sys2Proof.Machine.execLeaseArm port nonce s
  | .leaseDisarm port nonce => Sys2Proof.Machine.execLeaseDisarm port nonce s
  | .leaseYield port nonce => Sys2Proof.Machine.execLeaseYield port nonce s
  | .leaseExpiry => Sys2Proof.Machine.execLeaseExpiry s
  | .linkDown port => Sys2Proof.Machine.execLinkDown port s
  | .linkUp port => Sys2Proof.Machine.execLinkUp port s
  | .cxwinWrite n sz value => Sys2Proof.Machine.execCxwinWrite n sz value s
  | .cxlCompletionTimeout pa who => Sys2Proof.Machine.execCxlCompletionTimeout pa who s
  | .correctedError src addr part => Sys2Proof.Machine.execCorrectedError src addr part s
  | .uncorrectableError src addr g rd => Sys2Proof.Machine.execUncorrectableError src addr g rd s
  | .memoryUncorrectableError kind pa => Sys2Proof.Machine.execMemoryUncorrectableError kind pa s
  | .clusterFence c => Sys2Proof.Machine.execClusterFence c s
  | .dresumeResume p lid wave => Sys2Proof.Machine.execDresumeResume p lid wave s
  | .dresumeStep p lid wave => Sys2Proof.Machine.execDresumeStep p lid wave s
  | .dresumeKill p lid wave => Sys2Proof.Machine.execDresumeKill p lid wave s
  | .traceLoss core => Sys2Proof.Machine.execTraceLoss core s
  | .powerGood => Sys2Proof.Machine.execPowerGood s
  | .recoveryImageCheck value => Sys2Proof.Machine.execRecoveryImageCheck value s
  | .pmrExtend p idx => Sys2Proof.Machine.execPmrExtend p idx s
  | .getVersion via p => Sys2Proof.Machine.execGetVersion via p s
  | .getCapabilities via p => Sys2Proof.Machine.execGetCapabilities via p s
  | .negotiateAlgorithms via p => Sys2Proof.Machine.execNegotiateAlgorithms via p s
  | .getDigests via p => Sys2Proof.Machine.execGetDigests via p s
  | .getCertificate via p => Sys2Proof.Machine.execGetCertificate via p s
  | .challenge via p nonce => Sys2Proof.Machine.execChallenge via p nonce s
  | .getMeasurements via m => Sys2Proof.Machine.execGetMeasurements via m s
  | .mailboxRequest port m => Sys2Proof.Machine.execMailboxRequest port m s
  | .pldmSensorRead x => Sys2Proof.Machine.execPldmSensorRead x s
  | .pldmFwUpdate image => Sys2Proof.Machine.execPldmFwUpdate image s
  | .clockInterval diePower draws temps => Sys2Proof.Machine.execClockInterval diePower draws temps s
  | .msixVectorUnmask port vec => Sys2Proof.Machine.execMsixVectorUnmask port vec s
  | .registerWrite port addr size value => Sys2Proof.Machine.execRegisterWrite port addr size value s
  | .faultQueueHeadAdvance p value => Sys2Proof.Machine.execFaultQueueHeadAdvance p value s
  | .stopRingHeadAdvance p value => Sys2Proof.Machine.execStopRingHeadAdvance p value s
  | .instructionFetchReturn w => Sys2Proof.Machine.execInstructionFetchReturn w s
  | .deviceReset => Sys2Proof.Machine.execDeviceReset s
  | .powerLoss => Sys2Proof.Machine.execPowerLoss s

end Sys2Proof.Machine
end

