-- ==== Sys2Proof/Machine/Sched.lean ====
section
/-!
DEFINITION. The schedule: the events that a cycle brings, the selection of a quarter with its charges, and
the passage to the next cycle (R34, R35, R109–R117, R125, R415, R427, R432, R443).
-/

namespace Sys2Proof.Machine

/-! ### Events of a cycle -/

/-- The clusters and the distributor are released: bring-up is over (R425). -/
def State.released (s : State) : Bool := s.mg.stage = 5

/-- The event that ends an access of variable latency. -/
def Acc.event (a : Acc) : List Instr :=
  match a.op with
  | .sldk => [.sldkComplete a.id]
  | .sfu => [.sfuResultWrite a.id]
  | .xlane => [.crossLaneResultWrite a.id]
  | .spLoad | .spStore | .spAtom _ | .spRed _ | .blend _ _ | .barinit => [.scratchpadOpPerformed a.id]
  | .arrive => [.barrierArrival a.id]
  | .btest => [.btestComplete a.id]
  | .load | .atom _ => (match a.dst with
    | .q _ _ => [.entryArrive a.id]
    | _ => [.globalLoadComplete a.id])
  | .store | .red _ => [.globalStorePerformed a.id]
  | .fence _ => [.fenceComplete a.id]
  | .cctl _ => [.cctlComplete a.id]
  | .qstat => [.qstatComplete a.id]
  | .handle => [.handleStatusWrite a.id]
  | .launch => [.launchEnqComplete a.id]
  | .rbox | .rtri | .rhint | .rhset | .rast | .tex | .texq => [.rayOpComplete a.id]
  | .cancelled | .pref => []

/-- A waiting or yielding wave's events: a change comes before a deadline of the same cycle (R202, R207). -/
def State.waveEvents (s : State) (w : Wave) : List Instr :=
  if w.life = .exited || s.saving w.grp.part then []
  else
    (match w.wait with
     | .sleep t => if t ≤ s.timebase then [.sleepWake w.id] else []
     | .bar _ tok d _ =>
       (if passed (s.barWord w.grp tok) tok then [.bwaitWake w.id] else []) ++
       (if late d s.timebase then [.bwaitTimeout w.id] else [])
     | .addr o _ pa v d _ again =>
       (match pa.bind fun x => s.waitaRead w o x with
        | some m =>
          if (waitaCond o m v || (!o.spd && (pa.map s.poisoned).getD false)) && s.notifies o pa then [.waitaWake w.id]
          else []
        | none => []) ++
       (if again ≤ s.cyc w.id.core then [.waitaPeriodicReread w.id] else []) ++
       (if late d s.timebase then [.waitaTimeout w.id] else [])
     | .link _ _ => [.linkComplete w.id]
     | _ => []) ++
    (if w.yield = 1 then [.yieldExpiry w.id] else []) ++
    (if 976 ≤ w.age && !w.aged then [.waveAged w.id] else [])

/-- A fetch that awaits its lines; it goes on under a SLEEP. -/
def State.fetchEvents (s : State) (w : Wave) : List Instr :=
  let idle : Bool := match w.wait with | .none | .sleep _ => true | _ => false
  if w.life = .exited || !idle || w.awaits || w.reissue.isSome || w.inPath || s.saving w.grp.part then []
  else if s.fetch w = .wait then [.instructionFetchReturn w.id] else []

/-- The events of a tile: boundaries, the sequencer, injection, and anneal state after it. -/
def Group.tileEvents (g : Group) : List Instr :=
  match g.tile with
  | none => []
  | some t =>
    if t.owner.isNone && t.flight.isEmpty then []
    else [.stepBoundary g.id, .gridQueueHead g.id, .slabInject g.id, .tdrainComplete g.id, .tileLinkWaitExpiry g.id,
          .tilePreempt g.id, .tileRelink g.id]

/-- The events of a copy channel. -/
def Core.copyEvents (c : Core) : List Instr :=
  (if c.chan.fifo.isEmpty then [] else [.copyAccept c.idx]) ++
  (if c.chan.running.isEmpty && !c.chan.fifo.any (·.cancel) then [] else [.copyUnit c.idx, .copyComplete c.idx])

/-- The units of every job: launches, then graphs, then the job. -/
def State.unitEvents (s : State) : List Instr :=
  s.jobs.flatMap fun j =>
    let us : List UnitRef :=
      ((s.launches.filter fun l => l.part = j.part && l.jid = j.jid).map fun l => UnitRef.launch l.lid) ++
      ((s.graphs.filter fun g => g.part = j.part && g.jid = j.jid).map fun g => UnitRef.graph g.jid g.gi) ++ [.job j.jid]
    us.map (Instr.unitComplete j.part)

/-- The packets that the parsers meet. -/
def State.parseEvents (s : State) : List Instr :=
  (List.range 16).flatMap fun p =>
    if s.released && (s.part p).en then (List.range 8).filterMap (s.parserNext p) else []

/-- What a partition's own machinery brings. A carve's write-back ends in the cycle after its COMMIT with `eager`, and
otherwise when the agenda says (R231; DESIGN CHOICE, log 88). -/
def State.partEvents (s : State) (p : Nat) : List Instr :=
  let d := s.part p
  (match d.run with
   | .idle => []
   | .carve _ none => if s.eager then [.carvedWayWritebackEnd p] else []
   | .carve _ (some _) => [.carvedWayWritebackEnd p]
   | .restore _ => []
   | .save _ _ 1 _ => [.coresHalted p]
   | .save _ _ 2 _ => [.imageComplete p]
   | .save _ _ _ _ => [.imageWritten p]) ++
  (if d.tlbbusy then [.tlbInvalidationEnd p] else [])

/-- A decision places at most one group or gang, after this cycle's releases; a reservation that starts in the
same cycle leaves the placement as it is (R371). -/
def State.placeEvents (s : State) : List Instr :=
  (List.range 16).flatMap fun p =>
    if s.released && s.launches.any fun l => l.part = p then [.placementDecision p, .reservationStart p] else []

/-- What a cycle brings at a time of its own. -/
def State.timedEvents (s : State) : List Instr :=
  (if s.leaseDue then [.leaseExpiry] else []) ++
  ((s.jobs.filter s.lehrDue).map fun j => Instr.lehrPromotion j.part j.jid) ++
  s.groups.flatMap Group.tileEvents ++ s.waves.flatMap s.waveEvents

/-- What a cycle brings of work whose latency the manual leaves open, taken as early as it may come. -/
def State.openEvents (s : State) : List Instr :=
  s.accs.flatMap Acc.event ++ s.cores.flatMap Core.copyEvents ++ s.waves.flatMap s.fetchEvents ++
  (s.walking.map Instr.walkComplete) ++ s.parseEvents ++
  ((s.snoop.filter (·.asked)).map fun x => Instr.backInvalidateResponse x.host x.line) ++
  ((s.cores.filter fun c => 0 < c.trace.lost).map fun c => Instr.traceLoss c.idx)

/-- What a cycle brings that no request names: the waits of HWAITs that are satisfied, RESTOREs that waited for a bias flip, and the
start of a 1 µs interval. -/
def State.ownEvents (s : State) : List Event :=
  ((s.waves.filter s.wakeable).map fun w => Event.wake w.id) ++
  (((List.range 16).filter fun p => match (s.part p).run with | .restore _ => true | _ => false).map Event.restore) ++
  (if s.interval = s.mg.clkAt then [] else [.interval])

/-- What follows within the cycle: retirement by ascending linear index (R442), completion, partition commands,
placement. -/
def State.lateEvents (s : State) : List Instr :=
  (sortBy (fun (a b : Group) => a.id.idx ≤ b.id.idx) s.groups).map (fun g => Instr.groupRetire g.id) ++ s.unitEvents ++
  (List.range 16).flatMap s.partEvents ++ (if s.flip.isSome then [.biasFlipEnd] else []) ++ s.placeEvents

/-- The events of a cycle. -/
def State.cycleEvents (s : State) : List Instr :=
  (if s.eager then s.openEvents else []) ++ s.timedEvents ++ s.lateEvents

/-! ### The issue slot (R106, R111–R114, R117, R125) -/

/-- Every quarter of the cluster is between instructions: no beat of one issues in the cycle. -/
def State.betweenBeats (s : State) (c : Nat) : Bool :=
  [4 * c, 4 * c + 1, 4 * c + 2, 4 * c + 3].all fun core => [0, 1, 2, 3].all fun q => !s.slotBusy core q

/-- The cluster gates issue: nothing is selected in it until it has had its gated cycles, the first of which comes once
the beats under way are over (R117; log 32). -/
def State.gatedNow (s : State) (core : Nat) : Bool := 0 < (s.cluster (core / 4)).gated

/-- The rank of an eligible wave, first wins: effective priority, aged before not aged, then the larger age
of aged waves or the earliest last issue, then the lower slot. -/
def Wave.issueRank (w : Wave) (top : Nat) : List Nat :=
  [63 - (if w.aged then top else w.prio), if w.aged then 0 else 1, if w.aged then 2 ^ 64 - w.age else w.last, w.id.slot]

/-- The wave that a quarter selects. -/
def State.selectWave (s : State) (core q : Nat) : Option Wave :=
  let live := s.liveAt core q
  let cs := live.filter s.willing
  if s.slotBusy core q || s.gatedNow core then none
  else
    let top := live.foldl (fun m w => max m w.prio) 0
    (cs.filter fun w => !(s.anyOther cs w && (s.yielding w || w.yl))).foldl (fun b w => match b with
      | none => some w
      | some x => if lexLt (w.issueRank top) (x.issueRank top) then some w else b) none

/-! ### Charges (R34, R41, R113, R443) -/

/-- The stall reason of a wave that is not selected: the lowest of what holds it (R443). A stopped wave is no linked one (R409). -/
def State.reason (s : State) (w : Wave) : Nat :=
  let own : List Nat := if w.stopped then [] else match s.ownTile w with
    | some t => [if t.ann then 10 else 9]
    | none => []
  let gated := s.gatedNow w.id.core
  let rs := s.holds w ++ (if s.lanesWait w then [9] else []) ++ own ++
    (if s.yielding w && (!gated || s.yieldHeld w) then [15] else [])
  match rs with
  | [] => if w.inPath then 13 else if gated then 14 else 0
  | r :: rs => rs.foldl min r

/-- A charge; one that meets a CSRW to its counter is lost (R130). -/
def Wave.charge (w : Wave) (r : Nat) : Wave :=
  let x := w.stalls.get r
  if w.stw = some r || x = 0xFFFFFFFF then w else { w with stalls := w.stalls.set r (x + 1) }

/-- The age of a wave that does not issue. -/
def State.ageStep (s : State) (w : Wave) : Wave :=
  if !s.willing w then { w with age := 0, aged := false }
  else if s.gatedNow w.id.core || s.yielding w then w
  else { w with age := w.age + 1 }

/-- Cycles of waiting on the lanes of a running tile; they start anew after an anneal state (R277; DESIGN CHOICE, log 91). -/
def State.linkStep (s : State) (w0 w : Wave) : Wave :=
  if s.linkHeld w0 then
    { w with linkwait := if s.groups.any fun g => match g.tile with
        | some t => t.running && g.covers t.fp w0.id.core w0.id.q
        | none => false
      then w0.linkwait + 1 else w0.linkwait }
  else { w with linkwait := 0 }

/-- The wave has been placed or restored in this cycle. -/
def Wave.arrives (w : Wave) (now : Nat) : Bool := w.last = now && w.prev.isNone && now < w.notBefore

/-- A wave of the quarter that is not selected passes the cycle: its charge, its age, one of its YIELD where
another wave is eligible, and its pass-over where there is a selection besides (R114, R125). The cycle in which it is
placed or restored counts as no cycle of waiting (R34). -/
def State.passCycle (s : State) (cs : List Wave) (free gated : Bool) (w : Wave) : Wave :=
  let inBeats : Bool := match w.wait, w.prev with
    | .bar _ _ _ _, _ | .addr _ _ _ _ _ _ _, _ => false
    | _, some c => decide (s.cyc w.id.core ≤ c)
    | _, none => false
  if inBeats || w.arrives (s.cyc w.id.core) then w
  else
    let other := free && s.anyOther cs w
    let passed := other && !gated && w.yl
    let aged := if passed && !s.yielding w then w else s.ageStep w
    let w1 := s.linkStep w (aged.charge (s.reason w))
    { w1 with yield := if other && 1 < w.yield then w.yield - 1 else w.yield, yl := w.yl && !passed }

/-- The waves of a quarter other than the one selected pass the cycle. A wave of a partition that is being saved is charged nothing
from the cycle of its SAVE on, as one that is pre-empted (R34; DESIGN CHOICE, log 96). -/
def State.passQuarter (s : State) (core q : Nat) (sel : Option Nat) : State :=
  let cs := (s.liveAt core q).filter s.willing
  { s with waves := upd (fun w => w.id.core = core && w.id.q = q && w.life = .live && some w.uid ≠ sel &&
      !s.saving w.grp.part) (s.passCycle cs (!s.slotBusy core q) (s.gatedNow core)) s.waves }

/-! ### The first read of a wait (R201, R206) -/

/-- The head, a BWAIT or WAITA, meets R57 and R58. -/
def State.meets (s : State) (w : Wave) (h : Hdr) : Bool :=
  w.life = .live && w.wait = .none && !w.awaits && w.dstate.isRun && w.reissue.isNone &&
  !s.saving w.grp.part && w.notBefore ≤ s.cyc w.id.core && w.stAt h ≤ s.cyc w.id.core && w.wtOk h

/-- The wave issued an instruction in this cycle. -/
def Wave.issuedNow (w : Wave) (now : Nat) : Bool := match w.prev with | some c => now ≤ c | none => false

/-- The head is a BWAIT or WAITA: what it does, and its header. -/
def State.waitHead (s : State) (w : Wave) : Option ((State → Res) × Hdr) :=
  if w.inPath then none
  else match s.head w with
    | .instr (.bwait h o) => some (execBwait h o, h)
    | .instr (.waita h o) => some (execWaita h o, h)
    | _ => none

/-- A BWAIT or WAITA reads in the first cycle in which it meets R57 and R58, whether or not the slot could issue
it. Its instruction issues in that cycle without a beat of the slot where `takes` accepts the outcome; one that traps or
parks is left to the selection. So it is while another wave's tile holds the lanes of its quarter, where R201 and R206 let it read
and R277 does not let it issue (DESIGN CHOICE, log 96). -/
def State.beginWait (s : State) (w : Wave) (takes : Hdr → Wave → Bool) : State :=
  match s.waitHead w with
  | none => s
  | some (run, h) =>
    if s.meets w h then
      let now := s.cyc w.id.core
      let s := s.modWave w.id fun w => { w with met := w.met <|> some s.timebase }
      if (s.holds w).isEmpty && w.due.isEmpty then
        match run { s with cur := w.id } with
        | .next t =>
          if ((t.wave? w.id).map (takes h)).getD false then
            { t with cores := s.cores, cur := s.cur }.modWave w.id fun w => { w with prev := some now }
          else s
        | _ => s
      else s
    else s

/-- The first reads of a quarter's waves that do not complete their instructions: the waves wait from this cycle on. -/
def State.firstReads (s : State) (core q : Nat) : State :=
  (s.liveAt core q).foldl (fun s w => s.beginWait w fun _ x => decide (x.wait ≠ .none)) s

/-- The first reads that complete their instructions in waves that the slot does not take (R201, R206). -/
def State.passedReads (s : State) (core q : Nat) (sel : Option Nat) : State :=
  ((s.liveAt core q).filter fun w => some w.uid ≠ sel).foldl (fun s w =>
    s.beginWait w fun h x => decide (x.wait = .none) && w.uGuard h (s.cyc core) && x.issuedNow (s.cyc core)) s

/-! ### Boundaries (R36, R209, R408) -/

/-- The wave is at an instruction boundary, or between paths, with something due. A wait that ended in a cycle has
its boundary in the next (R100), and FAULTRET issues its instruction again before the next boundary (R227). Nothing is taken once
the wave's state is fixed in an image (R372). -/
def State.dueNow (s : State) (w : Wave) : Bool :=
  w.life = .live && !w.due.isEmpty && w.wait = .none && w.dstate.isRun && w.reissue.isNone && !(s.part w.grp.part).imaged &&
  w.notBefore ≤ s.cyc w.id.core &&
  (match w.prev with | some c => c < s.cyc w.id.core | none => true)

/-- What is due at the boundaries of a quarter's waves is taken. -/
def State.takeDues (s : State) (core q : Nat) : State :=
  (s.wavesAt core q).foldl (fun s w => match s.wave? w.id with
    | some w => if s.dueNow w then s.takeDue w else s
    | none => s) s

/-- A head that is no instruction traps at its issue (R52, R55, R209). -/
def State.badHead (s : State) (w : Wave) : Head → State
  | .bad _ c v => s.trapAt w c w.pc v
  | .fetch (.trap c v) => s.trapAt w c w.pc v
  | _ => s

/-! ### The next cycle -/

/-- The cluster's clock ticks in the base cycle (R432). -/
def Cluster.ticks (c : Cluster) : Bool := 26 ≤ c.acc + c.clk

/-- The next base cycle of a cluster; `gated` says that its last cycle was gated. -/
def Cluster.advance (c : Cluster) (gated : Bool) : Cluster :=
  if c.ticks then { c with acc := c.acc + c.clk - 26, cyc := c.cyc + 1, gated := if gated then c.gated - 1 else c.gated }
  else { c with acc := c.acc + c.clk }

/-- A wave begins a cycle: what is due becomes visible, and WCYC counts. -/
def Wave.begin (w : Wave) (now : Nat) : Wave :=
  let w := { w with stw := none, tst := [], tprio := w.prio }.landDue now
  if w.life = .live then { w with wcyc := w.wcyc + 1 } else w

/-- A fetch whose page has no translation parks its wave (R52, R220). -/
def State.fetchPark (s : State) (w : Wave) : State :=
  if w.life = .exited || w.wait ≠ .none || w.awaits || w.reissue.isSome || w.inPath || !w.dstate.isRun ||
      s.saving w.grp.part then s
  else match s.fetch w with
    | .miss va => s.park w none [⟨va, .fetch, 0, 4, none⟩]
    | _ => s

/-- Ascending by core, then quarter, then slot. -/
def waveKey (x : WaveId) : Nat := x.core * 64 + x.q * 16 + x.slot

def sortWaves : List Wave → List Wave := sortBy fun a b => waveKey a.id ≤ waveKey b.id

/-- The quarters with live waves whose clusters are released and tick, ascending. -/
def State.quarters (s : State) (live : Nat → Bool) : List (Nat × Nat) :=
  let ks := (s.waves.filter fun w => w.life = .live && live w.id.core).foldl (fun l w => insNat (4 * w.id.core + w.id.q) l) []
  ks.map fun k => (k / 4, k % 4)

/-- The timebase counts 5 ticks in 13 cycles of 2.6 GHz, from power-good (R427). -/
def State.timeStep (s : State) : State :=
  if s.mg.stage = 0 then s
  else if 8 ≤ s.tickAcc then { s with tickAcc := s.tickAcc - 8, timebase := s.timebase + 1 }
  else { s with tickAcc := s.tickAcc + 5 }

/-- What the waves of the ticking clusters send outside themselves in a cycle, by issuing wave. -/
def State.outEvents (s : State) (ticks : Nat → Bool) : List Event :=
  (sortWaves (s.waves.filter fun w => ticks w.id.core)).flatMap fun w =>
    (w.outs (s.cyc w.id.core)).map fun x => Event.out w.sender x

/-- Effects under way whose waves have ended, due in this cycle. -/
def State.postDue (s : State) (p : Post) : Bool := p.due ≤ s.cyc p.src.id.core

/-- Lines that PREFs wait for come (R249), but not for a partition whose state is fixed in an image. -/
def State.prefAll (s : State) : State :=
  (s.accs.filter fun a => decide (a.op = .pref) && !(s.part a.grp.part).imaged).foldl State.prefStep s

/-- Records that a bias flip held up are written (R449). -/
def State.drainAllRecords (s : State) : State :=
  let s := s.errDrain s.err.held.length
  (List.range 16).foldl (fun s p => (s.fqDrain p (s.part p).fqheld.length).dsDrain p (s.part p).dsheld.length) s

/-- What a cycle does for those that wait: a fetch without a translation parks its wave, restored reads are tried
afresh, lines and records that a host held up come, and the host copies that heads and parsers need are asked for. -/
def State.waitStep (s : State) : State :=
  let s := s.waves.foldl State.fetchPark s
  let s := ((List.range 16).foldl State.redoAll s).prefAll.drainAllRecords
  (s.waves.foldl State.askBlock s).askSlots

/-- At the start of a 1 µs interval the caps as they stand come into force (R432). -/
def State.capStep (s : State) (before : Nat) : State :=
  if s.interval = before then s else { s with parts := s.parts.map fun p => { p with capNow := p.pwcap } }

/-- The passage to the next cycle: at the end of a tick its traces are written (R442); clocks advance, what is due lands, and what
the cycle brings is put in order, what comes from outside before the machine's own of the same place. Clusters that are not
released stand still (R425), and a partition whose image is complete keeps its waves as they are (R372). -/
def State.tick (s0 : State) : State :=
  let s := if s0.lastOfTick || s0.mg.stage = 0 then s0.trFlush else s0
  let ticks (core : Nat) : Bool := s.released && (s.cluster (core / 4)).ticks
  let s1 : State := State.capStep (State.timeStep { s.bootStep with
    cycle := s.cycle + 1
    clusters := if s.released then s.clusters.map fun c => c.advance (s.betweenBeats c.idx) else s.clusters }) s.interval
  let key (e : Event) : Nat := match e with | .out src _ => waveKey src.id | _ => 0
  let outs := sortBy (fun (a b : Event) => key a ≤ key b)
    (s1.outEvents ticks ++ (s1.posts.filter s1.postDue).map fun p => Event.out p.src p.put)
  let s2 : State := { s1 with
    waves := s1.waves.map fun (w : Wave) =>
      if ticks w.id.core && !(s1.part w.grp.part).imaged then w.begin (s1.cyc w.id.core) else w
    cores := s1.cores.map fun c => if ticks c.idx then c.portStep else c
    posts := s1.posts.filter fun p => !s1.postDue p
    agenda := s1.agenda.filter fun e => s1.cycle < e.1
    culletUse := [] }
  let s : State := State.markEligible s2.waitStep
  let due := (s1.agenda.filter fun e => e.1 ≤ s1.cycle).map fun e => Event.instr e.2
  let all := outs ++ due ++ s.cycleEvents.map Event.instr ++ s.ownEvents
  { s with todo := s.quarters ticks, events := sortBy (fun (a b : Event) => a.phase ≤ b.phase) all }

/-- What an effect that reaches outside its wave does when it takes effect: SETPRI, LAUNCH.cancel, a kill that a
trap at issue brought, and the packets of its entry. -/
def State.takeOut (s : State) (src : Sender) (x : Put) : State :=
  match x with
  | .pri _ _ | .cancel _ _ => s.landOut src x
  | .kill kind cause retpc =>
    match s.waveUid? src.uid with
    | some w => if w.life = .live then s.killGroup w kind cause retpc else s
    | none => s
  | .entered from_ v =>
    match s.waveUid? src.uid with
    | some w => if w.life = .live then s.traceFrom w from_ [.pc v, .mask w.present] else s
    | none => s
  | _ => s

/-- An event, as against an instruction that a wave issues: it has no encoding, and is no path of an XVI. -/
def isEvent (i : Instr) : Bool := (encodeFields i).isNone && (match i with | .xviPath => false | _ => true)

/-- What the device does whatever the clusters: power, links and leases, hosts, management, errors, and what its commands bring. -/
def deviceEvent (i : Instr) : Bool :=
  hostEvent i || planeEvent i || (match i with
    | .powerLoss | .deviceReset | .powerGood | .linkDown _ | .linkUp _ | .leaseExpiry | .biasFlipEnd
    | .backInvalidateResponse _ _ | .carvedWayWritebackEnd _ | .tlbInvalidationEnd _ | .coresHalted _ | .imageComplete _
    | .imageWritten _ | .cxlCompletionTimeout _ _ | .traceLoss _ | .getVersion _ _ | .getCapabilities _ _
    | .negotiateAlgorithms _ _ | .getDigests _ _ | .getCertificate _ _ | .challenge _ _ _ | .getMeasurements _ _ => true
    | _ => false)

/-- An event that finds the device in a state to answer it: in recovery only one port trains (R429), and what the clusters and the
distributor do waits until they are released (R425). -/
def State.answered (s : State) (i : Instr) : Bool :=
  isEvent i && (s.released || deviceEvent i) &&
  (if s.mg.stage = 15 then !memEvent i && (match eventPort i with | some h => s.recoveryPort = some h | none => true)
   else !hostEvent i || 4 ≤ s.mg.stage.toNat)

/-- FAULTRET.skip and .emul issue the faulting instruction with themselves where nothing else holds it (R227). -/
def State.again (s : State) (id : WaveId) : Option Instr :=
  match s.wave? id with
  | none => none
  | some w =>
    match w.reissue with
    | some r => if (s.holds { w with prev := none }).isEmpty && !s.lanesWait w then some r.i else none
    | none => none

/-- The wave selected has parked at its issue: the cycle counts as one of its wait (R34). One that a watchpoint stops at its issue is
charged nothing in that cycle (DESIGN CHOICE, log 96). -/
def State.parkCharge (s : State) (w : Wave) : State :=
  let now := s.cyc w.id.core
  s.modUid w.uid fun x => if x.life = .live && !x.miss.isEmpty && !x.issuedNow now then x.charge 8 else x

/-- Whether the wave of the slot may return from a fault handler with its head. -/
def faultRet : Instr → Bool
  | .faultretSkip _ | .faultretEmul _ _ => true
  | _ => false

end Sys2Proof.Machine
end

