-- ==== Sys2Proof/Machine/Step.lean ====
section
/-!
DEFINITION. One step of the machine (logs 1 and 3). A cycle is a run of steps: what the cycle brings, from outside and of
its own, in the order of the cycle; then one issue slot after another; then the passage to the next cycle.
-/

namespace Sys2Proof.Machine

/-- The instruction of the wave selected, at the issue slot; with FAULTRET the instruction that it issues again. -/
def State.issueHead (s : State) (w : Wave) (i : Instr) : Res :=
  if w.inPath && w.reissue.isNone then exec .xviPath s
  else if faultRet i then
    match exec i s with
    | .next t => match t.again w.id with
      | some j => exec j t
      | none => .next t
    | r => r
  else exec i s

/-- The issue slot of a quarter in one cycle: what is due at boundaries, the first reads of waits, the selection, the charges of the
waves not selected, and one instruction of the wave selected (R36, R111, R209). -/
def State.serve (s : State) (core q : Nat) : Res :=
  let s1 := (s.takeDues core q).firstReads core q
  let sel := s1.selectWave core q
  let s2 := s1.passedReads core q (sel.map (·.uid))
  match sel with
  | none => .next (s2.passQuarter core q none)
  | some w =>
    let s3 := { s2.passQuarter core q (some w.uid) with cur := w.id }
    match s2.head w with
    | .instr i =>
      (match s3.issueHead w i with
       | .next t => .next (t.parkCharge w)
       | r => r)
    | h => .next (s3.badHead w h)

/-- One step: the next thing that the cycle brings, in the cycle's order; then one issue slot after another; then
the passage to the next cycle. -/
def step (s : State) : Host.Outcome State Fault Refusal :=
  match s.events with
  | .instr i :: rest => if s.answered i then exec i { s with events := rest } else .next { s with events := rest }
  | .out src x :: rest => .next ({ s with events := rest }.takeOut src x)
  | .contain p :: rest => .next ({ s with events := rest }.fencePart p)
  | .relaunch g :: rest => .next ({ s with events := rest }.relaunchGroup g)
  | .errTrap uid tail :: rest => .next ({ s with events := rest }.takeErr uid tail)
  | .restore p :: rest => .next ({ s with events := rest }.restoreAgain p)
  | .wake id :: rest => .next ({ s with events := rest }.takeWake id)
  | .interval :: rest => .next { s with events := rest }.intervalStart
  | [] =>
    match s.todo with
    | (core, q) :: rest => State.serve { s with todo := rest } core q
    | [] => .next s.tick

/-! ### A machine about to issue a given word (log 1) -/

/-- A kernel with every register that an instruction can name. -/
def wideKern : Kern :=
  { width := 64, vregs := 320, preds := 128, sregs := 256, scr := 1, qn := 16, qd := 16, gfp := 0, gacc := 0,
    gang := false, idem := false, gx := 64, gy := 1, gz := 1, entry := 0, fhnd := 0, const := 0, succ := [] }

/-- The machine with partition 0's one wave of quarter 0 about to issue the word `w` from address 0: its
bytes in memory and in the instruction cache, and the page's translation cached. -/
def State.withFetchWord (s : State) (nbits w : Nat) : State :=
  let bs := wordBytes (BitVec.ofNat 96 (w % 2 ^ nbits))
  let id : GroupId := ⟨0, 0, 0⟩
  let g : Group :=
    { id := id, core := 0, q0 := 0, nw := 1, kern := wideKern, exited := 0, relaunch := 0, killed := false, again := false, back := none,
      window := freshWindow wideKern, flips := [], lastExit := none, tile := none }
  let wave : Wave := { Wave.fresh s.nextSeq ⟨0, 0, 0⟩ id 0 wideKern 0 0 with notBefore := 0 }
  let s1 := (s.wrBytes 0 bs).modPart 0 fun d => { d with run := .idle }
  let s2 := (s1.modCluster 0 fun c => { c with gated := 0 }).modCore 0 fun c =>
    { c with quarters := ⟨0, [], 0⟩ :: c.quarters.drop 1 }
  { s2 with
    agenda := [], events := [], posts := [], todo := [(0, 0)], nextSeq := s.nextSeq + 1
    mg := { s.mg with stage := 5 }
    poison := s.poison.filter fun l => l ≠ 0
    waves := wave :: s.waves.filter fun x => ¬ (x.id.core = 0 ∧ x.id.q = 0)
    groups := g :: s.groups.filter fun x => 4 ≤ x.core
    ic := ⟨0, 0, s2.rdBytes 0 128, []⟩ :: s.ic.filter fun l => ¬ (l.core = 0 ∧ l.line = 0)
    tlb := ⟨0, 3, 0, 0, 0x93, s.classes 0, true, []⟩ :: s.tlb.filter fun t => t.part ≠ 0 }

end Sys2Proof.Machine
end

