-- ==== Sys2Proof/Safety.lean ====
section
/-!
DEFINITION. What counts as a safe run: the machine goes on (no fault and no refusal), and every store that
a program or a host can see keeps its canonical form.
-/

namespace Sys2Proof.Safety

open Sys2Proof.Machine

/-- The outcome is a next state. -/
def goesOn : Host.Outcome State Fault Refusal → Bool
  | .next _ => true
  | .fault _ => false
  | .refused _ => false

/-- The step is safe: the machine goes on. -/
def safeStep (s : State) : Bool := goesOn (step s)

/-- Device memory, the contents at the homes and each group's window are in canonical form. -/
def memoriesWf (s : State) : Bool :=
  Memory.wf s.mem && Memory.wf s.home && s.groups.all fun g => Memory.wf g.window

end Sys2Proof.Safety
end

