-- ==== Sys2Proof/Claims.lean ====
section
/-!
DEFINITION. The words in which the statements about the A9 are written: what an issue leaves alone, the
effects it sends, and the work it starts.
-/

namespace Sys2Proof.Claims

open Sys2Proof.Machine

/-- The environment of instruction `i` at the slot of wave `w`. -/
abbrev envOf (s : State) (w : Wave) (i : Instr) (u : Bool) : Env := mkEnv s w u i

/-- A wave after an issue: the marks of the scheduler, its PC, its completion flags, its queue ports, the
events due at its next boundary and the effects on their way may differ; every register, predicate, mask,
sticky flag, handle, trap register, counter and mode is as it was. -/
def waveFrame (w w' : Wave) : Prop :=
  w' = { w with
    flags := w'.flags, q := w'.q, pc := w'.pc, prev := w'.prev, ctl := w'.ctl, last := w'.last, age := w'.age,
    aged := w'.aged, linkwait := w'.linkwait, iss := w'.iss, met := w'.met, reissue := w'.reissue, yl := w'.yl, dbg := w'.dbg,
    due := w'.due, dstate := w'.dstate, pend := w'.pend }

/-- The windows of the groups, resident or in an image, are in canonical form. -/
def windowsWf (s : State) : Bool :=
  s.groups.all (fun g => Memory.wf g.window) && s.images.all fun x => x.groups.all fun g => Memory.wf g.window

/-- The register files of a wave are in canonical form: vector, scalar and predicate registers, completion flags and
handles. -/
def fileWf (w : Wave) : Bool :=
  Sparse.wf w.v && Sparse.wf w.s && Sparse.wf w.p && Sparse.wf w.flags && Sparse.wf w.h

/-- The register files of the waves, resident or in an image, are in canonical form. -/
def filesWf (s : State) : Bool := s.waves.all fileWf && s.images.all fun x => x.waves.all fileWf

/-- Between `s` and `t` nothing differs but the waves, the cores, the trace packets of the cycle, and what a record written
to memory may reach: the bytes of memory and at the homes, the lines of the SLC, the host copies given up for it (R271),
and messages sent. -/
def recordFrame (s t : State) : Prop :=
  t = { s with
    waves := t.waves, cores := t.cores, mem := t.mem, home := t.home, dirty := t.dirty, slc := t.slc, snoop := t.snoop,
    flip := t.flip, fresh := t.fresh, out := t.out, trq := t.trq }

/-- The common marks of an issue (R56–R59, R106): the PC moves on by one word, the flag of SF counts up by one
and the others keep their counts, and the slot is held to the last beat. -/
structure issued (s : State) (w : Wave) (e : Env) (h : Hdr) (t : State) (w' : Wave) : Prop where
  there : t.wave? w.id = some w'
  pc : w'.pc = if w.inPath then w.pc else w.pc + 12
  prev : w'.prev = some e.c
  flags : w'.flags = if h.sf.toNat < 12 then w.flags.set h.sf.toNat (w.flags.get h.sf.toNat + 1) else w.flags
  others : ∀ id, id ≠ w.id → t.wave? id = s.wave? id

/-- The slot of the wave's quarter is held to the last beat, and no unit of any core changes but for that. -/
def slotHeld (s : State) (w : Wave) (e : Env) : List Core :=
  s.cores.modify w.id.core fun c =>
    { c with quarters := c.quarters.modify w.id.q fun q => { q with busy := e.c + 1 } }

/-- The countdown of the SF flag for a completion in cycle `at_` (R59). -/
def countdown (h : Hdr) (at_ : Nat) : List Pend :=
  if h.sf.toNat < 12 then [⟨at_ + 1, .flag h.sf.toNat⟩] else []

/-- `i` completes, and all that it does is to send its wave the effects `ps`, visible `lat` cycles after its
last beat: memory, windows and everything outside the wave but its quarter's slot stay as they are, and no
register, predicate or flag changes but as `ps` says when it lands. -/
def Sends (s : State) (w : Wave) (i : Instr) (h : Hdr) (u : Bool) (lat : Nat) (ps : Env → List Put) : Prop :=
  let e := envOf s w i u
  ∃ t w', exec i s = .next t ∧ issued s w e h t w' ∧ waveFrame w w' ∧
    w'.pend = w.pend ++ (ps e).map (fun p => ⟨e.c + lat, p⟩) ++ countdown h (e.c + lat) ∧
    t = { s with waves := t.waves, cores := slotHeld s w e }

/-- `i` completes its issue and starts the one access `x`: nothing lands in the wave yet, and outside the wave only
the list of accesses, its core's L1, ports and slot, and the copies and lines of the SLC that translating and reading
at issue may move, differ. No byte of memory changes, and the core's engines and trace are as they were. -/
structure started (s : State) (w : Wave) (e : Env) (h : Hdr) (t : State) (w' : Wave) (x : Acc) : Prop where
  marks : issued s w e h t w'
  frame : waveFrame w w'
  pend : w'.pend = w.pend
  accs : t.accs = s.accs ++ [x]
  id : x.id = s.nextSeq
  uid : x.uid = w.uid
  there : x.w = w.id
  grp : x.grp = w.grp
  sf : x.sf = h.sf
  core : ∀ c, (t.core c).chan = (s.core c).chan ∧ (t.core c).trace = (s.core c).trace
  rest : t = { s with
    waves := t.waves, cores := t.cores, accs := t.accs, nextSeq := s.nextSeq + 1, l1 := t.l1, slc := t.slc, home := t.home,
    dirty := t.dirty, flip := t.flip, fresh := t.fresh, out := t.out }

/-- `i` starts one access, as `a` says, and reads nothing of memory but its core's L1 at its issue: the SLC, the homes
and what is sent out are as they were. -/
def Starts (s : State) (w : Wave) (i : Instr) (h : Hdr) (u : Bool) (a : Env → Acc → Prop) : Prop :=
  let e := envOf s w i u
  ∃ t w' x, exec i s = .next t ∧ started s w e h t w' x ∧ a e x ∧
    t.slc = s.slc ∧ t.home = s.home ∧ t.dirty = s.dirty ∧ t.flip = s.flip ∧ t.out = s.out

/-- `i` starts one access, as `a` says, and reads a header or a line at its issue: its line may come into the SLC, and
another one leave it, back to its home. -/
def StartsReading (s : State) (w : Wave) (i : Instr) (h : Hdr) (u : Bool) (a : Env → Acc → Prop) : Prop :=
  let e := envOf s w i u
  ∃ t w' x, exec i s = .next t ∧ started s w e h t w' x ∧ a e x

/-- Nothing but its own operands holds or traps a memory instruction of the wave at its issue: no access of the wave or of
its core is outstanding, no host holds a copy, the quarter's scratchpad port is free (R189), and no watchpoint of the
partition is enabled (R415). -/
structure Unhindered (s : State) (w : Wave) : Prop where
  quiet : ∀ a ∈ s.accs, a.uid ≠ w.uid ∧ a.w.core ≠ w.id.core
  copies : s.snoop = []
  port : ∀ q, (s.core w.id.core).quarters[w.id.q]? = some q → q.port = []
  watch : ∀ x ∈ (s.part w.grp.part).wps, x.ctl.getLsbD 7 = false

/-- The core has a translation of the address that permits a read, and the page's class raises no cause (R219, R229). -/
def Readable (s : State) (w : Wave) (va : W64) : Prop :=
  bits va 63 51 = 0 ∧ (s.tlbHit (some w.id.core) w.grp.part va .read).isSome = true ∧
    s.classHit (some w.id.core) w.grp.part va .read = none

/-- The header at `va` can be read, and the data that an instruction reads by it, as `reads` names them from its bytes. -/
def BlockReadable (s : State) (w : Wave) (va : W64) (reads : List Byte → List (Nat × W64)) : Prop :=
  va.toNat % 32 = 0 ∧ Readable s w va ∧
    ∀ pa nc, s.tlbHit (some w.id.core) w.grp.part va .read = some (pa, nc) →
      ∀ x ∈ reads (s.blockRead w pa (s.l1able pa nc)).1, Readable s w x.2

/-- Access `a` ends: it is outstanding no more, and in its wave, unless that has exited, `ps` lands, but for what a
successor restart has dropped since its issue (R40), takes the write ports (R110), and the flag counts down. Nothing else changes. -/
def ended (s : State) (a : Acc) (ps : List Put) : State :=
  { s with
    accs := s.accs.filter fun x => x.id ≠ a.id
    waves := upd (fun w => w.uid = a.uid) (fun w =>
      if w.life = .exited then w
      else (((ps.filter (Put.keptBy a.lim)).foldl Wave.land w).marks (s.cyc a.w.core) (ps.filter (Put.keptBy a.lim))).decSf a.sf
        (s.cyc a.w.core)) s.waves }

/-- A vector or scalar destination, written with one value per lane of the instruction (R22, R64, R68). -/
def resultOf (e : Env) (h : Hdr) (u wide : Bool) (d : Dst) (f : Nat → W64) : List Put :=
  putDst wide d ((lanesOf e h u).map fun t => (t, f t))

/-- The low half of a source, and a 64-bit source. -/
abbrev src32 (e : Env) (f : Nat) (x : Src) (t : Nat) : W32 := lo32 (e.src f false x t)
abbrev src64 (e : Env) (f : Nat) (x : Src) (t : Nat) : W64 := e.src f true x t

/-- A result of the tag's width from operands of that width. -/
def atWidth (o : Alu3) (f32 : W32 → W32 → W32 → W32) (f64 : W64 → W64 → W64 → W64) (e : Env) (t : Nat) : W64 :=
  if o.tag.wide then f64 (src64 e 0 o.a t) (src64 e 1 o.b t) (e.old true o.d t)
  else (f32 (src32 e 0 o.a t) (src32 e 1 o.b t) (lo32 (e.old false o.d t))).zeroExtend 64

/-- A result of the tag's width from A and the old D of that width and a 32-bit B. -/
def atWidthB (o : Alu3) (f32 : W32 → W32 → W32 → W32) (f64 : W64 → W32 → W64 → W64) (e : Env) (t : Nat) : W64 :=
  if o.tag.wide then f64 (src64 e 0 o.a t) (src32 e 1 o.b t) (e.old true o.d t)
  else (f32 (src32 e 0 o.a t) (src32 e 1 o.b t) (lo32 (e.old false o.d t))).zeroExtend 64

/-- The state after slices have served reads: lines of the SLC may come and go, those that leave to their homes, and
nothing else differs (R232, R382). -/
def Served (s t : State) : Prop :=
  t = { s with slc := t.slc, home := t.home, dirty := t.dirty, flip := t.flip, fresh := t.fresh, out := t.out }

/-- The wave has issued `i` and goes on at `pc`; an instruction of this kind adds trace packets to those of the cycle, and
only with TMODE 2 (R419). -/
structure goesTo (s : State) (w : Wave) (e : Env) (h : Hdr) (pc : W64) (t : State) (w' : Wave) : Prop where
  there : t.wave? w.id = some w'
  at_ : w'.pc = pc
  prev : w'.prev = some e.c
  flags : w'.flags = if h.sf.toNat < 12 then w.flags.set h.sf.toNat (w.flags.get h.sf.toNat + 1) else w.flags
  others : ∀ id, id ≠ w.id → t.wave? id = s.wave? id
  frame : t = { s with waves := t.waves, cores := slotHeld s w e, trq := t.trq }
  untraced : (s.part w.grp.part).tmode ≠ 2 → t.trq = s.trq

/-- A control transfer (R121): taken to its target, writing its link if it has one, or passed by. A taken one
makes the next instruction wait two cycles (R107). -/
def Transfers (s : State) (w : Wave) (i : Instr) (h : Hdr) (taken : Env → Bool) (target : Env → W64)
    (link : Option (BitVec 8)) : Prop :=
  let e := envOf s w i true
  (taken e = true → bits (target e) 1 0 = 0 ∧ bits (target e) 63 51 = 0) →
  ∃ t w', exec i s = .next t ∧ waveFrame w w' ∧
    goesTo s w e h (if taken e then target e else if w.inPath then w.pc else w.pc + 12) t w' ∧
    w'.ctl = taken e ∧
    (if taken e ∧ link.isSome then
      w'.pend = w.pend ++ (Wave.putPair (link.getD 0).toNat (w.pc + 12)).map (fun p => ⟨e.c + 2, p⟩) ++ countdown h (e.c + 2)
     else w'.pend = w.pend ++ countdown h (e.c + 1))

/-- A 64-bit number of leading zeros below bit `w`. -/
def leadingZeros (w : Nat) (x : W64) : Nat :=
  let n := x.toNat % 2 ^ w
  if n = 0 then w else w - 1 - Nat.log2 n

/-- Field position and length of R152, with the part above the top cut off. -/
def fieldPos (b : W32) : Nat := b.toNat % 64
def fieldLen (w : Nat) (b : W32) : Nat := if w ≤ fieldPos b then 0 else min (b.toNat / 256 % 128) (w - fieldPos b)

/-- The field of R152, extended. -/
def extractField {w : Nat} (signed : Bool) (a : BitVec w) (b : W32) : BitVec w :=
  let len := fieldLen w b
  if len = 0 then 0
  else if signed then (a <<< (w - fieldPos b - len)).sshiftRight (w - len)
  else (a <<< (w - fieldPos b - len)) >>> (w - len)

/-- `d` with the field of R152 replaced by the low bits of `a`. -/
def insertField {w : Nat} (a : BitVec w) (b : W32) (d : BitVec w) : BitVec w :=
  let mask : BitVec w := (BitVec.ofNat w (2 ^ fieldLen w b - 1)) <<< fieldPos b
  (d &&& ~~~mask) ||| ((a <<< fieldPos b) &&& mask)

/-- Clamping to the range of a tag (R93). -/
def clampTag (signed : Bool) (w : Nat) (x : Int) : Int :=
  if signed then max (-(2 ^ (w - 1) : Int)) (min (2 ^ (w - 1) - 1) x) else max 0 (min (2 ^ w - 1) x)

/-- The integer that a `w`-bit value is. -/
def intOf {w : Nat} (signed : Bool) (x : BitVec w) : Int := if signed then x.toInt else (x.toNat : Int)

/-- Rows of R69: first and last opcode, highest FN, and U: 1 for 0, 2 for 1, 3 for either. -/
def opcodeRows1 : List (Nat × Nat × Nat × Nat) :=
  [(0x00, 0x00, 0, 3), (0x01, 0x06, 0, 2), (0x07, 0x07, 1, 2), (0x08, 0x0A, 0, 2), (0x0B, 0x0B, 0, 1),
   (0x0C, 0x0C, 3, 2), (0x0D, 0x11, 0, 2), (0x18, 0x18, 3, 2), (0x30, 0x44, 0, 3), (0x45, 0x45, 1, 3),
   (0x46, 0x46, 0, 3), (0x47, 0x48, 1, 3), (0x49, 0x4A, 0, 3), (0x50, 0x57, 0, 3), (0x58, 0x5A, 1, 3)]

/-- Rows of R69: first and last opcode, highest FN, and U: 1 for 0, 2 for 1, 3 for either. -/
def opcodeRows2 : List (Nat × Nat × Nat × Nat) :=
  [(0x60, 0x67, 0, 1), (0x70, 0x74, 0, 1), (0x75, 0x77, 0, 2), (0x80, 0x80, 3, 1), (0x81, 0x83, 0, 1),
   (0x84, 0x84, 1, 1), (0x85, 0x85, 0, 1), (0x90, 0x91, 0, 1), (0x92, 0x92, 12, 1), (0x94, 0x98, 0, 1),
   (0xA0, 0xA1, 0, 1), (0xA2, 0xA2, 12, 1), (0xA4, 0xA4, 3, 2), (0xA5, 0xA5, 2, 2), (0xA6, 0xA6, 1, 1)]

/-- Rows of R69: first and last opcode, highest FN, and U: 1 for 0, 2 for 1, 3 for either. -/
def opcodeRows3 : List (Nat × Nat × Nat × Nat) :=
  [(0xA7, 0xA8, 0, 2), (0xB0, 0xB3, 0, 2), (0xB4, 0xB4, 1, 2), (0xB5, 0xB5, 0, 2), (0xC0, 0xC0, 3, 2),
   (0xC1, 0xC3, 0, 2), (0xC8, 0xCC, 0, 1), (0xCD, 0xCD, 2, 1), (0xCE, 0xCF, 0, 1), (0xD8, 0xD8, 1, 2),
   (0xD9, 0xDB, 0, 2), (0xDC, 0xDC, 2, 2), (0xDD, 0xDD, 0, 2)]

/-- The opcode map of R69: the FN codes and the values of U that an opcode takes; REDS and RED have no operations
6 and 7. -/
def opcodeMap (opc fn : Nat) (u : Bool) : Bool :=
  (opcodeRows1 ++ opcodeRows2 ++ opcodeRows3).any (fun r => r.1 ≤ opc && opc ≤ r.2.1 && fn ≤ r.2.2.1 && r.2.2.2.testBit u.toNat) ||
  ((opc == 0x93 || opc == 0xA3) && (fn ≤ 5 || (8 ≤ fn && fn ≤ 12)) && !u)

end Sys2Proof.Claims
end

