-- ==== Sys2Proof/Certificates/Slice0/Obligations.lean ====
section
/-!
DEFINITION. The statements about the A9. In each, `s` is any state and `w` the wave of its issue slot, and the
hypotheses are on the state and the operands alone.
-/

open Sys2Proof Sys2Proof.Machine Sys2Proof.Claims

/-! ### Integers -/

/-- R151: VADD, VSUB, VMUL and VMAD are addition, subtraction and multiplication modulo 2^32 or 2^64. R151: VMULH
gives the high half of the product, VMIN and VMAX the smaller and the larger operand, VABSD the distance, each as
the tag reads its operands, signed or unsigned. -/
def Obligations.IntegerResults : Prop :=
  (∀ (s : State) (w : Wave) (h : Hdr) (o : Alu3),
    let sends (i : Instr) (f32 : W32 → W32 → W32 → W32) (f64 : W64 → W64 → W64 → W64) : Prop :=
      Issues s w i o.u → Sends s w i h o.u (aluLat o.u) fun e =>
        resultOf e h o.u o.tag.wide o.d (atWidth o f32 f64 e)
    sends (.vadd h o) (fun a b _ => a + b) (fun a b _ => a + b) ∧
    sends (.vsub h o) (fun a b _ => a - b) (fun a b _ => a - b) ∧
    sends (.vmul h o) (fun a b _ => a * b) (fun a b _ => a * b) ∧
    sends (.vmad h o) (fun a b d => a * b + d) (fun a b d => a * b + d)) ∧
  (∀ (s : State) (w : Wave) (h : Hdr) (o : Alu3),
    let g := o.tag.signed
    let sends (i : Instr) (f32 : W32 → W32 → W32 → W32) (f64 : W64 → W64 → W64 → W64) : Prop :=
      Issues s w i o.u → Sends s w i h o.u (aluLat o.u) fun e =>
        resultOf e h o.u o.tag.wide o.d (atWidth o f32 f64 e)
    sends (.vmulh h o)
      (fun a b _ => if g then ((a.signExtend 64 * b.signExtend 64) >>> 32).truncate 32
        else ((a.zeroExtend 64 * b.zeroExtend 64) >>> 32).truncate 32)
      (fun a b _ => if g then ((a.signExtend 128 * b.signExtend 128) >>> 64).truncate 64
        else ((a.zeroExtend 128 * b.zeroExtend 128) >>> 64).truncate 64) ∧
    sends (.vmin h o) (fun a b _ => if (if g then a.sle b else a.ule b) then a else b)
      (fun a b _ => if (if g then a.sle b else a.ule b) then a else b) ∧
    sends (.vmax h o) (fun a b _ => if (if g then a.sle b else a.ule b) then b else a)
      (fun a b _ => if (if g then a.sle b else a.ule b) then b else a) ∧
    sends (.vabsd h o) (fun a b _ => if (if g then a.sle b else a.ule b) then b - a else a - b)
      (fun a b _ => if (if g then a.sle b else a.ule b) then b - a else a - b))

/-- R151 and R98: VADDS clamps the exact sum or difference to the range of its tag, and the sticky flag INT is set
in the completion cycle exactly when some lane is clamped. R176 and R177: SATTST, SATCLR and SATARM act two cycles
after their issue, where their guard holds. R110 and R177: among the effects of one cycle, a SATCLR lands before the
saturations and a SATTST after them; the test writes its predicate in every thread that exists. -/
def Obligations.SaturationFlags : Prop :=
  (∀ (s : State) (w : Wave) (h : Hdr) (o : AddsOp), Issues s w (.vadds h o) o.o.u →
    let g := o.o.tag.signed
    let exact (e : Env) (t : Nat) : Int :=
      let a := if o.o.tag.wide then intOf g (src64 e 0 o.o.a t) else intOf g (src32 e 0 o.o.a t)
      let b := if o.o.tag.wide then intOf g (src64 e 1 o.o.b t) else intOf g (src32 e 1 o.o.b t)
      if o.sub then a - b else a + b
    let clamped (e : Env) (t : Nat) : Int := clampTag g (if o.o.tag.wide then 64 else 32) (exact e t)
    Sends s w (.vadds h o) h o.o.u (aluLat o.o.u) fun e =>
      resultOf e h o.o.u o.o.tag.wide o.o.d (fun t => BitVec.ofInt 64 (clamped e t)) ++
      (if (lanesOf e h o.o.u).any fun t => clamped e t ≠ exact e t then [.sat 1] else [])) ∧
  (∀ (s : State) (w : Wave) (h : Hdr) (pd : BitVec 7) (m c : Byte),
    let sends (i : Instr) (p : Put) : Prop := Issues s w i true → Sends s w i h true 2 fun e =>
      if w.uGuard h e.c0 then [p] else []
    sends (.sattst h pd m) (.satTst pd.toNat m) ∧ sends (.satclr h m) (.satClr m) ∧ sends (.satarm h m c) (.satArm m c)) ∧
  (∀ (w : Wave) (m b : Byte) (pd due : Nat), w.tst = [] →
    let w' := ({ w with pend := [⟨due, .satTst pd m⟩, ⟨due, .sat b⟩, ⟨due, .satClr m⟩] } : Wave).landDue due
    w'.sat = (w.sat &&& ~~~m) ||| b ∧ w'.pend = [] ∧
    w'.p = w.p.set pd (if b &&& m = 0 then w.p.get pd &&& ~~~w.present else w.p.get pd ||| w.present))

/-- R151: VAND, VOR and VXOR act on bits; the shifts VSHL, VSHR and VSRA take B as an unsigned count, and a count of
the width or more gives 0, or the sign for VSRA. R151 and R152: VCLZ counts leading zeros, VPOPC the bits set; VBFE
takes a field of A, extended as the tag says, and VBFI puts the low bits of A into a field of D. -/
def Obligations.BitResults : Prop :=
  (∀ (s : State) (w : Wave) (h : Hdr) (o : Alu3),
    let sends (i : Instr) (f : Env → Nat → W64) : Prop :=
      Issues s w i o.u → Sends s w i h o.u (aluLat o.u) fun e => resultOf e h o.u o.tag.wide o.d (f e)
    sends (.vand h o) (atWidth o (fun a b _ => a &&& b) (fun a b _ => a &&& b)) ∧
    sends (.vor h o) (atWidth o (fun a b _ => a ||| b) (fun a b _ => a ||| b)) ∧
    sends (.vxor h o) (atWidth o (fun a b _ => a ^^^ b) (fun a b _ => a ^^^ b)) ∧
    sends (.vshl h o) (atWidthB o (fun a b _ => a <<< b.toNat) (fun a b _ => a <<< b.toNat)) ∧
    sends (.vshr h o) (atWidthB o (fun a b _ => a >>> b.toNat) (fun a b _ => a >>> b.toNat)) ∧
    sends (.vsra h o) (atWidthB o (fun a b _ => a.sshiftRight b.toNat) (fun a b _ => a.sshiftRight b.toNat))) ∧
  (∀ (s : State) (w : Wave) (h : Hdr) (o : Alu2) (o3 : Alu3),
    let n := if o.tag.wide then 64 else 32
    let a (e : Env) (t : Nat) : W64 := e.src 0 o.tag.wide o.a t
    (Issues s w (.vclz h o) o.u → Sends s w (.vclz h o) h o.u (aluLat o.u) fun e =>
      resultOf e h o.u false o.d fun t => BitVec.ofNat 64 (leadingZeros n (a e t))) ∧
    (Issues s w (.vpopc h o) o.u → Sends s w (.vpopc h o) h o.u (aluLat o.u) fun e =>
      resultOf e h o.u false o.d fun t => BitVec.ofNat 64 ((List.range n).countP fun k => (a e t).getLsbD k)) ∧
    (Issues s w (.vbfe h o3) o3.u → Sends s w (.vbfe h o3) h o3.u (aluLat o3.u) fun e =>
      resultOf e h o3.u o3.tag.wide o3.d (atWidthB o3 (fun a b _ => extractField o3.tag.signed a b)
        (fun a b _ => extractField o3.tag.signed a b) e)) ∧
    (Issues s w (.vbfi h o3) o3.u → Sends s w (.vbfi h o3) h o3.u (aluLat o3.u) fun e =>
      resultOf e h o3.u o3.tag.wide o3.d (atWidthB o3 insertField insertField e)))

/-- R153: VSEL takes A where its predicate is 1 and B elsewhere, of its lane or, with U = 1, of the lowest thread
whose exec bit is 1; VMOV copies, and VMOVI writes its immediate, sign-extended to a pair. R155 and R156: PLOG looks
each thread's two predicates up in its table; PMOV moves a run of predicates into the low bits of a register of each
active thread and back, or one predicate's threads into a scalar pair and back. -/
def Obligations.MoveResults : Prop :=
  (∀ (s : State) (w : Wave) (h : Hdr) (o : SelOp) (o2 : Alu2) (m : MoviOp),
    (Issues s w (.vsel h o) o.o.u → Sends s w (.vsel h o) h o.o.u (aluLat o.o.u) fun e =>
      let pred (t : Nat) : Bool :=
        if o.o.u then (match lowBit w.execNow with | some l => w.rp e.c0 o.sp.toNat l | none => false)
        else w.rp (e.at_ t) o.sp.toNat t
      resultOf e h o.o.u o.o.tag.wide o.o.d fun t =>
        if pred t then e.src 0 o.o.tag.wide o.o.a t else e.src 1 o.o.tag.wide o.o.b t) ∧
    (Issues s w (.vmov h o2) o2.u → Sends s w (.vmov h o2) h o2.u (aluLat o2.u) fun e =>
      resultOf e h o2.u false o2.d fun t => e.src 0 false o2.a t) ∧
    (Issues s w (.vmovi h m) m.u → Sends s w (.vmovi h m) h m.u (aluLat m.u) fun e =>
      resultOf e h m.u m.wide m.d fun _ => m.imm.signExtend 64)) ∧
  (∀ (s : State) (w : Wave) (h : Hdr),
    (∀ o : PlogOp, Issues s w (.plog h o) o.u → Sends s w (.plog h o) h o.u (aluLat o.u) fun e =>
      let ts := if o.u then (if w.uGuard h e.c0 then bitsOf w.present else []) else bitsOf (w.active h e.c0)
      [.p o.d.toNat (maskOf ts) (maskOf (ts.filter fun t =>
        o.lut.getLsbD (2 * (w.rp (e.at_ t) o.a.toNat t).toNat + (w.rp (e.at_ t) o.b.toNat t).toNat)))]) ∧
    (∀ o : PmovOp, Issues s w (.pmov h o) o.u → Sends s w (.pmov h o) h o.u (aluLat o.u) fun e =>
      let p := o.p.toNat
      let n := o.cnt.toNat + 1
      match o.dir, o.u with
      | .tor d, true => resultOf e h true true d fun _ => w.rpMask e.c0 p
      | .tor d, false => resultOf e h false false d fun t => maskOf ((List.range n).filter fun k => w.rp (e.at_ t) (p + k) t)
      | .fromr a, true => if w.uGuard h e.c0 then [.p p w.present (e.src 0 true a 0)] else []
      | .fromr a, false => (List.range n).map fun k =>
          .p (p + k) (maskOf (bitsOf (w.active h e.c0)))
            (maskOf ((bitsOf (w.active h e.c0)).filter fun t => (e.src 0 false a t).getLsbD k))))

/-- R154 and R165: VCMP and FCMP write their predicate in the active threads from the compare of each, or, with U =
1, one compare into every thread that exists. R157 and R158: VBINT interleaves bit by bit, and VBDEI takes one phase
out of an interleaved value. -/
def Obligations.CompareResults : Prop :=
  (∀ (s : State) (w : Wave) (h : Hdr) (o : CmpOp) (f : FCmpOp),
    let puts (e : Env) (u : Bool) (pd : BitVec 7) (c : Nat → Bool) : List Put :=
      if u then (if w.uGuard h e.c0 then [.p pd.toNat w.present (if c 0 then w.present else 0)] else [])
      else [.p pd.toNat (w.active h e.c0) (maskOf ((bitsOf (w.active h e.c0)).filter c))]
    let g := o.tag.signed
    let le (a b : Int) : Bool := match o.cond with
      | .eq => a = b | .ne => a ≠ b | .lt => a < b | .le => a ≤ b | .gt => a > b | .ge => a ≥ b
    (Issues s w (.vcmp h o) o.u → Sends s w (.vcmp h o) h o.u (aluLat o.u) fun e =>
      puts e o.u o.pd fun t =>
        if o.tag.wide then le (intOf g (src64 e 0 o.a t)) (intOf g (src64 e 1 o.b t))
        else le (intOf g (src32 e 0 o.a t)) (intOf g (src32 e 1 o.b t))) ∧
    (Issues s w (.fcmp h f) f.u → Sends s w (.fcmp h f) h f.u (aluLat f.u) fun e =>
      puts e f.u f.pd fun t =>
        fcmp f.cond (fp32.val (e.src 0 false f.a t).toNat) (fp32.val (e.src 1 false f.b t).toNat))) ∧
  (∀ (s : State) (w : Wave) (h : Hdr),
    (∀ o : BintOp, Issues s w (.vbint h o) o.o.u → ∃ f : Env → Nat → W64,
      (Sends s w (.vbint h o) h o.o.u (aluLat o.o.u) fun e => resultOf e h o.o.u o.o.tag.wide o.o.d (f e)) ∧
      ∀ e t i k, k < (if o.three then 3 else 2) →
        (f e t).getLsbD ((if o.three then 3 else 2) * i + k) = (decide (i < bintBits o.three o.o.tag.wide) &&
          ((if k = 0 then src32 e 0 o.o.a t else if k = 1 then src32 e 1 o.o.b t else lo32 (e.old false o.o.d t)).getLsbD i))) ∧
    (∀ o : BdeiOp, Issues s w (.vbdei h o) o.o.u → ∃ f : Env → Nat → W64,
      (Sends s w (.vbdei h o) h o.o.u (aluLat o.o.u) fun e => resultOf e h o.o.u false o.o.d (f e)) ∧
      ∀ e t i, (f e t).getLsbD i = (decide (i < bintBits o.three o.o.tag.wide) &&
        (e.src 0 o.o.tag.wide o.o.a t).getLsbD ((if o.three then 3 else 2) * i + o.sel.toNat))))

/-! ### Floating point and conversion -/

/-- R162, R163, R82: each lane of FADD, FSUB, FMUL and FFMA is the exact result rounded once by RND; FRND rounds to
an integral value. R164: FMIN and FMAX, with and without propagation of NaN. R166 and R91: HADD2, HMUL2 and HFMA2
work on the two halves apart; .f16 rounds once by RND, .bf16 rounds to FP32 and then to BF16, both to nearest even.
-/
def Obligations.FloatResults : Prop :=
  (∀ (s : State) (w : Wave) (h : Hdr) (o : FAlu3) (r : FRndOp),
    let a (e : Env) (t : Nat) := fp32.val (src32 e 0 o.a t).toNat
    let b (e : Env) (t : Nat) := fp32.val (src32 e 1 o.b t).toNat
    let d (e : Env) (t : Nat) := fp32.val (lo32 (e.old false o.d t)).toNat
    let sends (i : Instr) (f : Env → Nat → Val) : Prop :=
      Issues s w i o.u → Sends s w i h o.u (aluLat o.u) fun e =>
        resultOf e h o.u false o.d fun t => BitVec.ofNat 64 (fp32.round o.rnd (f e t))
    sends (.fadd h o) (fun e t => (a e t).add o.rnd (b e t)) ∧
    sends (.fsub h o) (fun e t => (a e t).add o.rnd (b e t).neg) ∧
    sends (.fmul h o) (fun e t => (a e t).mul (b e t)) ∧
    sends (.ffma h o) (fun e t => (a e t).fma o.rnd (b e t) (d e t)) ∧
    (Issues s w (.frnd h r) r.u → Sends s w (.frnd h r) h r.u (aluLat r.u) fun e =>
      resultOf e h r.u false r.d fun t =>
        BitVec.ofNat 64 (fp32.round r.rnd ((fp32.val (e.src 0 false r.a t).toNat).integral r.rnd)))) ∧
  (∀ (s : State) (w : Wave) (h : Hdr) (o : FMinOp),
    let sends (i : Instr) (isMax : Bool) : Prop :=
      Issues s w i o.u → Sends s w i h o.u (aluLat o.u) fun e =>
        resultOf e h o.u false o.d fun t => BitVec.ofNat 64
          (let a := (src32 e 0 o.a t).toNat
           let b := (src32 e 1 o.b t).toNat
           if (fp32.val a).isNan || (fp32.val b).isNan then
             (if o.prop || ((fp32.val a).isNan && (fp32.val b).isNan) then 0x7FC00000
              else if (fp32.val a).isNan then b else a)
           else fminmax fp32 isMax o.prop a b)
    sends (.fmin h o) false ∧ sends (.fmax h o) true) ∧
  (∀ (s : State) (w : Wave) (h : Hdr) (o : HAlu),
    let fmt := if o.bf then bf16 else fp16
    let half (x : W32) (k : Nat) : Val := fmt.val (x.extractLsb' (16 * k) 16).toNat
    let round (v : Val) : Nat := if o.bf then bf16.round .rne (fp32.val (fp32.round .rne v)) else fp16.round o.rnd v
    let sends (i : Instr) (f : Val → Val → Val → Val) : Prop :=
      Issues s w i o.u → Sends s w i h o.u (aluLat o.u) fun e =>
        resultOf e h o.u false o.d fun t =>
          let el (k : Nat) : Nat := round (f (half (src32 e 0 o.a t) k) (half (src32 e 1 o.b t) k)
            (half (lo32 (e.old false o.d t)) k))
          BitVec.ofNat 64 (el 0 + el 1 * 2 ^ 16)
    sends (.hadd2 h o) (fun x y _ => x.add o.rnd y) ∧ sends (.hmul2 h o) (fun x y _ => x.mul y) ∧
    sends (.hfma2 h o) (fun x y z => x.fma o.rnd y z))

/-- R167–R169: the special functions read their source in the beats and write every active thread at a later cycle:
each starts one access that holds the results. R168 and R178: the special-function and cross-lane units write their
results in issue order: the oldest access of its wave and unit, once it may complete, lands what it holds, and a
later one changes nothing. -/
def Obligations.SpecialResults : Prop :=
  (∀ (s : State) (w : Wave) (h : Hdr) (o : SfuOp),
    let starts (i : Instr) (f : Sfu) : Prop := Issues s w i false → Starts s w i h false fun e a =>
      a.op = .sfu ∧ a.puts = [.v o.d.toNat ((bitsOf (w.active h e.c0)).map fun t => (t, sfu f (e.v32 0 o.a t)))]
    starts (.frcp h o) .rcp ∧ starts (.frsq h o) .rsq ∧ starts (.fsqrt h o) .sqrt ∧ starts (.fex2 h o) .ex2 ∧
    starts (.flg2 h o) .lg2 ∧ starts (.fsin h o) .sin ∧ starts (.fcos h o) .cos ∧ starts (.ftanh h o) .tanh) ∧
  (∀ (s : State) (id : Nat) (a : Acc),
    let writes (i : Instr) (k : AccOp) : Prop := s.ripe id (· = k) = some a →
      (s.oldest a = true → exec i s = .next (ended s a a.puts)) ∧ (s.oldest a = false → exec i s = .next s)
    writes (.sfuResultWrite id) .sfu ∧ writes (.crossLaneResultWrite id) .xlane)

/-- R170–R175: CVT converts one element and keeps the others of its destination, QNT scales by a power of two and
converts, MXSC gives a block's scale, and UNPACK6 takes an L6 code out of a group; a lane that saturates sets its
class's sticky flag when the result is written. R174: PACK6 writes the lowest thread of each quad, if it is active,
with the quad's four codes in bits 23–0; an inactive thread gives code 0, and a code is the low six bits of a
register or an FP32 value converted. That an L6 code of 0 with its sign set reads as +0, in CVT and UNPACK6.f32 alike, where R87
says only that it is zero, is the model's choice (log 14). -/
def Obligations.ConversionResults : Prop :=
  (∀ (s : State) (w : Wave) (h : Hdr) (c : CvtOp) (q : QntOp) (m : MxscOp) (x : Unpack6Op),
    let puts (e : Env) (wide : Bool) (d : BitVec 9) (f : Nat → W64 × Byte) : List Put :=
      let ts := bitsOf (w.active h e.c0)
      let sat : Byte := ts.foldl (fun b t => b ||| (f t).2) 0
      putV wide d.toNat (ts.map fun t => (t, (f t).1)) ++ (if sat = 0 then [] else [.sat sat])
    let keep (wd k : Nat) (old x : Nat) : W64 := BitVec.ofNat 64 (if wd < 32 then putEl wd k old x else x)
    (Issues s w (.cvt h c) false → Sends s w (.cvt h c) h false 4 fun e =>
      let wd := tagElemW c.dst
      let ws := tagElemW c.src
      puts e (wd = 64) c.d fun t =>
        let v := if ws = 64 then (e.v64 0 c.a t).toNat else (e.v32 0 c.a t).toNat / 2 ^ (ws * c.sela.toNat) % 2 ^ ws
        let y := convertTag c.dst c.src c.rnd v
        (keep wd c.seld.toNat (e.v32 2 (.v c.d) t).toNat y.1, y.2)) ∧
    (Issues s w (.qnt h q) false → Sends s w (.qnt h q) h false 4 fun e =>
      puts e false q.d fun t =>
        let y := convert q.dst q.rnd (unscale ((e.v32 1 q.b t).toNat % 256) (fp32.val (e.v32 0 q.a t).toNat))
        (BitVec.ofNat 64 (putEl (tagElemW q.dst) q.seld.toNat (e.v32 2 (.v q.d) t).toNat y.1), y.2)) ∧
    (Issues s w (.mxsc h m) false → Sends s w (.mxsc h m) h false 4 fun e =>
      puts e false m.d fun t =>
        let y := mxScale (if m.mx4 then 2 else 8) (fp32.val (e.v32 0 m.a t).toNat)
        (BitVec.ofNat 64 (putEl 8 m.seld.toNat (e.v32 2 (.v m.d) t).toNat y.1), y.2)) ∧
    (Issues s w (.unpack6 h x) false → Sends s w (.unpack6 h x) h false 4 fun e =>
      puts e false x.d fun t =>
        let g := (e.v32 0 x.a (if x.quad then t / 4 * 4 else t)).toNat
        let code := g / 2 ^ (6 * (if x.quad then t % 4 else x.sel.toNat)) % 64
        (BitVec.ofNat 64 (if x.toF32 then fp32.round .rne (l6val code) else code), 0))) ∧
  (∀ (s : State) (w : Wave) (h : Hdr) (o : Pack6Op), Issues s w (.pack6 h o) false →
    Sends s w (.pack6 h o) h false 4 fun e =>
      let code (t : Nat) : Nat × Byte :=
        if (w.active h e.c0).getLsbD t then
          (if o.fromF32 then convert .l6 o.rnd (fp32.val (e.v32 0 o.a t).toNat) else ((e.v32 0 o.a t).toNat % 64, 0))
        else (0, 0)
      let quads := (List.range (w.kern.width / 4)).map (4 * ·)
      let sat : Byte := (quads.flatMap fun m => (List.range 4).map fun k => (code (m + k)).2).foldl (· ||| ·) 0
      .v o.d.toNat ((quads.filter (w.active h e.c0).getLsbD).map fun m =>
        (m, BitVec.ofNat 32 ((code m).1 + (code (m + 1)).1 * 64 + (code (m + 2)).1 * 64 ^ 2 + (code (m + 3)).1 * 64 ^ 3))) ::
        (if sat = 0 then [] else [.sat sat]))

/-! ### Control -/

/-- R121 and R107: branches, calls and indirect jumps. A relative target is PC + 12 + 12 · sext(imm32); the link is
PC + 12; every address is modulo 2^64. R121: a taken transfer to a misaligned target raises cause 3, and one outside
the 51-bit space cause 5, with the target in TVAL, at the instruction itself and with none of its effects. That a
CALL, RET or JMPI with a false guard is no control transfer for the distance of R107 is the model's choice (log 46). -/
def Obligations.ControlTransfers : Prop :=
  (∀ (s : State) (w : Wave) (h : Hdr) (imm : W32) (p : PairSrc) (a d : BitVec 8) (l : Option (BitVec 8)),
    let rel (_ : Env) : W64 := w.pc + 12 + 12 * imm.signExtend 64
    let on (e : Env) : Bool := w.uGuard h e.c0
    let pair (e : Env) (n : BitVec 8) : W64 := pair64 (w.rs e.c0 n.toNat) (w.rs e.c0 (n.toNat + 1))
    let cond (e : Env) : W64 := match p with | .s n => pair e n | .exec => w.execNow
    (Issues s w (.bra h imm) true → Transfers s w (.bra h imm) h on rel none) ∧
    (Issues s w (.bz h p imm) true → Transfers s w (.bz h p imm) h (fun e => on e && cond e = 0) rel none) ∧
    (Issues s w (.bnz h p imm) true → Transfers s w (.bnz h p imm) h (fun e => on e && cond e ≠ 0) rel none) ∧
    (Issues s w (.call h d imm) true → Transfers s w (.call h d imm) h on rel (some d)) ∧
    (Issues s w (.ret h a) true → Transfers s w (.ret h a) h on (fun e => pair e a) none) ∧
    (Issues s w (.jmpi h l a) true → Transfers s w (.jmpi h l a) h on (fun e => pair e a) l)) ∧
  (∀ (s : State) (w : Wave) (h : Hdr) (imm : W32) (p : PairSrc) (d a : BitVec 8) (l : Option (BitVec 8)),
    let pair (n : BitVec 8) : W64 := pair64 (w.rs (s.cyc w.id.core) n.toNat) (w.rs (s.cyc w.id.core) (n.toNat + 1))
    let cond : W64 := match p with | .s n => pair n | .exec => w.execNow
    let x := w.pc + 12 + 12 * imm.signExtend 64
    let traps (i : Instr) (x : W64) : Prop := Issues s w i true → w.uGuard h (s.cyc w.id.core) = true →
      (bits x 1 0 ≠ 0 → exec i s = .next (s.trapAt w 3 w.pc x)) ∧
      (bits x 1 0 = 0 → bits x 63 51 ≠ 0 → exec i s = .next (s.trapAt w 5 w.pc x))
    traps (.bra h imm) x ∧ (cond = 0 → traps (.bz h p imm) x) ∧ (cond ≠ 0 → traps (.bnz h p imm) x) ∧
    traps (.call h d imm) x ∧ traps (.ret h a) (pair a) ∧ traps (.jmpi h l a) (pair a))

/-- R119, R124, R129, R130: NOP changes nothing; WAITC, once its flag reads n or less, completes in its issue cycle;
GETTIME writes the timebase, and CSRR and CSRW read and write a CSR, two cycles after issue, where their guard
holds; with a false guard they name no CSR and write nothing. R125 and R126: YIELD and SLEEP, where their guard
holds, leave the wave yielding, or waiting until its wake-up tick; both complete in c + 1. R125, R126 and R113: a
YIELD that has been served is over; a sleep ends once the timebase has reached its wake-up time; a wave of age 976
or more is aged. Each changes nothing else. That CSRR's value stands at its issue (log 12), and that a second YIELD
replaces the count of a first (log 11), are the model's choices. -/
def Obligations.ScalarControl : Prop :=
  (∀ (s : State) (w : Wave) (h : Hdr) (u : Bool) (f : BitVec 4) (n : BitVec 6) (r : BitVec 8) (k : BitVec 12) (a : SSrc),
    let on (e : Env) (ps : List Put) : List Put := if w.uGuard h e.c0 then ps else []
    (Issues s w (.nop h u) u → Sends s w (.nop h u) h u 1 fun _ => []) ∧
    (Issues s w (.waitc h f n) true → w.flag f.toNat ≤ n.toNat → Sends s w (.waitc h f n) h true 0 fun _ => []) ∧
    (Issues s w (.gettime h r) true → Sends s w (.gettime h r) h true 2 fun e =>
      on e [.s r.toNat (lo32 s.timebase), .s (r.toNat + 1) (hi32 s.timebase)]) ∧
    (∀ x, Issues s w (.csrr h r k) true → csrRead (envOf s w (.csrr h r k) true) k.toNat = some x →
      Sends s w (.csrr h r k) h true 2 fun e => on e [.s r.toNat x]) ∧
    (Issues s w (.csrw h k a) true → (csrRead (envOf s w (.csrw h k a) true) k.toNat).isSome → csrRw k.toNat = true →
      Sends s w (.csrw h k a) h true 2 fun e => on e [.csr k.toNat (e.s32 0 a)]) ∧
    (w.uGuard h (s.cyc w.id.core) = false →
      (Issues s w (.csrr h r k) true → Sends s w (.csrr h r k) h true 2 fun _ => []) ∧
      (Issues s w (.csrw h k a) true → Sends s w (.csrw h k a) h true 2 fun _ => []))) ∧
  (∀ (s : State) (w : Wave) (h : Hdr) (n : BitVec 8) (imm : W32),
    let does (i : Instr) (x : Wave) : Prop := Issues s w i true →
      let e := envOf s w i true
      ∃ t w', exec i s = .next t ∧ issued s w e h t w' ∧ waveFrame (if w.uGuard h e.c0 then x else w) w' ∧
        w'.pend = w.pend ++ countdown h (e.c + 1) ∧ t = { s with waves := t.waves, cores := slotHeld s w e }
    does (.yield h n) { w with yield := n.toNat + 2 } ∧
    does (.sleep h imm) { w with wait := .sleep (s.timebase + imm.zeroExtend 64) }) ∧
  (∀ (s : State) (w : Wave), s.wave? w.id = some w →
    let does (i : Instr) (x : Wave) : Prop := ∃ t, exec i s = .next t ∧ t.wave? w.id = some x ∧
      (∀ k, k ≠ w.id → t.wave? k = s.wave? k) ∧ t = { s with waves := t.waves }
    (w.yield = 1 → does (.yieldExpiry w.id) { w with yield := 0 }) ∧
    (∀ tick, w.wait = .sleep tick → tick ≤ s.timebase → s.saving w.grp.part = false →
      does (.sleepWake w.id) { w with wait := .none }) ∧
    (976 ≤ w.age → does (.waveAged w.id) { w with aged := true }))

/-- R37 and R128: EXGET writes the exec mask, and PMASK in bit t of the pair exec[t] AND P(p, t) for the threads of
the wave's width and 0 above, as both stand at issue, in cycle c + 2. -/
def Obligations.ExecMaskReads : Prop :=
  ∀ (s : State) (w : Wave) (h : Hdr) (d : BitVec 8) (p : BitVec 7),
    let on (e : Env) (m : W64) : List Put := if w.uGuard h e.c0 then [.s d.toNat (lo32 m), .s (d.toNat + 1) (hi32 m)] else []
    (Issues s w (.exget h d) true → Sends s w (.exget h d) h true 2 fun e => on e w.exec) ∧
    (Issues s w (.pmask h d p) true → ∃ m : W64, (Sends s w (.pmask h d p) h true 2 fun e => on e m) ∧
      ∀ t, t < 64 → m.getLsbD t =
        (decide (t < w.kern.width) && w.exec.getLsbD t && w.rp (s.cyc w.id.core) p.toNat t))

/-- R127 and R23: EXSET writes exec at its own issue, so that the next instruction sees it; a bit that names an
absent thread is 0. -/
def Obligations.ExecMaskWrites : Prop :=
  ∀ (s : State) (w : Wave) (h : Hdr) (op : ExOp) (a : PairSrc), Issues s w (.exset h op a) true →
    let e := envOf s w (.exset h op a) true
    let m : W64 := match a with
      | .s n => pair64 (w.rs e.c0 n.toNat) (w.rs e.c0 (n.toNat + 1))
      | .exec => w.execNow
    let x : W64 := match op with
      | .set => m | .and => w.exec &&& m | .andn => w.exec &&& ~~~m | .or => w.exec ||| m
    ∃ t w', exec (.exset h op a) s = .next t ∧
      goesTo s w e h (if w.inPath then w.pc else w.pc + 12) t w' ∧
      waveFrame { w with exec := if w.uGuard h e.c0 then x &&& w.present else w.exec } w' ∧
      w'.pend = w.pend ++ countdown h (e.c + 1)

/-- R39, R122 and R123: EXIT of a wave whose flags all read 0 and that owns no tile ends the wave, which its group
counts as exited; a wave that still has a flag set does not issue it. R40 and R122: EXIT.succ restarts the wave at
ENTRY + 12 · OFFSET of its successor, with exec as placed, with the low K vector registers and all scalars, handles,
sticky flags and counters as they were; other vector registers and every predicate read 0, and the queue ports hold
no entry to pop. That an outstanding access still writes what the restart keeps, and no more (log 19), and that the
number of registers checked is M.K where KOVR is 1 and KEEP where it is 0 (log 10), are read as the logs say. -/
def Obligations.Exits : Prop :=
  (∀ (s : State) (w : Wave) (g : Group) (h : Hdr), Issues s w (.exit h) true →
    let e := envOf s w (.exit h) true
    s.group? w.grp = some g → w.uGuard h e.c0 = true → e.ownsTile = false →
    (w.flagsZero = true → ∃ t w' g', exec (.exit h) s = .next t ∧ t.wave? w.id = some w' ∧ w'.life = .exited ∧
      w'.pc = w.pc ∧ w'.q = [] ∧ w'.pend = [] ∧ w'.v = w.v ∧ w'.s = w.s ∧ w'.p = w.p ∧ w'.stalls = w.stalls ∧
      t.group? w.grp = some g' ∧ g' = { g with exited := g.exited + 1, lastExit := g'.lastExit } ∧
      (∀ k, k ≠ w.id → t.wave? k = s.wave? k) ∧ (∀ k, k ≠ w.grp → t.group? k = s.group? k) ∧
      t.posts = s.posts ++ w.lasting ∧
      t = { s with waves := t.waves, groups := t.groups, posts := t.posts, cores := slotHeld s w e }) ∧
    (w.flagsZero = false → exec (.exit h) s = .next s)) ∧
  (∀ (s : State) (w : Wave) (h : Hdr) (idx : BitVec 2) (kovr : Bool) (k : BitVec 9) (keep off : Nat),
    let i : Instr := .exitSucc h idx kovr k
    let e := envOf s w i true
    Issues s w i true → w.kern.succ[idx.toNat]? = some (some (keep, off)) →
    let n := if kovr then k.toNat else keep
    n % 8 = 0 → n ≤ w.kern.vregs → w.uGuard h e.c0 = true → e.ownsTile = false → w.flagsZero = true →
    ∃ t w', exec i s = .next t ∧ t.wave? w.id = some w' ∧ w'.life = .live ∧
      w'.pc = w.kern.entry + 12 * BitVec.ofNat 64 off ∧ w'.exec = w.present ∧ w'.pathidx = 0xFFFF ∧
      (∀ x, x ∈ w'.v ↔ x ∈ w.v ∧ x.1 / 64 < n) ∧ w'.s = w.s ∧ w'.p = [] ∧ w'.h = w.h ∧ w'.hpend = w.hpend ∧
      w'.sat = w.sat ∧ w'.arm = w.arm ∧ w'.stalls = w.stalls ∧ w'.wcyc = w.wcyc ∧ w'.tr = w.tr ∧
      (∀ q, q ∈ w'.q → q.live = []) ∧ (∀ x, x ≠ w.id → t.wave? x = s.wave? x) ∧
      t.accs = upd (fun a => a.uid = w.uid) (fun a => { a with lim := some (min n (a.lim.getD n)) }) s.accs ∧
      recordFrame { s with accs := t.accs } t)

/-! ### Cross-lane work -/

/-- R178–R184: the cross-lane instructions hold what they will write from their issue on: SHFL the element of the
thread its mode names, 0 where that thread does not exist; RDLANE and WRLANE one thread's element; VRED one value;
VSCAN one per active thread; VMATCH the mask of the active threads with an equal key. That RDLANE and WRLANE read S(b),
and WRLANE S(a), in the first beat (log 15), and that VRED and VSCAN over .f32 give the canonical NaN for a NaN even where a
single thread is active (log 45), are the model's choices. -/
def Obligations.CrossLane : Prop :=
  ∀ (s : State) (w : Wave) (h : Hdr),
    let starts (i : Instr) (ps : Env → List Put) : Prop := Issues s w i false → Starts s w i h false fun e a =>
      a.op = .xlane ∧ a.puts = ps e
    let act (e : Env) : List Nat := bitsOf (w.active h e.c0)
    (∀ o : ShflOp, starts (.shfl h o) fun e => putV o.wide o.d.toNat ((act e).map fun l =>
      let t := shflSrc o.mode (2 ^ o.seg.toNat) l (lo32 (e.src 1 o.wide (.vec o.b) l)).toNat
      (l, if w.present.getLsbD t then e.src 0 o.wide (.vec o.a) t else 0))) ∧
    (∀ o : RdlaneOp, starts (.rdlane h o) fun e =>
      let i := (w.rs e.c0 o.b.toNat).toNat % 64
      if w.uGuard h e.c0 then putS o.wide o.d.toNat
        (if i < w.kern.width ∧ w.present.getLsbD i then e.src 0 o.wide (.vec (.v o.a)) i else 0) else []) ∧
    (∀ o : WrlaneOp, starts (.wrlane h o) fun e =>
      let i := (w.rs e.c0 o.b.toNat).toNat % 64
      if w.uGuard h e.c0 ∧ i < w.kern.width ∧ w.present.getLsbD i then
        putV o.wide o.d.toNat [(i, e.src 0 o.wide (.sca (.s o.a)) 0)] else []) ∧
    (∀ o : VredOp, starts (.vred h o) fun e =>
      putS o.tag.wide o.d.toNat (redOut o.tag ((treeFold (redComb o.rop o.tag o.rnd) 6 ((List.range 64).map fun t =>
        if (w.active h e.c0).getLsbD t then some (e.src 0 o.tag.wide (.vec o.a) t).toNat else none)).getD
          (redIdent o.rop o.tag)))) ∧
    (∀ o : VscanOp, starts (.vscan h o) fun e =>
      putV o.tag.wide o.d.toNat ((scanFold (redComb o.rop o.tag o.rnd) (redIdent o.rop o.tag) none ((act e).map fun t =>
        (t, (e.src 0 o.tag.wide (.vec o.a) t).toNat))).map fun r => (r.1, redOut o.tag (if o.excl then r.2.2 else r.2.1)))) ∧
    (∀ o : VmatchOp, starts (.vmatch h o) fun e =>
      putV true o.d.toNat ((act e).map fun t => (t, maskOf ((act e).filter fun l =>
        keyEq o.tag (e.src 0 o.tag.wide (.vec o.a) t) (e.src 0 o.tag.wide (.vec o.a) l)))))

/-- R182 and R181: over integers of either width the tree of VRED gives what folding the active threads' elements in
any order gives: their sum modulo 2^w, the least and the greatest of them as the tag reads them, and their bitwise
AND, OR and XOR. -/
def Obligations.IntegerReductionOrder : Prop :=
  ∀ (op : RedOp) (t : Tag) (m : Rnd) (xs : List (Option Nat)) (ys : List Nat), op.tagOk t = true →
    (op = .add ∨ op = .min ∨ op = .max ∨ op = .and ∨ op = .or ∨ op = .xor) →
    xs.length = 64 → (∀ x, some x ∈ xs → x < 2 ^ tagW t) → ys.Perm (xs.filterMap id) →
    let rd (x : Nat) : Int := readInt t (tagW t) (BitVec.ofNat 64 x)
    (treeFold (redComb op t m) 6 xs = match ys with
      | [] => none
      | y :: l => some (l.foldl (redComb op t m) y)) ∧
    ∀ r, treeFold (redComb op t m) 6 xs = some r →
      (op = .add → r = ys.sum % 2 ^ tagW t) ∧
      (op = .min → r ∈ ys ∧ ∀ y ∈ ys, rd r ≤ rd y) ∧
      (op = .max → r ∈ ys ∧ ∀ y ∈ ys, rd y ≤ rd r) ∧
      (op = .and → ∀ k, r.testBit k = ys.all fun y => y.testBit k) ∧
      (op = .or → ∀ k, r.testBit k = ys.any fun y => y.testBit k) ∧
      (op = .xor → ∀ k, r.testBit k = decide ((ys.countP fun y => y.testBit k) % 2 = 1))

/-! ### Scalar loads, queue ports and global memory -/

/-- R159–R161: SLDK.arg holds the bytes of the launch's argument block at its offset; SLDK.const is one weak load at
CONST + imm32, in bytes where that is no multiple of its size; both write a scalar register or pair when they
complete. R241–R243: a global load of any form that passes its checks starts one access with a lane per active
thread, at the translation of A + (B << SCL) + off · size, and with a queue destination it reserves an entry of the
port at the same time. -/
def Obligations.Loads : Prop :=
  (∀ (s : State) (w : Wave) (h : Hdr) (wide : Bool) (d : BitVec 8) (imm : W32),
    let size := if wide then 8 else 4
    (∀ l, Issues s w (.sldkArg h wide d imm) true → s.launch? w.grp.part w.grp.lid = some l →
      w.uGuard h (s.cyc w.id.core) = true → imm.toNat % size = 0 → imm.toNat + size ≤ l.args.length →
      Starts s w (.sldkArg h wide d imm) h true fun _ a =>
        a.op = .sldk ∧ a.lanes = [] ∧
        a.puts = putS wide d.toNat (BitVec.ofNat 64 (leNat ((l.args.drop imm.toNat).take size)))) ∧
    (∀ ps, Issues s w (.sldkConst h wide d imm) true → w.reissue = none →
      let x := w.kern.const + imm.zeroExtend 64
      let unit := if x.toNat % size = 0 then size else 1
      let xs := (List.range (size / unit)).map fun k => (k, x + BitVec.ofNat 64 k)
      w.uGuard h (s.cyc w.id.core) = true → s.memHold w = false → imm.toNat % size = 0 → bits x 63 51 = 0 →
      s.watchChk (envOf s w (.sldkConst h wide d imm) true) true false false size [(0, x)] .ok = .ok →
      s.xlate (some w.id.core) w.grp.part .read unit xs = .ok ps →
      Starts s w (.sldkConst h wide d imm) h true fun _ a =>
        a.op = .sldk ∧ a.ord = .weak ∧ a.dst = .s d.toNat wide ∧
        a.tag = (if unit = 1 then .n8 else if wide then .b64 else .b32) ∧
        a.lanes.map (fun l => (l.t, l.va, l.pa, l.l1)) = ps.map fun y => (y.1, y.2.1, y.2.2.1, s.l1able y.2.2.1 y.2.2.2))) ∧
  (∀ (s : State) (w : Wave) (h : Hdr) (o : GlMem) (ps : List (Nat × W64 × Nat × Bool)),
    let i : Instr := .ldg h o
    let e := envOf s w i false
    let size := sizeOf' o.tag
    let addr (t : Nat) : W64 :=
      e.v64 0 o.a t + ((if o.isgn then (e.v32 1 o.b t).signExtend 64 else (e.v32 1 o.b t).zeroExtend 64) <<< o.scl.toNat) +
        o.off.signExtend 64 * BitVec.ofNat 64 size
    let xs := (bitsOf (w.active h e.c0)).map fun t => (t, addr t)
    Issues s w i false → w.reissue = none → globalChk s e .read true size xs = .ok →
    s.xlate (some w.id.core) w.grp.part .read size xs = .ok ps →
    Starts s w i h false (fun _ a =>
      a.op = .load ∧ a.tag = o.tag ∧ a.ord = o.ord ∧ a.sco = o.sco ∧ a.dst = accDst o.d o.tag.wide ∧
      a.lanes.map (fun l => (l.t, l.va, l.pa)) = ps.map fun x => (x.1, x.2.1, x.2.2.1)) ∧
    (∀ n, o.d = .q n → n.toNat < w.q.length → ∃ t w' q x, exec i s = .next t ∧ t.wave? w.id = some w' ∧
      w'.q[n.toNat]? = some q ∧ q.entries.getLast? = some x ∧
      x = { acc := s.nextSeq, wide := o.tag.wide, vals := [], got := none, dropped := false, poison := none }))

/-- R241, R244, R246: a store, an atomic or a reduction that passes its checks starts one access with a lane per
active thread and the operands of that thread, and changes no byte of memory at its issue. -/
def Obligations.GlobalStores : Prop :=
  ∀ (s : State) (w : Wave) (h : Hdr) (o : GlMem) (b : GlAtom) (ps : List (Nat × W64 × Nat × Bool)),
    w.reissue = none →
    let lanes (e : Env) (d : Dst) (wide : Bool) (a : Acc) : Prop :=
      a.lanes.map (fun l => (l.t, l.va, l.pa, l.data)) = ps.map fun x => (x.1, x.2.1, x.2.2.1, e.old wide d x.1)
    (Issues s w (.stg h o) false →
      let e := envOf s w (.stg h o) false
      globalChk s e .write false (sizeOf' o.tag) (glAddrs e h o) = .ok →
      s.xlate (some w.id.core) w.grp.part .write (sizeOf' o.tag) (glAddrs e h o) = .ok ps →
      Starts s w (.stg h o) h false fun e a => a.op = .store ∧ a.tag = o.tag ∧ a.ord = o.ord ∧ a.sco = o.sco ∧
        a.dst = .none ∧ lanes e o.d o.tag.wide a) ∧
    (Issues s w (.atom h b) false →
      let e := envOf s w (.atom h b) false
      globalChk s e .atomic true (sizeOf' b.tag) (atomAddrs e h b) = .ok →
      s.xlate (some w.id.core) w.grp.part .atomic (sizeOf' b.tag) (atomAddrs e h b) = .ok ps →
      Starts s w (.atom h b) h false fun e a => a.op = .atom b.op ∧ a.tag = b.tag ∧ a.ord = b.ord ∧ a.sco = b.sco ∧
        a.dst = accDst b.d b.tag.wide ∧
        a.lanes.map (fun l => (l.t, l.va, l.pa, l.data)) =
          ps.map fun x => (x.1, x.2.1, x.2.2.1, e.src 1 b.tag.wide (.vec b.b) x.1)) ∧
    (Issues s w (.red h b) false →
      let e := envOf s w (.red h b) false
      globalChk s e .atomic false (sizeOf' b.tag) (atomAddrs e h b) = .ok →
      s.xlate (some w.id.core) w.grp.part .atomic (sizeOf' b.tag) (atomAddrs e h b) = .ok ps →
      Starts s w (.red h b) h false fun e a => a.op = .red b.op ∧ a.tag = b.tag ∧ a.ord = b.ord ∧ a.sco = b.sco ∧
        a.dst = .none ∧
        a.lanes.map (fun l => (l.t, l.va, l.pa, l.data)) =
          ps.map fun x => (x.1, x.2.1, x.2.2.1, e.src 1 b.tag.wide (.vec b.b) x.1))

/-- R85: a little-endian write of `n` bytes at `pa` gives byte i of the value at pa + i, and leaves every other byte
as it was. R85: what is written is read back, modulo the width; a read of bytes that a write does not touch is
unchanged. -/
def Obligations.MemoryBytes : Prop :=
  (∀ (s : State) (pa n x a : Nat), Memory.wf s.mem = true →
    (s.wrNat pa n x).rdByte a =
      if pa ≤ a ∧ a < pa + n then BitVec.ofNat 8 (x / 256 ^ (a - pa)) else s.rdByte a) ∧
  (∀ (s : State) (pa n x qa m : Nat), Memory.wf s.mem = true →
    (s.wrNat pa n x).rdNat pa n = x % 2 ^ (8 * n) ∧
    (qa + m ≤ pa ∨ pa + n ≤ qa → (s.wrNat pa n x).rdNat qa m = s.rdNat qa m))

/-- R244 and R194: one lane of an atomic or reduction, performed at its slice on a word that is not poisoned, keeps
the old value of the word for its thread and writes the new one, which the operation gives, and nothing else. R190
and R194: one lane at the bank ALU. A load takes the bytes of the window, extended by its tag; a store puts its
bytes; an atomic returns the old value and leaves the new one; each leaves every other byte of the window and every
other group as they were. -/
def Obligations.AtomicAlus : Prop :=
  (∀ (s : State) (a : Acc) (l : Lane) (op : AtomOp), Memory.wf s.mem = true → s.poisoned l.pa = false →
    (a.op = .atom op ∨ a.op = .red op) →
    let n := sizeOf' a.tag
    let old := s.rdNat l.pa n
    let r := s.perform a l
    r.1.res = BitVec.ofNat 64 old ∧ r.1.perf = true ∧
    r.2.rdNat l.pa n = atomNew op a.tag old l.data.toNat l.cmp.toNat % 2 ^ (8 * n) ∧
    (∀ x, x < l.pa ∨ l.pa + n ≤ x → r.2.rdByte x = s.rdByte x)) ∧
  (∀ (s : State) (a : Acc) (l : Lane) (g : Group), s.group? a.grp = some g → Memory.wf g.window = true →
    let n := sizeOf' a.tag
    let old := g.rdNat l.pa n
    let r := s.performSp a l
    (a.op = .spLoad → r.1.res = extend a.tag old ∧ r.2 = s) ∧
    (∀ op, a.op = .spStore ∧ op = .exch ∨ (a.op = .spAtom op ∨ a.op = .spRed op) →
      (a.op ≠ .spStore → r.1.res = BitVec.ofNat 64 old) ∧
      ∃ g', r.2.group? a.grp = some g' ∧ g' = { g with window := g'.window, flips := g'.flips } ∧
        g'.rdNat l.pa n = atomNew op a.tag old l.data.toNat l.cmp.toNat % 2 ^ (8 * n) ∧
        (∀ x, x < l.pa ∨ l.pa + n ≤ x → g'.window.get x = g.window.get x) ∧
        (∀ k, k ≠ a.grp → r.2.group? k = s.group? k) ∧ r.2 = { s with groups := r.2.groups }))

/-- R244: the event that performs one ready lane of an access of memory does so and marks the lane. R59, R238, R243
and R246: a load or atomic whose lanes have been performed lands its elements in its registers, in every thread of its
lanes, or, with a queue destination, makes its entry arrive; an acquire then takes its lines out of its core's L1. R245:
one that met poison writes no register and leaves cause 6 for the next boundary, and a queue entry arrives poisoned. A
store at .wave or .grp counts its flag down once it has left its core, before its home has it, and is outstanding
until its home has it; any other store, and a reduction of every scope, completes when every lane has been performed,
and is outstanding no more. None completes once an image has taken the partition's state (R372). What .wave and .grp
mean to a store's completion is read as log 28 says. -/
def Obligations.GlobalPerforms : Prop :=
  (∀ (s : State) (id t : Nat) (a : Acc) (l : Lane), s.acc? id = some a → a.op.sp = false →
    a.lanes.find? (fun x => x.t = t) = some l → s.laneReady a l = true →
    ∃ u, exec (.sliceAluPerform id t) s = .next u ∧ u.mem = (s.perform a l).2.mem ∧
      (∀ b, u.acc? id = some b → ∀ x ∈ b.lanes, x.t = t → x.perf = true)) ∧
  (∀ (s : State) (id : Nat) (a : Acc), s.acc? id = some a → a.ready ≤ s.cyc a.w.core → a.redo = false →
    (s.part a.grp.part).imaged = false → s.portsFree a = true → (a.left.isSome ∨ a.op.writes = false) →
    let got : Prop := a.op = .load ∨ ∃ op, a.op = .atom op
    let near : Prop := a.op = .store ∧ scopeFar a.sco = false
    let s1 : State := if a.ord = .acq ∨ a.ord = .ar then s.l1Acquire a.grp a.w.core a.sco else s
    (a.performed = true →
      (a.poisoned = none →
        (∀ r wide, a.dst = .v r wide → got →
          exec (.globalLoadComplete id) s = .next (ended s1 a (putV wide r (a.lanes.map fun l => (l.t, l.res))))) ∧
        (∀ r wide l, a.dst = .s r wide → a.op = .sldk → a.lanes = [l] →
          exec (.sldkComplete id) s = .next (ended s1 a (putS wide r l.res))) ∧
        (∀ r wide l x ls, a.dst = .s r wide → a.op = .sldk → a.lanes = l :: x :: ls →
          exec (.sldkComplete id) s =
            .next (ended s1 a (putS wide r (BitVec.ofNat 64 (leNat (a.lanes.map fun l => l.res.truncate 8))))))) ∧
      (a.op = .sldk → a.lanes = [] → exec (.sldkComplete id) s = .next (ended s a a.puts)) ∧
      (∀ va, a.poisoned = some va →
        let trapped : State := (ended s1 a []).modUid a.uid fun w =>
          if w.life = .exited then w else { w with due := w.due ++ [⟨6, va, none, 0⟩] }
        (a.op = .sldk → exec (.sldkComplete id) s = .next trapped) ∧
        (got → (∀ n wide, a.dst ≠ .q n wide) → exec (.globalLoadComplete id) s = .next trapped)) ∧
      (∀ n wide, a.dst = .q n wide → got →
        let vals : Sparse 64 := a.lanes.foldl (fun m l => m.set l.t l.res) []
        exec (.entryArrive id) s = .next ((ended s1 a []).modUid a.uid fun w =>
          if w.life = .exited then w
          else { w with q := w.q.modify n fun q => q.arrive a.id (s.cyc a.w.core) vals a.poisoned })) ∧
      (near → a.told = true → exec (.globalStorePerformed id) s = .next (s.dropAcc id)) ∧
      ((a.op = .store ∧ scopeFar a.sco = true ∨ ∃ op, a.op = .red op) → a.told = false →
        exec (.globalStorePerformed id) s = .next (ended s a []))) ∧
    (near → a.told = false → ∃ u, exec (.globalStorePerformed id) s = .next u ∧
      u = { ended s a [] with accs := upd (fun x => x.id = id) (fun x => { x with told := true }) s.accs }) ∧
    ((∃ op, a.op = .red op) → a.performed = false → (∀ l ∈ a.lanes, s.laneFree a l = false) →
      exec (.globalStorePerformed id) s = .next s)) ∧
  (∀ (s : State) (id : Nat) (a : Acc), s.acc? id = some a → (s.part a.grp.part).imaged = true →
    exec (.globalLoadComplete id) s = .next s ∧ exec (.sldkComplete id) s = .next s ∧ exec (.entryArrive id) s = .next s ∧
    exec (.globalStorePerformed id) s = .next s) ∧
  (∀ (s : State) (id : Nat) (a : Acc), s.ripe id (· = .store) = some a → scopeFar a.sco = false → a.told = false →
    a.left = none → s.orderOk a = true →
    ∃ u b, exec (.globalStorePerformed id) s = .next u ∧ u.mem = s.mem ∧ u.waves = (ended s a []).waves ∧
      u.acc? id = some b ∧ b = { a with left := some s.nextSeq, told := true })

/-- R247, R246, R234, R259: FENCE.rel completes in its issue cycle and orders what its wave and its engine commands
have not performed before later stores, at the scope that it names; the other fences start work that ends once what
they order is done, .ar and .sc ordering later stores as .rel does; an acquire of .clu or above empties its core's L1,
and one of .wave or .grp drops the lines that its group's engine commands have written. R248: CCTL.inv drops lines of
its core's L1, the whole of it without a range; .clean and .cleaninv write back every modified line of their range, and
no byte of memory that a program can read changes. That .inv acts at its issue, and the two others when they complete,
is the model's choice (log 54). R249: PREF completes in c + 1; it brings lines into its core's L1 or the SLC, from which
others may leave, back to their homes, and changes no byte of memory and nothing else, but that a line which a host
holds is asked for and comes later, as work of the access that PREF then leaves; one whose queue ports are
misused fetches nothing (log 87). -/
def Obligations.FencesAndCaches : Prop :=
  (∀ (s : State) (w : Wave) (h : Hdr) (o : FenceOp), Issues s w (.fence h o) true → s.memHold w = false →
    let e := envOf s w (.fence h o) true
    let busy (id : Nat) : Prop := (s.acc? id).isSome ∨ s.engineBusy id = true
    let pending (id : Nat) : Prop := (∃ a, a ∈ s.accs ∧ a.id = id ∧ a.uid = w.uid ∧ a.op.access = true ∧
        a.settled = false) ∨
      id ∈ s.engineIds w.uid
    let orders (w' : Wave) : Prop :=
      (∀ id, id ∈ w'.relAfter ↔ (id ∈ w.relAfter ∧ busy id) ∨ (scopeFar o.sco = true ∧ pending id)) ∧
      (∀ id, id ∈ w'.relNear ↔ (id ∈ w.relNear ∧ busy id) ∨ (scopeFar o.sco = false ∧ pending id))
    w.uGuard h e.c0 = true →
    ∃ t w', exec (.fence h o) s = .next t ∧ issued s w e h t w' ∧
      waveFrame { w with relAfter := w'.relAfter, relNear := w'.relNear } w' ∧
      (if o.kind = .acq then w'.relAfter = w.relAfter ∧ w'.relNear = w.relNear else orders w') ∧
      (o.kind = .rel → w'.pend = w.pend ++ countdown h e.c ∧ t = { s with waves := t.waves, cores := slotHeld s w e }) ∧
      (o.kind ≠ .rel → w'.pend = w.pend ∧ ∃ x, t = { s with
          waves := t.waves, accs := s.accs ++ [x], nextSeq := s.nextSeq + 1, cores := slotHeld s w e } ∧
        x.op = .fence o.kind ∧ x.sco = o.sco ∧ x.sf = h.sf ∧ x.uid = w.uid ∧ x.id = s.nextSeq ∧
        (o.kind = .sc → (∀ id, id ∈ x.after ↔ scopeFar o.sco = true ∧ pending id) ∧
          ∀ id, id ∈ x.near ↔ scopeFar o.sco = false ∧ pending id) ∧
        (o.kind ≠ .sc → x.near = [] ∧
          ∀ id, id ∈ x.after ↔ ∃ a, a ∈ s.accs ∧ a.id = id ∧ a.uid = w.uid ∧ a.op.loads = true))) ∧
  (∀ (s : State) (id : Nat) (a : Acc) (k : FenceKind),
    s.ripe id (fun op => match op with | .fence _ => true | _ => false) = some a → a.op = .fence k → s.fenceOk a = true →
    exec (.fenceComplete id) s = .next { ended s a [] with
      l1 := s.l1.filter fun l => ¬ (l.core = a.w.core ∧ (scopeFar a.sco = true ∨ l.eng.contains a.grp = true)) }) ∧
  (∀ (s : State) (w : Wave) (h : Hdr) (r : CctlRng) (x : Option CctlRng),
    let free (i : Instr) : Prop := Issues s w i true ∧ s.memHold w = false ∧ w.uGuard h (s.cyc w.id.core) = true
    let starts (i : Instr) (k : Nat) : Prop := Starts s w i h true fun _ a => a.op = .cctl k ∧ a.lanes = []
    let pair (n : BitVec 8) : W64 := pair64 (w.rs (s.cyc w.id.core) n.toNat) (w.rs (s.cyc w.id.core) (n.toNat + 1))
    (free (.cctlInv h x) → (x = none ∨ s.snoop = [] ∧ s.flip = none) → starts (.cctlInv h x) 0) ∧
    (free (.cctlClean h r) → starts (.cctlClean h r) 1) ∧ (free (.cctlCleaninv h r) → starts (.cctlCleaninv h r) 2) ∧
    (free (.cctlInv h none) → ∃ t, exec (.cctlInv h none) s = .next t ∧ t.l1 = s.l1.filter fun l => l.core ≠ w.id.core) ∧
    (free (.cctlInv h (some r)) → s.snoop = [] → s.flip = none → ∃ t, exec (.cctlInv h (some r)) s = .next t ∧
      t.l1 = s.l1.filter fun l => ¬ (l.core = w.id.core ∧
        inRanges (s.physRanges w.grp.part (pair r.a) (w.rs (s.cyc w.id.core) r.b.toNat).toNat) l.line = true)) ∧
    (∀ id a, s.ripe id (fun op => match op with | .cctl _ => true | _ => false) = some a → (a.op = .cctl 0 ∨ s.snoop = [] ∧ s.flip = none) →
      ∃ t, exec (.cctlComplete id) s = .next t ∧ t.mem = s.mem ∧ t.accs = s.accs.filter (fun y => y.id ≠ a.id) ∧
        t.waves = (ended s a []).waves ∧ t.l1 = s.l1 ∧
        (a.op ≠ .cctl 0 → ∀ l, l ∈ t.dirty ↔ l ∈ s.dirty ∧
          s.keyIn (s.physRanges a.grp.part (a.args.getD 0 0) (a.args.getD 1 0).toNat) l = false))) ∧
  (∀ (s : State) (w : Wave) (h : Hdr) (o : PrefOp),
    let e := envOf s w (.pref h o) false
    (Issues s w (.pref h o) false → s.memHold w = false →
      ∃ t w', exec (.pref h o) s = .next t ∧ issued s w e h t w' ∧ waveFrame w w' ∧
        w'.pend = w.pend ++ countdown h (e.c + 1) ∧
        (∃ xs, t.accs = s.accs ++ xs ∧ (∀ x ∈ xs, x.op = .pref ∧ x.uid = w.uid ∧ ∀ l ∈ x.lanes, s.snoopHeld l.pa false = true) ∧
          (s.snoop = [] → xs = [] ∧ t.nextSeq = s.nextSeq ∧ t.snoop = [])) ∧ t = { s with
          waves := t.waves, cores := slotHeld s w e, l1 := t.l1, slc := t.slc, home := t.home, dirty := t.dirty,
          flip := t.flip, fresh := t.fresh, out := t.out, accs := t.accs, nextSeq := t.nextSeq, snoop := t.snoop }) ∧
    (s.wave? s.cur = some w → w.life = .live → (Instr.pref h o).fits w.allot = true →
      (queueMisuse w (.pref h o) e.c0).isSome = true →
      ∃ t w', exec (.pref h o) s = .next t ∧ issued s w e h t w' ∧ waveFrame w w' ∧
        w'.pend = w.pend ++ countdown h (e.c + 1) ∧ t = { s with waves := t.waves, cores := slotHeld s w e }))

/-- R250 and R251: QSTAT takes its snapshot of a port at issue and writes it when it completes; QDROP drops the
oldest entries, all with N = 0, and completes in c + 1. -/
def Obligations.QueuePorts : Prop :=
  ∀ (s : State) (w : Wave) (h : Hdr) (d : BitVec 8) (q : BitVec 4) (n : BitVec 6),
    let port := w.q.getD q.toNat ⟨[], []⟩
    (Issues s w (.qstat h d q) true → Starts s w (.qstat h d q) h true fun e a =>
      a.op = .qstat ∧ a.puts = if w.uGuard h e.c0 then [.s d.toNat (qstatVal port w.kern.qd e.c0)] else []) ∧
    (∀ id a, s.ripe id (· = .qstat) = some a → exec (.qstatComplete id) s = .next (ended s a a.puts)) ∧
    (Issues s w (.qdrop h q n) true → w.uGuard h (s.cyc w.id.core) = true → n.toNat ≤ port.live.length →
      (Sends s w (.qdrop h q n) h true 1 fun _ => []) ∧
      ∃ t w', exec (.qdrop h q n) s = .next t ∧ t.wave? w.id = some w' ∧
        ((port.entries.map (·.acc)).Nodup →
          (w'.q.getD q.toNat ⟨[], []⟩).live = port.live.drop (if n = 0 then port.live.length else n.toNat)))

/-! ### Scratchpad and barriers -/

/-- R189–R194: LDS, STS, ATOMS and REDS that pass their checks start one access of the group's window with a lane
per active thread at its byte offset, and change no byte of the window at their issue. R189, R190 and R193: an access
whose turn it is, whose beats have left the port, and which asks no bank for two services, where no bank has served
anything in this cycle and no TDRAIN under way bars its words (R299), performs every lane at once: an LDS lands what it loaded and changes no window, and an STS,
ATOMS, REDS, BARINIT or BLEND leaves what its lanes leave one after another, in ascending thread index; each is then
outstanding no more. That the banks count these services alone is the model's choice (log 21). -/
def Obligations.Scratchpad : Prop :=
  (∀ (s : State) (w : Wave) (h : Hdr) (o : SpMem) (b : SpAtom),
    let off (e : Env) (t : Nat) : Nat :=
      (e.v32 0 o.a t).toNat + (e.v32 1 o.b t).toNat * 2 ^ o.scl.toNat + o.off.toNat * sizeOf' o.tag
    let offB (e : Env) (t : Nat) : Nat := (e.v32 0 b.a t).toNat + b.off.toNat * sizeOf' b.tag
    let act (e : Env) : List Nat := bitsOf (w.active h e.c0)
    let ok (i : Instr) (rd wr : Bool) (tag : Tag) (f : Env → Nat → Nat) : Prop :=
      let e := envOf s w i false
      Issues s w i false ∧ spChk s e rd wr (sizeOf' tag) ((act e).map fun t => (t, f e t)) = .ok
    (ok (.lds h o) true false o.tag off → Starts s w (.lds h o) h false fun e a =>
      a.op = .spLoad ∧ a.tag = o.tag ∧ a.ord = o.ord ∧ a.dst = .v o.d.toNat o.tag.wide ∧
      a.lanes.map (fun l => (l.t, l.pa)) = (act e).map fun t => (t, off e t)) ∧
    (ok (.sts h o) false true o.tag off → Starts s w (.sts h o) h false fun e a =>
      a.op = .spStore ∧ a.tag = o.tag ∧ a.ord = o.ord ∧ a.dst = .none ∧
      a.lanes.map (fun l => (l.t, l.pa, l.data)) = (act e).map fun t => (t, off e t, e.old o.tag.wide (.v o.d) t)) ∧
    (ok (.atoms h b) true true b.tag offB → Starts s w (.atoms h b) h false fun e a =>
      a.op = .spAtom b.op ∧ a.tag = b.tag ∧ a.ord = b.ord ∧ a.dst = .v b.d.toNat b.tag.wide ∧
      a.lanes.map (fun l => (l.t, l.pa, l.data)) =
        (act e).map fun t => (t, offB e t, e.src 1 b.tag.wide (.vec b.b) t)) ∧
    (ok (.reds h b) false true b.tag offB → Starts s w (.reds h b) h false fun e a =>
      a.op = .spRed b.op ∧ a.tag = b.tag ∧ a.ord = b.ord ∧ a.dst = .none ∧
      a.lanes.map (fun l => (l.t, l.pa, l.data)) =
        (act e).map fun t => (t, offB e t, e.src 1 b.tag.wide (.vec b.b) t))) ∧
  (∀ (s : State) (id : Nat) (a : Acc), s.orderOk a = true → s.spInOrder a = true → s.pastPort a = true →
    (s.core a.w.core).used.1 ≠ s.cyc a.w.core → (∀ l ∈ a.lanes, l.perf = false) →
    (∀ l ∈ a.lanes, ∀ k ∈ a.lanes, (a.service l).word % 32 = (a.service k).word % 32 → a.service l = a.service k) →
    (∀ l ∈ a.lanes, s.wordLocked a.grp (some a.id) (l.pa / 8) = false) →
    let banksOnly (t : State) : Prop := ∀ c, t.core c = { s.core c with used := (t.core c).used }
    let performs (i : Instr) (perf : State → Acc → Lane → Lane × State) : Prop :=
      let run := a.lanes.foldl (fun (r : List (Nat × W64) × State) l =>
        let x := perf r.2 a l
        (r.1 ++ [(l.t, x.1.res)], x.2)) ([], s)
      ∃ t, exec i s = .next t ∧ banksOnly t ∧
        t = { ended (s.acquired a) a (match a.dst with | .v r wide => putV wide r run.1 | _ => []) with
              cores := t.cores, groups := run.2.groups }
    (∀ g r wide, s.ripe id (· = .spLoad) = some a → s.group? a.grp = some g → a.dst = .v r wide →
      ∃ t, exec (.scratchpadOpPerformed id) s = .next t ∧ banksOnly t ∧
        t = { ended (s.acquired a) a (putV wide r (a.lanes.map fun l => (l.t, extend a.tag (g.rdNat l.pa (sizeOf' a.tag)))))
              with cores := t.cores }) ∧
    ((∀ r wide, a.dst ≠ .s r wide) →
      ((∃ k, s.ripe id k = some a) → (a.op = .spStore ∨ a.op = .barinit ∨ ∃ op, a.op = .spAtom op ∨ a.op = .spRed op) →
        performs (.scratchpadOpPerformed id) State.performSp) ∧
      (∀ op f, (∃ k, s.ripe id k = some a) → a.op = .blend op f →
        performs (.scratchpadOpPerformed id) (State.blendLane op f))))

/-- R196–R200: BARINIT and ARRIVE start one access of the barrier word at S(a) + 8 · OFF with its operands, and an
ARRIVE waits until the bank ALU has answered. That none of them asks for the quarter's scratchpad port is the model's
choice (log 16). -/
def Obligations.BarrierIssue : Prop :=
  ∀ (s : State) (w : Wave) (h : Hdr) (i : BarinitOp) (o : ArriveOp) (t : BtestOp),
    let now := s.cyc w.id.core
    let at_ (a : BitVec 8) (off : Nat) : Nat := (w.rs now a.toNat).toNat + 8 * off
    let free : Prop := w.uGuard h now = true ∧ s.memHold w = false
    (Issues s w (.barinit h i) false → free →
      let x := at_ i.a i.off.toNat
      x % 8 = 0 → x + 8 ≤ (envOf s w (.barinit h i) false).winSize →
      Starts s w (.barinit h i) h false fun e a => a.op = .barinit ∧ ∃ l, a.lanes = [l] ∧ l.pa = x ∧
        bits l.data 14 0 = bits (w.rs e.c0 i.b.toNat) 14 0 ∧ l.data.getLsbD 31 = i.sck) ∧
    (Issues s w (.btest h t) false → free →
      let x := 8 * bits (w.rs now t.a.toNat) 15 0
      x + 8 ≤ (envOf s w (.btest h t) false).winSize →
      Starts s w (.btest h t) h false fun _ a => a.op = .btest ∧ a.dst = .p t.pd.toNat ∧ ∃ l, a.lanes = [l] ∧ l.pa = x) ∧
    (Issues s w (.arrive h o) false → free → (o.drn = false ∨ w.flagsZero = true) →
      let x := at_ o.a o.off.toNat
      x % 8 = 0 → x + 8 ≤ (envOf s w (.arrive h o) false).winSize →
      ∃ u w' a, exec (.arrive h o) s = .next u ∧ u.wave? w.id = some w' ∧ u.accs = s.accs ++ [a] ∧
        issued s w (envOf s w (.arrive h o) false) h u w' ∧ w'.wait = .arrive a.id ∧ waveFrame { w with wait := w'.wait } w' ∧
        a.op = .arrive ∧ a.dst = .s o.d.toNat false ∧ ∃ l, a.lanes = [l] ∧ l.pa = x ∧
        l.data = BitVec.ofNat 64 (if o.cnti ≠ 0 then o.cnti.toNat else bits (w.rs now o.b.toNat) 14 0))

/-- R197: what an arrival of `n` does to a barrier word. It is misuse when EXP is 0 or would be passed; otherwise
the token is {PHASE, index}; the arrival that makes CNT reach EXP ends the phase: PHASE counts up modulo 2^16, CNT
becomes 0, LSAT becomes CSAT with this arrival's flags, and CSAT becomes 0; any other only adds to CNT and CSAT; and one with n = 0 on
an initialised word changes nothing, and has its token.
R197 and R199: the bank ALU's answer to an ARRIVE whose word it has not served in this cycle: the word becomes what
the arrival makes of it, the token is written, the wave waits no more, and what R417 watches of it is due at
the wave's next boundary; an arrival that is misuse raises cause 9 with the word's offset and writes nothing. R36, R48: none
comes while its wave is parked or its partition is saved, and only a misuse in the cycle of a context switch. -/
def Obligations.BarrierArrivals : Prop :=
  (∀ (b : W64) (n idx : Nat) (sat : Byte), idx < 2 ^ 16 →
    let exp := bits b 30 16
    let cnt := bits b 14 0
    let csat := if b.getLsbD 31 then bits b 39 32 ||| sat.toNat else bits b 39 32
    ((exp = 0 ∨ exp < cnt + n) ↔ arrival b n sat idx = none) ∧
    (exp ≠ 0 → n = 0 → cnt ≤ exp → ∃ t, arrival b n sat idx = some (t, b, false) ∧ bits t 31 16 = phaseOf b ∧
      bits t 15 0 = idx) ∧
    (exp ≠ 0 → 0 < n → cnt + n = exp → ∃ t x, arrival b n sat idx = some (t, x, true) ∧
      bits t 31 16 = phaseOf b ∧ bits t 15 0 = idx ∧ phaseOf x = (phaseOf b + 1) % 2 ^ 16 ∧ bits x 14 0 = 0 ∧
      bits x 30 16 = exp ∧ bits x 47 40 = csat ∧ bits x 39 32 = 0 ∧ x.getLsbD 31 = b.getLsbD 31) ∧
    (exp ≠ 0 → 0 < n → cnt + n < exp → ∃ t x, arrival b n sat idx = some (t, x, false) ∧
      bits t 31 16 = phaseOf b ∧ bits t 15 0 = idx ∧ phaseOf x = phaseOf b ∧ bits x 14 0 = cnt + n ∧
      bits x 30 16 = exp ∧ bits x 47 40 = bits b 47 40 ∧ bits x 39 32 = csat ∧ x.getLsbD 31 = b.getLsbD 31)) ∧
  (∀ (s : State) (id : Nat) (a : Acc) (g : Group) (l : Lane) (w : Wave),
    s.ripe id (· = .arrive) = some a → s.orderOk a = true → s.group? a.grp = some g → a.lanes = [l] →
    s.waveUid? a.uid = some w → w.life = .live → s.bankFree a.w.core (a.service l) = true →
    s.saving a.grp.part = false → s.parked w = false →
    let old := BitVec.ofNat 64 (g.rdNat l.pa 8)
    (arrival old l.data.toNat (l.cmp.truncate 8) (l.pa / 8) = none →
      exec (.barrierArrival id) s = .next (((s.bankUse a.w.core (a.service l)).dropAcc id).trapBack
        { w with wait := .none } a.sf 9 (BitVec.ofNat 64 l.pa))) ∧
    (∀ y, arrival old l.data.toNat (l.cmp.truncate 8) (l.pa / 8) = some y → s.switchDue a.grp.part = true →
      exec (.barrierArrival id) s = .next s) ∧
    (∀ tok x last r, arrival old l.data.toNat (l.cmp.truncate 8) (l.pa / 8) = some (tok, x, last) → a.dst = .s r false →
      s.switchDue a.grp.part = false →
      ∃ t w' g', exec (.barrierArrival id) s = .next t ∧ t.waveUid? a.uid = some w' ∧ w'.wait = .none ∧
        w'.s = w.s.set r tok ∧ w'.v = w.v ∧ w'.p = w.p ∧ w'.pc = w.pc ∧ w'.exec = w.exec ∧
        w'.due = w.due ++ s.barrierDue w (if last then [3, 4] else [3]) l.pa ∧
        t.group? a.grp = some g' ∧
        g' = { g with window := winSet g.window l.pa (leBytes 8 x.toNat), flips := g'.flips } ∧
        (∀ k, k ≠ a.grp → t.group? k = s.group? k) ∧
        t.accs = s.accs.filter (fun y => y.id ≠ a.id) ∧ t.mem = s.mem)) ∧
  (∀ (s : State) (id : Nat) (a : Acc) (w : Wave), s.ripe id (· = .arrive) = some a → s.waveUid? a.uid = some w →
    (s.saving a.grp.part = true ∨ s.parked w = true) → exec (.barrierArrival id) s = .next s)

/-- R201 and R202: a waiting BWAIT whose word has passed writes 1 to its predicate in every thread that exists, adds
LSAT to its sticky flags when SCK is set, and waits no more; at its deadline, if the word has not passed, it writes
0; otherwise it goes on waiting. A word that an earlier access of the wave or a TDRAIN (R299) is still to
change is not read as passed, so a deadline then ends the wait with 0 (log 33). R201 and R202: BWAIT waits on the word of its token with the deadline of its TMO
code, from the timebase at which it first met R57 and R58, its issue if nothing held it up; it completes at once
when the phase has passed. R203, R190: BTEST completes, where the bank ALU has not served its word in this cycle,
with its predicate in every thread that exists: whether the phase of its token has passed; having passed, it is an
acquire at .grp. -/
def Obligations.BarrierWaits : Prop :=
  (∀ (s : State) (w : Wave) (pd : BitVec 7) (tok : W32) (d : Option W64) (sf : BitVec 4),
    s.wave? w.id = some w → w.wait = .bar pd tok d sf → s.parked w = false → s.saving w.grp.part = false →
    let pass : Prop := phaseOf (s.barWord w.grp tok) ≠ bits tok 31 16 ∧ s.ownPending w true (8 * bits tok 15 0) = false ∧
      s.wordLocked w.grp none (bits tok 15 0) = false
    let word := s.barWord w.grp tok
    let done (i : Instr) (x : Bool) (sat : Byte) : Prop := ∃ t w', exec i s = .next t ∧ t.wave? w.id = some w' ∧
      w'.wait = .none ∧
      (let p := (w.setSat (w.sat ||| sat)).p
       w'.p = p.set pd.toNat ((p.get pd.toNat &&& ~~~w.present) ||| ((if x then w.present else 0) &&& w.present))) ∧
      w'.sat = w.sat ||| sat ∧ w'.v = w.v ∧ w'.s = w.s ∧ w'.pc = w.pc ∧ w'.exec = w.exec ∧
      (∀ k, k ≠ w.id → t.wave? k = s.wave? k) ∧ t = { s with waves := t.waves, l1 := t.l1 }
    let lsat : Byte := if word.getLsbD 31 then BitVec.ofNat 8 (bits word 47 40) else 0
    (pass → done (.bwaitWake w.id) true lsat ∧ done (.bwaitTimeout w.id) true lsat) ∧
    (¬ pass → exec (.bwaitWake w.id) s = .next s ∧
      (∀ x, d = some x → x ≤ s.timebase → done (.bwaitTimeout w.id) false 0) ∧
      ((d = none ∨ ∃ x, d = some x ∧ s.timebase < x) → exec (.bwaitTimeout w.id) s = .next s))) ∧
  (∀ (s : State) (w : Wave) (h : Hdr) (o : BwaitOp), Issues s w (.bwait h o) false →
    let e := envOf s w (.bwait h o) false
    let tok := w.rs e.c0 o.a.toNat
    w.uGuard h e.c0 = true → s.memHold w = false → 8 * bits tok 15 0 + 8 ≤ e.winSize →
    let pass : Prop := phaseOf (s.barWord w.grp tok) ≠ bits tok 31 16 ∧ s.ownPending w true (8 * bits tok 15 0) = false ∧
      s.wordLocked w.grp none (bits tok 15 0) = false
    ∃ t w', exec (.bwait h o) s = .next t ∧ issued s w e h t w' ∧ t.accs = s.accs ∧ t.groups = s.groups ∧ t.mem = s.mem ∧
      (¬ pass →
        w'.wait = .bar o.pd tok
          (if o.tmo = 0 then none else some (w.met.getD s.timebase + BitVec.ofNat 64 (2 ^ (o.tmo.toNat + 5)))) h.sf ∧
        waveFrame { w with wait := w'.wait } w') ∧
      (pass → w'.wait = .none)) ∧
  (∀ (s : State) (id : Nat) (a : Acc) (w : Wave) (l : Lane) (n : Nat), s.ripe id (· = .btest) = some a →
    s.orderOk a = true → s.waveUid? a.uid = some w → a.dst = .p n → a.lanes = [l] →
    s.bankFree a.w.core (a.service l) = true →
    let tok := lo32 (a.args.getD 0 0)
    let pass : Prop := phaseOf (s.barWord a.grp tok) ≠ bits tok 31 16
    ∃ t, exec (.btestComplete id) s = .next t ∧
      t = { ended s a [.p n w.present (if pass then w.present else 0)] with cores := t.cores, l1 := t.l1 } ∧
      t.l1 = (if pass then s.l1.filter fun x => ¬ (x.core = a.w.core ∧ x.eng.contains a.grp = true) else s.l1) ∧
      ∀ c, t.core c = { s.core c with used := (t.core c).used })

/-- R205–R207: a waiting WAITA of a word whose condition holds completes with predicate 1, at its notification, at
its reread and at its deadline alike; at its deadline with the condition false it completes with 0; before that it
waits on, and a reread sets the next one 4,096 cycles later. Each read of memory is one that a slice serves. R205–R207:
WAITA reads its word at issue: it completes at once when its condition holds, and otherwise waits on it, with the deadline
of its TMO code from the timebase at which it first met R57 and R58 (log 25). -/
def Obligations.AddressWaits : Prop :=
  (∀ (s : State) (w : Wave) (o : WaitaOp) (va : W64) (pa : Nat) (v m : W64) (d : Option W64) (sf : BitVec 4) (again : Nat),
    s.wave? w.id = some w → w.wait = .addr o va (some pa) v d sf again → s.saving w.grp.part = false →
    s.waitaRead w o pa = some m → (o.spd = true ∨ s.poisoned pa = false) →
    let read (t : State) : Prop := if o.spd then t = { s with waves := t.waves, l1 := t.l1 } else t = { s with
      waves := t.waves, l1 := t.l1, slc := t.slc, home := t.home, dirty := t.dirty, flip := t.flip, fresh := t.fresh,
      out := t.out }
    let done (i : Instr) (x : Bool) : Prop := ∃ t w', exec i s = .next t ∧ t.wave? w.id = some w' ∧
      w'.wait = .none ∧
      (let p := (w.setSat w.sat).p
       w'.p = p.set o.pd.toNat ((p.get o.pd.toNat &&& ~~~w.present) ||| ((if x then w.present else 0) &&& w.present))) ∧
      w'.v = w.v ∧ w'.s = w.s ∧ w'.pc = w.pc ∧ w'.exec = w.exec ∧
      (∀ k, k ≠ w.id → t.wave? k = s.wave? k) ∧ read t
    let on (i : Instr) : Prop := ∃ t, exec i s = .next t ∧ Served s t ∧ (o.spd = true → t = s)
    (waitaCond o m v = true →
      (s.notifies o (some pa) = true → done (.waitaWake w.id) true) ∧
      (again ≤ s.cyc w.id.core → done (.waitaPeriodicReread w.id) true) ∧ done (.waitaTimeout w.id) true) ∧
    (waitaCond o m v = false → on (.waitaWake w.id) ∧
      (∀ x, d = some x → x ≤ s.timebase → done (.waitaTimeout w.id) false) ∧
      ((d = none ∨ ∃ x, d = some x ∧ s.timebase < x) → on (.waitaTimeout w.id)) ∧
      (again ≤ s.cyc w.id.core → ∃ t w', exec (.waitaPeriodicReread w.id) s = .next t ∧ t.wave? w.id = some w' ∧
        w' = { w with wait := .addr o va (some pa) v d sf (s.cyc w.id.core + 4096) } ∧ t.l1 = s.l1 ∧
        (∀ k, k ≠ w.id → t.wave? k = s.wave? k) ∧ read t))) ∧
  (∀ (s : State) (w : Wave) (h : Hdr) (o : WaitaOp) (pa : Nat), Issues s w (.waita h o) false → w.reissue = none →
    let e := envOf s w (.waita h o) false
    let reg (n : BitVec 8) : W32 := w.rs e.c0 n.toNat
    let x : W64 := if o.spd then (reg o.a).zeroExtend 64 else pair64 (reg o.a) (w.rs e.c0 (o.a.toNat + 1))
    let size := sizeOf' o.tag
    w.uGuard h e.c0 = true → s.memHold w = false → x.toNat % size = 0 →
    s.watchChk e true false o.spd size [(0, x)] .ok = .ok →
    (if o.spd then pa = x.toNat ∧ x.toNat + size ≤ e.winSize
     else bits x 63 51 = 0 ∧ s.poisoned pa = false ∧
      ∃ nc, s.xlate (some w.id.core) w.grp.part .read size [(0, x)] = .ok [(0, x, pa, nc)]) →
    ∃ t w', exec (.waita h o) s = .next t ∧ issued s w e h t w' ∧ t.accs = s.accs ∧ t.groups = s.groups ∧ t.mem = s.mem ∧
      ((∃ m, s.waitaRead w o pa = some m ∧ waitaCond o m (waitaVal e o) = true) → w'.wait = .none ∧
        (let p := (w.setSat w.sat).p
         w'.p = p.set o.pd.toNat ((p.get o.pd.toNat &&& ~~~w.present) ||| (w.present &&& w.present)))) ∧
      ((∀ m, s.waitaRead w o pa = some m → waitaCond o m (waitaVal e o) = false) → w'.p = w.p ∧
        w'.wait = .addr o x (some pa) (waitaVal e o)
          (if o.tmo = 0 then none else some (w.met.getD s.timebase + BitVec.ofNat 64 (2 ^ (o.tmo.toNat + 5)))) h.sf
          (e.c0 + 4096)))

/-! ### The grid -/

/-- R281, R290 and R291: a command of the owner of a tile with room in its queue enters the queue with its operands
as they stand at issue, and what must be performed before it and before its release, and completes later; UNLINK
holds its owner from then on. That an engine's first read also waits for what its core has sent is read as log 28 says. -/
def Obligations.GridCommands : Prop :=
  ∀ (s : State) (w : Wave) (h : Hdr) (g : Group) (t : Tile) (o : TmmaOp) (m : BitVec 4) (d : TdrainOp) (p : GprogOp),
    s.group? w.grp = some g → g.tile = some t → t.owner = some w.uid → t.queue.length < 4 →
    w.uGuard h (s.cyc w.id.core) = true →
    let pair (n : BitVec 8) : W64 := pair64 (w.rs (s.cyc w.id.core) n.toNat) (w.rs (s.cyc w.id.core) (n.toNat + 1))
    let reg (n : BitVec 8) : W32 := w.rs (s.cyc w.id.core) n.toNat
    let base : W64 := if d.spd then (reg d.a).zeroExtend 64 else pair d.a
    let queues (i : Instr) (c : GCmd) (x : Wave) (after rel : List Nat) : Prop := Issues s w i true →
      ∃ u w' y, exec i s = .next u ∧ issued s w (envOf s w i true) h u w' ∧ waveFrame x w' ∧ w'.pend = w.pend ∧
        y.id = s.nextSeq ∧ y.cmd = c ∧ y.sf = h.sf ∧ y.started = false ∧ y.chain = none ∧ y.after = after ∧ y.rel = rel ∧
        u.group? w.grp = some { g with tile := some { t with
          queue := t.queue ++ [y], seq := max t.seq (s.cyc w.id.core + 1) } } ∧
        (∀ k, k ≠ w.grp → u.group? k = s.group? k) ∧
        u = { s with waves := u.waves, groups := u.groups, nextSeq := s.nextSeq + 1, cores := slotHeld s w (envOf s w i true) }
    (s.memHold w = false → tmmaBad t.nacc o (reg o.k) (pair o.a) (pair o.b) = [] →
      queues (.tmma h o) (.tmma o (reg o.k) (pair o.a) (pair o.b)) w
        (s.engineFirst w o.acq) []) ∧
    (m.toNat < 2 ^ t.nacc → queues (.tzero h m) (.tzero m) w [] []) ∧
    (s.memHold w = false → tdrainBad t d base (reg d.b) g.size = [] →
      let rel := if d.rel then s.pendingIds w.uid else []
      queues (.tdrainSt h d) (.tdrain false d base (reg d.b)) w (s.engineFirst w false) rel ∧
      queues (.tdrainAddst h d) (.tdrain true d base (reg d.b)) w (s.engineFirst w false) rel) ∧
    queues (.gprog h p) (match p.dir with | .wr a => .gwr p.reg.toNat (reg a) | .rd r => .grd p.reg.toNat r) w [] [] ∧
    (s.chainDue w = false → queues (.unlink h) .unlink { w with wait := .unlink } [] [])

/-- R291 and R292: LINK by a wave on the footprint of its group's free tile gives the tile to its wave, running, in
the first cycle, its issue cycle among them, in which the lanes are free, settled and wanted by no wave of higher
priority; until then it waits. R289, R293: at the head of its tile's queue, GPROG writes a grid register or the
owner's scalar register, and UNLINK ends ownership and frees its owner; each leaves the queue, and every accumulator
as it was. That a LINK that waits takes the slot once (log 86), and that GPROG's result waits for its write port as any
other of variable latency (log 31), are the model's choices. -/
def Obligations.GridSequencer : Prop :=
  (∀ (s : State) (w : Wave) (h : Hdr) (g : Group) (t : Tile), s.group? w.grp = some g → g.tile = some t → t.owner = none →
    let now := s.cyc w.id.core
    let taken (u : State) : Prop := u.group? w.grp = some { g with tile := some { t with
      owner := some w.uid, ann := false, runAt := now, inj := none, stopAt := none, fault := false, seq := now + 1,
      miss := [] } }
    let clear : Prop := s.saving w.grp.part = false ∧ t.running = false ∧ s.lanesFree g t.fp = true ∧
      s.arraysFree g t.fp = true ∧ s.footSettled g t.fp = true
    (Issues s w (.link h) true → w.uGuard h now = true → g.covers t.fp w.id.core w.id.q = true →
      let e := envOf s w (.link h) true
      (¬ clear → ∃ u w', exec (.link h) s = .next u ∧ issued s w e h u w' ∧
        waveFrame { w with wait := .link h.sf e.c0 } w' ∧ w'.pend = w.pend ∧
        u = { s with waves := u.waves, cores := slotHeld s w e }) ∧
      (clear → (∀ x ∈ s.onFootprint g t.fp, x.uid = w.uid ∨ x.tprio ≤ w.tprio) → ∃ u w', exec (.link h) s = .next u ∧
        issued s w e h u w' ∧ waveFrame { w with wait := .none, notBefore := now + 1 } w' ∧
        w'.pend = w.pend ++ countdown h now ∧ taken u ∧
        u = { s with waves := u.waves, groups := u.groups, cores := slotHeld s w e })) ∧
    (∀ sf since, s.wave? w.id = some w → w.wait = .link sf since → clear → s.outranked g t.fp w.uid w.tprio = false →
      ∃ u w', exec (.linkComplete w.id) s = .next u ∧ u.wave? w.id = some w' ∧ w'.wait = .none ∧ w'.notBefore = now + 1 ∧
        w'.pc = w.pc ∧ w'.v = w.v ∧ w'.s = w.s ∧ taken u ∧ u = { s with waves := u.waves, groups := u.groups })) ∧
  (∀ (s : State) (id : GroupId) (g : Group) (t : Tile) (x : GEntry) (rest : List GEntry) (uid : Nat) (w : Wave),
    s.tile? id = some (g, t) → g.id = id → t.queue = x :: rest → x.started = false → t.seq ≤ s.cyc g.core →
    s.saving id.part = false → t.owner = some uid → s.afterDone x.after = true → s.waveUid? uid = some w → w.life = .live →
    let pops (f : Tile → Tile → Prop) (v : Wave → Prop) : Prop := ∃ u g' t' w',
      exec (.gridQueueHead id) s = .next u ∧ u.tile? id = some (g', t') ∧ t'.queue = rest ∧ t'.accs = t.accs ∧ f t t' ∧
      u.waveUid? uid = some w' ∧ w'.v = w.v ∧ w'.pc = w.pc ∧ w'.exec = w.exec ∧ v w' ∧ u.mem = s.mem
    (∀ n v, x.cmd = .gwr n v → pops (fun t t' => t'.regs = t.regs.set n (if n = 7 then v &&& 0x003F003F else v) ∧
      t'.owner = t.owner) (fun w' => w'.s = w.s)) ∧
    (∀ n d, x.cmd = .grd n d → s.writeFree uid w.id false true = true → pops (fun t t' => t'.regs = t.regs ∧ t'.owner = t.owner)
      (fun w' => w'.s = w.s.set d.toNat (if n = 9 then t.regs.get 9 ||| (if t.ann then 1 else 0) else t.regs.get n))) ∧
    (x.cmd = .unlink → pops (fun _ t' => t'.owner = none ∧ t'.ann = false)
      (fun w' => w'.wait = .none ∧ w'.notBefore = s.cyc g.core + 1)))

/-- R294: TZERO at the head of the queue sets each accumulator whose AMASK bit is 1, and every one with AMASK 0, to
zero bits in every PE, leaves the others as they are, and completes: it leaves the queue, and its owner's flag
counts down. -/
def Obligations.GridZeroes : Prop :=
  ∀ (s : State) (id : GroupId) (g : Group) (t : Tile) (x : GEntry) (rest : List GEntry) (m : BitVec 4) (uid : Nat) (w : Wave),
    s.tile? id = some (g, t) → g.id = id → t.queue = x :: rest → x.cmd = .tzero m → x.started = false →
    t.seq ≤ s.cyc g.core → s.saving id.part = false → t.owner = some uid → s.afterDone x.after = true →
    Sparse.wf t.accs = true → s.waveUid? uid = some w → w.life = .live →
    ∃ u g' t', exec (.gridQueueHead id) s = .next u ∧ u.tile? id = some (g', t') ∧ t'.queue = rest ∧ t'.regs = t.regs ∧
      (∀ k i j, i < 16 → j < 16 → t'.accs.get ((k * 16 + i) * 16 + j) =
        if m = 0 ∨ m.getLsbD k then 0 else t.accs.get ((k * 16 + i) * 16 + j)) ∧
      u.waveUid? uid = some (w.decSf x.sf (s.cyc g.core)) ∧ u.mem = s.mem

/-- R282, R283 and R284: a running tile whose next slab's operands are mapped and at hand injects it, once its PEs
have taken the slab before, with the bytes of its rows, columns and scales as they stand; the slab is in flight
until the cycle after its last PE. R44, R102 and R282: past its last PE's cycle the oldest slab in flight is added,
each of its sums to the accumulator of its element, with one rounding or saturation; STEP names the step after it, and
with the TMMA's last step the command leaves the queue and its saturation reaches its owner; of a killed tile the slab
only ends. That a sum of exactly zero is +0 is the model's choice (log 9). -/
def Obligations.GridSlabs : Prop :=
  (∀ (s : State) (id : GroupId) (g : Group) (t : Tile) (x : GEntry) (o : TmmaOp) (k : Nat) (a b : W64),
    s.tile? id = some (g, t) → t.tmma? = some (x, o, k, a, b) → t.owner.isSome → s.saving id.part = false → g.id = id →
    t.ann = false → t.stopAt = none → t.runAt < s.cyc g.core → t.staged = [] → s.poison = [] → s.snoop = [] →
    let dims := Blk.dims o.blk
    let n := gridN t.fp
    let v := validOf (x.regs.get 7) (n * dims.1) (n * dims.2)
    let step := t.nextStep
    let rs := slabRanges o k a b x.regs step v.1 v.2
    let held : Tile := { t with staged := rs.zipIdx.map fun r => ⟨step, r.2,
      (List.range (r.1.2 + 1 - r.1.1)).map fun k => s.rdByte (s.engPa (some g.core) id.part .read (r.1.1 + k)), none⟩ }
    step < stepsOf o k → (∀ r ∈ rs, r.2 < 2 ^ 51) → s.engXlate (some g.core) id.part .read 4 (rangePages rs) t.miss = .ok →
    (∀ i, t.inj = some i → i + dims.1 * dims.2 ≤ s.cyc g.core) →
    ∃ u g' t' f, exec (.slabInject id) s = .next u ∧ u.tile? id = some (g', t') ∧ t'.flight = t.flight ++ [f] ∧
      f.step = step ∧ f.bound = s.cyc g.core + 2 * (n - 1) + dims.1 * dims.2 - 1 ∧
      f.sums = held.slabSums rs o k a b x.regs step v.1 v.2 ∧ t'.inj = some (s.cyc g.core) ∧
      t'.accs = t.accs ∧ t'.queue = t.queue ∧ u = { s with
        groups := u.groups, slc := u.slc, fresh := u.fresh, home := u.home, dirty := u.dirty, flip := u.flip,
        out := u.out }) ∧
  (∀ (s : State) (id : GroupId) (g : Group) (t : Tile) (f : Slab) (rest : List Slab), s.tile? id = some (g, t) → g.id = id →
    t.flight = f :: rest → f.bound < s.cyc g.core →
    (t.tmma? = none → ∃ u g', exec (.stepBoundary id) s = .next u ∧ u.tile? id = some (g', { t with flight := rest })) ∧
    (∀ x o k a b, t.tmma? = some (x, o, k, a, b) → ∃ u g' t', exec (.stepBoundary id) s = .next u ∧
      u.tile? id = some (g', t') ∧ t'.flight = rest ∧ t'.regs = t.regs.set 8 (BitVec.ofNat 32 (f.step + 1)) ∧
      (let r := f.sums.foldl (fun (r : Sparse 36 × Bool) y =>
          let key := accKey (gridN t.fp) (Blk.dims o.blk).2 y.1 y.2.1
          let z := slabAdd o.acc (r.1.get key) y.2.2
          (r.1.set key z.1, r.2 || z.2)) (t.accs, x.sat)
       t'.accs = r.1 ∧
       (f.step + 1 < stepsOf o k → t'.queue = { x with sat := r.2 } :: t.queue.tail ∧ u.waves = s.waves) ∧
       (stepsOf o k ≤ f.step + 1 → t'.queue = t.queue.tail ∧
         u.waves = (s.gridDone t x g.core (if r.2 then [.sat SatClass.int.bit] else [])).waves)) ∧
      u.mem = s.mem))

/-- R41–R43 and R284–R286: a wave of higher priority, or one that has waited 4,096 cycles for the lanes, stops
injection into a running tile; a stopped tile with no slab in flight and no drain goes into anneal state, and comes
out of it once its lanes are free again and no other tile competes. R297–R299: a TDRAIN that the sequencer has
started, once what its release orders is performed, writes each valid element, in order, at its address, by the
translation of its start or in its window, and completes: it leaves the queue, and with CLR the accumulators of its
blocking are cleared. No other byte of memory changes, and of a window destination none at all. R287: a TMMA whose next slab
cannot be translated, or lies outside the 51-bit space, is stopped: its queue is empty, each command's flag counts down,
GSTAT has FLT and the cause, the accumulators and the tile's ownership stay, and its owner has the cause and the address due at
its next boundary, back at its head instruction if it waits. That all elements into
memory are written in one event, and those into a window as its banks serve them, is the model's choice (log 57). -/
def Obligations.TileEvents : Prop :=
  (∀ (s : State) (id : GroupId) (g : Group) (t : Tile) (o : Wave), s.tile? id = some (g, t) → g.id = id →
    s.ownerWave t = some o → s.tileFaulted g t = false →
    let becomes (i : Instr) (t' : Tile) : Prop := ∃ u, exec i s = .next u ∧ u = { s with groups := u.groups } ∧
      u.tile? id = some ({ g with tile := some t' }, t')
    let now := s.cyc g.core
    (t.ann = false → t.flight ≠ [] → t.stopAt = none → s.outranked g t.fp o.uid o.tprio = true →
      becomes (.tilePreempt id) { t with stopAt := some now }) ∧
    (t.ann = false → t.flight = [] → t.draining = false → t.owner.isSome → ∀ x, t.stopAt = some x → x < now →
      becomes (.tilePreempt id) { t with ann := true, annAt := now, stopAt := none, inj := none, fault := false, annAge := 0 }) ∧
    (t.ann = false → t.owner.isSome → t.stopAt = none →
      (∃ w ∈ s.onFootprint g t.fp, some w.uid ≠ t.owner ∧ 4096 ≤ w.linkwait) →
      becomes (.tileLinkWaitExpiry id) { t with stopAt := some now }) ∧
    (s.relinkable g t = true → (∀ x ∈ s.groups, x.id = id ∨ x.tile = none) →
      becomes (.tileRelink id) { t with ann := false, runAt := now, inj := none, stopAt := none })) ∧
  (∀ (s : State) (id : GroupId) (g : Group) (t : Tile) (x : GEntry) (rest : List GEntry) (add : Bool) (o : TdrainOp)
    (base : W64) (stride : W32), s.tile? id = some (g, t) → g.id = id → t.queue = x :: rest →
    x.cmd = .tdrain add o base stride → x.started = true → t.seq ≤ s.cyc g.core → (if scopeFar o.sco then s.afterDone x.rel else s.nearDone x.rel) = true →
    let els := (drainElems t o base.toNat stride.toNat).drop x.done
    let n := drainSize o.dst
    let acc (e : Nat × Nat × Nat) : BitVec 36 := t.accs.get (accKey (gridN t.fp) (Blk.dims o.blk).2 e.1 e.2.1)
    let ends (u : State) : Prop := exec (.tdrainComplete id) s = .next u ∧ ∃ g' t', u.tile? id = some (g', t') ∧ t'.queue = rest ∧
      t'.accs = (if o.clr then t.accs.filter fun e => (Blk.dims o.blk).1 * (Blk.dims o.blk).2 * 256 ≤ e.1 else t.accs)
    (o.spd = false → s.snoop = [] → s.poison = [] → ∃ u, ends u ∧
      u.mem = (els.foldl (fun u e =>
        u.wrNat (x.pa e.2.2) n (drainValue add o (u.rdNat (x.pa e.2.2) n) (acc e)).1) s).mem ∧
      (Memory.wf s.mem = true → ∀ a, (∀ e ∈ els, a < x.pa e.2.2 ∨ x.pa e.2.2 + n ≤ a) → u.rdByte a = s.rdByte a)) ∧
    (o.spd = true → (∀ y ∈ t.queue, y.id = x.id ∨ y.lock = []) → (s.core g.core).used.1 ≠ s.cyc g.core → (els.map fun e => e.2.2 / 8 % 32).Nodup →
      ∃ u g', ends u ∧ u.mem = s.mem ∧ u.group? id = some g' ∧
        g'.window = (els.foldl (fun (y : Group) e =>
          y.wrNat e.2.2 n (drainValue add o (y.rdNat e.2.2 n) (acc e)).1) g).window) ∧
    (o.spd = true → ∀ e l, els = e :: l → s.bankFree g.core ⟨g.id, e.2.2 / 8, x.id, x.done⟩ = false →
      ∃ u t', exec (.tdrainComplete id) s = .next u ∧ u.tile? id = some ({ g with tile := some t' }, t') ∧ u.mem = s.mem ∧
        t' = { t with queue := { x with lock := if x.done = 0 then []
          else ((drainElems t o base.toNat stride.toNat).map fun e => e.2.2 / 8).dedup } :: rest })) ∧
  (∀ (s : State) (id : GroupId) (g : Group) (t : Tile) (x : GEntry) (o : TmmaOp) (k : Nat) (a b : W64) (uid : Nat) (w : Wave),
    s.tile? id = some (g, t) → g.id = id → t.tmma? = some (x, o, k, a, b) → t.owner = some uid → s.waveUid? uid = some w →
    w.life = .live → s.saving id.part = false → t.flight = [] → t.staged = [] → t.nextStep < stepsOf o k →
    let dims := Blk.dims o.blk
    let v := validOf (x.regs.get 7) (gridN t.fp * dims.1) (gridN t.fp * dims.2)
    let rs := slabRanges o k a b x.regs t.nextStep v.1 v.2
    let stops (c : Nat) (va : W64) : Prop := ∃ u g' t' w', exec (.slabInject id) s = .next u ∧ u.tile? id = some (g', t') ∧
      t'.queue = [] ∧ t'.accs = t.accs ∧ t'.owner = t.owner ∧ t'.ann = t.ann ∧
      t'.regs = t.regs.set 9 (BitVec.ofNat 32 (c * 2 ^ 16 + 256)) ∧ u.mem = s.mem ∧ u.waveUid? uid = some w' ∧
      w'.due.getLast? = some ⟨c, if c = 14 then 0 else va, none, 0⟩ ∧ w'.v = w.v ∧ w'.s = w.s ∧ w'.p = w.p ∧ w'.miss = [] ∧
      (∀ pd tok d sf, w.wait = .bar pd tok d sf → w'.wait = .none ∧ w'.pc = w.pc - 12) ∧
      (w.wait = .none → w.miss = [] → (∀ y ∈ t.queue, y.sat = false) →
        w' = { t.queue.foldl (fun v y => v.decSf y.sf (s.cyc g.core)) w with
          due := w.due ++ [⟨c, if c = 14 then 0 else va, none, 0⟩] })
    (∀ r, rs.find? (fun r => 2 ^ 51 ≤ r.2) = some r → stops 5 (BitVec.ofNat 64 (max r.1 (2 ^ 51)))) ∧
    (∀ c va, (∀ r ∈ rs, r.2 < 2 ^ 51) → s.engXlate (some g.core) id.part .read 4 (rangePages rs) t.miss = .bad c va →
      stops c va))

/-! ### Execute from registers -/

/-- R133: the paths of XVI. Each thread whose word is not permitted is in the fault mask alone; each other one is in
exactly the path of its word's bits [72:0]; and paths stand in ascending order of their lowest thread. R131, R133,
R134: outside a handler XVI issues, writes its fault mask to its pair in c + 3 and, where some word is permitted,
enters path 0, which issues no earlier than c + 3; with no path it ends at once. R133, R134, R136: a path that may
issue runs its word as the instruction that the word is, with no spacing of its own: the step always goes on, and
where the word only sends effects, these are what its wave gets, pathidx names the path, and the next path stands ready,
or after the last one the XVI has ended at its return PC. That between two paths pathidx names the one that has issued,
and before the first none, is the model's choice (log 13). -/
def Obligations.XviExecution : Prop :=
  (∀ (al : Allot) (word : Nat → BitVec 96) (ts : List Nat), ts.Pairwise (· < ·) → (∀ t ∈ ts, t < 64) →
    let r := xviGroup al word ts
    (∀ t, t < 64 → (r.2.getLsbD t ↔ t ∈ ts ∧ xviPermitted al (word t) = false)) ∧
    (∀ k m, (k, m) ∈ r.1 → ∀ t, t < 64 → (m.getLsbD t ↔ t ∈ ts ∧ xviPermitted al (word t) = true ∧ xviKey (word t) = k)) ∧
    (∀ t ∈ ts, xviPermitted al (word t) = true → ∃ m, (xviKey (word t), m) ∈ r.1) ∧
    r.1.Pairwise (fun x y => x.1 ≠ y.1 ∧ ∀ t, t < 64 → y.2.getLsbD t → ∃ u, u < t ∧ x.2.getLsbD u)) ∧
  (∀ (s : State) (w : Wave) (h : Hdr) (d : BitVec 8) (a : BitVec 9), Issues s w (.xvi h d a) false → w.handler = .none →
    let e := envOf s w (.xvi h d a) false
    let n := a.toNat
    let r := xviGroup w.allot (fun t => w.rv (e.at_ t) (n + 2) t ++ (w.rv (e.at_ t) (n + 1) t ++ w.rv (e.at_ t) n t))
      (bitsOf (w.active h e.c0))
    ∃ t w', exec (.xvi h d a) s = .next t ∧ t.wave? w.id = some w' ∧ w'.exec = w.exec ∧ w'.v = w.v ∧ w'.s = w.s ∧
      w'.p = w.p ∧ w'.prev = some e.c ∧
      w'.pend = w.pend ++ [⟨e.c + 3, .s d.toNat (lo32 r.2)⟩, ⟨e.c + 3, .s (d.toNat + 1) (hi32 r.2)⟩] ++ countdown h (e.c + 3) ∧
      (r.1 ≠ [] → w'.xvi = some ⟨r.1, 0, r.2, h.sf, e.c + 3, w.pc + 12⟩ ∧ w'.pathidx = w.pathidx ∧ w'.pc = w.pc ∧ w'.due = w.due) ∧
      (r.1 = [] → w'.xvi = none ∧ w'.pathidx = 0xFFFF ∧ w'.pc = if w.inPath then w.pc else w.pc + 12) ∧
      (∀ k, k ≠ w.id → t.wave? k = s.wave? k) ∧ recordFrame s t) ∧
  (∀ (s : State) (w : Wave) (x : Xvi) (i : Instr), s.wave? s.cur = some w → w.life = .live → w.xvi = some x →
    w.inPath = true → x.start ≤ s.cyc w.id.core → s.head w = .instr i →
    (∃ y, encode i = some y ∧ xviOpc (bits y 7 0) = true) →
    let w0 : Wave := { w.atPath with prev := none }
    let s0 : State := s.modWave w.id fun y => { y.atPath with prev := none }
    (∃ t, exec .xviPath s = .next t) ∧
    (∀ h lat ps, Sends s0 w0 i h false lat ps → ∃ t w', exec .xviPath s = .next t ∧
      t.wave? w.id = some w' ∧
      (let e := envOf s0 w0 i false
       w'.pend = w.pend ++ (ps e).map (fun p => ⟨e.c + lat, p⟩) ++ countdown h (e.c + lat)) ∧
      w'.v = w.v ∧ w'.s = w.s ∧ w'.p = w.p ∧ w'.exec = w.exec ∧ w'.h = w.h ∧ w'.life = .live ∧
      (x.next + 1 < x.paths.length →
        w'.xvi = some { x with next := x.next + 1 } ∧ w'.pathidx = BitVec.ofNat 16 x.next ∧ w'.pc = w.pc) ∧
      (x.paths.length ≤ x.next + 1 → w'.xvi = none ∧ w'.pathidx = 0xFFFF ∧ w'.pc = x.retPc) ∧
      (∀ k, k ≠ w.id → t.wave? k = s.wave? k)))

/-! ### Rays, raster and texture -/

/-- R322, R338: RBOX, RTRI, RHINT, RHSET, TEX and TEXQ, once the header or descriptor is at hand, start one access
with the operands of their active threads; RAST needs no memory and holds its results from its issue. R342 and R343:
BLEND starts one access of the window with a lane per active thread, its source element and the tag of its format;
at the bank, REP stores the source and ADD, MIN and MAX of U8X4 act channel by channel, saturating. R336, R337: RAST sweeps on from its cursor and gives
the k-th active thread the k-th pixel, or all ones, and the cursor moves on; that the quads it counts are those with a pixel of
the region is the model's choice (log 62). -/
def Obligations.RayCommands : Prop :=
  (∀ (s : State) (w : Wave) (h : Hdr) (b : RboxOp) (t : RtriOp) (n : RhintOp) (r : RhsetOp) (x : TexOp) (q : TexqOp)
      (o : RastOp),
    let act (e : Env) : List Nat := bitsOf (w.active h e.c0)
    let block (e : Env) (a : BitVec 9) (n : Nat) (b : Nat → W32) : List W64 :=
      BitVec.ofNat 64 a.toNat :: (act e).flatMap fun t => BitVec.ofNat 64 t :: (b t).zeroExtend 64 ::
        (List.range n).map fun i => (w.rv (e.at_ t) (a.toNat + i) t).zeroExtend 64
    let uv (e : Env) (u v : VSrc) : List W64 := (act e).flatMap fun t =>
      [BitVec.ofNat 64 t, (e.v32 0 u t).zeroExtend 64, (e.v32 1 v t).zeroExtend 64]
    let ready (i : Instr) (hs : BitVec 8) (size : Nat) (reads : Env → Reads) : Prop :=
      let e := envOf s w i false
      Issues s w i false ∧ blockChk s e (act e) (e.srPair hs) size (reads e) = .ok
    let starts (i : Instr) (op : AccOp) (dst : AccDst) (args : Env → List W64) : Prop :=
      StartsReading s w i h false fun e a => a.op = op ∧ a.dst = dst ∧ a.args = args e
    let rays (e : Env) (reads : RayHdr → Nat → List W64) : Reads := fun bs =>
      if (rayHdr bs).bad then [] else (act e).flatMap fun t => (reads (rayHdr bs) t).map fun va => (t, va)
    (ready (.rbox h b) b.hs 8 (fun e => rays e fun hd t => words8 (hd.nodes + 256 * (e.v32 1 b.b t).toNat) 28) →
      starts (.rbox h b) .rbox (.v b.d.toNat true) fun e => block e b.a 16 (e.v32 1 b.b)) ∧
    (ready (.rtri h t) t.hs 8 (fun e => rays e fun hd l =>
        (leafTris hd (e.v32 1 t.b l)).flatMap fun i => words8 (hd.tris + 48 * i) 6) →
      starts (.rtri h t) .rtri .none fun e => block e t.a 48 (e.v32 1 t.b)) ∧
    (ready (.rhint h n) n.hs 8 (fun _ _ => []) →
      starts (.rhint h n) .rhint (.v n.d.toNat true) fun e => block e n.a 16 fun _ => 0) ∧
    (ready (.rhset h r) r.hs 8 (fun _ _ => []) →
      starts (.rhset h r) .rhset .none fun e => block e r.a 16 fun _ => 0) ∧
    (ready (.tex h x) x.td 4 (fun e bs => if (texDesc bs).bad then [] else (act e).flatMap fun t =>
        (texTexels (texDesc bs) x.mode (e.v32 0 x.a t) (e.v32 1 x.b t) (e.sr x.sd) t).flatMap fun y =>
          (List.range (texelSize (texDesc bs).fmt / 4)).map fun i => (t, BitVec.ofNat 64 (y.1 + 4 * i))) →
      starts (.tex h x) .tex (.v x.d.toNat false) fun e =>
        (match x.mode with | .point => 0 | .bilin => 1 | .stoch => 2) :: (e.sr x.sd).zeroExtend 64 :: uv e x.a x.b) ∧
    (ready (.texq h q) q.td 4 (fun _ _ => []) →
      starts (.texq h q) .texq (.v q.d.toNat false) fun e => uv e q.a q.b) ∧
    (Issues s w (.rast h o) false → Starts s w (.rast h o) h false fun e a =>
      let sx (i : Nat) : W32 := w.rs e.c0 (o.a.toNat + i)
      let c (i : Nat) : Int := ((sx i).truncate 24 : BitVec 24).toInt
      let r : Rast := ⟨[c 0, c 2, c 4], [c 1, c 3, c 5], bits (sx 6) 15 0, bits (sx 6) 31 16⟩
      a.op = .rast ∧ (act e = [] → a.puts = []) ∧
      (act e ≠ [] → ∃ xs ys zs, a.puts = [.v o.d.toNat xs, .v (o.d.toNat + 1) ys, .v (o.d.toNat + 2) zs,
          .s o.b.toNat (r.run (act e).length (w.rs e.c0 o.b.toNat)).2] ∧
        xs = ((List.range (act e).length).zip (act e)).map fun k =>
          (k.2, match (r.run (act e).length (w.rs e.c0 o.b.toNat)).1[k.1]? with
            | some p => BitVec.ofNat 32 (p.2 % 65536 * 65536 + p.1 % 65536)
            | none => 0xFFFFFFFF)))) ∧
  (∀ (s : State) (w : Wave) (h : Hdr) (o : BlendOpn),
    (Issues s w (.blend h o) false →
      let e := envOf s w (.blend h o) false
      let size := if o.f16 then 8 else 4
      let off (t : Nat) : Nat := (e.v32 0 o.a t).toNat + o.off.toNat * size
      spChk s e false true size ((bitsOf (w.active h e.c0)).map fun t => (t, off t)) = .ok →
      Starts s w (.blend h o) h false fun e a =>
        a.op = .blend o.bop o.f16 ∧ a.tag = (if o.f16 then .b64 else .b32) ∧ a.dst = .none ∧
        a.lanes.map (fun l => (l.t, l.pa, l.data)) =
          (bitsOf (w.active h e.c0)).map fun t => (t, off t, e.src 1 o.f16 (.vec o.b) t)) ∧
    (∀ (x d : Nat), x < 2 ^ 32 → blendWord .rep false x d = x ∧
      ∀ k, k < 4 → let ch (n : Nat) : Nat := n / 2 ^ (8 * k) % 256
        ch (blendWord .add false x d) = min 255 (ch x + ch d) ∧ ch (blendWord .min false x d) = min (ch x) (ch d) ∧
        ch (blendWord .max false x d) = max (ch x) (ch d)))

/-- R323–R327, R333, R334, R338–R341: an instruction of this family that is the oldest of its wave, has read all its
data, unpoisoned, and needs no compare and no turn at the Cullet table any more completes with its results. RBOX, which
first takes the lanes of its quarter for four cycles per beat, gives each thread the children that its ray enters, in
order, and counts a step; RTRI gives the block that testing the triangles of its leaf, one after another, leaves; TEX
the filtered texel and TEXQ its position, its fractions and its size; of a bad header or descriptor each gives the result
that its rule names. What a NaN child is, and which texels TEX.bilin reads, is read as log 62 says; the signs of zero
results are the model's choice (log 93). R331–R335: one thread of RHSET and one of RHINT, on an entry that no operation
of the cycle has reached. With HIT and HLEAF[31] set, a key and a share, RHSET leaves TAG, GEN, HLEAF[30:0] and HPRIM in
the entry at its index, and every other entry as it was; with none of these, nothing changes; and a second operation on
the entry waits. RHINT changes no entry and answers {1, leaf} and prim of an entry with its tag and generation, and all
ones otherwise. -/
def Obligations.RayResults : Prop :=
  (∀ (s : State) (id : Nat) (a : Acc), s.ripe id AccOp.ray = some a → a.performed = true → a.poisoned = none →
    s.discarded a = false → (∀ b ∈ s.accs, b.uid = a.uid → b.op.ray = true → id ≤ b.id) →
    let hd := rayHdr a.head
    let x := AccDst.reg a.dst
    let td := texDesc a.head
    let base := (a.args.getD 0 0).toNat
    let regs (d n : Nat) (ts : List (Nat × W32 × List W32)) (r : Nat × W32 × List W32 → List W32) : List Put :=
      (List.range n).map fun k => .v (d + k) (ts.map fun y => (y.1, (r y).getD k 0))
    let go (ps : List Put) : Prop := exec (.rayOpComplete id) s = .next (ended s a ps)
    (a.op = .rast → go a.puts) ∧
    (a.op = .rhint → a.tableThreads.length ≤ a.served → go a.puts) ∧
    (a.op = .rhset → a.tableThreads.length ≤ a.served → go []) ∧
    (∀ t c ray, a.tableThreads.drop a.served = [(t, c, ray)] → s.culletUse = [] →
      (a.op = .rhint → ∃ r u, s.rayHint a.grp.part hd ray = some (r, u) ∧ exec (.rayOpComplete id) s =
        .next { ended s a (a.puts ++ [.v x [(t, r.1)], .v (x + 1) [(t, r.2)]]) with culletUse := u.culletUse }) ∧
      (a.op = .rhset → ∃ u, s.raySet a.grp.part hd ray = some u ∧ exec (.rayOpComplete id) s =
        .next { ended s a [] with cullet := u.cullet, culletUse := u.culletUse })) ∧
    (a.op = .texq →
      let ts := rayThreads 1 a.args
      (td.bad = true → go (regs x 3 ts fun _ => List.replicate 3 0xFFFFFFFF)) ∧
      (td.bad = false → go (regs x 3 ts fun y =>
        let p := texPos td true y.2.1 (y.2.2.getD 0 0)
        [BitVec.ofNat 32 (texWrap p.j td.h td.wrapV * 65536 + texWrap p.i td.w td.wrapU),
         BitVec.ofNat 32 (p.fyq * 16 + p.fxq), BitVec.ofNat 32 (td.h * 65536 + td.w)]))) ∧
    (a.op = .tex →
      let m : TexMode := if a.args.getD 0 0 = 0 then .point else if a.args.getD 0 0 = 1 then .bilin else .stoch
      let ts := rayThreads 1 (a.args.drop 2)
      (td.bad = true → go (regs x 4 ts fun _ => List.replicate 4 0x7FC00000)) ∧
      (td.bad = false → go (regs x 4 ts fun y =>
        texResult td (texTexels td m y.2.1 (y.2.2.getD 0 0) (lo32 (a.args.getD 1 0)) y.1)
          fun va => a.bytesAt 4 va (texelSize td.fmt)))) ∧
    (a.op = .rbox → a.told = true →
      let ts := rayThreads 16 (a.args.drop 1)
      (hd.bad = true → go (regs x 2 ts fun _ => [0, 0])) ∧
      (hd.bad = false → go (regs x 2 ts (fun y =>
          let r := rboxThread (a.bytesAt 8 (hd.nodes + 256 * y.2.1.toNat) 224) y.2.2
          [r.1, r.2]) ++ [.v (base + 12) (ts.map fun y => (y.1, y.2.2.getD 12 0 + 1))]))) ∧
    (a.op = .rtri →
      let ts := (rayThreads 48 (a.args.drop 1)).filter fun y => hd.bad = false ∧ y.2.1 ≠ 0xFFFFFFFF ∧ y.2.1.getLsbD 31 = true
      let tested (y : Nat × W32 × List W32) : RayBlk := (leafTris hd y.2.1).foldl
        (fun b i => b.test y.2.2 y.2.1 (a.bytesAt 8 (hd.tris + 48 * i) 48)) (RayBlk.ofRegs y.2.2)
      go ((List.range 41).map fun k => .v (base + 7 + k) (ts.map fun y =>
        (y.1, ((((tested y).toRegs y.2.2).find? fun r => r.1 = 7 + k).map (·.2)).getD 0)))) ∧
    (a.op = .rbox → a.told = false → ∀ w, s.waveUid? a.uid = some w → s.lanesHeld w = false →
      let till := s.cyc w.id.core + 4 * (w.kern.width / 16)
      ∃ t, exec (.rayOpComplete id) s = .next t ∧ t = { s with cores := t.cores, accs := t.accs } ∧
        t.accs = upd (fun y => y.id = id) (fun y => { y with told := true, ready := till }) s.accs)) ∧
  (∀ (s : State) (p : Nat) (hd : RayHdr) (ray : List W32),
    let entry (u : State) (j : Nat) : Option Cullet := u.cullet.find? fun c => c.idx = j
    let miss : W32 × W32 := (0xFFFFFFFF, 0xFFFFFFFF)
    (∀ k idx tag, hd.bad = false → rayKey hd ray = some k → s.culletAt p k = some (idx, tag) →
      ((ray.getD 11 0).getLsbD 5 = true → (ray.getD 13 0).getLsbD 31 = true →
        ((∀ u ∈ s.culletUse, u.idx ≠ idx) → ∃ t, s.raySet p hd ray = some t ∧
          entry t idx = some ⟨idx, tag, hd.gen, (ray.getD 13 0).truncate 31, ray.getD 8 0⟩ ∧
          (∀ j, j ≠ idx → entry t j = entry s j) ∧
          t = { s with cullet := t.cullet, culletUse := ⟨idx, entry s idx, false⟩ :: s.culletUse }) ∧
        ((∃ u ∈ s.culletUse, u.idx = idx) → s.raySet p hd ray = none)) ∧
      ((∀ u ∈ s.culletUse, u.idx ≠ idx) → ∃ t, s.rayHint p hd ray = some t ∧ t.2 = { s with culletUse := t.2.culletUse } ∧
        (∀ c, entry s idx = some c → c.tag = tag → c.gen = hd.gen → t.1 = (1#1 ++ c.leaf, c.prim)) ∧
        (∀ c, entry s idx = some c → (c.tag ≠ tag ∨ c.gen ≠ hd.gen) → t.1 = miss) ∧
        (entry s idx = none → t.1 = miss))) ∧
    (hd.bad = true ∨ rayKey hd ray = none ∨ s.hasCullet = false ∨ 8 < (s.part p).cs →
      s.raySet p hd ray = some s ∧ s.rayHint p hd ray = some (miss, s)) ∧
    ((ray.getD 11 0).getLsbD 5 = false ∨ (ray.getD 13 0).getLsbD 31 = false → s.raySet p hd ray = some s))

/-! ### The copy engine -/

/-- R302, R303, R309, R312: CPY whose operands break no rule puts its command, with the block as its registers
stand, at the end of its core's FIFO; HTEST and HWAIT of a token of the group resolve it and start the write of its
status, an acquire at the command's release scope where it is DONE, HWAIT holding its wave until the end of a command that is
outstanding; HCANCEL marks an outstanding command and counts
until it has ended. That a command's first read also waits for what its core has sent (log 28), and which status a read
of a handle takes and its scope without REL (log 60), are read as the logs say. -/
def Obligations.CopyCommands : Prop :=
  ∀ (s : State) (w : Wave) (h : Hdr) (o : CpyOp) (d : BitVec 8) (a : HSrc) (x : Core), s.cores[w.id.core]? = some x →
    w.uGuard h (s.cyc w.id.core) = true →
    let tok : W32 := match a with | .h n => w.h.get n.toNat | .s n => w.rs (s.cyc w.id.core) n.toNat
    (Issues s w (.cpy h o) true → s.memHold w = false → s.entryHolds w (.cpy h o) = [] →
      let e := envOf s w (.cpy h o) true
      cpyBad (cpyCmd e h o) e.winSize (s.ownTile w) (wordVal (.cpy h o)) = [] →
      ∃ t w' c, exec (.cpy h o) s = .next t ∧ issued s w e h t w' ∧ waveFrame { w with hpend := insNat o.h.toNat w.hpend } w' ∧
        w'.pend = w.pend ∧ (t.core w.id.core).chan = { x.chan with fifo := x.chan.fifo ++ [c] } ∧
        c.num = s.nextSeq ∧ c.uid = w.uid ∧ c.grp = w.grp ∧ c.o = o ∧ c.sf = h.sf ∧ c.prog = 0 ∧ c.stat = .outstanding ∧
        c.after = s.engineFirst w o.acq.isSome ∧ c.unit = none ∧
        c.rel = (if o.rel.isSome then s.pendingIds w.uid else []) ∧
        c.blk = (List.range 22).map (fun i => w.rs e.c0 (o.a.toNat + i)) ∧
        (∀ k, k ≠ w.id.core → (t.core k).chan = (s.core k).chan) ∧
        t = { s with waves := t.waves, cores := t.cores, nextSeq := s.nextSeq + 1 }) ∧
    (let reads (y : Acc) (wait : Bool) : Prop := y.op = .handle ∧ y.dst = .s d.toNat false ∧
        (s.resolve w tok = .retired → y.args = [] ∧ y.puts = [.s d.toNat 4]) ∧
        (∀ n c, s.resolve w tok = .cmd n c →
          (wait = true ∧ c.stat = .outstanding → y.args = [BitVec.ofNat 64 c.num]) ∧
          (wait = false ∨ c.stat ≠ .outstanding → y.args = [] ∧
            y.puts = [.s d.toNat (BitVec.ofNat 32 (min c.prog 0xFFFFFF * 256 + c.stat.code))] ∧
            (c.stat = .done → y.ord = .acq ∧ y.sco = c.o.rel.getD .wave) ∧ (c.stat ≠ .done → y.ord = .weak)))
     let held : Prop := ∃ n c, s.resolve w tok = .cmd n c ∧ c.stat = .outstanding
     (Issues s w (.htest h d a) true → s.resolve w tok ≠ .misuse → Starts s w (.htest h d a) h true fun _ y => reads y false) ∧
     (Issues s w (.hwait h d a) true → s.resolve w tok ≠ .misuse →
      ∃ t w' y, exec (.hwait h d a) s = .next t ∧ issued s w (envOf s w (.hwait h d a) true) h t w' ∧
        (held → waveFrame { w with wait := .handle s.nextSeq } w') ∧ (¬ held → waveFrame w w') ∧
        w'.pend = w.pend ∧ t.accs = s.accs ++ [y] ∧ y.id = s.nextSeq ∧
        reads y true ∧ t.mem = s.mem ∧ t.groups = s.groups)) ∧
    (∀ n c, Issues s w (.hcancel h a) true → s.resolve w tok = .cmd n c →
      (c.stat = .outstanding → ∃ t w' y, exec (.hcancel h a) s = .next t ∧
        issued s w (envOf s w (.hcancel h a) true) h t w' ∧ waveFrame w w' ∧ w'.pend = w.pend ∧ t.accs = s.accs ++ [y] ∧
        y.op = .cancelled ∧ y.args = [BitVec.ofNat 64 c.num] ∧ y.sf = h.sf ∧
        ((t.core w.id.core).chan.slots[n]?).bind (·.cmd) = some { c with cancel := true }) ∧
      (c.stat ≠ .outstanding → Sends s w (.hcancel h a) h true 1 fun _ => [])) ∧
    (s.resolve w tok = .misuse →
      let v : W64 := match a with | .h n => BitVec.ofNat 64 (256 + n.toNat) | .s n => BitVec.ofNat 64 n.toNat
      (Issues s w (.htest h d a) true → exec (.htest h d a) s = .next (s.trapAt w 8 w.pc v)) ∧
      (Issues s w (.hwait h d a) true → exec (.hwait h d a) s = .next (s.trapAt w 8 w.pc v)) ∧
      (Issues s w (.hcancel h a) true → exec (.hcancel h a) s = .next (s.trapAt w 8 w.pc v)))

/-- R305, R306, R312: the running command of a channel moves one unit at a time, once the banks serve its words of a
window: a unit that is read but whose words of the other window are not served yet is written later, and then the next
one is moved; when the command is cancelled it ends at a unit's boundary as CANCELLED, and after its last unit, what its
release orders, its completion word and its chained TMMA it ends as DONE, with its flag counted down; until its TMMA is
queued a cancel still ends it. R313: a command whose access a reply fails or the page's class bars, whose source unit is
poisoned, or whose gathered element lies beyond its limit ends as FAILED with nothing further written, and its wave has the
cause with the address due at its next boundary. Units of 128 bytes from the start of each span (log 61), what a cancel after the
completion word does (log 90) and the banks' part in it (log 21) are the model's choices. R300, R308–R311: the oldest
command of a FIFO takes a free slot with a new generation, and its handle the token; a read of a handle writes the
status that it took at its issue, and HWAIT of an outstanding command the status that it takes at the command's end, at which
its wave waits no more, but not while its partition is saved (R36). -/
def Obligations.CopyWork : Prop :=
  (∀ (s : State) (core n : Nat) (c : Copy), (s.core core).chan.current = some (n, c) → s.saving c.grp.part = false →
    (∀ a ∈ s.accs, a.op ≠ .cancelled) →
    (∀ x ∈ (s.core core).chan.fifo, x.cancel = false) →
    (∀ m ∈ (s.core core).chan.running.drop 1, ∀ x, (((s.core core).chan.slots[m]?).bind (·.cmd)) = some x → x.cancel = false) →
    let cmd (t : State) : Option Copy := ((t.core core).chan.slots[n]?).bind (·.cmd)
    let ended (t : State) (st : CStat) (ds : List Due) : Prop :=
      n ∉ (t.core core).chan.running ∧ t.mem = s.mem ∧
      t.accs = s.accs.map (fun a =>
        if a.op = .handle ∧ a.args = [BitVec.ofNat 64 c.num] then a.withStatus { c with stat := st } else a) ∧
      (∃ x, cmd t = some x ∧ x.stat = st ∧ x.prog = c.prog ∧ x.blk = c.blk) ∧
      (∀ w, s.waveUid? c.uid = some w → w.life = .live → t.waveUid? c.uid = some { w.decSf c.sf (s.cyc core) with due := w.due ++ ds })
    let span := c.prog / c.perSpan
    let off := c.prog % c.perSpan * 128
    let len := min 128 (c.spanLen - off)
    let gath : Prop := c.o.form = .gath
    let ix := c.b64 8 + 4 * span
    let win := ((s.group? c.grp).map (·.size)).getD 0
    let src := c.src + if gath then s.rdNat (s.engPa (some core) c.grp.part .read ix) 4 * c.spanLen else (c.spanAt span).1 + off
    let dst := c.dst + (c.spanAt span).2 + if gath then 0 else off
    let bytes := s.copyRead core c.grp c.o.ssp src len
    let rdS := wordServices c.grp c.num (2 * c.prog) src len
    let wrS (dst len : Nat) := wordServices c.grp c.num (2 * c.prog + 1) dst len
    let word := wordServices c.grp c.num (2 * c.prog) (c.b 5) 4
    let moved (t : State) (dst : Nat) (bs : List Byte) : Prop := cmd t = some { c with prog := c.prog + 1, unit := none } ∧
      t.waves = s.waves ∧ t.mem = (s.copyWrite core c dst bs).mem ∧ t.groups = (s.copyWrite core c dst bs).groups
    (c.prog < c.units → c.cancel = false → c.unit = none → s.afterDone c.after = true →
      (gath → s.copyXlate core c.grp.part false .read ix 4 = .ok ∧ src + c.spanLen ≤ if c.o.ssp then win else 2 ^ 51) →
      s.copyXlate core c.grp.part c.o.ssp .read src len = .ok → s.copyXlate core c.grp.part c.o.dsp .write dst len = .ok →
      s.poison = [] → s.snoop = [] → s.unitFree core c.o.ssp rdS = true →
      ∃ t, exec (.copyUnit core) s = .next t ∧
        (if (s.unitUse core c.o.ssp rdS).unitFree core c.o.dsp (wrS dst len) = true then moved t dst bytes
         else cmd t = some { c with unit := some bytes } ∧ t.waves = s.waves ∧ t.mem = s.mem ∧ t.groups = s.groups)) ∧
    (c.prog < c.units → c.cancel = false → c.unit = none → s.afterDone c.after = true →
      let fails (k : Nat) (va : W64) : Prop := ∃ t, exec (.copyUnit core) s = .next t ∧ ended t .failed [⟨k, va, none, 0⟩] ∧
        t.groups = s.groups
      (¬ gath → (∀ k va, s.copyXlate core c.grp.part c.o.ssp .read src len = .bad k va → fails k va) ∧
        (∀ k va, s.copyXlate core c.grp.part c.o.ssp .read src len = .ok →
          s.copyXlate core c.grp.part c.o.dsp .write dst len = .bad k va → fails k va) ∧
        (s.copyXlate core c.grp.part c.o.ssp .read src len = .ok → s.copyXlate core c.grp.part c.o.dsp .write dst len = .ok →
          (s.copyLines core c.grp c.o.ssp .read src len).any s.poisoned = true → fails 6 (BitVec.ofNat 64 src))) ∧
      (gath → (∀ k va, s.copyXlate core c.grp.part false .read ix 4 = .bad k va → fails k va) ∧
        (s.copyXlate core c.grp.part false .read ix 4 = .ok → s.poison = [] → s.snoop = [] →
          (if c.o.ssp then win else 2 ^ 51) < src + c.spanLen → fails 5 (BitVec.ofNat 64 src)))) ∧
    (∀ bs, c.prog < c.units → c.unit = some bs →
      let dst := c.dst + (c.spanAt span).2 + off
      s.unitFree core c.o.dsp (wrS dst bs.length) = true → ∃ t, exec (.copyUnit core) s = .next t ∧ moved t dst bs) ∧
    (c.prog < c.units → c.cancel = true → c.unit = none →
      ∃ t, exec (.copyUnit core) s = .next t ∧ ended t .cancelled [] ∧ t.groups = s.groups) ∧
    (c.units ≤ c.prog → c.cancel = true → c.chained ≠ some true →
      ∃ t, exec (.copyComplete core) s = .next t ∧ ended t .cancelled [] ∧ t.groups = s.groups) ∧
    (c.units ≤ c.prog → c.cancel = false →
      (c.cwDone = true ∨ (if (c.o.rel.map scopeFar).getD true then s.afterDone c.rel else s.nearDone c.rel) = true ∧
        s.unitFree core c.o.cw word = true) →
      (c.chained = none ∨ c.chained = some true ∧ s.chainQueued c.num = false) →
      ∃ t, exec (.copyComplete core) s = .next t ∧ ended t .done [] ∧
        t.groups = (if c.o.cw ∧ c.cwDone = false then upd (fun g => g.id = c.grp) (fun g => g.wrNat (c.b 5) 4 (c.b 6)) s.groups
          else s.groups))) ∧
  ((∀ (s : State) (core n : Nat) (c : Copy) (rest : List Copy) (w : Wave), (s.core core).chan.fifo = c :: rest →
    (s.core core).chan.freeSlot = some n → s.saving c.grp.part = false → s.waveUid? c.uid = some w → w.life = .live →
    let gen := ((s.core core).chan.slots.getD n ⟨0, none, 0⟩).gen + 1
    ∃ t x, exec (.copyAccept core) s = .next t ∧
      t.waveUid? c.uid = some { w with h := w.h.set c.o.h.toNat (token core n (s.cluPos c.grp.part core) gen)
                                       hpend := w.hpend.filter fun k => k ≠ c.o.h.toNat } ∧
      (t.core core).chan.fifo = rest ∧ (t.core core).chan.running = (s.core core).chan.running ++ [n] ∧
      (t.core core).chan.slots[n]? = some x ∧ x.gen = gen ∧ x.cmd = some c ∧
      t = { s with waves := t.waves, cores := t.cores }) ∧
  (∀ (s : State) (id d : Nat) (a : Acc) (w : Wave), s.ripe id (· = .handle) = some a → s.waveUid? a.uid = some w →
    a.dst = .s d false →
    let l1 (x : Acc) : List Line :=
      if x.ord = .acq then s.l1.filter fun l => ¬ (l.core = x.w.core ∧ (scopeFar x.sco = true ∨ l.eng.contains x.grp = true))
      else s.l1
    (a.args = [] → exec (.handleStatusWrite id) s = .next { ended s a a.puts with l1 := l1 a }) ∧
    (a.args ≠ [] → exec (.handleStatusWrite id) s = .next s)) ∧
  (∀ (s : State) (id : Nat) (a : Acc) (w : Wave) (rest : List Event), s.events = .wake w.id :: rest → s.wave? w.id = some w →
    w.wait = .handle id → s.acc? id = some a →
    (a.args = [] → s.saving w.grp.part = false → ∃ t, step s = .next t ∧
      t.wave? w.id = some { w with wait := .none, notBefore := s.cyc w.id.core + 1 } ∧
      (∀ k, k ≠ w.id → t.wave? k = s.wave? k) ∧ t = { s with waves := t.waves, events := rest }) ∧
    (a.args ≠ [] ∨ s.saving w.grp.part = true → step s = .next { s with events := rest })))

/-! ### Launches of the device -/

/-- R360, R362, R365: LAUNCH.enq whose operand passes its checks starts one record read, at the translation of its
operand; SETPRI and LAUNCH.cancel complete in c + 2, in which SETPRI writes the priorities of its wave or group within
their band; the cancels take effect before the cycle after it issues, which is the model's choice (log 24). R361, R459:
the record of LAUNCH.enq is read after what its release orders and what has left its core (R257), whatever its wave does meanwhile; one with a fault writes
the pair {code, 0}, and a good one makes a job, a graph and one launch, and writes {0, launchid}. -/
def Obligations.DeviceLaunches : Prop :=
  (∀ (s : State) (w : Wave) (h : Hdr) (d a : BitVec 8) (k : CancelSel) (g : Bool),
    let now := s.cyc w.id.core
    let va := pair64 (w.rs now a.toNat) (w.rs now (a.toNat + 1))
    (∀ ps, Issues s w (.launchEnq h d a) true → w.uGuard h now = true → va.toNat % 64 = 0 → bits va 63 51 = 0 →
      s.memHold w = false → s.entryHolds w (.launchEnq h d a) = [] →
      s.xlate (some w.id.core) w.grp.part .read 64 [(0, va)] = .ok ps →
      Starts s w (.launchEnq h d a) h true fun _ x =>
        x.op = .launch ∧ x.dst = .s d.toNat true ∧ x.args = [va, BitVec.ofNat 64 s.cycle] ∧ x.sco = .dev ∧
        x.lanes.map (fun l => (l.va, l.pa)) = ps.map (fun y => (y.2.1, y.2.2.1)) ∧
        x.near = w.relNear ∧
        ∀ id, id ∈ x.after ↔ id ∈ s.pendingIds w.uid ∨ id ∈ w.relAfter ∨ id ∈ s.leftIds w.id.core) ∧
    (Issues s w (.launchCancel h k a) true → ∃ t w', exec (.launchCancel h k a) s = .next t ∧
      issued s w (envOf s w (.launchCancel h k a) true) h t w' ∧ waveFrame w w' ∧
      w'.pend = w.pend ++ (if w.uGuard h now then [⟨now + 3, .cancel k (w.rs now a.toNat)⟩] else []) ++
        countdown h (now + 2) ∧
      t = { s with waves := t.waves, cores := slotHeld s w (envOf s w (.launchCancel h k a) true) }) ∧
    (Issues s w (.setpri h g a) true → Sends s w (.setpri h g a) h true 2 fun e =>
      if w.uGuard h e.c0 then [.pri g (bits (w.rs e.c0 a.toNat) 5 0)] else []) ∧
    (∀ n, let d := s.part w.grp.part
      let ws := upd (fun v : Wave => v.life = .live ∧ (if g then v.grp = w.grp else v.uid = w.uid))
        (fun v => { v with prio := max d.pfloor (min n d.pceil), priSet := true }) s.waves
      s.takeOut w.sender (.pri g n) = { s with waves := ws }) ∧
    (∀ x, s.takeOut w.sender (.cancel k x) = s.cancelBy w.grp.part k x)) ∧
  (∀ (s : State) (id d : Nat) (a : Acc) (w : Wave) (l : Lane) (ls : List Lane), s.ripe id (· = .launch) = some a →
    s.waveUid? a.uid = some w → w.life = .live → s.saving a.grp.part = false → a.lanes = l :: ls →
    unsettled (w.launchMisses id) = false → s.orderOk a = true → s.snoopHeld l.pa false = false → a.dst = .s d true →
    let p := a.grp.part
    let old := w.launchMisses id
    let b := s.rdBytes l.pa 64
    let read : State :=
      let s := s.slcTouch (s.part p).ways l.pa false
      if (recordCode b).isSome then s else s.touchBody p old b
    let wrote (t : State) (lid code : Nat) : Prop :=
      t.waves = (ended (s.modUid a.uid fun w => w.launchMiss id []) a
        [.s d (BitVec.ofNat 32 lid), .s (d + 1) (BitVec.ofNat 32 code)]).waves ∧
      t.accs = s.accs.filter (fun x => x.id ≠ a.id) ∧ t.mem = s.mem ∧ t.groups = s.groups ∧ t.slc = read.slc
    Served s read ∧
    (∀ n, read.parseRecord p old b = .code n → ∃ t, exec (.launchEnqComplete id) s = .next t ∧ wrote t 0 n ∧
      t.launches = s.launches ∧ t.jobs = s.jobs) ∧
    (∀ x, read.parseRecord p old b = .ok x → ∃ t l j, exec (.launchEnqComplete id) s = .next t ∧ wrote t l.lid 0 ∧
      t.launches = s.launches ++ [l] ∧ l.part = p ∧ l.kern = x.kern ∧ l.gx = x.gx ∧ l.gy = x.gy ∧ l.gz = x.gz ∧
      l.args = x.args ∧ l.next = 0 ∧ l.retired = 0 ∧ l.completed = false ∧ l.preds = x.preds ∧
      j ∈ t.jobs ∧ j.part = p ∧ j.jid = l.jid ∧ j.q = none))

/-! ### Traps -/

/-- R106, R210: taking a trap. Outside a handler, with a usable TVEC, the trap registers take the cause, the return
PC, TVAL, exec and pathidx, and the wave goes on at TVEC with every thread that exists; a trap at issue has the wave
there in the next cycle, in which its trace packets follow. In a handler, or without a usable TVEC, every wave of
its group stops, at a trap at issue in the next cycle, and no wave of another group changes. That a trap at issue
changes its own wave in its issue cycle is the model's choice (log 18). -/
def Obligations.TrapEntry : Prop :=
  ∀ (s : State) (w : Wave) (cause : Nat) (ret tval : W64), s.wave? w.id = some w →
    let v := (s.part w.grp.part).tvec
    let now := s.cyc w.id.core
    let usable : Prop := v ≠ 0 ∧ v.toNat % 4 = 0 ∧ v.toNat < 2 ^ 51
    let at_ : Wave := { w with
        tr := { cause := cause, tepc := ret, tval := tval, texec := w.exec, tpath := w.pathidx, tscr := w.tr.tscr }
        exec := w.present, pathidx := 0xFFFF, pc := v, handler := .trap, prev := none, ctl := false, wait := .none
        miss := [], reissue := none, due := [] }
    let only (t : State) (w' : Wave) : Prop := t.wave? w.id = some w' ∧ ∀ k, k ≠ w.id → t.wave? k = s.wave? k
    let killed (g : Group) (t : State) : Prop :=
      (∀ k x, t.wave? k = some x → x.grp = w.grp → x.life = .exited) ∧
      (∀ k x, s.wave? k = some x → x.grp ≠ w.grp → t.wave? k = some x) ∧
      ∃ g', t.group? w.grp = some g' ∧ g'.killed = true ∧ g'.window = g.window ∧ ∀ k, k ≠ w.grp → t.group? k = s.group? k
    (w.handler = .none → usable →
      (let t := s.trapEntry w cause ret tval
       only t at_ ∧ recordFrame { s with fb := t.fb, fbwait := t.fbwait } t ∧
       ∀ x ∈ t.fb, ∀ r ∈ x.reqs, r.1.sameAs (.wave w.uid w.id) = false) ∧
      (let t := s.trapAt w cause ret tval
       only t { at_ with pend := w.pend ++ [⟨now + 1, .entered w.trSrc v⟩], notBefore := now + 1 } ∧
       t = { s with waves := t.waves })) ∧
    (∀ g kind, s.group? w.grp = some g → (w.handler ≠ .none ∧ kind = 3 ∨ w.handler = .none ∧ ¬ usable ∧ kind = 4) →
      killed g (s.trapEntry w cause ret tval) ∧
      (let t := s.trapAt w cause ret tval
       only t { w with pend := w.pend ++ [⟨now + 1, .kill kind cause ret⟩], notBefore := now + 1 } ∧
       t = { s with waves := t.waves }) ∧
      (w.life = .live → s.waveUid? w.uid = some w → killed g (s.takeOut w.sender (.kill kind cause ret))))

/-- R214, R408: TRAP with its guard true takes cause 16 with its immediate in TVAL and the next instruction as
return PC; DBGBRK traps with cause 11, or with BRKSTOP leaves a stop for the boundary; with the guard false both
complete in c + 1. R413: an instruction that its wave issues under SS leaves a single step due, outside a handler; R409:
taken at the boundary it is a trap with cause 11 and TVAL 0x100000000, or stops the wave; beside a trap of another cause it
is not taken. R415, R416: a load whose access a watchpoint matches takes cause 12 at the instruction, with the lowest address
and watchpoint in TVAL and ONESHOT set, or is stopped there, and under ONESHOT or in a handler starts as without it. R417: a
barrier event on the word of a watchpoint leaves cause 12, or a stop, due. That TRAP and DBGBRK are traps at issue with the
next instruction as return PC is read as log 52 says; that the step gives way to every other trap, whatever its cause, as
log 97 does. -/
def Obligations.TrapsAndBreaks : Prop :=
  ∀ (s : State) (w : Wave) (h : Hdr) (imm : W32) (code : BitVec 16),
    let on := w.uGuard h (s.cyc w.id.core)
    let brk := (s.part w.grp.part).dbgctl.getLsbD 1
    (Issues s w (.trap h imm) true →
      (on = true → exec (.trap h imm) s = .next (s.trapAt w 16 (w.pc + 12) (imm.zeroExtend 64))) ∧
      (on = false → Sends s w (.trap h imm) h true 1 fun _ => [])) ∧
    (Issues s w (.dbgbrk h code) true →
      (on = true → w.handler = .none → brk = false →
        exec (.dbgbrk h code) s = .next (s.trapAt w 11 (w.pc + 12) (code.zeroExtend 64))) ∧
      (on = true → w.handler = .none → brk = true → ∃ t w', exec (.dbgbrk h code) s = .next t ∧
        issued s w (envOf s w (.dbgbrk h code) true) h t w' ∧ waveFrame w w' ∧
        w'.due.head? = some ⟨11, code.zeroExtend 64, some 0, 0⟩ ∧ t.mem = s.mem) ∧
      (on = false ∨ w.handler ≠ .none → Sends s w (.dbgbrk h code) h true 1 fun _ => [])) ∧
    (let ev : Due := ⟨11, 0x100000000, if w.dbg.getLsbD 1 then some 1 else none, 0⟩
     let usable : Prop := tvecOk (s.part w.grp.part).tvec = true
     let traps (d : Due) : Prop := ∃ w', (s.takeDue w).wave? w.id = some w' ∧ w'.tr.cause = d.cause ∧ w'.tr.tepc = w.pc ∧
       w'.tr.tval = d.tval ∧ w'.pc = (s.part w.grp.part).tvec ∧ w'.handler = .trap ∧ w'.due = [] ∧ w'.dstate = w.dstate
     (∀ u, Issues s w (.nop h u) u → w.dstate = .run → ∃ t w', exec (.nop h u) s = .next t ∧ t.wave? w.id = some w' ∧
       w'.due = w.due ++ if w.handler = .none ∧ w.dbg.getLsbD 0 = true then [ev] else []) ∧
     (s.wave? w.id = some w → w.xvi = none → w.handler = .none → usable →
       (w.due = [ev] → ev.stop = none → traps ev) ∧
       (w.due = [ev] → ev.stop = some 1 →
         (s.takeDue w).wave? w.id = some { w with dstate := .stopped 1, due := [] }) ∧
       (∀ d, d.stop = none → d.step = false → w.due = [d, ev] ∨ w.due = [ev, d] ∨ w.due = [d] → traps d))) ∧
    (∀ (o : GlMem) (ps : List (Nat × W64 × Nat × Bool)),
      let i : Instr := .ldg h o
      let e := envOf s w i false
      let size := sizeOf' o.tag
      let addr (t : Nat) : W64 :=
        e.v64 0 o.a t + ((if o.isgn then (e.v32 1 o.b t).signExtend 64 else (e.v32 1 o.b t).zeroExtend 64) <<< o.scl.toNat) +
          o.off.signExtend 64 * BitVec.ofNat 64 size
      let xs := (bitsOf (w.active h e.c0)).map fun t => (t, addr t)
      let meets (k : Nat) (p : Watch) (x : Nat × W64) : Prop :=
        k < 8 ∧ (s.part w.grp.part).wps[k]? = some p ∧ p.hits w.grp.lid true false false size x.2 = true
      Issues s w i false → w.reissue = none → s.memHold w = false → addrChk size xs = .ok →
      s.xlate (some w.id.core) w.grp.part .read size xs = .ok ps →
      (∀ (k n : Nat) p x, (∃ y ∈ xs, meets k p y) → (∀ j q, j < k → ∀ y ∈ xs, ¬ meets j q y) → xs[n]? = some x → (∃ j q, meets j q x) →
        (∀ m y, m < n → xs[m]? = some y → ∀ j q, ¬ meets j q y) → w.handler = .none → w.dbg.getLsbD 2 = false →
        let at_ (tval : W64) : Prop := bits tval 50 0 = x.2.toNat ∧ bits tval 53 51 = k ∧ bits tval 63 54 = 0
        ((∀ j q, ∀ y ∈ xs, meets j q y → q.ctl.getLsbD 6 = false) → ∃ tval, at_ tval ∧
          exec i s = .next ((s.trapAt w 12 w.pc tval).modWave w.id fun y => { y with dbg := y.dbg ||| 4 })) ∧
        ((∀ j q, ∀ y ∈ xs, meets j q y → q.ctl.getLsbD 6 = true) → ∃ t, exec i s = .next t ∧
          t.wave? w.id = some { w with dstate := .stopped 2, due := [], dbg := w.dbg ||| 4 } ∧ t.accs = s.accs)) ∧
      (w.handler ≠ .none ∨ w.dbg.getLsbD 2 = true → Starts s w i h false fun _ a => a.op = .load)) ∧
    (∀ kinds x, x < 2 ^ 51 →
      let meets (k : Nat) (p : Watch) : Prop := k < 8 ∧ (s.part w.grp.part).wps[k]? = some p ∧ p.ctl.getLsbD 7 = true ∧
        (bits p.ctl 63 32 = 0 ∨ bits p.ctl 63 32 = w.grp.lid) ∧ bits p.ctl 5 3 ∈ kinds ∧ p.addr.toNat = x
      (∀ k p, w.handler = .none → meets k p → (∀ j q, meets j q → j = k) → ∃ d, s.barrierDue w kinds x = [d] ∧ d.cause = 12 ∧
        bits d.tval 50 0 = x ∧ bits d.tval 53 51 = k ∧ bits d.tval 63 54 = 1 ∧ d.hit = 1#8 <<< k ∧
        d.stop = if p.ctl.getLsbD 6 then some (bits p.ctl 5 3 + 1) else none) ∧
      (w.handler ≠ .none ∨ (∀ k p, ¬ meets k p) → s.barrierDue w kinds x = []))

/-- R215, R227, R401: the returns. TRAPRET gives back exec, the PC and pathidx from the trap registers, and in a
handler of cause 13 kills its group; FAULTRET gives back exec and the PC of the instruction that missed, which
issues again: whole, with no access, or with the value of its pair for the threads of FMASK. Each waits for the
flags, and outside its own handler takes cause 0. -/
def Obligations.HandlerReturns : Prop :=
  ∀ (s : State) (w : Wave) (h : Hdr) (a : BitVec 8), w.uGuard h (s.cyc w.id.core) = true →
    let back (i : Instr) (x : Wave) : Prop := ∃ t w', exec i s = .next t ∧ t.wave? w.id = some w' ∧
      waveFrame x w' ∧ w'.pc = x.pc ∧ w'.reissue = x.reissue ∧
      w'.pend = w.pend ++ countdown h (s.cyc w.id.core + 1) ∧
      (∀ k, k ≠ w.id → t.wave? k = s.wave? k) ∧ recordFrame s t
    let outside (i : Instr) : Prop := exec i s = .next (s.trapAt w 0 w.pc (wordVal i))
    (Issues s w (.trapret h) true →
      (w.flagsZero = false → exec (.trapret h) s = .next s) ∧
      (w.flagsZero = true → w.handler ≠ .trap → outside (.trapret h)) ∧
      (w.flagsZero = true → w.handler = .trap → w.tr.cause ≠ 13 → back (.trapret h) { w with
        exec := w.tr.texec &&& w.present, pc := w.tr.tepc, handler := .none, pathidx := w.tr.tpath, reissue := none
        xvi := if w.tr.tpath = 0xFFFF then none else w.xvi.map fun x => { x with next := w.tr.tpath.toNat } }) ∧
      (∀ g, w.flagsZero = true → w.handler = .trap → w.tr.cause = 13 → s.group? w.grp = some g →
        ∃ t, exec (.trapret h) s = .next t ∧ (∀ k x, t.wave? k = some x → x.grp = w.grp → x.life = .exited) ∧
          (∀ k x, s.wave? k = some x → x.grp ≠ w.grp → t.wave? k = some x))) ∧
    (let ret (i : Instr) (r : FaultSave → Option Reissue) : Prop := Issues s w i true →
      (w.flagsZero = false → exec i s = .next s) ∧
      (w.flagsZero = true → w.handler ≠ .fault → outside i) ∧
      (∀ f, w.flagsZero = true → w.handler = .fault → w.fsave = some f → back i { w with
        exec := f.exec &&& w.present, pc := f.pc, handler := .none, fsave := none, reissue := r f })
     ret (.faultretRetry h) (fun _ => none) ∧ ret (.faultretSkip h) (fun f => some ⟨f.i, none⟩) ∧
     ret (.faultretEmul h a) (fun f =>
       let v := pair64 (w.rs (s.cyc w.id.core) a.toNat) (w.rs (s.cyc w.id.core) (a.toNat + 1))
       some ⟨f.i, some (f.given.1 ||| f.fmask, (bitsOf f.fmask).foldl (fun m t => m.set t v) f.given.2, v)⟩))

/-! ### Translation -/

/-- R218, R219, R221, R222: a walk for one requester whose leaf allows its access fills the translation, with A set,
and D for a write; one that no wave vectors on makes the entry pending and posts its record; a reply RETRY makes the
entry walk again, an acquire at .sys of its requesters' cores (R260), and FAIL frees it and gives the wave the cause at its
access. R226: a wave that faults on a UH page, with a fault handler and in none, vectors: its return state is kept, s240 to s255
hold the fault record, exec is FMASK and the PC its handler's. R224: an invalidation removes the
partition's translations at once, all or those of its pages, and BUSY falls once every access translated through
them has been performed; one written while BUSY is ignored. R52, R111: the lines that a wave's fetch awaits come
into its core's instruction cache, with the bytes of memory; where it has room no line leaves it, and no byte of
memory changes. -/
def Obligations.FaultHandling : Prop :=
  (∀ (s : State) (fbid : Nat) (e : FbEntry), s.fb.find? (fun x => x.fbid = fbid) = some e → s.snoop = [] →
    s.walks = [] → (∀ a ∈ s.accs, a.redo = false) →
    let r := (walkFrom s e.va.toNat 3 1 (s.part e.part).ptroot).1
    (∀ q k lvl pa attr, e.pending = none → fbid ∈ s.walking → e.reqs = [(q, k)] → r = .leaf lvl pa attr → allows attr k = true →
      ∃ t x, exec (.walkComplete fbid) s = .next t ∧ t.tlb.head? = some x ∧ x.part = e.part ∧ x.lvl = lvl ∧
        x.vpn = e.va.toNat / 2 ^ leafShift lvl ∧ x.pa = pa ∧ x.attr = attr ||| 0x80 ||| (if k.writes then 0x100 else 0) ∧
        x.shared = true ∧ x.cls = s.classes e.part ∧ ∀ c, q.core = some c → c ∈ x.pipes) ∧
    (e.pending = none → fbid ∈ s.walking → e.reqs ≠ [] →
      (∀ q ∈ e.reqs, ∃ c lvl uh, r.meets q.2 = some (c, lvl, uh) ∧ (uh = false ∨ s.vectors q.1 = false)) →
      ∃ t x, exec (.walkComplete fbid) s = .next t ∧ t.fb.find? (fun x => x.fbid = fbid) = some x ∧
        x = { e with pending := x.pending } ∧ x.pending.isSome ∧ t.tlb = s.tlb ∧ t.waves = s.waves) ∧
    (∀ p, e.part = p → e.pending.isSome → exec (.frespRetry p fbid) s =
      .next { s with fb := upd (fun x => x.fbid = fbid) (fun x => { x with pending := none, acq := true }) s.fb }) ∧
    (e.acq = true → e.pending = none → fbid ∈ s.walking → ∃ t, exec (.walkComplete fbid) s = .next t ∧
      ∀ q ∈ e.reqs, ∀ c, q.1.core = some c → ∀ l ∈ t.l1, l.core ≠ c) ∧
    (∀ uid id k w m i c lvl, e.pending = none → fbid ∈ s.walking → e.reqs = [(.wave uid id, k)] → s.waveUid? uid = some w →
      s.wave? w.id = some w → w.life = .live → w.handler = .none → w.kern.fhnd ≠ 0 → w.missI = some i → instrUhAble i = true →
      w.miss = [m] → pageOf m.va = pageOf e.va → m.kind = k → m.settled = none → r.meets k = some (c, lvl, true) →
      s.fbwait = [] → (s.part w.grp.part).imaged = false →
      let word := (encode i).getD 0
      let fmask : W64 := if oneAccess i then w.exec else m.threads
      let low := (lowBit fmask).getD 0
      let x := (w.oneAddr i).getD (m.va, m.size)
      let record : List (Nat × W32) :=
        [(240, lo32 x.1), (241, hi32 x.1), (242, lo32 w.pc), (243, hi32 w.pc),
         (244, BitVec.ofNat 32 (x.2 * 2 ^ 24 + bits word 7 0 * 2 ^ 16 + lvl * 2 ^ 12 + k.code * 2 ^ 8 + c)),
         (245, BitVec.ofNat 32 (low * 2 ^ 16 + 0xFFFF)), (246, lo32 w.exec), (247, hi32 w.exec), (248, lo32 fmask),
         (249, hi32 fmask), (250, BitVec.ofNat 32 (bits word 21 13)), (251, 0), (252, lo32 s.timebase),
         (253, hi32 s.timebase), (254, 0), (255, 0)]
      ∃ t w' f, exec (.walkComplete fbid) s = .next t ∧ t.fb.find? (fun x => x.fbid = fbid) = none ∧ t.wave? w.id = some w' ∧
        w'.handler = .fault ∧ w'.exec = fmask ∧ w'.pc = w.kern.fhnd ∧ w'.miss = [] ∧ w'.fsave = some f ∧ f.pc = w.pc ∧
        f.exec = w.exec ∧ f.fmask = fmask ∧ f.i = i ∧ w'.s = record.foldl (fun m y => m.set y.1 y.2) w.s ∧ w'.v = w.v ∧
        w'.p = w.p ∧ w'.tr = w.tr ∧ t.mem = s.mem ∧ ∀ n, n ≠ w.id → t.wave? n = s.wave? n) ∧
    (∀ p uid id k w m res c lvl uh, e.part = p → e.pending = some res → e.reqs = [(.wave uid id, k)] →
      s.waveUid? uid = some w → s.wave? w.id = some w → w.life = .live → w.wait = .none → w.handler = .none → w.miss = [m] →
      pageOf m.va = pageOf e.va → m.kind = k → m.settled = none → res.meets k = some (c, lvl, uh) →
      tvecOk (s.part w.grp.part).tvec = true → s.fbwait = [] → (s.part w.grp.part).imaged = false →
      ∃ t w', exec (.frespFail p fbid) s = .next t ∧ t.fb.find? (fun x => x.fbid = fbid) = none ∧
        t.wave? w.id = some w' ∧ w'.tr.cause = c ∧ w'.tr.tepc = w.pc ∧ w'.tr.tval = m.va ∧ w'.handler = .trap ∧
        w'.pc = (s.part w.grp.part).tvec ∧ w'.miss = [] ∧ w'.v = w.v ∧ w'.s = w.s)) ∧
  (∀ (s : State) (p : Nat) (d : Part) (n : W32), s.parts[p]? = some d →
    let starts (i : Instr) (hit : Tlb → Bool) (walk : WalkEntry → Bool) (reg : W64) : Prop :=
      (d.tlbbusy = true → exec i s = .next s) ∧
      (d.tlbbusy = false → ∃ t d', exec i s = .next t ∧ t.parts[p]? = some d' ∧ d'.tlbbusy = true ∧ d'.tlbinv = reg ∧
        d' = { d with tlbbusy := true, tlbinv := reg, tlbwait := d'.tlbwait } ∧
        (∀ x, x ∈ t.tlb ↔ x ∈ s.tlb ∧ ¬ (x.part = p ∧ hit x = true)) ∧
        (∀ x, x ∈ t.walks ↔ x ∈ s.walks ∧ ¬ (x.part = p ∧ walk x = true)) ∧
        (s.snoop = [] → t = { s with parts := t.parts, tlb := t.tlb, walks := t.walks, waves := t.waves }))
    let rng := some (bits d.tlbinva 50 15, n.toNat)
    starts (.tlbinvPartition p) (fun _ => true) (fun _ => true) 0x4000000000000000 ∧
    starts (.tlbinvRange p n) (·.hitBy rng) (·.hitBy rng) (0x8000000000000000 ||| n.zeroExtend 64) ∧
    (d.tlbbusy = true → s.afterDone d.tlbwait = true → ∃ t, exec (.tlbInvalidationEnd p) s = .next t ∧
      t.parts[p]? = some { d with tlbbusy := false, tlbwait := [] } ∧ t = { s with parts := t.parts }) ∧
    (d.tlbbusy = true → s.afterDone d.tlbwait = false → exec (.tlbInvalidationEnd p) s = .next s)) ∧
  (∀ (s : State) (id : WaveId) (w : Wave) (lo hi : Nat), s.wave? id = some w → s.fetch w = .wait → s.snoop = [] →
    s.codePa w.id.core w.grp.part w.pc = .inl lo → s.codePa w.id.core w.grp.part (w.pc + 11) = .inl hi →
    (s.ic.filter fun l => l.core = w.id.core).length + 2 ≤ icSize →
    ∃ t, exec (.instructionFetchReturn id) s = .next t ∧
      t = { s with
        ic := t.ic, slc := t.slc, home := t.home, dirty := t.dirty, flip := t.flip, fresh := t.fresh, out := t.out } ∧
      (∀ l, l ∈ s.ic → l ∈ t.ic) ∧
      (∀ n, n = lo / 128 ∨ n = hi / 128 → s.icLine w.id.core n = none →
        t.icLine w.id.core n = some ⟨w.id.core, n, s.rdBytes (128 * n) 128, []⟩))

/-! ### Launch queues and placement -/

/-- R350, R351, R392: a doorbell of the active port on its own page moves TAIL forward; one that says more than the
ring holds sets code 13 and empties the queue, a packet held at HEAD too; any other, and one that moves TAIL back, changes nothing. R357: a
held FENCE reads its counters again, at their slices, and passes once all are reached; the SIGNAL at the head, once
every job of its queue has completed, writes its word, or adds to it, and is consumed. The model's choice: a doorbell
moves TAIL of a disabled queue as of any other (log 65), and a SIGNAL's word is written where it stands, aligned or
not (log 29). -/
def Obligations.QueueState : Prop :=
  (∀ (s : State) (port page p q size : Nat) (v : W64) (d : Part) (l : LQ), s.parts[p]? = some d → d.lqs[q]? = some l →
    p < 16 → q < 8 →
    let i : Instr := .doorbellWrite port page p q size v
    let ok : Prop := s.active = some port ∧ page = port ∧ (size = 4 ∨ size = 8) ∧
      ((l.tail - lo32 v).toNat = 0 ∨ 2 ^ 31 ≤ (l.tail - lo32 v).toNat)
    let room : Prop := (lo32 v - l.head).toNat ≤ 2 ^ l.szlog
    (¬ ok → exec i s = .next s) ∧
    (ok → room → exec i s = .next (s.modLq p q fun l => { l with tail := lo32 v })) ∧
    (ok → ¬ room → ∃ t d', exec i s = .next t ∧ t.parts[p]? = some d' ∧
      d'.lqs[q]? = some { l with tail := l.head, ev := true, code := 13, epos := l.head, hold := none, miss := [] } ∧ t.mem = s.mem ∧ t.jobs = s.jobs)) ∧
  (∀ (s : State) (p q : Nat) (b : List Byte), s.packet p q = some b → (s.lq p q).hold.isSome →
    (fld b 0 1 = 3 →
      let u := (List.range (fld b 8 1)).foldl (fun s k => s.touchVa p (s.lq p q).miss (fld b (16 + 16 * k) 8) 8 true) s
      let r := u.fenceTest p (u.lq p q).miss b (List.range (fld b 8 1))
      (r = .ok true → exec (.fenceCounterReread p q) s = .next (u.consume p q b)) ∧
      (r = .ok false → exec (.fenceCounterReread p q) s =
        .next (u.modLq p q fun l => { l with hold := some (u.cycle + 4096), miss := [] })) ∧
      (∀ n, r = .code n → exec (.fenceCounterReread p q) s = .next (u.reject p q n b))) ∧
    (fld b 0 1 = 4 →
      let va := fld b 8 8
      let add := fld b 2 1 / 4 % 2 = 1
      let k : AccKind := if add then .atomic else .write
      let pas := (List.range 8).map fun i => s.engPa none p k (va + i)
      (s.jobsDone p q = false → exec (.signalWrite p q) s = .next s) ∧
      (s.jobsDone p q = true → va + 8 ≤ 2 ^ 51 → s.engXlate none p k 8 (rangePages [(va, va + 7)]) (s.lq p q).miss = .ok →
        s.snoop = [] → s.poison = [] → ∃ t, exec (.signalWrite p q) s = .next t ∧
          t.mem = ((pas.zip (leBytes 8 (if add then (leNat (pas.map s.rdByte) + fld b 16 8) % 2 ^ 64 else fld b 16 8))).foldl
            (fun s x => s.wrByte x.1 x.2) s).mem ∧
          t.jobs = s.jobs ∧ t.waves = s.waves ∧
          (∀ l, s.lq p q = l → (s.parts[p]?).isSome → (t.lq p q).head = l.head + 1 ∧ (t.lq p q).hold = none))))

/-- R353, R357, R358: the packet at the head of a queue. A good NOP is consumed; DEADLINE is consumed and waits for
the next job; CANCEL cancels what it names and is consumed; SIGNAL holds its queue; FENCE with every counter reached
is consumed, with its four slots, and otherwise holds; a packet with a bad header, or whose reserved bytes are not
0, is consumed with its code, EV, its position and an interrupt. R352, R354, R355, R358, R459: a LAUNCH or GRAPH
whose launches parse opens a job where none is open, adds one graph with its launches, and is consumed; one that
breaks a rule is rejected with its code; those of a skipped job are consumed with no unit. What is read is read at
the slices first. The model's choice: a packet's reserved bytes are judged in the order stated here, so that a CANCEL
of a kind above 2 has code 2, and a FENCE of no counter or of more than 12 code 8 whatever its reserved bytes
(log 64). -/
def Obligations.QueuePackets : Prop :=
  (∀ (s : State) (p q : Nat) (b : List Byte), s.packet p q = some b → (s.lq p q).hold = none → fld b 0 1 ≠ 1 → fld b 0 1 ≠ 2 →
    let t := fld b 0 1
    let s1 := s.touchSlots p q
    let rejects (i : Instr) (c : Nat) : Prop :=
      exec i s = .next (((s1.modLq p q fun l => { l with ev := true, code := BitVec.ofNat 8 c, epos := l.head }).msix
        (8 * p + q)).consume p q b)
    let i : Instr := if t = 3 then .fencePacket p q else if t = 4 then .signalPacket p q else if t = 5 then .deadlinePacket p q
      else if t = 6 then .cancelPacket p q else .nopPacket p q
    let n := fld b 8 1
    (∀ c, hdrCode b = some c → rejects i c) ∧
    (hdrCode b = none →
      (t = 0 → (zeros b 8 64 = true → exec i s = .next (s1.consume p q b)) ∧ (zeros b 8 64 = false → rejects i 2)) ∧
      (t = 4 → (zeros b 24 64 = true → exec i s = .next (s1.modLq p q fun l => { l with hold := some 0 })) ∧
        (zeros b 24 64 = false → rejects i 2)) ∧
      (t = 5 → (zeros b 24 64 = true → exec i s = .next ((s1.modLq p q fun l =>
          { l with dl := some (BitVec.ofNat 64 (fld b 8 8), BitVec.ofNat 64 (fld b 16 8)) }).consume p q b)) ∧
        (zeros b 24 64 = false → rejects i 2)) ∧
      (t = 6 → (zeros b 9 12 = true ∧ zeros b 16 64 = true ∧ n ≤ 2 → exec i s = .next ((s1.cancelBy p
          (if n = 0 then .ltag else if n = 1 then .gtag else .jtag) (BitVec.ofNat 32 (fld b 12 4))).consume p q b)) ∧
        (zeros b 9 12 = false ∨ zeros b 16 64 = false ∨ 2 < n → rejects i 2)) ∧
      (t = 3 → (n = 0 ∨ 12 < n → rejects i 8) ∧
        (1 ≤ n → n ≤ 12 → zeros b 9 16 = true → zeros b (16 + 16 * n) 256 = true →
          let u := (List.range n).foldl (fun s k => s.touchVa p (s.lq p q).miss (fld b (16 + 16 * k) 8) 8 true) s1
          (u.fenceTest p (u.lq p q).miss b (List.range n) = .ok true → exec i s = .next (u.consume p q b)) ∧
          (u.fenceTest p (u.lq p q).miss b (List.range n) = .ok false →
            exec i s = .next (u.modLq p q fun l => { l with hold := some (u.cycle + 4096), miss := [] })))))) ∧
  (∀ (s : State) (p q : Nat) (b : List Byte) (t : Nat), s.packet p q = some b → (s.lq p q).hold = none → fld b 0 1 = t →
    t = 1 ∨ t = 2 → hdrCode b = none →
    let i : Instr := if t = 1 then .launchPacket p q else .graphPacket p q
    let s1 := s.touchSlots p q
    (∀ jid, (s.lq p q).skip = some jid → exec i s = .next ((s1.closeJob p q jid b).consume p q b)) ∧
    ((s.lq p q).skip = none →
      let v := s1.touchUnits p (s1.lq p q).miss b
      (∀ n, v.parseUnits p (v.lq p q).miss b = .code n → exec i s = .next (v.reject p q n b)) ∧
      (∀ bs : List Body, v.parseUnits p (v.lq p q).miss b = .ok bs → (v.lq p q).job = none → v.gangBad p bs = false →
        ∃ (u : State) (ls : List Launch) (j : Job) (g : Graph), exec i s = .next u ∧ u.launches = s.launches ++ ls ∧ ls.length = bs.length ∧
          (∀ (k : Nat) (x : Body), bs[k]? = some x → ∃ y : Launch, ls[k]? = some y ∧ y.kern = x.kern ∧ y.gx = x.gx ∧ y.gy = x.gy ∧ y.gz = x.gz ∧
            y.args = x.args ∧ y.lcnt = x.lcnt ∧ y.preds = x.preds ∧ y.idx = k ∧ y.part = p ∧ y.jid = s.nextSeq ∧
            y.next = 0 ∧ y.retired = 0 ∧ y.completed = false) ∧
          u.graphs = s.graphs ++ [g] ∧ g.nl = bs.length ∧ g.part = p ∧ g.jid = s.nextSeq ∧
          g.gcnt = (if t = 2 then BitVec.ofNat 64 (fld b 40 8) else 0) ∧
          j ∈ u.jobs ∧ j.part = p ∧ j.q = some q ∧ j.prio = (s.part p).clamp (fld b 3 1 % 64) ∧
          u.waves = s.waves ∧ u.groups = s.groups ∧ u.mem = s.mem)))

/-- R363, R364, R366–R371: a placement decision places the first launch in rank that fits, on a core that takes it, once per
cycle, a gang whole or not at all, and nothing where none fits; launches rank by job priority, then by deadline, then by the
age of their job, graph order and index; a launch with no group placed for 200 µs may reserve its cores; a group all of whose waves have exited and
whose work is done retires, and gives its allotments back; a job whose slack falls below its estimate is promoted
once, by 8, within its band. R29–R31, R359: a launch all of whose groups have retired adds 1 to its completion
counter, if it has one, and is completed; a job, after its graphs, goes with its units. The model's choice: the first placement of a launch empties every L1 of the partition
(log 72), and a wave's count of cycles without issue starts at its placement (log 36). -/
def Obligations.Placements : Prop :=
  (∀ (s : State) (p : Nat) (d : Part), s.parts[p]? = some d →
    (∀ l, d.en = true → d.held = none → d.run = .idle → d.placedAt ≠ some s.cycle → ∀ pre post,
      s.ranked p = pre ++ l :: post → (∀ x ∈ pre, x.lid ≠ l.lid ∧ s.tryPlace x = none) →
      l.kern.gang = false → ∀ i n c, l.nextGroup = some (i, n) → s.pick l.kern (s.open_ l (s.placeable p l.cmask)) = some c →
      l.part = p → ∃ t g ws, exec (.placementDecision p) s = .next t ∧ t.groups = s.groups ++ [g] ∧ g.id = ⟨p, l.lid, i⟩ ∧
        g.core = c ∧ g.relaunch = n ∧ g.exited = 0 ∧ g.kern = l.kern ∧ t.waves = s.waves ++ ws ∧ ws.length = l.kern.waves ∧
        (∀ w ∈ ws, w.grp = g.id ∧ w.id.core = c ∧ w.pc = l.kern.entry ∧ w.exec = w.present ∧ w.life = .live ∧ w.v = [] ∧
          w.s = [] ∧ w.p = [] ∧ w.prio = s.jp l ∧ w.last = s.cyc c ∧ w.notBefore = s.cyc c + 1) ∧
        t.launches = upd (fun x => x.part = p ∧ x.lid ∈ pre.map (·.lid)) (fun x => { x with offer := [] })
          (upd (fun x => x.part = p ∧ x.lid = l.lid) (fun x => { x.placed i with since := some s.timebase.toNat }) s.launches) ∧
        (l.next = 0 → l.redo = [] → ∀ x ∈ t.l1, x.core ∉ s.coresOf p) ∧ t.mem = s.mem ∧
        t.parts[p]? = some { d with placedAt := some s.cycle
                                    resv := d.resv.bind fun r => if r.lid = l.lid then none else some r }) ∧
    (∀ l pre post, d.en = true → d.held = none → d.run = .idle → d.placedAt ≠ some s.cycle →
      s.ranked p = pre ++ l :: post → (∀ x ∈ pre, s.tryPlace x = none) → l.kern.gang = true → l.next = 0 → l.redo = [] →
      l.part = p → (s.tryPlace l).isSome = true → ∃ (t : State) (gs : List Group) (ws : List Wave), exec (.placementDecision p) s = .next t ∧
        t.groups = s.groups ++ gs ∧ gs.length = l.total ∧ t.waves = s.waves ++ ws ∧ ws.length = l.total * l.kern.waves ∧
        (∀ (i : Nat) (g : Group), gs[i]? = some g → g.id = ⟨p, l.lid, i⟩ ∧ g.kern = l.kern ∧ g.relaunch = 0 ∧ g.exited = 0 ∧
          g.core ∈ s.open_ l (s.placeable p l.cmask)) ∧
        (∀ w ∈ ws, w.life = .live ∧ w.pc = l.kern.entry ∧ w.exec = w.present ∧ w.notBefore = s.cyc w.id.core + 1 ∧
          ∃ g ∈ gs, w.grp = g.id ∧ w.id.core = g.core) ∧ t.mem = s.mem) ∧
    ((∀ x ∈ s.ranked p, s.tryPlace x = none) → ∃ t, exec (.placementDecision p) s = .next t ∧ t.groups = s.groups ∧
      t.waves = s.waves ∧ t = { s with launches := t.launches }) ∧
    ((∀ l, l ∈ s.ranked p ↔ l ∈ s.launches ∧ l.part = p ∧ s.waiting l = true) ∧
      ((∀ j ∈ s.jobs, j.prio ≤ 63) → (s.ranked p).Pairwise fun a b => s.jp b ≤ s.jp a ∧
        (s.jp a = s.jp b → a.offer = [] → b.offer = [] → ∀ ja jb, s.jobOf a = some ja → s.jobOf b = some jb →
          (∀ y, jb.deadline = some y → ∃ x, ja.deadline = some x ∧ x ≤ y) ∧
          (ja.deadline = jb.deadline → lexLt [jb.order.1, jb.order.2.1, jb.order.2.2, b.gi, b.idx]
            [ja.order.1, ja.order.2.1, ja.order.2.2, a.gi, a.idx] = false)))) ∧
    (∀ l, s.resvDue p = some l → ∃ t, exec (.reservationStart p) s = .next t ∧
      t.parts[p]? = some { d with resv := some ⟨l.lid, s.resvCores l⟩ } ∧ t = { s with parts := t.parts }) ∧
    (∀ id g, s.group? id = some g → s.retirable g = true → ∃ t, exec (.groupRetire id) s = .next t ∧
      t.group? id = none ∧ (∀ w ∈ t.waves, w.grp ≠ id) ∧ (∀ k, k ≠ id → t.group? k = s.group? k) ∧
      (∀ w ∈ s.waves, w.grp ≠ id → w ∈ t.waves) ∧ (∀ a ∈ t.accs, a.grp ≠ id) ∧
      (∀ l, s.launch? id.part id.lid = some l → t.launch? id.part id.lid =
        some { l with retired := l.retired + 1, offer := l.offer ++ [none] })) ∧
    (∀ jid j, s.job? p jid = some j → s.lehrDue j = true → ∃ t, exec (.lehrPromotion p jid) s = .next t ∧
      t.job? p jid = some { j with prio := min (min (j.prio + 8) 63) d.pceil, promoted := true } ∧ t.groups = s.groups ∧
      t.launches = s.launches ∧ t.mem = s.mem)) ∧
  (∀ (s : State) (p : Nat), s.saving p = false → s.snoop = [] → s.poison = [] →
    let adds (va : W64) (t : State) : Prop :=
      (va = 0 → t.mem = s.mem) ∧
      (va ≠ 0 → va.toNat % 8 = 0 → va.toNat < 2 ^ 51 → s.engXlate none p .atomic 8 [va] [] = .ok →
        let pa := s.engPa none p .atomic va.toNat
        t.mem = (s.wrNat pa 8 ((s.rdNat pa 8 + 1) % 2 ^ 64)).mem)
    let ready (va : W64) : Prop :=
      va = 0 ∨ (va.toNat % 8 = 0 ∧ va.toNat < 2 ^ 51 ∧ s.engXlate none p .atomic 8 [va] [] = .ok)
    (∀ lid l, s.launch? p lid = some l → s.launchOver l = true → l.wait = [] → ready l.lcnt →
      ∃ t, exec (.unitComplete p (.launch lid)) s = .next t ∧ adds l.lcnt t ∧
        t.launch? p lid = some { l with completed := true, wait := [] } ∧ t.jobs = s.jobs ∧ t.waves = s.waves) ∧
    (∀ jid gi g, s.graphs.find? (fun x => x.part = p && x.jid = jid && x.gi = gi) = some g → g.completed = false →
      s.graphDone g = true → g.wait = [] → ready g.gcnt →
      ∃ t, exec (.unitComplete p (.graph jid gi)) s = .next t ∧ adds g.gcnt t ∧
        t.graphs.find? (fun x => x.part = p && x.jid = jid && x.gi = gi) = some { g with completed := true, wait := [] } ∧
        t.launches = s.launches ∧ t.jobs = s.jobs ∧ t.waves = s.waves) ∧
    (∀ jid j, s.job? p jid = some j → s.jobDone j = true → j.wait = [] → ready j.jcnt →
      ∃ t, exec (.unitComplete p (.job jid)) s = .next t ∧ adds j.jcnt t ∧ t.job? p jid = none ∧
        (∀ x ∈ t.launches, ¬ (x.part = p ∧ x.jid = jid)) ∧ (∀ x ∈ t.graphs, ¬ (x.part = p ∧ x.jid = jid)) ∧
        (∀ x, x ∈ t.jobs ↔ x ∈ s.jobs ∧ ¬ (x.part = p ∧ x.jid = jid)) ∧ t.waves = s.waves))

/-! ### Partition control -/

/-- R345, R346, R348, R374, R231, R233: COMMIT of a staged descriptor that breaks no rule puts it in force, at once
or, where it carves more ways, in a cycle after the lines in them are written back and gone, whatever is staged by then,
but measured at once (R430); a CSM granule newly allotted reads 0 and no other byte of memory changes. One that breaks a rule is rejected with the
lowest, and any command while one runs, like COMMIT and KILL in the cycle of a context switch, with 10. R372, R375:
SAVE goes step by step: it starts where its image fits, halts its cores, completes its image, and writes it, the
first three at once with no resident wave; then, once no bias flip holds a line of it (R449), the image stands in memory, the
partition holds it and nothing of it is resident but stores of ended groups on their way, while other partitions' waves are as
they were. R374, R375: RESTORE waits for a flip that holds a line of the header (log 34); of an image that its partition can
take it brings its waves back, each with its registers and masks as they were, and its PC and flags too, but for one in a WAITA, which may issue
again where its location is mapped no more; its cores' L1s are left empty, and any other image is rejected with 12.
What an image of another A9 holds is open (log 37), as is when a carve's write-back ends (log 88). The model's choice: the L1s
of clusters newly owned are empty (log 72), and a partition that already holds an image keeps what that holds at a SAVE, which
is no part of these clauses (log 70). KILL ends the waves of every group of its partition, or discards what it
holds, and no wave of another partition changes. -/
def Obligations.PartitionCommands : Prop :=
  (∀ (s : State) (p : Nat) (d : Part) (img : W64), s.parts[p]? = some d → Memory.wf s.mem = true →
    let rejected (i : Instr) (r : Nat) : Prop := ∃ t, exec i s = .next t ∧ t = { s with parts := t.parts } ∧
      t.parts[p]? = some { d with rej := true, rsn := BitVec.ofNat 8 r } ∧ ∀ k, k ≠ p → t.parts[k]? = s.parts[k]?
    let applied (x : PDesc) (t : State) : Prop := (∃ d', t.parts[p]? = some d' ∧ d'.force = x ∧ d'.staged = d.staged ∧
        d'.run = .idle ∧ d'.lqs = d.lqs ∧ d'.tvec = d.tvec) ∧ t.waves = s.waves ∧ t.groups = s.groups ∧ t.jobs = s.jobs ∧
      ∀ pa, s.cxlOf pa = none → let g := (pa - 0x10000000000) / 2 ^ 20
        t.rdByte pa = if 0x10000000000 ≤ pa ∧ pa < 0x10010000000 ∧ x.csm.1 ≤ g ∧ g < x.csm.1 + x.csm.2 ∧
          ¬ (d.force.csm.1 ≤ g ∧ g < d.force.csm.1 + d.force.csm.2) then 0 else s.rdByte pa
    (d.run ≠ .idle → rejected (.commit p) 10 ∧ rejected (.save p img) 10 ∧ rejected (.migsave p img) 10 ∧
      rejected (.restore p img) 10 ∧ rejected (.kill p) 10) ∧
    (s.switchDue p = true → rejected (.commit p) 10 ∧ rejected (.kill p) 10) ∧
    (d.run = .idle → s.switchDue p = false → (∀ r rs, s.commitBad p = r :: rs → rejected (.commit p) r) ∧
      (s.commitBad p = [] → s.carveWith p d.staged ≤ s.carveWith p d.force →
        ∃ t, exec (.commit p) s = .next t ∧ applied d.staged t ∧ t.dirty = s.dirty ∧ t.slc = s.slc ∧
          (∀ d', t.parts[p]? = some d' → d'.pmr = d.measured d.staged) ∧
          ∀ l ∈ t.l1, ∀ c, d.staged.clu.getLsbD c = true → d.force.clu.getLsbD c = false → l.core / 4 ≠ c) ∧
      (s.commitBad p = [] → s.carveWith p d.force < s.carveWith p d.staged →
        ∃ t, exec (.commit p) s = .next t ∧
          t.parts[p]? = some { d with run := .carve d.staged none, pmr := d.measured d.staged } ∧
          t = { s with parts := t.parts })) ∧
    (∀ x, d.run = .carve x none → ∃ t, exec (.carvedWayWritebackEnd p) s = .next t ∧ (∀ l ∈ t.slc, l.way < 24 - s.carved) ∧
      t.parts[p]? = some { d with run := .carve x (some s.cycle) } ∧ t.mem = s.mem ∧ t.waves = s.waves) ∧
    (∀ x c, d.run = .carve x (some c) → (s.cycle ≤ c → exec (.carvedWayWritebackEnd p) s = .next s) ∧
      (c < s.cycle → ∃ t, exec (.carvedWayWritebackEnd p) s = .next t ∧ applied x t ∧ t.slc = s.slc))) ∧
  (∀ (s : State) (p : Nat) (d : Part) (img : W64), s.parts[p]? = some d →
    let starts (i : Instr) (mig : Bool) : Prop := d.run = .idle → imgBase img + imgBound d mig ≤ s.dramEnd →
      ∃ t d' n, exec i s = .next t ∧ t.parts[p]? = some d' ∧ n ≤ imgBound d mig ∧
        ((∃ w ∈ s.waves, w.grp.part = p) → d' = { d with run := .save (imgBase img) mig 1 n, imgc := false, imgw := false, imgpg := 0 }) ∧
        ((∀ w ∈ s.waves, w.grp.part ≠ p) → d' = { d with
          run := .save (imgBase img) mig 3 n, imgc := true, imgw := false, imgpg := 0, thalt := s.timebase, timgc := s.timebase }) ∧
        t = { s with parts := t.parts, fresh := s.fresh + 1 }
    starts (.save p img) false ∧ starts (.migsave p img) true ∧
    (∀ a mig n, d.run = .save a mig 1 n → (s.halted p = false → exec (.coresHalted p) s = .next s) ∧
      (s.halted p = true → ∃ t, exec (.coresHalted p) s = .next t ∧ t = { s with parts := t.parts } ∧
        t.parts[p]? = some { d with run := .save a mig 2 n, thalt := s.timebase })) ∧
    (∀ a mig n, d.run = .save a mig 2 n → (∀ x ∈ s.accs, x.grp.part = p → x.savable = true) →
      ∃ t, exec (.imageComplete p) s = .next t ∧ t = { s with parts := t.parts } ∧
        t.parts[p]? = some { d with run := .save a mig 3 n, imgc := true, timgc := s.timebase }) ∧
    (∀ a mig n, d.run = .save a mig 3 n → s.flipHolds a n = true → exec (.imageWritten p) s = .next s) ∧
    (∀ a mig n, d.run = .save a mig 3 n → s.flipHolds a n = false → s.snoop = [] → d.held = none →
      ∃ t d' x, exec (.imageWritten p) s = .next t ∧ t.parts[p]? = some d' ∧ d'.run = .idle ∧ d'.imgw = true ∧
        d'.held = some a ∧ d'.imgpg = BitVec.ofNat 32 ((n + 4095) / 4096) ∧ x ∈ t.images ∧ x.pa = a ∧ x.part = p ∧
        x.waves.length = (s.waves.filter fun w => w.grp.part = p).length ∧
        (a + x.bytes.length ≤ s.dramEnd → (∀ pa, a ≤ pa → pa < a + x.bytes.length → s.cxlOf pa = none) →
          t.rdBytes a x.bytes.length = x.bytes) ∧
        (∀ w, w ∈ t.waves ↔ w ∈ s.waves ∧ w.grp.part ≠ p) ∧ (∀ g, g ∈ t.groups ↔ g ∈ s.groups ∧ g.id.part ≠ p) ∧
        (∀ l, l ∈ t.launches ↔ l ∈ s.launches ∧ l.part ≠ p) ∧ (∀ x, x ∈ t.accs ↔ x ∈ s.accs ∧ (x.grp.part ≠ p ∨ x.op.writes = true ∧ x.savable = false)) ∧
        (∀ l ∈ t.l1, l.core ∉ s.coresOf p))) ∧
  (∀ (s : State) (p : Nat) (d : Part) (img : W64), s.parts[p]? = some d → d.run = .idle →
    (s.flipHolds (imgBase img) imgHdr = true → ∃ t, exec (.restore p img) s = .next t ∧ t = { s with parts := t.parts } ∧
      t.parts[p]? = some { d with run := .restore img }) ∧
    (s.snoop = [] → s.flip = none → s.restorable p (imgBase img) = false → ∃ t, exec (.restore p img) s = .next t ∧ t = { s with parts := t.parts } ∧
      t.parts[p]? = some { d with rej := true, rsn := 12 }) ∧
    (∀ x : Image, s.snoop = [] → s.flip = none → s.restorable p (imgBase img) = true → s.imageOf p (imgBase img) = x →
      (∀ a ∈ s.accs, a.redo = false) →
      (∀ a ∈ x.accs, a.redo = false) →
      ∃ (t : State) (ws : List Wave), exec (.restore p img) s = .next t ∧ t.waves = s.waves ++ ws ∧
        ws.length = x.waves.length ∧
        (∀ (k : Nat) (y : Wave), x.waves[k]? = some y → ∃ z : Wave, ws[k]? = some z ∧ z.grp = { y.grp with part := p } ∧
          z.v = y.v ∧ z.s = y.s ∧ z.p = y.p ∧ z.h = y.h ∧ z.exec = y.exec ∧ z.tr = y.tr ∧
          z.present = y.present ∧ z.prio = y.prio ∧ z.life = y.life ∧
          ((∀ o va pa v dl sf n, y.wait ≠ .addr o va pa v dl sf n) → z.pc = y.pc ∧ z.flags = y.flags)) ∧
        (∀ l ∈ t.l1, l.core ∉ s.coresOf p) ∧
        (∀ d', t.parts[p]? = some d' → d'.held = none ∧ d'.force = d.force)) ∧
    (d.held.isSome → s.switchDue p = false → ∃ t, exec (.kill p) s = .next t ∧ t.waves = s.waves ∧ ∀ d', t.parts[p]? = some d' → d'.held = none) ∧
    (d.held = none → s.switchDue p = false → ∃ t, exec (.kill p) s = .next t ∧
      (∀ k x, t.wave? k = some x → x.grp.part = p → (s.group? x.grp).isSome → x.life = .exited) ∧
      (∀ k x, s.wave? k = some x → x.grp.part ≠ p → t.wave? k = some x) ∧ t.mem = s.mem))

/-! ### Hosts -/

/-- R385–R387, R447–R449: BFLIP, while none runs, answers with the bias of its page, and starts a flip where the
bias changes; a flip to host issues the write-backs of the page's modified lines, which LPDDR-6 accepts in any order, and has
their bytes from then on; in a cycle after the last answer or write-back the bias has changed and BUSY falls. A command on a page outside LPDDR-6 answers 0, and one while a flip runs is ignored. R271, R382, R383: a host
that answers a back-invalidate gives its copy up, and what it had modified is merged; the slice answers the
snoop of a line by the host or the peer A9 (R397) that homes it, with data where it holds the line modified, which the home then
has, and shares the line at most, or has it no more. R244, R378, R385, R396: with no host copy in the way, a host's read of HDM answers
the coherent bytes, its write of a device-biased line is done at the slice, and its atomic writes there what it
makes of the bytes that it answers; its write with ownership of a host-biased line stays in its copy; the CSM aperture serves aligned accesses of 4 and 8 bytes, with 0 for a granule
that no partition owns, and refuses others. The model's choice: the write-backs of a page flipped to host are issued as BFLIP
takes effect, and one write-back at least is accepted in each eager cycle (log 73); a host's write takes ownership only
on a host-biased page and is merged at the slice elsewhere (log 74); a line homed with a host is taken back for its own
access (log 75), a peer A9 caches nothing (log 76), and a poisoned line answers a read with poison (log 77). -/
def Obligations.HostMemory : Prop :=
  (∀ (s : State) (page : BitVec 28),
    let n := page.toNat
    let b := s.bias.contains n
    let answers (i : Instr) (b : Bool) : Prop := exec i s = .next { s with bfpage := page, biasRes := b }
    (s.flip.isSome → exec (.bflipToDevice page) s = .next s ∧ exec (.bflipToHost page) s = .next s ∧
      exec (.bflipQuery page) s = .next s) ∧
    (s.flip = none → s.dramEnd ≤ 4096 * n →
      answers (.bflipToDevice page) false ∧ answers (.bflipToHost page) false ∧ answers (.bflipQuery page) false) ∧
    (s.flip = none → 4096 * n < s.dramEnd → (∀ pa, pa / 4096 = n → s.cxlOf pa = none) → answers (.bflipQuery page) b ∧
      (b = false → answers (.bflipToDevice page) false) ∧ (b = true → answers (.bflipToHost page) true) ∧
      (b = true → ∃ t f, exec (.bflipToDevice page) s = .next t ∧ t.flip = some f ∧ f.page = n ∧ f.toHost = false ∧
        f.done = s.cycle ∧ (∀ h l, (h, l) ∈ f.waiting ↔ l / 32 = n ∧ ∃ x ∈ s.snoop, x.host = h ∧ x.line = l) ∧
        f.back = [] ∧
        t.snoop = upd (fun x => x.line / 32 = n) (fun x => { x with asked := true }) s.snoop ∧
        t = { s with bfpage := page, biasRes := true, flip := t.flip, out := t.out, snoop := t.snoop }) ∧
      (b = false → ∃ t f, exec (.bflipToHost page) s = .next t ∧ t.flip = some f ∧ f.page = n ∧ f.toHost = true ∧
        f.waiting = [] ∧ f.done = s.cycle ∧ (∀ l bs, (l, bs) ∈ f.back ↔ l ∈ s.dirty ∧ l / 32 = n ∧
          bs = (List.range 128).map fun i => s.mem.get (128 * l + i)) ∧
        (∀ l, l ∈ t.dirty ↔ l ∈ s.dirty ∧ l / 32 ≠ n) ∧
        t = { s with bfpage := page, biasRes := false, flip := t.flip, dirty := t.dirty })) ∧
    (∀ f, s.flip = some f →
      (f.waiting = [] ∧ f.back = [] ∧ f.done < s.cycle → ∃ t, exec .biasFlipEnd s = .next t ∧ t.flip = none ∧
        t.biasRes = f.toHost ∧ (f.page ∈ t.bias ↔ f.toHost = true) ∧ (∀ x, x ≠ f.page → (x ∈ t.bias ↔ x ∈ s.bias)) ∧
        t = { s with bias := t.bias, biasRes := t.biasRes, flip := none }) ∧
      (f.back = [] ∧ (f.waiting ≠ [] ∨ s.cycle ≤ f.done) → exec .biasFlipEnd s = .next s) ∧
      (f.back ≠ [] → ∃ t f', exec .biasFlipEnd s = .next t ∧ t.flip = some f' ∧
        f' = { f with back := f'.back, done := s.cycle } ∧ (∀ b ∈ f'.back, b ∈ f.back) ∧
        (s.eager = true → f'.back.length < f.back.length) ∧ t = { s with home := t.home, flip := t.flip, fresh := s.fresh + 1 } ∧
        (Memory.wf s.home = true → (f.back.map (·.1)).Nodup → (∀ b ∈ f.back, b.2.length = 128) →
          (∀ b ∈ f.back, b ∉ f'.back → ∀ i v, b.2[i]? = some v → t.home.get (128 * b.1 + i) = v) ∧
          ∀ a, (∀ b ∈ f.back, b ∉ f'.back → a / 128 ≠ b.1) → t.home.get a = s.home.get a)))) ∧
  (∀ (s : State) (host line : Nat) (own : Bool), (∀ pa, pa / 128 = line → s.cxlOf pa = none) →
    (∀ x, s.snoop.find? (fun x => x.host = host && x.line = line && x.asked) = some x → ∃ t,
      exec (.backInvalidateResponse host line) s = .next t ∧ (∀ y, y ∈ t.snoop ↔ y ∈ s.snoop ∧ y ≠ x) ∧
      (x.dirty = false → t.mem = s.mem ∧ t.dirty = s.dirty) ∧ (x.dirty = true → t.mem = (s.wrBytes (128 * line) x.bytes).mem)) ∧
    (s.portUp host = true → State.hostOf (128 * line) = some host → ∃ t, exec (.hostSnoop host line own) s = .next t ∧
      t.out = s.out ++ [.snoop host line (if s.modified line then some (s.rdBytes (128 * line) 128) else none)] ∧
      line ∉ t.dirty ∧ (∀ i, line ∈ s.dirty → i < 128 → t.home.get (128 * line + i) = s.rdByte (128 * line + i)) ∧
      (∀ x ∈ t.slc, x.line = line → own = false ∧ x.own = false) ∧
      t = { s with out := t.out, home := t.home, dirty := t.dirty, flip := t.flip, slc := t.slc }) ∧
    (s.portUp host = false ∨ State.hostOf (128 * line) ≠ some host → exec (.hostSnoop host line own) s = .next s)) ∧
  (∀ (s : State) (host line : Nat) (own : Bool), 2 ≤ host → s.cxlOf (128 * line) = some (host - 2) →
    s.peerPage (128 * line) = true → ∃ t, exec (.hostSnoop host line own) s = .next t ∧
      t.out = s.out ++ [.snoop host line (if s.modified line then some (s.rdBytes (128 * line) 128) else none)] ∧
      s.lineKey line ∉ t.dirty ∧ (∀ x ∈ t.slc, x.line = line → own = false ∧ x.own = false) ∧
      t = { s with out := t.out, home := t.home, dirty := t.dirty, flip := t.flip, slc := t.slc }) ∧
  (∀ (s : State) (host pa size : Nat) (v : W64) (keep own : Bool) (bs : List Byte) (x : HostAtom),
    (s.memPort host = true → State.hostOf pa = none → s.snoop = [] → s.bias = [] →
      let slcOnly (t : State) : Prop := t = { s with
        slc := t.slc, home := t.home, dirty := t.dirty, flip := t.flip, fresh := t.fresh, out := t.out, mem := t.mem
        poison := t.poison }
      (s.hostReach host pa size = true → ∃ t, exec (.hostMemRead host pa size keep) s = .next t ∧ slcOnly t ∧ t.mem = s.mem ∧
        t.poison = s.poison ∧ t.out.getLast? = some (if s.poisoned pa then .poison host else .data host (s.rdBytes pa size))) ∧
      (s.hostReach host pa bs.length = true →
        (∃ t, exec (.hostMemWrite host pa bs own none) s = .next t ∧ slcOnly t ∧ t.mem = (s.wrBytes pa bs).mem ∧
          ∀ l, l ∈ t.poison ↔ l ∈ s.poison ∧ ¬ (bs.length = 128 ∧ l = s.lineKey (pa / 128))) ∧
        (s.poisoned pa = false → ∃ t, exec (.hostMemWrite host pa bs own (some x)) s = .next t ∧ slcOnly t ∧
          t.out.getLast? = some (.data host (s.rdBytes pa bs.length)) ∧
          t.mem = (s.wrBytes pa (leBytes bs.length
            (atomNew x.op x.tag (s.rdNat pa bs.length) (leNat bs) x.cmp.toNat))).mem) ∧
        (s.poisoned pa = true → ∃ t, exec (.hostMemWrite host pa bs own (some x)) s = .next t ∧ t.mem = s.mem ∧
          t.out.getLast? = some (.poison host)))) ∧
    (s.memPort host = true → host < 2 → s.hostBiased pa = true → s.poisoned pa = false → s.snoop = [] →
      s.hostReach host pa bs.length = true → exec (.hostMemWrite host pa bs true none) s = .next { s with
        snoop := [⟨host, pa / 128, true, true, false, overlay (s.rdBytes (128 * (pa / 128)) 128) (pa % 128) bs⟩] }) ∧
    (s.portUp host = true →
      let ok : Prop := (size = 4 ∨ size = 8) ∧ pa % size = 0 ∧ pa < 2 ^ 28
      let a := 0x10000000000 + pa
      let owned : Prop := ∃ p, p < 16 ∧ s.classify p a = none
      (¬ ok → ∀ w, exec (.csmApertureAccess host pa size w) s = .next { s with out := s.out ++ [.unsupported host] }) ∧
      (ok → owned → exec (.csmApertureAccess host pa size (some v)) s = .next (s.wrNat a size v.toNat) ∧
        (s.poisoned a = false → exec (.csmApertureAccess host pa size none) s =
          .next { s with out := s.out ++ [.data host (s.rdBytes a size)] })) ∧
      (ok → ¬ owned → exec (.csmApertureAccess host pa size (some v)) s = .next s ∧
        exec (.csmApertureAccess host pa size none) s = .next { s with out := s.out ++ [.data host (List.replicate size 0)] })))

/-- R388–R392: a lease write through its own port with the nonce renews, arms, disarms or yields, and changes the
nonce; any other counts in BAD. With the deadline past, an armed standby takes over; without one the lease has
expired. R235, R394–R397: a link that fails drops its host's copies, poisons their modified lines and reads
outstanding to its memory, and has each partition that maps it fenced; one that comes up is marked; a CXL window takes
writes of its base and size only while it is disabled; a completion that a window does not give poisons its line.
A partition that a failed link fences is killed and disabled after what ends by itself in that cycle. The model's
choice: an ARM asks nothing of the standby's link (log 78), a completion that a window does not give is counted with
SRC 11 (log 79), and a failed link kills as KILL does (log 80). -/
def Obligations.LeasesAndLinks : Prop :=
  (∀ (s : State) (h : Nat) (p : HostPort) (x : W32) (n : BitVec 16), s.ports[h]? = some p → s.portUp h = true →
    let tries (i : Instr) : Prop := ∃ t, exec i s = .next t ∧ t = { s with ports := t.ports } ∧
      t.ports[h]? = some { p with bad := if p.bad = 0xFF then 0xFF else p.bad + 1 }
    (x ≠ p.nonce → tries (.leaseRenew h x n) ∧ tries (.leaseArm h x) ∧ tries (.leaseDisarm h x) ∧ tries (.leaseYield h x)) ∧
    (s.active = some h → (n = 0 → tries (.leaseRenew h x n)) ∧ tries (.leaseArm h x) ∧ tries (.leaseDisarm h x)) ∧
    (s.active ≠ some h → tries (.leaseRenew h x n) ∧ tries (.leaseYield h x)) ∧
    (x = p.nonce → s.active = some h → n ≠ 0 → ∃ t q, exec (.leaseRenew h x n) s = .next t ∧ t.ports[h]? = some q ∧
      q.period = n ∧ q.deadline = some (s.timebase + BitVec.ofNat 64 (1000 * n.toNat)) ∧ q.expired = false ∧ q.lost = false ∧ q.nonce ≠ 0 ∧
      q.armed = p.armed ∧ q.bad = p.bad ∧ t.active = s.active) ∧
    (∀ a, x = p.nonce → s.active = some a → a ≠ h → (s.port a).up = true → (s.port a).expired = false → (s.port a).lost = false →
      (∃ t q, exec (.leaseArm h x) s = .next t ∧ t.ports[h]? = some q ∧ q.armed = true ∧ q.nonce ≠ 0 ∧ t.active = s.active) ∧
      ∃ t q, exec (.leaseDisarm h x) s = .next t ∧ t.ports[h]? = some q ∧ q.armed = false ∧ q.nonce ≠ 0 ∧ t.active = s.active) ∧
    (s.active = some h → 1 - h < s.nhost → (s.port (1 - h)).armed = true →
      (x = p.nonce → ∃ t, exec (.leaseYield h x) s = .next t ∧ t.active = some (1 - h) ∧ t.hpstat = s.hpstat ||| 4) ∧
      (s.leaseDue = true → ∃ t, exec .leaseExpiry s = .next t ∧ t.active = some (1 - h) ∧ t.hpstat = s.hpstat ||| 4)) ∧
    (s.active = some h → (s.nhost ≤ 1 - h ∨ (s.port (1 - h)).armed = false) → s.leaseDue = true →
      ∃ t, exec .leaseExpiry s = .next t ∧ t.hpstat = s.hpstat ||| 8 ∧ t.ports[h]? = some { p with expired := true } ∧
        t.active = s.active)) ∧
  (∀ (s : State) (h : Nat) (p : HostPort), s.ports[h]? = some p → h < s.nhost →
    (p.up = true → ∃ t q, exec (.linkDown h) s = .next t ∧ t.ports[h]? = some q ∧ q.up = false ∧ q.down = true ∧
      (∀ x ∈ t.snoop, x.host ≠ h) ∧ (∀ x ∈ s.snoop, x.host = h → x.dirty = true → s.lineKey x.line ∈ t.poison) ∧
      (∀ k d, k < 16 → s.parts[k]? = some d → d.hostmap.getLsbD h = true → Event.contain k ∈ t.events) ∧
      (∀ a ∈ t.accs, a.op.sp = false → ∀ l ∈ a.lanes, State.hostOf l.pa = some h → l.perf = true)) ∧
    (∀ k rest, s.events = .contain k :: rest → ∃ t, step s = .next t ∧ (∀ d', t.parts[k]? = some d' → d'.en = false) ∧
      ((s.part k).held = none → ∀ y x, t.wave? y = some x → x.grp.part = k → (s.group? x.grp).isSome → x.life = .exited) ∧
      ∀ y x, s.wave? y = some x → x.grp.part ≠ k → t.wave? y = some x) ∧
    (∃ t q, exec (.linkUp h) s = .next t ∧ t.ports[h]? = some q ∧ q.up = true ∧ t.active = s.active ∧ t.mem = s.mem) ∧
    (∀ (n : Nat) (w : CxWin) (v : W64), n < s.ncxl → s.cxwin[n]? = some w →
      (w.win.getLsbD 63 = true → exec (.cxwinWrite n true v) s = .next s ∧
        ∃ t w', exec (.cxwinWrite n false v) s = .next t ∧ t.cxwin[n]? = some w' ∧ w'.sz = w.sz ∧
          (∀ i, i < 63 → w'.win.getLsbD i = w.win.getLsbD i) ∧ t = { s with cxwin := t.cxwin }) ∧
      (w.win.getLsbD 63 = false → ∃ t, exec (.cxwinWrite n true v) s = .next t ∧
        t.cxwin[n]? = some { w with sz := v &&& 0xFFFFFFFFC0000000 } ∧ t = { s with cxwin := t.cxwin })) ∧
    (∀ pa id k a l, (s.cxlOf pa).isSome → (∀ x ∈ s.slc, x.line ≠ pa / 128) →
      let poisons (who : Option (Nat × Nat)) : Prop := ∃ t, exec (.cxlCompletionTimeout pa who) s = .next t ∧
        s.lineKey (pa / 128) ∈ t.poison ∧ t.waves = s.waves ∧ t.accs = s.accs
      poisons none ∧
      (s.acc? id = some a → a.op.sp = false → l ∈ a.lanes → l.t = k → l.perf = false → l.pa / 128 = pa / 128 →
        poisons (some (id, k)))))

/-! ### Errors and debug -/

/-- R398–R402, R406: a corrected error counts in CE; an uncorrectable one in an L1, an instruction cache or the
translations drops one entry, of that core or of the device, and nothing else; one in the state of a group stops an
idempotent group not yet relaunched twice and sends it back to unplaced in that cycle, and otherwise, relaunched twice
too, kills it or, at a reading wave, raises cause 13 after the cancels and kills of its cycle (R36), in which a wave that waits
has its instruction as the return PC; one in memory poisons a line that is modified or lost, and leaves a clean one as it
is. R403, R404, R412, R423: fencing a cluster takes it from its partition, and every group with its core there has
exited; DRESUME lets the stopped wave that it names go on, for one instruction, or kills its group; a core that lost
packets writes a LOSS, with the packets of R422, into its segment once 36 bytes fit, and one that lost none writes
nothing. The model's choice: which entry an error in copies drops, and that it is one (log 81), what a relaunch releases
(log 69), and what a fenced cluster does to its partition's staged clusters (log 82). -/
def Obligations.ErrorsAndDebug : Prop :=
  (∀ (s : State) (src part : BitVec 8) (addr : W64) (g : Group) (id : GroupId) (pa : Nat),
    let ue (t : State) : Prop := t.err.ue = if s.err.ue = 0xFFFFFF then 0xFFFFFF else s.err.ue + 1
    (∃ t, exec (.correctedError src addr part) s = .next t ∧
      t.err.ce = (if s.err.ce = 0xFFFFFF then 0xFFFFFF else s.err.ce + 1) ∧ t.err.ue = s.err.ue ∧ t.waves = s.waves ∧
      t.groups = s.groups ∧ (s.err.ctl.getLsbD 0 = false → t.mem = s.mem ∧ t.err.tail = s.err.tail)) ∧
    (src = 4 → ∃ t, exec (.uncorrectableError src addr id .other) s = .next t ∧ ue t ∧
      t.waves = s.waves ∧ t.groups = s.groups ∧ (∀ l ∈ t.l1, l ∈ s.l1) ∧ (∀ l ∈ s.l1, l.core ≠ bits addr 63 48 → l ∈ t.l1) ∧
      (t.l1.filter fun l => l.core = bits addr 63 48).length = (s.l1.filter fun l => l.core = bits addr 63 48).length - 1) ∧
    (src = 5 → ∃ t, exec (.uncorrectableError src addr id .other) s = .next t ∧ ue t ∧
      t.waves = s.waves ∧ t.groups = s.groups ∧ (∀ l ∈ t.ic, l ∈ s.ic) ∧ (∀ l ∈ s.ic, l.core ≠ bits addr 63 48 → l ∈ t.ic) ∧
      (t.ic.filter fun l => l.core = bits addr 63 48).length = (s.ic.filter fun l => l.core = bits addr 63 48).length - 1) ∧
    (src = 6 → ∃ t, exec (.uncorrectableError src addr id .other) s = .next t ∧ ue t ∧
      t.waves = s.waves ∧ t.groups = s.groups ∧ (∀ x ∈ t.tlb, x ∈ s.tlb) ∧ (∀ x ∈ t.walks, x ∈ s.walks) ∧
      t.tlb.length + t.walks.length = s.tlb.length + s.walks.length - 1) ∧
    (s.group? id = some g → g.again = true → ∀ rest, s.events = .relaunch id :: rest → ∃ t, step s = .next t ∧
      ∀ l, s.launch? id.part id.lid = some l → l.stat = .live →
        t.group? id = none ∧ (∀ w ∈ t.waves, w.grp ≠ id) ∧ (∀ a ∈ t.accs, a.grp = id → a.op.writes = true) ∧
        t.launch? id.part id.lid =
          some { l with redo := redoIns (id.idx, g.relaunch + 1) l.redo, offer := l.offer ++ [some id.idx] } ∧
        (∀ k x, s.wave? k = some x → x.grp ≠ id → t.wave? k = some x)) ∧
    (s.group? id = some g → src.toNat < 4 → g.killed = false → g.back = none →
      (g.kern.idem = true → g.relaunch < 2 → ∃ t g', exec (.uncorrectableError src addr id .other) s = .next t ∧ ue t ∧
        t.group? id = some g' ∧ g'.killed = true ∧ g'.again = true ∧ g'.relaunch = g.relaunch ∧
        .relaunch id ∈ t.events ∧ t.launches = s.launches ∧
        (∀ k x, t.wave? k = some x → x.grp = id → x.life = .exited) ∧
        (∀ k x, s.wave? k = some x → x.grp ≠ id → t.wave? k = some x)) ∧
      (g.kern.idem = false ∨ 2 ≤ g.relaunch → ∃ t g', exec (.uncorrectableError src addr id .other) s = .next t ∧ ue t ∧
        t.group? id = some g' ∧ g'.killed = true ∧ g'.relaunch = g.relaunch ∧
        (∀ k x, t.wave? k = some x → x.grp = id → x.life = .exited) ∧
        (∀ k x, s.wave? k = some x → x.grp ≠ id → t.wave? k = some x)) ∧
      (∀ w, (g.kern.idem = false ∨ 2 ≤ g.relaunch) → s.wave? w.id = some w → w.grp = id → w.life = .live →
        ∃ t, exec (.uncorrectableError src addr id (.wave w.id)) s = .next t ∧ ue t ∧ t.waves = s.waves ∧
          t.groups = s.groups ∧ .errTrap w.uid (BitVec.ofNat 64 s.err.pos) ∈ t.events)) ∧
    (s.group? id = some g → g.killed = false → g.back = none → ∀ w tail rest, s.events = .errTrap w.uid tail :: rest →
      s.waveUid? w.uid = some w → s.wave? w.id = some w → w.grp = id → w.life = .live → w.handler = .none →
      (w.wait = .none ∨ ∃ pd tok dl sf, w.wait = .bar pd tok dl sf) → tvecOk (s.part id.part).tvec = true →
      ∃ t w' g', step s = .next t ∧ t.wave? w.id = some w' ∧ w'.tr.cause = 13 ∧
        w'.tr.tepc = (if w.wait = .none then w.pc else w.pc - 12) ∧ w'.tr.tval = tail ∧ w'.wait = .none ∧
        w'.pc = (s.part id.part).tvec ∧ w'.handler = .trap ∧ t.group? id = some g' ∧ g'.killed = true ∧ g'.back = some w.uid ∧
        (∀ k x, t.wave? k = some x → x.grp = id → x.uid ≠ w.uid → x.life = .exited) ∧
        (∀ k x, s.wave? k = some x → x.grp ≠ id → t.wave? k = some x)) ∧
    (s.present pa = true → State.isCsm pa = false →
      let line := s.lineKey (pa / 128)
      (s.modified (pa / 128) = false → ∃ t, exec (.memoryUncorrectableError .line pa) s = .next t ∧ ue t ∧ t.poison = s.poison) ∧
      (s.modified (pa / 128) = true → ∃ t, exec (.memoryUncorrectableError .line pa) s = .next t ∧ ue t ∧ line ∈ t.poison) ∧
      ∃ t, exec (.memoryUncorrectableError .dram pa) s = .next t ∧ ue t ∧ line ∈ t.poison)) ∧
  (∀ (s : State) (c p : Nat) (lid : W32) (n : BitVec 4),
    (s.cluUp c = true → c < s.clusters.length → ∃ t, exec (.clusterFence c) s = .next t ∧
      (t.cluster c).fenced = true ∧ t.cluUp c = false ∧
      (∀ w, w ∈ t.waves → (∃ g ∈ s.groups, g.id = w.grp ∧ g.core / 4 = c ∧ g.killed = false ∧ s.group? g.id = some g) →
        w.life = .exited) ∧
      (∀ k d, (List.range 16).find? (fun x => (s.part x).clu c) = some k → s.parts[k]? = some d → ∃ d', t.parts[k]? = some d' ∧
        d'.clu c = false ∧ (∀ x, x < 64 → x ≠ c → d'.clu x = d.clu x))) ∧
    (s.cluUp c = false → exec (.clusterFence c) s = .next s) ∧
    (∀ w, s.stoppedWave p lid n = some w → s.wave? w.id = some w →
      (∃ t, exec (.dresumeResume p lid n) s = .next t ∧ t.wave? w.id = some { w with dstate := .run } ∧
        recordFrame s t) ∧
      (∃ t, exec (.dresumeStep p lid n) s = .next t ∧ t.wave? w.id = some { w with dstate := .oneshot } ∧
        recordFrame s t) ∧
      (∀ g, s.group? w.grp = some g → ∃ t, exec (.dresumeKill p lid n) s = .next t ∧
        ∀ k x, t.wave? k = some x → x.grp = w.grp → x.life = .exited)) ∧
    (s.stoppedWave p lid n = none → exec (.dresumeResume p lid n) s = .next s ∧ exec (.dresumeStep p lid n) s = .next s ∧
      exec (.dresumeKill p lid n) s = .next s) ∧
    ((s.core c).trace.lost = 0 → exec (.traceLoss c) s = .next s) ∧
    (∀ base size x, c < s.cores.length → (s.core c).trace.lost ≠ 0 → (s.core c).trace.src = some x →
      s.trSeg c = some (base, size) → ((s.core c).trace.wr - (s.core c).trace.rd).toNat + 36 ≤ size → s.snoop = [] → s.trHeld c = false →
      ∃ t, exec (.traceLoss c) s = .next t ∧ (t.core c).trace.lost = 0 ∧ (t.core c).trace.wr = (s.core c).trace.wr + 36 ∧
        t.rdByte (base + (s.core c).trace.wr.toNat % size) = 0xA6 ∧
        (∀ a, a < base ∨ base + size ≤ a → t.rdByte a = s.rdByte a) ∧
        recordFrame s t ∧ t.waves = s.waves))

/-! ### Management -/

/-- R425, R427–R430: power-good starts bring-up; each step that ends gives way to the next: the reset sequence,
memory training, which fails with code 5, the check of the image, which puts its digest in PMR0 of every partition
or goes to recovery with the code of the lowest rule it breaks, and the links, which name the active port. In
recovery a write of RCVCTL starts the same check of the image that it names. R430, R431, R434, R14, R432: PMREXT
extends one register; each request of a served path is answered, measurement blocks first; the sideband reads its
sensors and stages an image; and a measurement that opens an interval sets each cluster's clock to what it needs, between 10 and 26
steps, and gates cycles where it needs less than 10; the need is lower than the clock was where the draw exceeds the budget or the
device limit binds; a later one of the interval is only noted. The model's choice: what a step of bring-up that fails leaves (log 40), the layout of SPDM's
answers, whose version is 1.3 and whose algorithms are TPM_ALG_SHA_384 and RSASSA-3072 (log 39), and how the power
manager picks a clock (log 42). -/
def Obligations.Management : Prop :=
  (∀ (s : State) (v : W64),
    (s.mg.stage = 0 → exec .powerGood s = .next { s with timebase := 0, tickAcc := 0, mg := { s.mg with stage := 1, err := 0, img := s.mg.flash } }) ∧
    (s.mg.stage ≠ 0 → exec .powerGood s = .next s) ∧
    (s.mg.stage = 1 → s.bootNext = { s with mg := { s.mg with stage := 2 } }) ∧
    (s.mg.stage = 2 → s.bootNext = { s with
      fresh := s.fresh + 1
      mg := if Config.memoryTrains s.fresh then { s.mg with stage := 3 } else { s.mg with err := 5 } }) ∧
    (s.mg.stage = 3 ∨ s.mg.stage = 15 →
      (imgErr s.mg.minSvn.toNat s.mg.img = 0 → ∃ t, s.bootNext = t ∧ t.mg.stage = 4 ∧ t.mg.err = 0 ∧ t.mg.checking = false ∧
        t.mg.svn = BitVec.ofNat 16 (imgFld s.mg.img 4 2) ∧ t.parts = s.parts.map (fun d =>
          { d.disable with pmr := d.pmr.modify 0 fun x => pmrExt x (toPmr (sha384 (imgBody s.mg.img))) }) ∧
        (∀ d ∈ t.parts, d.en = false) ∧ t = { s with parts := t.parts, mg := t.mg }) ∧
      (∀ n, imgErr s.mg.minSvn.toNat s.mg.img = n → n ≠ 0 →
        s.bootNext = { s with mg := { s.mg with stage := 15, err := BitVec.ofNat 8 n, checking := false } })) ∧
    (s.mg.stage = 4 → (∀ h, (List.range s.nhost).find? s.portUp = some h →
        s.bootNext = { s with active := some h, mg := { s.mg with stage := 5 } }) ∧
      ((∀ h, s.portUp h = false) → s.bootNext = { s with mg := { s.mg with stage := 15, err := 6 } })) ∧
    (let len := bits v 31 0
     let asked : Prop := s.mg.stage = 15 ∧ s.mg.checking = false ∧ bits v 63 60 = 5 ∧ bits v 59 32 = 0
     (¬ asked → exec (.recoveryImageCheck v) s = .next s) ∧
     (asked → 21152 ≤ len → len ≤ 2 ^ 24 → exec (.recoveryImageCheck v) s =
       .next { s with mg := { s.mg with img := s.rdBytes 0 len, checking := true } }) ∧
     (asked → (len < 21152 ∨ 2 ^ 24 < len) → exec (.recoveryImageCheck v) s =
       .next { s with mg := { s.mg with stage := 15, err := 1 } }))) ∧
  (∀ (s : State) (p port off : Nat) (via : MgmtPath) (i : W64) (nonce img : List Byte) (sign : Bool) (idx : Byte) (x : Sensor) (req : MailReq),
    let answers (i : Instr) (n : Nat) (f : List Byte → Prop) : Prop :=
      (s.served via = true ∧ p < 16 → ∃ bs, f bs ∧
        exec i s = .next { s with fresh := s.fresh + n, out := s.out ++ [.reply via bs] }) ∧
      (s.served via = false → exec i s = .next { s with fresh := s.fresh + n })
    let holds (bs part : List Byte) : Prop := ∃ before after, bs = before ++ part ++ after
    answers (.getVersion via p) 0 (fun bs => bs = [0x10, 0x04, 0, 0, 0, 1, 0x00, 0x13]) ∧
    answers (.getCapabilities via p) 0 (fun bs => bs.take 2 = [0x13, 0x61]) ∧
    answers (.negotiateAlgorithms via p) 0 (fun bs => bs.take 2 = [0x13, 0x63] ∧
      fld bs 8 4 = 4 ∧ fld bs 12 4 = 4 ∧ fld bs 16 4 = 2) ∧
    answers (.getDigests via p) 0 (fun bs => bs = [0x13, 0x01, 0, 1] ++ sha384 (spdmChain p)) ∧
    answers (.getCertificate via p) 0 (fun bs => holds bs (spdmChain p)) ∧
    answers (.challenge via p nonce) 4 (fun bs => holds bs (sha384 (s.part p).blocks)) ∧
    answers (.getMeasurements via ⟨p, sign, idx, nonce⟩) 4 (fun bs =>
      (idx = 0xFF → holds bs (s.part p).blocks) ∧ (∀ n, n < 8 → idx.toNat = n + 1 → holds bs ((s.part p).block n))) ∧
    ((s.served (.port port) = false ∨ 0x1000 ≤ off → exec (.mailboxRequest port ⟨off, req⟩) s = .next s) ∧
     (s.served (.port port) = true → off < 0x1000 → ∃ t, exec (.mailboxRequest port ⟨off, req⟩) s = .next t ∧
       t = { s with fresh := t.fresh, out := t.out, mg := t.mg } ∧ t.mg = { s.mg with raise := t.mg.raise } ∧
       s.mg.raise ≤ t.mg.raise ∧
       ∀ v, req = .raiseSvn v → t.mg.raise = (if s.mg.raise < v then v else s.mg.raise) ∧ t.out = s.out)) ∧
    (∀ d, s.parts[p]? = some d → 2 ≤ i.toNat → i.toNat < 8 → ∃ t, exec (.pmrExtend p i) s = .next t ∧
      t.parts[p]? = some { d with pmr := d.pmr.modify i.toNat fun y => pmrExt y d.pmdata } ∧ t = { s with parts := t.parts }) ∧
    ((i.toNat < 2 ∨ 8 ≤ i.toNat) → exec (.pmrExtend p i) s = .next s) ∧
    exec (.pldmSensorRead x) s = .next { s with out := s.out ++ [.sideband (s.sensor x)] } ∧
    (∃ t, exec (.pldmFwUpdate img) s = .next t ∧ t.mg.flash = img ∧ t = { s with mg := { s.mg with flash := img } }) ∧
    (∀ (w : Nat) (ds ts : List Nat), ∃ t, exec (.clockInterval w ds ts) s = .next t ∧
      t = { s with clusters := t.clusters, mg := t.mg } ∧ t.mg.power = w ∧ t.mg.clkAt = s.timebase.toNat / 1000 ∧
      t.clusters.length = s.clusters.length ∧
      ∀ (k : Nat) (c c' : Cluster), s.clusters[k]? = some c → t.clusters[k]? = some c' →
        let old := (s.cluster c.idx).clk
        let draw := ds.getD c.idx 0
        let above : Prop := ∃ b, s.budget c.idx = some b ∧ b < draw
        let need (n : Nat) : Prop := c'.clk = max 10 (min 26 n) ∧ (c'.gated ≠ 0 ↔ n < 10)
        c'.cyc = c.cyc ∧ c'.draw = draw ∧ c'.temp = ts.getD c.idx 0 ∧
        (s.timebase.toNat / 1000 = s.mg.clkAt → c'.clk = c.clk ∧ c'.gated = c.gated) ∧
        (s.timebase.toNat / 1000 ≠ s.mg.clkAt → 10 ≤ c'.clk ∧ c'.clk ≤ 26 ∧ (above → c'.clk ≤ max 10 (old - 1)) ∧
          (680 < w → s.inUse c.idx = true → c'.clk ≤ max 10 (old - 1)) ∧
          c'.gated ≤ 1000 ∧ ∃ n, need n ∧ (above → n ≤ old - 1) ∧ (680 < w → s.inUse c.idx = true → n ≤ old - 1))))

/-- R225, R379, R409, R345, R350: a head that moves lets the ring take what was held; an unmasked vector sends its
one pending message; a 64-bit write of a register of BAR0 through a port whose link is up changes that register as
the register's rule says; a write through a port whose link is down does nothing. R18, R427: device reset and loss
of power. After either nothing is resident, no translation is cached, no bias set and no error logged; a device
reset keeps what the homes have but for the CSM, and loss of power leaves memory empty, with the timebase at 0.
The model's choice: the caches, the translations and the fault buffer are empty after either (log 6), a register's write is
the event that names it (log 83), a device reset goes back to step 1 of
bring-up (log 40), and loss of power leaves memory, the homes and every image empty (log 41). -/
def Obligations.RegistersAndResets : Prop :=
  (∀ (s : State) (p port vec : Nat) (v : W64) (d : Part) (h : HostPort), s.parts[p]? = some d → s.ports[port]? = some h →
    p < 16 →
    let base := 0xF00000000000
    let wr (off : Nat) (f : Part → Part) : Prop := ∃ t, exec (.registerWrite port (base + off) 8 v) s = .next t ∧
      t.parts[p]? = some (f d) ∧ t = { s with parts := t.parts } ∧ ∀ k, k ≠ p → t.parts[k]? = s.parts[k]?
    (s.portUp port = false → ∀ a n, exec (.registerWrite port a n v) s = .next s) ∧
    (s.portUp port = true → s.mg.stage ≠ 15 →
      wr (0x30000 + 0x100 * p) (fun d => { d with tvec := v }) ∧
      wr (0x60000 + 0x200 * p) (fun d => { d with staged := { d.staged with clu := v } }) ∧
      wr (0x60008 + 0x200 * p) (fun d => { d with staged := { d.staged with root := v } }) ∧
      wr (0x60010 + 0x200 * p) (fun d => { d with staged := { d.staged with band := v } }) ∧
      wr (0x60018 + 0x200 * p) (fun d => { d with staged := { d.staged with mem := v } }) ∧
      wr (0x60020 + 0x200 * p) (fun d => { d with staged := { d.staged with trc := v } }) ∧
      wr (0x60090 + 0x200 * p) (fun d => { d with tboff := v }) ∧
      wr (0x80020 + 0x100 * p) (fun d => { d with drgrp := v }) ∧
      wr (0xC0000 + 8 * p) (fun d => { d with pwcap := v.truncate 16 }) ∧
      (bits v 63 61 = 1 → exec (.registerWrite port (base + 0x60080 + 0x200 * p) 8 v) s = exec (.commit p) s) ∧
      (bits v 63 61 = 2 → exec (.registerWrite port (base + 0x60080 + 0x200 * p) 8 v) s = exec (.save p v) s) ∧
      (bits v 63 61 = 3 → exec (.registerWrite port (base + 0x60080 + 0x200 * p) 8 v) s = exec (.restore p v) s) ∧
      (bits v 63 61 = 5 → exec (.registerWrite port (base + 0x60080 + 0x200 * p) 8 v) s = exec (.kill p) s)) ∧
    (d.fqheld = [] → ∃ t, exec (.faultQueueHeadAdvance p v) s = .next t ∧
      t.parts[p]? = some { d with fqhead := v.truncate 12 } ∧ t = { s with parts := t.parts }) ∧
    (d.dsheld = [] → ∃ t, exec (.stopRingHeadAdvance p v) s = .next t ∧
      t.parts[p]? = some { d with dshead := v.truncate 6 } ∧ t = { s with parts := t.parts }) ∧
    (∃ t q, exec (.msixVectorUnmask port ⟨vec, true⟩) s = .next t ∧ t.ports[port]? = some q ∧
      (∀ x, x ∈ q.mask ↔ x ∈ h.mask ∨ x = vec) ∧ q = { h with mask := q.mask } ∧ t = { s with ports := t.ports }) ∧
    (s.portUp port = true → ∀ off n, off < 2 ^ 43 → (off < 0xB2000 ∨ 0xB3000 ≤ off) → ∀ keep, exec (.hostMemRead port (base + off) n keep) s =
      .next { s with out := s.out ++ [if (n = 4 ∨ n = 8) ∧ off % n = 0 then
        .data port (((leBytes 8 (s.readReg port (off / 8 * 8)).toNat).drop (off % 8)).take n) else .unsupported port] }) ∧
    (∃ t q, exec (.msixVectorUnmask port ⟨vec, false⟩) s = .next t ∧ t.ports[port]? = some q ∧
      q.mask = h.mask.filter (fun x => x ≠ vec) ∧ t = { s with ports := t.ports, out := t.out } ∧
      (h.tbl = [vec] → s.active = some port → h.up = true → h.expired = false →
        q.tbl = [] ∧ t.out = s.out ++ [.msix port vec]) ∧
      (h.tbl = [] → t.out = s.out ∧ q.tbl = []))) ∧
  (∀ s : State,
    let clear (t : State) : Prop := t.waves = [] ∧ t.groups = [] ∧ t.launches = [] ∧ t.jobs = [] ∧ t.accs = [] ∧
      t.tlb = [] ∧ t.fb = [] ∧ t.l1 = [] ∧ t.ic = [] ∧ t.poison = [] ∧ t.dirty = [] ∧ t.bias = [] ∧ t.snoop = [] ∧
      t.cullet = [] ∧ t.slc = [] ∧ t.walks = [] ∧ t.posts = [] ∧ t.err = State.reset.err ∧ t.grade = s.grade ∧
      t.cores = State.reset.cores ∧ t.clusters = State.reset.clusters ∧ t.mg.flash = s.mg.flash ∧ t.mg.err = 0 ∧
      t.parts = State.reset.parts
    (∃ t, exec .deviceReset s = .next t ∧ clear t ∧ t.timebase = s.timebase ∧ t.home = s.home ∧ t.mg.stage = 1 ∧
      (Memory.wf s.mem = true → ∀ a, t.mem.get a = if State.isCsm a then 0 else
        if a / 128 ∈ s.unsaved then s.home.get a else s.mem.get a)) ∧
    (∃ t, exec .powerLoss s = .next t ∧ clear t ∧ t.timebase = 0 ∧ t.mem = [] ∧ t.home = [] ∧ t.mg.stage = 0))

/-! ### Where an instruction completes -/

/-- R106, R109, R170–R175, R189–R194, R322, R336–R343: in plain conditions, where instructions complete. A
conversion does wherever it may issue; so does RAST; a scratchpad access, where nothing outstanding holds it, with
every active thread's offset aligned to its size and inside the window; a ray or texture instruction where its
header and the data that it reads can be read. -/
def Obligations.FormsComplete : Prop :=
  ∀ (s : State) (w : Wave) (h : Hdr),
    let act (e : Env) : List Nat := bitsOf (w.active h e.c0)
    let sends (i : Instr) : Prop := Issues s w i false → ∃ ps, Sends s w i h false 4 ps
    let inWindow (i : Instr) (size : Nat) (off : Env → Nat → Nat) (op : AccOp) : Prop :=
      let e := envOf s w i false
      Issues s w i false → Unhindered s w → (∀ t ∈ act e, off e t % size = 0 ∧ off e t + size ≤ e.winSize) →
        Starts s w i h false fun e a => a.op = op ∧ a.lanes.map (fun l => (l.t, l.pa)) = (act e).map fun t => (t, off e t)
    let block (i : Instr) (hs : BitVec 8) (reads : Env → List Byte → List (Nat × W64)) (op : AccOp) : Prop :=
      let e := envOf s w i false
      Issues s w i false → Unhindered s w → BlockReadable s w (e.srPair hs) (reads e) →
        StartsReading s w i h false fun _ a => a.op = op
    let ray (e : Env) (f : RayHdr → Nat → List W64) (bs : List Byte) : List (Nat × W64) :=
      if (rayHdr bs).bad then [] else (act e).flatMap fun t => (f (rayHdr bs) t).map fun va => (t, va)
    (∀ o, sends (.cvt h o)) ∧ (∀ o, sends (.qnt h o)) ∧ (∀ o, sends (.mxsc h o)) ∧ (∀ o, sends (.pack6 h o)) ∧
    (∀ o, sends (.unpack6 h o)) ∧
    (∀ o : SpMem,
      let off (e : Env) (t : Nat) : Nat :=
        (e.v32 0 o.a t).toNat + (e.v32 1 o.b t).toNat * 2 ^ o.scl.toNat + o.off.toNat * sizeOf' o.tag
      inWindow (.lds h o) (sizeOf' o.tag) off .spLoad ∧ inWindow (.sts h o) (sizeOf' o.tag) off .spStore) ∧
    (∀ o : SpAtom,
      let off (e : Env) (t : Nat) : Nat := (e.v32 0 o.a t).toNat + o.off.toNat * sizeOf' o.tag
      inWindow (.atoms h o) (sizeOf' o.tag) off (.spAtom o.op) ∧ inWindow (.reds h o) (sizeOf' o.tag) off (.spRed o.op)) ∧
    (∀ o : BlendOpn, inWindow (.blend h o) (if o.f16 then 8 else 4)
      (fun e t => (e.v32 0 o.a t).toNat + o.off.toNat * (if o.f16 then 8 else 4)) (.blend o.bop o.f16)) ∧
    (∀ o : RboxOp, block (.rbox h o) o.hs
      (fun e => ray e fun hd t => words8 (hd.nodes + 256 * (e.v32 1 o.b t).toNat) 28) .rbox) ∧
    (∀ o : RtriOp, block (.rtri h o) o.hs
      (fun e => ray e fun hd t => (leafTris hd (e.v32 1 o.b t)).flatMap fun i => words8 (hd.tris + 48 * i) 6) .rtri) ∧
    (∀ o : RhintOp, block (.rhint h o) o.hs (fun _ _ => []) .rhint) ∧
    (∀ o : RhsetOp, block (.rhset h o) o.hs (fun _ _ => []) .rhset) ∧
    (∀ o : TexOp, block (.tex h o) o.td (fun e bs => if (texDesc bs).bad then [] else (act e).flatMap fun t =>
      (texTexels (texDesc bs) o.mode (e.v32 0 o.a t) (e.v32 1 o.b t) (e.sr o.sd) t).flatMap fun y =>
        (List.range (texelSize (texDesc bs).fmt / 4)).map fun i => (t, BitVec.ofNat 64 (y.1 + 4 * i))) .tex) ∧
    (∀ o : TexqOp, block (.texq h o) o.td (fun _ _ => []) .texq) ∧
    (∀ o : RastOp, Issues s w (.rast h o) false → Starts s w (.rast h o) h false fun _ a => a.op = .rast)

/-- R133, R136, R151: a path of an XVI whose word is a VADD issues it: its sums are written under the path's mask
when a VADD's are, the flag of the XVI counts it, pathidx names it, and the next path stands ready, or after the last one
the XVI has ended at its return PC. That pathidx names it until the next path issues is the model's choice (log 13). -/
def Obligations.XviPathAdds : Prop :=
  ∀ (s : State) (w : Wave) (x : Xvi) (h : Hdr) (o : Alu3), s.wave? s.cur = some w → w.xvi = some x → w.inPath = true →
    x.start ≤ s.cyc w.id.core → s.head w = .instr (.vadd h o) → o.u = false →
    let w0 : Wave := { w.atPath with prev := none }
    let s0 := s.modWave w.id fun y => { y.atPath with prev := none }
    let e := envOf s0 w0 (.vadd h o) false
    Issues s0 w0 (.vadd h o) false → ∃ t w', exec .xviPath s = .next t ∧ t.wave? w.id = some w' ∧
      w'.pend = w.pend ++ (resultOf e h false o.tag.wide o.d (atWidth o (fun a b _ => a + b) (fun a b _ => a + b) e)).map
        (fun p => ⟨e.c + aluLat false, p⟩) ++ countdown h (e.c + aluLat false) ∧
      w'.flags = (if h.sf.toNat < 12 then w.flags.set h.sf.toNat (w.flags.get h.sf.toNat + 1) else w.flags) ∧
      w'.v = w.v ∧ w'.s = w.s ∧ w'.p = w.p ∧ w'.exec = w.exec ∧ w'.prev = some e.c ∧
      (x.next + 1 < x.paths.length →
        w'.xvi = some { x with next := x.next + 1 } ∧ w'.pathidx = BitVec.ofNat 16 x.next ∧ w'.pc = w.pc) ∧
      (x.paths.length ≤ x.next + 1 → w'.xvi = none ∧ w'.pathidx = 0xFFFF ∧ w'.pc = x.retPc) ∧
      ∀ k, k ≠ w.id → t.wave? k = s.wave? k

/-! ### Encodings and the machine as a whole -/

/-- R50, R51, R62–R71: a few words, written out from the encoding tables of the spec. -/
def Obligations.DecodeWords : Prop :=
  let plain : Hdr := { guard := none, st := 0, wt := 0, sf := 0, yl := false, ru := 0 }
  decode 0 = .ok (.nop plain false) false ∧
  -- VADD.i32 v4, v4, v6 :: set=2
  decode 0x040000000008000301008030#96 =
    .ok (.vadd { plain with sf := 2 } ⟨false, .i32, .v 4, .vec (.v 4), .vec (.v 6)⟩) false ∧
  -- BNZ s10:11 with offset −3, waiting on flag 0 and counting none
  decode 0x1e0021fffffe007e82801003#96 = .ok (.bnz { plain with wt := 1, sf := 15 } (.s 10) 0xFFFFFFFD) false ∧
  -- an opcode that is not assigned, and a NOP whose unused D is 1
  decode 0x0000000000000000000000ff#96 = .illegal ∧
  decode 0x000000000000000000002000#96 = .ok (.nop plain false) true

/-- R69: a word decodes only with an opcode, FN and U that the opcode map assigns. -/
def Obligations.OpcodeMap : Prop :=
  ∀ (x : BitVec 96) (i : Instr) (r : Bool), decode x = .ok i r →
    opcodeMap (x.extractLsb' 0 8).toNat (x.extractLsb' 8 4).toNat (x.getLsbD 12) = true

/-- Decoding the word of a well-formed instruction gives the instruction back, with every operand at every value
that its encoding admits; and a word that decodes to an instruction without a reserved field is that instruction's
word. -/
def Obligations.EncodeDecode : Prop :=
  (∀ (i : Instr) (x : BitVec 96), i.wf = true → encode i = some x → decode x = .ok i false) ∧
  (∀ (i : Instr) (x : BitVec 96), decode x = .ok i false → i.wf = true ∧ encode i = some x)

/-- A step whose slot selects a wave with a word at its PC, of a page that is mapped and a line that the core's
instruction cache holds: a word that is an instruction within the wave's allotment runs as exec runs it, with the
slot's charges made, that of a park in the cycle of its issue included, FAULTRET.skip and .emul with the instruction
that they issue again; a word that is none, or names an operand outside the allotment, traps with cause 0, and one with
a reserved field set with cause 1, or with the cause 0 of its own check, the word's low half in TVAL and the PC of the
word saved. The order of a cycle (the model's own, logs 1, 3 and 25): what the cycle brings, an event that the device
answers running as exec runs it, then the issue slots, each with the first reads of its waves' waits, then the passage to
the next cycle; a slot that selects no wave only makes its charges, one whose wave has an instruction to issue again
runs that, and one whose wave is between the paths of an XVI runs the next path. -/
def Obligations.StepRunsDecoded : Prop :=
  (∀ (s : State) (core q : Nat) (rest : List (Nat × Nat)) (w : Wave) (lo : Nat) (l : Line),
    s.events = [] → s.todo = (core, q) :: rest →
    let s1 := (({ s with todo := rest } : State).takeDues core q).firstReads core q
    let s2 := s1.passedReads core q (some w.uid)
    s1.selectWave core q = some w → w.reissue = none → w.inPath = false → bits w.pc 1 0 = 0 →
    s2.codePa w.id.core w.grp.part w.pc = .inl lo → s2.codePa w.id.core w.grp.part (w.pc + 11) = .inl (lo + 11) →
    pageOf (w.pc + 11) = pageOf w.pc → lo % 128 ≤ 116 → s2.poisoned lo = false → s2.poisoned (lo + 11) = false →
    s2.icLine w.id.core (lo / 128) = some l →
    let x := bytesWord ((List.range 12).map fun k => l.bytes.getD (lo % 128 + k) 0)
    let s3 := { s2.passQuarter core q (some w.uid) with cur := w.id }
    let steps (r : Res) : Prop := step s = match r with
      | .next t => .next (t.parkCharge w)
      | r => r
    (∀ i, decode x = .ok i false → i.fits w.allot = true →
      (faultRet i = false → steps (exec i s3)) ∧
      (∀ t, faultRet i = true → exec i s3 = .next t → (t.again w.id = none → steps (.next t)) ∧
        ∀ j, t.again w.id = some j → steps (exec j t))) ∧
    (∀ i r, decode x = .ok i r → i.fits w.allot = false → step s = .next (s3.trapAt w 0 w.pc (x.truncate 64))) ∧
    (∀ i, decode x = .ok i true → i.fits w.allot = true →
      step s = .next (s3.trapAt w (if s2.ownIllegal w i then 0 else 1) w.pc (x.truncate 64))) ∧
    (decode x = .illegal → step s = .next (s3.trapAt w 0 w.pc (x.truncate 64)))) ∧
  (∀ (s : State) (i : Instr) (rest : List Event),
    (s.events = .instr i :: rest → s.answered i = true → step s = exec i { s with events := rest }) ∧
    (s.events = .instr i :: rest → s.answered i = false → step s = .next { s with events := rest }) ∧
    (∀ src x, s.events = .out src x :: rest → step s = .next (({ s with events := rest } : State).takeOut src x)) ∧
    (∀ p, s.events = .contain p :: rest → step s = .next (({ s with events := rest } : State).fencePart p)) ∧
    (∀ g, s.events = .relaunch g :: rest → step s = .next (({ s with events := rest } : State).relaunchGroup g)) ∧
    (∀ uid tail, s.events = .errTrap uid tail :: rest → step s = .next (({ s with events := rest } : State).takeErr uid tail)) ∧
    (∀ p, s.events = .restore p :: rest → step s = .next (({ s with events := rest } : State).restoreAgain p)) ∧
    (∀ id, s.events = .wake id :: rest → step s = .next (({ s with events := rest } : State).takeWake id)) ∧
    (s.events = .interval :: rest → step s = .next ({ s with events := rest } : State).intervalStart) ∧
    (s.events = [] → s.todo = [] → step s = .next s.tick) ∧
    (∀ core q rest, s.events = [] → s.todo = (core, q) :: rest →
      let s1 := (({ s with todo := rest } : State).takeDues core q).firstReads core q
      (s1.selectWave core q = none → step s = .next ((s1.passedReads core q none).passQuarter core q none)) ∧
      (∀ w, s1.selectWave core q = some w →
        let s3 := { (s1.passedReads core q (some w.uid)).passQuarter core q (some w.uid) with cur := w.id }
        let steps (r : Res) : Prop := step s = match r with
          | .next t => .next (t.parkCharge w)
          | r => r
        (∀ r, w.reissue = some r → faultRet r.i = false → steps (exec r.i s3)) ∧
        (∀ v x i, w.reissue = none → w.inPath = true → w.xvi = some v → v.word v.next = some x → headOf w.allot x = .instr i →
          steps (exec .xviPath s3)))))

/-- R55, R65, R66, R209, R239 and R245: an instruction that names an operand outside its wave's allotment raises cause 0, and
one that misuses a queue port cause 7 with the port in TVAL, or cause 6 where it would pop a poisoned entry, or the
lower cause of its own checks where its address can be read, all before any effect: nothing but the trap's own entry
happens. R249: a PREF that misuses a port is dropped. The model's choice: TVAL of cause 6 names the first of A, B and D that would
pop a poisoned entry (log 85), and a dropped PREF pops none of its ports (log 87). -/
def Obligations.OperandTraps : Prop :=
  ∀ (s : State) (w : Wave) (i : Instr), s.wave? s.cur = some w → w.life = .live → (encode i).isSome = true →
    (i.fits w.allot = false → exec i s = .next (s.trapAt w 0 w.pc (wordVal i))) ∧
    (∀ n, i.fits w.allot = true → queueMisuse w i (s.cyc w.id.core) = some n →
      (∀ h o, i = .pref h o → ∃ t w', exec i s = .next t ∧ t.wave? w.id = some w' ∧ w'.handler = w.handler ∧ w'.tr = w.tr ∧
        w'.v = w.v ∧ w'.s = w.s ∧ w'.p = w.p ∧ w'.pc = (if w.inPath then w.pc else w.pc + 12) ∧ t.accs = s.accs ∧ t.l1 = s.l1) ∧
      ((∀ h o, i ≠ .pref h o) →
        (addrPops w i (s.cyc w.id.core) = false →
          (popPoison (envOf s w i false) = none → exec i s = .next (s.trapAt w 7 w.pc (portVal n))) ∧
          (∀ va, popPoison (envOf s w i false) = some va → exec i s = .next (s.trapAt w 6 w.pc va))) ∧
        (w.handler = .none → tvecOk (s.part w.grp.part).tvec = true → ∃ t w', exec i s = .next t ∧
          t.wave? w.id = some w' ∧ w'.handler = .trap ∧ w'.tr.cause ≤ 7 ∧ w'.tr.tepc = w.pc ∧
          w'.pc = (s.part w.grp.part).tvec ∧ w'.v = w.v ∧ w'.s = w.s ∧ w'.p = w.p ∧ w'.q = w.q ∧ w'.flags = w.flags ∧
          t.groups = s.groups ∧ t.accs = s.accs)))

/-- The invariants of what is stored: device memory and the contents at the homes stay in canonical form, and so do the
windows of the groups, and the vector, scalar, predicate, completion-flag and handle registers of the waves, resident
or in an image, whichever step the machine takes. -/
def Obligations.MemoryCanonicalStep : Prop :=
  (∀ s t : State, Memory.wf s.mem = true → Memory.wf s.home = true → step s = .next t →
    Memory.wf t.mem = true ∧ Memory.wf t.home = true) ∧
  (∀ s t : State, windowsWf s = true → step s = .next t → windowsWf t = true) ∧
  (∀ s t : State, filesWf s = true → step s = .next t → filesWf t = true)

/-- R141, R345, R388, R426, R430, R433 and R361: the machine after reset, as far as the spec says what it is:
BOOTSTS reads 0, every partition has its table's values, no wave, group, launch or job is resident, every cluster
clock is at 2.6 GHz, and the memories are in canonical form. -/
def Obligations.ResetState : Prop :=
  let s := State.reset
  s.mg.stage = 0 ∧ s.mg.err = 0 ∧ s.mg.svn = 0 ∧ s.timebase = 0 ∧ s.waves = [] ∧ s.groups = [] ∧ s.launches = [] ∧
  s.graphs = [] ∧ s.jobs = [] ∧ s.accs = [] ∧ s.posts = [] ∧ s.images = [] ∧ s.flip = none ∧ s.parts.length = 16 ∧
  (∀ p ∈ s.parts, p.staged.band = 0xF00103F00 ∧ p.staged.clu = 0 ∧ p.staged.root = 0 ∧ p.staged.mem = 0 ∧ p.en = false ∧
    p.nextLid = 1 ∧ p.pmr = List.replicate 8 0 ∧ p.pwcap = 0 ∧ p.tvec = 0 ∧ p.held = none) ∧
  (∀ c ∈ s.clusters, c.clk = 26 ∧ c.fenced = false) ∧ s.cullet = [] ∧ s.bias = [] ∧ s.snoop = [] ∧
  (∀ h ∈ s.ports, h.armed = false ∧ h.expired = false ∧ h.nonce ≠ 0) ∧
  Memory.wf s.mem = true ∧ Memory.wf s.home = true
end

