-- ==== Sys2Proof/Laws/State.lean ====
section
/-!
SUPPORT. What each update of the state does to each of its fields, so that no proof unfolds a record update.
-/

namespace Sys2Proof.Machine

variable (s : State)

/-! ### `modWave` -/

@[simp] theorem State.modWave_cycle (id : WaveId) (f : Wave → Wave) : (s.modWave id f).cycle = s.cycle := rfl
@[simp] theorem State.modWave_timebase (id : WaveId) (f : Wave → Wave) : (s.modWave id f).timebase = s.timebase := rfl
@[simp] theorem State.modWave_tickAcc (id : WaveId) (f : Wave → Wave) : (s.modWave id f).tickAcc = s.tickAcc := rfl
@[simp] theorem State.modWave_agenda (id : WaveId) (f : Wave → Wave) : (s.modWave id f).agenda = s.agenda := rfl
@[simp] theorem State.modWave_eager (id : WaveId) (f : Wave → Wave) : (s.modWave id f).eager = s.eager := rfl
@[simp] theorem State.modWave_events (id : WaveId) (f : Wave → Wave) : (s.modWave id f).events = s.events := rfl
@[simp] theorem State.modWave_todo (id : WaveId) (f : Wave → Wave) : (s.modWave id f).todo = s.todo := rfl
@[simp] theorem State.modWave_posts (id : WaveId) (f : Wave → Wave) : (s.modWave id f).posts = s.posts := rfl
@[simp] theorem State.modWave_trq (id : WaveId) (f : Wave → Wave) : (s.modWave id f).trq = s.trq := rfl
@[simp] theorem State.modWave_cur (id : WaveId) (f : Wave → Wave) : (s.modWave id f).cur = s.cur := rfl
@[simp] theorem State.modWave_fresh (id : WaveId) (f : Wave → Wave) : (s.modWave id f).fresh = s.fresh := rfl
@[simp] theorem State.modWave_nextSeq (id : WaveId) (f : Wave → Wave) : (s.modWave id f).nextSeq = s.nextSeq := rfl
@[simp] theorem State.modWave_grade (id : WaveId) (f : Wave → Wave) : (s.modWave id f).grade = s.grade := rfl
@[simp] theorem State.modWave_waves (id : WaveId) (f : Wave → Wave) : (s.modWave id f).waves = upd (fun w => w.id = id) f s.waves := rfl
@[simp] theorem State.modWave_accs (id : WaveId) (f : Wave → Wave) : (s.modWave id f).accs = s.accs := rfl
@[simp] theorem State.modWave_groups (id : WaveId) (f : Wave → Wave) : (s.modWave id f).groups = s.groups := rfl
@[simp] theorem State.modWave_launches (id : WaveId) (f : Wave → Wave) : (s.modWave id f).launches = s.launches := rfl
@[simp] theorem State.modWave_graphs (id : WaveId) (f : Wave → Wave) : (s.modWave id f).graphs = s.graphs := rfl
@[simp] theorem State.modWave_jobs (id : WaveId) (f : Wave → Wave) : (s.modWave id f).jobs = s.jobs := rfl
@[simp] theorem State.modWave_parts (id : WaveId) (f : Wave → Wave) : (s.modWave id f).parts = s.parts := rfl
@[simp] theorem State.modWave_images (id : WaveId) (f : Wave → Wave) : (s.modWave id f).images = s.images := rfl
@[simp] theorem State.modWave_mem (id : WaveId) (f : Wave → Wave) : (s.modWave id f).mem = s.mem := rfl
@[simp] theorem State.modWave_home (id : WaveId) (f : Wave → Wave) : (s.modWave id f).home = s.home := rfl
@[simp] theorem State.modWave_dirty (id : WaveId) (f : Wave → Wave) : (s.modWave id f).dirty = s.dirty := rfl
@[simp] theorem State.modWave_slc (id : WaveId) (f : Wave → Wave) : (s.modWave id f).slc = s.slc := rfl
@[simp] theorem State.modWave_poison (id : WaveId) (f : Wave → Wave) : (s.modWave id f).poison = s.poison := rfl
@[simp] theorem State.modWave_l1 (id : WaveId) (f : Wave → Wave) : (s.modWave id f).l1 = s.l1 := rfl
@[simp] theorem State.modWave_ic (id : WaveId) (f : Wave → Wave) : (s.modWave id f).ic = s.ic := rfl
@[simp] theorem State.modWave_tlb (id : WaveId) (f : Wave → Wave) : (s.modWave id f).tlb = s.tlb := rfl
@[simp] theorem State.modWave_walks (id : WaveId) (f : Wave → Wave) : (s.modWave id f).walks = s.walks := rfl
@[simp] theorem State.modWave_fb (id : WaveId) (f : Wave → Wave) : (s.modWave id f).fb = s.fb := rfl
@[simp] theorem State.modWave_fbwait (id : WaveId) (f : Wave → Wave) : (s.modWave id f).fbwait = s.fbwait := rfl
@[simp] theorem State.modWave_bias (id : WaveId) (f : Wave → Wave) : (s.modWave id f).bias = s.bias := rfl
@[simp] theorem State.modWave_snoop (id : WaveId) (f : Wave → Wave) : (s.modWave id f).snoop = s.snoop := rfl
@[simp] theorem State.modWave_flip (id : WaveId) (f : Wave → Wave) : (s.modWave id f).flip = s.flip := rfl
@[simp] theorem State.modWave_bfpage (id : WaveId) (f : Wave → Wave) : (s.modWave id f).bfpage = s.bfpage := rfl
@[simp] theorem State.modWave_biasRes (id : WaveId) (f : Wave → Wave) : (s.modWave id f).biasRes = s.biasRes := rfl
@[simp] theorem State.modWave_cullet (id : WaveId) (f : Wave → Wave) : (s.modWave id f).cullet = s.cullet := rfl
@[simp] theorem State.modWave_culletUse (id : WaveId) (f : Wave → Wave) : (s.modWave id f).culletUse = s.culletUse := rfl
@[simp] theorem State.modWave_slccfg (id : WaveId) (f : Wave → Wave) : (s.modWave id f).slccfg = s.slccfg := rfl
@[simp] theorem State.modWave_clusters (id : WaveId) (f : Wave → Wave) : (s.modWave id f).clusters = s.clusters := rfl
@[simp] theorem State.modWave_cores (id : WaveId) (f : Wave → Wave) : (s.modWave id f).cores = s.cores := rfl
@[simp] theorem State.modWave_active (id : WaveId) (f : Wave → Wave) : (s.modWave id f).active = s.active := rfl
@[simp] theorem State.modWave_ports (id : WaveId) (f : Wave → Wave) : (s.modWave id f).ports = s.ports := rfl
@[simp] theorem State.modWave_hpstat (id : WaveId) (f : Wave → Wave) : (s.modWave id f).hpstat = s.hpstat := rfl
@[simp] theorem State.modWave_lfsave (id : WaveId) (f : Wave → Wave) : (s.modWave id f).lfsave = s.lfsave := rfl
@[simp] theorem State.modWave_cxwin (id : WaveId) (f : Wave → Wave) : (s.modWave id f).cxwin = s.cxwin := rfl
@[simp] theorem State.modWave_err (id : WaveId) (f : Wave → Wave) : (s.modWave id f).err = s.err := rfl
@[simp] theorem State.modWave_mg (id : WaveId) (f : Wave → Wave) : (s.modWave id f).mg = s.mg := rfl
@[simp] theorem State.modWave_out (id : WaveId) (f : Wave → Wave) : (s.modWave id f).out = s.out := rfl

/-! ### `modUid` -/

@[simp] theorem State.modUid_cycle (uid : Nat) (f : Wave → Wave) : (s.modUid uid f).cycle = s.cycle := rfl
@[simp] theorem State.modUid_timebase (uid : Nat) (f : Wave → Wave) : (s.modUid uid f).timebase = s.timebase := rfl
@[simp] theorem State.modUid_tickAcc (uid : Nat) (f : Wave → Wave) : (s.modUid uid f).tickAcc = s.tickAcc := rfl
@[simp] theorem State.modUid_agenda (uid : Nat) (f : Wave → Wave) : (s.modUid uid f).agenda = s.agenda := rfl
@[simp] theorem State.modUid_eager (uid : Nat) (f : Wave → Wave) : (s.modUid uid f).eager = s.eager := rfl
@[simp] theorem State.modUid_events (uid : Nat) (f : Wave → Wave) : (s.modUid uid f).events = s.events := rfl
@[simp] theorem State.modUid_todo (uid : Nat) (f : Wave → Wave) : (s.modUid uid f).todo = s.todo := rfl
@[simp] theorem State.modUid_posts (uid : Nat) (f : Wave → Wave) : (s.modUid uid f).posts = s.posts := rfl
@[simp] theorem State.modUid_trq (uid : Nat) (f : Wave → Wave) : (s.modUid uid f).trq = s.trq := rfl
@[simp] theorem State.modUid_cur (uid : Nat) (f : Wave → Wave) : (s.modUid uid f).cur = s.cur := rfl
@[simp] theorem State.modUid_fresh (uid : Nat) (f : Wave → Wave) : (s.modUid uid f).fresh = s.fresh := rfl
@[simp] theorem State.modUid_nextSeq (uid : Nat) (f : Wave → Wave) : (s.modUid uid f).nextSeq = s.nextSeq := rfl
@[simp] theorem State.modUid_grade (uid : Nat) (f : Wave → Wave) : (s.modUid uid f).grade = s.grade := rfl
@[simp] theorem State.modUid_waves (uid : Nat) (f : Wave → Wave) : (s.modUid uid f).waves = upd (fun w => w.uid = uid) f s.waves := rfl
@[simp] theorem State.modUid_accs (uid : Nat) (f : Wave → Wave) : (s.modUid uid f).accs = s.accs := rfl
@[simp] theorem State.modUid_groups (uid : Nat) (f : Wave → Wave) : (s.modUid uid f).groups = s.groups := rfl
@[simp] theorem State.modUid_launches (uid : Nat) (f : Wave → Wave) : (s.modUid uid f).launches = s.launches := rfl
@[simp] theorem State.modUid_graphs (uid : Nat) (f : Wave → Wave) : (s.modUid uid f).graphs = s.graphs := rfl
@[simp] theorem State.modUid_jobs (uid : Nat) (f : Wave → Wave) : (s.modUid uid f).jobs = s.jobs := rfl
@[simp] theorem State.modUid_parts (uid : Nat) (f : Wave → Wave) : (s.modUid uid f).parts = s.parts := rfl
@[simp] theorem State.modUid_images (uid : Nat) (f : Wave → Wave) : (s.modUid uid f).images = s.images := rfl
@[simp] theorem State.modUid_mem (uid : Nat) (f : Wave → Wave) : (s.modUid uid f).mem = s.mem := rfl
@[simp] theorem State.modUid_home (uid : Nat) (f : Wave → Wave) : (s.modUid uid f).home = s.home := rfl
@[simp] theorem State.modUid_dirty (uid : Nat) (f : Wave → Wave) : (s.modUid uid f).dirty = s.dirty := rfl
@[simp] theorem State.modUid_slc (uid : Nat) (f : Wave → Wave) : (s.modUid uid f).slc = s.slc := rfl
@[simp] theorem State.modUid_poison (uid : Nat) (f : Wave → Wave) : (s.modUid uid f).poison = s.poison := rfl
@[simp] theorem State.modUid_l1 (uid : Nat) (f : Wave → Wave) : (s.modUid uid f).l1 = s.l1 := rfl
@[simp] theorem State.modUid_ic (uid : Nat) (f : Wave → Wave) : (s.modUid uid f).ic = s.ic := rfl
@[simp] theorem State.modUid_tlb (uid : Nat) (f : Wave → Wave) : (s.modUid uid f).tlb = s.tlb := rfl
@[simp] theorem State.modUid_walks (uid : Nat) (f : Wave → Wave) : (s.modUid uid f).walks = s.walks := rfl
@[simp] theorem State.modUid_fb (uid : Nat) (f : Wave → Wave) : (s.modUid uid f).fb = s.fb := rfl
@[simp] theorem State.modUid_fbwait (uid : Nat) (f : Wave → Wave) : (s.modUid uid f).fbwait = s.fbwait := rfl
@[simp] theorem State.modUid_bias (uid : Nat) (f : Wave → Wave) : (s.modUid uid f).bias = s.bias := rfl
@[simp] theorem State.modUid_snoop (uid : Nat) (f : Wave → Wave) : (s.modUid uid f).snoop = s.snoop := rfl
@[simp] theorem State.modUid_flip (uid : Nat) (f : Wave → Wave) : (s.modUid uid f).flip = s.flip := rfl
@[simp] theorem State.modUid_bfpage (uid : Nat) (f : Wave → Wave) : (s.modUid uid f).bfpage = s.bfpage := rfl
@[simp] theorem State.modUid_biasRes (uid : Nat) (f : Wave → Wave) : (s.modUid uid f).biasRes = s.biasRes := rfl
@[simp] theorem State.modUid_cullet (uid : Nat) (f : Wave → Wave) : (s.modUid uid f).cullet = s.cullet := rfl
@[simp] theorem State.modUid_culletUse (uid : Nat) (f : Wave → Wave) : (s.modUid uid f).culletUse = s.culletUse := rfl
@[simp] theorem State.modUid_slccfg (uid : Nat) (f : Wave → Wave) : (s.modUid uid f).slccfg = s.slccfg := rfl
@[simp] theorem State.modUid_clusters (uid : Nat) (f : Wave → Wave) : (s.modUid uid f).clusters = s.clusters := rfl
@[simp] theorem State.modUid_cores (uid : Nat) (f : Wave → Wave) : (s.modUid uid f).cores = s.cores := rfl
@[simp] theorem State.modUid_active (uid : Nat) (f : Wave → Wave) : (s.modUid uid f).active = s.active := rfl
@[simp] theorem State.modUid_ports (uid : Nat) (f : Wave → Wave) : (s.modUid uid f).ports = s.ports := rfl
@[simp] theorem State.modUid_hpstat (uid : Nat) (f : Wave → Wave) : (s.modUid uid f).hpstat = s.hpstat := rfl
@[simp] theorem State.modUid_lfsave (uid : Nat) (f : Wave → Wave) : (s.modUid uid f).lfsave = s.lfsave := rfl
@[simp] theorem State.modUid_cxwin (uid : Nat) (f : Wave → Wave) : (s.modUid uid f).cxwin = s.cxwin := rfl
@[simp] theorem State.modUid_err (uid : Nat) (f : Wave → Wave) : (s.modUid uid f).err = s.err := rfl
@[simp] theorem State.modUid_mg (uid : Nat) (f : Wave → Wave) : (s.modUid uid f).mg = s.mg := rfl
@[simp] theorem State.modUid_out (uid : Nat) (f : Wave → Wave) : (s.modUid uid f).out = s.out := rfl

/-! ### `modGroup` -/

@[simp] theorem State.modGroup_cycle (g : GroupId) (f : Group → Group) : (s.modGroup g f).cycle = s.cycle := rfl
@[simp] theorem State.modGroup_timebase (g : GroupId) (f : Group → Group) : (s.modGroup g f).timebase = s.timebase := rfl
@[simp] theorem State.modGroup_tickAcc (g : GroupId) (f : Group → Group) : (s.modGroup g f).tickAcc = s.tickAcc := rfl
@[simp] theorem State.modGroup_agenda (g : GroupId) (f : Group → Group) : (s.modGroup g f).agenda = s.agenda := rfl
@[simp] theorem State.modGroup_eager (g : GroupId) (f : Group → Group) : (s.modGroup g f).eager = s.eager := rfl
@[simp] theorem State.modGroup_events (g : GroupId) (f : Group → Group) : (s.modGroup g f).events = s.events := rfl
@[simp] theorem State.modGroup_todo (g : GroupId) (f : Group → Group) : (s.modGroup g f).todo = s.todo := rfl
@[simp] theorem State.modGroup_posts (g : GroupId) (f : Group → Group) : (s.modGroup g f).posts = s.posts := rfl
@[simp] theorem State.modGroup_trq (g : GroupId) (f : Group → Group) : (s.modGroup g f).trq = s.trq := rfl
@[simp] theorem State.modGroup_cur (g : GroupId) (f : Group → Group) : (s.modGroup g f).cur = s.cur := rfl
@[simp] theorem State.modGroup_fresh (g : GroupId) (f : Group → Group) : (s.modGroup g f).fresh = s.fresh := rfl
@[simp] theorem State.modGroup_nextSeq (g : GroupId) (f : Group → Group) : (s.modGroup g f).nextSeq = s.nextSeq := rfl
@[simp] theorem State.modGroup_grade (g : GroupId) (f : Group → Group) : (s.modGroup g f).grade = s.grade := rfl
@[simp] theorem State.modGroup_waves (g : GroupId) (f : Group → Group) : (s.modGroup g f).waves = s.waves := rfl
@[simp] theorem State.modGroup_accs (g : GroupId) (f : Group → Group) : (s.modGroup g f).accs = s.accs := rfl
@[simp] theorem State.modGroup_groups (g : GroupId) (f : Group → Group) : (s.modGroup g f).groups = upd (fun x => x.id = g) f s.groups := rfl
@[simp] theorem State.modGroup_launches (g : GroupId) (f : Group → Group) : (s.modGroup g f).launches = s.launches := rfl
@[simp] theorem State.modGroup_graphs (g : GroupId) (f : Group → Group) : (s.modGroup g f).graphs = s.graphs := rfl
@[simp] theorem State.modGroup_jobs (g : GroupId) (f : Group → Group) : (s.modGroup g f).jobs = s.jobs := rfl
@[simp] theorem State.modGroup_parts (g : GroupId) (f : Group → Group) : (s.modGroup g f).parts = s.parts := rfl
@[simp] theorem State.modGroup_images (g : GroupId) (f : Group → Group) : (s.modGroup g f).images = s.images := rfl
@[simp] theorem State.modGroup_mem (g : GroupId) (f : Group → Group) : (s.modGroup g f).mem = s.mem := rfl
@[simp] theorem State.modGroup_home (g : GroupId) (f : Group → Group) : (s.modGroup g f).home = s.home := rfl
@[simp] theorem State.modGroup_dirty (g : GroupId) (f : Group → Group) : (s.modGroup g f).dirty = s.dirty := rfl
@[simp] theorem State.modGroup_slc (g : GroupId) (f : Group → Group) : (s.modGroup g f).slc = s.slc := rfl
@[simp] theorem State.modGroup_poison (g : GroupId) (f : Group → Group) : (s.modGroup g f).poison = s.poison := rfl
@[simp] theorem State.modGroup_l1 (g : GroupId) (f : Group → Group) : (s.modGroup g f).l1 = s.l1 := rfl
@[simp] theorem State.modGroup_ic (g : GroupId) (f : Group → Group) : (s.modGroup g f).ic = s.ic := rfl
@[simp] theorem State.modGroup_tlb (g : GroupId) (f : Group → Group) : (s.modGroup g f).tlb = s.tlb := rfl
@[simp] theorem State.modGroup_walks (g : GroupId) (f : Group → Group) : (s.modGroup g f).walks = s.walks := rfl
@[simp] theorem State.modGroup_fb (g : GroupId) (f : Group → Group) : (s.modGroup g f).fb = s.fb := rfl
@[simp] theorem State.modGroup_fbwait (g : GroupId) (f : Group → Group) : (s.modGroup g f).fbwait = s.fbwait := rfl
@[simp] theorem State.modGroup_bias (g : GroupId) (f : Group → Group) : (s.modGroup g f).bias = s.bias := rfl
@[simp] theorem State.modGroup_snoop (g : GroupId) (f : Group → Group) : (s.modGroup g f).snoop = s.snoop := rfl
@[simp] theorem State.modGroup_flip (g : GroupId) (f : Group → Group) : (s.modGroup g f).flip = s.flip := rfl
@[simp] theorem State.modGroup_bfpage (g : GroupId) (f : Group → Group) : (s.modGroup g f).bfpage = s.bfpage := rfl
@[simp] theorem State.modGroup_biasRes (g : GroupId) (f : Group → Group) : (s.modGroup g f).biasRes = s.biasRes := rfl
@[simp] theorem State.modGroup_cullet (g : GroupId) (f : Group → Group) : (s.modGroup g f).cullet = s.cullet := rfl
@[simp] theorem State.modGroup_culletUse (g : GroupId) (f : Group → Group) : (s.modGroup g f).culletUse = s.culletUse := rfl
@[simp] theorem State.modGroup_slccfg (g : GroupId) (f : Group → Group) : (s.modGroup g f).slccfg = s.slccfg := rfl
@[simp] theorem State.modGroup_clusters (g : GroupId) (f : Group → Group) : (s.modGroup g f).clusters = s.clusters := rfl
@[simp] theorem State.modGroup_cores (g : GroupId) (f : Group → Group) : (s.modGroup g f).cores = s.cores := rfl
@[simp] theorem State.modGroup_active (g : GroupId) (f : Group → Group) : (s.modGroup g f).active = s.active := rfl
@[simp] theorem State.modGroup_ports (g : GroupId) (f : Group → Group) : (s.modGroup g f).ports = s.ports := rfl
@[simp] theorem State.modGroup_hpstat (g : GroupId) (f : Group → Group) : (s.modGroup g f).hpstat = s.hpstat := rfl
@[simp] theorem State.modGroup_lfsave (g : GroupId) (f : Group → Group) : (s.modGroup g f).lfsave = s.lfsave := rfl
@[simp] theorem State.modGroup_cxwin (g : GroupId) (f : Group → Group) : (s.modGroup g f).cxwin = s.cxwin := rfl
@[simp] theorem State.modGroup_err (g : GroupId) (f : Group → Group) : (s.modGroup g f).err = s.err := rfl
@[simp] theorem State.modGroup_mg (g : GroupId) (f : Group → Group) : (s.modGroup g f).mg = s.mg := rfl
@[simp] theorem State.modGroup_out (g : GroupId) (f : Group → Group) : (s.modGroup g f).out = s.out := rfl

/-! ### `modLaunch` -/

@[simp] theorem State.modLaunch_cycle (p lid : Nat) (f : Launch → Launch) : (s.modLaunch p lid f).cycle = s.cycle := rfl
@[simp] theorem State.modLaunch_timebase (p lid : Nat) (f : Launch → Launch) : (s.modLaunch p lid f).timebase = s.timebase := rfl
@[simp] theorem State.modLaunch_tickAcc (p lid : Nat) (f : Launch → Launch) : (s.modLaunch p lid f).tickAcc = s.tickAcc := rfl
@[simp] theorem State.modLaunch_agenda (p lid : Nat) (f : Launch → Launch) : (s.modLaunch p lid f).agenda = s.agenda := rfl
@[simp] theorem State.modLaunch_eager (p lid : Nat) (f : Launch → Launch) : (s.modLaunch p lid f).eager = s.eager := rfl
@[simp] theorem State.modLaunch_events (p lid : Nat) (f : Launch → Launch) : (s.modLaunch p lid f).events = s.events := rfl
@[simp] theorem State.modLaunch_todo (p lid : Nat) (f : Launch → Launch) : (s.modLaunch p lid f).todo = s.todo := rfl
@[simp] theorem State.modLaunch_posts (p lid : Nat) (f : Launch → Launch) : (s.modLaunch p lid f).posts = s.posts := rfl
@[simp] theorem State.modLaunch_trq (p lid : Nat) (f : Launch → Launch) : (s.modLaunch p lid f).trq = s.trq := rfl
@[simp] theorem State.modLaunch_cur (p lid : Nat) (f : Launch → Launch) : (s.modLaunch p lid f).cur = s.cur := rfl
@[simp] theorem State.modLaunch_fresh (p lid : Nat) (f : Launch → Launch) : (s.modLaunch p lid f).fresh = s.fresh := rfl
@[simp] theorem State.modLaunch_nextSeq (p lid : Nat) (f : Launch → Launch) : (s.modLaunch p lid f).nextSeq = s.nextSeq := rfl
@[simp] theorem State.modLaunch_grade (p lid : Nat) (f : Launch → Launch) : (s.modLaunch p lid f).grade = s.grade := rfl
@[simp] theorem State.modLaunch_waves (p lid : Nat) (f : Launch → Launch) : (s.modLaunch p lid f).waves = s.waves := rfl
@[simp] theorem State.modLaunch_accs (p lid : Nat) (f : Launch → Launch) : (s.modLaunch p lid f).accs = s.accs := rfl
@[simp] theorem State.modLaunch_groups (p lid : Nat) (f : Launch → Launch) : (s.modLaunch p lid f).groups = s.groups := rfl
@[simp] theorem State.modLaunch_launches (p lid : Nat) (f : Launch → Launch) : (s.modLaunch p lid f).launches = upd (fun l => l.part = p && l.lid = lid) f s.launches := rfl
@[simp] theorem State.modLaunch_graphs (p lid : Nat) (f : Launch → Launch) : (s.modLaunch p lid f).graphs = s.graphs := rfl
@[simp] theorem State.modLaunch_jobs (p lid : Nat) (f : Launch → Launch) : (s.modLaunch p lid f).jobs = s.jobs := rfl
@[simp] theorem State.modLaunch_parts (p lid : Nat) (f : Launch → Launch) : (s.modLaunch p lid f).parts = s.parts := rfl
@[simp] theorem State.modLaunch_images (p lid : Nat) (f : Launch → Launch) : (s.modLaunch p lid f).images = s.images := rfl
@[simp] theorem State.modLaunch_mem (p lid : Nat) (f : Launch → Launch) : (s.modLaunch p lid f).mem = s.mem := rfl
@[simp] theorem State.modLaunch_home (p lid : Nat) (f : Launch → Launch) : (s.modLaunch p lid f).home = s.home := rfl
@[simp] theorem State.modLaunch_dirty (p lid : Nat) (f : Launch → Launch) : (s.modLaunch p lid f).dirty = s.dirty := rfl
@[simp] theorem State.modLaunch_slc (p lid : Nat) (f : Launch → Launch) : (s.modLaunch p lid f).slc = s.slc := rfl
@[simp] theorem State.modLaunch_poison (p lid : Nat) (f : Launch → Launch) : (s.modLaunch p lid f).poison = s.poison := rfl
@[simp] theorem State.modLaunch_l1 (p lid : Nat) (f : Launch → Launch) : (s.modLaunch p lid f).l1 = s.l1 := rfl
@[simp] theorem State.modLaunch_ic (p lid : Nat) (f : Launch → Launch) : (s.modLaunch p lid f).ic = s.ic := rfl
@[simp] theorem State.modLaunch_tlb (p lid : Nat) (f : Launch → Launch) : (s.modLaunch p lid f).tlb = s.tlb := rfl
@[simp] theorem State.modLaunch_walks (p lid : Nat) (f : Launch → Launch) : (s.modLaunch p lid f).walks = s.walks := rfl
@[simp] theorem State.modLaunch_fb (p lid : Nat) (f : Launch → Launch) : (s.modLaunch p lid f).fb = s.fb := rfl
@[simp] theorem State.modLaunch_fbwait (p lid : Nat) (f : Launch → Launch) : (s.modLaunch p lid f).fbwait = s.fbwait := rfl
@[simp] theorem State.modLaunch_bias (p lid : Nat) (f : Launch → Launch) : (s.modLaunch p lid f).bias = s.bias := rfl
@[simp] theorem State.modLaunch_snoop (p lid : Nat) (f : Launch → Launch) : (s.modLaunch p lid f).snoop = s.snoop := rfl
@[simp] theorem State.modLaunch_flip (p lid : Nat) (f : Launch → Launch) : (s.modLaunch p lid f).flip = s.flip := rfl
@[simp] theorem State.modLaunch_bfpage (p lid : Nat) (f : Launch → Launch) : (s.modLaunch p lid f).bfpage = s.bfpage := rfl
@[simp] theorem State.modLaunch_biasRes (p lid : Nat) (f : Launch → Launch) : (s.modLaunch p lid f).biasRes = s.biasRes := rfl
@[simp] theorem State.modLaunch_cullet (p lid : Nat) (f : Launch → Launch) : (s.modLaunch p lid f).cullet = s.cullet := rfl
@[simp] theorem State.modLaunch_culletUse (p lid : Nat) (f : Launch → Launch) : (s.modLaunch p lid f).culletUse = s.culletUse := rfl
@[simp] theorem State.modLaunch_slccfg (p lid : Nat) (f : Launch → Launch) : (s.modLaunch p lid f).slccfg = s.slccfg := rfl
@[simp] theorem State.modLaunch_clusters (p lid : Nat) (f : Launch → Launch) : (s.modLaunch p lid f).clusters = s.clusters := rfl
@[simp] theorem State.modLaunch_cores (p lid : Nat) (f : Launch → Launch) : (s.modLaunch p lid f).cores = s.cores := rfl
@[simp] theorem State.modLaunch_active (p lid : Nat) (f : Launch → Launch) : (s.modLaunch p lid f).active = s.active := rfl
@[simp] theorem State.modLaunch_ports (p lid : Nat) (f : Launch → Launch) : (s.modLaunch p lid f).ports = s.ports := rfl
@[simp] theorem State.modLaunch_hpstat (p lid : Nat) (f : Launch → Launch) : (s.modLaunch p lid f).hpstat = s.hpstat := rfl
@[simp] theorem State.modLaunch_lfsave (p lid : Nat) (f : Launch → Launch) : (s.modLaunch p lid f).lfsave = s.lfsave := rfl
@[simp] theorem State.modLaunch_cxwin (p lid : Nat) (f : Launch → Launch) : (s.modLaunch p lid f).cxwin = s.cxwin := rfl
@[simp] theorem State.modLaunch_err (p lid : Nat) (f : Launch → Launch) : (s.modLaunch p lid f).err = s.err := rfl
@[simp] theorem State.modLaunch_mg (p lid : Nat) (f : Launch → Launch) : (s.modLaunch p lid f).mg = s.mg := rfl
@[simp] theorem State.modLaunch_out (p lid : Nat) (f : Launch → Launch) : (s.modLaunch p lid f).out = s.out := rfl

/-! ### `modJob` -/

@[simp] theorem State.modJob_cycle (p jid : Nat) (f : Job → Job) : (s.modJob p jid f).cycle = s.cycle := rfl
@[simp] theorem State.modJob_timebase (p jid : Nat) (f : Job → Job) : (s.modJob p jid f).timebase = s.timebase := rfl
@[simp] theorem State.modJob_tickAcc (p jid : Nat) (f : Job → Job) : (s.modJob p jid f).tickAcc = s.tickAcc := rfl
@[simp] theorem State.modJob_agenda (p jid : Nat) (f : Job → Job) : (s.modJob p jid f).agenda = s.agenda := rfl
@[simp] theorem State.modJob_eager (p jid : Nat) (f : Job → Job) : (s.modJob p jid f).eager = s.eager := rfl
@[simp] theorem State.modJob_events (p jid : Nat) (f : Job → Job) : (s.modJob p jid f).events = s.events := rfl
@[simp] theorem State.modJob_todo (p jid : Nat) (f : Job → Job) : (s.modJob p jid f).todo = s.todo := rfl
@[simp] theorem State.modJob_posts (p jid : Nat) (f : Job → Job) : (s.modJob p jid f).posts = s.posts := rfl
@[simp] theorem State.modJob_trq (p jid : Nat) (f : Job → Job) : (s.modJob p jid f).trq = s.trq := rfl
@[simp] theorem State.modJob_cur (p jid : Nat) (f : Job → Job) : (s.modJob p jid f).cur = s.cur := rfl
@[simp] theorem State.modJob_fresh (p jid : Nat) (f : Job → Job) : (s.modJob p jid f).fresh = s.fresh := rfl
@[simp] theorem State.modJob_nextSeq (p jid : Nat) (f : Job → Job) : (s.modJob p jid f).nextSeq = s.nextSeq := rfl
@[simp] theorem State.modJob_grade (p jid : Nat) (f : Job → Job) : (s.modJob p jid f).grade = s.grade := rfl
@[simp] theorem State.modJob_waves (p jid : Nat) (f : Job → Job) : (s.modJob p jid f).waves = s.waves := rfl
@[simp] theorem State.modJob_accs (p jid : Nat) (f : Job → Job) : (s.modJob p jid f).accs = s.accs := rfl
@[simp] theorem State.modJob_groups (p jid : Nat) (f : Job → Job) : (s.modJob p jid f).groups = s.groups := rfl
@[simp] theorem State.modJob_launches (p jid : Nat) (f : Job → Job) : (s.modJob p jid f).launches = s.launches := rfl
@[simp] theorem State.modJob_graphs (p jid : Nat) (f : Job → Job) : (s.modJob p jid f).graphs = s.graphs := rfl
@[simp] theorem State.modJob_jobs (p jid : Nat) (f : Job → Job) : (s.modJob p jid f).jobs = upd (fun j => j.part = p && j.jid = jid) f s.jobs := rfl
@[simp] theorem State.modJob_parts (p jid : Nat) (f : Job → Job) : (s.modJob p jid f).parts = s.parts := rfl
@[simp] theorem State.modJob_images (p jid : Nat) (f : Job → Job) : (s.modJob p jid f).images = s.images := rfl
@[simp] theorem State.modJob_mem (p jid : Nat) (f : Job → Job) : (s.modJob p jid f).mem = s.mem := rfl
@[simp] theorem State.modJob_home (p jid : Nat) (f : Job → Job) : (s.modJob p jid f).home = s.home := rfl
@[simp] theorem State.modJob_dirty (p jid : Nat) (f : Job → Job) : (s.modJob p jid f).dirty = s.dirty := rfl
@[simp] theorem State.modJob_slc (p jid : Nat) (f : Job → Job) : (s.modJob p jid f).slc = s.slc := rfl
@[simp] theorem State.modJob_poison (p jid : Nat) (f : Job → Job) : (s.modJob p jid f).poison = s.poison := rfl
@[simp] theorem State.modJob_l1 (p jid : Nat) (f : Job → Job) : (s.modJob p jid f).l1 = s.l1 := rfl
@[simp] theorem State.modJob_ic (p jid : Nat) (f : Job → Job) : (s.modJob p jid f).ic = s.ic := rfl
@[simp] theorem State.modJob_tlb (p jid : Nat) (f : Job → Job) : (s.modJob p jid f).tlb = s.tlb := rfl
@[simp] theorem State.modJob_walks (p jid : Nat) (f : Job → Job) : (s.modJob p jid f).walks = s.walks := rfl
@[simp] theorem State.modJob_fb (p jid : Nat) (f : Job → Job) : (s.modJob p jid f).fb = s.fb := rfl
@[simp] theorem State.modJob_fbwait (p jid : Nat) (f : Job → Job) : (s.modJob p jid f).fbwait = s.fbwait := rfl
@[simp] theorem State.modJob_bias (p jid : Nat) (f : Job → Job) : (s.modJob p jid f).bias = s.bias := rfl
@[simp] theorem State.modJob_snoop (p jid : Nat) (f : Job → Job) : (s.modJob p jid f).snoop = s.snoop := rfl
@[simp] theorem State.modJob_flip (p jid : Nat) (f : Job → Job) : (s.modJob p jid f).flip = s.flip := rfl
@[simp] theorem State.modJob_bfpage (p jid : Nat) (f : Job → Job) : (s.modJob p jid f).bfpage = s.bfpage := rfl
@[simp] theorem State.modJob_biasRes (p jid : Nat) (f : Job → Job) : (s.modJob p jid f).biasRes = s.biasRes := rfl
@[simp] theorem State.modJob_cullet (p jid : Nat) (f : Job → Job) : (s.modJob p jid f).cullet = s.cullet := rfl
@[simp] theorem State.modJob_culletUse (p jid : Nat) (f : Job → Job) : (s.modJob p jid f).culletUse = s.culletUse := rfl
@[simp] theorem State.modJob_slccfg (p jid : Nat) (f : Job → Job) : (s.modJob p jid f).slccfg = s.slccfg := rfl
@[simp] theorem State.modJob_clusters (p jid : Nat) (f : Job → Job) : (s.modJob p jid f).clusters = s.clusters := rfl
@[simp] theorem State.modJob_cores (p jid : Nat) (f : Job → Job) : (s.modJob p jid f).cores = s.cores := rfl
@[simp] theorem State.modJob_active (p jid : Nat) (f : Job → Job) : (s.modJob p jid f).active = s.active := rfl
@[simp] theorem State.modJob_ports (p jid : Nat) (f : Job → Job) : (s.modJob p jid f).ports = s.ports := rfl
@[simp] theorem State.modJob_hpstat (p jid : Nat) (f : Job → Job) : (s.modJob p jid f).hpstat = s.hpstat := rfl
@[simp] theorem State.modJob_lfsave (p jid : Nat) (f : Job → Job) : (s.modJob p jid f).lfsave = s.lfsave := rfl
@[simp] theorem State.modJob_cxwin (p jid : Nat) (f : Job → Job) : (s.modJob p jid f).cxwin = s.cxwin := rfl
@[simp] theorem State.modJob_err (p jid : Nat) (f : Job → Job) : (s.modJob p jid f).err = s.err := rfl
@[simp] theorem State.modJob_mg (p jid : Nat) (f : Job → Job) : (s.modJob p jid f).mg = s.mg := rfl
@[simp] theorem State.modJob_out (p jid : Nat) (f : Job → Job) : (s.modJob p jid f).out = s.out := rfl

/-! ### `modGraph` -/

@[simp] theorem State.modGraph_cycle (p jid gi : Nat) (f : Graph → Graph) : (s.modGraph p jid gi f).cycle = s.cycle := rfl
@[simp] theorem State.modGraph_timebase (p jid gi : Nat) (f : Graph → Graph) : (s.modGraph p jid gi f).timebase = s.timebase := rfl
@[simp] theorem State.modGraph_tickAcc (p jid gi : Nat) (f : Graph → Graph) : (s.modGraph p jid gi f).tickAcc = s.tickAcc := rfl
@[simp] theorem State.modGraph_agenda (p jid gi : Nat) (f : Graph → Graph) : (s.modGraph p jid gi f).agenda = s.agenda := rfl
@[simp] theorem State.modGraph_eager (p jid gi : Nat) (f : Graph → Graph) : (s.modGraph p jid gi f).eager = s.eager := rfl
@[simp] theorem State.modGraph_events (p jid gi : Nat) (f : Graph → Graph) : (s.modGraph p jid gi f).events = s.events := rfl
@[simp] theorem State.modGraph_todo (p jid gi : Nat) (f : Graph → Graph) : (s.modGraph p jid gi f).todo = s.todo := rfl
@[simp] theorem State.modGraph_posts (p jid gi : Nat) (f : Graph → Graph) : (s.modGraph p jid gi f).posts = s.posts := rfl
@[simp] theorem State.modGraph_trq (p jid gi : Nat) (f : Graph → Graph) : (s.modGraph p jid gi f).trq = s.trq := rfl
@[simp] theorem State.modGraph_cur (p jid gi : Nat) (f : Graph → Graph) : (s.modGraph p jid gi f).cur = s.cur := rfl
@[simp] theorem State.modGraph_fresh (p jid gi : Nat) (f : Graph → Graph) : (s.modGraph p jid gi f).fresh = s.fresh := rfl
@[simp] theorem State.modGraph_nextSeq (p jid gi : Nat) (f : Graph → Graph) : (s.modGraph p jid gi f).nextSeq = s.nextSeq := rfl
@[simp] theorem State.modGraph_grade (p jid gi : Nat) (f : Graph → Graph) : (s.modGraph p jid gi f).grade = s.grade := rfl
@[simp] theorem State.modGraph_waves (p jid gi : Nat) (f : Graph → Graph) : (s.modGraph p jid gi f).waves = s.waves := rfl
@[simp] theorem State.modGraph_accs (p jid gi : Nat) (f : Graph → Graph) : (s.modGraph p jid gi f).accs = s.accs := rfl
@[simp] theorem State.modGraph_groups (p jid gi : Nat) (f : Graph → Graph) : (s.modGraph p jid gi f).groups = s.groups := rfl
@[simp] theorem State.modGraph_launches (p jid gi : Nat) (f : Graph → Graph) : (s.modGraph p jid gi f).launches = s.launches := rfl
@[simp] theorem State.modGraph_graphs (p jid gi : Nat) (f : Graph → Graph) : (s.modGraph p jid gi f).graphs = upd (fun g => g.part = p && g.jid = jid && g.gi = gi) f s.graphs := rfl
@[simp] theorem State.modGraph_jobs (p jid gi : Nat) (f : Graph → Graph) : (s.modGraph p jid gi f).jobs = s.jobs := rfl
@[simp] theorem State.modGraph_parts (p jid gi : Nat) (f : Graph → Graph) : (s.modGraph p jid gi f).parts = s.parts := rfl
@[simp] theorem State.modGraph_images (p jid gi : Nat) (f : Graph → Graph) : (s.modGraph p jid gi f).images = s.images := rfl
@[simp] theorem State.modGraph_mem (p jid gi : Nat) (f : Graph → Graph) : (s.modGraph p jid gi f).mem = s.mem := rfl
@[simp] theorem State.modGraph_home (p jid gi : Nat) (f : Graph → Graph) : (s.modGraph p jid gi f).home = s.home := rfl
@[simp] theorem State.modGraph_dirty (p jid gi : Nat) (f : Graph → Graph) : (s.modGraph p jid gi f).dirty = s.dirty := rfl
@[simp] theorem State.modGraph_slc (p jid gi : Nat) (f : Graph → Graph) : (s.modGraph p jid gi f).slc = s.slc := rfl
@[simp] theorem State.modGraph_poison (p jid gi : Nat) (f : Graph → Graph) : (s.modGraph p jid gi f).poison = s.poison := rfl
@[simp] theorem State.modGraph_l1 (p jid gi : Nat) (f : Graph → Graph) : (s.modGraph p jid gi f).l1 = s.l1 := rfl
@[simp] theorem State.modGraph_ic (p jid gi : Nat) (f : Graph → Graph) : (s.modGraph p jid gi f).ic = s.ic := rfl
@[simp] theorem State.modGraph_tlb (p jid gi : Nat) (f : Graph → Graph) : (s.modGraph p jid gi f).tlb = s.tlb := rfl
@[simp] theorem State.modGraph_walks (p jid gi : Nat) (f : Graph → Graph) : (s.modGraph p jid gi f).walks = s.walks := rfl
@[simp] theorem State.modGraph_fb (p jid gi : Nat) (f : Graph → Graph) : (s.modGraph p jid gi f).fb = s.fb := rfl
@[simp] theorem State.modGraph_fbwait (p jid gi : Nat) (f : Graph → Graph) : (s.modGraph p jid gi f).fbwait = s.fbwait := rfl
@[simp] theorem State.modGraph_bias (p jid gi : Nat) (f : Graph → Graph) : (s.modGraph p jid gi f).bias = s.bias := rfl
@[simp] theorem State.modGraph_snoop (p jid gi : Nat) (f : Graph → Graph) : (s.modGraph p jid gi f).snoop = s.snoop := rfl
@[simp] theorem State.modGraph_flip (p jid gi : Nat) (f : Graph → Graph) : (s.modGraph p jid gi f).flip = s.flip := rfl
@[simp] theorem State.modGraph_bfpage (p jid gi : Nat) (f : Graph → Graph) : (s.modGraph p jid gi f).bfpage = s.bfpage := rfl
@[simp] theorem State.modGraph_biasRes (p jid gi : Nat) (f : Graph → Graph) : (s.modGraph p jid gi f).biasRes = s.biasRes := rfl
@[simp] theorem State.modGraph_cullet (p jid gi : Nat) (f : Graph → Graph) : (s.modGraph p jid gi f).cullet = s.cullet := rfl
@[simp] theorem State.modGraph_culletUse (p jid gi : Nat) (f : Graph → Graph) : (s.modGraph p jid gi f).culletUse = s.culletUse := rfl
@[simp] theorem State.modGraph_slccfg (p jid gi : Nat) (f : Graph → Graph) : (s.modGraph p jid gi f).slccfg = s.slccfg := rfl
@[simp] theorem State.modGraph_clusters (p jid gi : Nat) (f : Graph → Graph) : (s.modGraph p jid gi f).clusters = s.clusters := rfl
@[simp] theorem State.modGraph_cores (p jid gi : Nat) (f : Graph → Graph) : (s.modGraph p jid gi f).cores = s.cores := rfl
@[simp] theorem State.modGraph_active (p jid gi : Nat) (f : Graph → Graph) : (s.modGraph p jid gi f).active = s.active := rfl
@[simp] theorem State.modGraph_ports (p jid gi : Nat) (f : Graph → Graph) : (s.modGraph p jid gi f).ports = s.ports := rfl
@[simp] theorem State.modGraph_hpstat (p jid gi : Nat) (f : Graph → Graph) : (s.modGraph p jid gi f).hpstat = s.hpstat := rfl
@[simp] theorem State.modGraph_lfsave (p jid gi : Nat) (f : Graph → Graph) : (s.modGraph p jid gi f).lfsave = s.lfsave := rfl
@[simp] theorem State.modGraph_cxwin (p jid gi : Nat) (f : Graph → Graph) : (s.modGraph p jid gi f).cxwin = s.cxwin := rfl
@[simp] theorem State.modGraph_err (p jid gi : Nat) (f : Graph → Graph) : (s.modGraph p jid gi f).err = s.err := rfl
@[simp] theorem State.modGraph_mg (p jid gi : Nat) (f : Graph → Graph) : (s.modGraph p jid gi f).mg = s.mg := rfl
@[simp] theorem State.modGraph_out (p jid gi : Nat) (f : Graph → Graph) : (s.modGraph p jid gi f).out = s.out := rfl

/-! ### `modPart` -/

@[simp] theorem State.modPart_cycle (p : Nat) (f : Part → Part) : (s.modPart p f).cycle = s.cycle := rfl
@[simp] theorem State.modPart_timebase (p : Nat) (f : Part → Part) : (s.modPart p f).timebase = s.timebase := rfl
@[simp] theorem State.modPart_tickAcc (p : Nat) (f : Part → Part) : (s.modPart p f).tickAcc = s.tickAcc := rfl
@[simp] theorem State.modPart_agenda (p : Nat) (f : Part → Part) : (s.modPart p f).agenda = s.agenda := rfl
@[simp] theorem State.modPart_eager (p : Nat) (f : Part → Part) : (s.modPart p f).eager = s.eager := rfl
@[simp] theorem State.modPart_events (p : Nat) (f : Part → Part) : (s.modPart p f).events = s.events := rfl
@[simp] theorem State.modPart_todo (p : Nat) (f : Part → Part) : (s.modPart p f).todo = s.todo := rfl
@[simp] theorem State.modPart_posts (p : Nat) (f : Part → Part) : (s.modPart p f).posts = s.posts := rfl
@[simp] theorem State.modPart_trq (p : Nat) (f : Part → Part) : (s.modPart p f).trq = s.trq := rfl
@[simp] theorem State.modPart_cur (p : Nat) (f : Part → Part) : (s.modPart p f).cur = s.cur := rfl
@[simp] theorem State.modPart_fresh (p : Nat) (f : Part → Part) : (s.modPart p f).fresh = s.fresh := rfl
@[simp] theorem State.modPart_nextSeq (p : Nat) (f : Part → Part) : (s.modPart p f).nextSeq = s.nextSeq := rfl
@[simp] theorem State.modPart_grade (p : Nat) (f : Part → Part) : (s.modPart p f).grade = s.grade := rfl
@[simp] theorem State.modPart_waves (p : Nat) (f : Part → Part) : (s.modPart p f).waves = s.waves := rfl
@[simp] theorem State.modPart_accs (p : Nat) (f : Part → Part) : (s.modPart p f).accs = s.accs := rfl
@[simp] theorem State.modPart_groups (p : Nat) (f : Part → Part) : (s.modPart p f).groups = s.groups := rfl
@[simp] theorem State.modPart_launches (p : Nat) (f : Part → Part) : (s.modPart p f).launches = s.launches := rfl
@[simp] theorem State.modPart_graphs (p : Nat) (f : Part → Part) : (s.modPart p f).graphs = s.graphs := rfl
@[simp] theorem State.modPart_jobs (p : Nat) (f : Part → Part) : (s.modPart p f).jobs = s.jobs := rfl
@[simp] theorem State.modPart_parts (p : Nat) (f : Part → Part) : (s.modPart p f).parts = s.parts.modify p f := rfl
@[simp] theorem State.modPart_images (p : Nat) (f : Part → Part) : (s.modPart p f).images = s.images := rfl
@[simp] theorem State.modPart_mem (p : Nat) (f : Part → Part) : (s.modPart p f).mem = s.mem := rfl
@[simp] theorem State.modPart_home (p : Nat) (f : Part → Part) : (s.modPart p f).home = s.home := rfl
@[simp] theorem State.modPart_dirty (p : Nat) (f : Part → Part) : (s.modPart p f).dirty = s.dirty := rfl
@[simp] theorem State.modPart_slc (p : Nat) (f : Part → Part) : (s.modPart p f).slc = s.slc := rfl
@[simp] theorem State.modPart_poison (p : Nat) (f : Part → Part) : (s.modPart p f).poison = s.poison := rfl
@[simp] theorem State.modPart_l1 (p : Nat) (f : Part → Part) : (s.modPart p f).l1 = s.l1 := rfl
@[simp] theorem State.modPart_ic (p : Nat) (f : Part → Part) : (s.modPart p f).ic = s.ic := rfl
@[simp] theorem State.modPart_tlb (p : Nat) (f : Part → Part) : (s.modPart p f).tlb = s.tlb := rfl
@[simp] theorem State.modPart_walks (p : Nat) (f : Part → Part) : (s.modPart p f).walks = s.walks := rfl
@[simp] theorem State.modPart_fb (p : Nat) (f : Part → Part) : (s.modPart p f).fb = s.fb := rfl
@[simp] theorem State.modPart_fbwait (p : Nat) (f : Part → Part) : (s.modPart p f).fbwait = s.fbwait := rfl
@[simp] theorem State.modPart_bias (p : Nat) (f : Part → Part) : (s.modPart p f).bias = s.bias := rfl
@[simp] theorem State.modPart_snoop (p : Nat) (f : Part → Part) : (s.modPart p f).snoop = s.snoop := rfl
@[simp] theorem State.modPart_flip (p : Nat) (f : Part → Part) : (s.modPart p f).flip = s.flip := rfl
@[simp] theorem State.modPart_bfpage (p : Nat) (f : Part → Part) : (s.modPart p f).bfpage = s.bfpage := rfl
@[simp] theorem State.modPart_biasRes (p : Nat) (f : Part → Part) : (s.modPart p f).biasRes = s.biasRes := rfl
@[simp] theorem State.modPart_cullet (p : Nat) (f : Part → Part) : (s.modPart p f).cullet = s.cullet := rfl
@[simp] theorem State.modPart_culletUse (p : Nat) (f : Part → Part) : (s.modPart p f).culletUse = s.culletUse := rfl
@[simp] theorem State.modPart_slccfg (p : Nat) (f : Part → Part) : (s.modPart p f).slccfg = s.slccfg := rfl
@[simp] theorem State.modPart_clusters (p : Nat) (f : Part → Part) : (s.modPart p f).clusters = s.clusters := rfl
@[simp] theorem State.modPart_cores (p : Nat) (f : Part → Part) : (s.modPart p f).cores = s.cores := rfl
@[simp] theorem State.modPart_active (p : Nat) (f : Part → Part) : (s.modPart p f).active = s.active := rfl
@[simp] theorem State.modPart_ports (p : Nat) (f : Part → Part) : (s.modPart p f).ports = s.ports := rfl
@[simp] theorem State.modPart_hpstat (p : Nat) (f : Part → Part) : (s.modPart p f).hpstat = s.hpstat := rfl
@[simp] theorem State.modPart_lfsave (p : Nat) (f : Part → Part) : (s.modPart p f).lfsave = s.lfsave := rfl
@[simp] theorem State.modPart_cxwin (p : Nat) (f : Part → Part) : (s.modPart p f).cxwin = s.cxwin := rfl
@[simp] theorem State.modPart_err (p : Nat) (f : Part → Part) : (s.modPart p f).err = s.err := rfl
@[simp] theorem State.modPart_mg (p : Nat) (f : Part → Part) : (s.modPart p f).mg = s.mg := rfl
@[simp] theorem State.modPart_out (p : Nat) (f : Part → Part) : (s.modPart p f).out = s.out := rfl

/-! ### `modCore` -/

@[simp] theorem State.modCore_cycle (c : Nat) (f : Core → Core) : (s.modCore c f).cycle = s.cycle := rfl
@[simp] theorem State.modCore_timebase (c : Nat) (f : Core → Core) : (s.modCore c f).timebase = s.timebase := rfl
@[simp] theorem State.modCore_tickAcc (c : Nat) (f : Core → Core) : (s.modCore c f).tickAcc = s.tickAcc := rfl
@[simp] theorem State.modCore_agenda (c : Nat) (f : Core → Core) : (s.modCore c f).agenda = s.agenda := rfl
@[simp] theorem State.modCore_eager (c : Nat) (f : Core → Core) : (s.modCore c f).eager = s.eager := rfl
@[simp] theorem State.modCore_events (c : Nat) (f : Core → Core) : (s.modCore c f).events = s.events := rfl
@[simp] theorem State.modCore_todo (c : Nat) (f : Core → Core) : (s.modCore c f).todo = s.todo := rfl
@[simp] theorem State.modCore_posts (c : Nat) (f : Core → Core) : (s.modCore c f).posts = s.posts := rfl
@[simp] theorem State.modCore_trq (c : Nat) (f : Core → Core) : (s.modCore c f).trq = s.trq := rfl
@[simp] theorem State.modCore_cur (c : Nat) (f : Core → Core) : (s.modCore c f).cur = s.cur := rfl
@[simp] theorem State.modCore_fresh (c : Nat) (f : Core → Core) : (s.modCore c f).fresh = s.fresh := rfl
@[simp] theorem State.modCore_nextSeq (c : Nat) (f : Core → Core) : (s.modCore c f).nextSeq = s.nextSeq := rfl
@[simp] theorem State.modCore_grade (c : Nat) (f : Core → Core) : (s.modCore c f).grade = s.grade := rfl
@[simp] theorem State.modCore_waves (c : Nat) (f : Core → Core) : (s.modCore c f).waves = s.waves := rfl
@[simp] theorem State.modCore_accs (c : Nat) (f : Core → Core) : (s.modCore c f).accs = s.accs := rfl
@[simp] theorem State.modCore_groups (c : Nat) (f : Core → Core) : (s.modCore c f).groups = s.groups := rfl
@[simp] theorem State.modCore_launches (c : Nat) (f : Core → Core) : (s.modCore c f).launches = s.launches := rfl
@[simp] theorem State.modCore_graphs (c : Nat) (f : Core → Core) : (s.modCore c f).graphs = s.graphs := rfl
@[simp] theorem State.modCore_jobs (c : Nat) (f : Core → Core) : (s.modCore c f).jobs = s.jobs := rfl
@[simp] theorem State.modCore_parts (c : Nat) (f : Core → Core) : (s.modCore c f).parts = s.parts := rfl
@[simp] theorem State.modCore_images (c : Nat) (f : Core → Core) : (s.modCore c f).images = s.images := rfl
@[simp] theorem State.modCore_mem (c : Nat) (f : Core → Core) : (s.modCore c f).mem = s.mem := rfl
@[simp] theorem State.modCore_home (c : Nat) (f : Core → Core) : (s.modCore c f).home = s.home := rfl
@[simp] theorem State.modCore_dirty (c : Nat) (f : Core → Core) : (s.modCore c f).dirty = s.dirty := rfl
@[simp] theorem State.modCore_slc (c : Nat) (f : Core → Core) : (s.modCore c f).slc = s.slc := rfl
@[simp] theorem State.modCore_poison (c : Nat) (f : Core → Core) : (s.modCore c f).poison = s.poison := rfl
@[simp] theorem State.modCore_l1 (c : Nat) (f : Core → Core) : (s.modCore c f).l1 = s.l1 := rfl
@[simp] theorem State.modCore_ic (c : Nat) (f : Core → Core) : (s.modCore c f).ic = s.ic := rfl
@[simp] theorem State.modCore_tlb (c : Nat) (f : Core → Core) : (s.modCore c f).tlb = s.tlb := rfl
@[simp] theorem State.modCore_walks (c : Nat) (f : Core → Core) : (s.modCore c f).walks = s.walks := rfl
@[simp] theorem State.modCore_fb (c : Nat) (f : Core → Core) : (s.modCore c f).fb = s.fb := rfl
@[simp] theorem State.modCore_fbwait (c : Nat) (f : Core → Core) : (s.modCore c f).fbwait = s.fbwait := rfl
@[simp] theorem State.modCore_bias (c : Nat) (f : Core → Core) : (s.modCore c f).bias = s.bias := rfl
@[simp] theorem State.modCore_snoop (c : Nat) (f : Core → Core) : (s.modCore c f).snoop = s.snoop := rfl
@[simp] theorem State.modCore_flip (c : Nat) (f : Core → Core) : (s.modCore c f).flip = s.flip := rfl
@[simp] theorem State.modCore_bfpage (c : Nat) (f : Core → Core) : (s.modCore c f).bfpage = s.bfpage := rfl
@[simp] theorem State.modCore_biasRes (c : Nat) (f : Core → Core) : (s.modCore c f).biasRes = s.biasRes := rfl
@[simp] theorem State.modCore_cullet (c : Nat) (f : Core → Core) : (s.modCore c f).cullet = s.cullet := rfl
@[simp] theorem State.modCore_culletUse (c : Nat) (f : Core → Core) : (s.modCore c f).culletUse = s.culletUse := rfl
@[simp] theorem State.modCore_slccfg (c : Nat) (f : Core → Core) : (s.modCore c f).slccfg = s.slccfg := rfl
@[simp] theorem State.modCore_clusters (c : Nat) (f : Core → Core) : (s.modCore c f).clusters = s.clusters := rfl
@[simp] theorem State.modCore_cores (c : Nat) (f : Core → Core) : (s.modCore c f).cores = s.cores.modify c f := rfl
@[simp] theorem State.modCore_active (c : Nat) (f : Core → Core) : (s.modCore c f).active = s.active := rfl
@[simp] theorem State.modCore_ports (c : Nat) (f : Core → Core) : (s.modCore c f).ports = s.ports := rfl
@[simp] theorem State.modCore_hpstat (c : Nat) (f : Core → Core) : (s.modCore c f).hpstat = s.hpstat := rfl
@[simp] theorem State.modCore_lfsave (c : Nat) (f : Core → Core) : (s.modCore c f).lfsave = s.lfsave := rfl
@[simp] theorem State.modCore_cxwin (c : Nat) (f : Core → Core) : (s.modCore c f).cxwin = s.cxwin := rfl
@[simp] theorem State.modCore_err (c : Nat) (f : Core → Core) : (s.modCore c f).err = s.err := rfl
@[simp] theorem State.modCore_mg (c : Nat) (f : Core → Core) : (s.modCore c f).mg = s.mg := rfl
@[simp] theorem State.modCore_out (c : Nat) (f : Core → Core) : (s.modCore c f).out = s.out := rfl

/-! ### `modCluster` -/

@[simp] theorem State.modCluster_cycle (c : Nat) (f : Cluster → Cluster) : (s.modCluster c f).cycle = s.cycle := rfl
@[simp] theorem State.modCluster_timebase (c : Nat) (f : Cluster → Cluster) : (s.modCluster c f).timebase = s.timebase := rfl
@[simp] theorem State.modCluster_tickAcc (c : Nat) (f : Cluster → Cluster) : (s.modCluster c f).tickAcc = s.tickAcc := rfl
@[simp] theorem State.modCluster_agenda (c : Nat) (f : Cluster → Cluster) : (s.modCluster c f).agenda = s.agenda := rfl
@[simp] theorem State.modCluster_eager (c : Nat) (f : Cluster → Cluster) : (s.modCluster c f).eager = s.eager := rfl
@[simp] theorem State.modCluster_events (c : Nat) (f : Cluster → Cluster) : (s.modCluster c f).events = s.events := rfl
@[simp] theorem State.modCluster_todo (c : Nat) (f : Cluster → Cluster) : (s.modCluster c f).todo = s.todo := rfl
@[simp] theorem State.modCluster_posts (c : Nat) (f : Cluster → Cluster) : (s.modCluster c f).posts = s.posts := rfl
@[simp] theorem State.modCluster_trq (c : Nat) (f : Cluster → Cluster) : (s.modCluster c f).trq = s.trq := rfl
@[simp] theorem State.modCluster_cur (c : Nat) (f : Cluster → Cluster) : (s.modCluster c f).cur = s.cur := rfl
@[simp] theorem State.modCluster_fresh (c : Nat) (f : Cluster → Cluster) : (s.modCluster c f).fresh = s.fresh := rfl
@[simp] theorem State.modCluster_nextSeq (c : Nat) (f : Cluster → Cluster) : (s.modCluster c f).nextSeq = s.nextSeq := rfl
@[simp] theorem State.modCluster_grade (c : Nat) (f : Cluster → Cluster) : (s.modCluster c f).grade = s.grade := rfl
@[simp] theorem State.modCluster_waves (c : Nat) (f : Cluster → Cluster) : (s.modCluster c f).waves = s.waves := rfl
@[simp] theorem State.modCluster_accs (c : Nat) (f : Cluster → Cluster) : (s.modCluster c f).accs = s.accs := rfl
@[simp] theorem State.modCluster_groups (c : Nat) (f : Cluster → Cluster) : (s.modCluster c f).groups = s.groups := rfl
@[simp] theorem State.modCluster_launches (c : Nat) (f : Cluster → Cluster) : (s.modCluster c f).launches = s.launches := rfl
@[simp] theorem State.modCluster_graphs (c : Nat) (f : Cluster → Cluster) : (s.modCluster c f).graphs = s.graphs := rfl
@[simp] theorem State.modCluster_jobs (c : Nat) (f : Cluster → Cluster) : (s.modCluster c f).jobs = s.jobs := rfl
@[simp] theorem State.modCluster_parts (c : Nat) (f : Cluster → Cluster) : (s.modCluster c f).parts = s.parts := rfl
@[simp] theorem State.modCluster_images (c : Nat) (f : Cluster → Cluster) : (s.modCluster c f).images = s.images := rfl
@[simp] theorem State.modCluster_mem (c : Nat) (f : Cluster → Cluster) : (s.modCluster c f).mem = s.mem := rfl
@[simp] theorem State.modCluster_home (c : Nat) (f : Cluster → Cluster) : (s.modCluster c f).home = s.home := rfl
@[simp] theorem State.modCluster_dirty (c : Nat) (f : Cluster → Cluster) : (s.modCluster c f).dirty = s.dirty := rfl
@[simp] theorem State.modCluster_slc (c : Nat) (f : Cluster → Cluster) : (s.modCluster c f).slc = s.slc := rfl
@[simp] theorem State.modCluster_poison (c : Nat) (f : Cluster → Cluster) : (s.modCluster c f).poison = s.poison := rfl
@[simp] theorem State.modCluster_l1 (c : Nat) (f : Cluster → Cluster) : (s.modCluster c f).l1 = s.l1 := rfl
@[simp] theorem State.modCluster_ic (c : Nat) (f : Cluster → Cluster) : (s.modCluster c f).ic = s.ic := rfl
@[simp] theorem State.modCluster_tlb (c : Nat) (f : Cluster → Cluster) : (s.modCluster c f).tlb = s.tlb := rfl
@[simp] theorem State.modCluster_walks (c : Nat) (f : Cluster → Cluster) : (s.modCluster c f).walks = s.walks := rfl
@[simp] theorem State.modCluster_fb (c : Nat) (f : Cluster → Cluster) : (s.modCluster c f).fb = s.fb := rfl
@[simp] theorem State.modCluster_fbwait (c : Nat) (f : Cluster → Cluster) : (s.modCluster c f).fbwait = s.fbwait := rfl
@[simp] theorem State.modCluster_bias (c : Nat) (f : Cluster → Cluster) : (s.modCluster c f).bias = s.bias := rfl
@[simp] theorem State.modCluster_snoop (c : Nat) (f : Cluster → Cluster) : (s.modCluster c f).snoop = s.snoop := rfl
@[simp] theorem State.modCluster_flip (c : Nat) (f : Cluster → Cluster) : (s.modCluster c f).flip = s.flip := rfl
@[simp] theorem State.modCluster_bfpage (c : Nat) (f : Cluster → Cluster) : (s.modCluster c f).bfpage = s.bfpage := rfl
@[simp] theorem State.modCluster_biasRes (c : Nat) (f : Cluster → Cluster) : (s.modCluster c f).biasRes = s.biasRes := rfl
@[simp] theorem State.modCluster_cullet (c : Nat) (f : Cluster → Cluster) : (s.modCluster c f).cullet = s.cullet := rfl
@[simp] theorem State.modCluster_culletUse (c : Nat) (f : Cluster → Cluster) : (s.modCluster c f).culletUse = s.culletUse := rfl
@[simp] theorem State.modCluster_slccfg (c : Nat) (f : Cluster → Cluster) : (s.modCluster c f).slccfg = s.slccfg := rfl
@[simp] theorem State.modCluster_clusters (c : Nat) (f : Cluster → Cluster) : (s.modCluster c f).clusters = s.clusters.modify c f := rfl
@[simp] theorem State.modCluster_cores (c : Nat) (f : Cluster → Cluster) : (s.modCluster c f).cores = s.cores := rfl
@[simp] theorem State.modCluster_active (c : Nat) (f : Cluster → Cluster) : (s.modCluster c f).active = s.active := rfl
@[simp] theorem State.modCluster_ports (c : Nat) (f : Cluster → Cluster) : (s.modCluster c f).ports = s.ports := rfl
@[simp] theorem State.modCluster_hpstat (c : Nat) (f : Cluster → Cluster) : (s.modCluster c f).hpstat = s.hpstat := rfl
@[simp] theorem State.modCluster_lfsave (c : Nat) (f : Cluster → Cluster) : (s.modCluster c f).lfsave = s.lfsave := rfl
@[simp] theorem State.modCluster_cxwin (c : Nat) (f : Cluster → Cluster) : (s.modCluster c f).cxwin = s.cxwin := rfl
@[simp] theorem State.modCluster_err (c : Nat) (f : Cluster → Cluster) : (s.modCluster c f).err = s.err := rfl
@[simp] theorem State.modCluster_mg (c : Nat) (f : Cluster → Cluster) : (s.modCluster c f).mg = s.mg := rfl
@[simp] theorem State.modCluster_out (c : Nat) (f : Cluster → Cluster) : (s.modCluster c f).out = s.out := rfl

/-! ### `modAcc` -/

@[simp] theorem State.modAcc_cycle (id : Nat) (f : Acc → Acc) : (s.modAcc id f).cycle = s.cycle := rfl
@[simp] theorem State.modAcc_timebase (id : Nat) (f : Acc → Acc) : (s.modAcc id f).timebase = s.timebase := rfl
@[simp] theorem State.modAcc_tickAcc (id : Nat) (f : Acc → Acc) : (s.modAcc id f).tickAcc = s.tickAcc := rfl
@[simp] theorem State.modAcc_agenda (id : Nat) (f : Acc → Acc) : (s.modAcc id f).agenda = s.agenda := rfl
@[simp] theorem State.modAcc_eager (id : Nat) (f : Acc → Acc) : (s.modAcc id f).eager = s.eager := rfl
@[simp] theorem State.modAcc_events (id : Nat) (f : Acc → Acc) : (s.modAcc id f).events = s.events := rfl
@[simp] theorem State.modAcc_todo (id : Nat) (f : Acc → Acc) : (s.modAcc id f).todo = s.todo := rfl
@[simp] theorem State.modAcc_posts (id : Nat) (f : Acc → Acc) : (s.modAcc id f).posts = s.posts := rfl
@[simp] theorem State.modAcc_trq (id : Nat) (f : Acc → Acc) : (s.modAcc id f).trq = s.trq := rfl
@[simp] theorem State.modAcc_cur (id : Nat) (f : Acc → Acc) : (s.modAcc id f).cur = s.cur := rfl
@[simp] theorem State.modAcc_fresh (id : Nat) (f : Acc → Acc) : (s.modAcc id f).fresh = s.fresh := rfl
@[simp] theorem State.modAcc_nextSeq (id : Nat) (f : Acc → Acc) : (s.modAcc id f).nextSeq = s.nextSeq := rfl
@[simp] theorem State.modAcc_grade (id : Nat) (f : Acc → Acc) : (s.modAcc id f).grade = s.grade := rfl
@[simp] theorem State.modAcc_waves (id : Nat) (f : Acc → Acc) : (s.modAcc id f).waves = s.waves := rfl
@[simp] theorem State.modAcc_accs (id : Nat) (f : Acc → Acc) : (s.modAcc id f).accs = upd (fun a => a.id = id) f s.accs := rfl
@[simp] theorem State.modAcc_groups (id : Nat) (f : Acc → Acc) : (s.modAcc id f).groups = s.groups := rfl
@[simp] theorem State.modAcc_launches (id : Nat) (f : Acc → Acc) : (s.modAcc id f).launches = s.launches := rfl
@[simp] theorem State.modAcc_graphs (id : Nat) (f : Acc → Acc) : (s.modAcc id f).graphs = s.graphs := rfl
@[simp] theorem State.modAcc_jobs (id : Nat) (f : Acc → Acc) : (s.modAcc id f).jobs = s.jobs := rfl
@[simp] theorem State.modAcc_parts (id : Nat) (f : Acc → Acc) : (s.modAcc id f).parts = s.parts := rfl
@[simp] theorem State.modAcc_images (id : Nat) (f : Acc → Acc) : (s.modAcc id f).images = s.images := rfl
@[simp] theorem State.modAcc_mem (id : Nat) (f : Acc → Acc) : (s.modAcc id f).mem = s.mem := rfl
@[simp] theorem State.modAcc_home (id : Nat) (f : Acc → Acc) : (s.modAcc id f).home = s.home := rfl
@[simp] theorem State.modAcc_dirty (id : Nat) (f : Acc → Acc) : (s.modAcc id f).dirty = s.dirty := rfl
@[simp] theorem State.modAcc_slc (id : Nat) (f : Acc → Acc) : (s.modAcc id f).slc = s.slc := rfl
@[simp] theorem State.modAcc_poison (id : Nat) (f : Acc → Acc) : (s.modAcc id f).poison = s.poison := rfl
@[simp] theorem State.modAcc_l1 (id : Nat) (f : Acc → Acc) : (s.modAcc id f).l1 = s.l1 := rfl
@[simp] theorem State.modAcc_ic (id : Nat) (f : Acc → Acc) : (s.modAcc id f).ic = s.ic := rfl
@[simp] theorem State.modAcc_tlb (id : Nat) (f : Acc → Acc) : (s.modAcc id f).tlb = s.tlb := rfl
@[simp] theorem State.modAcc_walks (id : Nat) (f : Acc → Acc) : (s.modAcc id f).walks = s.walks := rfl
@[simp] theorem State.modAcc_fb (id : Nat) (f : Acc → Acc) : (s.modAcc id f).fb = s.fb := rfl
@[simp] theorem State.modAcc_fbwait (id : Nat) (f : Acc → Acc) : (s.modAcc id f).fbwait = s.fbwait := rfl
@[simp] theorem State.modAcc_bias (id : Nat) (f : Acc → Acc) : (s.modAcc id f).bias = s.bias := rfl
@[simp] theorem State.modAcc_snoop (id : Nat) (f : Acc → Acc) : (s.modAcc id f).snoop = s.snoop := rfl
@[simp] theorem State.modAcc_flip (id : Nat) (f : Acc → Acc) : (s.modAcc id f).flip = s.flip := rfl
@[simp] theorem State.modAcc_bfpage (id : Nat) (f : Acc → Acc) : (s.modAcc id f).bfpage = s.bfpage := rfl
@[simp] theorem State.modAcc_biasRes (id : Nat) (f : Acc → Acc) : (s.modAcc id f).biasRes = s.biasRes := rfl
@[simp] theorem State.modAcc_cullet (id : Nat) (f : Acc → Acc) : (s.modAcc id f).cullet = s.cullet := rfl
@[simp] theorem State.modAcc_culletUse (id : Nat) (f : Acc → Acc) : (s.modAcc id f).culletUse = s.culletUse := rfl
@[simp] theorem State.modAcc_slccfg (id : Nat) (f : Acc → Acc) : (s.modAcc id f).slccfg = s.slccfg := rfl
@[simp] theorem State.modAcc_clusters (id : Nat) (f : Acc → Acc) : (s.modAcc id f).clusters = s.clusters := rfl
@[simp] theorem State.modAcc_cores (id : Nat) (f : Acc → Acc) : (s.modAcc id f).cores = s.cores := rfl
@[simp] theorem State.modAcc_active (id : Nat) (f : Acc → Acc) : (s.modAcc id f).active = s.active := rfl
@[simp] theorem State.modAcc_ports (id : Nat) (f : Acc → Acc) : (s.modAcc id f).ports = s.ports := rfl
@[simp] theorem State.modAcc_hpstat (id : Nat) (f : Acc → Acc) : (s.modAcc id f).hpstat = s.hpstat := rfl
@[simp] theorem State.modAcc_lfsave (id : Nat) (f : Acc → Acc) : (s.modAcc id f).lfsave = s.lfsave := rfl
@[simp] theorem State.modAcc_cxwin (id : Nat) (f : Acc → Acc) : (s.modAcc id f).cxwin = s.cxwin := rfl
@[simp] theorem State.modAcc_err (id : Nat) (f : Acc → Acc) : (s.modAcc id f).err = s.err := rfl
@[simp] theorem State.modAcc_mg (id : Nat) (f : Acc → Acc) : (s.modAcc id f).mg = s.mg := rfl
@[simp] theorem State.modAcc_out (id : Nat) (f : Acc → Acc) : (s.modAcc id f).out = s.out := rfl

/-! ### `dropAcc` -/

@[simp] theorem State.dropAcc_cycle (id : Nat) : (s.dropAcc id).cycle = s.cycle := rfl
@[simp] theorem State.dropAcc_timebase (id : Nat) : (s.dropAcc id).timebase = s.timebase := rfl
@[simp] theorem State.dropAcc_tickAcc (id : Nat) : (s.dropAcc id).tickAcc = s.tickAcc := rfl
@[simp] theorem State.dropAcc_agenda (id : Nat) : (s.dropAcc id).agenda = s.agenda := rfl
@[simp] theorem State.dropAcc_eager (id : Nat) : (s.dropAcc id).eager = s.eager := rfl
@[simp] theorem State.dropAcc_events (id : Nat) : (s.dropAcc id).events = s.events := rfl
@[simp] theorem State.dropAcc_todo (id : Nat) : (s.dropAcc id).todo = s.todo := rfl
@[simp] theorem State.dropAcc_posts (id : Nat) : (s.dropAcc id).posts = s.posts := rfl
@[simp] theorem State.dropAcc_trq (id : Nat) : (s.dropAcc id).trq = s.trq := rfl
@[simp] theorem State.dropAcc_cur (id : Nat) : (s.dropAcc id).cur = s.cur := rfl
@[simp] theorem State.dropAcc_fresh (id : Nat) : (s.dropAcc id).fresh = s.fresh := rfl
@[simp] theorem State.dropAcc_nextSeq (id : Nat) : (s.dropAcc id).nextSeq = s.nextSeq := rfl
@[simp] theorem State.dropAcc_grade (id : Nat) : (s.dropAcc id).grade = s.grade := rfl
@[simp] theorem State.dropAcc_waves (id : Nat) : (s.dropAcc id).waves = s.waves := rfl
@[simp] theorem State.dropAcc_accs (id : Nat) : (s.dropAcc id).accs = s.accs.filter fun a => a.id ≠ id := rfl
@[simp] theorem State.dropAcc_groups (id : Nat) : (s.dropAcc id).groups = s.groups := rfl
@[simp] theorem State.dropAcc_launches (id : Nat) : (s.dropAcc id).launches = s.launches := rfl
@[simp] theorem State.dropAcc_graphs (id : Nat) : (s.dropAcc id).graphs = s.graphs := rfl
@[simp] theorem State.dropAcc_jobs (id : Nat) : (s.dropAcc id).jobs = s.jobs := rfl
@[simp] theorem State.dropAcc_parts (id : Nat) : (s.dropAcc id).parts = s.parts := rfl
@[simp] theorem State.dropAcc_images (id : Nat) : (s.dropAcc id).images = s.images := rfl
@[simp] theorem State.dropAcc_mem (id : Nat) : (s.dropAcc id).mem = s.mem := rfl
@[simp] theorem State.dropAcc_home (id : Nat) : (s.dropAcc id).home = s.home := rfl
@[simp] theorem State.dropAcc_dirty (id : Nat) : (s.dropAcc id).dirty = s.dirty := rfl
@[simp] theorem State.dropAcc_slc (id : Nat) : (s.dropAcc id).slc = s.slc := rfl
@[simp] theorem State.dropAcc_poison (id : Nat) : (s.dropAcc id).poison = s.poison := rfl
@[simp] theorem State.dropAcc_l1 (id : Nat) : (s.dropAcc id).l1 = s.l1 := rfl
@[simp] theorem State.dropAcc_ic (id : Nat) : (s.dropAcc id).ic = s.ic := rfl
@[simp] theorem State.dropAcc_tlb (id : Nat) : (s.dropAcc id).tlb = s.tlb := rfl
@[simp] theorem State.dropAcc_walks (id : Nat) : (s.dropAcc id).walks = s.walks := rfl
@[simp] theorem State.dropAcc_fb (id : Nat) : (s.dropAcc id).fb = s.fb := rfl
@[simp] theorem State.dropAcc_fbwait (id : Nat) : (s.dropAcc id).fbwait = s.fbwait := rfl
@[simp] theorem State.dropAcc_bias (id : Nat) : (s.dropAcc id).bias = s.bias := rfl
@[simp] theorem State.dropAcc_snoop (id : Nat) : (s.dropAcc id).snoop = s.snoop := rfl
@[simp] theorem State.dropAcc_flip (id : Nat) : (s.dropAcc id).flip = s.flip := rfl
@[simp] theorem State.dropAcc_bfpage (id : Nat) : (s.dropAcc id).bfpage = s.bfpage := rfl
@[simp] theorem State.dropAcc_biasRes (id : Nat) : (s.dropAcc id).biasRes = s.biasRes := rfl
@[simp] theorem State.dropAcc_cullet (id : Nat) : (s.dropAcc id).cullet = s.cullet := rfl
@[simp] theorem State.dropAcc_culletUse (id : Nat) : (s.dropAcc id).culletUse = s.culletUse := rfl
@[simp] theorem State.dropAcc_slccfg (id : Nat) : (s.dropAcc id).slccfg = s.slccfg := rfl
@[simp] theorem State.dropAcc_clusters (id : Nat) : (s.dropAcc id).clusters = s.clusters := rfl
@[simp] theorem State.dropAcc_cores (id : Nat) : (s.dropAcc id).cores = s.cores := rfl
@[simp] theorem State.dropAcc_active (id : Nat) : (s.dropAcc id).active = s.active := rfl
@[simp] theorem State.dropAcc_ports (id : Nat) : (s.dropAcc id).ports = s.ports := rfl
@[simp] theorem State.dropAcc_hpstat (id : Nat) : (s.dropAcc id).hpstat = s.hpstat := rfl
@[simp] theorem State.dropAcc_lfsave (id : Nat) : (s.dropAcc id).lfsave = s.lfsave := rfl
@[simp] theorem State.dropAcc_cxwin (id : Nat) : (s.dropAcc id).cxwin = s.cxwin := rfl
@[simp] theorem State.dropAcc_err (id : Nat) : (s.dropAcc id).err = s.err := rfl
@[simp] theorem State.dropAcc_mg (id : Nat) : (s.dropAcc id).mg = s.mg := rfl
@[simp] theorem State.dropAcc_out (id : Nat) : (s.dropAcc id).out = s.out := rfl

/-! ### `addAcc` -/

@[simp] theorem State.addAcc_cycle (a : Acc) : (s.addAcc a).cycle = s.cycle := rfl
@[simp] theorem State.addAcc_timebase (a : Acc) : (s.addAcc a).timebase = s.timebase := rfl
@[simp] theorem State.addAcc_tickAcc (a : Acc) : (s.addAcc a).tickAcc = s.tickAcc := rfl
@[simp] theorem State.addAcc_agenda (a : Acc) : (s.addAcc a).agenda = s.agenda := rfl
@[simp] theorem State.addAcc_eager (a : Acc) : (s.addAcc a).eager = s.eager := rfl
@[simp] theorem State.addAcc_events (a : Acc) : (s.addAcc a).events = s.events := rfl
@[simp] theorem State.addAcc_todo (a : Acc) : (s.addAcc a).todo = s.todo := rfl
@[simp] theorem State.addAcc_posts (a : Acc) : (s.addAcc a).posts = s.posts := rfl
@[simp] theorem State.addAcc_trq (a : Acc) : (s.addAcc a).trq = s.trq := rfl
@[simp] theorem State.addAcc_cur (a : Acc) : (s.addAcc a).cur = s.cur := rfl
@[simp] theorem State.addAcc_fresh (a : Acc) : (s.addAcc a).fresh = s.fresh := rfl
@[simp] theorem State.addAcc_nextSeq (a : Acc) : (s.addAcc a).nextSeq = s.nextSeq + 1 := rfl
@[simp] theorem State.addAcc_grade (a : Acc) : (s.addAcc a).grade = s.grade := rfl
@[simp] theorem State.addAcc_waves (a : Acc) : (s.addAcc a).waves = s.waves := rfl
@[simp] theorem State.addAcc_accs (a : Acc) : (s.addAcc a).accs = s.accs ++ [{ a with id := s.nextSeq }] := rfl
@[simp] theorem State.addAcc_groups (a : Acc) : (s.addAcc a).groups = s.groups := rfl
@[simp] theorem State.addAcc_launches (a : Acc) : (s.addAcc a).launches = s.launches := rfl
@[simp] theorem State.addAcc_graphs (a : Acc) : (s.addAcc a).graphs = s.graphs := rfl
@[simp] theorem State.addAcc_jobs (a : Acc) : (s.addAcc a).jobs = s.jobs := rfl
@[simp] theorem State.addAcc_parts (a : Acc) : (s.addAcc a).parts = s.parts := rfl
@[simp] theorem State.addAcc_images (a : Acc) : (s.addAcc a).images = s.images := rfl
@[simp] theorem State.addAcc_mem (a : Acc) : (s.addAcc a).mem = s.mem := rfl
@[simp] theorem State.addAcc_home (a : Acc) : (s.addAcc a).home = s.home := rfl
@[simp] theorem State.addAcc_dirty (a : Acc) : (s.addAcc a).dirty = s.dirty := rfl
@[simp] theorem State.addAcc_slc (a : Acc) : (s.addAcc a).slc = s.slc := rfl
@[simp] theorem State.addAcc_poison (a : Acc) : (s.addAcc a).poison = s.poison := rfl
@[simp] theorem State.addAcc_l1 (a : Acc) : (s.addAcc a).l1 = s.l1 := rfl
@[simp] theorem State.addAcc_ic (a : Acc) : (s.addAcc a).ic = s.ic := rfl
@[simp] theorem State.addAcc_tlb (a : Acc) : (s.addAcc a).tlb = s.tlb := rfl
@[simp] theorem State.addAcc_walks (a : Acc) : (s.addAcc a).walks = s.walks := rfl
@[simp] theorem State.addAcc_fb (a : Acc) : (s.addAcc a).fb = s.fb := rfl
@[simp] theorem State.addAcc_fbwait (a : Acc) : (s.addAcc a).fbwait = s.fbwait := rfl
@[simp] theorem State.addAcc_bias (a : Acc) : (s.addAcc a).bias = s.bias := rfl
@[simp] theorem State.addAcc_snoop (a : Acc) : (s.addAcc a).snoop = s.snoop := rfl
@[simp] theorem State.addAcc_flip (a : Acc) : (s.addAcc a).flip = s.flip := rfl
@[simp] theorem State.addAcc_bfpage (a : Acc) : (s.addAcc a).bfpage = s.bfpage := rfl
@[simp] theorem State.addAcc_biasRes (a : Acc) : (s.addAcc a).biasRes = s.biasRes := rfl
@[simp] theorem State.addAcc_cullet (a : Acc) : (s.addAcc a).cullet = s.cullet := rfl
@[simp] theorem State.addAcc_culletUse (a : Acc) : (s.addAcc a).culletUse = s.culletUse := rfl
@[simp] theorem State.addAcc_slccfg (a : Acc) : (s.addAcc a).slccfg = s.slccfg := rfl
@[simp] theorem State.addAcc_clusters (a : Acc) : (s.addAcc a).clusters = s.clusters := rfl
@[simp] theorem State.addAcc_cores (a : Acc) : (s.addAcc a).cores = s.cores := rfl
@[simp] theorem State.addAcc_active (a : Acc) : (s.addAcc a).active = s.active := rfl
@[simp] theorem State.addAcc_ports (a : Acc) : (s.addAcc a).ports = s.ports := rfl
@[simp] theorem State.addAcc_hpstat (a : Acc) : (s.addAcc a).hpstat = s.hpstat := rfl
@[simp] theorem State.addAcc_lfsave (a : Acc) : (s.addAcc a).lfsave = s.lfsave := rfl
@[simp] theorem State.addAcc_cxwin (a : Acc) : (s.addAcc a).cxwin = s.cxwin := rfl
@[simp] theorem State.addAcc_err (a : Acc) : (s.addAcc a).err = s.err := rfl
@[simp] theorem State.addAcc_mg (a : Acc) : (s.addAcc a).mg = s.mg := rfl
@[simp] theorem State.addAcc_out (a : Acc) : (s.addAcc a).out = s.out := rfl

/-! ### `wrByte` -/

@[simp] theorem State.wrByte_cycle (pa : Nat) (x : Byte) : (s.wrByte pa x).cycle = s.cycle := rfl
@[simp] theorem State.wrByte_timebase (pa : Nat) (x : Byte) : (s.wrByte pa x).timebase = s.timebase := rfl
@[simp] theorem State.wrByte_tickAcc (pa : Nat) (x : Byte) : (s.wrByte pa x).tickAcc = s.tickAcc := rfl
@[simp] theorem State.wrByte_agenda (pa : Nat) (x : Byte) : (s.wrByte pa x).agenda = s.agenda := rfl
@[simp] theorem State.wrByte_eager (pa : Nat) (x : Byte) : (s.wrByte pa x).eager = s.eager := rfl
@[simp] theorem State.wrByte_events (pa : Nat) (x : Byte) : (s.wrByte pa x).events = s.events := rfl
@[simp] theorem State.wrByte_todo (pa : Nat) (x : Byte) : (s.wrByte pa x).todo = s.todo := rfl
@[simp] theorem State.wrByte_posts (pa : Nat) (x : Byte) : (s.wrByte pa x).posts = s.posts := rfl
@[simp] theorem State.wrByte_trq (pa : Nat) (x : Byte) : (s.wrByte pa x).trq = s.trq := rfl
@[simp] theorem State.wrByte_cur (pa : Nat) (x : Byte) : (s.wrByte pa x).cur = s.cur := rfl
@[simp] theorem State.wrByte_fresh (pa : Nat) (x : Byte) : (s.wrByte pa x).fresh = s.fresh := rfl
@[simp] theorem State.wrByte_nextSeq (pa : Nat) (x : Byte) : (s.wrByte pa x).nextSeq = s.nextSeq := rfl
@[simp] theorem State.wrByte_grade (pa : Nat) (x : Byte) : (s.wrByte pa x).grade = s.grade := rfl
@[simp] theorem State.wrByte_waves (pa : Nat) (x : Byte) : (s.wrByte pa x).waves = s.waves := rfl
@[simp] theorem State.wrByte_accs (pa : Nat) (x : Byte) : (s.wrByte pa x).accs = s.accs := rfl
@[simp] theorem State.wrByte_groups (pa : Nat) (x : Byte) : (s.wrByte pa x).groups = s.groups := rfl
@[simp] theorem State.wrByte_launches (pa : Nat) (x : Byte) : (s.wrByte pa x).launches = s.launches := rfl
@[simp] theorem State.wrByte_graphs (pa : Nat) (x : Byte) : (s.wrByte pa x).graphs = s.graphs := rfl
@[simp] theorem State.wrByte_jobs (pa : Nat) (x : Byte) : (s.wrByte pa x).jobs = s.jobs := rfl
@[simp] theorem State.wrByte_parts (pa : Nat) (x : Byte) : (s.wrByte pa x).parts = s.parts := rfl
@[simp] theorem State.wrByte_images (pa : Nat) (x : Byte) : (s.wrByte pa x).images = s.images := rfl
@[simp] theorem State.wrByte_mem (pa : Nat) (x : Byte) : (s.wrByte pa x).mem = s.mem.set (s.key pa) x := rfl
@[simp] theorem State.wrByte_home (pa : Nat) (x : Byte) : (s.wrByte pa x).home = s.home := rfl
@[simp] theorem State.wrByte_dirty (pa : Nat) (x : Byte) : (s.wrByte pa x).dirty = if State.isCsm pa then s.dirty else insNat (s.key pa / 128) s.dirty := rfl
@[simp] theorem State.wrByte_slc (pa : Nat) (x : Byte) : (s.wrByte pa x).slc = s.slc := rfl
@[simp] theorem State.wrByte_poison (pa : Nat) (x : Byte) : (s.wrByte pa x).poison = s.poison := rfl
@[simp] theorem State.wrByte_l1 (pa : Nat) (x : Byte) : (s.wrByte pa x).l1 = s.l1 := rfl
@[simp] theorem State.wrByte_ic (pa : Nat) (x : Byte) : (s.wrByte pa x).ic = s.ic := rfl
@[simp] theorem State.wrByte_tlb (pa : Nat) (x : Byte) : (s.wrByte pa x).tlb = s.tlb := rfl
@[simp] theorem State.wrByte_walks (pa : Nat) (x : Byte) : (s.wrByte pa x).walks = s.walks := rfl
@[simp] theorem State.wrByte_fb (pa : Nat) (x : Byte) : (s.wrByte pa x).fb = s.fb := rfl
@[simp] theorem State.wrByte_fbwait (pa : Nat) (x : Byte) : (s.wrByte pa x).fbwait = s.fbwait := rfl
@[simp] theorem State.wrByte_bias (pa : Nat) (x : Byte) : (s.wrByte pa x).bias = s.bias := rfl
@[simp] theorem State.wrByte_snoop (pa : Nat) (x : Byte) : (s.wrByte pa x).snoop = s.snoop := rfl
@[simp] theorem State.wrByte_flip (pa : Nat) (x : Byte) : (s.wrByte pa x).flip = s.flip := rfl
@[simp] theorem State.wrByte_bfpage (pa : Nat) (x : Byte) : (s.wrByte pa x).bfpage = s.bfpage := rfl
@[simp] theorem State.wrByte_biasRes (pa : Nat) (x : Byte) : (s.wrByte pa x).biasRes = s.biasRes := rfl
@[simp] theorem State.wrByte_cullet (pa : Nat) (x : Byte) : (s.wrByte pa x).cullet = s.cullet := rfl
@[simp] theorem State.wrByte_culletUse (pa : Nat) (x : Byte) : (s.wrByte pa x).culletUse = s.culletUse := rfl
@[simp] theorem State.wrByte_slccfg (pa : Nat) (x : Byte) : (s.wrByte pa x).slccfg = s.slccfg := rfl
@[simp] theorem State.wrByte_clusters (pa : Nat) (x : Byte) : (s.wrByte pa x).clusters = s.clusters := rfl
@[simp] theorem State.wrByte_cores (pa : Nat) (x : Byte) : (s.wrByte pa x).cores = s.cores := rfl
@[simp] theorem State.wrByte_active (pa : Nat) (x : Byte) : (s.wrByte pa x).active = s.active := rfl
@[simp] theorem State.wrByte_ports (pa : Nat) (x : Byte) : (s.wrByte pa x).ports = s.ports := rfl
@[simp] theorem State.wrByte_hpstat (pa : Nat) (x : Byte) : (s.wrByte pa x).hpstat = s.hpstat := rfl
@[simp] theorem State.wrByte_lfsave (pa : Nat) (x : Byte) : (s.wrByte pa x).lfsave = s.lfsave := rfl
@[simp] theorem State.wrByte_cxwin (pa : Nat) (x : Byte) : (s.wrByte pa x).cxwin = s.cxwin := rfl
@[simp] theorem State.wrByte_err (pa : Nat) (x : Byte) : (s.wrByte pa x).err = s.err := rfl
@[simp] theorem State.wrByte_mg (pa : Nat) (x : Byte) : (s.wrByte pa x).mg = s.mg := rfl
@[simp] theorem State.wrByte_out (pa : Nat) (x : Byte) : (s.wrByte pa x).out = s.out := rfl

/-! ### `l1Clear` -/

@[simp] theorem State.l1Clear_cycle (core : Nat) : (s.l1Clear core).cycle = s.cycle := rfl
@[simp] theorem State.l1Clear_timebase (core : Nat) : (s.l1Clear core).timebase = s.timebase := rfl
@[simp] theorem State.l1Clear_tickAcc (core : Nat) : (s.l1Clear core).tickAcc = s.tickAcc := rfl
@[simp] theorem State.l1Clear_agenda (core : Nat) : (s.l1Clear core).agenda = s.agenda := rfl
@[simp] theorem State.l1Clear_eager (core : Nat) : (s.l1Clear core).eager = s.eager := rfl
@[simp] theorem State.l1Clear_events (core : Nat) : (s.l1Clear core).events = s.events := rfl
@[simp] theorem State.l1Clear_todo (core : Nat) : (s.l1Clear core).todo = s.todo := rfl
@[simp] theorem State.l1Clear_posts (core : Nat) : (s.l1Clear core).posts = s.posts := rfl
@[simp] theorem State.l1Clear_trq (core : Nat) : (s.l1Clear core).trq = s.trq := rfl
@[simp] theorem State.l1Clear_cur (core : Nat) : (s.l1Clear core).cur = s.cur := rfl
@[simp] theorem State.l1Clear_fresh (core : Nat) : (s.l1Clear core).fresh = s.fresh := rfl
@[simp] theorem State.l1Clear_nextSeq (core : Nat) : (s.l1Clear core).nextSeq = s.nextSeq := rfl
@[simp] theorem State.l1Clear_grade (core : Nat) : (s.l1Clear core).grade = s.grade := rfl
@[simp] theorem State.l1Clear_waves (core : Nat) : (s.l1Clear core).waves = s.waves := rfl
@[simp] theorem State.l1Clear_accs (core : Nat) : (s.l1Clear core).accs = s.accs := rfl
@[simp] theorem State.l1Clear_groups (core : Nat) : (s.l1Clear core).groups = s.groups := rfl
@[simp] theorem State.l1Clear_launches (core : Nat) : (s.l1Clear core).launches = s.launches := rfl
@[simp] theorem State.l1Clear_graphs (core : Nat) : (s.l1Clear core).graphs = s.graphs := rfl
@[simp] theorem State.l1Clear_jobs (core : Nat) : (s.l1Clear core).jobs = s.jobs := rfl
@[simp] theorem State.l1Clear_parts (core : Nat) : (s.l1Clear core).parts = s.parts := rfl
@[simp] theorem State.l1Clear_images (core : Nat) : (s.l1Clear core).images = s.images := rfl
@[simp] theorem State.l1Clear_mem (core : Nat) : (s.l1Clear core).mem = s.mem := rfl
@[simp] theorem State.l1Clear_home (core : Nat) : (s.l1Clear core).home = s.home := rfl
@[simp] theorem State.l1Clear_dirty (core : Nat) : (s.l1Clear core).dirty = s.dirty := rfl
@[simp] theorem State.l1Clear_slc (core : Nat) : (s.l1Clear core).slc = s.slc := rfl
@[simp] theorem State.l1Clear_poison (core : Nat) : (s.l1Clear core).poison = s.poison := rfl
@[simp] theorem State.l1Clear_l1 (core : Nat) : (s.l1Clear core).l1 = s.l1.filter fun l => l.core ≠ core := rfl
@[simp] theorem State.l1Clear_ic (core : Nat) : (s.l1Clear core).ic = s.ic := rfl
@[simp] theorem State.l1Clear_tlb (core : Nat) : (s.l1Clear core).tlb = s.tlb := rfl
@[simp] theorem State.l1Clear_walks (core : Nat) : (s.l1Clear core).walks = s.walks := rfl
@[simp] theorem State.l1Clear_fb (core : Nat) : (s.l1Clear core).fb = s.fb := rfl
@[simp] theorem State.l1Clear_fbwait (core : Nat) : (s.l1Clear core).fbwait = s.fbwait := rfl
@[simp] theorem State.l1Clear_bias (core : Nat) : (s.l1Clear core).bias = s.bias := rfl
@[simp] theorem State.l1Clear_snoop (core : Nat) : (s.l1Clear core).snoop = s.snoop := rfl
@[simp] theorem State.l1Clear_flip (core : Nat) : (s.l1Clear core).flip = s.flip := rfl
@[simp] theorem State.l1Clear_bfpage (core : Nat) : (s.l1Clear core).bfpage = s.bfpage := rfl
@[simp] theorem State.l1Clear_biasRes (core : Nat) : (s.l1Clear core).biasRes = s.biasRes := rfl
@[simp] theorem State.l1Clear_cullet (core : Nat) : (s.l1Clear core).cullet = s.cullet := rfl
@[simp] theorem State.l1Clear_culletUse (core : Nat) : (s.l1Clear core).culletUse = s.culletUse := rfl
@[simp] theorem State.l1Clear_slccfg (core : Nat) : (s.l1Clear core).slccfg = s.slccfg := rfl
@[simp] theorem State.l1Clear_clusters (core : Nat) : (s.l1Clear core).clusters = s.clusters := rfl
@[simp] theorem State.l1Clear_cores (core : Nat) : (s.l1Clear core).cores = s.cores := rfl
@[simp] theorem State.l1Clear_active (core : Nat) : (s.l1Clear core).active = s.active := rfl
@[simp] theorem State.l1Clear_ports (core : Nat) : (s.l1Clear core).ports = s.ports := rfl
@[simp] theorem State.l1Clear_hpstat (core : Nat) : (s.l1Clear core).hpstat = s.hpstat := rfl
@[simp] theorem State.l1Clear_lfsave (core : Nat) : (s.l1Clear core).lfsave = s.lfsave := rfl
@[simp] theorem State.l1Clear_cxwin (core : Nat) : (s.l1Clear core).cxwin = s.cxwin := rfl
@[simp] theorem State.l1Clear_err (core : Nat) : (s.l1Clear core).err = s.err := rfl
@[simp] theorem State.l1Clear_mg (core : Nat) : (s.l1Clear core).mg = s.mg := rfl
@[simp] theorem State.l1Clear_out (core : Nat) : (s.l1Clear core).out = s.out := rfl

/-! ### `l1Drop` -/

@[simp] theorem State.l1Drop_cycle (core line : Nat) : (s.l1Drop core line).cycle = s.cycle := rfl
@[simp] theorem State.l1Drop_timebase (core line : Nat) : (s.l1Drop core line).timebase = s.timebase := rfl
@[simp] theorem State.l1Drop_tickAcc (core line : Nat) : (s.l1Drop core line).tickAcc = s.tickAcc := rfl
@[simp] theorem State.l1Drop_agenda (core line : Nat) : (s.l1Drop core line).agenda = s.agenda := rfl
@[simp] theorem State.l1Drop_eager (core line : Nat) : (s.l1Drop core line).eager = s.eager := rfl
@[simp] theorem State.l1Drop_events (core line : Nat) : (s.l1Drop core line).events = s.events := rfl
@[simp] theorem State.l1Drop_todo (core line : Nat) : (s.l1Drop core line).todo = s.todo := rfl
@[simp] theorem State.l1Drop_posts (core line : Nat) : (s.l1Drop core line).posts = s.posts := rfl
@[simp] theorem State.l1Drop_trq (core line : Nat) : (s.l1Drop core line).trq = s.trq := rfl
@[simp] theorem State.l1Drop_cur (core line : Nat) : (s.l1Drop core line).cur = s.cur := rfl
@[simp] theorem State.l1Drop_fresh (core line : Nat) : (s.l1Drop core line).fresh = s.fresh := rfl
@[simp] theorem State.l1Drop_nextSeq (core line : Nat) : (s.l1Drop core line).nextSeq = s.nextSeq := rfl
@[simp] theorem State.l1Drop_grade (core line : Nat) : (s.l1Drop core line).grade = s.grade := rfl
@[simp] theorem State.l1Drop_waves (core line : Nat) : (s.l1Drop core line).waves = s.waves := rfl
@[simp] theorem State.l1Drop_accs (core line : Nat) : (s.l1Drop core line).accs = s.accs := rfl
@[simp] theorem State.l1Drop_groups (core line : Nat) : (s.l1Drop core line).groups = s.groups := rfl
@[simp] theorem State.l1Drop_launches (core line : Nat) : (s.l1Drop core line).launches = s.launches := rfl
@[simp] theorem State.l1Drop_graphs (core line : Nat) : (s.l1Drop core line).graphs = s.graphs := rfl
@[simp] theorem State.l1Drop_jobs (core line : Nat) : (s.l1Drop core line).jobs = s.jobs := rfl
@[simp] theorem State.l1Drop_parts (core line : Nat) : (s.l1Drop core line).parts = s.parts := rfl
@[simp] theorem State.l1Drop_images (core line : Nat) : (s.l1Drop core line).images = s.images := rfl
@[simp] theorem State.l1Drop_mem (core line : Nat) : (s.l1Drop core line).mem = s.mem := rfl
@[simp] theorem State.l1Drop_home (core line : Nat) : (s.l1Drop core line).home = s.home := rfl
@[simp] theorem State.l1Drop_dirty (core line : Nat) : (s.l1Drop core line).dirty = s.dirty := rfl
@[simp] theorem State.l1Drop_slc (core line : Nat) : (s.l1Drop core line).slc = s.slc := rfl
@[simp] theorem State.l1Drop_poison (core line : Nat) : (s.l1Drop core line).poison = s.poison := rfl
@[simp] theorem State.l1Drop_l1 (core line : Nat) : (s.l1Drop core line).l1 = s.l1.filter fun l => ¬ (l.core = core ∧ l.line = line) := rfl
@[simp] theorem State.l1Drop_ic (core line : Nat) : (s.l1Drop core line).ic = s.ic := rfl
@[simp] theorem State.l1Drop_tlb (core line : Nat) : (s.l1Drop core line).tlb = s.tlb := rfl
@[simp] theorem State.l1Drop_walks (core line : Nat) : (s.l1Drop core line).walks = s.walks := rfl
@[simp] theorem State.l1Drop_fb (core line : Nat) : (s.l1Drop core line).fb = s.fb := rfl
@[simp] theorem State.l1Drop_fbwait (core line : Nat) : (s.l1Drop core line).fbwait = s.fbwait := rfl
@[simp] theorem State.l1Drop_bias (core line : Nat) : (s.l1Drop core line).bias = s.bias := rfl
@[simp] theorem State.l1Drop_snoop (core line : Nat) : (s.l1Drop core line).snoop = s.snoop := rfl
@[simp] theorem State.l1Drop_flip (core line : Nat) : (s.l1Drop core line).flip = s.flip := rfl
@[simp] theorem State.l1Drop_bfpage (core line : Nat) : (s.l1Drop core line).bfpage = s.bfpage := rfl
@[simp] theorem State.l1Drop_biasRes (core line : Nat) : (s.l1Drop core line).biasRes = s.biasRes := rfl
@[simp] theorem State.l1Drop_cullet (core line : Nat) : (s.l1Drop core line).cullet = s.cullet := rfl
@[simp] theorem State.l1Drop_culletUse (core line : Nat) : (s.l1Drop core line).culletUse = s.culletUse := rfl
@[simp] theorem State.l1Drop_slccfg (core line : Nat) : (s.l1Drop core line).slccfg = s.slccfg := rfl
@[simp] theorem State.l1Drop_clusters (core line : Nat) : (s.l1Drop core line).clusters = s.clusters := rfl
@[simp] theorem State.l1Drop_cores (core line : Nat) : (s.l1Drop core line).cores = s.cores := rfl
@[simp] theorem State.l1Drop_active (core line : Nat) : (s.l1Drop core line).active = s.active := rfl
@[simp] theorem State.l1Drop_ports (core line : Nat) : (s.l1Drop core line).ports = s.ports := rfl
@[simp] theorem State.l1Drop_hpstat (core line : Nat) : (s.l1Drop core line).hpstat = s.hpstat := rfl
@[simp] theorem State.l1Drop_lfsave (core line : Nat) : (s.l1Drop core line).lfsave = s.lfsave := rfl
@[simp] theorem State.l1Drop_cxwin (core line : Nat) : (s.l1Drop core line).cxwin = s.cxwin := rfl
@[simp] theorem State.l1Drop_err (core line : Nat) : (s.l1Drop core line).err = s.err := rfl
@[simp] theorem State.l1Drop_mg (core line : Nat) : (s.l1Drop core line).mg = s.mg := rfl
@[simp] theorem State.l1Drop_out (core line : Nat) : (s.l1Drop core line).out = s.out := rfl

/-! ### `enter` -/

@[simp] theorem State.enter_cycle (w : Wave) (e : Env) (h : Hdr) : (s.enter w e h).cycle = s.cycle := rfl
@[simp] theorem State.enter_timebase (w : Wave) (e : Env) (h : Hdr) : (s.enter w e h).timebase = s.timebase := rfl
@[simp] theorem State.enter_tickAcc (w : Wave) (e : Env) (h : Hdr) : (s.enter w e h).tickAcc = s.tickAcc := rfl
@[simp] theorem State.enter_agenda (w : Wave) (e : Env) (h : Hdr) : (s.enter w e h).agenda = s.agenda := rfl
@[simp] theorem State.enter_eager (w : Wave) (e : Env) (h : Hdr) : (s.enter w e h).eager = s.eager := rfl
@[simp] theorem State.enter_events (w : Wave) (e : Env) (h : Hdr) : (s.enter w e h).events = s.events := rfl
@[simp] theorem State.enter_todo (w : Wave) (e : Env) (h : Hdr) : (s.enter w e h).todo = s.todo := rfl
@[simp] theorem State.enter_posts (w : Wave) (e : Env) (h : Hdr) : (s.enter w e h).posts = s.posts := rfl
@[simp] theorem State.enter_trq (w : Wave) (e : Env) (h : Hdr) : (s.enter w e h).trq = s.trq := rfl
@[simp] theorem State.enter_cur (w : Wave) (e : Env) (h : Hdr) : (s.enter w e h).cur = s.cur := rfl
@[simp] theorem State.enter_fresh (w : Wave) (e : Env) (h : Hdr) : (s.enter w e h).fresh = s.fresh := rfl
@[simp] theorem State.enter_nextSeq (w : Wave) (e : Env) (h : Hdr) : (s.enter w e h).nextSeq = s.nextSeq := rfl
@[simp] theorem State.enter_grade (w : Wave) (e : Env) (h : Hdr) : (s.enter w e h).grade = s.grade := rfl
@[simp] theorem State.enter_waves (w : Wave) (e : Env) (h : Hdr) : (s.enter w e h).waves = upd (fun x => x.id = w.id) (fun x => (match e.id with | .xvi _ _ _ => x | _ => x.stepDue).issued e h) s.waves := rfl
@[simp] theorem State.enter_accs (w : Wave) (e : Env) (h : Hdr) : (s.enter w e h).accs = s.accs := rfl
@[simp] theorem State.enter_groups (w : Wave) (e : Env) (h : Hdr) : (s.enter w e h).groups = s.groups := rfl
@[simp] theorem State.enter_launches (w : Wave) (e : Env) (h : Hdr) : (s.enter w e h).launches = s.launches := rfl
@[simp] theorem State.enter_graphs (w : Wave) (e : Env) (h : Hdr) : (s.enter w e h).graphs = s.graphs := rfl
@[simp] theorem State.enter_jobs (w : Wave) (e : Env) (h : Hdr) : (s.enter w e h).jobs = s.jobs := rfl
@[simp] theorem State.enter_parts (w : Wave) (e : Env) (h : Hdr) : (s.enter w e h).parts = s.parts := rfl
@[simp] theorem State.enter_images (w : Wave) (e : Env) (h : Hdr) : (s.enter w e h).images = s.images := rfl
@[simp] theorem State.enter_mem (w : Wave) (e : Env) (h : Hdr) : (s.enter w e h).mem = s.mem := rfl
@[simp] theorem State.enter_home (w : Wave) (e : Env) (h : Hdr) : (s.enter w e h).home = s.home := rfl
@[simp] theorem State.enter_dirty (w : Wave) (e : Env) (h : Hdr) : (s.enter w e h).dirty = s.dirty := rfl
@[simp] theorem State.enter_slc (w : Wave) (e : Env) (h : Hdr) : (s.enter w e h).slc = s.slc := rfl
@[simp] theorem State.enter_poison (w : Wave) (e : Env) (h : Hdr) : (s.enter w e h).poison = s.poison := rfl
@[simp] theorem State.enter_l1 (w : Wave) (e : Env) (h : Hdr) : (s.enter w e h).l1 = s.l1 := rfl
@[simp] theorem State.enter_ic (w : Wave) (e : Env) (h : Hdr) : (s.enter w e h).ic = s.ic := rfl
@[simp] theorem State.enter_tlb (w : Wave) (e : Env) (h : Hdr) : (s.enter w e h).tlb = s.tlb := rfl
@[simp] theorem State.enter_walks (w : Wave) (e : Env) (h : Hdr) : (s.enter w e h).walks = s.walks := rfl
@[simp] theorem State.enter_fb (w : Wave) (e : Env) (h : Hdr) : (s.enter w e h).fb = s.fb := rfl
@[simp] theorem State.enter_fbwait (w : Wave) (e : Env) (h : Hdr) : (s.enter w e h).fbwait = s.fbwait := rfl
@[simp] theorem State.enter_bias (w : Wave) (e : Env) (h : Hdr) : (s.enter w e h).bias = s.bias := rfl
@[simp] theorem State.enter_snoop (w : Wave) (e : Env) (h : Hdr) : (s.enter w e h).snoop = s.snoop := rfl
@[simp] theorem State.enter_flip (w : Wave) (e : Env) (h : Hdr) : (s.enter w e h).flip = s.flip := rfl
@[simp] theorem State.enter_bfpage (w : Wave) (e : Env) (h : Hdr) : (s.enter w e h).bfpage = s.bfpage := rfl
@[simp] theorem State.enter_biasRes (w : Wave) (e : Env) (h : Hdr) : (s.enter w e h).biasRes = s.biasRes := rfl
@[simp] theorem State.enter_cullet (w : Wave) (e : Env) (h : Hdr) : (s.enter w e h).cullet = s.cullet := rfl
@[simp] theorem State.enter_culletUse (w : Wave) (e : Env) (h : Hdr) : (s.enter w e h).culletUse = s.culletUse := rfl
@[simp] theorem State.enter_slccfg (w : Wave) (e : Env) (h : Hdr) : (s.enter w e h).slccfg = s.slccfg := rfl
@[simp] theorem State.enter_clusters (w : Wave) (e : Env) (h : Hdr) : (s.enter w e h).clusters = s.clusters := rfl
@[simp] theorem State.enter_cores (w : Wave) (e : Env) (h : Hdr) : (s.enter w e h).cores = s.cores.modify w.id.core fun c => { c with quarters := c.quarters.modify w.id.q fun q => { q with busy := e.c + 1 } } := rfl
@[simp] theorem State.enter_active (w : Wave) (e : Env) (h : Hdr) : (s.enter w e h).active = s.active := rfl
@[simp] theorem State.enter_ports (w : Wave) (e : Env) (h : Hdr) : (s.enter w e h).ports = s.ports := rfl
@[simp] theorem State.enter_hpstat (w : Wave) (e : Env) (h : Hdr) : (s.enter w e h).hpstat = s.hpstat := rfl
@[simp] theorem State.enter_lfsave (w : Wave) (e : Env) (h : Hdr) : (s.enter w e h).lfsave = s.lfsave := rfl
@[simp] theorem State.enter_cxwin (w : Wave) (e : Env) (h : Hdr) : (s.enter w e h).cxwin = s.cxwin := rfl
@[simp] theorem State.enter_err (w : Wave) (e : Env) (h : Hdr) : (s.enter w e h).err = s.err := rfl
@[simp] theorem State.enter_mg (w : Wave) (e : Env) (h : Hdr) : (s.enter w e h).mg = s.mg := rfl
@[simp] theorem State.enter_out (w : Wave) (e : Env) (h : Hdr) : (s.enter w e h).out = s.out := rfl

/-! ### Writes of several bytes -/

@[simp] theorem State.wrBytes_cycle (pa : Nat) (bs : List Byte) : (s.wrBytes pa bs).cycle = s.cycle := by
  induction bs generalizing s pa with
  | nil => rfl
  | cons b bs ih => exact ih (s.wrByte pa b) (pa + 1)
@[simp] theorem State.wrNat_cycle (pa n x : Nat) : (s.wrNat pa n x).cycle = s.cycle :=
  State.wrBytes_cycle s pa (leBytes n x)
@[simp] theorem State.wrBytes_timebase (pa : Nat) (bs : List Byte) : (s.wrBytes pa bs).timebase = s.timebase := by
  induction bs generalizing s pa with
  | nil => rfl
  | cons b bs ih => exact ih (s.wrByte pa b) (pa + 1)
@[simp] theorem State.wrNat_timebase (pa n x : Nat) : (s.wrNat pa n x).timebase = s.timebase :=
  State.wrBytes_timebase s pa (leBytes n x)
@[simp] theorem State.wrBytes_tickAcc (pa : Nat) (bs : List Byte) : (s.wrBytes pa bs).tickAcc = s.tickAcc := by
  induction bs generalizing s pa with
  | nil => rfl
  | cons b bs ih => exact ih (s.wrByte pa b) (pa + 1)
@[simp] theorem State.wrNat_tickAcc (pa n x : Nat) : (s.wrNat pa n x).tickAcc = s.tickAcc :=
  State.wrBytes_tickAcc s pa (leBytes n x)
@[simp] theorem State.wrBytes_agenda (pa : Nat) (bs : List Byte) : (s.wrBytes pa bs).agenda = s.agenda := by
  induction bs generalizing s pa with
  | nil => rfl
  | cons b bs ih => exact ih (s.wrByte pa b) (pa + 1)
@[simp] theorem State.wrNat_agenda (pa n x : Nat) : (s.wrNat pa n x).agenda = s.agenda :=
  State.wrBytes_agenda s pa (leBytes n x)
@[simp] theorem State.wrBytes_eager (pa : Nat) (bs : List Byte) : (s.wrBytes pa bs).eager = s.eager := by
  induction bs generalizing s pa with
  | nil => rfl
  | cons b bs ih => exact ih (s.wrByte pa b) (pa + 1)
@[simp] theorem State.wrNat_eager (pa n x : Nat) : (s.wrNat pa n x).eager = s.eager :=
  State.wrBytes_eager s pa (leBytes n x)
@[simp] theorem State.wrBytes_events (pa : Nat) (bs : List Byte) : (s.wrBytes pa bs).events = s.events := by
  induction bs generalizing s pa with
  | nil => rfl
  | cons b bs ih => exact ih (s.wrByte pa b) (pa + 1)
@[simp] theorem State.wrNat_events (pa n x : Nat) : (s.wrNat pa n x).events = s.events :=
  State.wrBytes_events s pa (leBytes n x)
@[simp] theorem State.wrBytes_todo (pa : Nat) (bs : List Byte) : (s.wrBytes pa bs).todo = s.todo := by
  induction bs generalizing s pa with
  | nil => rfl
  | cons b bs ih => exact ih (s.wrByte pa b) (pa + 1)
@[simp] theorem State.wrNat_todo (pa n x : Nat) : (s.wrNat pa n x).todo = s.todo :=
  State.wrBytes_todo s pa (leBytes n x)
@[simp] theorem State.wrBytes_posts (pa : Nat) (bs : List Byte) : (s.wrBytes pa bs).posts = s.posts := by
  induction bs generalizing s pa with
  | nil => rfl
  | cons b bs ih => exact ih (s.wrByte pa b) (pa + 1)
@[simp] theorem State.wrNat_posts (pa n x : Nat) : (s.wrNat pa n x).posts = s.posts :=
  State.wrBytes_posts s pa (leBytes n x)
@[simp] theorem State.wrBytes_trq (pa : Nat) (bs : List Byte) : (s.wrBytes pa bs).trq = s.trq := by
  induction bs generalizing s pa with
  | nil => rfl
  | cons b bs ih => exact ih (s.wrByte pa b) (pa + 1)
@[simp] theorem State.wrNat_trq (pa n x : Nat) : (s.wrNat pa n x).trq = s.trq :=
  State.wrBytes_trq s pa (leBytes n x)
@[simp] theorem State.wrBytes_cur (pa : Nat) (bs : List Byte) : (s.wrBytes pa bs).cur = s.cur := by
  induction bs generalizing s pa with
  | nil => rfl
  | cons b bs ih => exact ih (s.wrByte pa b) (pa + 1)
@[simp] theorem State.wrNat_cur (pa n x : Nat) : (s.wrNat pa n x).cur = s.cur :=
  State.wrBytes_cur s pa (leBytes n x)
@[simp] theorem State.wrBytes_fresh (pa : Nat) (bs : List Byte) : (s.wrBytes pa bs).fresh = s.fresh := by
  induction bs generalizing s pa with
  | nil => rfl
  | cons b bs ih => exact ih (s.wrByte pa b) (pa + 1)
@[simp] theorem State.wrNat_fresh (pa n x : Nat) : (s.wrNat pa n x).fresh = s.fresh :=
  State.wrBytes_fresh s pa (leBytes n x)
@[simp] theorem State.wrBytes_nextSeq (pa : Nat) (bs : List Byte) : (s.wrBytes pa bs).nextSeq = s.nextSeq := by
  induction bs generalizing s pa with
  | nil => rfl
  | cons b bs ih => exact ih (s.wrByte pa b) (pa + 1)
@[simp] theorem State.wrNat_nextSeq (pa n x : Nat) : (s.wrNat pa n x).nextSeq = s.nextSeq :=
  State.wrBytes_nextSeq s pa (leBytes n x)
@[simp] theorem State.wrBytes_grade (pa : Nat) (bs : List Byte) : (s.wrBytes pa bs).grade = s.grade := by
  induction bs generalizing s pa with
  | nil => rfl
  | cons b bs ih => exact ih (s.wrByte pa b) (pa + 1)
@[simp] theorem State.wrNat_grade (pa n x : Nat) : (s.wrNat pa n x).grade = s.grade :=
  State.wrBytes_grade s pa (leBytes n x)
@[simp] theorem State.wrBytes_waves (pa : Nat) (bs : List Byte) : (s.wrBytes pa bs).waves = s.waves := by
  induction bs generalizing s pa with
  | nil => rfl
  | cons b bs ih => exact ih (s.wrByte pa b) (pa + 1)
@[simp] theorem State.wrNat_waves (pa n x : Nat) : (s.wrNat pa n x).waves = s.waves :=
  State.wrBytes_waves s pa (leBytes n x)
@[simp] theorem State.wrBytes_accs (pa : Nat) (bs : List Byte) : (s.wrBytes pa bs).accs = s.accs := by
  induction bs generalizing s pa with
  | nil => rfl
  | cons b bs ih => exact ih (s.wrByte pa b) (pa + 1)
@[simp] theorem State.wrNat_accs (pa n x : Nat) : (s.wrNat pa n x).accs = s.accs :=
  State.wrBytes_accs s pa (leBytes n x)
@[simp] theorem State.wrBytes_groups (pa : Nat) (bs : List Byte) : (s.wrBytes pa bs).groups = s.groups := by
  induction bs generalizing s pa with
  | nil => rfl
  | cons b bs ih => exact ih (s.wrByte pa b) (pa + 1)
@[simp] theorem State.wrNat_groups (pa n x : Nat) : (s.wrNat pa n x).groups = s.groups :=
  State.wrBytes_groups s pa (leBytes n x)
@[simp] theorem State.wrBytes_launches (pa : Nat) (bs : List Byte) : (s.wrBytes pa bs).launches = s.launches := by
  induction bs generalizing s pa with
  | nil => rfl
  | cons b bs ih => exact ih (s.wrByte pa b) (pa + 1)
@[simp] theorem State.wrNat_launches (pa n x : Nat) : (s.wrNat pa n x).launches = s.launches :=
  State.wrBytes_launches s pa (leBytes n x)
@[simp] theorem State.wrBytes_graphs (pa : Nat) (bs : List Byte) : (s.wrBytes pa bs).graphs = s.graphs := by
  induction bs generalizing s pa with
  | nil => rfl
  | cons b bs ih => exact ih (s.wrByte pa b) (pa + 1)
@[simp] theorem State.wrNat_graphs (pa n x : Nat) : (s.wrNat pa n x).graphs = s.graphs :=
  State.wrBytes_graphs s pa (leBytes n x)
@[simp] theorem State.wrBytes_jobs (pa : Nat) (bs : List Byte) : (s.wrBytes pa bs).jobs = s.jobs := by
  induction bs generalizing s pa with
  | nil => rfl
  | cons b bs ih => exact ih (s.wrByte pa b) (pa + 1)
@[simp] theorem State.wrNat_jobs (pa n x : Nat) : (s.wrNat pa n x).jobs = s.jobs :=
  State.wrBytes_jobs s pa (leBytes n x)
@[simp] theorem State.wrBytes_parts (pa : Nat) (bs : List Byte) : (s.wrBytes pa bs).parts = s.parts := by
  induction bs generalizing s pa with
  | nil => rfl
  | cons b bs ih => exact ih (s.wrByte pa b) (pa + 1)
@[simp] theorem State.wrNat_parts (pa n x : Nat) : (s.wrNat pa n x).parts = s.parts :=
  State.wrBytes_parts s pa (leBytes n x)
@[simp] theorem State.wrBytes_images (pa : Nat) (bs : List Byte) : (s.wrBytes pa bs).images = s.images := by
  induction bs generalizing s pa with
  | nil => rfl
  | cons b bs ih => exact ih (s.wrByte pa b) (pa + 1)
@[simp] theorem State.wrNat_images (pa n x : Nat) : (s.wrNat pa n x).images = s.images :=
  State.wrBytes_images s pa (leBytes n x)
@[simp] theorem State.wrBytes_home (pa : Nat) (bs : List Byte) : (s.wrBytes pa bs).home = s.home := by
  induction bs generalizing s pa with
  | nil => rfl
  | cons b bs ih => exact ih (s.wrByte pa b) (pa + 1)
@[simp] theorem State.wrNat_home (pa n x : Nat) : (s.wrNat pa n x).home = s.home :=
  State.wrBytes_home s pa (leBytes n x)
@[simp] theorem State.wrBytes_slc (pa : Nat) (bs : List Byte) : (s.wrBytes pa bs).slc = s.slc := by
  induction bs generalizing s pa with
  | nil => rfl
  | cons b bs ih => exact ih (s.wrByte pa b) (pa + 1)
@[simp] theorem State.wrNat_slc (pa n x : Nat) : (s.wrNat pa n x).slc = s.slc :=
  State.wrBytes_slc s pa (leBytes n x)
@[simp] theorem State.wrBytes_poison (pa : Nat) (bs : List Byte) : (s.wrBytes pa bs).poison = s.poison := by
  induction bs generalizing s pa with
  | nil => rfl
  | cons b bs ih => exact ih (s.wrByte pa b) (pa + 1)
@[simp] theorem State.wrNat_poison (pa n x : Nat) : (s.wrNat pa n x).poison = s.poison :=
  State.wrBytes_poison s pa (leBytes n x)
@[simp] theorem State.wrBytes_l1 (pa : Nat) (bs : List Byte) : (s.wrBytes pa bs).l1 = s.l1 := by
  induction bs generalizing s pa with
  | nil => rfl
  | cons b bs ih => exact ih (s.wrByte pa b) (pa + 1)
@[simp] theorem State.wrNat_l1 (pa n x : Nat) : (s.wrNat pa n x).l1 = s.l1 :=
  State.wrBytes_l1 s pa (leBytes n x)
@[simp] theorem State.wrBytes_ic (pa : Nat) (bs : List Byte) : (s.wrBytes pa bs).ic = s.ic := by
  induction bs generalizing s pa with
  | nil => rfl
  | cons b bs ih => exact ih (s.wrByte pa b) (pa + 1)
@[simp] theorem State.wrNat_ic (pa n x : Nat) : (s.wrNat pa n x).ic = s.ic :=
  State.wrBytes_ic s pa (leBytes n x)
@[simp] theorem State.wrBytes_tlb (pa : Nat) (bs : List Byte) : (s.wrBytes pa bs).tlb = s.tlb := by
  induction bs generalizing s pa with
  | nil => rfl
  | cons b bs ih => exact ih (s.wrByte pa b) (pa + 1)
@[simp] theorem State.wrNat_tlb (pa n x : Nat) : (s.wrNat pa n x).tlb = s.tlb :=
  State.wrBytes_tlb s pa (leBytes n x)
@[simp] theorem State.wrBytes_walks (pa : Nat) (bs : List Byte) : (s.wrBytes pa bs).walks = s.walks := by
  induction bs generalizing s pa with
  | nil => rfl
  | cons b bs ih => exact ih (s.wrByte pa b) (pa + 1)
@[simp] theorem State.wrNat_walks (pa n x : Nat) : (s.wrNat pa n x).walks = s.walks :=
  State.wrBytes_walks s pa (leBytes n x)
@[simp] theorem State.wrBytes_fb (pa : Nat) (bs : List Byte) : (s.wrBytes pa bs).fb = s.fb := by
  induction bs generalizing s pa with
  | nil => rfl
  | cons b bs ih => exact ih (s.wrByte pa b) (pa + 1)
@[simp] theorem State.wrNat_fb (pa n x : Nat) : (s.wrNat pa n x).fb = s.fb :=
  State.wrBytes_fb s pa (leBytes n x)
@[simp] theorem State.wrBytes_fbwait (pa : Nat) (bs : List Byte) : (s.wrBytes pa bs).fbwait = s.fbwait := by
  induction bs generalizing s pa with
  | nil => rfl
  | cons b bs ih => exact ih (s.wrByte pa b) (pa + 1)
@[simp] theorem State.wrNat_fbwait (pa n x : Nat) : (s.wrNat pa n x).fbwait = s.fbwait :=
  State.wrBytes_fbwait s pa (leBytes n x)
@[simp] theorem State.wrBytes_bias (pa : Nat) (bs : List Byte) : (s.wrBytes pa bs).bias = s.bias := by
  induction bs generalizing s pa with
  | nil => rfl
  | cons b bs ih => exact ih (s.wrByte pa b) (pa + 1)
@[simp] theorem State.wrNat_bias (pa n x : Nat) : (s.wrNat pa n x).bias = s.bias :=
  State.wrBytes_bias s pa (leBytes n x)
@[simp] theorem State.wrBytes_snoop (pa : Nat) (bs : List Byte) : (s.wrBytes pa bs).snoop = s.snoop := by
  induction bs generalizing s pa with
  | nil => rfl
  | cons b bs ih => exact ih (s.wrByte pa b) (pa + 1)
@[simp] theorem State.wrNat_snoop (pa n x : Nat) : (s.wrNat pa n x).snoop = s.snoop :=
  State.wrBytes_snoop s pa (leBytes n x)
@[simp] theorem State.wrBytes_flip (pa : Nat) (bs : List Byte) : (s.wrBytes pa bs).flip = s.flip := by
  induction bs generalizing s pa with
  | nil => rfl
  | cons b bs ih => exact ih (s.wrByte pa b) (pa + 1)
@[simp] theorem State.wrNat_flip (pa n x : Nat) : (s.wrNat pa n x).flip = s.flip :=
  State.wrBytes_flip s pa (leBytes n x)
@[simp] theorem State.wrBytes_bfpage (pa : Nat) (bs : List Byte) : (s.wrBytes pa bs).bfpage = s.bfpage := by
  induction bs generalizing s pa with
  | nil => rfl
  | cons b bs ih => exact ih (s.wrByte pa b) (pa + 1)
@[simp] theorem State.wrNat_bfpage (pa n x : Nat) : (s.wrNat pa n x).bfpage = s.bfpage :=
  State.wrBytes_bfpage s pa (leBytes n x)
@[simp] theorem State.wrBytes_biasRes (pa : Nat) (bs : List Byte) : (s.wrBytes pa bs).biasRes = s.biasRes := by
  induction bs generalizing s pa with
  | nil => rfl
  | cons b bs ih => exact ih (s.wrByte pa b) (pa + 1)
@[simp] theorem State.wrNat_biasRes (pa n x : Nat) : (s.wrNat pa n x).biasRes = s.biasRes :=
  State.wrBytes_biasRes s pa (leBytes n x)
@[simp] theorem State.wrBytes_cullet (pa : Nat) (bs : List Byte) : (s.wrBytes pa bs).cullet = s.cullet := by
  induction bs generalizing s pa with
  | nil => rfl
  | cons b bs ih => exact ih (s.wrByte pa b) (pa + 1)
@[simp] theorem State.wrNat_cullet (pa n x : Nat) : (s.wrNat pa n x).cullet = s.cullet :=
  State.wrBytes_cullet s pa (leBytes n x)
@[simp] theorem State.wrBytes_culletUse (pa : Nat) (bs : List Byte) : (s.wrBytes pa bs).culletUse = s.culletUse := by
  induction bs generalizing s pa with
  | nil => rfl
  | cons b bs ih => exact ih (s.wrByte pa b) (pa + 1)
@[simp] theorem State.wrNat_culletUse (pa n x : Nat) : (s.wrNat pa n x).culletUse = s.culletUse :=
  State.wrBytes_culletUse s pa (leBytes n x)
@[simp] theorem State.wrBytes_slccfg (pa : Nat) (bs : List Byte) : (s.wrBytes pa bs).slccfg = s.slccfg := by
  induction bs generalizing s pa with
  | nil => rfl
  | cons b bs ih => exact ih (s.wrByte pa b) (pa + 1)
@[simp] theorem State.wrNat_slccfg (pa n x : Nat) : (s.wrNat pa n x).slccfg = s.slccfg :=
  State.wrBytes_slccfg s pa (leBytes n x)
@[simp] theorem State.wrBytes_clusters (pa : Nat) (bs : List Byte) : (s.wrBytes pa bs).clusters = s.clusters := by
  induction bs generalizing s pa with
  | nil => rfl
  | cons b bs ih => exact ih (s.wrByte pa b) (pa + 1)
@[simp] theorem State.wrNat_clusters (pa n x : Nat) : (s.wrNat pa n x).clusters = s.clusters :=
  State.wrBytes_clusters s pa (leBytes n x)
@[simp] theorem State.wrBytes_cores (pa : Nat) (bs : List Byte) : (s.wrBytes pa bs).cores = s.cores := by
  induction bs generalizing s pa with
  | nil => rfl
  | cons b bs ih => exact ih (s.wrByte pa b) (pa + 1)
@[simp] theorem State.wrNat_cores (pa n x : Nat) : (s.wrNat pa n x).cores = s.cores :=
  State.wrBytes_cores s pa (leBytes n x)
@[simp] theorem State.wrBytes_active (pa : Nat) (bs : List Byte) : (s.wrBytes pa bs).active = s.active := by
  induction bs generalizing s pa with
  | nil => rfl
  | cons b bs ih => exact ih (s.wrByte pa b) (pa + 1)
@[simp] theorem State.wrNat_active (pa n x : Nat) : (s.wrNat pa n x).active = s.active :=
  State.wrBytes_active s pa (leBytes n x)
@[simp] theorem State.wrBytes_ports (pa : Nat) (bs : List Byte) : (s.wrBytes pa bs).ports = s.ports := by
  induction bs generalizing s pa with
  | nil => rfl
  | cons b bs ih => exact ih (s.wrByte pa b) (pa + 1)
@[simp] theorem State.wrNat_ports (pa n x : Nat) : (s.wrNat pa n x).ports = s.ports :=
  State.wrBytes_ports s pa (leBytes n x)
@[simp] theorem State.wrBytes_hpstat (pa : Nat) (bs : List Byte) : (s.wrBytes pa bs).hpstat = s.hpstat := by
  induction bs generalizing s pa with
  | nil => rfl
  | cons b bs ih => exact ih (s.wrByte pa b) (pa + 1)
@[simp] theorem State.wrNat_hpstat (pa n x : Nat) : (s.wrNat pa n x).hpstat = s.hpstat :=
  State.wrBytes_hpstat s pa (leBytes n x)
@[simp] theorem State.wrBytes_lfsave (pa : Nat) (bs : List Byte) : (s.wrBytes pa bs).lfsave = s.lfsave := by
  induction bs generalizing s pa with
  | nil => rfl
  | cons b bs ih => exact ih (s.wrByte pa b) (pa + 1)
@[simp] theorem State.wrNat_lfsave (pa n x : Nat) : (s.wrNat pa n x).lfsave = s.lfsave :=
  State.wrBytes_lfsave s pa (leBytes n x)
@[simp] theorem State.wrBytes_cxwin (pa : Nat) (bs : List Byte) : (s.wrBytes pa bs).cxwin = s.cxwin := by
  induction bs generalizing s pa with
  | nil => rfl
  | cons b bs ih => exact ih (s.wrByte pa b) (pa + 1)
@[simp] theorem State.wrNat_cxwin (pa n x : Nat) : (s.wrNat pa n x).cxwin = s.cxwin :=
  State.wrBytes_cxwin s pa (leBytes n x)
@[simp] theorem State.wrBytes_err (pa : Nat) (bs : List Byte) : (s.wrBytes pa bs).err = s.err := by
  induction bs generalizing s pa with
  | nil => rfl
  | cons b bs ih => exact ih (s.wrByte pa b) (pa + 1)
@[simp] theorem State.wrNat_err (pa n x : Nat) : (s.wrNat pa n x).err = s.err :=
  State.wrBytes_err s pa (leBytes n x)
@[simp] theorem State.wrBytes_mg (pa : Nat) (bs : List Byte) : (s.wrBytes pa bs).mg = s.mg := by
  induction bs generalizing s pa with
  | nil => rfl
  | cons b bs ih => exact ih (s.wrByte pa b) (pa + 1)
@[simp] theorem State.wrNat_mg (pa n x : Nat) : (s.wrNat pa n x).mg = s.mg :=
  State.wrBytes_mg s pa (leBytes n x)
@[simp] theorem State.wrBytes_out (pa : Nat) (bs : List Byte) : (s.wrBytes pa bs).out = s.out := by
  induction bs generalizing s pa with
  | nil => rfl
  | cons b bs ih => exact ih (s.wrByte pa b) (pa + 1)
@[simp] theorem State.wrNat_out (pa n x : Nat) : (s.wrNat pa n x).out = s.out :=
  State.wrBytes_out s pa (leBytes n x)

end Sys2Proof.Machine
end

