-- ==== Sys2Proof/Laws/Issue.lean ====
section
/-!
SUPPORT. The common course of an issue: what `issue` answers, so that no proof about an instruction unfolds
it again.
-/

namespace Sys2Proof.Machine

/-- An instruction that passes every check has its effect on the state that the issue leaves. -/
theorem issue_ok {s : State} {w : Wave} {i : Instr} {h : Hdr} {u : Bool} {chk : State → Env → Chk}
    {eff : Env → State → State} (hi : Issues s w i u) (hc : chk s (mkEnv s w u i) = .ok) :
    issue i h u chk eff s = .next (eff (mkEnv s w u i) (s.enter w (mkEnv s w u i) h)) := by
  obtain ⟨slot, live, fits, ports, data, handles, owner, poison⟩ := hi
  have ho : ownerChk (mkEnv s w u i) u .ok = .ok := by
    rcases owner with h | h <;> simp [ownerChk, h]
  simp only [issue, slot, live, fits, ports, data, handles, hc, ho, poison]
  simp [State.judge]

/-- An operand outside the allotment raises cause 0 before anything else is checked. -/
theorem issue_unfit {s : State} {w : Wave} {i : Instr} {h : Hdr} {u : Bool} {chk : State → Env → Chk}
    {eff : Env → State → State} (hw : s.wave? s.cur = some w) (hl : w.life = .live) (hf : i.fits w.allot = false) :
    issue i h u chk eff s = .next (s.trapAt w 0 w.pc (wordVal i)) := by
  simp [issue, hw, hl, hf, State.judge, State.oneshot]

/-- With no resident wave in the slot there is nothing to issue. -/
theorem issue_noWave {s : State} {i : Instr} {h : Hdr} {u : Bool} {chk : State → Env → Chk}
    {eff : Env → State → State} (hw : s.wave? s.cur = none) : issue i h u chk eff s = .fault .noWave := by
  simp [issue, hw]

/-- With a live wave in the slot an issue goes on. -/
theorem issue_next {s : State} {w : Wave} {i : Instr} {h : Hdr} {u : Bool} {chk : State → Env → Chk}
    {eff : Env → State → State} (hw : s.wave? s.cur = some w) (hl : w.life = .live) :
    ∃ t, issue i h u chk eff s = .next t := by
  simp only [issue, hw, hl]
  simp only [reduceCtorEq, if_false]
  repeat' split
  all_goals exact ⟨_, rfl⟩

end Sys2Proof.Machine
end

