-- ==== Sys2Proof/Laws/Claims.lean ====
section
/-!
SUPPORT. One lemma per shape of instruction, in the words of the statements: what an issue that only sends
effects does, and one that only starts an access.
-/

namespace Sys2Proof.Machine

theorem find?_upd {α : Type} (p : α → Bool) (q : α → Bool) (f : α → α) (hf : ∀ x, p (f x) = p x) (l : List α) :
    (upd q f l).find? p = (l.find? p).map fun x => if q x then f x else x := by
  induction l with
  | nil => rfl
  | cons x l ih =>
    have e : p (if q x then f x else x) = p x := by split <;> simp [hf]
    by_cases h : p x
    · simp [upd, e, h]
    · simp only [upd, List.map_cons, List.find?_cons, e, h]
      exact ih

theorem wave?_id {s : State} {id : WaveId} {w : Wave} (h : s.wave? id = some w) : w.id = id := by
  have := List.find?_some h
  simpa using this

/-- A change of one wave that keeps its slot, as another state's waves show it. -/
theorem wave?_modWave {s : State} {id : WaveId} {f : Wave → Wave} (hf : ∀ x, (f x).id = x.id) (k : WaveId) :
    (s.modWave id f).wave? k = (s.wave? k).map fun x => if x.id = id then f x else x := by
  have := find?_upd (fun w : Wave => decide (w.id = k)) (fun w => decide (w.id = id)) f (by simp [hf]) s.waves
  simpa [State.wave?, State.modWave] using this

theorem wave?_modWave_same {s : State} {id : WaveId} {f : Wave → Wave} {w : Wave} (hf : ∀ x, (f x).id = x.id)
    (h : s.wave? id = some w) : (s.modWave id f).wave? id = some (f w) := by
  rw [wave?_modWave hf, h]; simp [wave?_id h]

theorem wave?_modWave_other {s : State} {id k : WaveId} {f : Wave → Wave} (hf : ∀ x, (f x).id = x.id)
    (h : k ≠ id) : (s.modWave id f).wave? k = s.wave? k := by
  rw [wave?_modWave hf]
  cases e : s.wave? k with
  | none => rfl
  | some w => simp [wave?_id e, h]

@[simp] theorem wave?_modCore (s : State) (c : Nat) (f : Core → Core) (k : WaveId) : (s.modCore c f).wave? k = s.wave? k := rfl

@[simp] theorem wave?_addAcc (s : State) (a : Acc) (k : WaveId) : (s.addAcc a).wave? k = s.wave? k := rfl

theorem issued_id (w : Wave) (e : Env) (h : Hdr) : (w.issued e h).id = w.id := by
  unfold Wave.issued Wave.incSf; split <;> rfl

theorem stepDue_id (w : Wave) : w.stepDue.id = w.id := by unfold Wave.stepDue; split <;> rfl

theorem decSf_id (w : Wave) (sf : BitVec 4) (n : Nat) : (w.decSf sf n).id = w.id := by
  unfold Wave.decSf; split <;> rfl

theorem incSf_eq (w : Wave) (sf : BitVec 4) : w.incSf sf = { w with flags := (w.incSf sf).flags } := by
  unfold Wave.incSf; split <;> rfl

theorem stepDue_eq (w : Wave) : w.stepDue = { w with due := w.stepDue.due, dstate := w.stepDue.dstate } := by
  unfold Wave.stepDue; split <;> rfl

/-- The wave of an instruction's slot right after its issue, before the instruction's own effect. -/
def entered (w : Wave) (e : Env) (h : Hdr) : Wave := (match e.id with | .xvi _ _ _ => w | _ => w.stepDue).issued e h

theorem enter_wave? {s : State} {w : Wave} {e : Env} {h : Hdr} (hw : s.wave? w.id = some w) :
    (s.enter w e h).wave? w.id = some (entered w e h) := by
  unfold State.enter entered
  rw [wave?_modCore]
  refine wave?_modWave_same (fun x => ?_) hw
  rw [issued_id]; split
  · rfl
  · exact stepDue_id x

theorem enter_other {s : State} {w : Wave} {e : Env} {h : Hdr} {k : WaveId} (hk : k ≠ w.id) :
    (s.enter w e h).wave? k = s.wave? k := by
  unfold State.enter
  rw [wave?_modCore]
  refine wave?_modWave_other (fun x => ?_) hk
  rw [issued_id]; split
  · rfl
  · exact stepDue_id x

theorem entered_frame (w : Wave) (e : Env) (h : Hdr) :
    entered w e h = { w with
      flags := if h.sf.toNat < 12 then w.flags.set h.sf.toNat (w.flags.get h.sf.toNat + 1) else w.flags
      q := popAll (e.c + 1) w.q e.id.pops
      pc := if w.inPath then w.pc else w.pc + 12
      prev := some e.c
      ctl := false
      iss := some e.w.trSrc
      last := e.c0
      age := 0
      aged := false
      linkwait := 0
      met := none
      reissue := none
      yl := h.yl
      dbg := if w.handler = .none then w.dbg &&& 3 else w.dbg
      due := (entered w e h).due
      dstate := (entered w e h).dstate } := by
  unfold entered
  split
  · unfold Wave.issued Wave.incSf; split <;> simp [Wave.inPath]
  · unfold Wave.issued Wave.incSf Wave.stepDue; split <;> split <;> simp_all [Wave.inPath]

end Sys2Proof.Machine

namespace Sys2Proof.Claims

open Sys2Proof.Machine

theorem add_decSf_pend (w : Wave) (h : Hdr) (at_ : Nat) (ps : List Put) :
    ((w.add at_ ps).decSf h.sf at_) = { w with pend := w.pend ++ ps.map (fun p => ⟨at_, p⟩) ++ countdown h at_ } := by
  unfold countdown Wave.decSf
  split <;> simp [Wave.add]

/-- An issue leaves a core's channel and trace unit alone. -/
theorem enter_core (s : State) (w : Wave) (e : Env) (h : Hdr) (c : Nat) :
    ((s.enter w e h).core c).chan = (s.core c).chan ∧ ((s.enter w e h).core c).trace = (s.core c).trace := by
  simp only [State.core, State.enter_cores, List.getD_eq_getElem?_getD, List.getElem?_modify]
  by_cases hc : w.id.core = c
  · cases s.cores[c]? <;> simp [hc]
  · simp [hc]

theorem entered_waveFrame (w : Wave) (e : Env) (h : Hdr) : waveFrame w (entered w e h) := by
  unfold waveFrame
  conv_lhs => rw [entered_frame]
  rw [entered_frame]

theorem entered_issued {s : State} {w : Wave} {e : Env} {h : Hdr} (hw : s.wave? w.id = some w) :
    issued s w e h (s.enter w e h) (entered w e h) where
  there := enter_wave? hw
  pc := by rw [entered_frame]
  prev := by rw [entered_frame]
  flags := by rw [entered_frame]
  others := fun _ hk => enter_other hk

/-- An instruction whose whole effect is `fixed` only sends effects. -/
theorem sends_of_fixed {s : State} {w : Wave} {i : Instr} {h : Hdr} {u : Bool} {lat : Nat} {ps : Env → List Put}
    {chk : State → Env → Chk} {eff : Env → State → State} (hx : exec i s = issue i h u chk eff s)
    (hi : Issues s w i u) (hc : chk s (mkEnv s w u i) = .ok)
    (he : eff (mkEnv s w u i) (s.enter w (mkEnv s w u i) h) =
      fixed (mkEnv s w u i) h lat (ps (mkEnv s w u i)) (s.enter w (mkEnv s w u i) h)) :
    Sends s w i h u lat ps := by
  have hid := wave?_id hi.slot
  have hw : s.wave? w.id = some w := by rw [hid]; exact hi.slot
  let e := mkEnv s w u i
  have hew : e.w = w := rfl
  let f : Wave → Wave := fun x => (x.add (e.c + lat) (ps e)).decSf h.sf (e.c + lat)
  have hf : ∀ x, (f x).id = x.id := fun x => by simp only [f]; rw [decSf_id]; rfl
  have hen := entered_issued (e := e) (h := h) hw
  refine ⟨fixed e h lat (ps e) (s.enter w e h), f (entered w e h), ?_, ?_, ?_, ?_, rfl⟩
  · rw [hx, issue_ok hi hc, he]
  · have hff : f (entered w e h) = { entered w e h with pend := (f (entered w e h)).pend } := by
      simp only [f]; rw [add_decSf_pend]
    refine ⟨wave?_modWave_same hf hen.there, ?_, ?_, ?_, fun k hk => ?_⟩
    · rw [hff]; exact hen.pc
    · rw [hff]; exact hen.prev
    · rw [hff]; exact hen.flags
    · exact (wave?_modWave_other hf hk).trans (hen.others k hk)
  · simp only [f, waveFrame]
    rw [add_decSf_pend]
    conv_lhs => rw [entered_frame]
    rw [entered_frame]
  · simp only [f]
    rw [add_decSf_pend]
    rw [entered_frame]

/-- An instruction whose whole effect is to add one access. -/
theorem starts_of_addAcc {s : State} {w : Wave} {i : Instr} {h : Hdr} {u : Bool} {a : Env → Acc → Prop}
    {chk : State → Env → Chk} {eff : Env → State → State} {x : Acc} (hx : exec i s = issue i h u chk eff s)
    (hi : Issues s w i u) (hc : chk s (mkEnv s w u i) = .ok)
    (he : eff (mkEnv s w u i) (s.enter w (mkEnv s w u i) h) = (s.enter w (mkEnv s w u i) h).addAcc x)
    (hx1 : x.uid = w.uid) (hx2 : x.w = w.id) (hx3 : x.grp = w.grp) (hx4 : x.sf = h.sf)
    (ha : a (mkEnv s w u i) { x with id := s.nextSeq }) : Starts s w i h u a := by
  have hid := wave?_id hi.slot
  have hw : s.wave? w.id = some w := by rw [hid]; exact hi.slot
  let e := mkEnv s w u i
  have hen := entered_issued (e := e) (h := h) hw
  refine ⟨(s.enter w e h).addAcc x, entered w e h, { x with id := s.nextSeq }, ?_, ?_, ha, rfl, rfl, rfl, rfl, rfl⟩
  · rw [hx, issue_ok hi hc, he]
  · exact {
      marks := ⟨hen.there, hen.pc, hen.prev, hen.flags, hen.others⟩
      frame := entered_waveFrame w e h
      pend := by rw [entered_frame]
      accs := rfl
      id := rfl
      uid := hx1
      there := hx2
      grp := hx3
      sf := hx4
      core := fun c => enter_core s w e h c
      rest := rfl }

end Sys2Proof.Claims
end

