-- ==== Sys2Proof/Laws/Sparse.lean ====
section
/-!
SUPPORT. Sparse stores: reading after a write, and the canonical form.
-/

namespace Sys2Proof.Sparse

variable {w : Nat}

@[simp] theorem get_nil (k : Nat) : get ([] : Sparse w) k = 0 := rfl

theorem wfFrom_mono {lo lo' : Nat} {m : Sparse w} (h : lo' ≤ lo) (hm : wfFrom lo m = true) : wfFrom lo' m = true := by
  cases m with
  | nil => rfl
  | cons p m =>
    simp only [wfFrom, Bool.and_eq_true, decide_eq_true_eq] at hm ⊢
    exact ⟨⟨by omega, hm.1.2⟩, hm.2⟩

/-- A key below the least key allowed reads 0. -/
theorem get_below {lo : Nat} {m : Sparse w} (hm : wfFrom lo m = true) {k : Nat} (h : k < lo) : m.get k = 0 := by
  cases m with
  | nil => rfl
  | cons p m =>
    obtain ⟨j, x⟩ := p
    simp only [wfFrom, Bool.and_eq_true, decide_eq_true_eq] at hm
    have h1 : j ≠ k := by omega
    have h2 : k < j := by omega
    simp [get, h1, h2]

theorem wfFrom_set {lo : Nat} {m : Sparse w} (hm : wfFrom lo m = true) {k : Nat} (hk : lo ≤ k) (x : BitVec w) :
    wfFrom lo (m.set k x) = true := by
  induction m generalizing lo with
  | nil => by_cases hx : x = 0#w <;> simp [set, hx, wfFrom, hk]
  | cons p m ih =>
    obtain ⟨j, y⟩ := p
    simp only [wfFrom, Bool.and_eq_true, decide_eq_true_eq] at hm
    obtain ⟨⟨h1, h2⟩, h3⟩ := hm
    have h2 : y ≠ 0#w := h2
    rcases Nat.lt_trichotomy j k with hjk | hjk | hjk
    · have e1 : ¬ j = k := by omega
      have e2 : ¬ k < j := by omega
      simp only [set, BitVec.ofNat_eq_ofNat, e1, e2, if_false, wfFrom, Bool.and_eq_true, decide_eq_true_eq]
      exact ⟨⟨h1, h2⟩, ih h3 hjk⟩
    · subst hjk
      by_cases hx : x = 0#w
      · simp only [set, BitVec.ofNat_eq_ofNat, hx, if_true]; exact wfFrom_mono (by omega) h3
      · simp [set, hx, wfFrom, h1, h3]
    · have e1 : ¬ j = k := by omega
      by_cases hx : x = 0#w
      · simp [set, e1, hjk, hx, wfFrom, h1, h2, h3]
      · simp only [set, BitVec.ofNat_eq_ofNat, e1, hjk, hx, if_true, if_false, wfFrom, Bool.and_eq_true, decide_eq_true_eq]
        exact ⟨⟨hk, hx⟩, ⟨by omega, h2⟩, h3⟩

/-- A write keeps the canonical form. -/
theorem wf_set {m : Sparse w} (hm : m.wf = true) (k : Nat) (x : BitVec w) : (m.set k x).wf = true :=
  wfFrom_set hm (Nat.zero_le k) x

theorem wf_nil : wf ([] : Sparse w) = true := rfl

theorem get_set_from {lo : Nat} {m : Sparse w} (hm : wfFrom lo m = true) (k : Nat) (x : BitVec w) (a : Nat) :
    (m.set k x).get a = if a = k then x else m.get a := by
  induction m generalizing lo with
  | nil =>
    by_cases hx : x = 0#w <;> by_cases ha : a = k
    · simp [set, hx]
    · simp [set, hx, ha]
    · simp [set, hx, ha, get]
    · have : ¬ k = a := fun h => ha h.symm
      simp [set, hx, ha, get, this]
  | cons p m ih =>
    obtain ⟨j, y⟩ := p
    simp only [wfFrom, Bool.and_eq_true, decide_eq_true_eq] at hm
    obtain ⟨⟨h1, h2⟩, h3⟩ := hm
    have h2 : y ≠ 0#w := h2
    rcases Nat.lt_trichotomy j k with hjk | hjk | hjk
    · have e1 : ¬ j = k := by omega
      have e2 : ¬ k < j := by omega
      simp only [set, BitVec.ofNat_eq_ofNat, e1, e2, if_false, get]
      rcases Nat.lt_trichotomy j a with hja | hja | hja
      · have e3 : ¬ j = a := by omega
        have e4 : ¬ a < j := by omega
        simp only [e3, e4, if_false]
        exact ih h3
      · subst hja; simp [e1]
      · have e3 : ¬ j = a := by omega
        have e4 : ¬ a = k := by omega
        simp [e3, e4, hja]
    · subst hjk
      by_cases hx : x = 0#w
      · simp only [set, BitVec.ofNat_eq_ofNat, hx, if_true]
        rcases Nat.lt_trichotomy j a with hja | hja | hja
        · have e3 : ¬ j = a := by omega
          have e4 : ¬ a < j := by omega
          have e5 : ¬ a = j := by omega
          simp [get, e3, e4, e5]
        · subst hja; simp [get_below h3 (Nat.lt_succ_self j)]
        · have e5 : ¬ a = j := by omega
          have e3 : ¬ j = a := by omega
          rw [get_below h3 (by omega)]
          simp [get, e3, e5, hja]
      · simp only [set, BitVec.ofNat_eq_ofNat, hx, if_true, if_false, get]
        rcases Nat.lt_trichotomy j a with hja | hja | hja
        · have e3 : ¬ j = a := by omega
          have e5 : ¬ a = j := by omega
          simp [e3, e5]
        · subst hja; simp
        · have e3 : ¬ j = a := by omega
          have e5 : ¬ a = j := by omega
          simp [e3, e5]
    · have e1 : ¬ j = k := by omega
      by_cases hx : x = 0#w
      · simp only [set, BitVec.ofNat_eq_ofNat, e1, hjk, hx, if_true, if_false]
        by_cases ha : a = k
        · subst ha; simp [get, e1, hjk]
        · simp [ha]
      · simp only [set, BitVec.ofNat_eq_ofNat, e1, hjk, hx, if_true, if_false]
        rcases Nat.lt_trichotomy k a with hka | hka | hka
        · have e3 : ¬ k = a := by omega
          have e4 : ¬ a < k := by omega
          have e5 : ¬ a = k := by omega
          rw [get]; simp [e3, e4, e5]
        · subst hka; simp [get]
        · have e3 : ¬ k = a := by omega
          have e5 : ¬ a = k := by omega
          have e6 : ¬ j = a := by omega
          have e7 : a < j := by omega
          simp [get, e3, e5, e6, e7, hka]

/-- A read after a write. -/
theorem get_set {m : Sparse w} (hm : m.wf = true) (k : Nat) (x : BitVec w) (a : Nat) :
    (m.set k x).get a = if a = k then x else m.get a :=
  get_set_from hm k x a

theorem get_set_same {m : Sparse w} (hm : m.wf = true) (k : Nat) (x : BitVec w) : (m.set k x).get k = x := by
  simp [get_set hm]

theorem get_set_other {m : Sparse w} (hm : m.wf = true) {k a : Nat} (h : a ≠ k) (x : BitVec w) :
    (m.set k x).get a = m.get a := by
  simp [get_set hm, h]

theorem ext_from {lo : Nat} {m n : Sparse w} (hm : wfFrom lo m = true) (hn : wfFrom lo n = true)
    (h : ∀ k, m.get k = n.get k) : m = n := by
  induction m generalizing lo n with
  | nil =>
    cases n with
    | nil => rfl
    | cons p n =>
      obtain ⟨j, x⟩ := p
      simp only [wfFrom, Bool.and_eq_true, decide_eq_true_eq] at hn
      exact absurd (by simpa [get] using (h j).symm) hn.1.2
  | cons p m ih =>
    obtain ⟨j, x⟩ := p
    have hm' := hm
    simp only [wfFrom, Bool.and_eq_true, decide_eq_true_eq] at hm
    cases n with
    | nil => exact absurd (by simpa [get] using h j) hm.1.2
    | cons q n =>
      obtain ⟨i, y⟩ := q
      have hn' := hn
      simp only [wfFrom, Bool.and_eq_true, decide_eq_true_eq] at hn
      have hij : j = i := by
        rcases Nat.lt_trichotomy j i with c | c | c
        · have := h j
          have e : ¬ i = j := by omega
          simp [get, e, c] at this
          exact absurd this hm.1.2
        · exact c
        · have := h i
          have e : ¬ j = i := by omega
          simp [get, e, c] at this
          exact absurd this.symm hn.1.2
      subst hij
      have hxy : x = y := by simpa [get] using h j
      subst hxy
      congr 1
      refine ih hm.2 hn.2 fun k => ?_
      rcases Nat.lt_or_ge j k with c | c
      · have e1 : ¬ j = k := by omega
        have e2 : ¬ k < j := by omega
        simpa [get, e1, e2] using h k
      · rw [get_below hm.2 (by omega), get_below hn.2 (by omega)]

/-- Equal contents in canonical form are equal data. -/
theorem ext_of_get {m n : Sparse w} (hm : m.wf = true) (hn : n.wf = true) (h : ∀ k, m.get k = n.get k) : m = n :=
  ext_from hm hn h

end Sys2Proof.Sparse
end

