-- ==== Sys2Proof/Laws/Memory.lean ====
section
/-!
SUPPORT. Memory and windows: every operation on them keeps the canonical form, and what a read gives after
a write.
-/

namespace Sys2Proof.Machine

theorem winSet_wf {m : Sparse 8} (hm : m.wf = true) (x : Nat) (bs : List Byte) : (winSet m x bs).wf = true := by
  induction bs generalizing m x with
  | nil => exact hm
  | cons b bs ih => exact ih (Sparse.wf_set hm x b) (x + 1)

/-- A byte of a store after a run of bytes is put from `x`. -/
theorem winSet_get {m : Sparse 8} (hm : m.wf = true) (x : Nat) (bs : List Byte) (a : Nat) :
    (winSet m x bs).get a = if x ≤ a ∧ a < x + bs.length then bs.getD (a - x) 0 else m.get a := by
  induction bs generalizing m x with
  | nil => simp [winSet]
  | cons b bs ih =>
    rw [winSet, ih (Sparse.wf_set hm x b) (x + 1), Sparse.get_set hm]
    simp only [List.length_cons]
    rcases Nat.lt_trichotomy a x with h | h | h
    · simp [show ¬ x + 1 ≤ a by omega, show ¬ x ≤ a by omega, show ¬ a = x by omega]
    · subst h; simp [show ¬ a + 1 ≤ a by omega]
    · have e : a - x = (a - (x + 1)) + 1 := by omega
      by_cases hl : a < x + (bs.length + 1)
      · simp only [show x + 1 ≤ a by omega, show a < x + 1 + bs.length by omega, show x ≤ a by omega, hl, and_self,
          if_true, e, List.getD_cons_succ]
      · simp [show ¬ a < x + 1 + bs.length by omega, hl, show ¬ a = x by omega]

/-! ### Where contents lie (R396) -/

/-- Where the contents of an address lie is settled by the windows and the grade alone. -/
theorem key_congr {s t : State} (hw : t.cxwin = s.cxwin) (hg : t.grade = s.grade) (pa : Nat) : t.key pa = s.key pa := by
  simp only [State.key, State.cxlOf, State.ncxl, hw, hg]

@[simp] theorem key_wrByte (s : State) (pa : Nat) (x : Byte) (a : Nat) : (s.wrByte pa x).key a = s.key a := rfl

@[simp] theorem key_wrBytes (s : State) (pa : Nat) (bs : List Byte) (a : Nat) : (s.wrBytes pa bs).key a = s.key a :=
  key_congr (State.wrBytes_cxwin s pa bs) (State.wrBytes_grade s pa bs) a

/-- The window that decodes an address, as its index, base and offset. -/
theorem cxlIn_some {ws : List CxWin} {n pa k : Nat} (h : State.cxlIn ws n pa = some k) :
    k < n ∧ bits (ws.getD k ⟨0, 0⟩).win 47 30 * 2 ^ 30 ≤ pa ∧
      pa < bits (ws.getD k ⟨0, 0⟩).win 47 30 * 2 ^ 30 + bits (ws.getD k ⟨0, 0⟩).sz 47 30 * 2 ^ 30 := by
  have h1 := List.find?_some h
  have h2 := List.mem_of_find?_eq_some h
  simp only [Bool.and_eq_true, decide_eq_true_eq] at h1
  exact ⟨List.mem_range.mp h2, h1.1.2, h1.2⟩

theorem bits_lt {w : Nat} (x : BitVec w) (hi lo : Nat) : bits x hi lo < 2 ^ (hi + 1 - lo) := Nat.mod_lt _ (by positivity)

/-- Two addresses whose contents lie in one place are one address. -/
theorem key_inj {s : State} {a b : Nat} (h : s.key a = s.key b) : a = b := by
  have hn : s.ncxl ≤ 2 := by unfold State.ncxl; split <;> omega
  unfold State.key State.cxlOf at h
  cases ha : State.cxlIn s.cxwin s.ncxl a with
  | none =>
    cases hb : State.cxlIn s.cxwin s.ncxl b with
    | none => simp only [ha, hb] at h; split at h <;> split at h <;> omega
    | some k =>
      obtain ⟨h1, h2, h3⟩ := cxlIn_some hb
      have := bits_lt (s.cxwin.getD k ⟨0, 0⟩).sz 47 30
      simp only [ha, hb] at h
      have hk : k = 0 ∨ k = 1 := by omega
      rcases hk with rfl | rfl <;> split at h <;> omega
  | some j =>
    obtain ⟨g1, g2, g3⟩ := cxlIn_some ha
    have hj := bits_lt (s.cxwin.getD j ⟨0, 0⟩).sz 47 30
    have hj' : j = 0 ∨ j = 1 := by omega
    cases hb : State.cxlIn s.cxwin s.ncxl b with
    | none =>
      simp only [ha, hb] at h
      rcases hj' with rfl | rfl <;> split at h <;> omega
    | some k =>
      obtain ⟨h1, h2, h3⟩ := cxlIn_some hb
      have := bits_lt (s.cxwin.getD k ⟨0, 0⟩).sz 47 30
      have hk : k = 0 ∨ k = 1 := by omega
      simp only [ha, hb] at h
      rcases hj' with rfl | rfl <;> rcases hk with rfl | rfl <;> omega

/-- A byte read after one is written. -/
theorem rdByte_wrByte {s : State} (hm : Memory.wf s.mem = true) (pa : Nat) (x : Byte) (a : Nat) :
    (s.wrByte pa x).rdByte a = if a = pa then x else s.rdByte a := by
  simp only [State.rdByte, key_wrByte, State.wrByte_mem, Sparse.get_set hm]
  by_cases h : a = pa
  · simp [h]
  · rw [if_neg fun e => h (key_inj e), if_neg h]

theorem wrBytes_wf {s : State} (h : Memory.wf s.mem = true) (pa : Nat) (bs : List Byte) :
    Memory.wf (s.wrBytes pa bs).mem = true := by
  induction bs generalizing s pa with
  | nil => exact h
  | cons b bs ih => exact ih (s := s.wrByte pa b) (Sparse.wf_set h _ b) (pa + 1)

/-- A byte read after a run of bytes is written from `pa`. -/
theorem rdByte_wrBytes {s : State} (hm : Memory.wf s.mem = true) (pa : Nat) (bs : List Byte) (a : Nat) :
    (s.wrBytes pa bs).rdByte a = if pa ≤ a ∧ a < pa + bs.length then bs.getD (a - pa) 0 else s.rdByte a := by
  induction bs generalizing s pa with
  | nil => simp [State.wrBytes]
  | cons b bs ih =>
    rw [State.wrBytes, ih (s := s.wrByte pa b) (Sparse.wf_set hm _ b) (pa + 1), rdByte_wrByte hm]
    simp only [List.length_cons]
    rcases Nat.lt_trichotomy a pa with h | h | h
    · simp [show ¬ pa + 1 ≤ a by omega, show ¬ pa ≤ a by omega, show ¬ a = pa by omega]
    · subst h; simp [show ¬ a + 1 ≤ a by omega]
    · have e : a - pa = (a - (pa + 1)) + 1 := by omega
      by_cases hl : a < pa + (bs.length + 1)
      · simp only [show pa + 1 ≤ a by omega, show a < pa + 1 + bs.length by omega, show pa ≤ a by omega, hl, and_self,
          if_true, e, List.getD_cons_succ]
      · simp [show ¬ a < pa + 1 + bs.length by omega, hl, show ¬ a = pa by omega]

/-! ### The canonical form -/

theorem wrByte_wf {s : State} (h : Memory.wf s.mem = true) (pa : Nat) (x : Byte) : Memory.wf (s.wrByte pa x).mem = true :=
  Sparse.wf_set h _ x

theorem wrNat_wf {s : State} (h : Memory.wf s.mem = true) (pa n x : Nat) : Memory.wf (s.wrNat pa n x).mem = true :=
  wrBytes_wf h pa _

theorem set_range_wf (f : Nat → Nat) (g : Nat → Byte) (l : List Nat) {m : Sparse 8} (hm : m.wf = true) :
    (l.foldl (fun m i => m.set (f i) (g i)) m).wf = true := by
  induction l generalizing m with
  | nil => exact hm
  | cons i l ih => exact ih (Sparse.wf_set hm _ _)

theorem sendHome_home_wf {s : State} (h : Memory.wf s.home = true) (k : Nat) : Memory.wf (s.sendHome k).home = true := by
  unfold State.sendHome
  by_cases c : s.dirty.contains k
  · rw [if_pos c]
    generalize List.range 128 = l
    exact set_range_wf _ _ l h
  · rw [if_neg c]; exact h

theorem sendHome_mem (s : State) (k : Nat) : (s.sendHome k).mem = s.mem := by
  unfold State.sendHome; split <;> rfl

/-- A write-back changes the homes as the line's way home does, and what the A9 sends. -/
theorem cleanKey_eq (s : State) (k : Nat) : s.cleanKey k = { s.sendHome k with out := (s.cleanKey k).out } := by
  unfold State.cleanKey; split
  · rename_i h _
    by_cases c : s.dirty.contains k
    · rw [if_pos c]
    · rw [if_neg c]; simp only [State.sendHome, if_neg c]
  · rfl

theorem cleanKey_home (s : State) (k : Nat) : (s.cleanKey k).home = (s.sendHome k).home := by rw [cleanKey_eq]

theorem cleanKey_mem (s : State) (k : Nat) : (s.cleanKey k).mem = s.mem := by rw [cleanKey_eq]; exact sendHome_mem s k

theorem cleanLine_home_wf {s : State} (h : Memory.wf s.home = true) (line : Nat) : Memory.wf (s.cleanLine line).home = true := by
  unfold State.cleanLine; rw [cleanKey_home]; exact sendHome_home_wf h _

theorem cleanLine_mem (s : State) (line : Nat) : (s.cleanLine line).mem = s.mem := cleanKey_mem s _

/-- A slice that serves an access changes no byte of memory, and keeps the homes' canonical form. -/
theorem slcTouch_mem (s : State) (ways pa : Nat) (own : Bool) : (s.slcTouch ways pa own).mem = s.mem := by
  simp only [State.slcTouch, State.askLine, State.slcDrop, State.free]
  repeat' split
  all_goals first | rfl | exact cleanKey_mem _ _

theorem slcTouch_home_wf {s : State} (h : Memory.wf s.home = true) (ways pa : Nat) (own : Bool) :
    Memory.wf (s.slcTouch ways pa own).home = true := by
  simp only [State.slcTouch, State.askLine, State.slcDrop, State.free]
  repeat' split
  all_goals first | exact h | exact cleanLine_home_wf (s := { s with fresh := s.fresh + 1 }) h _

theorem slcWrite_wf {s : State} (h : Memory.wf s.mem = true) (ways pa : Nat) (bs : List Byte) :
    Memory.wf (s.slcWrite ways pa bs).mem = true := by
  have := wrBytes_wf (s := s.slcTouch ways pa true) (by rw [slcTouch_mem]; exact h) pa bs
  simp only [State.slcWrite]
  split
  · exact this
  · rw [cleanLine_mem]; exact this

theorem filter_wfFrom (p : Nat × BitVec 8 → Bool) {lo : Nat} {m : Sparse 8} (hm : Sparse.wfFrom lo m = true) :
    Sparse.wfFrom lo (m.filter p) = true := by
  induction m generalizing lo with
  | nil => rfl
  | cons c m ih =>
    obtain ⟨j, x⟩ := c
    simp only [Sparse.wfFrom, Bool.and_eq_true, decide_eq_true_eq] at hm
    by_cases hp : p (j, x)
    · simp only [List.filter_cons, hp, if_true, Sparse.wfFrom, Bool.and_eq_true, decide_eq_true_eq]
      exact ⟨hm.1, ih hm.2⟩
    · simp only [List.filter_cons, hp]
      exact Sparse.wfFrom_mono (by omega) (ih hm.2)

/-- Dropping addresses keeps the canonical form. -/
theorem filter_wf (p : Nat × BitVec 8 → Bool) {m : Sparse 8} (hm : m.wf = true) : Sparse.wf (m.filter p) = true :=
  filter_wfFrom p hm

theorem Group_wrNat_wf {g : Group} (h : Memory.wf g.window = true) (x n v : Nat) :
    Memory.wf (g.wrNat x n v).window = true :=
  winSet_wf h x _

end Sys2Proof.Machine
end

