-- ==== Sys2Proof/Tests/Slice0.lean ====
section
/-!
SUPPORT. Tests: the smoke test of WellFormed, decoding of words written out from the encoding tables of the spec, a state
and operands that meet the hypotheses of every statement, and steps whose results the spec gives.
-/

set_option Elab.async false

namespace Sys2Proof.Tests

open Sys2Proof.Machine Sys2Proof.Claims

/-! ### Decoding -/

def pl : Hdr := { guard := none, st := 0, wt := 0, sf := 15, yl := false, ru := 0 }

def decodes (l : List (BitVec 96 × Instr)) : Prop := ∀ x ∈ l, decode x.1 = .ok x.2 false

theorem decodes_of {l : List (BitVec 96 × Instr)} (h : (l.all fun x => decide (decode x.1 = .ok x.2 false)) = true) :
    decodes l := by
  simpa [decodes] using h

theorem test_decode_control : decodes [
    (0x1e0000000000000000001000#96, .nop pl true),
    (0x1e0000000000000280001001#96, .bra pl 5),
    (0x1e0001fffffe007e82801002#96, .bz pl (.s 10) 0xFFFFFFFD),
    (0x1e0000000000000147001003#96, .bnz pl .exec 2),
    (0x1e0000000002000000029004#96, .call pl 20 0x100),
    (0x1e0000000000000005001005#96, .ret pl 20),
    (0x1e000000000200000502d006#96, .jmpi pl (some 22) 20),
    (0x1e0000000000000000001007#96, .exit pl),
    (0x1e000000018c000000001107#96, .exitSucc pl 2 true 24),
    (0x1e000000000e000044c01008#96, .waitc pl 3 7),
    (0x1e0000000190000000001009#96, .yield pl 200),
    (0x1e00002468ac003c0000100a#96, .sleep pl 0x12345678),
    (0x1e000000000000000781000b#96, .xvi pl 8 30),
    (0x1e000000000000000180120c#96, .exset pl .andn (.s 6)),
    (0x1e000000000000000000d00d#96, .exget pl 6),
    (0x1e000000000000000240d00e#96, .pmask pl 6 9),
    (0x1e00000000000000001fd00f#96, .gettime pl 254),
    (0x1e000000020200000000f010#96, .csrr pl 7 0x101),
    (0x1e0000000210000001c01011#96, .csrw pl 0x108 (.s 7)),
    (0x1e0000000000000c00009118#96, .sldkArg pl true 4 0x18),
    (0x1e0000000000000e0000b218#96, .sldkConst pl false 5 0x1C)] := decodes_of (by decide +kernel)

theorem test_decode_integer : decodes [
    (0x1e0000000008000301408030#96, .vadd pl ⟨false, .i32, .v 4, .vec (.v 5), .vec (.v 6)⟩),
    (0x1e0000000010000301408031#96, .vsub pl ⟨false, .n32, .v 4, .vec (.v 5), .vec (.v 6)⟩),
    (0x1e0000000000000301408032#96, .vmul pl ⟨false, .b32, .v 4, .vec (.v 5), .vec (.v 6)⟩),
    (0x1e0000000008000301408033#96, .vmulh pl ⟨false, .i32, .v 4, .vec (.v 5), .vec (.v 6)⟩),
    (0x1e0000000008000301408034#96, .vmad pl ⟨false, .i32, .v 4, .vec (.v 5), .vec (.v 6)⟩),
    (0x1e0000000000000301408035#96, .vand pl ⟨false, .b32, .v 4, .vec (.v 5), .vec (.v 6)⟩),
    (0x1e0000000000000301408036#96, .vor pl ⟨false, .b32, .v 4, .vec (.v 5), .vec (.v 6)⟩),
    (0x1e0000000000000301408037#96, .vxor pl ⟨false, .b32, .v 4, .vec (.v 5), .vec (.v 6)⟩),
    (0x1e0000000000000301408038#96, .vshl pl ⟨false, .b32, .v 4, .vec (.v 5), .vec (.v 6)⟩),
    (0x1e0000000000000301408039#96, .vshr pl ⟨false, .b32, .v 4, .vec (.v 5), .vec (.v 6)⟩),
    (0x1e000000000000030140803a#96, .vsra pl ⟨false, .b32, .v 4, .vec (.v 5), .vec (.v 6)⟩),
    (0x1e000000001000030140803b#96, .vmin pl ⟨false, .n32, .v 4, .vec (.v 5), .vec (.v 6)⟩),
    (0x1e000000000800030140803c#96, .vmax pl ⟨false, .i32, .v 4, .vec (.v 5), .vec (.v 6)⟩),
    (0x1e000000001000030140803d#96, .vabsd pl ⟨false, .n32, .v 4, .vec (.v 5), .vec (.v 6)⟩),
    (0x1e0000000008000301408041#96, .vbfe pl ⟨false, .i32, .v 4, .vec (.v 5), .vec (.v 6)⟩),
    (0x1e0000000000000301408042#96, .vbfi pl ⟨false, .b32, .v 4, .vec (.v 5), .vec (.v 6)⟩),
    (0x1e000008001200040180903e#96, .vadds pl ⟨true, ⟨true, .n64, .s 4, .sca (.s 6), .sca (.s 8)⟩⟩),
    (0x1e000000000200000180803f#96, .vclz pl ⟨false, .b64, .v 4, .vec (.v 6)⟩),
    (0x1e0000000000000054008040#96, .vpopc pl ⟨false, .b32, .v 4, .vec .laneid⟩),
    (0x1e000000480000c301408043#96, .vsel pl ⟨9, ⟨false, .b32, .v 4, .vec (.v 5), .vec (.bcast 6)⟩⟩),
    (0x1e0000000000000040c09044#96, .vmov pl ⟨true, .b32, .s 4, .sca (.h 3)⟩),
    (0x1e0001000000000080009145#96, .vmovi pl ⟨true, true, .s 4, 0x80000001⟩),
    (0x1e0000100008000180802046#96, .vcmp pl ⟨false, .i32, .lt, 1, .vec (.v 2), .vec (.v 3)⟩),
    (0x1e000000000000028100e147#96, .vbint pl ⟨true, ⟨false, .b32, .v 7, .vec (.v 4), .vec (.v 5)⟩⟩),
    (0x1e000010000000000100e148#96, .vbdei pl ⟨true, 2, ⟨false, .b32, .v 7, .vec (.v 4)⟩⟩),
    (0x1e0000300000000180803049#96, .plog pl ⟨true, 6, 1, 2, 3⟩),
    (0x1e000070000000000200804a#96, .pmov pl ⟨false, 7, 8, .tor (.v 4)⟩),
    (0x1e000078000000000101004a#96, .pmov pl ⟨false, 7, 8, .fromr (.vec (.v 4))⟩)] := decodes_of (by decide +kernel)

theorem test_decode_float : decodes [
    (0x1e0000060014000301408050#96, .fadd pl ⟨false, .rd, .v 4, .vec (.v 5), .vec (.v 6)⟩),
    (0x1e0000060014000301408051#96, .fsub pl ⟨false, .rd, .v 4, .vec (.v 5), .vec (.v 6)⟩),
    (0x1e0000060014000301408052#96, .fmul pl ⟨false, .rd, .v 4, .vec (.v 5), .vec (.v 6)⟩),
    (0x1e0000060014000301408053#96, .ffma pl ⟨false, .rd, .v 4, .vec (.v 5), .vec (.v 6)⟩),
    (0x1e000008001400aa01408054#96, .fmin pl ⟨false, true, .v 4, .vec (.v 5), .vec .zero⟩),
    (0x1e0000000014000301408055#96, .fmax pl ⟨false, false, .v 4, .vec (.v 5), .vec (.v 6)⟩),
    (0x1e0000380014000301407056#96, .fcmp pl ⟨true, .nan, 3, .sca (.s 5), .sca (.s 6)⟩),
    (0x1e0000020014000001408057#96, .frnd pl ⟨false, .rz, .v 4, .vec (.v 5)⟩),
    (0x1e0000040000000301408058#96, .hadd2 pl ⟨false, false, .ru, .v 4, .vec (.v 5), .vec (.v 6)⟩),
    (0x1e0000000000000301408159#96, .hmul2 pl ⟨false, true, .rne, .v 4, .vec (.v 5), .vec (.v 6)⟩),
    (0x1e000000000000030140805a#96, .hfma2 pl ⟨false, false, .rne, .v 4, .vec (.v 5), .vec (.v 6)⟩),
    (0x1e0000000014000001408060#96, .frcp pl ⟨4, .v 5⟩),
    (0x1e0000000014000001408061#96, .frsq pl ⟨4, .v 5⟩),
    (0x1e0000000014000001408062#96, .fsqrt pl ⟨4, .v 5⟩),
    (0x1e0000000014000001408063#96, .fex2 pl ⟨4, .v 5⟩),
    (0x1e0000000014000001408064#96, .flg2 pl ⟨4, .v 5⟩),
    (0x1e0000000014000001408065#96, .fsin pl ⟨4, .v 5⟩),
    (0x1e0000000014000001408066#96, .fcos pl ⟨4, .v 5⟩),
    (0x1e0000000014000001408067#96, .ftanh pl ⟨4, .v 5⟩),
    (0x1e0000c2011a000001408070#96, .cvt pl ⟨.e4m3, .i32, .rz, 3, 0, 4, .v 5⟩),
    (0x1e000140029e00c301408071#96, .qnt pl ⟨.e2m1, .rne, 5, 4, .v 5, .bcast 6⟩),
    (0x1e00000602a0000001408072#96, .pack6 pl ⟨true, .rd, 4, .v 5⟩),
    (0x1e0000100414000001408073#96, .unpack6 pl ⟨true, false, 2, 4, .v 5⟩),
    (0x1e0000c002a4000001408074#96, .mxsc pl ⟨true, 3, 4, .v 5⟩),
    (0x1e000000018000000000b075#96, .sattst pl 5 0xC0),
    (0x1e000000001e000000001076#96, .satclr pl 0x0F),
    (0x1e000001fc02000000001077#96, .satarm pl 0x01 0xFE)] := decodes_of (by decide +kernel)

theorem test_decode_lanes : decodes [
    (0x1e000028000200aa01808280#96, .shfl pl ⟨.down, true, 5, 4, .v 6, .zero⟩),
    (0x1e0000000000000301408081#96, .rdlane pl ⟨false, 4, 5, 6⟩),
    (0x1e0000000002000401808082#96, .wrlane pl ⟨true, 4, 6, 8⟩),
    (0x1e0000320014000001408083#96, .vred pl ⟨.fadd, .f32, .rz, 4, .v 5⟩),
    (0x1e000010000a000001808184#96, .vscan pl ⟨true, .max, .i64, .rne, 4, .v 6⟩),
    (0x1e0000000014000001808085#96, .vmatch pl ⟨.f32, 4, .v 6⟩)] := decodes_of (by decide +kernel)

theorem test_decode_scratchpad : decodes [
    (0x1e00000e540e000301408090#96, .lds pl ⟨.n16, .acq, .grp, 2, 7, 4, .v 5, .v 6⟩),
    (0x1e0001fe000200aa01408091#96, .sts pl ⟨.b64, .weak, .wave, 0, 255, 4, .v 5, .zero⟩),
    (0x1e0000024800000301408792#96, .atoms pl ⟨.cas, .b32, .rlx, .grp, 1, 4, .v 5, .v 6⟩),
    (0x1e0000020014000301400a93#96, .reds pl ⟨.fadd, .f32, .weak, .wave, 1, 0, .v 5, .v 6⟩),
    (0x1e0000070000000381800094#96, .barinit pl ⟨true, 3, 6, 7⟩),
    (0x1e0000040002000001828095#96, .arrive pl ⟨false, 2, 1, 20, 6, 0⟩),
    (0x1e0000009000000005004096#96, .bwait pl ⟨9, 2, 20⟩),
    (0x1e0000000000000005004097#96, .btest pl ⟨2, 20⟩),
    (0x1e000148d012000602806098#96, .waita pl ⟨.ge, false, 4, .dev, true, .n64, 3, 10, 12⟩)] := decodes_of (by decide +kernel)

theorem test_decode_memory : decodes [
    (0x1e0001ff1702000401a840a0#96, .ldg pl ⟨.b64, .acq, .sys, 3, true, 0xFF, .q 2, .v 6, .v 8⟩),
    (0x1e000002980c00a8628080a1#96, .stg pl ⟨.n8, .rel, .clu, 0, false, 1, .v 4, .bcast 10, .laneid⟩),
    (0x1e000100e0120004018080a2#96, .atom pl ⟨.add, .n64, .ar, .dev, 0x80, .v 4, .v 6, .v 8⟩),
    (0x1e00000108100004018008a3#96, .red pl ⟨.inc, .n32, .rlx, .sys, 0, .v 0, .v 6, .v 8⟩),
    (0x1e00000100000000000013a4#96, .fence pl ⟨.sc, .sys⟩),
    (0x1e00000000000000000010a5#96, .cctlInv pl none),
    (0x1e00000000020006028011a5#96, .cctlClean pl ⟨10, 12⟩),
    (0x1e00000000020006028012a5#96, .cctlCleaninv pl ⟨10, 12⟩),
    (0x1e00002003000004018001a6#96, .pref pl ⟨true, 1, true, 0x10, .v 6, .v 8⟩),
    (0x1e0000000000000051c090a7#96, .qstat pl 4 7),
    (0x1e000000007e000051c010a8#96, .qdrop pl 7 63)] := decodes_of (by decide +kernel)

theorem test_decode_grid : decodes [
    (0x1e00000000000000000010b0#96, .link pl),
    (0x1e00000000000000000010b1#96, .unlink pl),
    (0x1e000000d3260003010190b2#96, .tmma pl ⟨.b1x1, false, false, .a36, .bf16, true, .dev, 12, 4, 6⟩),
    (0x1e000000000a0000000010b3#96, .tzero pl 5),
    (0x1e0001a25cd60007820010b4#96, .tdrainSt pl ⟨true, true, .b2x1, .rz, .grp, true, .a36, .f16, 8, 15⟩),
    (0x1e00000004d40007820011b4#96, .tdrainAddst pl ⟨false, false, .b1x1, .rne, .wave, false, .a36, .f32, 8, 15⟩),
    (0x1e000100001200000000d0b5#96, .gprog pl ⟨9, .rd 6⟩),
    (0x1e000000000e0000018010b5#96, .gprog pl ⟨7, .wr 6⟩)] := decodes_of (by decide +kernel)

theorem test_decode_engine : decodes [
    (0x1e000012c0000000042070c0#96, .cpy pl ⟨.lin, none, some .grp, false, true, true, false, 3, 16⟩),
    (0x1e0000000000000040c0d0c1#96, .htest pl 6 (.h 3)),
    (0x1e00000000000000024010c2#96, .hcancel pl (.s 9)),
    (0x1e000000000000000240d0c3#96, .hwait pl 6 (.s 9))] := decodes_of (by decide +kernel)

theorem test_decode_rays : decodes [
    (0x1e000000000c0004840080c8#96, .rbox pl ⟨4, 16, .v 9, 6⟩),
    (0x1e00000000080004840000c9#96, .rtri pl ⟨16, .v 9, 4⟩),
    (0x1e000000000c0000040080ca#96, .rhint pl ⟨4, 16, 6⟩),
    (0x1e000000000c0000040000cb#96, .rhset pl ⟨16, 6⟩),
    (0x1e0000000000000f040080cc#96, .rast pl ⟨4, 16, 30⟩),
    (0x1e000000420c0005024082cd#96, .tex pl ⟨.stoch, 4, .v 9, .v 10, 6, 33⟩),
    (0x1e000000000c0005024080ce#96, .texq pl ⟨4, .v 9, .v 10, 6⟩),
    (0x1e0000045c160005024000cf#96, .blend pl ⟨.max, true, .rel, .grp, 2, .v 9, .v 10⟩)] := decodes_of (by decide +kernel)

theorem test_decode_system : decodes [
    (0x1e00000000000000010150d8#96, .launchEnq pl 10 4),
    (0x1e00000000060000010011d8#96, .launchCancel pl .jtag 4),
    (0x1e00000000020000024010d9#96, .setpri pl true 9),
    (0x1e0001bd5b7c0077800010da#96, .trap pl 0xDEADBEEF),
    (0x1e00000000000000000010db#96, .trapret pl),
    (0x1e00000000000000000010dc#96, .faultretRetry pl),
    (0x1e00000000000000000011dc#96, .faultretSkip pl),
    (0x1e000000000000003f8012dc#96, .faultretEmul pl 254),
    (0x1e00000024680000000010dd#96, .dbgbrk pl 0x1234)] := decodes_of (by decide +kernel)


/-- The words of the spec's own examples: R72, R154, R157, R296, R299, R323, R361, R365, R414, R227 and chapter 26. -/
theorem test_decode_examples : decodes [
    (0x000000100008000180802046#96, .vcmp { pl with sf := 0 } ⟨false, .i32, .lt, 1, .vec (.v 2), .vec (.v 3)⟩),
    (0x020124000015830281010050#96, .fadd { pl with guard := some ⟨true, 3⟩, st := 2, wt := 9, sf := 1 }
      ⟨false, .rne, .v 8, .vec (.v 4), .vec (.v 5)⟩),
    (0x02002000d3260003010190b2#96, .tmma { pl with wt := 1, sf := 1 } ⟨.b1x1, false, false, .a36, .bf16, true, .dev, 12, 4, 6⟩),
    (0x0600000000080004840000c9#96, .rtri { pl with sf := 3 } ⟨16, .v 9, 4⟩),
    (0x0400000000000000010150d8#96, .launchEnq { pl with sf := 2 } 10 4),
    (0x1e00000000020000024010d9#96, .setpri pl true 9),
    (0x1e00000024680000000010dd#96, .dbgbrk pl 0x1234),
    (0x1e000800000000028100e147#96, .vbint { pl with st := 4 } ⟨true, ⟨false, .b32, .v 7, .vec (.v 4), .vec (.v 5)⟩⟩),
    (0x0200000004d40007820011b4#96, .tdrainAddst { pl with sf := 1 }
      ⟨false, false, .b1x1, .rne, .wave, false, .a36, .f32, 8, 15⟩),
    (0x1e000400000000003f8012dc#96, .faultretEmul { pl with st := 2 } 254),
    (0x1e0001000002001000009045#96, .vmovi pl ⟨true, false, .s 4, 0x80000120⟩)] := decodes_of (by decide +kernel)

/-- R53, R69: an opcode, an FN and a U that are not assigned, a reserved M bit, a reserved register field, and a reserved
field of an instruction that leaves it unused. -/
theorem test_decode_illegal : (decode 0xFF = .illegal ∧ decode 0x1e0000000000000000001f07#96 = .illegal ∧
    decode 0x1e0000000000000280000001#96 = .illegal ∧ decode 0x1e00000224680000000010dd#96 = .illegal ∧
    decode 0x1e0000000008000301680030#96 = .illegal) ∧ decode 0x1e0000000000000280003001#96 = .ok (.bra pl 5) true := by
  decide +kernel

/-! ### WellFormed -/

/-- One ill-formed term for each kind of check: spaces and pairs, tags, ranges, orders, scopes, roundings, reserved codes, and
the names that events carry. -/
def illFormed : List Instr :=
  [.exit { pl with sf := 3 }, .exitSucc pl 0 false 4, .bz pl (.s 3) 0, .call pl 3 0, .ret pl 5, .jmpi pl (some 1) 2, .waitc pl 12 0,
   .waitc pl 0 63, .xvi pl 7 30, .xvi pl 8 320, .exset pl .or (.s 1), .exget pl 3, .gettime pl 1, .pmask pl 5 0,
   .csrw pl 0x108 (.f 12), .sldkArg pl true 3 0, .vadd pl ⟨false, .f32, .v 4, .vec (.v 5), .vec (.v 6)⟩,
   .vadd pl ⟨true, .i32, .v 4, .sca (.s 5), .sca (.s 6)⟩, .vadd pl ⟨false, .i64, .v 5, .vec (.v 6), .vec (.v 8)⟩,
   .vadd pl ⟨false, .i32, .q 4, .vec (.v 6), .vec (.v 8)⟩, .vmulh pl ⟨false, .b32, .v 4, .vec (.v 5), .vec (.v 6)⟩,
   .vand pl ⟨false, .n32, .v 4, .vec (.v 5), .vec (.v 6)⟩, .vshl pl ⟨false, .b64, .v 3, .vec (.v 6), .vec (.v 8)⟩,
   .vadds pl ⟨true, ⟨false, .b32, .v 4, .vec (.v 5), .vec (.v 6)⟩⟩, .vclz pl ⟨false, .n32, .v 4, .vec (.v 5)⟩,
   .vmov pl ⟨false, .b64, .v 4, .vec (.v 6)⟩, .vcmp pl ⟨false, .b32, .lt, 1, .vec (.v 2), .vec (.v 3)⟩,
   .vbdei pl ⟨false, 2, ⟨false, .b32, .v 4, .vec (.v 5)⟩⟩, .pmov pl ⟨true, 1, 8, .tor (.s 4)⟩,
   .hadd2 pl ⟨false, true, .ru, .v 4, .vec (.v 5), .vec (.v 6)⟩, .frcp pl ⟨320, .v 5⟩, .cvt pl ⟨.b32, .i32, .rne, 0, 0, 4, .v 5⟩,
   .cvt pl ⟨.f32, .i8, .rne, 0, 4, 4, .v 5⟩, .qnt pl ⟨.f32, .rne, 0, 4, .v 5, .v 6⟩, .unpack6 pl ⟨true, true, 1, 4, .v 5⟩,
   .shfl pl ⟨.idx, false, 7, 4, .v 5, .v 6⟩, .vred pl ⟨.add, .i32, .ru, 4, .v 5⟩, .vred pl ⟨.fadd, .i32, .rne, 4, .v 5⟩,
   .vmatch pl ⟨.i32, 4, .v 6⟩, .lds pl ⟨.f32, .weak, .wave, 0, 0, 4, .v 5, .v 6⟩, .lds pl ⟨.b32, .rlx, .dev, 0, 0, 4, .v 5, .v 6⟩,
   .lds pl ⟨.b32, .weak, .grp, 0, 0, 4, .v 5, .v 6⟩, .lds pl ⟨.b32, .rel, .grp, 0, 0, 4, .v 5, .v 6⟩,
   .sts pl ⟨.b32, .acq, .grp, 0, 0, 4, .v 5, .v 6⟩, .atoms pl ⟨.inc, .i32, .rlx, .grp, 0, 4, .v 5, .v 6⟩,
   .reds pl ⟨.exch, .b32, .rlx, .grp, 0, 0, .v 5, .v 6⟩, .reds pl ⟨.add, .n32, .rlx, .grp, 0, 1, .v 5, .v 6⟩,
   .arrive pl ⟨false, 2, 3, 20, 6, 9⟩, .stg pl ⟨.b32, .acq, .dev, 0, false, 0, .v 4, .bcast 6, .v 8⟩,
   .ldg pl ⟨.b32, .weak, .wave, 0, false, 0, .s 4, .bcast 6, .v 8⟩, .ldg pl ⟨.b32, .weak, .wave, 0, false, 0, .v 4, .bcast 7, .v 8⟩,
   .atom pl ⟨.cas, .b32, .rlx, .sys, 0, .q 1, .bcast 6, .v 8⟩, .red pl ⟨.cas, .b32, .rlx, .sys, 0, .v 0, .bcast 6, .v 8⟩,
   .waita pl ⟨.lt, true, 4, .grp, true, .b32, 3, 10, 12⟩, .waita pl ⟨.eq, true, 4, .sys, true, .n32, 3, 10, 12⟩,
   .cctlClean pl ⟨9, 12⟩, .tmma pl ⟨.b1x1, false, true, .a36, .bf16, true, .dev, 12, 4, 6⟩,
   .tmma pl ⟨.b1x1, false, false, .a36, .bf16, false, .dev, 12, 4, 6⟩,
   .tdrainAddst pl ⟨false, false, .b1x1, .ru, .wave, false, .a36, .f32, 8, 15⟩,
   .tdrainSt pl ⟨true, false, .b1x1, .rne, .sys, true, .a36, .f32, 8, 15⟩, .gprog pl ⟨10, .rd 4⟩, .gprog pl ⟨8, .wr 4⟩,
   .cpy pl ⟨.lin, some .sys, none, true, false, false, false, 1, 20⟩, .cpy pl ⟨.lin, none, some .clu, false, true, false, false, 1, 20⟩,
   .rbox pl ⟨5, 6, .v 8, 10⟩, .tex pl ⟨.point, 4, .v 5, .v 6, 10, 12⟩, .texq pl ⟨4, .v 5, .v 6, 11⟩,
   .blend pl ⟨.add, false, .acq, .grp, 0, .v 5, .v 6⟩, .launchEnq pl 3 4, .faultretEmul pl 3,
   .linkComplete ⟨256, 0, 0⟩, .bwaitWake ⟨0, 4, 0⟩, .sleepWake ⟨0, 0, 12⟩, .groupRetire ⟨16, 0, 0⟩, .copyUnit 256, .walkComplete 4096,
   .frespRetry 16 0, .tlbinvRange 16 1, .doorbellWrite 0 0 0 0 2 0, .nopPacket 0 8, .save 16 0, .hostSnoop 4 0 false,
   .backInvalidateResponse 0 (2 ^ 41), .hostMemRead 0 0x7F 2 false, .hostMemWrite 0 0 [1, 2] false (some ⟨.add, .n32, 0⟩),
   .csmApertureAccess 0 2 4 none, .leaseArm 2 0, .cxwinWrite 2 false 0, .correctedError 13 0 0, .uncorrectableError 7 0 ⟨0, 0, 0⟩ .other,
   .memoryUncorrectableError .line (2 ^ 48), .clusterFence 64, .mailboxRequest 2 ⟨0, .raiseSvn 0⟩, .msixVectorUnmask 0 ⟨161, true⟩,
   .registerWrite 0 0 2 0]

theorem test_illFormed : (illFormed.all fun i => !i.wf) = true := by decide +kernel
/-! ### A small machine -/

/-- One cluster of one core in cycle 100, with a wave of every allotment in slot 0 of its first quarter. -/
def wv : Wave := { Wave.fresh 0 ⟨0, 0, 0⟩ ⟨0, 0, 0⟩ 0 wideKern 0 0 with notBefore := 0 }

def gr : Group :=
  { id := ⟨0, 0, 0⟩, core := 0, q0 := 0, nw := 1, kern := wideKern, exited := 0, relaunch := 0, killed := false, again := false, back := none,
    window := freshWindow wideKern, flips := [], lastExit := none, tile := none }

def st : State :=
  { State.reset with
    clusters := [{ Cluster.reset 0 with cyc := 100 }], cores := [Core.reset 0], waves := [wv], groups := [gr], nextSeq := 9
    ports := [{ HostPort.reset 0 with nonce := 1 }, { HostPort.reset 1 with nonce := 2 }]
    mg := { State.reset.mg with stage := 5, flash := [], minSvn := 0 } }

def stw (w : Wave) : State := { st with waves := [w] }

def issuesB (s : State) (w : Wave) (i : Instr) (u : Bool) : Bool :=
  decide (s.wave? s.cur = some w) && decide (w.life = .live) && i.fits w.allot &&
  (queueMisuse w i (s.cyc w.id.core)).isNone && !queueHold w i (s.cyc w.id.core) &&
  !(i.handles.any fun n => w.hpend.contains n.toNat) && (u || !(mkEnv s w u i).ownsTile) && (popPoison (mkEnv s w u i)).isNone

theorem issues_of {s : State} {w : Wave} {i : Instr} {u : Bool} (h : issuesB s w i u = true) : Issues s w i u := by
  simp only [issuesB, Bool.and_eq_true, decide_eq_true_eq, Bool.not_eq_true', Bool.or_eq_true, Option.isNone_iff_eq_none] at h
  obtain ⟨⟨⟨⟨⟨⟨⟨a, b⟩, c⟩, d⟩, e⟩, f⟩, g⟩, i⟩ := h
  exact ⟨a, b, c, d, e, f, g, i⟩

/-- The wave can issue each instruction of a list, with its U. -/
def meets (s : State) (w : Wave) (l : List (Instr × Bool)) : Prop := ∀ x ∈ l, Issues s w x.1 x.2

theorem meets_of {s : State} {w : Wave} {l : List (Instr × Bool)} (h : (l.all fun x => issuesB s w x.1 x.2) = true) :
    meets s w l := fun x hx => issues_of (List.all_eq_true.mp h x hx)

def a3 : Alu3 := ⟨false, .i32, .v 4, .vec (.v 4), .vec (.v 6)⟩
def b3 : Alu3 := ⟨false, .b64, .v 4, .vec (.v 4), .vec (.v 6)⟩
def a2 : Alu2 := ⟨false, .b32, .v 4, .vec (.v 6)⟩
def f3 : FAlu3 := ⟨false, .rne, .v 4, .vec (.v 5), .vec (.v 6)⟩
def u3 : Alu3 := ⟨true, .n32, .s 4, .sca (.s 5), .sca (.s 6)⟩

/-- Guards that are false in every thread, and true in every thread. -/
def off : Hdr := { pl with guard := some ⟨false, 0⟩ }
def on : Hdr := { pl with guard := some ⟨true, 0⟩ }

/-- An outstanding access of the wave. -/
def ac (id : Nat) (op : AccOp) (dst : AccDst) (lanes : List Lane) : Acc :=
  { id := id, uid := 0, w := ⟨0, 0, 0⟩, grp := ⟨0, 0, 0⟩, op := op, tag := .b32, ord := .weak, sco := .wave, sf := 15,
    ready := 0, dst := dst, lanes := lanes, puts := [], args := [], after := [], near := [], left := some 1, told := false,
    redo := false, served := 0, lim := none }

def ln (t pa : Nat) (perf : Bool) : Lane :=
  { t := t, va := 0, pa := pa, data := 5, cmp := 0, l1 := false, given := false, perf := perf, poison := false, res := 7 }

def sta (l : List Acc) : State := { st with accs := l }

/-- The machine with its first pages mapped at themselves, for every kind of access. -/
def sm : State := { st with tlb := [⟨0, 3, 0, 0, 0x19F, st.classes 0, true, [0]⟩] }

def found (x : Xlate) : Bool := match x with | .ok _ => true | _ => false

/-! ### States and operands that meet the hypotheses of the statements -/

theorem test_meets_IntegerResults : meets st wv [(.vadd pl a3, false), (.vsub pl a3, false), (.vmul pl b3, false),
    (.vmad pl u3, true), (.vmulh pl a3, false), (.vmin off a3, false), (.vmax pl u3, true), (.vabsd on a3, false)] :=
  meets_of (by decide +kernel)

theorem test_meets_SaturationFlags : meets st wv [(.vadds pl ⟨true, a3⟩, false), (.vadds pl ⟨false, u3⟩, true),
    (.sattst pl 3 1, true), (.satclr off 1, true), (.satarm pl 1 2, true)] := meets_of (by decide +kernel)

theorem test_meets_BitResults : meets st wv [(.vand pl b3, false), (.vor pl b3, false), (.vxor pl b3, false),
    (.vshl pl b3, false), (.vshr pl b3, false), (.vsra pl b3, false), (.vclz pl a2, false), (.vpopc pl a2, false),
    (.vbfe pl a3, false), (.vbfi pl b3, false)] := meets_of (by decide +kernel)

theorem test_meets_MoveResults : meets st wv [(.vsel pl ⟨3, b3⟩, false), (.vmov pl a2, false), (.vmovi pl ⟨true, true, .s 4, 1⟩, true),
    (.plog pl ⟨true, 6, 1, 2, 3⟩, true), (.plog pl ⟨false, 6, 1, 2, 3⟩, false), (.pmov pl ⟨false, 31, 8, .tor (.v 4)⟩, false),
    (.pmov pl ⟨true, 0, 8, .tor (.s 4)⟩, true), (.pmov pl ⟨false, 31, 8, .fromr (.vec (.v 4))⟩, false),
    (.pmov pl ⟨true, 0, 8, .fromr (.sca (.s 4))⟩, true)] := meets_of (by decide +kernel)

theorem test_meets_CompareResults : meets st wv [(.vcmp pl ⟨false, .i64, .lt, 1, .vec (.v 2), .vec (.v 4)⟩, false),
    (.fcmp pl ⟨true, .nan, 1, .sca (.s 2), .sca (.s 4)⟩, true), (.vbint pl ⟨true, b3⟩, false), (.vbdei pl ⟨true, 2, a2⟩, false)] :=
  meets_of (by decide +kernel)

theorem test_meets_FloatResults : meets st wv [(.fadd pl f3, false), (.fsub pl f3, false), (.fmul pl f3, false), (.ffma pl f3, false),
    (.frnd pl ⟨false, .rz, .v 4, .vec (.v 5)⟩, false), (.fmin pl ⟨false, true, .v 4, .vec (.v 5), .vec (.v 6)⟩, false),
    (.fmax pl ⟨true, false, .s 4, .sca (.s 5), .sca (.s 6)⟩, true), (.hadd2 pl ⟨false, true, .rne, .v 4, .vec (.v 5), .vec (.v 6)⟩, false),
    (.hmul2 pl ⟨false, false, .ru, .v 4, .vec (.v 5), .vec (.v 6)⟩, false),
    (.hfma2 pl ⟨false, false, .ru, .v 4, .vec (.v 5), .vec (.v 6)⟩, false)] := meets_of (by decide +kernel)

theorem test_meets_SpecialResults : meets st wv [(.frcp pl ⟨4, .v 5⟩, false), (.frsq pl ⟨4, .v 5⟩, false), (.fsqrt pl ⟨4, .v 5⟩, false),
    (.fex2 pl ⟨4, .v 5⟩, false), (.flg2 pl ⟨4, .v 5⟩, false), (.fsin pl ⟨4, .v 5⟩, false), (.fcos pl ⟨4, .v 5⟩, false),
    (.ftanh pl ⟨4, .v 5⟩, false)] := meets_of (by decide +kernel)

theorem test_meets_SpecialResults_writes :
    (sta [ac 0 .sfu .none [], ac 1 .sfu .none []]).ripe 0 (· = .sfu) = some (ac 0 .sfu .none []) ∧
    (sta [ac 0 .sfu .none [], ac 1 .sfu .none []]).oldest (ac 0 .sfu .none []) = true ∧
    (sta [ac 0 .xlane .none [], ac 1 .xlane .none []]).ripe 1 (· = .xlane) = some (ac 1 .xlane .none []) ∧
    (sta [ac 0 .xlane .none [], ac 1 .xlane .none []]).oldest (ac 1 .xlane .none []) = false := by decide +kernel

theorem test_meets_ConversionResults : meets st wv [(.cvt pl ⟨.e4m3, .i32, .rz, 3, 0, 4, .v 5⟩, false),
    (.cvt pl ⟨.i64, .e2m1, .rz, 0, 7, 4, .v 5⟩, false), (.qnt pl ⟨.e2m1, .rne, 7, 4, .v 5, .v 6⟩, false),
    (.mxsc pl ⟨true, 3, 4, .v 5⟩, false), (.unpack6 pl ⟨true, true, 0, 4, .v 5⟩, false), (.pack6 pl ⟨true, .rd, 4, .v 5⟩, false)] :=
  meets_of (by decide +kernel)

theorem test_meets_ControlTransfers : meets st wv [(.bra pl 5, true), (.bz pl (.s 10) 5, true), (.bnz pl .exec 5, true),
    (.call pl 20 5, true), (.ret pl 20, true), (.jmpi pl (some 22) 20, true), (.jmpi pl none 20, true)] :=
  meets_of (by decide +kernel)

/-- A misaligned target, and the first address outside the space. -/
def far (x : W64) : Wave := { wv with pc := x, s := [(20, lo32 x), (21, hi32 x)] }

theorem test_meets_ControlTransfers_traps :
    meets (stw (far 2)) (far 2) [(.bra pl 5, true), (.bz pl (.s 10) 5, true), (.bnz pl (.s 20) 5, true),
      (.call pl 20 5, true), (.ret pl 20, true), (.jmpi pl (some 22) 20, true)] ∧
    meets (stw (far 0x8000000000000)) (far 0x8000000000000) [(.bra pl 5, true), (.bz pl (.s 10) 5, true), (.bnz pl (.s 20) 5, true),
      (.call pl 20 5, true), (.ret pl 20, true), (.jmpi pl (some 22) 20, true)] ∧
    pair64 ((far 2).rs 100 10) ((far 2).rs 100 11) = 0 ∧ pair64 ((far 2).rs 100 20) ((far 2).rs 100 21) ≠ 0 ∧
    pair64 ((far 0x8000000000000).rs 100 10) ((far 0x8000000000000).rs 100 11) = 0 ∧
    wv.uGuard pl 100 = true ∧ bits (2 + 12 + 12 * (5#32).signExtend 64) 1 0 ≠ 0 ∧
    bits (pair64 ((far 2).rs 100 20) ((far 2).rs 100 21)) 1 0 ≠ 0 ∧
    bits (0x8000000000000 + 12 + 12 * (5#32).signExtend 64) 1 0 = 0 ∧
    bits (0x8000000000000 + 12 + 12 * (5#32).signExtend 64) 63 51 ≠ 0 ∧
    bits (pair64 ((far 0x8000000000000).rs 100 20) ((far 0x8000000000000).rs 100 21)) 63 51 ≠ 0 :=
  ⟨meets_of (by decide +kernel), meets_of (by decide +kernel), by decide +kernel⟩

theorem test_meets_ScalarControl : meets st wv [(.nop pl false, false), (.waitc pl 3 0, true), (.gettime pl 4, true),
    (.csrr pl 4 0x110, true), (.csrw pl 0x10F (.s 4), true), (.csrr off 4 0x300, true), (.csrw off 0x300 (.s 4), true),
    (.yield pl 255, true), (.sleep pl 0xFFFFFFFF, true)] := meets_of (by decide +kernel)

theorem test_meets_ScalarControl_csrs :
    (csrRead (envOf st wv (.csrr pl 4 0x110) true) 0x110).isSome = true ∧
    (csrRead (envOf (stw { wv with handler := .trap }) { wv with handler := .trap } (.csrw pl 0x10F (.s 4)) true) 0x10F).isSome = true ∧
    csrRw 0x10F = true ∧ wv.flag 3 ≤ 0 ∧ wv.uGuard off 100 = false ∧
    meets (stw { wv with handler := .trap }) { wv with handler := .trap } [(.csrw pl 0x10F (.s 4), true)] :=
  ⟨by decide +kernel, by decide +kernel, by decide +kernel, by decide +kernel, by decide +kernel, meets_of (by decide +kernel)⟩

theorem test_meets_ScalarControl_events :
    (stw { wv with yield := 1 }).wave? wv.id = some { wv with yield := 1 } ∧
    (stw { wv with wait := .sleep 0 }).wave? wv.id = some { wv with wait := .sleep 0 } ∧
    (stw { wv with wait := .sleep 0 }).saving 0 = false ∧ (0 : W64) ≤ st.timebase ∧
    (stw { wv with age := 976 }).wave? wv.id = some { wv with age := 976 } := by decide +kernel

theorem test_meets_ExecMaskReads : meets st wv [(.exget pl 4, true), (.pmask off 4 9, true)] := meets_of (by decide +kernel)

theorem test_meets_ExecMaskWrites : meets st wv [(.exset pl .andn (.s 6), true), (.exset pl .set .exec, true)] :=
  meets_of (by decide +kernel)

/-- A wave whose kernel has a successor that keeps all its registers and one that keeps none, and one with a flag set. -/
def succKern : Kern := { wideKern with succ := [some (320, 7), some (0, 1), none] }
def ws : Wave := { wv with kern := succKern }
def wf0 : Wave := { wv with flags := [(0, 1)] }

theorem test_meets_Exits :
    meets st wv [(.exit pl, true)] ∧ meets (stw wf0) wf0 [(.exit pl, true)] ∧
    meets (stw ws) ws [(.exitSucc pl 0 false 0, true), (.exitSucc pl 1 true 320, true)] ∧
    st.group? wv.grp = some gr ∧ wv.uGuard pl 100 = true ∧ (envOf st wv (.exit pl) true).ownsTile = false ∧
    (envOf (stw ws) ws (.exitSucc pl 0 false 0) true).ownsTile = false ∧
    wv.flagsZero = true ∧ wf0.flagsZero = false ∧ ws.flagsZero = true ∧
    succKern.succ[(0 : Nat)]? = some (some (320, 7)) ∧ succKern.succ[(1 : Nat)]? = some (some (0, 1)) ∧ 320 ≤ succKern.vregs :=
  ⟨meets_of (by decide +kernel), meets_of (by decide +kernel), meets_of (by decide +kernel), by decide +kernel⟩

theorem test_meets_CrossLane : meets st wv [(.shfl pl ⟨.xor, true, 6, 4, .v 6, .v 8⟩, false), (.rdlane pl ⟨false, 4, 5, 6⟩, false),
    (.wrlane pl ⟨true, 4, 6, 8⟩, false), (.vred pl ⟨.fadd, .f32, .rz, 4, .v 5⟩, false), (.vscan pl ⟨true, .max, .i64, .rne, 4, .v 6⟩, false),
    (.vmatch pl ⟨.f32, 4, .v 6⟩, false)] := meets_of (by decide +kernel)

theorem test_meets_IntegerReductionOrder :
    let xs : List (Option Nat) := (List.range 64).map some
    RedOp.min.tagOk .i64 = true ∧ xs.length = 64 ∧ (∀ x, some x ∈ xs → x < 2 ^ tagW .i64) ∧
    (List.range 64).reverse.Perm (xs.filterMap id) := by
  refine ⟨by decide, by decide, fun x hx => ?_, ?_⟩
  · have h : x < 64 := by simpa using hx
    have e : tagW .i64 = 64 := rfl
    rw [e]
    omega
  · have e : ((List.range 64).map some).filterMap id = List.range 64 := by simp [List.filterMap_map]
    rw [e]
    exact List.reverse_perm _

/-- A launch of the wave's group, with an argument block of 32 bytes. -/
def la : Launch :=
  { part := 0, lid := 0, jid := 0, gi := 0, idx := 0, tag := 0, kern := wideKern, gx := 1, gy := 1, gz := 1,
    args := List.replicate 32 1, cmask := 15, lcnt := 0, preds := [], next := 1, redo := [], retired := 0, since := none,
    offer := [], stat := .live, completed := false, wait := [] }

def sl : State := { sm with launches := [la] }

def gl (d : Dst) : GlMem := ⟨.b64, .weak, .wave, 0, false, 1, d, .bcast 6, .v 8⟩
def ga : GlAtom := ⟨.add, .n32, .rlx, .sys, 0, .v 4, .bcast 6, .v 8⟩

theorem test_meets_Loads :
    meets sl wv [(.sldkArg pl true 4 24, true), (.sldkArg pl false 4 28, true), (.sldkConst pl true 4 0x78, true),
      (.ldg pl (gl (.v 4)), false), (.ldg pl (gl (.q 15)), false)] ∧
    sl.launch? 0 0 = some la ∧ wv.uGuard pl 100 = true ∧ sl.memHold wv = false ∧ wv.reissue = none ∧
    (24#32).toNat + 8 = la.args.length ∧ (28#32).toNat + 4 = la.args.length ∧ wv.kern.const = 0 ∧ (15#4).toNat < wv.q.length ∧
    sl.watchChk (envOf sl wv (.sldkConst pl true 4 0x78) true) true false false 8 [(0, 0x78)] .ok = .ok ∧
    found (sl.xlate (some 0) 0 .read 8 [(0, 0x78)]) = true ∧
    globalChk sl (envOf sl wv (.ldg pl (gl (.v 4))) false) .read true 8 ((bitsOf (wv.active pl 100)).map fun t => (t, 8)) = .ok ∧
    found (sl.xlate (some 0) 0 .read 8 ((bitsOf (wv.active pl 100)).map fun t => (t, 8))) = true :=
  ⟨meets_of (by decide +kernel), by decide +kernel⟩

/-- A constant block that starts at no multiple of 8: the load goes byte by byte. -/
def wc : Wave := { wv with kern := { wideKern with const := 0x7C } }

theorem test_meets_Loads_bytes :
    meets { sl with waves := [wc] } wc [(.sldkConst pl true 4 0, true)] ∧
    found (sl.xlate (some 0) 0 .read 1 ((List.range 8).map fun k => (k, 0x7C + BitVec.ofNat 64 k))) = true ∧
    ({ sl with waves := [wc] } : State).watchChk (envOf { sl with waves := [wc] } wc (.sldkConst pl true 4 0) true) true false false 1
      ((List.range 8).map fun k => (k, 0x7C + BitVec.ofNat 64 k)) .ok = .ok := ⟨meets_of (by decide +kernel), by decide +kernel⟩

theorem test_meets_GlobalStores :
    meets sm wv [(.stg pl (gl (.v 4)), false), (.atom pl ga, false), (.red pl { ga with d := .v 0 }, false)] ∧ wv.reissue = none ∧
    globalChk sm (envOf sm wv (.stg pl (gl (.v 4))) false) .write false 8
      (glAddrs (envOf sm wv (.stg pl (gl (.v 4))) false) pl (gl (.v 4))) = .ok ∧
    found (sm.xlate (some 0) 0 .write 8 (glAddrs (envOf sm wv (.stg pl (gl (.v 4))) false) pl (gl (.v 4)))) = true ∧
    globalChk sm (envOf sm wv (.atom pl ga) false) .atomic true 4 (atomAddrs (envOf sm wv (.atom pl ga) false) pl ga) = .ok ∧
    globalChk sm (envOf sm wv (.red pl ga) false) .atomic false 4 (atomAddrs (envOf sm wv (.red pl ga) false) pl ga) = .ok ∧
    found (sm.xlate (some 0) 0 .atomic 4 (atomAddrs (envOf sm wv (.atom pl ga) false) pl ga)) = true :=
  ⟨meets_of (by decide +kernel), by decide +kernel⟩

/-- Adjacent, and overlapping, bytes at both ends of a written range. -/
theorem test_meets_MemoryBytes : Memory.wf st.mem = true ∧ (96 + 4 ≤ 100 ∨ 100 + 4 ≤ 96) ∧ (104 + 4 ≤ 100 ∨ 100 + 4 ≤ 104) := by
  decide +kernel

theorem test_meets_AtomicAlus :
    Memory.wf st.mem = true ∧ st.poisoned 0x100 = false ∧ (ac 0 (.atom .add) (.v 4 false) [ln 0 0x100 false]).op = .atom .add ∧
    st.group? (ac 0 .spLoad .none []).grp = some gr ∧ Memory.wf gr.window = true ∧
    ((ac 0 .spStore .none []).op = .spStore ∧ AtomOp.exch = .exch) := by decide +kernel

def ld : Acc := ac 0 .load (.v 4 false) [ln 0 0x100 true, ln 63 0x104 true]
def sk (ls : List Lane) : Acc := ac 0 .sldk (.s 4 false) ls
def st1 (sco : Scope) (told : Bool) : Acc := { ac 0 .store .none [ln 0 0x100 true] with sco := sco, told := told }
def todo : Acc := ac 0 (.atom .add) (.v 4 false) [ln 0 0x100 false]

theorem test_meets_GlobalPerforms_imaged :
    (sta [ld]).acc? 0 = some ld ∧ ((sta [ld]).part ld.grp.part).imaged = false ∧
    (({ sta [ld] with parts := [{ Part.reset with run := .save 0 false 3 0 }] } : State).part ld.grp.part).imaged = true := by
  decide +kernel

theorem test_meets_GlobalPerforms :
    (sta [todo]).acc? 0 = some todo ∧ todo.op.sp = false ∧ todo.lanes.find? (fun x => x.t = 0) = some (ln 0 0x100 false) ∧
    (sta [todo]).laneReady todo (ln 0 0x100 false) = true ∧
    (∀ a ∈ [ld, sk [], sk [ln 0 0x100 true], sk [ln 0 0x100 true, ln 1 0x101 true], ac 0 .load (.q 15 true) [ln 0 0x100 true],
        st1 .sys false, st1 .grp false, st1 .wave true],
      (sta [a]).acc? 0 = some a ∧ a.ready ≤ st.cyc 0 ∧ a.redo = false ∧ (sta [a]).portsFree a = true ∧ a.left.isSome ∧
        a.performed = true ∧ a.poisoned = none ∧ ¬ (a.ord = .acq ∨ a.ord = .ar)) ∧
    scopeFar (st1 .sys false).sco = true ∧ scopeFar (st1 .grp false).sco = false ∧ scopeFar (st1 .wave true).sco = false := by
  decide +kernel

/-- A near store that its home does not have yet, in its core or on its way; and a reduction behind a store that left before it. -/
def far1 (op : AccOp) (left : Option Nat) : Acc := { ac 0 op .none [ln 0 0x100 false] with sco := .grp, left := left }
def behind : State := sta [far1 (.red .add) (some 1), { far1 .store (some 0) with id := 1 }]

theorem test_meets_GlobalPerforms_near :
    (sta [far1 .store none]).ripe 0 (· = .store) = some (far1 .store none) ∧ (sta [far1 .store none]).orderOk (far1 .store none) = true ∧
    (sta [far1 .store (some 1)]).acc? 0 = some (far1 .store (some 1)) ∧ (sta [far1 .store (some 1)]).portsFree (far1 .store (some 1)) = true ∧
    (far1 .store none).performed = false ∧ (far1 .store none).told = false ∧ scopeFar (far1 .store none).sco = false ∧
    behind.acc? 0 = some (far1 (.red .add) (some 1)) ∧ behind.portsFree (far1 (.red .add) (some 1)) = true ∧
    (far1 (.red .add) (some 1)).performed = false ∧ behind.laneFree (far1 (.red .add) (some 1)) (ln 0 0x100 false) = false := by
  decide +kernel

theorem test_meets_FencesAndCaches :
    meets st wv [(.fence pl ⟨.rel, .clu⟩, true), (.fence pl ⟨.rel, .grp⟩, true), (.fence pl ⟨.sc, .sys⟩, true), (.fence pl ⟨.sc, .wave⟩, true),
      (.fence pl ⟨.acq, .clu⟩, true), (.cctlInv pl none, true), (.cctlInv pl (some ⟨10, 12⟩), true), (.cctlClean pl ⟨10, 12⟩, true),
      (.cctlCleaninv pl ⟨10, 12⟩, true), (.pref pl ⟨true, 0, false, 0, .bcast 6, .v 8⟩, false)] ∧
    st.memHold wv = false ∧ wv.uGuard pl 100 = true ∧ st.snoop = [] ∧ st.flip = none ∧
    (∀ k ∈ [FenceKind.acq, .ar, .sc], (sta [ac 0 (.fence k) .none []]).ripe 0 (fun op => match op with | .fence _ => true | _ => false) =
        some (ac 0 (.fence k) .none []) ∧ (sta [ac 0 (.fence k) .none []]).fenceOk (ac 0 (.fence k) .none []) = true) ∧
    (∀ k ∈ [0, 1, 2], (sta [ac 0 (.cctl k) .none []]).ripe 0 (fun op => match op with | .cctl _ => true | _ => false) =
        some (ac 0 (.cctl k) .none [])) := ⟨meets_of (by decide +kernel), by decide +kernel⟩

/-- A PREF that names a queue port which its wave does not have. -/
def fewQ : Wave := { wv with kern := { wideKern with qn := 1 }, q := [⟨[], []⟩] }
def prefQ : Instr := .pref pl ⟨true, 0, false, 0, .q 3, .v 8⟩

theorem test_meets_FencesAndCaches_pref :
    (stw fewQ).wave? (stw fewQ).cur = some fewQ ∧ fewQ.life = .live ∧ prefQ.fits fewQ.allot = true ∧
    (queueMisuse fewQ prefQ 100).isSome = true := by decide +kernel

def qe (n : Nat) : QEntry := { acc := n, wide := false, vals := [], got := some 0, dropped := false, poison := none }
def wq : Wave := { wv with q := (wv.q.set 7 ⟨[qe 3, qe 4], []⟩) }

theorem test_meets_QueuePorts :
    meets (stw wq) wq [(.qstat pl 4 7, true), (.qdrop pl 7 0, true), (.qdrop pl 7 2, true)] ∧ wq.uGuard pl 100 = true ∧
    (wq.q.getD 7 ⟨[], []⟩).live.length = 2 ∧ ((wq.q.getD 7 ⟨[], []⟩).entries.map (·.acc)).Nodup ∧
    (sta [ac 0 .qstat .none []]).ripe 0 (· = .qstat) = some (ac 0 .qstat .none []) := ⟨meets_of (by decide +kernel), by decide +kernel⟩

def sp : SpMem := ⟨.b64, .weak, .wave, 0, 255, 4, .zero, .zero⟩
def sa : SpAtom := ⟨.cas, .b32, .rlx, .grp, 1, 4, .zero, .v 6⟩
def ldsAcc : Acc := ac 0 .spLoad (.v 4 false) [ln 0 0 false, ln 1 4 false, ln 16 8 false]

/-- The offset of the last eight bytes of the window, for LDS and STS. -/
theorem test_meets_Scratchpad :
    meets st wv [(.lds pl sp, false), (.sts pl sp, false), (.atoms pl sa, false), (.reds pl { sa with op := .add, d := 0, tag := .n32 }, false)] ∧
    spChk st (envOf st wv (.lds pl sp) false) true false 8 ((bitsOf (wv.active pl 100)).map fun t => (t, 2040)) = .ok ∧
    spChk st (envOf st wv (.sts pl sp) false) false true 8 ((bitsOf (wv.active pl 100)).map fun t => (t, 2040)) = .ok ∧
    spChk st (envOf st wv (.atoms pl sa) false) true true 4 ((bitsOf (wv.active pl 100)).map fun t => (t, 4)) = .ok ∧
    (sta [ldsAcc]).ripe 0 (fun op => op = .spLoad) = some ldsAcc ∧ (sta [ldsAcc]).orderOk ldsAcc = true ∧
    (sta [ldsAcc]).spInOrder ldsAcc = true ∧ (sta [ldsAcc]).pastPort ldsAcc = true ∧ st.group? ldsAcc.grp = some gr ∧
    (st.core 0).used.1 ≠ st.cyc 0 ∧ (∀ l ∈ ldsAcc.lanes, l.perf = false) ∧
    (∀ l ∈ ldsAcc.lanes, (sta [ldsAcc]).wordLocked ldsAcc.grp (some ldsAcc.id) (l.pa / 8) = false) ∧
    (∀ l ∈ ldsAcc.lanes, ∀ k ∈ ldsAcc.lanes, (ldsAcc.service l).word % 32 = (ldsAcc.service k).word % 32 → ldsAcc.service l = ldsAcc.service k) :=
  ⟨meets_of (by decide +kernel), by decide +kernel⟩

theorem test_meets_Scratchpad_stores : ∀ op ∈ [AccOp.spStore, .spAtom .add, .spRed .add, .blend .add true, .barinit],
    let a := { ldsAcc with op := op, dst := if op = .spAtom .add then .v 4 false else .none }
    (sta [a]).ripe 0 (fun x => x = op) = some a ∧ (sta [a]).orderOk a = true ∧ (sta [a]).spInOrder a = true ∧
    (sta [a]).pastPort a = true ∧ (∀ l ∈ a.lanes, l.perf = false) ∧
    (match a.dst with | .s _ _ => false | _ => true) = true := by decide +kernel

theorem test_meets_BarrierIssue :
    meets st wv [(.barinit pl ⟨true, 255, 6, 7⟩, false), (.btest pl ⟨2, 20⟩, false), (.arrive pl ⟨false, 2, 1, 20, 6, 0⟩, false),
      (.arrive pl ⟨true, 2, 0, 20, 6, 7⟩, false)] ∧
    wv.uGuard pl 100 = true ∧ st.memHold wv = false ∧ wv.flagsZero = true ∧
    8 * 255 + 8 = (envOf st wv (.barinit pl ⟨true, 255, 6, 7⟩) false).winSize := ⟨meets_of (by decide +kernel), by decide +kernel⟩

/-- The first, the last and one too many of two expected arrivals. -/
def barrier (exp cnt : Nat) : Group := { gr with window := winSet [] 0 (leBytes 8 (exp * 65536 + cnt)) }
def arr : Acc := { ac 0 .arrive (.s 4 false) [{ ln 0 0 false with data := 1 }] with args := [0] }
def sb (g : Group) (w : Wave) (l : List Acc) : State := { st with groups := [g], waves := [w], accs := l }
def wa : Wave := { wv with wait := .arrive 0 }

theorem test_meets_BarrierArrivals :
    (0 < 2 ^ 16 ∧ bits (0x20000#64) 30 16 ≠ 0 ∧ bits (0x20002#64) 30 16 ≠ 0 ∧ bits (0x20002#64) 14 0 ≤ bits (0x20002#64) 30 16 ∧ bits (0x20001#64) 14 0 + 1 = bits (0x20001#64) 30 16 ∧
      bits (0x20000#64) 14 0 + 1 < bits (0x20000#64) 30 16) ∧
    (∀ g ∈ [barrier 2 0, barrier 2 1, barrier 0 0], (sb g wa [arr]).ripe 0 (· = .arrive) = some arr ∧
      (sb g wa [arr]).saving 0 = false ∧ (sb g wa [arr]).parked wa = false ∧ (sb g wa [arr]).switchDue 0 = false ∧
      ({ sb g wa [arr] with events := [.instr (.save 0 0)] } : State).switchDue 0 = true ∧ (sb g wa [arr]).orderOk arr = true ∧ (sb g wa [arr]).group? arr.grp = some g ∧ (sb g wa [arr]).waveUid? 0 = some wa ∧
      (sb g wa [arr]).bankFree 0 (arr.service { ln 0 0 false with data := 1 }) = true) ∧
    (arrival (BitVec.ofNat 64 ((barrier 2 0).rdNat 0 8)) 1 0 0).isSome = true ∧
    (arrival (BitVec.ofNat 64 ((barrier 2 1).rdNat 0 8)) 1 0 0).isSome = true ∧
    arrival (BitVec.ofNat 64 ((barrier 0 0).rdNat 0 8)) 1 0 0 = none := by decide +kernel

/-- An arrival under way in a partition that is saved, and one of a parked wave. -/
theorem test_meets_BarrierArrivals_held :
    let s1 : State := { sb (barrier 2 0) wa [arr] with parts := [{ Part.reset with run := .save 0 false 1 0 }] }
    let w1 : Wave := { wa with lmiss := [(1, ⟨0x44, .read, 1, 4, none⟩)] }
    s1.ripe 0 (· = .arrive) = some arr ∧ s1.waveUid? 0 = some wa ∧ s1.saving 0 = true ∧
    (sb (barrier 2 0) w1 [arr]).ripe 0 (· = .arrive) = some arr ∧ (sb (barrier 2 0) w1 [arr]).waveUid? 0 = some w1 ∧
    (sb (barrier 2 0) w1 [arr]).parked w1 = true := by decide +kernel

def wb (d : Option Nat) : Wave := { wv with wait := .bar 3 0 (d.map (BitVec.ofNat 64)) 15 }
def phase1 : Group := { gr with window := winSet [] 0 (leBytes 8 0x0001000000010000) }

/-- A word whose phase has passed and one whose phase has not, with no deadline, one that has come and one that has not. -/
theorem test_meets_BarrierWaits :
    (∀ g ∈ [gr, phase1], ∀ d ∈ [none, some 0, some 1], (sb g (wb d) []).wave? wv.id = some (wb d) ∧
      (sb g (wb d) []).saving 0 = false ∧ (sb g (wb d) []).parked (wb d) = false ∧
      (sb g (wb d) []).wordLocked wv.grp none 0 = false ∧ (sb g (wb d) []).ownPending (wb d) true 0 = false) ∧
    phaseOf ((sb phase1 (wb none) []).barWord ⟨0, 0, 0⟩ 0) ≠ bits (0#32) 31 16 ∧
    phaseOf ((sb gr (wb none) []).barWord ⟨0, 0, 0⟩ 0) = bits (0#32) 31 16 ∧ (0 : W64) ≤ st.timebase ∧ st.timebase < 1 ∧
    st.memHold wv = false ∧ 8 * bits (0#32) 15 0 + 8 ≤ (envOf st wv (.bwait pl ⟨15, 2, 20⟩) false).winSize := by decide +kernel

def btestAcc : Acc := { ac 0 .btest (.p 3) [ln 0 0 false] with args := [0] }

theorem test_meets_BarrierWaits_issue :
    meets st wv [(.bwait pl ⟨0, 2, 20⟩, false), (.bwait pl ⟨15, 2, 20⟩, false)] ∧
    meets (sb phase1 wv []) wv [(.bwait pl ⟨15, 2, 20⟩, false)] ∧
    (∀ g ∈ [gr, phase1], (sb g wv [btestAcc]).ripe 0 (· = .btest) = some btestAcc ∧ (sb g wv [btestAcc]).orderOk btestAcc = true ∧
      (sb g wv [btestAcc]).waveUid? 0 = some wv ∧ (sb g wv [btestAcc]).group? btestAcc.grp = some g ∧
      (sb g wv [btestAcc]).bankFree 0 (btestAcc.service (ln 0 0 false)) = true) :=
  ⟨meets_of (by decide +kernel), meets_of (by decide +kernel), by decide +kernel⟩

def wo (spd : Bool) (c : Cond) : WaitaOp := ⟨c, spd, 4, .grp, true, .n32, 3, 10, 12⟩
def wt (spd : Bool) (c : Cond) (d : Option Nat) (again : Nat) : Wave :=
  { wv with wait := .addr (wo spd c) 0 (some 0x100) 0 (d.map (BitVec.ofNat 64)) 15 again }

theorem test_meets_AddressWaits :
    (∀ b ∈ [false, true], ∀ c ∈ [Cond.eq, .ne], ∀ d ∈ [none, some 0, some 1], ∀ n ∈ [100, 101],
      (stw (wt b c d n)).wave? wv.id = some (wt b c d n) ∧ (stw (wt b c d n)).saving 0 = false ∧
      (stw (wt b c d n)).waitaRead (wt b c d n) (wo b c) 0x100 = some 0 ∧ st.poisoned 0x100 = false ∧
      (stw (wt b c d n)).notifies (wo b c) (some 0x100) = true) ∧
    waitaCond (wo true .eq) 0 0 = true ∧ waitaCond (wo true .ne) 0 0 = false ∧ 100 ≤ st.cyc 0 := by decide +kernel

theorem test_meets_AddressWaits_issue :
    meets st wv [(.waita pl (wo true .eq), false), (.waita pl (wo true .ne), false)] ∧ (wo true .eq).spd = true ∧
    wv.reissue = none ∧ wv.uGuard pl 100 = true ∧ st.memHold wv = false ∧
    0 + sizeOf' .n32 ≤ (envOf st wv (.waita pl (wo true .eq)) false).winSize ∧
    st.watchChk (envOf st wv (.waita pl (wo true .eq)) false) true false true 4 [(0, 0)] .ok = .ok ∧
    st.waitaRead wv (wo true .eq) 0 = some 0x10000 ∧
    waitaCond (wo true .eq) 0x10000 (waitaVal (envOf st wv (.waita pl (wo true .eq)) false) (wo true .eq)) = false ∧
    waitaCond (wo true .ne) 0x10000 (waitaVal (envOf st wv (.waita pl (wo true .ne)) false) (wo true .ne)) = true :=
  ⟨meets_of (by decide +kernel), by decide +kernel⟩

/-- A WAITA of memory: its page is mapped, and no watchpoint meets it. -/
theorem test_meets_AddressWaits_memory :
    meets sm wv [(.waita pl (wo false .eq), false)] ∧ wv.reissue = none ∧ sm.memHold wv = false ∧ sm.poisoned 0 = false ∧
    pair64 (wv.rs 100 10) (wv.rs 100 11) = 0 ∧ found (sm.xlate (some 0) 0 .read 4 [(0, 0)]) = true ∧
    sm.watchChk (envOf sm wv (.waita pl (wo false .eq)) false) true false false 4 [(0, 0)] .ok = .ok ∧
    sm.waitaRead wv (wo false .eq) 0 = some 0 := ⟨meets_of (by decide +kernel), by decide +kernel⟩

def ge (c : GCmd) (started : Bool) : GEntry :=
  { id := 0, cmd := c, sf := 15, started := started, chain := none, after := [], rel := [], regs := [], pages := [], sat := false,
    done := 0, lock := [], cls := 0 }

def tile (q : List GEntry) : Tile :=
  { fp := 1, nacc := 4, accs := [], regs := [], queue := q, owner := some 0, ann := false, annAt := 0, annAge := 0, runAt := 0, inj := none,
    staged := [], flight := [], stopAt := none, fault := false, seq := 0, miss := [] }

def gt (t : Tile) : Group := { gr with tile := some t }
def stt (t : Tile) : State := { sm with groups := [gt t] }

def tm : TmmaOp := ⟨.b1x1, false, false, .a36, .bf16, true, .dev, 12, 4, 6⟩
def td (spd : Bool) : TdrainOp := ⟨spd, true, .b1x1, .rne, .grp, true, .a36, .f32, 8, 15⟩
def wk : Wave := { wv with s := [(12, 16)] }

theorem test_meets_GridCommands :
    let t := tile []
    let s : State := { stt t with waves := [wk] }
    meets s wk [(.tmma pl tm, true), (.tzero pl 15, true), (.tdrainSt pl (td true), true), (.tdrainAddst pl (td false), true),
      (.gprog pl ⟨9, .rd 6⟩, true), (.gprog pl ⟨7, .wr 6⟩, true), (.unlink pl, true)] ∧
    s.group? wk.grp = some (gt t) ∧ (gt t).tile = some t ∧ t.owner = some wk.uid ∧ t.queue.length < 4 ∧ wk.uGuard pl 100 = true ∧
    s.memHold wk = false ∧ tmmaBad t.nacc tm 16 0 0 = [] ∧ (15#4).toNat < 2 ^ t.nacc ∧ tdrainBad t (td true) 0 0 gr.size = [] ∧
    tdrainBad t (td false) 0 0 gr.size = [] ∧ s.chainDue wk = false := ⟨meets_of (by decide +kernel), by decide +kernel⟩

def freeTile : Tile := { tile [] with owner := none }
def drainingTile : Tile := { freeTile with flight := [⟨0, 50, []⟩] }
def wl : Wave := { wv with wait := .link 15 99 }

/-- LINK of a free tile whose lanes are free, and of one with a slab still in flight. -/
theorem test_meets_GridSequencer_link :
    meets (stt freeTile) wv [(.link pl, true)] ∧ meets (stt drainingTile) wv [(.link pl, true)] ∧ wv.uGuard pl 100 = true ∧
    (gt freeTile).covers 1 0 0 = true ∧ (stt freeTile).group? wv.grp = some (gt freeTile) ∧ (stt freeTile).saving 0 = false ∧
    freeTile.running = false ∧ drainingTile.running = true ∧ (stt freeTile).lanesFree (gt freeTile) 1 = true ∧
    (stt freeTile).arraysFree (gt freeTile) 1 = true ∧ (stt freeTile).footSettled (gt freeTile) 1 = true ∧
    (∀ x ∈ (stt freeTile).onFootprint (gt freeTile) 1, x.uid = wv.uid ∨ x.tprio ≤ wv.tprio) ∧
    ({ stt freeTile with waves := [wl] } : State).wave? wl.id = some wl ∧
    ({ stt freeTile with waves := [wl] } : State).outranked (gt freeTile) 1 0 0 = false :=
  ⟨meets_of (by decide +kernel), meets_of (by decide +kernel), by decide +kernel⟩

/-- A command at the head of the queue of a tile that its wave owns. -/
theorem test_meets_GridSequencer_head : ∀ c ∈ [GCmd.gwr 7 5, .grd 9 6, .unlink, .tzero 0, .tzero 8],
    let t := tile [ge c false]
    let s := stt t
    s.tile? ⟨0, 0, 0⟩ = some (gt t, t) ∧ (gt t).id = ⟨0, 0, 0⟩ ∧ t.queue = [ge c false] ∧ t.seq ≤ s.cyc (gt t).core ∧ s.saving 0 = false ∧
    t.owner = some 0 ∧ s.afterDone (ge c false).after = true ∧ Sparse.wf t.accs = true ∧ s.waveUid? 0 = some wv ∧ wv.life = .live ∧
    s.writeFree 0 wv.id false true = true := by
  decide +kernel

def tmTile (k : W32) : Tile := tile [ge (.tmma { tm with acq := false, sco := .wave } k 0 0) true]

/-- A slab just after the least distance of R282, and one with no slab before it. -/
theorem test_meets_GridSlabs_inject : ∀ i ∈ [none, some 99],
    let t : Tile := { tmTile 16 with inj := i }
    let s := stt t
    let rs := slabRanges { tm with acq := false, sco := .wave } 16 0 0 [] 0 4 4
    s.tile? ⟨0, 0, 0⟩ = some (gt t, t) ∧ t.tmma?.isSome = true ∧ t.owner.isSome = true ∧ s.saving 0 = false ∧ t.ann = false ∧
    t.stopAt = none ∧ t.runAt < s.cyc 0 ∧ t.staged = [] ∧ s.poison = [] ∧ s.snoop = [] ∧
    validOf 0 (gridN 1 * (Blk.dims .b1x1).1) (gridN 1 * (Blk.dims .b1x1).2) = (4, 4) ∧
    t.nextStep < stepsOf { tm with acq := false, sco := .wave } 16 ∧ (∀ r ∈ rs, r.2 < 2 ^ 51) ∧
    s.engXlate (some 0) 0 .read 4 (rangePages rs) t.miss = .ok ∧ i.all (fun x => decide (x + 1 ≤ s.cyc 0)) = true := by
  decide +kernel

/-- The slab of a killed tile, one that is not the last of its TMMA, and the last one. -/
theorem test_meets_GridSlabs_boundary : ∀ x ∈ [(freeTile, 0), (tmTile 16, 0), (tmTile 16, 1)],
    let t : Tile := { x.1 with flight := [⟨x.2, 99, [(0, 0, .fin 5)]⟩, ⟨x.2 + 1, 120, []⟩] }
    (stt t).tile? ⟨0, 0, 0⟩ = some (gt t, t) ∧ 99 < (stt t).cyc 0 ∧ (t.tmma?.isSome = true ∨ t.tmma? = none) ∧
    stepsOf { tm with acq := false, sco := .wave } 16 = 2 := by decide +kernel

/-- A wave of a higher priority that has issued in this cycle, and one that has waited 4,096 cycles. -/
def rival : Wave := { Wave.fresh 1 ⟨0, 0, 1⟩ ⟨0, 0, 0⟩ 0 wideKern 9 0 with last := 1000, prev := some 1000, linkwait := 4096 }
def late (t : Tile) (ws : List Wave) : State :=
  { stt t with clusters := [{ Cluster.reset 0 with cyc := 1000 }], waves := wv :: ws }
def inFlight : Tile := { tile [] with flight := [⟨0, 50, []⟩] }
def stopping : Tile := { tile [] with stopAt := some 999 }
def annealed : Tile := { tile [] with ann := true, annAt := 744 }

theorem test_meets_TileEvents :
    (late inFlight [rival]).tile? ⟨0, 0, 0⟩ = some (gt inFlight, inFlight) ∧ (late inFlight [rival]).ownerWave inFlight = some wv ∧
    (late inFlight [rival]).tileFaulted (gt inFlight) inFlight = false ∧
    (late inFlight [rival]).outranked (gt inFlight) 1 0 0 = true ∧
    (late stopping []).tile? ⟨0, 0, 0⟩ = some (gt stopping, stopping) ∧ (late stopping []).ownerWave stopping = some wv ∧
    (late stopping []).tileFaulted (gt stopping) stopping = false ∧ stopping.draining = false ∧ 999 < (late stopping []).cyc 0 ∧
    (late (tile []) [rival]).tile? ⟨0, 0, 0⟩ = some (gt (tile []), tile []) ∧ (late (tile []) [rival]).ownerWave (tile []) = some wv ∧
    (∃ w ∈ (late (tile []) [rival]).onFootprint (gt (tile [])) 1, some w.uid ≠ (tile []).owner ∧ 4096 ≤ w.linkwait) ∧
    (late annealed []).tile? ⟨0, 0, 0⟩ = some (gt annealed, annealed) ∧ (late annealed []).ownerWave annealed = some wv ∧
    (late annealed []).relinkable (gt annealed) annealed = true ∧
    (∀ x ∈ (late annealed []).groups, x.id = ⟨0, 0, 0⟩ ∨ x.tile = none) := by decide +kernel

/-- A TDRAIN of which one element is left, into memory and into a window whose bank is free or has served another word. -/
def oneLeft (add spd : Bool) (sco : Scope) : GEntry :=
  { ge (.tdrain add { td spd with sco := sco } 0 64) true with done := 15 }
def otherBank (s : State) (wd : Nat) : State :=
  { s with cores := [{ Core.reset 0 with used := (100, [⟨⟨0, 0, 1⟩, wd, 50, 0⟩]) }] }

theorem test_meets_TileEvents_drain : ∀ add ∈ [false, true], ∀ spd ∈ [false, true], ∀ sco ∈ [Scope.grp, .sys],
    let x := oneLeft add spd sco
    let t := tile [x]
    let s := stt t
    let els := (drainElems t { td spd with sco := sco } 0 64).drop x.done
    s.tile? ⟨0, 0, 0⟩ = some (gt t, t) ∧ t.seq ≤ s.cyc 0 ∧ s.snoop = [] ∧ s.poison = [] ∧ Memory.wf s.mem = true ∧
    (if scopeFar sco then s.afterDone [] else s.nearDone []) = true ∧ (∀ y ∈ t.queue, y.id = x.id ∨ y.lock = []) ∧ (s.core 0).used.1 ≠ s.cyc 0 ∧ els.length = 1 ∧
    (els.map fun e => e.2.2 / 8 % 32).Nodup ∧
    (els.all fun e => !(otherBank s (e.2.2 / 8)).bankFree 0 ⟨gr.id, e.2.2 / 8, x.id, x.done⟩) = true := by
  decide +kernel

/-- A TMMA whose operands lie past the top of the space, or on a page of which a reply has failed. -/
def tmAt (a : W64) : Tile := tile [ge (.tmma { tm with acq := false, sco := .wave } 16 a 0) true]
def failed : Tile := { tmAt 0 with miss := [⟨0x44, .read, 1, 4, some (.fail 14)⟩] }

theorem test_meets_TileEvents_stop : ∀ x ∈ [(tmAt 0x7FFFFFFFFFFF8, true), (failed, false)],
    let t := x.1
    let s := stt t
    let a : W64 := if x.2 then 0x7FFFFFFFFFFF8 else 0
    let rs := slabRanges { tm with acq := false, sco := .wave } 16 a 0 [] t.nextStep 4 4
    s.tile? ⟨0, 0, 0⟩ = some (gt t, t) ∧ t.tmma?.isSome = true ∧ t.owner = some 0 ∧ s.waveUid? 0 = some wv ∧ wv.life = .live ∧
    s.saving 0 = false ∧ t.flight = [] ∧ t.staged = [] ∧ t.nextStep < stepsOf { tm with acq := false, sco := .wave } 16 ∧
    (∀ y ∈ t.queue, y.sat = false) ∧ (rs.find? fun r => 2 ^ 51 ≤ r.2).isSome = x.2 ∧
    (match s.engXlate (some 0) 0 .read 4 (rangePages rs) t.miss with | .bad c va => x.2 || (c == 14 && va == 0x44) | _ => x.2) = true := by
  decide +kernel

/-! #### XVI -/

/-- The word of VADD v4, v4, v6 in v30–v32 of thread 0. -/
def vaddWord : BitVec 96 := 0x040000000008000301008030#96
def wx : Wave := { wv with v := [(1920, 0x01008030), (1984, 0x00080003), (2048, 0x04000000)] }
def xv (n : Nat) : Wave :=
  { wx with xvi := some ⟨[(xviKey vaddWord, 1), (xviKey vaddWord + 0x2000, 2)], n, 0, 15, 100, 12⟩, pathidx := BitVec.ofNat 16 n }

theorem next_of {i : Instr} {s : State} {p : State → Bool}
    (h : (match exec i s with | .next t => p t | _ => false) = true) : ∃ t, exec i s = .next t ∧ p t = true := by
  cases hx : exec i s <;> simp_all

theorem test_meets_XviExecution :
    [0, 1, 63].Pairwise (· < ·) ∧ (∀ t ∈ [0, 1, 63], t < 64) ∧
    meets st wv [(.xvi pl 8 30, false)] ∧ meets (stw wx) wx [(.xvi pl 8 30, false)] ∧ wv.handler = .none ∧
    (xviGroup wx.allot (fun t => wx.rv 100 32 t ++ (wx.rv 100 31 t ++ wx.rv 100 30 t)) (bitsOf (wx.active pl 100))).1.length = 1 ∧
    (xviGroup wv.allot (fun t => wv.rv 100 32 t ++ (wv.rv 100 31 t ++ wv.rv 100 30 t)) (bitsOf (wv.active pl 100))).1 = [] :=
  ⟨by decide, by decide, meets_of (by decide +kernel), meets_of (by decide +kernel), by decide +kernel⟩

theorem test_meets_XviExecution_path : ∀ n ∈ [0, 1],
    (stw (xv n)).wave? st.cur = some (xv n) ∧ (xv n).inPath = true ∧ 100 ≤ (stw (xv n)).cyc 0 ∧
    (match (stw (xv n)).head (xv n) with
      | .instr i => (match encode i with | some y => xviOpc (bits y 7 0) | none => false)
      | _ => false) = true := by decide +kernel

/-- Both paths of an XVI issue a VADD, which only sends effects. -/
theorem test_meets_XviPathAdds : ∀ n ∈ [0, 1],
    (match (stw (xv n)).head (xv n) with
      | .instr (.vadd h o) =>
        !o.u && issuesB ((stw (xv n)).modWave ⟨0, 0, 0⟩ fun y => { y.atPath with prev := none }) { (xv n).atPath with prev := none } (.vadd h o) false
      | _ => false) = true := by decide +kernel

/-- What the second path of that XVI leaves: the sums on their way, the XVI ended, and the wave at its return PC. -/
theorem test_xvi_last_path : (match exec .xviPath (stw (xv 1)) with
    | .next t => (match t.wave? ⟨0, 0, 0⟩ with
      | some w => decide (w.xvi = none ∧ w.pathidx = 0xFFFF ∧ w.pc = 12 ∧ w.prev = some 103 ∧ w.exec = wv.exec) &&
          w.pend.any fun p => p.due = 107 && (match p.put with | .v 5 xs => xs.map (·.1) = [1] | _ => false)
      | none => false)
    | _ => false) = true := by decide +kernel

/-! #### Rays, raster and textures -/

/-- Two threads, and the zero header at address 0; a texture descriptor of one texel; and a bad header. -/
def w2 : Wave := { wv with exec := 3 }
def s2 : State := { sm with waves := [w2] }
def sx : State := { s2 with mem := [(8, 1), (10, 1)] }
def badHdr : State := { s2 with mem := [(0, 1)] }

def rbo : RboxOp := ⟨4, 6, .v 30, 10⟩
def rto : RtriOp := ⟨6, .v 60, 10⟩
def txo : TexOp := ⟨.bilin, 4, .v 8, .v 9, 10, 12⟩
def tqo : TexqOp := ⟨4, .v 8, .v 9, 10⟩
def blo : BlendOpn := ⟨.over, true, .rlx, .grp, 1, .v 4, .v 6⟩
def act2 : List Nat := bitsOf (w2.active pl 100)
def raysOf (f : RayHdr → Nat → List W64) : Reads := fun bs =>
  if (rayHdr bs).bad then [] else act2.flatMap fun t => (f (rayHdr bs) t).map fun va => (t, va)

theorem test_meets_RayCommands :
    meets s2 w2 [(.rbox pl rbo, false), (.rtri pl rto, false), (.rhint pl ⟨4, 6, 10⟩, false), (.rhset pl ⟨6, 10⟩, false),
      (.tex pl txo, false), (.texq pl tqo, false), (.rast pl ⟨4, 20, 30⟩, false), (.blend pl blo, false)] ∧
    meets sx w2 [(.tex pl txo, false)] ∧ meets badHdr w2 [(.rbox pl rbo, false)] ∧ meets st wv [(.rast off ⟨4, 20, 30⟩, false)] :=
  ⟨meets_of (by decide +kernel), meets_of (by decide +kernel), meets_of (by decide +kernel), meets_of (by decide +kernel)⟩

theorem test_meets_RayCommands_headers : ∀ s ∈ [s2, badHdr],
    let e (i : Instr) := envOf s w2 i false
    (rayHdr (s.rdBytes 0 32)).bad = (s.mem.length = 1) ∧
    blockChk s (e (.rbox pl rbo)) act2 ((e (.rbox pl rbo)).srPair 10) 8
      (raysOf fun hd t => words8 (hd.nodes + 256 * ((e (.rbox pl rbo)).v32 1 rbo.b t).toNat) 28) = .ok ∧
    blockChk s (e (.rtri pl rto)) act2 ((e (.rtri pl rto)).srPair 10) 8
      (raysOf fun hd l => (leafTris hd ((e (.rtri pl rto)).v32 1 rto.b l)).flatMap fun i => words8 (hd.tris + 48 * i) 6) = .ok ∧
    blockChk s (e (.rhint pl ⟨4, 6, 10⟩)) act2 ((e (.rhint pl ⟨4, 6, 10⟩)).srPair 10) 8 (fun _ => []) = .ok ∧
    blockChk s (e (.rhset pl ⟨6, 10⟩)) act2 ((e (.rhset pl ⟨6, 10⟩)).srPair 10) 8 (fun _ => []) = .ok := by decide +kernel

theorem test_meets_RayCommands_textures : ∀ s ∈ [s2, sx],
    let e := envOf s w2 (.tex pl txo) false
    (texDesc (s.rdBytes 0 32)).bad = (s.mem = []) ∧
    blockChk s e act2 (e.srPair 10) 4 (fun bs => if (texDesc bs).bad then [] else act2.flatMap fun t =>
      (texTexels (texDesc bs) txo.mode (e.v32 0 txo.a t) (e.v32 1 txo.b t) (e.sr txo.sd) t).flatMap fun y =>
        (List.range (texelSize (texDesc bs).fmt / 4)).map fun i => (t, BitVec.ofNat 64 (y.1 + 4 * i))) = .ok ∧
    blockChk s (envOf s w2 (.texq pl tqo) false) act2 ((envOf s w2 (.texq pl tqo) false).srPair 10) 4 (fun _ => []) = .ok ∧
    spChk s (envOf s w2 (.blend pl blo) false) false true 8
      (act2.map fun t => (t, ((envOf s w2 (.blend pl blo) false).v32 0 blo.a t).toNat + 8)) = .ok ∧
    act2 ≠ [] ∧ bitsOf (wv.active off 100) = [] ∧ 0xFF00FF80 < 2 ^ 32 := by decide +kernel

/-- A ray along the x axis, with a hit and its leaf; and a ray operation of one thread that has read its header. -/
def ray1 : List W32 := [0, 0, 0, 0x3F800000, 0, 0, 0, 0, 7, 0, 0, 0x20, 0, 0x80000005, 0, 0]
def missed : List W32 := [0, 0, 0, 0x3F800000, 0, 0, 0, 0, 7, 0, 0, 0, 0, 0x80000005, 0, 0]
def rayAcc (op : AccOp) (r : List W32) (hdr : Nat) : Acc :=
  { ac 0 op (.v 4 true) (hdrLanes 0 0 (leBytes 32 hdr) false) with args := [0, 1, 0] ++ r.map (·.zeroExtend 64) }
def stc (l : List Acc) : State := { sta l with parts := [{ Part.reset with force := { PDesc.reset with band := 0 } }] }

theorem test_meets_RayResults :
    (∀ op ∈ [AccOp.rast, .rhint, .rhset, .tex, .texq, .rbox, .rtri], ∀ told ∈ [false, true], ∀ n ∈ [0, 1],
        ∀ hdr ∈ [0, 1, 256 ^ 8 + 256 ^ 10],
      let a := { rayAcc op ray1 hdr with told := told, served := n }
      (stc [a]).ripe 0 AccOp.ray = some a ∧ a.performed = true ∧ a.poisoned = none ∧ (stc [a]).discarded a = false ∧
      a.tableThreads.length = 1 ∧ (n = 0 → a.tableThreads.drop n = [(1, 0, ray1)]) ∧ (texDesc a.head).bad = decide (hdr < 256 ^ 8) ∧
      (hdr < 256 ^ 8 → (rayHdr a.head).bad = decide (hdr = 1))) ∧
    (∀ b ∈ [rayAcc .rbox ray1 0, ac 1 .tex .none []], 0 ≤ b.id) ∧
    (stc []).waveUid? (rayAcc .rbox ray1 0).uid = some wv ∧ (stc []).lanesHeld wv = false ∧ (stc []).culletUse = [] := by
  decide +kernel

/-- A key whose entry holds another tag, its own tag, or nothing; and one that this cycle has reached. -/
theorem test_meets_RayResults_table :
    let hd := rayHdr (List.replicate 32 0)
    hd.bad = false ∧ (rayHdr (leBytes 32 1)).bad = true ∧ rayKey hd (List.replicate 16 0) = none ∧ (stc []).hasCullet = true ∧
    8 < (st.part 0).cs ∧
    (match (rayKey hd ray1).bind ((stc []).culletAt 0) with
      | some (i, t) => decide ((∃ u ∈ [(⟨i, none, false⟩ : CulletUse)], u.idx = i) ∧ (∀ u ∈ ([] : List CulletUse), u.idx ≠ i) ∧ t ≠ t + 1)
      | none => false) = true ∧
    (ray1.getD 11 0).getLsbD 5 = true ∧ (ray1.getD 13 0).getLsbD 31 = true ∧ (missed.getD 11 0).getLsbD 5 = false := by
  decide +kernel

/-! #### The copy engine -/

/-- A copy of 256 bytes from address 0 to 0x1000, or of one table entry's 4 bytes. -/
def cpo (f : CpyForm) (rel : Option Scope) (cw : Bool) : CpyOp := ⟨f, some .dev, rel, false, false, cw, false, 1, 20⟩
def wcp : Wave := { wv with s := [(22, 0x1000), (24, 256)], h := [(2, token 0 0 0 1), (3, token 0 3 0 1)] }
def cp (f : CpyForm) (cw : Bool) (prog : Nat) (st : CStat) (cancel : Bool) : Copy :=
  { num := 3, uid := 0, w := ⟨0, 0, 0⟩, grp := ⟨0, 0, 0⟩, o := cpo f (some .sys) cw, sf := 15,
    blk := [0, 0, 0x1000, 0, (if f = .gath then 1 else 256), 8, 9, 4, 0x2000] ++ List.replicate 13 0, after := [], rel := [], prog := prog,
    stat := st, cause := none, cancel := cancel, chained := none, cwDone := false, unit := none }
def stch (w : Wave) (c : Copy) : State :=
  { sm with waves := [w], cores := [{ Core.reset 0 with chan := { Chan.empty with
      slots := ⟨1, some c, 0⟩ :: List.replicate 31 ⟨0, none, 0⟩, running := [0] } }] }

theorem test_meets_CopyCommands :
    meets (stw wcp) wcp [(.cpy pl (cpo .lin none false), true), (.htest pl 4 (.h 3), true), (.hwait pl 4 (.h 3), true),
      (.htest pl 4 (.s 8), true), (.hwait pl 4 (.h 0), true), (.hcancel pl (.s 8), true)] ∧
    meets (stch wcp (cp .lin false 1 .outstanding false)) wcp [(.htest pl 4 (.h 2), true), (.hwait pl 4 (.h 2), true), (.hcancel pl (.h 2), true)] ∧
    meets (stch wcp (cp .lin false 2 .done false)) wcp [(.htest pl 4 (.h 2), true), (.hwait pl 4 (.h 2), true), (.hcancel pl (.h 2), true)] :=
  ⟨meets_of (by decide +kernel), meets_of (by decide +kernel), meets_of (by decide +kernel)⟩

theorem test_meets_CopyCommands_operands :
    st.cores[wcp.id.core]? = some (Core.reset 0) ∧ wcp.uGuard pl (st.cyc 0) = true ∧ (stw wcp).memHold wcp = false ∧
    (stw wcp).entryHolds wcp (.cpy pl (cpo .lin none false)) = [] ∧
    (let e := envOf (stw wcp) wcp (.cpy pl (cpo .lin none false)) true
     cpyBad (cpyCmd e pl (cpo .lin none false)) e.winSize ((stw wcp).ownTile wcp) (wordVal (.cpy pl (cpo .lin none false))) = []) ∧
    (stw wcp).resolve wcp (wcp.h.get 3) = .retired ∧ (stw wcp).resolve wcp (wcp.h.get 0) = .misuse ∧
    (stw wcp).resolve wcp (wcp.rs 100 8) = .misuse ∧
    (∀ c ∈ [cp .lin false 1 .outstanding false, cp .lin false 2 .done false], (stch wcp c).resolve wcp (wcp.h.get 2) = .cmd 0 c) := by
  decide +kernel

/-- The words of a copy's unit, as the statement names them. -/
def offOf (c : Copy) : Nat := c.prog % c.perSpan * 128
def lenOf (c : Copy) : Nat := min 128 (c.spanLen - offOf c)
def srcOf (c : Copy) : Nat := c.src + if c.o.form = .gath then 0 else (c.spanAt (c.prog / c.perSpan)).1 + offOf c
def dstOf (c : Copy) : Nat := c.dst + (c.spanAt (c.prog / c.perSpan)).2 + if c.o.form = .gath then 0 else offOf c
def readsOf (c : Copy) : List Service := wordServices c.grp c.num (2 * c.prog) (srcOf c) (lenOf c)
def writesOf (c : Copy) (dst : Nat) : List Service := wordServices c.grp c.num (2 * c.prog + 1) dst (lenOf c)

theorem test_meets_CopyWork :
    (∀ f ∈ [CpyForm.lin, .gath], ∀ cw ∈ [false, true], ∀ n ∈ [0, 1, 2], ∀ cancel ∈ [false, true],
      let c := cp f cw n .outstanding cancel
      let s := stch wcp c
      (s.core 0).chan.current = some (0, c) ∧ s.saving 0 = false ∧ (∀ a ∈ s.accs, a.op ≠ .cancelled) ∧ (s.core 0).chan.fifo = [] ∧
      (s.core 0).chan.running.drop 1 = [] ∧ s.afterDone c.after = true ∧ s.poison = [] ∧ s.snoop = [] ∧
      s.copyXlate 0 0 false .read (c.b64 8 + 4 * (n / c.perSpan)) 4 = .ok ∧ c.src + c.spanLen ≤ 2 ^ 51 ∧
      s.rdNat (s.engPa (some 0) 0 .read (c.b64 8 + 4 * (n / c.perSpan))) 4 = 0 ∧
      s.copyXlate 0 0 false .read (srcOf c) (lenOf c) = .ok ∧ s.copyXlate 0 0 false .write (dstOf c) (lenOf c) = .ok ∧
      s.unitFree 0 false (readsOf c) = true ∧ (s.unitUse 0 false (readsOf c)).unitFree 0 false (writesOf c (dstOf c)) = true ∧
      (c.cwDone = true ∨ (if (c.o.rel.map scopeFar).getD true then s.afterDone c.rel else s.nearDone c.rel) = true ∧
        s.unitFree 0 cw (wordServices c.grp c.num (2 * c.prog) (c.b 5) 4) = true) ∧ c.chained = none ∧ c.unit = none) ∧
    (cp .lin false 1 .outstanding false).units = 2 ∧ (cp .gath true 0 .outstanding false).units = 1 := by decide +kernel

/-- A copy into the window whose unit has been read: its words not served in this cycle, and served. -/
def inner (u : Option (List Byte)) : Copy :=
  { cp .lin false 0 .outstanding false with o := { cpo .lin none false with dsp := true }, unit := u, blk := [0, 0, 0, 0, 256] ++ List.replicate 17 0 }
def served (s : State) (l : List Service) : State := { s with cores := s.cores.map fun x => { x with used := (100, l) } }
def taken : List Service := [⟨⟨0, 0, 1⟩, 0, 50, 0⟩]

theorem test_meets_CopyWork_unit :
    (let c := inner none
     let s := served (stch wcp c) taken
     (s.core 0).chan.current = some (0, c) ∧ s.unitFree 0 false (readsOf c) = true ∧ s.copyXlate 0 0 false .read (srcOf c) (lenOf c) = .ok ∧
     s.copyXlate 0 0 true .write (dstOf c) (lenOf c) = .ok ∧
     (s.unitUse 0 false (readsOf c)).unitFree 0 true (writesOf c (dstOf c)) = false) ∧
    (let bs : List Byte := List.replicate 128 7
     let c := inner (some bs)
     let s := stch wcp c
     (s.core 0).chan.current = some (0, c) ∧ c.prog < c.units ∧ c.unit = some bs ∧
     s.unitFree 0 true (wordServices c.grp c.num (2 * c.prog + 1) (c.dst + (c.spanAt (c.prog / c.perSpan)).2 + offOf c) bs.length) = true) := by
  decide +kernel

/-- A command that fails: a page of its source, of its index or of its destination whose reply has failed, a poisoned source,
and a gathered element past the top of the space. -/
def stcm (c : Copy) (k : AccKind) : State :=
  { stch wcp c with cores := (stch wcp c).cores.map fun x => { x with chan := { x.chan with miss := [⟨0x44, k, 1, 4, some (.fail 14)⟩] } } }
def isBad (x : EngX) : Bool := match x with | .bad _ _ => true | _ => false

theorem test_meets_CopyWork_fails :
    (∀ f ∈ [CpyForm.lin, .gath],
      let c := cp f false 0 .outstanding false
      let s := stcm c .read
      (s.core 0).chan.current = some (0, c) ∧ c.prog < c.units ∧ c.cancel = false ∧ c.unit = none ∧ s.afterDone c.after = true ∧
      isBad (s.copyXlate 0 0 false .read (c.b64 8) 4) = true ∧ isBad (s.copyXlate 0 0 false .read (srcOf c) (lenOf c)) = true) ∧
    (let c := cp .lin false 0 .outstanding false
     let s : State := { stch wcp c with poison := [0] }
     (s.copyLines 0 c.grp false .read (srcOf c) (lenOf c)).any s.poisoned = true ∧
     s.copyXlate 0 0 false .read (srcOf c) (lenOf c) = .ok ∧ s.copyXlate 0 0 false .write (dstOf c) (lenOf c) = .ok) ∧
    (let c : Copy := { cp .lin false 0 .outstanding false with o := { cpo .lin none false with ssp := true } }
     let s := stcm c .write
     s.copyXlate 0 0 true .read (srcOf c) (lenOf c) = .ok ∧ isBad (s.copyXlate 0 0 false .write (dstOf c) (lenOf c)) = true) ∧
    (let c0 := cp .gath false 0 .outstanding false
     let c : Copy := { c0 with blk := [0xFFFFFFFF, 0x7FFFF] ++ c0.blk.drop 2 }
     let s := stch wcp c
     c.src = 0x7FFFFFFFFFFFF ∧ s.copyXlate 0 0 false .read (c.b64 8) 4 = .ok ∧ 2 ^ 51 < c.src + c.spanLen) := by decide +kernel

def queued : State := { st with waves := [wcp], cores := [{ Core.reset 0 with chan := { Chan.empty with fifo := [cp .lin false 0 .outstanding false] } }] }

theorem test_meets_CopyWork_accept :
    (queued.core 0).chan.fifo = cp .lin false 0 .outstanding false :: [] ∧ (queued.core 0).chan.freeSlot.isSome = true ∧
    queued.saving 0 = false ∧ queued.waveUid? 0 = some wcp ∧ wcp.life = .live := by decide +kernel

def status (args : List W64) : Acc := { ac 0 .handle (.s 4 false) [] with ord := .acq, sco := .sys, args := args, puts := [.s 4 4] }
def whw : Wave := { wcp with wait := .handle 0 }
def stt3 (w : Wave) (a : Acc) (st : CStat) (run : PRun) : State :=
  { stch w (cp .lin false 1 st false) with accs := [a], parts := [{ Part.reset with run := run }] }

/-- A status taken at issue, or once the command has ended; the end of a command awaited; and its partition being saved. -/
theorem test_meets_CopyWork_status :
    (∀ w ∈ [wcp, whw], ∀ args ∈ [[], [(3 : W64)]], ∀ r ∈ [PRun.idle, .save 0 false 1 0],
      let s := stt3 w (status args) .done r
      s.ripe 0 (· = .handle) = some (status args) ∧ s.waveUid? 0 = some w ∧ s.saving 0 = decide (r ≠ .idle)) ∧
    whw.wait = .handle 0 ∧ (status []).dst = .s 4 false := by decide +kernel

/-- The end of a wait for a status that is taken, for one that is not, and in a partition that is saved. -/
theorem test_meets_CopyWork_wake : ∀ args ∈ [[], [(3 : W64)]], ∀ r ∈ [PRun.idle, .save 0 false 1 0],
    let s : State := { stt3 whw (status args) .done r with events := [.wake whw.id] }
    s.events = [.wake whw.id] ∧ s.wave? whw.id = some whw ∧ whw.wait = .handle 0 ∧ s.acc? 0 = some (status args) ∧
    s.saving whw.grp.part = decide (r ≠ .idle) := by decide +kernel

/-! #### Launches of the device -/

/-- A partition with cluster 0, a kernel descriptor at 0x2000, and a record of one group of it at 0x1000. -/
def pt0 : Part := { Part.reset with force := { PDesc.reset with clu := 1, band := 0 } }
def recMem : Memory :=
  [(0x1000, 1), (0x1001, 1), (0x1003, 5), (0x1009, 0x20), (0x1010, 1), (0x1014, 1), (0x1016, 1), (0x1022, 15), (0x2010, 4), (0x2011, 0x11)]
def sp0 : State := { sm with parts := [pt0], mem := recMem, groups := [], waves := [wv] }
def enq (va : Nat) : Acc := { ac 0 .launch (.s 4 true) [{ ln 0 va false with va := BitVec.ofNat 64 va }] with args := [BitVec.ofNat 64 va, 0] }

theorem test_meets_DeviceLaunches :
    meets sp0 wv [(.launchEnq pl 4 10, true), (.launchCancel pl .jtag 6, true), (.setpri pl true 6, true), (.setpri pl false 6, true)] ∧
    wv.uGuard pl 100 = true ∧ pair64 (wv.rs 100 10) (wv.rs 100 11) = 0 ∧ sp0.memHold wv = false ∧
    sp0.entryHolds wv (.launchEnq pl 4 10) = [] ∧ found (sp0.xlate (some 0) 0 .read 64 [(0, 0)]) = true :=
  ⟨meets_of (by decide +kernel), by decide +kernel⟩

/-- A good record, one with a fault in its body, and one that is none; the wave may wait for something meanwhile. -/
theorem test_meets_DeviceLaunches_records : ∀ va ∈ [0x1000, 0x2000, 0x3000], ∀ w ∈ [wv, { wv with wait := .sleep 5 }],
    let a := enq va
    let s := { sp0 with accs := [a], waves := [w], mem := recMem ++ [(0x3000, 1), (0x3001, 1)] }
    let b := s.rdBytes va 64
    let s1 := s.slcTouch (s.part 0).ways va false
    let u := if (recordCode b).isSome then s1 else s1.touchBody 0 [] b
    s.ripe 0 (· = .launch) = some a ∧ s.waveUid? 0 = some w ∧ w.life = .live ∧ w.launchMisses 0 = [] ∧ unsettled [] = false ∧
    s.saving 0 = false ∧ s.orderOk a = true ∧ s.snoopHeld va false = false ∧
    (match u.parseRecord 0 [] b with | .ok _ => va == 0x1000 | .code n => (va, n) == (0x2000, 1) || (va == 0x3000 && n != 1) | _ => false) = true := by
  decide +kernel

/-! #### Traps -/

/-- Outside a handler with a usable TVEC or none, and inside one. -/
def ptv (v : W64) (brk : W64) : Part := { Part.reset with tvec := v, dbgctl := brk }
def stv (w : Wave) (v brk : W64) : State := { stw w with parts := [ptv v brk] }
def wtrap : Wave := { wv with handler := .trap, tr := { wv.tr with cause := 16, tepc := 12, tpath := 0xFFFF } }
def wpoison : Wave := { wv with handler := .trap, tr := { wv.tr with cause := 13 } }

theorem test_meets_TrapEntry :
    (∀ w ∈ [wv, wtrap], ∀ v ∈ [0x100, 0, 2, 0x8000000000000],
      (stv w (BitVec.ofNat 64 v) 0).wave? w.id = some w ∧ (stv w (BitVec.ofNat 64 v) 0).group? w.grp = some gr ∧
      (stv w (BitVec.ofNat 64 v) 0).waveUid? w.uid = some w ∧ w.life = .live ∧
      ((stv w (BitVec.ofNat 64 v) 0).part 0).tvec = BitVec.ofNat 64 v) ∧
    (0x100 : W64) ≠ 0 ∧ (0x100 : W64).toNat % 4 = 0 ∧ (0x100 : W64).toNat < 2 ^ 51 ∧ wtrap.handler ≠ .none := by decide +kernel

theorem test_meets_TrapsAndBreaks :
    meets st wv [(.trap pl 5, true), (.trap off 5, true), (.dbgbrk pl 5, true), (.dbgbrk off 5, true)] ∧
    meets (stv wv 0 2) wv [(.dbgbrk pl 5, true)] ∧ meets (stw wtrap) wtrap [(.dbgbrk pl 5, true)] ∧
    wv.uGuard pl 100 = true ∧ wv.uGuard off 100 = false ∧ ((stv wv 0 2).part 0).dbgctl.getLsbD 1 = true ∧
    (st.part 0).dbgctl.getLsbD 1 = false ∧ wv.handler = .none ∧ wtrap.handler ≠ .none :=
  ⟨meets_of (by decide +kernel), meets_of (by decide +kernel), meets_of (by decide +kernel), by decide +kernel⟩

def fsv : FaultSave := { pc := 24, exec := 5, fmask := 4, i := .nop pl false, given := (0, []) }
def wfault : Wave := { wv with handler := .fault, fsave := some fsv }
def wflag : Wave := { wtrap with flags := [(0, 1)] }
def rets : List (Instr × Bool) := [(.trapret pl, true), (.faultretRetry pl, true), (.faultretSkip pl, true), (.faultretEmul pl 254, true)]

theorem test_meets_HandlerReturns :
    meets (stw wv) wv rets ∧ meets (stw wtrap) wtrap rets ∧ meets (stw wpoison) wpoison rets ∧ meets (stw wfault) wfault rets ∧
    meets (stw wflag) wflag rets ∧ wv.uGuard pl 100 = true ∧ wflag.flagsZero = false ∧ wtrap.flagsZero = true ∧
    wtrap.handler = .trap ∧ wtrap.tr.cause ≠ 13 ∧ wpoison.tr.cause = 13 ∧ (stw wpoison).group? wpoison.grp = some gr ∧
    wfault.handler = .fault ∧ wfault.fsave = some fsv :=
  ⟨meets_of (by decide +kernel), meets_of (by decide +kernel), meets_of (by decide +kernel), meets_of (by decide +kernel),
    meets_of (by decide +kernel), by decide +kernel⟩

/-- A step due, alone, and beside another trap. -/
def stepEv (stop : Option Nat) : Due := ⟨11, 0x100000000, stop, 0⟩
def wdue (l : List Due) (dbg : BitVec 3) : Wave := { wv with due := l, dbg := dbg }

theorem test_meets_TrapsAndBreaks_steps :
    meets (stw (wdue [] 1)) (wdue [] 1) [(.nop pl false, false), (.nop pl true, true)] ∧ wv.dstate = .run ∧
    (∀ w ∈ [wdue [stepEv none] 1, wdue [stepEv (some 1)] 3, wdue [⟨13, 5, none, 0⟩, stepEv none] 1], (stv w 0x100 0).wave? w.id = some w ∧
      w.xvi = none ∧ w.handler = .none ∧ tvecOk ((stv w 0x100 0).part w.grp.part).tvec = true) ∧
    (⟨13, 5, none, 0⟩ : Due).step = false ∧ (wdue [] 1).dbg.getLsbD 1 = false ∧ (wdue [] 3).dbg.getLsbD 1 = true := by
  refine ⟨meets_of (by decide +kernel), by decide +kernel⟩

/-- A watchpoint of reads at address 8, with either action; loads of that address, also under ONESHOT and in a handler. -/
def wpt (ctl : W64) : Watch := { ctl := ctl, addr := 8, len := 4 }
def swp (w : Wave) (ctl : W64) : State :=
  { sm with waves := [w], parts := [{ Part.reset with wps := wpt 0 :: wpt ctl :: List.replicate 6 (wpt 0) }] }

def watchMet (n : Nat) (w : Wave) : Bool :=
  let ctl : W64 := BitVec.ofNat 64 n
  let s := swp w ctl
  let e := envOf s w (.ldg pl (gl (.v 4))) false
  let xs := glAddrs e pl (gl (.v 4))
  issuesB s w (.ldg pl (gl (.v 4))) false && w.reissue.isNone && !s.memHold w && (addrChk 8 xs == .ok) &&
    found (s.xlate (some 0) 0 .read 8 xs) && xs[0]? == some (0, 8) && (wpt ctl).hits 0 true false false 8 8 &&
    !(wpt 0).hits 0 true false false 8 8 && ctl.getLsbD 6 == (n != 0x80) && ctl.getLsbD 7

theorem test_meets_TrapsAndBreaks_watch :
    watchMet 0x80 wv = true ∧ watchMet 0xC0 wv = true ∧ watchMet 0x80 { wv with dbg := 4 } = true ∧
    watchMet 0xC0 { wv with handler := .trap } = true ∧
    (∀ n ∈ [0x80, 0xC0], ((swp wv (BitVec.ofNat 64 n)).part 0).wps[1]? = some (wpt (BitVec.ofNat 64 n))) := by decide +kernel

/-- A watchpoint of arrivals on the barrier word at offset 8. -/
theorem test_meets_TrapsAndBreaks_barrier :
    let s := swp wv 0x98
    wv.handler = .none ∧ (s.part wv.grp.part).wps[1]? = some (wpt 0x98) ∧ (wpt 0x98).ctl.getLsbD 7 = true ∧
    bits (wpt 0x98).ctl 63 32 = 0 ∧ bits (wpt 0x98).ctl 5 3 ∈ [3, 4] ∧ (wpt 0x98).addr.toNat = 8 ∧
    (∀ j, j < 8 → j ≠ 1 → ((s.part wv.grp.part).wps.getD j (wpt 0x98)).ctl.getLsbD 7 = false) := by decide +kernel

/-! #### Translation -/

/-- A page table at 0x10000 whose first entry is a leaf, or empty; and an entry of the fault buffer for its first page. -/
def enPart : Part := { Part.reset with force := { PDesc.reset with clu := 1, root := 0x10001, band := 0xF00103F00 }, tvec := 0x100 }
def fbe (reqs : List (Requester × AccKind)) (r : Option WalkRes) : FbEntry := ⟨5, 0, 0x40, .read, reqs, r, false⟩
def ftab (m : Memory) (e : FbEntry) (w : Wave) : State := { stw w with mem := m, fb := [e], parts := [enPart] }
def leafMem : Memory := [(0x10000, 0x1F)]
def ask1 : List (Requester × AccKind) := [(.wave 0 ⟨0, 0, 0⟩, .read)]
def parked : Wave := { wv with miss := [⟨0x44, .read, 1, 4, none⟩] }

theorem test_meets_FaultHandling :
    (∀ m ∈ [leafMem, []], ∀ r ∈ [none, some (WalkRes.fault 4 1 false none)],
      let s := ftab m (fbe ask1 r) parked
      s.fb.find? (fun x => x.fbid = 5) = some (fbe ask1 r) ∧ s.snoop = [] ∧ s.walks = [] ∧ (∀ a ∈ s.accs, a.redo = false) ∧
      (walkFrom s 0x40 3 1 (s.part 0).ptroot).1 = (if m = [] then .fault 4 1 false none else .leaf 1 0 0x1F) ∧
      (r = none → 5 ∈ s.walking) ∧ s.waveUid? 0 = some parked ∧ s.wave? parked.id = some parked ∧ s.fbwait = [] ∧
      tvecOk (s.part 0).tvec = true ∧ (s.part 0).imaged = false) ∧
    allows 0x1F .read = true ∧ (WalkRes.fault 4 1 false none).meets .read = some (4, 1, false) ∧ ask1 ≠ [] ∧
    parked.life = .live ∧ parked.wait = .none ∧ parked.handler = .none ∧ pageOf (0x44 : W64) = pageOf 0x40 := by decide +kernel

/-- A walk after a RETRY; and one that vectors, of a wave whose load has missed on a page of the software fault handler. -/
def uhMem : Memory := [(0x10000, 0x20)]
def wuh : Wave := { parked with kern := { wideKern with fhnd := 0x200 }, missI := some (.ldg pl (gl (.v 4))) }

theorem test_meets_FaultHandling_acquire :
    let e := { fbe ask1 none with acq := true }
    let s := ftab leafMem e parked
    s.fb.find? (fun x => x.fbid = 5) = some e ∧ e.acq = true ∧ e.pending = none ∧ 5 ∈ s.walking ∧ s.snoop = [] ∧ s.walks = [] := by
  decide +kernel

theorem test_meets_FaultHandling_vector :
    let s := ftab uhMem (fbe ask1 none) wuh
    let r := (walkFrom s 0x40 3 1 (s.part 0).ptroot).1
    s.fb.find? (fun x => x.fbid = 5) = some (fbe ask1 none) ∧ 5 ∈ s.walking ∧ s.waveUid? 0 = some wuh ∧ s.wave? wuh.id = some wuh ∧
    wuh.life = .live ∧ wuh.handler = .none ∧ wuh.kern.fhnd ≠ 0 ∧ wuh.missI = some (.ldg pl (gl (.v 4))) ∧
    instrUhAble (.ldg pl (gl (.v 4))) = true ∧ wuh.miss = [⟨0x44, .read, 1, 4, none⟩] ∧
    (r.meets .read).any (fun x => x.2.2) = true ∧ s.fbwait = [] ∧ (s.part 0).imaged = false := by decide +kernel

def inval (busy : Bool) (ids : List Nat) : State :=
  { sta [ac 0 .load (.v 4 false) [ln 0 0x100 false]] with parts := [{ Part.reset with tlbbusy := busy, tlbwait := ids }] }

theorem test_meets_FaultHandling_invalidation : ∀ busy ∈ [false, true],
    (inval busy []).parts[0]? = some { Part.reset with tlbbusy := busy, tlbwait := [] } ∧ (inval busy []).afterDone [] = true ∧
    (inval busy [0]).parts[0]? = some { Part.reset with tlbbusy := busy, tlbwait := [0] } ∧ (inval busy [0]).afterDone [0] = false := by
  decide +kernel

theorem test_meets_FaultHandling_fetch :
    sm.wave? wv.id = some wv ∧ sm.fetch wv = .wait ∧ sm.snoop = [] ∧ sm.codePa 0 0 wv.pc = .inl 0 ∧ sm.codePa 0 0 (wv.pc + 11) = .inl 11 ∧
    (sm.ic.filter fun l => l.core = 0).length + 2 ≤ icSize ∧ sm.icLine 0 0 = none := by decide +kernel

/-! #### Launch queues and placement -/

/-- A queue of 64 slots at 0x3000 of a partition that is enabled. -/
def lq0 (tail : W32) (hold skip : Option Nat) : LQ := { LQ.reset with base := 0x3006, tail := tail, hold := hold, skip := skip }
def sq (m : Memory) (l : LQ) : State := { sm with mem := m, parts := [{ enPart with lqs := l :: List.replicate 7 LQ.reset }] }
def pktMem (bs : List (Nat × Byte)) : Memory := bs.map fun x => (0x3000 + x.1, x.2)
def pkt (bs : List (Nat × Byte)) (l : LQ) : List Byte := ((sq (pktMem bs) l).packet 0 0).getD []

theorem test_meets_QueueState :
    (∀ v ∈ [1, 64, 65], (sq [] (lq0 0 none none)).parts[0]? = some { enPart with lqs := lq0 0 none none :: List.replicate 7 LQ.reset } ∧
      (sq [] (lq0 0 none none)).active = some 0 ∧
      ((lq0 0 none none).tail - lo32 (BitVec.ofNat 64 v)).toNat ≥ 2 ^ 31 ∧
      (if v = 65 then ¬ (lo32 (BitVec.ofNat 64 v) - (lq0 0 none none).head).toNat ≤ 2 ^ (lq0 0 none none).szlog
       else (lo32 (BitVec.ofNat 64 v) - (lq0 0 none none).head).toNat ≤ 2 ^ (lq0 0 none none).szlog)) ∧
    ((lq0 1 none none).tail - lo32 0).toNat ≠ 0 ∧ ((lq0 1 none none).tail - lo32 0).toNat < 2 ^ 31 := by decide +kernel

/-- A FENCE that waits on the word at 0 for 0 or for 1, and a SIGNAL that writes there or adds. -/
def fence1 (n : Byte) : List (Nat × Byte) := (0, 3) :: (1, 4) :: (8, 1) :: if n = 0 then [] else [(24, n)]
def signal (add : Bool) : List (Nat × Byte) := (0, 4) :: (1, 1) :: if add then [(2, 4)] else []
def hasOk (r : Parsed Bool) (b : Bool) : Bool := match r with | .ok x => x == b | _ => false

/-- The machine once the counters of a FENCE packet have been read at their slices. -/
def touched (s : State) (b : List Byte) (n : Nat) : State :=
  (List.range n).foldl (fun s k => s.touchVa 0 (s.lq 0 0).miss (fld b (16 + 16 * k) 8) 8 true) s

theorem test_meets_QueueState_held :
    (∀ n ∈ [0, 1], let s := sq (pktMem (fence1 (BitVec.ofNat 8 n))) (lq0 4 (some 0) none)
      let b := pkt (fence1 (BitVec.ofNat 8 n)) (lq0 4 (some 0) none)
      let u := touched s b (fld b 8 1)
      s.packet 0 0 = some b ∧ (s.lq 0 0).hold.isSome ∧ fld b 0 1 = 3 ∧
      hasOk (u.fenceTest 0 (u.lq 0 0).miss b (List.range (fld b 8 1))) (n = 0) = true) ∧
    (∀ add ∈ [false, true], let s := sq (pktMem (signal add)) (lq0 1 (some 0) none)
      let b := pkt (signal add) (lq0 1 (some 0) none)
      s.packet 0 0 = some b ∧ fld b 0 1 = 4 ∧ (decide (fld b 2 1 / 4 % 2 = 1)) = add ∧ s.jobsDone 0 0 = true ∧ fld b 8 8 + 8 ≤ 2 ^ 51 ∧
      s.engXlate none 0 (if add then .atomic else .write) 8 (rangePages [(0, 7)]) (s.lq 0 0).miss = .ok ∧ s.snoop = [] ∧ s.poison = []) ∧
    ({ sq (pktMem (signal true)) (lq0 1 (some 0) none) with
        jobs := [⟨0, 0, some 0, 0, 0, none, 0, 0, false, false, 0, (0, 0, 0), .live, []⟩] } : State).jobsDone 0 0 = false := by decide +kernel

/-- Packets, good and bad, each with its type and the code of its header. -/
theorem test_meets_QueuePackets : ∀ x ∈ [([(1, 1)], 0), ([(1, 1), (8, 1)], 0), ([(0, 4), (1, 1)], 4), ([(0, 4), (1, 1), (24, 1)], 4),
      ([(0, 5), (1, 1)], 5), ([(0, 5), (1, 1), (24, 1)], 5), ([(0, 6), (1, 1)], 6), ([(0, 6), (1, 1), (8, 1)], 6),
      ([(0, 6), (1, 1), (8, 2)], 6), ([(0, 6), (1, 1), (8, 3)], 6), ([(0, 6), (1, 1), (9, 1)], 6), ([(0, 6), (1, 1), (16, 1)], 6),
      ([(0, 3), (1, 4)], 3), ([(0, 3), (1, 4), (8, 13)], 3), ([(0, 3), (1, 4), (8, 12)], 3), (fence1 0, 3), (fence1 1, 3)],
    let s := sq (pktMem x.1) (lq0 4 none none)
    let b := pkt x.1 (lq0 4 none none)
    s.packet 0 0 = some b ∧ (s.lq 0 0).hold = none ∧ fld b 0 1 = x.2 ∧ hdrCode b = none := by decide +kernel

/-- The counters of a FENCE at the head, reached and not. -/
theorem test_meets_QueuePackets_fence : ∀ n ∈ [0, 1],
    let s := sq (pktMem (fence1 (BitVec.ofNat 8 n))) (lq0 4 none none)
    let b := pkt (fence1 (BitVec.ofNat 8 n)) (lq0 4 none none)
    let u := touched (s.touchSlots 0 0) b 1
    hasOk (u.fenceTest 0 (u.lq 0 0).miss b (List.range 1)) (n = 0) = true := by decide +kernel

theorem test_meets_QueuePackets_bad : ∀ x ∈ [([(0, 7), (1, 1)], 7, 1), ([(1, 2)], 0, 1), ([(1, 1), (2, 1)], 0, 2)],
    let b := pkt x.1 (lq0 4 none none)
    fld b 0 1 = x.2.1 ∧ hdrCode b = some x.2.2 := by decide +kernel

/-- A LAUNCH of one group, a GRAPH of one launch, and a LAUNCH of no group. -/
def desc : List (Nat × Byte) := [(0x2010, 4), (0x2011, 0x11)]
def body (k : Nat) : List (Nat × Byte) := [(k + 9, 0x20), (k + 16, 1), (k + 20, 1), (k + 22, 1), (k + 34, 15)]
def launchMem : Memory := desc ++ [(0x3000, 1), (0x3001, 1)] ++ body 0x3000
def graphMem : Memory := desc ++ [(0x3000, 2), (0x3001, 1), (0x3009, 0x40), (0x3010, 1)] ++ body 0x4000
def emptyMem : Memory := [(0x3000, 1), (0x3001, 1)]

theorem test_meets_QueuePackets_launches : ∀ x ∈ [(launchMem, 1, 0), (graphMem, 2, 0), (emptyMem, 1, 6)], ∀ skip ∈ [none, some 7],
    let s := sq x.1 (lq0 1 none skip)
    let b := (s.packet 0 0).getD []
    (s.packet 0 0).isSome = true ∧ (s.lq 0 0).hold = none ∧ fld b 0 1 = x.2.1 ∧ hdrCode b = none ∧ (s.lq 0 0).skip = skip ∧
    let s1 := s.touchSlots 0 0
    let v := s1.touchUnits 0 (s1.lq 0 0).miss b
    (v.lq 0 0).job = none ∧
    (match v.parseUnits 0 (v.lq 0 0).miss b with
      | .ok bs => x.2.2 == 0 && bs.length == 1 && !v.gangBad 0 bs
      | .code n => n == x.2.2
      | _ => false) = true := by decide +kernel

/-- A launch of one group of one wave, in the state that a field says. -/
def smallKern : Kern := { wideKern with vregs := 8, preds := 16, sregs := 16, scr := 0, qn := 0 }
def l0 : Launch :=
  { part := 0, lid := 0, jid := 0, gi := 0, idx := 0, tag := 0, kern := smallKern, gx := 1, gy := 1, gz := 1, args := [], cmask := 15,
    lcnt := 0, preds := [], next := 0, redo := [], retired := 0, since := some 0, offer := [], stat := .live, completed := false, wait := [] }
def j0 : Job := ⟨0, 0, none, 0, 5, some 0, 9, 0, false, true, 1, (0, 0, 0), .live, []⟩
def g0 : Graph := ⟨0, 0, 0, 0, 0, 1, .live, false, []⟩
def spl (l : Launch) (g : Graph) (j : Job) : State :=
  { sm with waves := [], groups := [], launches := [l], graphs := [g], jobs := [j], parts := [enPart], timebase := 1000000 }
def idle : Group := { gr with exited := 1 }

theorem test_meets_Placements :
    let s := spl l0 g0 j0
    s.parts[0]? = some enPart ∧ enPart.en = true ∧ enPart.held = none ∧ enPart.run = .idle ∧ enPart.placedAt ≠ some s.cycle ∧
    s.ranked 0 = [l0] ∧ l0.kern.gang = false ∧ l0.nextGroup = some (0, 0) ∧
    (s.pick l0.kern (s.open_ l0 (s.placeable 0 l0.cmask))).isSome = true ∧ s.resvDue 0 = some l0 ∧
    ({ s with groups := [idle] } : State).group? idle.id = some idle ∧ ({ s with groups := [idle] } : State).retirable idle = true ∧
    s.job? 0 0 = some { j0 with est := 9 } ∧ ({ s with timebase := 0 } : State).lehrDue j0 = true := by decide +kernel

/-- A gang that fits nowhere before a launch that fits, a gang of two groups that fits, and launches of which none does. -/
def gangOf (lid : Nat) (k : Kern) (n idx : Nat) : Launch := { l0 with lid := lid, idx := idx, kern := { k with gang := true }, gx := n }
def spls (ls : List Launch) : State := { spl l0 { g0 with nl := ls.length } j0 with launches := ls }

theorem test_meets_Placements_several :
    let big := gangOf 1 wideKern 40 0
    let l1 : Launch := { l0 with idx := 1 }
    let s := spls [big, l1]
    s.ranked 0 = [big, l1] ∧ big.lid ≠ l1.lid ∧ (s.tryPlace big).isNone = true ∧ l1.nextGroup = some (0, 0) ∧
    (s.pick l1.kern (s.open_ l1 (s.placeable 0 l1.cmask))).isSome = true ∧
    (let g := gangOf 1 smallKern 2 0
     let s := spls [g, l1]
     s.ranked 0 = [g, l1] ∧ g.kern.gang = true ∧ g.next = 0 ∧ g.redo = [] ∧ (s.tryPlace g).isSome = true) ∧
    (∀ x ∈ (spls [big]).ranked 0, ((spls [big]).tryPlace x).isNone = true) ∧ (∀ j ∈ s.jobs, j.prio ≤ 63) := by decide +kernel

/-- Units that are done, with no counter and with one. -/
theorem test_meets_Placements_units : ∀ va ∈ [0, 0x48],
    let l := { l0 with retired := 1, lcnt := BitVec.ofNat 64 va, completed := false }
    let g := { g0 with gcnt := BitVec.ofNat 64 va }
    let j := { j0 with jcnt := BitVec.ofNat 64 va }
    let s := spl l g j
    let s1 := spl { l with completed := true } g j
    let s2 := spl { l with completed := true } { g with completed := true } j
    s.saving 0 = false ∧ s.snoop = [] ∧ s.poison = [] ∧ (va ≠ 0 → s.engXlate none 0 .atomic 8 [0x48] [] = .ok) ∧
    s.launch? 0 0 = some l ∧ s.launchOver l = true ∧
    s1.graphs.find? (fun x => x.part = 0 && x.jid = 0 && x.gi = 0) = some g ∧ g.completed = false ∧ s1.graphDone g = true ∧
    s2.job? 0 0 = some j ∧ s2.jobDone j = true := by decide +kernel

/-! #### Partition control -/

/-- A descriptor that breaks no rule, and one that carves a way. -/
def okDesc (csm : W64) : PDesc := { clu := 1, root := 0x10001, band := 0xF00103F00, mem := 0x100000000 ||| csm, trc := 0 }
def spc (d : Part) : State := { sm with parts := [d] }

theorem test_meets_PartitionCommands :
    (∀ d ∈ [Part.reset, { Part.reset with run := .carve (okDesc 0) none }, { Part.reset with run := .carve (okDesc 0) (some 0) },
        { Part.reset with staged := okDesc 0 }],
      (spc d).parts[0]? = some d ∧ Memory.wf (spc d).mem = true) ∧
    (∀ c ∈ [none, some 0], (spc { Part.reset with run := .carve (okDesc 0) c }).switchDue 0 = false) ∧
    (spc Part.reset).cycle ≤ 0 ∧ 0 < ({ spc Part.reset with cycle := 1 } : State).cycle ∧
    ({ spc Part.reset with events := [.instr (.save 0 0)] } : State).switchDue 0 = true ∧
    (spc Part.reset).commitBad 0 = [7] ∧ (spc { Part.reset with staged := okDesc 0 }).commitBad 0 = [] ∧
    (spc Part.reset).carveWith 0 (okDesc 0) ≤ (spc Part.reset).carveWith 0 PDesc.reset ∧
    (∃ c ∈ [0x1000000, 0x10000, 0x10, 0x1], (spc Part.reset).carveWith 0 PDesc.reset < (spc Part.reset).carveWith 0 (okDesc (BitVec.ofNat 64 c)) ∧
      (spc { Part.reset with staged := okDesc (BitVec.ofNat 64 c) }).commitBad 0 = []) := by decide +kernel

def saveAt (k : Nat) : Part := { enPart with run := .save 0x100000 false k 5000 }
def ssv (k : Nat) (ws : List Wave) : State := { spc (saveAt k) with waves := ws }
def busyWave : Wave := { wv with pend := [⟨200, .s 4 1⟩] }

theorem test_meets_PartitionCommands_save :
    enPart.run = .idle ∧ imgBase 0x100000 + imgBound enPart true ≤ (spc enPart).dramEnd ∧ (∃ w ∈ (spc enPart).waves, w.grp.part = 0) ∧
    (∀ w ∈ ({ spc enPart with waves := [] } : State).waves, w.grp.part ≠ 0) ∧
    (ssv 1 [wv]).halted 0 = true ∧ (ssv 1 [busyWave]).halted 0 = false ∧ (∀ x ∈ (ssv 2 [wv]).accs, x.grp.part = 0 → x.savable = true) ∧
    (∀ k ∈ [1, 2, 3], (ssv k [wv]).parts[0]? = some (saveAt k)) ∧ (saveAt 3).held = none ∧ (ssv 3 [wv]).snoop = [] ∧
    (ssv 3 [wv]).flipHolds 0x100000 5000 = false ∧
    ({ ssv 3 [wv] with flip := some ⟨0x100, false, [(0, 0x2000)], [], 0⟩ } : State).flipHolds 0x100000 5000 = true := by decide +kernel

/-- The bytes of an image of one cluster, at address 0, held or not. -/
def imgBytes : List Byte := [0x50, 0x47, 0x41, 0x39, 1, 0, 0, 1, 0, 0]
def image : Image := ⟨0, 0, imgBytes, [wv], [gr], [], [], [], [], [], [], none, 1, []⟩
def simg (h : Option Nat) : State :=
  { sm with waves := [], groups := [], parts := [{ enPart with held := h }], images := [image],
            mem := [(0, 0x50), (1, 0x47), (2, 0x41), (3, 0x39), (4, 1), (7, 1), (32, 1)] }

theorem test_meets_PartitionCommands_restore : ∀ h ∈ [none, some 0],
    (simg h).parts[0]? = some { enPart with held := h } ∧ ({ enPart with held := h } : Part).run = .idle ∧
    (simg h).restorable 0 (imgBase 0) = true ∧ (simg h).snoop = [] ∧ (simg h).flip = none ∧
    ({ simg h with flip := some ⟨0, false, [(0, 0)], [], 0⟩ } : State).flipHolds (imgBase 0) imgHdr = true ∧ (simg h).imageOf 0 (imgBase 0) = image ∧ (∀ a ∈ (simg h).accs, a.redo = false) ∧
    (∀ a ∈ image.accs, a.redo = false) ∧ (simg h).restorable 0 (imgBase 0x5000) = false ∧ (simg h).switchDue 0 = false := by decide +kernel

/-! #### Hosts -/

def copy1 (own dirty asked : Bool) : Snoop := ⟨0, 8, own, dirty, asked, List.replicate 128 1⟩
def sh (copies : List Snoop) (f : Option Flip) (bias : List Nat) : State := { st with snoop := copies, flip := f, bias := bias }
def flip1 (w : List (Nat × Nat)) (at_ : Nat) : Flip := ⟨0, true, w, [], at_⟩

/-- With no CXL window enabled no address lies in one. -/
theorem test_meets_HostMemory_windows (pa : Nat) : st.cxlOf pa = none := by
  have h : ∀ k ∈ List.range st.ncxl, (st.cxwin.getD k ⟨0, 0⟩).win.getLsbD 63 = false := by decide +kernel
  refine List.find?_eq_none.mpr fun k hk => ?_
  simp only [h k hk, Bool.false_and, Bool.false_eq_true, not_false_eq_true]

theorem test_meets_HostMemory_bias :
    (sh [] none [0]).flip = none ∧ (sh [] (some (flip1 [] 0)) []).flip.isSome ∧
    ((flip1 [] 0).back = [] ∧ (flip1 [(0, 8)] 0).back = [] ∧ ({ flip1 [] 0 with back := [(8, List.replicate 128 1)] } : Flip).back ≠ [] ∧ st.eager = true ∧ Memory.wf st.home = true ∧
      (([(8, List.replicate 128 1)] : List (Nat × List Byte)).map (·.1)).Nodup ∧ (List.replicate 128 (1 : Byte)).length = 128) ∧
    (∀ pa, pa / 4096 = 0 → st.cxlOf pa = none) ∧ ({ st with grade := .a768 } : State).dramEnd ≤ 4096 * 0xFFFFFFF ∧ 4096 * 0 < st.dramEnd ∧
    (sh [] none [0]).bias.contains 0 = true ∧ (sh [] none []).bias.contains 0 = false ∧
    (flip1 [] 0).waiting = [] ∧ (flip1 [] 0).done < ({ sh [] (some (flip1 [] 0)) [] with cycle := 1 } : State).cycle ∧
    (flip1 [(0, 8)] 0).waiting ≠ [] ∧ (sh [] (some (flip1 [] 0)) []).cycle ≤ (flip1 [] 0).done :=
  ⟨by decide +kernel, by decide +kernel, by decide +kernel, fun pa _ => test_meets_HostMemory_windows pa, by decide +kernel⟩

theorem test_meets_HostMemory_copies :
    (∀ d ∈ [false, true], (sh [copy1 true d true] none []).snoop.find? (fun x => x.host = 0 && x.line = 8 && x.asked) = some (copy1 true d true)) ∧
    st.portUp 0 = true ∧ State.hostOf (128 * (0x400000000000 / 128)) = some 0 ∧ State.hostOf (128 * 8) ≠ some 0 ∧
    ({ st with ports := [{ HostPort.reset 0 with up := false }, HostPort.reset 1] } : State).portUp 0 = false := by decide +kernel

/-- A line of a peer A9's window. -/
theorem test_meets_HostMemory_peer :
    let s : State := { st with cxwin := [⟨0xC000020000000000, 0x40000000⟩, ⟨0, 0x40000000⟩] }
    s.cxlOf (128 * 0x400000000) = some (2 - 2) ∧ s.peerPage (128 * 0x400000000) = true := by decide +kernel

theorem test_meets_HostMemory_hdm :
    st.memPort 0 = true ∧ State.hostOf 0x400 = none ∧ st.snoop = [] ∧ st.bias = [] ∧ st.hostReach 0 0x400 8 = true ∧
    st.hostReach 0 0x400 128 = true ∧ st.poisoned 0x400 = false ∧ ({ st with poison := [8] } : State).poisoned 0x400 = true ∧
    st.portUp 0 = true ∧ (8 = 4 ∨ 8 = 8) ∧ 0x400 % 8 = 0 ∧ 0x400 < 2 ^ 28 ∧ ¬ (3 = 4 ∨ 3 = 8) ∧
    (∀ p, p < 16 → st.classify p 0x10000000400 ≠ none) ∧
    ({ st with parts := [{ Part.reset with force := { PDesc.reset with mem := 0x10000 } }] } : State).classify 0 0x10000000400 = none ∧
    st.poisoned 0x10000000400 = false ∧
    (sh [] none [0]).memPort 0 = true ∧ (sh [] none [0]).hostBiased 0x400 = true ∧ (sh [] none [0]).poisoned 0x400 = false ∧
    (sh [] none [0]).hostReach 0 0x400 8 = true := by decide +kernel

def pA : HostPort := { HostPort.reset 0 with nonce := 1 }
def pB (armed : Bool) : HostPort := { HostPort.reset 1 with nonce := 2, armed := armed }
def sl2 (armed : Bool) (d : Option W64) (act : Nat) : State :=
  { st with ports := [{ pA with deadline := d }, pB armed], active := some act, tickAcc := 8 }

theorem test_meets_LeasesAndLinks :
    (∀ armed ∈ [false, true], ∀ k ∈ [0, 1],
      (sl2 armed (some 0) k).ports[(0 : Nat)]? = some { pA with deadline := some 0 } ∧ (sl2 armed (some 0) k).ports[(1 : Nat)]? = some (pB armed) ∧
      (sl2 armed (some 0) k).portUp 0 = true ∧ (sl2 armed (some 0) k).portUp 1 = true ∧ (sl2 armed (some 0) k).active = some k ∧
      1 - k < st.nhost ∧ ((sl2 armed (some 0) k).port 1).armed = armed ∧ ((sl2 armed (some 0) k).port k).expired = false ∧ ((sl2 armed (some 0) k).port k).up = true ∧
      ((sl2 armed (some 0) k).port k).lost = false) ∧
    (sl2 true (some 0) 0).leaseDue = true ∧ (sl2 false (some 0) 0).leaseDue = true ∧ (5 : W32) ≠ pA.nonce ∧ (1 : W32) = pA.nonce ∧
    (2 : W32) = (pB true).nonce ∧ (1 : BitVec 16) ≠ 0 := by decide +kernel

theorem test_meets_LeasesAndLinks_links :
    pA.up = true ∧ 0 < st.nhost ∧ 0 < st.ncxl ∧
    (∀ w ∈ [(⟨0, 0⟩ : CxWin), ⟨0x8000000000000000, 0x40000000⟩], ({ st with cxwin := [w, ⟨0, 0⟩] } : State).cxwin[(0 : Nat)]? = some w) ∧
    (0 : W64).getLsbD 63 = false ∧ (0x8000000000000000 : W64).getLsbD 63 = true ∧
    ({ st with events := [.contain 0] } : State).events = .contain 0 :: [] ∧ (st.part 0).held = none := by decide +kernel

/-- A CXL window of memory, and an access that waits for it. -/
def cxs : State :=
  { sta [ac 0 .load (.v 4 false) [ln 0 0x20000000000 false]] with
    cxwin := [⟨0xA000020000000000, 0x40000000⟩, ⟨0, 0x40000000⟩] }

theorem test_meets_LeasesAndLinks_windows :
    (cxs.cxlOf 0x20000000000).isSome = true ∧ (∀ x ∈ cxs.slc, x.line ≠ 0x20000000000 / 128) ∧
    cxs.acc? 0 = some (ac 0 .load (.v 4 false) [ln 0 0x20000000000 false]) ∧ (AccOp.load).sp = false ∧
    (ln 0 0x20000000000 false).t = 0 ∧ (ln 0 0x20000000000 false).perf = false := by decide +kernel

/-! #### Errors and debug -/

def ge1 (idem : Bool) (n : Nat) : Group := { gr with kern := { wideKern with idem := idem }, relaunch := n }
def ses (g : Group) : State := { stv wv 0x100 0 with groups := [g] }
def stopped1 : Wave := { wv with dstate := .stopped 0 }
def lossy : State :=
  { st with
    cores := [{ Core.reset 0 with trace := { Trace.empty with lost := 3, src := some wv.trSrc } }]
    parts := [{ Part.reset with force := { PDesc.reset with clu := 1, trc := 0x100010 } }] }

theorem test_meets_ErrorsAndDebug :
    (∀ x ∈ [(true, 0), (true, 1), (true, 2), (false, 0)], (ses (ge1 x.1 x.2)).group? ⟨0, 0, 0⟩ = some (ge1 x.1 x.2) ∧ (0 : BitVec 8).toNat < 4 ∧ (ge1 x.1 x.2).back = none ∧
      (ge1 x.1 x.2).killed = false ∧ (ge1 x.1 x.2).kern.idem = x.1 ∧ ((ge1 x.1 x.2).relaunch < 2 ∨ x = (true, 2)) ∧
      (ses (ge1 x.1 x.2)).wave? wv.id = some wv ∧ tvecOk ((ses (ge1 x.1 x.2)).part 0).tvec = true) ∧
    wv.grp = ⟨0, 0, 0⟩ ∧ wv.life = .live ∧ wv.handler = .none ∧ wv.wait = .none ∧ st.err.ctl.getLsbD 0 = false ∧ (4 : BitVec 8) = 4 ∧
    st.present 0x400 = true ∧ State.isCsm 0x400 = false ∧ st.modified (0x400 / 128) = false ∧
    ({ st with dirty := [8] } : State).modified (0x400 / 128) = true := by decide +kernel

/-- Cause 13 due at a wave that runs, and at one that waits in BWAIT. -/
theorem test_meets_ErrorsAndDebug_trap : ∀ w ∈ [wv, wb none],
    let s : State := { ses (ge1 false 0) with waves := [w], events := [.errTrap 0 5] }
    s.group? ⟨0, 0, 0⟩ = some (ge1 false 0) ∧ s.waveUid? w.uid = some w ∧ s.wave? w.id = some w ∧ w.life = .live ∧
    w.handler = .none ∧ (w.wait = .none ∨ w.wait = .bar 3 0 none 15) ∧ tvecOk (s.part 0).tvec = true := by decide +kernel

/-- A group that goes back to unplaced in this cycle, of a launch that is live. -/
theorem test_meets_ErrorsAndDebug_relaunch :
    let g := { ge1 true 1 with again := true, killed := true }
    let s : State := { ses g with events := [.relaunch ⟨0, 0, 0⟩], launches := [la] }
    s.group? ⟨0, 0, 0⟩ = some g ∧ g.again = true ∧ s.launch? 0 0 = some la ∧ la.stat = .live := by decide +kernel

theorem test_meets_ErrorsAndDebug_clusters :
    lossy.cluUp 0 = true ∧ 0 < lossy.clusters.length ∧ (List.range 16).find? (fun x => (lossy.part x).clu 0) = some 0 ∧
    (∃ g ∈ lossy.groups, g.id = wv.grp ∧ g.core / 4 = 0 ∧ g.killed = false ∧ lossy.group? g.id = some g) ∧
    ({ st with clusters := [{ Cluster.reset 0 with fenced := true }] } : State).cluUp 0 = false ∧
    (stw stopped1).stoppedWave 0 0 0 = some stopped1 ∧ (stw stopped1).wave? stopped1.id = some stopped1 ∧ st.stoppedWave 0 0 0 = none ∧
    (stw stopped1).group? stopped1.grp = some gr ∧ (st.core 0).trace.lost = 0 ∧ 0 < lossy.cores.length ∧ (lossy.core 0).trace.lost ≠ 0 ∧
    (lossy.core 0).trace.src = some wv.trSrc ∧ lossy.trSeg 0 = some (0x100000, 16384) ∧
    ((lossy.core 0).trace.wr - (lossy.core 0).trace.rd).toNat + 36 ≤ 16384 ∧ lossy.snoop = [] ∧ lossy.trHeld 0 = false := by decide +kernel

/-! #### Management -/

def smg (stage : BitVec 4) : State := { st with mg := { st.mg with stage := stage } }

/-- An image that is none; whether a real one passes rests on the keys and the checks of Config, which have no value here. -/
theorem test_meets_Management :
    (∀ k ∈ [0, 1, 2, 3, 4, 15], (smg k).mg.stage = k) ∧ imgErr (smg 3).mg.minSvn.toNat (smg 3).mg.img = 1 ∧
    (List.range (smg 4).nhost).find? (smg 4).portUp = some 0 ∧
    ({ smg 4 with ports := [{ pA with up := false }, { pB false with up := false }] } : State).portUp 0 = false ∧
    ({ smg 4 with ports := [{ pA with up := false }, { pB false with up := false }] } : State).portUp 1 = false ∧
    (smg 15).mg.checking = false ∧ bits (0x5000000000005300 : W64) 63 60 = 5 ∧ bits (0x5000000000005300 : W64) 59 32 = 0 ∧
    21152 ≤ bits (0x5000000000005300 : W64) 31 0 ∧ bits (0x5000000000000000 : W64) 31 0 < 21152 := by decide +kernel

theorem test_meets_Management_paths :
    (∀ via ∈ [MgmtPath.sideband, .port 0], st.served via = true) ∧ st.served (.port 1) = false ∧ st.parts[(15 : Nat)]? = some Part.reset ∧
    2 ≤ (7 : W64).toNat ∧ (7 : W64).toNat < 8 ∧ (1 : W64).toNat < 2 ∧ 8 ≤ (8 : W64).toNat ∧ st.timebase.toNat / 1000 = st.mg.clkAt ∧
    ({ st with timebase := 1000 } : State).timebase.toNat / 1000 ≠ st.mg.clkAt ∧ st.clusters[(0 : Nat)]? = some { Cluster.reset 0 with cyc := 100 } ∧
    ({ lossy with parts := [{ Part.reset with force := { PDesc.reset with clu := 1 }, capNow := 300 }] } : State).budget 0 = some 300 ∧
    300 < ([400] : List Nat).getD 0 0 ∧ lossy.inUse 0 = true ∧ (lossy.cluster 0).clk ≤ 26 ∧ 680 < 700 ∧ 0xFFF < 0x1000 := by decide +kernel

theorem test_meets_RegistersAndResets :
    st.parts[(15 : Nat)]? = some Part.reset ∧ st.ports[(0 : Nat)]? = some pA ∧ st.portUp 0 = true ∧ st.mg.stage ≠ 15 ∧
    ({ st with ports := [{ pA with up := false }, pB false] } : State).portUp 0 = false ∧
    (∀ k ∈ [1, 2, 3, 5], bits (BitVec.ofNat 64 (k * 2 ^ 61)) 63 61 = k) ∧ Part.reset.fqheld = [] ∧ Part.reset.dsheld = [] ∧
    ({ pA with tbl := [7] } : HostPort).tbl = [7] ∧ st.active = some 0 ∧ pA.up = true ∧ pA.expired = false ∧ pA.tbl = [] ∧
    0x30000 < 2 ^ 43 ∧ Memory.wf st.mem = true := by decide +kernel

/-! #### Where forms complete, encodings and steps -/

theorem test_unhindered : Unhindered s2 w2 where
  quiet := by decide +kernel
  copies := by decide +kernel
  port := fun q h => by
    have e : (s2.core w2.id.core).quarters[w2.id.q]? = some ⟨0, [], 0⟩ := by decide +kernel
    cases e.symm.trans h
    rfl
  watch := by decide +kernel

theorem block_of {s : State} {w : Wave} {va : W64} {reads : List Byte → List (Nat × W64)} (pa : Nat) (nc : Bool)
    (h : s.tlbHit (some w.id.core) w.grp.part va .read = some (pa, nc))
    (r : (va.toNat % 32 = 0 ∧ bits va 63 51 = 0 ∧ s.classHit (some w.id.core) w.grp.part va .read = none) ∧
      ∀ x ∈ reads (s.blockRead w pa (s.l1able pa nc)).1, bits x.2 63 51 = 0 ∧
        (s.tlbHit (some w.id.core) w.grp.part x.2 .read).isSome = true ∧ s.classHit (some w.id.core) w.grp.part x.2 .read = none) :
    BlockReadable s w va reads :=
  ⟨r.1.1, ⟨r.1.2.1, by rw [h]; rfl, r.1.2.2⟩, fun pa' nc' h' => by cases h.symm.trans h'; exact r.2⟩

theorem test_meets_FormsComplete_blocks :
    BlockReadable s2 w2 ((envOf s2 w2 (.rbox pl rbo) false).srPair 10)
      (raysOf fun hd t => words8 (hd.nodes + 256 * ((envOf s2 w2 (.rbox pl rbo) false).v32 1 rbo.b t).toNat) 28) ∧
    BlockReadable s2 w2 ((envOf s2 w2 (.rtri pl rto) false).srPair 10)
      (raysOf fun hd t => (leafTris hd ((envOf s2 w2 (.rtri pl rto) false).v32 1 rto.b t)).flatMap fun i => words8 (hd.tris + 48 * i) 6) ∧
    BlockReadable s2 w2 ((envOf s2 w2 (.rhint pl ⟨4, 6, 10⟩) false).srPair 10) (fun _ => []) ∧
    BlockReadable s2 w2 ((envOf s2 w2 (.rhset pl ⟨6, 10⟩) false).srPair 10) (fun _ => []) ∧
    BlockReadable s2 w2 ((envOf s2 w2 (.texq pl tqo) false).srPair 10) (fun _ => []) :=
  ⟨block_of 0 false (by decide +kernel) (by decide +kernel), block_of 0 false (by decide +kernel) (by decide +kernel),
    block_of 0 false (by decide +kernel) (by decide +kernel), block_of 0 false (by decide +kernel) (by decide +kernel),
    block_of 0 false (by decide +kernel) (by decide +kernel)⟩

theorem test_meets_FormsComplete_texels :
    BlockReadable sx w2 ((envOf sx w2 (.tex pl txo) false).srPair 10) (fun bs => if (texDesc bs).bad then [] else
      act2.flatMap fun t => (texTexels (texDesc bs) txo.mode ((envOf sx w2 (.tex pl txo) false).v32 0 txo.a t)
          ((envOf sx w2 (.tex pl txo) false).v32 1 txo.b t) ((envOf sx w2 (.tex pl txo) false).sr txo.sd) t).flatMap fun y =>
        (List.range (texelSize (texDesc bs).fmt / 4)).map fun i => (t, BitVec.ofNat 64 (y.1 + 4 * i))) :=
  block_of 0 false (by decide +kernel) (by decide +kernel)

/-- The conversions, RAST and the scratchpad accesses, with offsets 2,040 and 4 of a window of 2,048 bytes. -/
theorem test_meets_FormsComplete :
    meets s2 w2 [(.cvt pl ⟨.f32, .i32, .rne, 0, 0, 4, .v 5⟩, false), (.qnt pl ⟨.e4m3, .rne, 0, 4, .v 5, .v 6⟩, false),
      (.mxsc pl ⟨true, 3, 4, .v 5⟩, false), (.pack6 pl ⟨true, .rne, 4, .v 5⟩, false), (.unpack6 pl ⟨true, true, 0, 4, .v 5⟩, false),
      (.lds pl sp, false), (.sts pl sp, false), (.atoms pl sa, false), (.reds pl { sa with op := .add, d := 0, tag := .n32 }, false),
      (.blend pl blo, false), (.rast pl ⟨4, 20, 30⟩, false), (.tex pl txo, false), (.texq pl tqo, false)] ∧
    (∀ t ∈ act2, (0 + 0 * 2 ^ sp.scl.toNat + sp.off.toNat * sizeOf' sp.tag) % sizeOf' sp.tag = 0 ∧
      255 * sizeOf' sp.tag + sizeOf' sp.tag ≤ (envOf s2 w2 (.lds pl sp) false).winSize ∧
      (1 * sizeOf' sa.tag) % sizeOf' sa.tag = 0 ∧ 1 * sizeOf' sa.tag + sizeOf' sa.tag ≤ (envOf s2 w2 (.atoms pl sa) false).winSize) :=
  ⟨meets_of (by decide +kernel), by decide +kernel⟩

theorem test_meets_OpcodeMap : decode vaddWord = .ok (.vadd { pl with sf := 2 } ⟨false, .i32, .v 4, .vec (.v 4), .vec (.v 6)⟩) false ∧
    decode 0x2000 = .ok (.nop { pl with sf := 0 } false) true := by decide +kernel

theorem test_meets_EncodeDecode : ∀ i ∈ [Instr.vadd pl a3, .exit pl, .faultretEmul pl 254, .xvi pl 8 30], i.wf = true ∧ (encode i).isSome = true := by
  decide +kernel

/-- A machine about to issue a word, with a kernel of no vector register or of them all. -/
def fetching (x : BitVec 96) (n : Nat) : State :=
  let s := st.withFetchWord 96 x.toNat
  { s with waves := s.waves.map fun w => { w with kern := { wideKern with vregs := n } } }

/-- The machine of a cycle's first issue slot, once what is due is taken and the first reads of its waits are done. -/
def served1 (s : State) : State := (({ s with todo := [] } : State).takeDues 0 0).firstReads 0 0

theorem test_meets_StepRunsDecoded : ∀ x ∈ [(vaddWord, 320), (vaddWord, 0), (0xFF, 320), (0x2000, 320)],
    let s := fetching x.1 x.2
    let s1 := served1 s
    let w := (s1.selectWave 0 0).getD wv
    let s2 := s1.passedReads 0 0 (some w.uid)
    let l := (s2.icLine 0 0).getD ⟨0, 0, [], []⟩
    s.events = [] ∧ s.todo = [(0, 0)] ∧ s1.selectWave 0 0 = some w ∧ w.id.core = 0 ∧ w.reissue = none ∧ w.inPath = false ∧
    bits w.pc 1 0 = 0 ∧ s2.codePa 0 w.grp.part w.pc = .inl 0 ∧ s2.codePa 0 w.grp.part (w.pc + 11) = .inl (0 + 11) ∧
    pageOf (w.pc + 11) = pageOf w.pc ∧ s2.poisoned 0 = false ∧ s2.poisoned 11 = false ∧ s2.icLine 0 0 = some l ∧
    bytesWord ((List.range 12).map fun k => l.bytes.getD k 0) = x.1 ∧
    (∀ i, i = Instr.vadd { pl with sf := 2 } ⟨false, .i32, .v 4, .vec (.v 4), .vec (.v 6)⟩ → (i.fits w.allot = true ↔ x.2 = 320)) := by
  simp only [forall_eq]
  decide +kernel

/-- FAULTRET.skip in a fault handler, and the instruction that it issues again. -/
theorem test_meets_StepRunsDecoded_faultret :
    faultRet (.faultretSkip pl) = true ∧
    faultRet (.vadd pl a3) = false ∧
    (match exec (.faultretSkip pl) (stw { wfault with fsave := some { fsv with i := .vadd pl a3 } }) with
      | .next t => decide (t.again wfault.id = some (.vadd pl a3))
      | _ => false) = true := by decide +kernel

theorem test_meets_StepRunsDecoded_events :
    st.answered .powerLoss = true ∧ ({ st with mg := { st.mg with stage := 0 } } : State).answered (.commit 0) = false ∧
    st.events = [] ∧ st.todo = [] ∧
    ({ st with events := [.contain 0, .relaunch ⟨0, 0, 0⟩, .out wv.sender (.pri false 5), .errTrap 0 5, .restore 0, .wake ⟨0, 0, 0⟩, .interval] } : State).events.length = 7 ∧
    (served1 { st with waves := [] }).selectWave 0 0 = none ∧
    (let w : Wave := { wv with reissue := some ⟨.vadd pl a3, none⟩ }
     ((served1 { stw w with todo := [(0, 0)] }).selectWave 0 0).isSome = true) ∧
    (let s := served1 { stw (xv 0) with todo := [(0, 0)] }
     (match s.selectWave 0 0 with | some w => w.inPath && (w.xvi.bind fun v => v.word v.next).isSome | none => false) = true) := by
  decide +kernel

def narrow : Wave := { wv with kern := { wideKern with vregs := 0, qn := 1 }, q := [⟨[], []⟩] }
def popQ (n : BitVec 4) : Instr := .vadd pl ⟨false, .i32, .v 4, .vec (.q n), .vec (.zero)⟩

/-- A wave whose port 3 holds an entry of the wrong width, poisoned or not. -/
def wbad (x : Option W64) : Wave := { wv with q := wv.q.set 3 ⟨[{ qe 5 with wide := true, poison := x }], []⟩ }

theorem test_meets_OperandTraps :
    (stw narrow).wave? (stw narrow).cur = some narrow ∧ narrow.life = .live ∧ (encode (.vadd pl a3)).isSome = true ∧
    (Instr.vadd pl a3).fits narrow.allot = false ∧ st.wave? st.cur = some wv ∧ (encode (popQ 3)).isSome = true ∧
    (popQ 3).fits wv.allot = true ∧ queueMisuse wv (popQ 3) (st.cyc 0) = some 3 ∧ addrPops wv (popQ 3) 100 = false ∧
    popPoison (envOf st wv (popQ 3) false) = none ∧
    queueMisuse (wbad (some 0x40)) (popQ 3) 100 = some 3 ∧ addrPops (wbad (some 0x40)) (popQ 3) 100 = false ∧
    popPoison (envOf (stw (wbad (some 0x40))) (wbad (some 0x40)) (popQ 3) false) = some 0x40 ∧
    queueMisuse wv (.ldg pl (gl (.q 15))) 100 = none ∧ queueMisuse narrow (.ldg pl (gl (.q 15))) 100 = some 15 ∧
    addrPops narrow (.ldg pl (gl (.q 15))) 100 = true ∧ wv.handler = .none ∧ tvecOk ((stv wv 0x100 0).part 0).tvec = true := by
  decide +kernel

theorem test_meets_OperandTraps_pref :
    (encode prefQ).isSome = true ∧ queueMisuse fewQ prefQ ((stw fewQ).cyc 0) = some 3 ∧ fewQ.life = .live := by decide +kernel

theorem test_meets_MemoryCanonicalStep :
    Memory.wf st.mem = true ∧ Memory.wf st.home = true ∧ windowsWf st = true ∧ filesWf st = true ∧
    (match step st with | .next _ => true | _ => false) = true := by decide +kernel

/-! ### Results that the spec gives -/

/-- v4 to v9 of thread 0 hold the values. -/
def wreg (xs : List W32) : Wave := { wv with v := (xs.zipIdx.map fun x => (64 * (4 + x.2), x.1)).filter fun x => x.2 ≠ 0 }

/-- The wave's effects after an instruction. -/
def effects (i : Instr) (w : Wave) : List Pend :=
  match exec i (stw w) with
  | .next t => ((t.wave? w.id).map (·.pend)).getD []
  | _ => []

/-- Thread 0 takes a value in vector register `r`. -/
def gives (i : Instr) (xs : List W32) (r : Nat) (x : W32) : Bool :=
  (effects i (wreg xs)).any fun p => match p.put with | .v n ys => n == r && ys.head? == some (0, x) | _ => false

def sets (i : Instr) (xs : List W32) (b : Byte) : Bool :=
  (effects i (wreg xs)).any fun p => match p.put with | .sat m => m == b | _ => false

def alu (t : Tag) : Alu3 := ⟨false, t, .v 10, .vec (.v 4), .vec (.v 5)⟩

/-- R149, R150, R152: the spec's examples; a field that reaches the top bit, and none. -/
theorem test_integer_results : gives (.vmulh pl (alu .i32)) [0x80000000, 2] 10 0xFFFFFFFF = true ∧
    gives (.vsra pl (alu .b32)) [0x80000010, 40] 10 0xFFFFFFFF = true ∧ gives (.vbfe pl (alu .i32)) [0xF30, 0x404] 10 3 = true ∧
    gives (.vbfe pl (alu .i32)) [0xF30, 0x408] 10 0xFFFFFFFF = true ∧ gives (.vshl pl (alu .b32)) [3, 32] 10 0 = true ∧
    gives (.vsub pl (alu .n32)) [3, 5] 10 0xFFFFFFFE = true := by decide +kernel

/-- R98: an unsigned saturating subtraction below 0, and one in range. -/
theorem test_saturation : gives (.vadds pl ⟨true, alu .n32⟩) [3, 5] 10 0 = true ∧ sets (.vadds pl ⟨true, alu .n32⟩) [3, 5] 1 = true ∧
    sets (.vadds pl ⟨true, alu .n32⟩) [5, 3] 1 = false := by decide +kernel

def qnt1 : Instr := .qnt pl ⟨.e4m3, .rne, 0, 10, .v 4, .v 5⟩

/-- R173: 300 and −700 with a scale of 127. -/
theorem test_qnt : gives qnt1 [0x43960000, 127] 10 0x79 = true ∧ gives qnt1 [0xC42F0000, 127] 10 0xFE = true ∧
    sets qnt1 [0x43960000, 127] 0x10 = false ∧ sets qnt1 [0xC42F0000, 127] 0x10 = true := by decide +kernel

/-- R86, R91: 1 + 2^−24 rounds to even, up with RU; a sum of infinities of both signs is the canonical NaN. -/
theorem test_float : gives (.fadd pl ⟨false, .rne, .v 10, .vec (.v 4), .vec (.v 5)⟩) [0x3F800000, 0x33800000] 10 0x3F800000 = true ∧
    gives (.fadd pl ⟨false, .ru, .v 10, .vec (.v 4), .vec (.v 5)⟩) [0x3F800000, 0x33800000] 10 0x3F800001 = true ∧
    gives (.fadd pl ⟨false, .rne, .v 10, .vec (.v 4), .vec (.v 5)⟩) [0x7F800000, 0xFF800000] 10 0x7FC00000 = true := by decide +kernel

/-- R106, R193: an offset outside the window takes cause 5, and without TVEC kills the group. -/
theorem test_window_trap : (match exec (.lds pl { sp with tag := .b32, off := 0, a := .v 4 }) (stv (wreg [2048]) 0x100 0) with
    | .next t => ((t.wave? wv.id).map fun w => (w.tr.cause, w.tr.tval, w.tr.tepc, w.pc)) = some (5, 2048, 0, 0x100)
    | _ => false) = true := by decide +kernel

/-- R121: a call writes the address after itself, and goes to its target. -/
theorem test_call : (match exec (.call pl 20 5) st with
    | .next t => ((t.wave? wv.id).map fun w => (w.pc, w.pend)) = some (72, [⟨102, .s 20 12⟩, ⟨102, .s 21 0⟩])
    | _ => false) = true := by decide +kernel

/-- R194, R244: an atomic addition at its home returns the old word. -/
theorem test_atomic : (match exec (.sliceAluPerform 0 0) { sta [{ todo with tag := .n32 }] with mem := [(0x100, 7)] } with
    | .next t => t.rdNat 0x100 4 = 12 ∧ (t.acc? 0).bind (fun a => a.lanes.head?.map (·.res)) = some 7
    | _ => false) = true := by decide +kernel

/-- R197: the second of two arrivals raises PHASE and clears the count. -/
theorem test_barrier : (match exec (.barrierArrival 0) (sb (barrier 2 1) wa [arr]) with
    | .next t => (t.group? ⟨0, 0, 0⟩).map (fun g => g.rdNat 0 8) = some 0x0001000000020000
    | _ => false) = true := by decide +kernel

/-- A step from a machine about to issue a NOP moves its PC on by one word. -/
theorem test_step_nop : (match step (st.withFetchWord 96 0x1e0000000000000000001000) with
    | .next t => (t.wave? ⟨0, 0, 0⟩).map (·.pc) = some 12
    | _ => false) = true := by decide +kernel

end Sys2Proof.Tests
end

section
/-!
SUPPORT. What bring-up and recovery do to the state (R425, R428–R430), one lemma per
step.
-/

namespace Sys2Proof.Machine

variable {s : State}

/-! ### Power-good and the steps of bring-up -/

theorem powerGood_off (h : s.mg.stage = 0) :
    exec .powerGood s =
      .next { s with timebase := 0, tickAcc := 0, mg := { s.mg with stage := 1, err := 0, img := s.mg.flash } } := by
  simp [exec, execPowerGood, h]

theorem powerGood_on (h : s.mg.stage ≠ 0) : exec .powerGood s = .next s :=
  congrArg _ (if_pos h)

theorem bootNext_rom (h : s.mg.stage = 1) : s.bootNext = { s with mg := { s.mg with stage := 2 } } := by
  simp [State.bootNext, h]

theorem bootNext_training (h : s.mg.stage = 2) :
    s.bootNext = { s with
      fresh := s.fresh + 1
      mg := if Config.memoryTrains s.fresh then { s.mg with stage := 3 } else { s.mg with err := 5 } } := by
  have hb : s.bootNext = s.trainMemory := by simp [State.bootNext, h]
  rw [hb, State.trainMemory]
  split <;> rfl

/-- Step 3 and a recovery's check end in the same way. -/
theorem bootNext_image (h : s.mg.stage = 3 ∨ s.mg.stage = 15) : s.bootNext = s.verify s.mg.img := by
  rcases h with h | h <;> simp [State.bootNext, h]

theorem bootNext_links (h : s.mg.stage = 4) : s.bootNext = s.trained := by
  simp [State.bootNext, h]

/-! ### The check of the image -/

/-- A partition when step 4 begins: not enabled, with the digest of the image's body in PMR0. -/
def Part.withImage (img : List Byte) (d : Part) : Part :=
  { d.disable with pmr := d.pmr.modify 0 fun x => pmrExt x (toPmr (sha384 (imgBody img))) }

@[simp] theorem Part.disable_en (d : Part) : d.disable.en = false := by
  simp [Part.disable, Part.en]

@[simp] theorem Part.withImage_en (img : List Byte) (d : Part) : (d.withImage img).en = false := d.disable_en

theorem verify_passes {img : List Byte} (h : imgErr s.mg.minSvn.toNat img = 0) :
    s.verify img = { s with
      parts := s.parts.map (Part.withImage img)
      mg := { s.mg with stage := 4, err := 0, checking := false, svn := BitVec.ofNat 16 (imgFld img 4 2) } } := by
  unfold State.verify
  rw [h]
  rfl

theorem verify_fails {img : List Byte} (h : imgErr s.mg.minSvn.toNat img ≠ 0) :
    s.verify img = { s with
      mg := { s.mg with stage := 15, err := BitVec.ofNat 8 (imgErr s.mg.minSvn.toNat img), checking := false } } := by
  obtain ⟨n, hn⟩ := Nat.exists_eq_succ_of_ne_zero h
  unfold State.verify
  rw [hn]
  rfl

/-! ### The links -/

theorem trained_of_port {h : Nat} (hp : (List.range s.nhost).find? s.portUp = some h) :
    s.trained = { s with active := some h, mg := { s.mg with stage := 5 } } := by
  simp [State.trained, State.recoveryPort, hp]

theorem trained_of_noPort (hp : ∀ h, s.portUp h = false) :
    s.trained = { s with mg := { s.mg with stage := 15, err := 6 } } := by
  have hn : s.recoveryPort = none := List.find?_eq_none.2 fun h _ => by simp [hp h]
  simp [State.trained, hn, State.recover]

/-! ### RCVCTL (R429) -/

/-- A write of RCVCTL that starts a check of an image: in recovery, while no check runs, with the fields R429 asks. -/
def State.asksCheck (s : State) (v : W64) : Prop :=
  s.mg.stage = 15 ∧ s.mg.checking = false ∧ bits v 63 60 = 5 ∧ bits v 59 32 = 0

theorem recoveryImageCheck_ignored {v : W64} (h : ¬ s.asksCheck v) : exec (.recoveryImageCheck v) s = .next s := by
  refine if_pos (by_contra fun hn => h ?_)
  simpa [State.asksCheck, and_assoc] using hn

theorem recoveryImageCheck_asked {v : W64} (h : s.asksCheck v) :
    exec (.recoveryImageCheck v) s =
      if bits v 31 0 < 21152 ∨ 2 ^ 24 < bits v 31 0 then .next (s.recover 1)
      else .next { s with mg := { s.mg with img := s.rdBytes 0 (bits v 31 0), checking := true } } := by
  obtain ⟨hs, hc, hk, hz⟩ := h
  simp [exec, execRecoveryImageCheck, hs, hc, hk, hz]

end Sys2Proof.Machine
end

section
/-!
SUPPORT. The answers of a partition's responder and of the management mailbox (R431, R434).
-/

namespace Sys2Proof.Machine

variable {s : State} {via : MgmtPath} {p : Nat} {bs : List Byte}

/-- `n` free values have been used. -/
def State.used (s : State) (n : Nat) : State := { s with fresh := s.fresh + n }

theorem spdm_served (hv : s.served via = true) (hp : p < 16) :
    s.spdm via p bs = .next { s with out := s.out ++ [.reply via bs] } := by
  simp [State.spdm, hv, hp]

theorem spdm_notServed (hv : s.served via = false) : s.spdm via p bs = .next s := by
  simp [State.spdm, hv]

/-- A responder changes nothing but what has been sent. -/
theorem spdm_next : ∃ o, s.spdm via p bs = .next { s with out := o } := by
  unfold State.spdm
  split
  · exact ⟨_, rfl⟩
  · exact ⟨s.out, rfl⟩

/-- A request whose whole effect is one answer of the responder, once `n` free values have been used. -/
theorem answers_of_spdm {i : Instr} {n : Nat} {f : List Byte → Prop}
    (hx : exec i s = (s.used n).spdm via p bs) (hf : f bs) :
    (s.served via = true ∧ p < 16 → ∃ bs, f bs ∧
      exec i s = .next { s with fresh := s.fresh + n, out := s.out ++ [.reply via bs] }) ∧
    (s.served via = false → exec i s = .next { s with fresh := s.fresh + n }) := by
  have hu : (s.used n).served via = s.served via := rfl
  refine ⟨fun ⟨hv, hp⟩ => ⟨bs, hf, ?_⟩, fun hv => ?_⟩
  · rw [hx, spdm_served (hu.trans hv) hp]
    rfl
  · rw [hx, spdm_notServed (hu.trans hv)]
    rfl

/-! ### What the answers hold -/

theorem exists_append_of_infix {part : List Byte} (h : part <:+: bs) : ∃ before after, bs = before ++ part ++ after :=
  let ⟨before, after, h⟩ := h
  ⟨before, after, h.symm⟩

theorem chain_infix_certificate (p : Nat) : spdmChain p <:+: spdmCertificate p :=
  (List.suffix_append _ _).isInfix

theorem infix_signed {part nonce : List Byte} (h : part <:+: bs) : part <:+: spdmSigned p nonce bs :=
  h.trans (List.prefix_append _ _).isInfix

theorem digest_infix_auth (nonce : List Byte) : sha384 (s.part p).blocks <:+: s.spdmAuth p nonce :=
  infix_signed (List.infix_append _ _ _)

/-- The measurements that an index asks for. -/
def Part.asked (d : Part) (n : Nat) : Option (List Byte) :=
  if n = 0 then some [] else if n ≤ 8 then some (d.block (n - 1)) else if n = 0xFF then some d.blocks else none

theorem asked_all (d : Part) : d.asked 0xFF = some d.blocks := rfl

theorem asked_one (d : Part) {n : Nat} (h : n < 8) : d.asked (n + 1) = some (d.block n) := by
  have h8 : n + 1 ≤ 8 := h
  simp [Part.asked, h8]

theorem asked_infix_measure {sign : Bool} {idx : Byte} {nonce : List Byte} (h : (s.part p).asked idx.toNat = some bs) :
    bs <:+: s.spdmMeasure p sign idx nonce := by
  unfold Part.asked at h
  simp only [State.spdmMeasure, h]
  have inner (a b c : List Byte) : bs <:+: a ++ bs ++ b ++ c :=
    (List.infix_append _ _ _).trans (List.prefix_append _ _).isInfix
  cases sign with
  | true => exact infix_signed (inner _ _ _)
  | false => exact inner _ _ _

/-! ### The mailbox -/

theorem mailboxRequest_ignored {port off : Nat} {req : MailReq} (h : s.served (.port port) = false ∨ 0x1000 ≤ off) :
    exec (.mailboxRequest port ⟨off, req⟩) s = .next s := by
  refine if_pos ?_
  simpa using h

/-- In the mailbox of a served port each code names one answer of the responder. -/
theorem mailboxRequest_spdm {port off : Nat} (hs : s.served (.port port) = true) (ho : off < 0x1000) (p : Nat)
    (code : BitVec 8) :
    ∃ n bs, exec (.mailboxRequest port ⟨off, .spdm p code⟩) s = (s.used n).spdm (.port port) p bs := by
  simp only [exec, execMailboxRequest, hs, Nat.not_le.2 ho, Bool.not_true, decide_false, Bool.or_self,
    Bool.false_eq_true, if_false]
  have now (bs : List Byte) : ∃ n bs', s.spdm (.port port) p bs = (s.used n).spdm (.port port) p bs' := ⟨0, bs, rfl⟩
  have nonced (bs : List Byte) : ∃ n bs', s.nonced.spdm (.port port) p bs = (s.used n).spdm (.port port) p bs' :=
    ⟨4, bs, rfl⟩
  split_ifs
  exacts [now _, now _, now _, now _, now _, nonced _, nonced _, now _]

theorem mailboxRequest_raise {port off : Nat} (hs : s.served (.port port) = true) (ho : off < 0x1000) (v : BitVec 16) :
    exec (.mailboxRequest port ⟨off, .raiseSvn v⟩) s =
      .next { s with mg := { s.mg with raise := if s.mg.raise < v then v else s.mg.raise } } := by
  simp [exec, execMailboxRequest, hs, ho]

theorem mailboxRequest_other {port off : Nat} (hs : s.served (.port port) = true) (ho : off < 0x1000) (x : W64) :
    exec (.mailboxRequest port ⟨off, .other x⟩) s =
      .next { s with out := s.out ++ [.reply (.port port) (Config.spdmBytes 0x10000 (leBytes 8 x.toNat))] } := by
  simp [exec, execMailboxRequest, hs, ho]

end Sys2Proof.Machine
end

section
/-!
SUPPORT. The measurement registers, and the clocks that an interval sets (R14, R430, R432).
-/

namespace Sys2Proof.Machine

variable {s : State}

/-! ### PMREXT (R430) -/

theorem pmrExtend_ignored {p : Nat} {i : W64} (h : i.toNat < 2 ∨ 8 ≤ i.toNat) : exec (.pmrExtend p i) s = .next s := by
  refine if_pos ?_
  simpa using h

theorem pmrExtend_extends {p : Nat} {i : W64} (h2 : 2 ≤ i.toNat) (h8 : i.toNat < 8) :
    exec (.pmrExtend p i) s =
      .next (s.modPart p fun d => { d with pmr := d.pmr.modify i.toNat fun x => pmrExt x d.pmdata }) := by
  refine if_neg ?_
  simp only [Bool.or_eq_true, decide_eq_true_eq]
  omega

/-! ### The clock of one cluster (R14, R432) -/

section
variable {c draw temp steps : Nat}

/-- The draw of a cluster exceeds its budget. -/
def State.overBudget (s : State) (c draw : Nat) : Prop := ∃ b, s.budget c = some b ∧ b < draw

theorem clkNeed_of_limit (hs : steps ≠ 0) (hu : s.inUse c = true) :
    s.clkNeed c draw temp steps = (s.cluster c).clk - steps := by
  simp [State.clkNeed, hs, hu]

theorem clkNeed_le_of_limit (hs : steps ≠ 0) (hu : s.inUse c = true) :
    s.clkNeed c draw temp steps ≤ (s.cluster c).clk - 1 := by
  rw [clkNeed_of_limit hs hu]
  omega

/-- Over its budget a cluster steps down, whether the device limit binds or not. -/
theorem clkNeed_le_of_overBudget (h : s.overBudget c draw) : s.clkNeed c draw temp steps ≤ (s.cluster c).clk - 1 := by
  obtain ⟨b, hb, hd⟩ := h
  by_cases hl : s.inUse c = true ∧ steps ≠ 0
  · exact clkNeed_le_of_limit hl.2 hl.1
  · simp only [State.clkNeed, hb, hd, Bool.and_eq_true, decide_eq_true_eq, hl, if_true, if_false]
    exact Nat.min_le_right _ _

theorem newClk_ge : 10 ≤ s.newClk c draw temp steps := Nat.le_max_left _ _

theorem newClk_le : s.newClk c draw temp steps ≤ 26 := by
  unfold State.newClk
  omega

theorem newClk_le_of_need {n : Nat} (h : s.clkNeed c draw temp steps ≤ n) : s.newClk c draw temp steps ≤ max 10 n := by
  unfold State.newClk
  omega

theorem newGate_le : s.newGate c draw temp steps ≤ 1000 := by
  unfold State.newGate
  split <;> omega

theorem newGate_ne_zero_iff : s.newGate c draw temp steps ≠ 0 ↔ s.clkNeed c draw temp steps < 10 := by
  unfold State.newGate
  split <;> omega

end

/-! ### A measurement (R432) -/

/-- A cluster with what was measured of it. -/
def Cluster.sensed (draws temps : List Nat) (c : Cluster) : Cluster :=
  { c with draw := draws.getD c.idx 0, temp := temps.getD c.idx 0 }

/-- A cluster with its clock of the interval. -/
def State.clocked (s : State) (steps : Nat) (c : Cluster) : Cluster :=
  { c with clk := s.newClk c.idx c.draw c.temp steps, gated := s.newGate c.idx c.draw c.temp steps }

@[simp] theorem measure_clusters (w : Nat) (ds ts : List Nat) :
    (s.measure w ds ts).clusters = s.clusters.map (Cluster.sensed ds ts) := rfl
@[simp] theorem measure_power (w : Nat) (ds ts : List Nat) : (s.measure w ds ts).mg.power = w := rfl

/-- A measurement changes no clock. -/
@[simp] theorem measure_cluster_clk (w : Nat) (ds ts : List Nat) (c : Nat) :
    ((s.measure w ds ts).cluster c).clk = (s.cluster c).clk := by
  simp only [State.cluster, measure_clusters, List.getD_eq_getElem?_getD, List.getElem?_map]
  cases s.clusters[c]? <;> rfl

/-- What an interval does to the clusters: one number of steps, which is not 0 where the device limit binds. -/
theorem setClocks_eq (s : State) : ∃ steps hot, (680 < s.mg.power → steps ≠ 0) ∧
    s.setClocks = { s with
      clusters := s.clusters.map (s.clocked steps)
      mg := { s.mg with hot := hot, clkAt := s.interval } } := by
  refine ⟨_, _, fun h => ?_, rfl⟩
  simp [h]

/-- `c'` has the clock that an interval sets for `c`: a need, held between 1.0 and 2.6 GHz; where the need is lower still,
cycles are gated. Over the budget, and in a cluster in use where the device limit binds (`limit`), the need is below the
clock that was. -/
def State.Paced (s : State) (c : Cluster) (draw : Nat) (limit : Prop) (c' : Cluster) : Prop :=
  let old := (s.cluster c.idx).clk
  10 ≤ c'.clk ∧ c'.clk ≤ 26 ∧ (s.overBudget c.idx draw → c'.clk ≤ max 10 (old - 1)) ∧
  (limit → s.inUse c.idx = true → c'.clk ≤ max 10 (old - 1)) ∧ c'.gated ≤ 1000 ∧
  ∃ n, (c'.clk = max 10 (min 26 n) ∧ (c'.gated ≠ 0 ↔ n < 10)) ∧ (s.overBudget c.idx draw → n ≤ old - 1) ∧
    (limit → s.inUse c.idx = true → n ≤ old - 1)

theorem clocked_paced (s : State) (c : Cluster) {steps : Nat} {limit : Prop} (hl : limit → steps ≠ 0) :
    s.Paced c c.draw limit (s.clocked steps c) := by
  have above (h : s.overBudget c.idx c.draw) := clkNeed_le_of_overBudget (temp := c.temp) (steps := steps) h
  have limited (h : limit) (hu : s.inUse c.idx = true) :=
    clkNeed_le_of_limit (draw := c.draw) (temp := c.temp) (hl h) hu
  exact ⟨newClk_ge, newClk_le, fun h => newClk_le_of_need (above h), fun h hu => newClk_le_of_need (limited h hu),
    newGate_le, _, ⟨rfl, newGate_ne_zero_iff⟩, above, limited⟩

/-- Budgets and use do not rest on what was measured, and neither does the clock that was. -/
theorem clocked_measure_paced (s : State) (w : Nat) (ds ts : List Nat) (c : Cluster) {steps : Nat} {limit : Prop}
    (hl : limit → steps ≠ 0) :
    s.Paced c (ds.getD c.idx 0) limit ((s.measure w ds ts).clocked steps (c.sensed ds ts)) := by
  have h := clocked_paced (s.measure w ds ts) (c.sensed ds ts) hl
  rw [State.Paced, measure_cluster_clk] at h
  exact h

theorem clockInterval_later (h : s.interval = s.mg.clkAt) (w : Nat) (ds ts : List Nat) :
    exec (.clockInterval w ds ts) s = .next (s.measure w ds ts) :=
  congrArg _ (if_pos h)

theorem clockInterval_opens (h : s.interval ≠ s.mg.clkAt) (w : Nat) (ds ts : List Nat) :
    exec (.clockInterval w ds ts) s = .next (s.measure w ds ts).setClocks :=
  congrArg _ (if_neg h)

end Sys2Proof.Machine
end

section
/-! Bring-up, measurement, requests and clocks: what the statement about them says, part by part, and its proof. -/

namespace Sys2Proof.Machine

/-- Where a measurement has been taken, each cluster holds it; its clock changes where the measurement opens an
interval, and then as its need asks. -/
theorem clockInterval_clusters (s : State) (w : Nat) (ds ts : List Nat) :
    ∃ t, exec (.clockInterval w ds ts) s = .next t ∧
      t = { s with clusters := t.clusters, mg := t.mg } ∧ t.mg.power = w ∧ t.mg.clkAt = s.interval ∧
      t.clusters.length = s.clusters.length ∧
      ∀ (k : Nat) (c c' : Cluster), s.clusters[k]? = some c → t.clusters[k]? = some c' →
        c'.cyc = c.cyc ∧ c'.draw = ds.getD c.idx 0 ∧ c'.temp = ts.getD c.idx 0 ∧
        (s.interval = s.mg.clkAt → c'.clk = c.clk ∧ c'.gated = c.gated) ∧
        (s.interval ≠ s.mg.clkAt → s.Paced c (ds.getD c.idx 0) (680 < w) c') := by
  by_cases hi : s.interval = s.mg.clkAt
  · refine ⟨_, clockInterval_later hi w ds ts, rfl, rfl, hi.symm, by simp, fun k c c' hc hc' => ?_⟩
    rw [measure_clusters, List.getElem?_map, hc] at hc'
    cases hc'
    exact ⟨rfl, rfl, rfl, fun _ => ⟨rfl, rfl⟩, fun h => absurd hi h⟩
  · obtain ⟨steps, hot, hl, ht⟩ := setClocks_eq (s.measure w ds ts)
    rw [measure_power] at hl
    refine ⟨_, (clockInterval_opens hi w ds ts).trans (congrArg _ ht), rfl, rfl, rfl, by simp, fun k c c' hc hc' => ?_⟩
    simp only [measure_clusters, List.getElem?_map, hc, Option.map_some] at hc'
    cases hc'
    exact ⟨rfl, rfl, rfl, fun h => absurd h hi, fun _ => clocked_measure_paced s w ds ts c hl⟩

/-- The mailbox answers a served port in its range: a raise is only noted, and everything else only sends. -/
theorem mailboxRequest_effect {s : State} {port off : Nat} (hs : s.served (.port port) = true) (ho : off < 0x1000)
    (req : MailReq) :
    ∃ t, exec (.mailboxRequest port ⟨off, req⟩) s = .next t ∧
      t = { s with fresh := t.fresh, out := t.out, mg := t.mg } ∧ t.mg = { s.mg with raise := t.mg.raise } ∧
      s.mg.raise ≤ t.mg.raise ∧
      ∀ v, req = .raiseSvn v → t.mg.raise = (if s.mg.raise < v then v else s.mg.raise) ∧ t.out = s.out := by
  cases req with
  | spdm p code =>
    obtain ⟨n, bs, hx⟩ := mailboxRequest_spdm hs ho p code
    obtain ⟨o, hr⟩ := spdm_next (s := s.used n) (via := .port port) (p := p) (bs := bs)
    exact ⟨_, hx.trans hr, rfl, rfl, BitVec.le_refl _, fun v h => nomatch h⟩
  | raiseSvn svn =>
    refine ⟨_, mailboxRequest_raise hs ho svn, rfl, rfl, ?_, fun v h => ?_⟩
    · show s.mg.raise ≤ if s.mg.raise < svn then svn else s.mg.raise
      split
      next h => exact BitVec.le_of_lt h
      next => exact BitVec.le_refl _
    · cases h
      exact ⟨rfl, rfl⟩
  | other x => exact ⟨_, mailboxRequest_other hs ho x, rfl, rfl, BitVec.le_refl _, fun v h => nomatch h⟩

/-- Settles O50: a lemma for each step of bring-up and each request, and for the clocks the need of each cluster, which
neither an exceeded budget nor the device limit leaves at the clock that was. -/
theorem management : Obligations.Management := by
  refine ⟨fun s v => ?bringUp, fun s p port off via i nonce img sign idx x req => ?requests⟩
  case bringUp =>
    refine ⟨powerGood_off, powerGood_on, bootNext_rom, bootNext_training, fun h => ⟨?passes, ?fails⟩,
      fun h => ⟨fun q hq => (bootNext_links h).trans (trained_of_port hq),
        fun hq => (bootNext_links h).trans (trained_of_noPort hq)⟩,
      recoveryImageCheck_ignored,
      fun ha hlo hhi => (recoveryImageCheck_asked ha).trans (if_neg (by omega)),
      fun ha hlen => (recoveryImageCheck_asked ha).trans (if_pos hlen)⟩
    case passes =>
      intro hp
      refine ⟨_, (bootNext_image h).trans (verify_passes hp), rfl, rfl, rfl, rfl, rfl, fun d hd => ?_, rfl⟩
      obtain ⟨d, -, rfl⟩ := List.mem_map.1 hd
      exact Part.withImage_en _ d
    case fails =>
      rintro n rfl hn
      exact (bootNext_image h).trans (verify_fails hn)
  case requests =>
    refine ⟨answers_of_spdm rfl rfl, answers_of_spdm rfl rfl, answers_of_spdm rfl ⟨rfl, rfl, rfl, rfl⟩,
      answers_of_spdm rfl rfl,
      answers_of_spdm rfl (exists_append_of_infix (chain_infix_certificate p)),
      answers_of_spdm rfl (exists_append_of_infix (digest_infix_auth nonce)),
      answers_of_spdm rfl ⟨fun hi => exists_append_of_infix (asked_infix_measure ?all),
        fun n hn hi => exists_append_of_infix (asked_infix_measure ?one)⟩,
      ⟨mailboxRequest_ignored, fun hs ho => mailboxRequest_effect hs ho req⟩,
      fun d hd h2 h8 => ⟨_, pmrExtend_extends h2 h8, ?extended, rfl⟩,
      pmrExtend_ignored, rfl, ⟨_, rfl, rfl, rfl⟩, clockInterval_clusters s⟩
    case all => rw [hi]; exact asked_all _
    case one => rw [hi]; exact asked_one _ hn
    case extended => simp [hd]

end Sys2Proof.Machine
end

section
/-!
SUPPORT. Fields of a word that are read after one of them is written.
-/

namespace Sys2Proof.Machine

variable {w hi lo v : Nat}

/-- A number with `k` of its bits from bit `lo` on replaced, as its three parts. -/
theorem splice_eq {n v lo k : Nat} :
    n - (n / 2 ^ lo % 2 ^ k) * 2 ^ lo + (v % 2 ^ k) * 2 ^ lo =
      2 ^ lo * (2 ^ k * (n / 2 ^ lo / 2 ^ k) + v % 2 ^ k) + n % 2 ^ lo := by
  have parts : 2 ^ lo * (2 ^ k * (n / 2 ^ lo / 2 ^ k)) + (n / 2 ^ lo % 2 ^ k) * 2 ^ lo + n % 2 ^ lo = n := by
    rw [Nat.mul_comm (_ % _), ← Nat.mul_add, Nat.div_add_mod (n / 2 ^ lo), Nat.div_add_mod]
  rw [Nat.mul_add, Nat.mul_comm (2 ^ lo) (v % 2 ^ k)]
  omega

theorem testBit_bits (x : BitVec w) (hi lo i : Nat) :
    (bits x hi lo).testBit i = (decide (i < hi + 1 - lo) && x.getLsbD (i + lo)) := by
  simp [bits, Nat.testBit_mod_two_pow, Nat.testBit_div_two_pow, BitVec.getLsbD]

/-- Within the field the new value's bits, and the old word's everywhere else. -/
theorem getLsbD_setBits (x : BitVec w) (hl : lo ≤ hi) (i : Nat) :
    (setBits x hi lo v).getLsbD i =
      (decide (i < w) && if lo ≤ i ∧ i ≤ hi then v.testBit (i - lo) else x.getLsbD i) := by
  simp only [setBits, BitVec.getLsbD_ofNat, splice_eq]
  rw [Nat.testBit_two_pow_mul_add _ (Nat.mod_lt _ (by positivity)),
    Nat.testBit_two_pow_mul_add _ (Nat.mod_lt _ (by positivity))]
  congr 1
  by_cases below : i < lo
  · have out : ¬ lo ≤ i := by omega
    simp [below, out, Nat.testBit_mod_two_pow, BitVec.getLsbD]
  · by_cases inside : i ≤ hi
    · have h1 : i - lo < hi + 1 - lo := by omega
      have h2 : lo ≤ i := by omega
      simp [below, inside, h1, h2, Nat.testBit_mod_two_pow]
    · have h1 : ¬ i - lo < hi + 1 - lo := by omega
      have h2 : i - lo - (hi + 1 - lo) + (hi + 1 - lo) + lo = i := by omega
      simp [below, inside, h1, h2, Nat.testBit_div_two_pow, BitVec.getLsbD]

theorem bits_setBits_same (x : BitVec w) (hl : lo ≤ hi) (hw : hi < w) :
    bits (setBits x hi lo v) hi lo = v % 2 ^ (hi + 1 - lo) := by
  refine Nat.eq_of_testBit_eq fun i => ?_
  rw [testBit_bits, getLsbD_setBits x hl, Nat.testBit_mod_two_pow]
  by_cases hi' : i < hi + 1 - lo
  · have h1 : i + lo < w := by omega
    have h2 : lo ≤ i + lo ∧ i + lo ≤ hi := by omega
    simp [hi', h1, h2]
  · simp [hi']

theorem getLsbD_setBits_other (x : BitVec w) {i : Nat} (hl : lo ≤ hi) (h : i < lo ∨ hi < i) :
    (setBits x hi lo v).getLsbD i = x.getLsbD i := by
  rw [getLsbD_setBits x hl, if_neg (by omega)]
  by_cases hi' : i < w
  · simp [hi']
  · simp [hi', BitVec.getLsbD_of_ge x i (by omega)]

theorem bits_setBits_other (x : BitVec w) {a b : Nat} (hl : lo ≤ hi) (h : a < lo ∨ hi < b) :
    bits (setBits x hi lo v) a b = bits x a b := by
  refine Nat.eq_of_testBit_eq fun i => ?_
  rw [testBit_bits, testBit_bits]
  by_cases hi' : i < a + 1 - b
  · rw [getLsbD_setBits_other x hl (by omega)]
  · simp [hi']

/-- A field of a number that has it above a smaller one. -/
theorem bits_ofNat_high {a b : Nat} (ha : a < 2 ^ 16) (hb : b < 2 ^ 16) :
    bits (BitVec.ofNat 32 (a * 2 ^ 16 + b)) 31 16 = a ∧ bits (BitVec.ofNat 32 (a * 2 ^ 16 + b)) 15 0 = b := by
  simp only [bits, BitVec.toNat_ofNat]
  omega

end Sys2Proof.Machine
end

section
/-!
SUPPORT. What an arrival makes of a barrier word (R197), case by case.
-/

namespace Sys2Proof.Machine

variable {b : W64} {n idx : Nat} {sat : Byte}

/-- The token that an arrival has: PHASE and the word's index. -/
def barToken (b : W64) (idx : Nat) : W32 := BitVec.ofNat 32 (phaseOf b * 2 ^ 16 + idx)

/-- CSAT with an arrival's flags, where the word collects them. -/
def barCsat (b : W64) (sat : Byte) : Nat := if b.getLsbD 31 then bits b 39 32 ||| sat.toNat else bits b 39 32

/-- The word with that CSAT. -/
def barCollect (b : W64) (sat : Byte) : W64 := if b.getLsbD 31 then setBits b 39 32 (bits b 39 32 ||| sat.toNat) else b

/-- The word that has begun its next phase. -/
def barNext (b : W64) : W64 :=
  setBits (setBits (setBits (setBits b 63 48 (phaseOf b + 1)) 47 40 (bits b 39 32)) 39 32 0) 14 0 0

theorem arrival_none_iff : arrival b n sat idx = none ↔ bits b 30 16 = 0 ∨ bits b 30 16 < bits b 14 0 + n := by
  unfold arrival
  simp only [Bool.or_eq_true, decide_eq_true_eq]
  split
  case isTrue h => simp [h]
  case isFalse h => split <;> [skip; split] <;> simp [h]

theorem arrival_of_zero (he : bits b 30 16 ≠ 0) (hc : bits b 14 0 ≤ bits b 30 16) :
    arrival b 0 sat idx = some (barToken b idx, b, false) := by
  simp [arrival, barToken, he, Nat.not_lt.2 hc]

theorem arrival_of_last (he : bits b 30 16 ≠ 0) (hn : 0 < n) (hc : bits b 14 0 + n = bits b 30 16) :
    arrival b n sat idx = some (barToken b idx, barNext (barCollect b sat), true) := by
  simp [arrival, barToken, he, hc, hn.ne', barNext, barCollect]

theorem arrival_of_more (he : bits b 30 16 ≠ 0) (hn : 0 < n) (hc : bits b 14 0 + n < bits b 30 16) :
    arrival b n sat idx = some (barToken b idx, setBits (barCollect b sat) 14 0 (bits b 14 0 + n), false) := by
  simp [arrival, barToken, he, hc.ne, hc.le, hn.ne', barCollect]

theorem phaseOf_lt (b : W64) : phaseOf b < 2 ^ 16 := bits_lt b 63 48

theorem barToken_fields (h : idx < 2 ^ 16) : bits (barToken b idx) 31 16 = phaseOf b ∧ bits (barToken b idx) 15 0 = idx :=
  bits_ofNat_high (phaseOf_lt b) h

/-- What collecting flags leaves as it was. -/
theorem barCollect_other (b : W64) (sat : Byte) {hi lo : Nat} (h : hi < 32 ∨ 39 < lo) :
    bits (barCollect b sat) hi lo = bits b hi lo := by
  unfold barCollect
  split
  · exact bits_setBits_other b (by omega) h
  · rfl

theorem barCollect_sck (b : W64) (sat : Byte) : (barCollect b sat).getLsbD 31 = b.getLsbD 31 := by
  unfold barCollect
  split
  · exact getLsbD_setBits_other b (by omega) (by omega)
  · rfl

theorem barCollect_csat (b : W64) (sat : Byte) : bits (barCollect b sat) 39 32 = barCsat b sat := by
  unfold barCollect barCsat
  split
  · rw [bits_setBits_same b (by omega) (by omega)]
    exact Nat.mod_eq_of_lt (Nat.or_lt_two_pow (bits_lt b 39 32) sat.isLt)
  · rfl

theorem barNext_phase (b : W64) : phaseOf (barNext b) = (phaseOf b + 1) % 2 ^ 16 := by
  unfold barNext phaseOf
  rw [bits_setBits_other _ (by omega) (by omega), bits_setBits_other _ (by omega) (by omega),
    bits_setBits_other _ (by omega) (by omega), bits_setBits_same _ (by omega) (by omega)]

theorem barNext_cnt (b : W64) : bits (barNext b) 14 0 = 0 := bits_setBits_same _ (by omega) (by omega)

theorem barNext_exp (b : W64) : bits (barNext b) 30 16 = bits b 30 16 := by
  unfold barNext
  iterate 4 rw [bits_setBits_other _ (by omega) (by omega)]

theorem barNext_lsat (b : W64) : bits (barNext b) 47 40 = bits b 39 32 := by
  unfold barNext
  rw [bits_setBits_other _ (by omega) (by omega), bits_setBits_other _ (by omega) (by omega),
    bits_setBits_same _ (by omega) (by omega)]
  exact Nat.mod_eq_of_lt (bits_lt b 39 32)

theorem barNext_csat (b : W64) : bits (barNext b) 39 32 = 0 := by
  unfold barNext
  rw [bits_setBits_other _ (by omega) (by omega), bits_setBits_same _ (by omega) (by omega)]
  rfl

theorem barNext_sck (b : W64) : (barNext b).getLsbD 31 = b.getLsbD 31 := by
  unfold barNext
  iterate 4 rw [getLsbD_setBits_other _ (by omega) (by omega)]

end Sys2Proof.Machine
end

section
/-!
SUPPORT. The bank ALU's answer to an ARRIVE (R36, R48, R197, R199).
-/

namespace Sys2Proof.Machine

variable {s : State} {id : Nat} {a : Acc} {g : Group} {l : Lane} {w : Wave}

theorem waveUid?_uid {uid : Nat} (h : s.waveUid? uid = some w) : w.uid = uid := by
  simpa using List.find?_some h

theorem group?_id {k : GroupId} (h : s.group? k = some g) : g.id = k := by
  simpa using List.find?_some h

/-- A change of the wave of one number that keeps numbers, as the waves by number show it. -/
theorem waveUid?_modUid {uid : Nat} {f : Wave → Wave} (hf : ∀ x, (f x).uid = x.uid) (h : s.waveUid? uid = some w) :
    (s.modUid uid f).waveUid? uid = some (f w) := by
  have hq := find?_upd (fun w : Wave => decide (w.uid = uid)) (fun w => decide (w.uid = uid)) f (by simp [hf]) s.waves
  have hw : s.waves.find? (fun w => decide (w.uid = uid)) = some w := h
  rw [hw] at hq
  simpa [State.waveUid?, waveUid?_uid h] using hq

theorem group?_modGroup {g₀ : GroupId} {f : Group → Group} (hf : ∀ x, (f x).id = x.id) (k : GroupId) :
    (s.modGroup g₀ f).group? k = (s.group? k).map fun x => if x.id = g₀ then f x else x := by
  have := find?_upd (fun x : Group => decide (x.id = k)) (fun x => decide (x.id = g₀)) f (by simp [hf]) s.groups
  simpa [State.group?, State.modGroup] using this

theorem group?_modGroup_same {k : GroupId} {f : Group → Group} (hf : ∀ x, (f x).id = x.id) (h : s.group? k = some g) :
    (s.modGroup k f).group? k = some (f g) := by
  rw [group?_modGroup hf, h]
  simp [group?_id h]

theorem group?_modGroup_other {g₀ k : GroupId} {f : Group → Group} (hf : ∀ x, (f x).id = x.id) (h : k ≠ g₀) :
    (s.modGroup g₀ f).group? k = s.group? k := by
  rw [group?_modGroup hf]
  cases e : s.group? k with
  | none => rfl
  | some x => simp [group?_id e, h]

/-! ### A scalar result that lands -/

/-- A scalar register is kept by every restart. -/
theorem keptBy_scalar (lim : Option Nat) (r : Nat) (x : W32) : ([.s r x] : List Put).filter (Put.keptBy lim) = [.s r x] := by
  cases lim <;> rfl

theorem decSf_eq (w : Wave) (sf : BitVec 4) (n : Nat) : w.decSf sf n = { w with pend := (w.decSf sf n).pend } := by
  unfold Wave.decSf
  split <;> rfl

theorem uid_landIn (a : Acc) (now r : Nat) (x : W32) (w : Wave) :
    (if w.life = .exited then w
      else (((([.s r x] : List Put).filter (Put.keptBy a.lim)).foldl Wave.land w).marks now
        (([.s r x] : List Put).filter (Put.keptBy a.lim))).decSf a.sf now).uid = w.uid := by
  rw [keptBy_scalar]
  split
  · rfl
  · rw [decSf_eq]
    rfl

/-- What lands in a live wave with a scalar result: the register, the write port and the flag's count. -/
theorem landIn_scalar (hw : s.waveUid? a.uid = some w) (hl : w.life = .live) (r : Nat) (x : W32) :
    ∃ w', (s.landIn a [.s r x]).waveUid? a.uid = some w' ∧
      w' = { w with s := w.s.set r x, pend := w'.pend, swrite := w'.swrite } := by
  refine ⟨_, waveUid?_modUid (uid_landIn a _ r x) hw, ?_⟩
  rw [keptBy_scalar, if_neg (by simp [hl]), decSf_eq]
  rfl

/-! ### The answers -/

/-- The window with an arrival's word in it. -/
def Group.arrive (last : Bool) (x : Nat) (new : W64) (g : Group) : Group :=
  if last then g.flip x new else g.put x (leBytes 8 new.toNat)

theorem Group.arrive_eq (last : Bool) (x : Nat) (new : W64) (g : Group) :
    g.arrive last x new =
      { g with window := winSet g.window x (leBytes 8 new.toNat), flips := (g.arrive last x new).flips } := by
  unfold Group.arrive Group.flip
  split <;> rfl

theorem Group.arrive_id (last : Bool) (x : Nat) (new : W64) (g : Group) : (g.arrive last x new).id = g.id := by
  rw [Group.arrive_eq]

/-- A wave that waits for its arrival no more, with what is due at its next boundary. -/
def Wave.arrived (next : Nat) (ds : List Due) (w : Wave) : Wave :=
  { w with wait := .none, notBefore := next, due := w.due ++ ds }

/-- The state that an arrival leaves. -/
def State.arrived (s : State) (a : Acc) (l : Lane) (w : Wave) (r : Nat) (tok : W32) (new : W64) (last : Bool) : State :=
  ((((s.bankUse a.w.core (a.service l)).modGroup a.grp (Group.arrive last l.pa new)).complete a [.s r tok]).modUid a.uid
    (Wave.arrived (s.cyc a.w.core + 1) (s.barrierDue w (if last then [3, 4] else [3]) l.pa)))

/-- What `arrival` makes of the word that an ARRIVE names. -/
abbrev arrivalOf (g : Group) (l : Lane) : Option (W32 × W64 × Bool) :=
  arrival (BitVec.ofNat 64 (g.rdNat l.pa 8)) l.data.toNat (l.cmp.truncate 8) (l.pa / 8)

theorem barrierArrival_held (hr : s.ripe id (· = .arrive) = some a) (hw : s.waveUid? a.uid = some w)
    (h : s.saving a.grp.part = true ∨ s.parked w = true) : exec (.barrierArrival id) s = .next s := by
  rcases h with h | h <;> simp [exec, execBarrierArrival, hr, hw, h]

/-- A live wave is among those that an answer reaches. -/
theorem filter_live (h : w.life = .live) : (some w).filter (fun w : Wave => decide (w.life = .live)) = some w := by
  simp [Option.filter, h]

section
variable (hr : s.ripe id (· = .arrive) = some a) (ho : s.orderOk a = true) (hg : s.group? a.grp = some g)
  (hl : a.lanes = [l]) (hw : s.waveUid? a.uid = some w)
  (hf : s.bankFree a.w.core (a.service l) = true) (hs : s.saving a.grp.part = false) (hp : s.parked w = false)
include hr ho hg hl hw hf hs hp

theorem barrierArrival_misuse (hlive : w.life = .live) (hn : arrivalOf g l = none) :
    exec (.barrierArrival id) s = .next (((s.bankUse a.w.core (a.service l)).dropAcc id).trapBack
      { w with wait := .none } a.sf 9 (BitVec.ofNat 64 l.pa)) := by
  simp only [arrivalOf] at hn
  simp [exec, execBarrierArrival, hr, ho, hg, hl, hw, filter_live hlive, hf, hs, hp, hn]

theorem barrierArrival_switch {y : W32 × W64 × Bool} (hy : arrivalOf g l = some y) (hd : s.switchDue a.grp.part = true) :
    exec (.barrierArrival id) s = .next s := by
  simp only [arrivalOf] at hy
  simp [exec, execBarrierArrival, hr, ho, hg, hl, hw, hf, hs, hp, hy, hd]

theorem barrierArrival_arrives (hlive : w.life = .live) {tok : W32} {new : W64} {last : Bool} {r : Nat}
    (hy : arrivalOf g l = some (tok, new, last))
    (hdst : a.dst = .s r false) (hd : s.switchDue a.grp.part = false) :
    exec (.barrierArrival id) s = .next (s.arrived a l w r tok new last) := by
  simp only [arrivalOf] at hy
  simp [exec, execBarrierArrival, hr, ho, hg, hl, hw, filter_live hlive, hf, hs, hp, hy, hd, hdst]
  rfl

end

section
variable (s : State) (a : Acc) (l : Lane) (w : Wave) (r : Nat) (tok : W32) (new : W64) (last : Bool)

@[simp] theorem arrived_mem : (s.arrived a l w r tok new last).mem = s.mem := by
  simp [State.arrived, State.complete, State.landIn, State.bankUse]
@[simp] theorem arrived_accs : (s.arrived a l w r tok new last).accs = s.accs.filter fun y => y.id ≠ a.id := by
  simp [State.arrived, State.complete, State.landIn, State.bankUse]

end

/-- The wave whose ARRIVE its bank ALU answers. -/
theorem arrived_wave (hw : s.waveUid? a.uid = some w) (hlive : w.life = .live) (r : Nat) (tok : W32) (new : W64)
    (last : Bool) :
    ∃ w', (s.arrived a l w r tok new last).waveUid? a.uid = some w' ∧ w'.wait = .none ∧
      w'.s = w.s.set r tok ∧ w'.v = w.v ∧ w'.p = w.p ∧ w'.pc = w.pc ∧ w'.exec = w.exec ∧
      w'.due = w.due ++ s.barrierDue w (if last then [3, 4] else [3]) l.pa := by
  let s1 := (s.bankUse a.w.core (a.service l)).modGroup a.grp (Group.arrive last l.pa new)
  obtain ⟨w1, h1, e1⟩ := landIn_scalar (s := s1) (a := a) hw hlive r tok
  have h2 := waveUid?_modUid (s := s1.complete a [.s r tok])
    (f := Wave.arrived (s.cyc a.w.core + 1) (s.barrierDue w (if last then [3, 4] else [3]) l.pa)) (fun _ => rfl) h1
  refine ⟨_, h2, rfl, ?_⟩
  rw [e1]
  exact ⟨rfl, rfl, rfl, rfl, rfl, rfl⟩

/-- The groups once the word of one of them holds its arrival. -/
theorem arrived_group (hg : s.group? a.grp = some g) (l : Lane) (w : Wave) (r : Nat) (tok : W32) (new : W64)
    (last : Bool) :
    (s.arrived a l w r tok new last).group? a.grp = some (g.arrive last l.pa new) ∧
      ∀ k, k ≠ a.grp → (s.arrived a l w r tok new last).group? k = s.group? k :=
  have keeps (x : Group) := x.arrive_id last l.pa new
  ⟨group?_modGroup_same (s := s.bankUse a.w.core (a.service l)) keeps hg,
    fun _ hk => group?_modGroup_other (s := s.bankUse a.w.core (a.service l)) keeps hk⟩

end Sys2Proof.Machine
end

section
/-! Arrivals at a barrier: the statement about them, and its proof. -/

namespace Sys2Proof.Machine

/-- The three kinds of arrival and the one that is misuse (R197). -/
theorem arrival_cases (b : W64) (n idx : Nat) (sat : Byte) (hidx : idx < 2 ^ 16) :
    let exp := bits b 30 16
    let cnt := bits b 14 0
    let csat := if b.getLsbD 31 then bits b 39 32 ||| sat.toNat else bits b 39 32
    ((exp = 0 ∨ exp < cnt + n) ↔ arrival b n sat idx = none) ∧
    (exp ≠ 0 → n = 0 → cnt ≤ exp → ∃ t, arrival b n sat idx = some (t, b, false) ∧ bits t 31 16 = phaseOf b ∧
      bits t 15 0 = idx) ∧
    (exp ≠ 0 → 0 < n → cnt + n = exp → ∃ t x, arrival b n sat idx = some (t, x, true) ∧
      bits t 31 16 = phaseOf b ∧ bits t 15 0 = idx ∧ phaseOf x = (phaseOf b + 1) % 2 ^ 16 ∧ bits x 14 0 = 0 ∧
      bits x 30 16 = exp ∧ bits x 47 40 = csat ∧ bits x 39 32 = 0 ∧ x.getLsbD 31 = b.getLsbD 31) ∧
    (exp ≠ 0 → 0 < n → cnt + n < exp → ∃ t x, arrival b n sat idx = some (t, x, false) ∧
      bits t 31 16 = phaseOf b ∧ bits t 15 0 = idx ∧ phaseOf x = phaseOf b ∧ bits x 14 0 = cnt + n ∧
      bits x 30 16 = exp ∧ bits x 47 40 = bits b 47 40 ∧ bits x 39 32 = csat ∧ x.getLsbD 31 = b.getLsbD 31) := by
  obtain ⟨htp, hti⟩ := barToken_fields (b := b) hidx
  have hphase : phaseOf (barCollect b sat) = phaseOf b := barCollect_other b sat (by omega)
  refine ⟨arrival_none_iff.symm, ?zero, ?last, ?more⟩
  case zero =>
    rintro he rfl hc
    exact ⟨_, arrival_of_zero he hc, htp, hti⟩
  case last =>
    intro he hn hc
    refine ⟨_, _, arrival_of_last he hn hc, htp, hti, ?_, barNext_cnt _, ?_, ?_, barNext_csat _, ?_⟩
    · rw [barNext_phase, hphase]
    · rw [barNext_exp, barCollect_other b sat (by omega)]
    · rw [barNext_lsat, barCollect_csat, barCsat]
    · rw [barNext_sck, barCollect_sck]
  case more =>
    intro he hn hc
    have small : bits b 14 0 + n < 2 ^ 15 := hc.trans (bits_lt b 30 16)
    have other {hi lo : Nat} (h : hi < 32 ∨ 39 < lo) (h' : 14 < lo) :
        bits (setBits (barCollect b sat) 14 0 (bits b 14 0 + n)) hi lo = bits b hi lo := by
      rw [bits_setBits_other _ (by omega) (by omega), barCollect_other b sat h]
    refine ⟨_, _, arrival_of_more he hn hc, htp, hti, other (by omega) (by omega), ?_, other (by omega) (by omega),
      other (by omega) (by omega), ?_, ?_⟩
    · rw [bits_setBits_same _ (by omega) (by omega)]
      exact Nat.mod_eq_of_lt small
    · rw [bits_setBits_other _ (by omega) (by omega), barCollect_csat, barCsat]
    · rw [getLsbD_setBits_other _ (by omega) (by omega), barCollect_sck]

/-- Settles O25: the fields of the word by how writes to fields are read, and the bank ALU's answer by the cases of
`execBarrierArrival`. -/
theorem barrierArrivals : Obligations.BarrierArrivals := by
  refine ⟨arrival_cases, fun s id a g l w hr ho hg hl hw hlive hf hs hp => ?_, fun s id a w => barrierArrival_held⟩
  refine ⟨barrierArrival_misuse hr ho hg hl hw hf hs hp hlive,
    fun y hy hd => barrierArrival_switch hr ho hg hl hw hf hs hp hy hd, fun tok x last r hy hdst hd => ?_⟩
  obtain ⟨w', hw', hwait, hs', hv, hp', hpc, hx, hdue⟩ := arrived_wave (l := l) hw hlive r tok x last
  obtain ⟨hg', hother⟩ := arrived_group hg l w r tok x last
  exact ⟨_, w', _, barrierArrival_arrives hr ho hg hl hw hf hs hp hlive hy hdst hd, hw', hwait, hs', hv, hp', hpc, hx, hdue,
    hg', g.arrive_eq last l.pa x, hother, arrived_accs .., arrived_mem ..⟩

end Sys2Proof.Machine
end

section
/-!
SUPPORT. Masks of threads, and what EXGET and PMASK send (R37, R128).
-/

namespace Sys2Proof.Machine

/-- Bit `t` of a mask is set where the list names thread `t`. -/
theorem getLsbD_maskOf (l : List Nat) {t : Nat} (ht : t < 64) : (maskOf l).getLsbD t = decide (t ∈ l) := by
  have from_ (m : W64) : (l.foldl (fun m t => m ||| (1#64 <<< t)) m).getLsbD t = (m.getLsbD t || decide (t ∈ l)) := by
    induction l generalizing m with
    | nil => simp
    | cons x l ih =>
      have one : (1#64 <<< x).getLsbD t = decide (t = x) := by
        rw [BitVec.getLsbD_shiftLeft, BitVec.getLsbD_one, Bool.eq_iff_iff]
        simp [ht]
        omega
      rw [List.foldl_cons, ih, BitVec.getLsbD_or, one, Bool.or_assoc]
      simp
  simpa [maskOf] using from_ 0

/-- A predicate as a mask: the threads of the wave's width in which it holds. -/
theorem getLsbD_rpMask (w : Wave) (at_ n : Nat) {t : Nat} (ht : t < 64) :
    (w.rpMask at_ n).getLsbD t = (decide (t < w.kern.width) && w.rp at_ n t) := by
  rw [Wave.rpMask, getLsbD_maskOf _ ht]
  simp

end Sys2Proof.Machine

namespace Sys2Proof.Claims

open Sys2Proof.Machine

/-- A 64-bit scalar result, where the guard holds. -/
theorem sends_of_scalarPair {s : State} {w : Wave} {i : Instr} {h : Hdr} {d : BitVec 8} {f : Env → W64} {m : W64}
    (hx : exec i s = scalarPair i h d f s) (hm : f (mkEnv s w true i) = m) (hi : Issues s w i true) :
    Sends s w i h true 2 fun e =>
      if w.uGuard h e.c0 then [.s d.toNat (lo32 m), .s (d.toNat + 1) (hi32 m)] else [] := by
  refine sends_of_fixed hx hi rfl ?_
  rw [← hm]
  rfl

end Sys2Proof.Claims
end

section
/-! Reads of the exec mask: the statement about them, and its proof. -/

namespace Sys2Proof.Machine

open Sys2Proof.Claims

/-- Settles O11: EXGET and PMASK send a pair each, PMASK's being exec and the predicate's mask. -/
theorem execMaskReads : Obligations.ExecMaskReads := by
  refine fun s w h d p => ⟨sends_of_scalarPair (f := fun e => e.w.exec) rfl rfl, fun hi => ?_⟩
  refine ⟨w.exec &&& w.rpMask (s.cyc w.id.core) p.toNat,
    sends_of_scalarPair (f := fun e => e.w.exec &&& e.w.rpMask e.c0 p.toNat) rfl rfl hi, fun t ht => ?_⟩
  rw [BitVec.getLsbD_and, getLsbD_rpMask w _ _ ht]
  cases decide (t < w.kern.width) <;> simp

end Sys2Proof.Machine
end

section
/-!
SUPPORT. What EXIT and a restart as a successor leave (R39, R40, R122, R123).
-/

namespace Sys2Proof.Machine

open Sys2Proof.Claims

variable {s : State} {w : Wave}

/-! ### Issues under R24 -/

/-- An instruction that its entry holds changes nothing. -/
theorem issue_held {i : Instr} {h : Hdr} {chk : State → Env → Chk} {eff : Env → State → State} (hi : Issues s w i true)
    (hc : chk s (mkEnv s w true i) = .hold) : issue i h true chk eff s = .next s := by
  obtain ⟨slot, live, fits, ports, data, -, -, poison⟩ := hi
  simp [issue, slot, live, fits, ports, data, hc, ownerChk, poison, State.judge]

/-- Packets of an event change only what the cycle brings to the traces. -/
theorem traceFrom_eq (s : State) (w : Wave) (src : TrSrc) (ps : List TrPkt) :
    s.traceFrom w src ps = { s with trq := (s.traceFrom w src ps).trq } := by
  simp only [State.traceFrom]
  split <;> rfl

theorem trace_eq (s : State) (w : Wave) (ps : List TrPkt) : s.trace w ps = { s with trq := (s.trace w ps).trq } :=
  traceFrom_eq s w w.trSrc ps

@[simp] theorem wave?_trace (s : State) (w : Wave) (ps : List TrPkt) (k : WaveId) : (s.trace w ps).wave? k = s.wave? k := by
  rw [trace_eq]
  rfl

@[simp] theorem trace_accs (s : State) (w : Wave) (ps : List TrPkt) : (s.trace w ps).accs = s.accs := by
  rw [trace_eq]

/-! ### Queue ports and registers that a restart clears -/

/-- With all its entries dropped a port holds none to pop. -/
theorem live_drop_all (q : Queue) (free : Nat) : (q.drop q.entries.length free).live = [] := by
  have all : q.live.take q.entries.length = q.live := List.take_of_length_le (List.length_filter_le _ _)
  refine List.filter_eq_nil_iff.2 fun e he => ?_
  simp only [Queue.drop, all, List.mem_map, List.mem_filter] at he
  obtain ⟨e₀, ⟨hin, -⟩, rfl⟩ := he
  cases hd : e₀.dropped with
  | true => split <;> simp [hd]
  | false =>
    have hlive : e₀ ∈ q.live := List.mem_filter.2 ⟨hin, by simp [hd]⟩
    have hacc : ∃ x ∈ q.live, x.acc = e₀.acc := ⟨e₀, hlive, rfl⟩
    simp [hacc]

/-- The successor that an EXIT.succ names, where it can keep its registers. -/
theorem succOk_of {idx : BitVec 2} {kovr : Bool} {k : BitVec 9} {keep off : Nat}
    (hk : w.kern.succ[idx.toNat]? = some (some (keep, off))) (h8 : (if kovr then k.toNat else keep) % 8 = 0)
    (hle : (if kovr then k.toNat else keep) ≤ w.kern.vregs) : w.succOk idx kovr k = some (keep, off) := by
  simp [Wave.succOk, hk, Wave.keepOf, Option.filter, h8, hle]

/-! ### EXIT -/

/-- The state that an EXIT leaves. -/
def State.exited (s : State) (w : Wave) : State :=
  ({ s with posts := s.posts ++ w.lasting }.modWave w.id fun x => x.exited w.pc).modGroup w.grp fun g =>
    { g with exited := g.exited + 1, lastExit := some w.trSrc }

section
variable {h : Hdr} (hi : Issues s w (.exit h) true) (hu : w.uGuard h (mkEnv s w true (.exit h)).c0 = true)
  (ht : (mkEnv s w true (.exit h)).ownsTile = false)
include hi hu ht

theorem exit_ends (hf : w.flagsZero = true) :
    exec (.exit h) s = .next ((s.enter w (mkEnv s w true (.exit h)) h).exited w) := by
  have hu' : (mkEnv s w true (.exit h)).w.uGuard h (mkEnv s w true (.exit h)).c0 = true := hu
  have hf' : (mkEnv s w true (.exit h)).w.flagsZero = true := hf
  have hx : exec (.exit h) s = execExit h s := rfl
  rw [hx, execExit, issue_ok hi ?_, if_pos hu']
  · rfl
  · rw [hu', ht, hf']
    rfl

theorem exit_held (hf : w.flagsZero = false) : exec (.exit h) s = .next s := by
  have hu' : (mkEnv s w true (.exit h)).w.uGuard h (mkEnv s w true (.exit h)).c0 = true := hu
  have hf' : (mkEnv s w true (.exit h)).w.flagsZero = false := hf
  have hx : exec (.exit h) s = execExit h s := rfl
  rw [hx, execExit, issue_held hi ?_]
  rw [hu', ht, hf']
  rfl

end

/-- Nothing else differs once a wave has issued its EXIT. -/
theorem enter_exited_rest (s : State) (w : Wave) (e : Env) (h : Hdr) :
    let t := (s.enter w e h).exited w
    t = { s with waves := t.waves, groups := t.groups, posts := t.posts, cores := slotHeld s w e } := by
  simp only [State.exited, State.enter, State.modWave, State.modCore, State.modGroup, slotHeld]

/-- The wave that has ended keeps its place, its registers and its stall counters. -/
theorem exited_entered (w : Wave) (e : Env) (h : Hdr) :
    let x := (entered w e h).exited w.pc
    x.life = .exited ∧ x.pc = w.pc ∧ x.q = [] ∧ x.pend = [] ∧ x.v = w.v ∧ x.s = w.s ∧ x.p = w.p ∧ x.stalls = w.stalls := by
  rw [entered_frame]
  exact ⟨rfl, rfl, rfl, rfl, rfl, rfl, rfl, rfl⟩

/-! ### EXIT.succ -/

/-- The state that a restart as a successor leaves: `n` registers kept, at `pc`. -/
def State.restarted (s : State) (w : Wave) (n : Nat) (pc : W64) (free : Nat) : State :=
  let s := s.trace w [.pc pc]
  { s with accs := upd (fun a => a.uid = w.uid) (fun a => { a with lim := some (min n (a.lim.getD n)) }) s.accs }.modWave w.id
    fun x => x.restart n pc free

theorem exitSucc_restarts {h : Hdr} {idx : BitVec 2} {kovr : Bool} {k : BitVec 9} {x : Nat × Nat}
    (hi : Issues s w (.exitSucc h idx kovr k) true) (hx : w.succOk idx kovr k = some x)
    (hu : w.uGuard h (mkEnv s w true (.exitSucc h idx kovr k)).c0 = true)
    (ht : (mkEnv s w true (.exitSucc h idx kovr k)).ownsTile = false) (hf : w.flagsZero = true) :
    exec (.exitSucc h idx kovr k) s =
      .next ((s.enter w (mkEnv s w true (.exitSucc h idx kovr k)) h).restarted w (Wave.keepOf kovr k x)
        (w.kern.entry + 12 * BitVec.ofNat 64 x.2) ((mkEnv s w true (.exitSucc h idx kovr k)).c + 1)) := by
  let e := mkEnv s w true (.exitSucc h idx kovr k)
  have hu' : e.w.uGuard h e.c0 = true := hu
  have hf' : e.w.flagsZero = true := hf
  have hx' : e.w.succOk idx kovr k = some x := hx
  have hex : exec (.exitSucc h idx kovr k) s = execExitSucc h idx kovr k s := rfl
  rw [hex, execExitSucc, issue_ok hi ?_]
  · rw [hx', hu']
    rfl
  · rw [hx', hu', ht, hf']
    rfl

section
variable (s : State) (w : Wave) (e : Env) (h : Hdr) (n free : Nat) (pc : W64)

theorem enter_restarted_accs : ((s.enter w e h).restarted w n pc free).accs =
    upd (fun a => a.uid = w.uid) (fun a => { a with lim := some (min n (a.lim.getD n)) }) s.accs := by
  simp [State.restarted]

/-- A restart reaches its wave, its accesses, and the packets of the cycle. -/
theorem enter_restarted_frame :
    let t := (s.enter w e h).restarted w n pc free
    recordFrame { s with accs := t.accs } t := by
  unfold recordFrame State.restarted
  rw [trace_eq]
  simp only [State.enter, State.modWave, State.modCore]

end

/-- What a restarted wave has kept and what it has lost. -/
theorem restart_entered (w : Wave) (e : Env) (h : Hdr) (n free : Nat) (pc : W64) :
    let x := (entered w e h).restart n pc free
    x.life = w.life ∧ x.pc = pc ∧ x.exec = w.present ∧ x.pathidx = 0xFFFF ∧
      (∀ y, y ∈ x.v ↔ y ∈ w.v ∧ y.1 / 64 < n) ∧ x.s = w.s ∧ x.p = [] ∧ x.h = w.h ∧ x.hpend = w.hpend ∧
      x.sat = w.sat ∧ x.arm = w.arm ∧ x.stalls = w.stalls ∧ x.wcyc = w.wcyc ∧ x.tr = w.tr ∧
      ∀ q, q ∈ x.q → q.live = [] := by
  rw [entered_frame]
  refine ⟨rfl, rfl, rfl, rfl, fun y => ?_, rfl, rfl, rfl, rfl, rfl, rfl, rfl, rfl, rfl, fun q hq => ?_⟩
  · simp [Wave.restart]
  · obtain ⟨q₀, -, rfl⟩ := List.mem_map.1 hq
    exact live_drop_all q₀ free

end Sys2Proof.Machine
end

section
/-! EXIT and EXIT.succ: the statement about them, and its proof. -/

namespace Sys2Proof.Machine

open Sys2Proof.Claims

/-- Settles O13: an EXIT ends its wave or is held; an EXIT.succ goes on as the restart of its wave. -/
theorem exits : Obligations.Exits := by
  refine ⟨?exit, ?succ⟩
  case exit =>
    intro s w g h hi e hg hu ht
    refine ⟨fun hf => ?_, exit_held hi hu ht⟩
    have hen := entered_issued (e := e) (h := h) (s := s) (wave?_id hi.slot ▸ hi.slot)
    obtain ⟨hlife, hpc, hq, hpend, hv, hs, hp, hst⟩ := exited_entered w e h
    have hgrp : ((s.enter w e h).exited w).group? w.grp = some { g with exited := g.exited + 1, lastExit := some w.trSrc } :=
      group?_modGroup_same (fun _ => rfl) hg
    refine ⟨_, _, _, exit_ends hi hu ht hf, ?wave, hlife, hpc, hq, hpend, hv, hs, hp, hst, hgrp, rfl, fun k hk => ?waves,
      fun k hk => ?groups, rfl, enter_exited_rest s w e h⟩
    case wave => exact wave?_modWave_same (f := fun x => x.exited w.pc) (fun _ => rfl) hen.there
    case waves => exact (wave?_modWave_other (f := fun x => x.exited w.pc) (fun _ => rfl) hk).trans (hen.others k hk)
    case groups => exact group?_modGroup_other (fun _ => rfl) hk
  case succ =>
    intro s w h idx kovr k keep off i e hi hk n h8 hle hu ht hf
    have hen := entered_issued (e := e) (h := h) (s := s) (wave?_id hi.slot ▸ hi.slot)
    obtain ⟨hlife, hpc, hx, hpath, hv, hs, hp, hh, hhp, hsat, harm, hst, hcyc, htr, hq⟩ :=
      restart_entered w e h n (e.c + 1) (w.kern.entry + 12 * BitVec.ofNat 64 off)
    have keeps (x : Wave) : (x.restart n (w.kern.entry + 12 * BitVec.ofNat 64 off) (e.c + 1)).id = x.id := rfl
    refine ⟨_, _, exitSucc_restarts hi (succOk_of hk h8 hle) hu ht hf, ?wave, hlife.trans hi.live, hpc, hx, hpath, hv, hs, hp,
      hh, hhp, hsat, harm, hst, hcyc, htr, hq, fun x hx => ?waves, enter_restarted_accs .., enter_restarted_frame ..⟩
    case wave => exact wave?_modWave_same keeps ((wave?_trace ..).trans hen.there)
    case waves => exact (wave?_modWave_other keeps hx).trans ((wave?_trace ..).trans (hen.others x hx))

end Sys2Proof.Machine
end

section
/-!
SUPPORT. What the head of a wave is, and what a step does with it (R51–R55, R111).
-/

namespace Sys2Proof.Machine

/-! ### Fetch and head -/

/-- A byte of an instruction cache line. -/
theorem icByte_of_line {s : State} {core pa n k : Nat} {l : Line} (hl : s.icLine core n = some l) (hn : pa / 128 = n)
    (hk : pa % 128 = k) : s.icByte core pa = some (l.bytes.getD k 0) := by
  subst hn hk
  simp [State.icByte, hl]

/-- The fetch of a word that lies within one line that the core's instruction cache holds. -/
theorem fetch_word {s : State} {w : Wave} {lo : Nat} {l : Line} (hpc : bits w.pc 1 0 = 0)
    (hlo : s.codePa w.id.core w.grp.part w.pc = .inl lo)
    (hhi : s.codePa w.id.core w.grp.part (w.pc + 11) = .inl (lo + 11)) (hline : lo % 128 ≤ 116)
    (hp1 : s.poisoned lo = false) (hp2 : s.poisoned (lo + 11) = false) (hl : s.icLine w.id.core (lo / 128) = some l) :
    s.fetch w = .word (bytesWord ((List.range 12).map fun k => l.bytes.getD (lo % 128 + k) 0)) := by
  have at_ (i : Nat) : (if pageOf (w.pc + BitVec.ofNat 64 i) = pageOf w.pc then lo + i else lo + 11 + i - 11) = lo + i := by
    split <;> omega
  have byte (i : Nat) (hi : i < 12) : s.icByte w.id.core (lo + i) = some (l.bytes.getD (lo % 128 + i) 0) :=
    icByte_of_line hl (by omega) (by omega)
  have bytes : ((List.range 12).map fun i => s.icByte w.id.core (lo + i)) =
      (List.range 12).map fun i => some (l.bytes.getD (lo % 128 + i) 0) :=
    List.map_congr_left fun i hi => byte i (List.mem_range.1 hi)
  unfold State.fetch
  rw [if_neg (by simp [hpc])]
  simp only [hlo, hhi]
  simp [hp1, hp2, at_, bytes, Function.comp_def]

theorem head_reissue {s : State} {w : Wave} {r : Reissue} (hr : w.reissue = some r) : s.head w = .instr r.i := by
  simp [State.head, hr]

theorem head_path {s : State} {w : Wave} {v : Xvi} {x : BitVec 96} (hr : w.reissue = none) (hp : w.inPath = true)
    (hv : w.xvi = some v) (hx : v.word v.next = some x) : s.head w = s.wordHead w x := by
  simp [State.head, hr, hp, hv, hx]

theorem head_fetched {s : State} {w : Wave} {x : BitVec 96} (hr : w.reissue = none) (hp : w.inPath = false)
    (hf : s.fetch w = .word x) : s.head w = s.wordHead w x := by
  simp [State.head, hr, hp, hf]

theorem wordHead_instr {s : State} {w : Wave} {x : BitVec 96} {i : Instr} (h : headOf w.allot x = .instr i) :
    s.wordHead w x = .instr i := by
  simp [State.wordHead, h]

theorem wordHead_ok {s : State} {w : Wave} {x : BitVec 96} {i : Instr} (hd : decode x = .ok i false)
    (hf : i.fits w.allot = true) : s.wordHead w x = .instr i :=
  wordHead_instr (by simp [headOf, hd, hf])

theorem wordHead_unfit {s : State} {w : Wave} {x : BitVec 96} {i : Instr} {r : Bool} (hd : decode x = .ok i r)
    (hf : i.fits w.allot = false) : ∃ f, s.wordHead w x = .bad f 0 (x.truncate 64) := by
  refine ⟨Fields.unpack x, ?_⟩
  cases r <;> simp [State.wordHead, headOf, hd, hf]

theorem wordHead_reserved {s : State} {w : Wave} {x : BitVec 96} {i : Instr} (hd : decode x = .ok i true)
    (hf : i.fits w.allot = true) :
    ∃ f, s.wordHead w x = .bad f (if s.ownIllegal w i then 0 else 1) (x.truncate 64) := by
  refine ⟨Fields.unpack x, ?_⟩
  cases ho : s.ownIllegal w i <;> simp [State.wordHead, headOf, hd, hf, ho]

theorem wordHead_illegal {s : State} {w : Wave} {x : BitVec 96} (hd : decode x = .illegal) :
    ∃ f, s.wordHead w x = .bad f 0 (x.truncate 64) :=
  ⟨Fields.unpack x, by simp [State.wordHead, headOf, hd]⟩

/-! ### The issue slot -/

/-- What a slot's instruction leads to, with the charge of a park at its issue. -/
def Res.charged (w : Wave) (r : Res) : Res :=
  match r with
  | .next t => .next (t.parkCharge w)
  | r => r

/-- The machine at the issue slot of a quarter: once its boundaries and the first reads of its waits have been. -/
def State.atSlot (s : State) (core q : Nat) (rest : List (Nat × Nat)) : State :=
  (({ s with todo := rest } : State).takeDues core q).firstReads core q

/-- The same once wave `w` has been selected. -/
def State.selected (s : State) (core q : Nat) (w : Wave) : State :=
  { (s.passedReads core q (some w.uid)).passQuarter core q (some w.uid) with cur := w.id }

variable {s : State} {core q : Nat} {rest : List (Nat × Nat)} {w : Wave}

theorem step_slot (he : s.events = []) (ht : s.todo = (core, q) :: rest) :
    step s = ({ s with todo := rest } : State).serve core q := by
  simp [step, he, ht]

theorem step_idle (he : s.events = []) (ht : s.todo = (core, q) :: rest)
    (hsel : (s.atSlot core q rest).selectWave core q = none) :
    step s = .next (((s.atSlot core q rest).passedReads core q none).passQuarter core q none) := by
  rw [step_slot he ht]
  unfold State.serve
  unfold State.atSlot at *
  simp [hsel]

section
variable (he : s.events = []) (ht : s.todo = (core, q) :: rest)
  (hsel : (s.atSlot core q rest).selectWave core q = some w)
include he ht hsel

theorem step_instr {i : Instr} (hh : ((s.atSlot core q rest).passedReads core q (some w.uid)).head w = .instr i) :
    step s = Res.charged w (((s.atSlot core q rest).selected core q w).issueHead w i) := by
  rw [step_slot he ht]
  unfold State.serve
  unfold State.atSlot at *
  simp [hsel, hh]
  rfl

theorem step_bad {f : Fields} {c : Nat} {v : W64}
    (hh : ((s.atSlot core q rest).passedReads core q (some w.uid)).head w = .bad f c v) :
    step s = .next (((s.atSlot core q rest).selected core q w).trapAt w c w.pc v) := by
  rw [step_slot he ht]
  unfold State.serve
  unfold State.atSlot at *
  simp [hsel, hh]
  rfl

end

theorem issueHead_plain {i : Instr} (hx : w.inPath = false ∨ w.reissue.isNone = false) (hf : faultRet i = false) :
    s.issueHead w i = exec i s := by
  rcases hx with hx | hx <;> simp [State.issueHead, hx, hf]

theorem issueHead_path {i : Instr} (hp : w.inPath = true) (hr : w.reissue = none) : s.issueHead w i = exec .xviPath s := by
  simp [State.issueHead, hp, hr]

theorem issueHead_faultRet {i : Instr} {t : State} (hp : w.inPath = false) (hf : faultRet i = true)
    (hx : exec i s = .next t) :
    (t.again w.id = none → s.issueHead w i = .next t) ∧
      ∀ j, t.again w.id = some j → s.issueHead w i = exec j t := by
  refine ⟨fun ha => ?_, fun j ha => ?_⟩ <;> simp [State.issueHead, hp, hf, hx, ha]

end Sys2Proof.Machine
end

section
/-! The order of a cycle and the instruction of a slot: the statement about them, and its proof. -/

namespace Sys2Proof.Machine

/-- Settles O57: the head of the wave selected is what its word decodes to, and each kind of head has its step. -/
theorem stepRunsDecoded : Obligations.StepRunsDecoded := by
  refine ⟨?slot, fun s i rest => ?cycle⟩
  case slot =>
    intro s core q rest w lo l he ht s1 s2 hsel hr hp hpc hlo hhi _ hline hp1 hp2 hl x s3 steps
    have hhead : s2.head w = s2.wordHead w x := head_fetched hr hp (fetch_word hpc hlo hhi hline hp1 hp2 hl)
    have runs {i : Instr} (hi : s2.wordHead w x = .instr i) : steps (s3.issueHead w i) :=
      step_instr he ht hsel (hhead.trans hi)
    have traps {c : Nat} (hb : ∃ f, s2.wordHead w x = .bad f c (x.truncate 64)) :
        step s = .next (s3.trapAt w c w.pc (x.truncate 64)) :=
      hb.elim fun f hb => step_bad he ht hsel (hhead.trans hb)
    refine ⟨fun i hd hf => ?_, fun i r hd hf => traps (wordHead_unfit hd hf),
      fun i hd hf => traps (wordHead_reserved hd hf), fun hd => traps (wordHead_illegal hd)⟩
    have hrun := runs (wordHead_ok hd hf)
    refine ⟨fun hn => ?_, fun t hy hx => ?_⟩
    · rwa [issueHead_plain (.inl hp) hn] at hrun
    · obtain ⟨alone, again⟩ := issueHead_faultRet (w := w) hp hy hx
      exact ⟨fun ha => alone ha ▸ hrun, fun j ha => again j ha ▸ hrun⟩
  case cycle =>
    refine ⟨fun h ha => ?_, fun h ha => ?_, fun src x h => ?_, fun p h => ?_, fun g h => ?_, fun uid tail h => ?_,
      fun p h => ?_, fun id h => ?_, fun h => ?_, fun h ht => ?_, fun core q rest he ht => ⟨step_idle he ht, ?_⟩⟩
    iterate 2 simp [step, h, ha]
    iterate 7 simp [step, h]
    · simp [step, h, ht]
    · intro w hsel s3 steps
      refine ⟨fun r hr hf => ?_, fun v x i hr hp hv hx hi => ?_⟩
      · have hrun : steps (s3.issueHead w r.i) := step_instr he ht hsel (head_reissue hr)
        rwa [issueHead_plain (.inr (by simp [hr])) hf] at hrun
      · have hrun : steps (s3.issueHead w i) :=
          step_instr he ht hsel ((head_path hr hp hv hx).trans (wordHead_instr hi))
        rwa [issueHead_path hp hr] at hrun

end Sys2Proof.Machine
end

section
/-!
SUPPORT. What the slices' service of a read leaves alone, and the tile of a group (R232, R382).
-/

namespace Sys2Proof.Claims

open Sys2Proof.Machine

variable {s t u : State}

theorem served_refl (s : State) : Served s s := rfl

theorem Served.trans (h : Served s t) (h' : Served t u) : Served s u :=
  Eq.trans h' (congrArg (fun x : State => { x with
    slc := u.slc, home := u.home, dirty := u.dirty, flip := u.flip, fresh := u.fresh, out := u.out }) h)

theorem served_mk (s : State) (slc : List SlcLine) (home : Memory) (dirty : List Nat) (flip : Option Flip) (fresh : Nat)
    (out : List Out) :
    Served s { s with slc := slc, home := home, dirty := dirty, flip := flip, fresh := fresh, out := out } := rfl

theorem served_sendHome (s : State) (k : Nat) : Served s (s.sendHome k) := by
  unfold State.sendHome
  split
  · exact served_mk ..
  · exact served_refl s

theorem served_cleanKey (s : State) (k : Nat) : Served s (s.cleanKey k) := by
  have out : Served (s.sendHome k) (s.cleanKey k) := by
    unfold Served
    conv_lhs => rw [cleanKey_eq]
    rw [cleanKey_eq]
  exact (served_sendHome s k).trans out

theorem served_slcDrop (s : State) (line : Nat) : Served s (s.slcDrop line) := by
  have drop : Served (s.cleanLine line) (s.slcDrop line) := rfl
  exact (served_cleanKey s _).trans drop

theorem served_askLine (s : State) (line : Nat) (own : Bool) : Served s (s.askLine line own) := by
  unfold State.askLine
  split
  · exact served_mk ..
  · exact served_refl s

theorem served_lines (s : State) (ls : List SlcLine) : Served s { s with slc := ls } := rfl

theorem served_slcTouch (s : State) (ways pa : Nat) (own : Bool) : Served s (s.slcTouch ways pa own) := by
  simp only [State.slcTouch]
  split
  · exact served_refl s
  · split
    · split
      · exact (served_lines s _).trans (served_askLine ..)
      · exact served_refl s
    · split
      · exact (served_lines s _).trans (served_askLine ..)
      · split
        · exact served_askLine ..
        · have free : Served s s.free.2 := rfl
          exact ((free.trans (served_slcDrop ..)).trans (served_lines _ _)).trans (served_askLine ..)

/-- A run of reads at their slices. -/
theorem served_foldl {α : Type} {f : State → α → State} (hf : ∀ s x, Served s (f s x)) (l : List α) (s : State) :
    Served s (l.foldl f s) := by
  induction l generalizing s with
  | nil => exact served_refl s
  | cons x l ih => exact (hf s x).trans (ih (f s x))

end Sys2Proof.Claims

namespace Sys2Proof.Machine

variable {s : State} {id : GroupId} {g : Group} {t : Tile}

/-! ### The tile of a group -/

theorem tile?_eq_some : s.tile? id = some (g, t) ↔ s.group? id = some g ∧ g.tile = some t := by
  simp only [State.tile?, Option.bind_eq_some_iff, Option.map_eq_some_iff, Prod.mk.injEq]
  constructor
  · rintro ⟨x, hx, y, hy, rfl, rfl⟩
    exact ⟨hx, hy⟩
  · rintro ⟨hg, ht⟩
    exact ⟨g, hg, t, ht, rfl, rfl⟩

/-- The tile that a change of a tile leaves. -/
theorem tile?_modTile (h : s.tile? id = some (g, t)) (f : Tile → Tile) :
    (s.modTile id f).tile? id = some ({ g with tile := some (f t) }, f t) := by
  obtain ⟨hg, ht⟩ := tile?_eq_some.1 h
  refine tile?_eq_some.2 ⟨?_, rfl⟩
  have := group?_modGroup_same (f := fun x => { x with tile := x.tile.map f }) (fun _ => rfl) hg
  rw [ht] at this
  exact this

end Sys2Proof.Machine
end

section
/-!
SUPPORT. The load pipes of a tile that read what a slab needs, and its injection (R282–R284).
-/

namespace Sys2Proof.Machine

open Sys2Proof.Claims

/-- What the load pipes of a tile change: its group, and what serving reads at their slices may. -/
def gridRead (s t : State) : Prop :=
  t = { s with
    groups := t.groups, slc := t.slc, fresh := t.fresh, home := t.home, dirty := t.dirty, flip := t.flip, out := t.out }

section
variable {s t u : State}

theorem gridRead_refl (s : State) : gridRead s s := rfl

theorem gridRead.trans (h : gridRead s t) (h' : gridRead t u) : gridRead s u :=
  Eq.trans h' (congrArg (fun x : State => { x with
    groups := u.groups, slc := u.slc, fresh := u.fresh, home := u.home, dirty := u.dirty, flip := u.flip, out := u.out }) h)

theorem gridRead_of_served (h : Served s t) : gridRead s t :=
  Eq.trans h (congrArg (fun x : List Group => { s with
    groups := x, slc := t.slc, home := t.home, dirty := t.dirty, flip := t.flip, fresh := t.fresh, out := t.out })
    (congrArg State.groups h).symm)

theorem gridRead_modTile (s : State) (id : GroupId) (f : Tile → Tile) : gridRead s (s.modTile id f) := rfl

/-- Bytes, translations, clocks and what holds a read are as they were. -/
theorem gridRead.same (h : gridRead s t) : t.rdByte = s.rdByte ∧ t.engPa = s.engPa ∧ t.cyc = s.cyc ∧ t.snoop = s.snoop ∧
    t.poison = s.poison := by
  unfold gridRead at h
  rw [h]
  exact ⟨rfl, rfl, rfl, rfl, rfl⟩

end

/-- What the load pipes hold of a range once they have read it. -/
def State.reads (s : State) (g : Group) (n : Nat) (r : (Nat × Nat) × Nat) : Staged :=
  ⟨n, r.2, (List.range (r.1.2 + 1 - r.1.1)).map fun k => s.rdByte (s.engPa (some g.core) g.id.part .read (r.1.1 + k)), none⟩

theorem gridRead.reads {s t : State} (h : gridRead s t) : t.reads = s.reads := by
  obtain ⟨hr, he, -, -, -⟩ := h.same
  funext g n r
  simp only [State.reads, hr, he]

/-- The load pipes and one range of a step. -/
def State.stageOne (s : State) (g : Group) (n : Nat) (pick : W64) (own : Bool) (x : (Nat × Nat) × Nat) : State :=
  match s.tile? g.id with
  | none => s
  | some (_, t) =>
    let pas := (List.range (x.1.2 + 1 - x.1.1)).map fun k => s.engPa (some g.core) g.id.part .read (x.1.1 + k)
    if (t.stagedAt n x.2).isSome || !pick.getLsbD (x.2 % 64) then s
    else if pas.any fun pa => s.snoopHeld pa false then pas.foldl (fun s pa => s.ask pa false) s
    else
      let y : Staged := ⟨n, x.2, pas.map s.rdByte, (pas.zipIdx.find? fun y => s.poisoned y.1).map fun y => x.1.1 + y.2⟩
      ((pas.map (· / 128)).dedup.foldl (fun s l => s.slcTouch (s.partWays g.id.part) (128 * l) own) s).modTile g.id
        fun t => { t with staged := t.staged ++ [y] }

theorem stage_eq (s : State) (g : Group) (n : Nat) (rs : List (Nat × Nat)) (pick : W64) (own : Bool) :
    s.stage g n rs pick own = rs.zipIdx.foldl (fun s x => s.stageOne g n pick own x) s := rfl

theorem snoopHeld_nil {s : State} (h : s.snoop = []) (pa : Nat) (write : Bool) : s.snoopHeld pa write = false := by
  simp [State.snoopHeld, h]

theorem poisoned_nil {s : State} (h : s.poison = []) (pa : Nat) : s.poisoned pa = false := by
  simp [State.poisoned, h]

section
variable {s : State} {g g' : Group} {t : Tile} {n : Nat} {own : Bool} (hsn : s.snoop = []) (hpo : s.poison = [])
include hsn hpo

/-- A range that may be read, that nothing holds and that no line of has a bad value. -/
theorem stageOne_reads {x : (Nat × Nat) × Nat} (ht : s.tile? g.id = some (g', t)) (hx : t.stagedAt n x.2 = none) :
    let u := s.stageOne g n (BitVec.allOnes 64) own x
    gridRead s u ∧ ∃ g'', u.tile? g.id = some (g'', { t with staged := t.staged ++ [s.reads g n x] }) := by
  intro u
  let pas := (List.range (x.1.2 + 1 - x.1.1)).map fun k => s.engPa (some g.core) g.id.part .read (x.1.1 + k)
  let v := (pas.map (· / 128)).dedup.foldl (fun s l => s.slcTouch (s.partWays g.id.part) (128 * l) own) s
  have hv : Served s v := served_foldl (fun s l => served_slcTouch s ..) _ s
  have picked : (BitVec.allOnes 64).getLsbD (x.2 % 64) = true := by
    rw [BitVec.getLsbD_allOnes]
    simp [Nat.mod_lt]
  have clean (l : List (Nat × Nat)) : (l.find? fun _ => false) = none := List.find?_eq_none.2 (by simp)
  have hu : u = v.modTile g.id fun t => { t with staged := t.staged ++ [s.reads g n x] } := by
    simp only [u, State.stageOne, ht, hx, picked, snoopHeld_nil hsn, poisoned_nil hpo]
    simp [State.reads, v, pas, Function.comp_def, clean]
  have hvt : v.tile? g.id = some (g', t) := by
    have hg : v.groups = s.groups := (congrArg State.groups hv :)
    simpa [State.tile?, State.group?, hg] using ht
  rw [hu]
  exact ⟨(gridRead_of_served hv).trans (gridRead_modTile ..), _, tile?_modTile hvt _⟩

end

theorem stagedAt_append_none {t : Tile} {n i : Nat} {y : Staged} (h : t.stagedAt n i = none) (hy : y.idx ≠ i) :
    ({ t with staged := t.staged ++ [y] } : Tile).stagedAt n i = none := by
  simp only [Tile.stagedAt, List.find?_append] at h ⊢
  simp [h, hy]

/-- All the ranges of a step are read, in order, each as it stands. -/
theorem stageAll_reads {g : Group} {n : Nat} {own : Bool} (l : List ((Nat × Nat) × Nat)) {s : State} {g' : Group} {t : Tile}
    (hsn : s.snoop = []) (hpo : s.poison = []) (ht : s.tile? g.id = some (g', t))
    (hl : ∀ x ∈ l, t.stagedAt n x.2 = none) (hd : (l.map (·.2)).Nodup) :
    let u := l.foldl (fun s x => s.stageOne g n (BitVec.allOnes 64) own x) s
    gridRead s u ∧ ∃ g'', u.tile? g.id = some (g'', { t with staged := t.staged ++ l.map (s.reads g n) }) := by
  induction l generalizing s g' t with
  | nil => exact ⟨gridRead_refl s, g', by simpa using ht⟩
  | cons x l ih =>
    obtain ⟨hx, hl⟩ := List.forall_mem_cons.1 hl
    obtain ⟨hnot, hd⟩ := List.nodup_cons.1 hd
    obtain ⟨h1, g1, ht1⟩ := stageOne_reads (own := own) hsn hpo ht hx
    obtain ⟨-, -, -, hsn1, hpo1⟩ := h1.same
    have hl1 (y) (hy : y ∈ l) := stagedAt_append_none (y := s.reads g n x) (hl y hy)
      fun he => hnot (List.mem_map.2 ⟨y, hy, he.symm⟩)
    obtain ⟨h2, g2, ht2⟩ := ih (hsn1.trans hsn) (hpo1.trans hpo) ht1 hl1 hd
    refine ⟨h1.trans h2, g2, ht2.trans ?_⟩
    rw [h1.reads, List.append_assoc]
    rfl

/-! ### Injection -/

/-- The tile once its load pipes hold every range of a step. -/
def Tile.holding (t : Tile) (s : State) (g : Group) (n : Nat) (rs : List (Nat × Nat)) : Tile :=
  { t with staged := rs.zipIdx.map (s.reads g n) }

/-- The slab that the tile injects. -/
def Tile.slabOf (t : Tile) (now : Nat) (x : GEntry) (o : TmmaOp) (k : Nat) (a b : W64) (n : Nat) (rs : List (Nat × Nat)) : Slab :=
  let dims := Blk.dims o.blk
  let v := validOf (x.regs.get 7) (gridN t.fp * dims.1) (gridN t.fp * dims.2)
  ⟨n, now + 2 * (gridN t.fp - 1) + dims.1 * dims.2 - 1, t.slabSums rs o k a b x.regs n v.1 v.2⟩

theorem snd_zipIdx_nodup {α : Type} (l : List α) : (l.zipIdx.map (·.2)).Nodup := by
  rw [List.zipIdx_map_snd]
  exact List.nodup_range'

/-- What the pipes hold of the ranges of a step, once they have read them all. -/
theorem held_holding (s : State) (g : Group) (t : Tile) (n : Nat) (rs : List (Nat × Nat)) :
    (rs.zipIdx.filterMap fun r => ((t.holding s g n rs).stagedAt n r.2).map fun x => (r.1.1, x)) =
      rs.zipIdx.map fun r => (r.1.1, s.reads g n r) := by
  have at_ {r : (Nat × Nat) × Nat} (hr : r ∈ rs.zipIdx) :
      (t.holding s g n rs).stagedAt n r.2 = some (s.reads g n r) := by
    have one : rs.zipIdx.find? (fun x => decide (x.2 = r.2)) = some r := by
      cases hf : rs.zipIdx.find? fun x => decide (x.2 = r.2) with
      | none => simpa using List.find?_eq_none.1 hf r hr
      | some y =>
        have hy : y.2 = r.2 := by simpa using List.find?_some hf
        have h1 := List.mem_zipIdx_iff_getElem?.1 (List.mem_of_find?_eq_some hf)
        rw [hy, List.mem_zipIdx_iff_getElem?.1 hr] at h1
        exact congrArg some (Prod.ext (Option.some.inj h1).symm hy)
    have hp : ((fun y : Staged => decide (y.step = n) && decide (y.idx = r.2)) ∘ s.reads g n) = fun x => decide (x.2 = r.2) := by
      funext x
      simp only [State.reads, Function.comp_apply, decide_true, Bool.true_and]
      rfl
    rw [Tile.stagedAt, Tile.holding, List.find?_map, hp, one]
    rfl
  rw [← List.filterMap_eq_map]
  exact List.filterMap_congr fun r hr => by simp [at_ hr]

/-- All of a step's ranges, read by a tile whose pipes held none. -/
theorem stage_holding {s : State} {g g' : Group} {t : Tile} {n : Nat} {rs : List (Nat × Nat)} (own : Bool)
    (hsn : s.snoop = []) (hpo : s.poison = []) (ht : s.tile? g.id = some (g', t)) (hst : t.staged = []) :
    gridRead s (s.stage g n rs (BitVec.allOnes 64) own) ∧
      ∃ g'', (s.stage g n rs (BitVec.allOnes 64) own).tile? g.id = some (g'', t.holding s g n rs) := by
  have h := stageAll_reads (n := n) (own := own) rs.zipIdx hsn hpo ht (fun x _ => by simp [Tile.stagedAt, hst]) (snd_zipIdx_nodup rs)
  rw [hst] at h
  exact h

section
variable {s : State} {id : GroupId} {g : Group} {t : Tile} {x : GEntry} {o : TmmaOp} {k : Nat} {a b : W64}

theorem slabInject_injects (ht : s.tile? id = some (g, t)) (hx : t.tmma? = some (x, o, k, a, b)) (ho : t.owner.isSome)
    (hs : s.saving id.part = false) (hid : g.id = id) (hann : t.ann = false) (hstop : t.stopAt = none)
    (hrun : t.runAt < s.cyc g.core) (hst : t.staged = []) (hpo : s.poison = []) (hsn : s.snoop = [])
    (hn : t.nextStep < stepsOf o k) {rs : List (Nat × Nat)}
    (hrs : rs = slabRanges o k a b x.regs t.nextStep
      (validOf (x.regs.get 7) (gridN t.fp * (Blk.dims o.blk).1) (gridN t.fp * (Blk.dims o.blk).2)).1
      (validOf (x.regs.get 7) (gridN t.fp * (Blk.dims o.blk).1) (gridN t.fp * (Blk.dims o.blk).2)).2)
    (hr : ∀ r ∈ rs, r.2 < 2 ^ 51) (hxl : s.engXlate (some g.core) id.part .read 4 (rangePages rs) t.miss = .ok)
    (hi : ∀ i, t.inj = some i → i + (Blk.dims o.blk).1 * (Blk.dims o.blk).2 ≤ s.cyc g.core) :
    ∃ u, exec (.slabInject id) s = .next (u.modTile id fun y =>
        { y with inj := some (s.cyc g.core), miss := [], staged := y.staged.filter fun z => z.step ≠ t.nextStep
                 flight := y.flight ++ [(t.holding s g t.nextStep rs).slabOf (s.cyc g.core) x o k a b t.nextStep rs] }) ∧
      gridRead s u ∧ ∃ g', u.tile? id = some (g', t.holding s g t.nextStep rs) := by
  have hcond : ¬ (t.owner.isNone || (s.saving id.part && !s.mayInject g t ((Blk.dims o.blk).1 * (Blk.dims o.blk).2)) ||
      decide (stepsOf o k ≤ t.nextStep)) = true := by simp [Option.isNone_eq_false_iff.2 ho, hs, hn]
  have hmay : s.mayInject g t ((Blk.dims o.blk).1 * (Blk.dims o.blk).2) = true := by
    simp only [State.mayInject, hann, hstop, hrun]
    cases hinj : t.inj with
    | none => simp
    | some i => simpa using hi i hinj
  have hfind : rs.find? (fun r => decide (2 ^ 51 ≤ r.2)) = none :=
    List.find?_eq_none.2 fun r h => by simpa using hr r h
  have htodo : (rs.zipIdx.filter fun r => (t.stagedAt t.nextStep r.2).isNone).map (·.1) = rs := by
    simp [Tile.stagedAt, hst]
  show ∃ u, execSlabInject id s = _ ∧ _
  unfold execSlabInject
  simp only [ht, hx]
  rw [if_neg hcond, ← hrs]
  simp only [hfind, htodo, hxl, hmay, State.free, if_true]
  subst hid
  let s1 : State := { s with fresh := s.fresh + 1 }
  obtain ⟨hu, g', hut⟩ := stage_holding (s := s1) (rs := rs) (n := t.nextStep) (o.acq && decide (o.sco = Scope.sys)) hsn hpo ht hst
  have hs1 : gridRead s s1 := rfl
  refine ⟨_, ?_, hs1.trans hu, g', hut⟩
  rw [hut]
  simp only [held_holding]
  have clean : (rs.zipIdx.map fun r => (r.1.1, s1.reads g t.nextStep r)).findSome? (fun h => h.2.poison) = none := by
    refine List.findSome?_eq_none_iff.2 fun y hy => ?_
    obtain ⟨r, -, rfl⟩ := List.mem_map.1 hy
    rfl
  obtain ⟨-, -, hc, -, -⟩ := (hs1.trans hu).same
  rw [if_neg (by simp), clean, hc]
  rfl

end

/-! ### Step boundaries -/

section
variable (s : State) (g : Group) (t : Tile) (x : GEntry) (core : Nat) (ps : List Put)

/-- A completion reaches the waves alone. -/
theorem gridDone_eq : s.gridDone t x core ps = { s with waves := (s.gridDone t x core ps).waves } := by
  unfold State.gridDone
  split <;> rfl

@[simp] theorem gridDone_mem : (s.gridDone t x core ps).mem = s.mem := by
  rw [gridDone_eq]

@[simp] theorem gridDone_group? (k : GroupId) : (s.gridDone t x core ps).group? k = s.group? k := by
  rw [gridDone_eq]
  rfl

@[simp] theorem gridDone_tile? (k : GroupId) : (s.gridDone t x core ps).tile? k = s.tile? k := by
  rw [gridDone_eq]
  rfl

@[simp] theorem modTile_mem (id : GroupId) (f : Tile → Tile) : (s.modTile id f).mem = s.mem := rfl
@[simp] theorem modTile_waves (id : GroupId) (f : Tile → Tile) : (s.modTile id f).waves = s.waves := rfl
@[simp] theorem gridPop_mem : (s.gridPop g t x ps).mem = s.mem := gridDone_mem s t x g.core ps
@[simp] theorem gridPop_waves : (s.gridPop g t x ps).waves = (s.gridDone t x g.core ps).waves := rfl

end

/-- The tile once the command at its queue's head has left. -/
def Tile.popped (t : Tile) (now : Nat) : Tile :=
  { t with queue := t.queue.tail, seq := now + 1, inj := none, staged := [], miss := [] }

theorem gridPop_tile? {s : State} {g g' : Group} {t t' : Tile} (h : s.tile? g.id = some (g', t')) (x : GEntry) (ps : List Put) :
    ∃ g'' now, (s.gridPop g t x ps).tile? g.id = some (g'', t'.popped now) :=
  ⟨_, _, tile?_modTile ((gridDone_tile? s t x g.core ps g.id).trans h) _⟩

/-- The accumulators once a slab is added, and whether one of them has saturated. -/
def Tile.added (t : Tile) (x : GEntry) (o : TmmaOp) (f : Slab) : Sparse 36 × Bool :=
  f.sums.foldl (fun (r : Sparse 36 × Bool) y =>
    let key := accKey (gridN t.fp) (Blk.dims o.blk).2 y.1 y.2.1
    let z := slabAdd o.acc (r.1.get key) y.2.2
    (r.1.set key z.1, r.2 || z.2)) (t.accs, x.sat)

/-- The tile once a slab is added. -/
def Tile.bounded (t : Tile) (x : GEntry) (o : TmmaOp) (f : Slab) (rest : List Slab) : Tile :=
  { t.setStep (f.step + 1) with
    accs := (t.added x o f).1, flight := rest, queue := { x with sat := (t.added x o f).2 } :: t.queue.tail }

section
variable {s : State} {id : GroupId} {g : Group} {t : Tile} {f : Slab} {rest : List Slab}
  (ht : s.tile? id = some (g, t)) (hf : t.flight = f :: rest) (hb : f.bound < s.cyc g.core)
include ht hf hb

theorem stepBoundary_killed (hx : t.tmma? = none) :
    exec (.stepBoundary id) s = .next (s.modTile id fun t => { t with flight := rest }) := by
  simp [exec, execStepBoundary, ht, hf, Nat.not_le.2 hb, hx]

theorem stepBoundary_adds {x : GEntry} {o : TmmaOp} {k : Nat} {a b : W64} (hx : t.tmma? = some (x, o, k, a, b)) :
    exec (.stepBoundary id) s = .next (
      let u := s.modTile id fun _ => t.bounded x o f rest
      if stepsOf o k ≤ f.step + 1 then
        (u.gridPop g (t.bounded x o f rest) { x with sat := (t.added x o f).2 }
          (if (t.added x o f).2 then [.sat SatClass.int.bit] else [])).modTile id fun t => { t with stopAt := none }
      else u) := by
  simp only [exec, execStepBoundary, ht, hf, Nat.not_le.2 hb, hx, if_false]
  split <;> rfl

end

/-- A completion does not rest on the tile's accumulators or on what else has left its queue. -/
theorem gridDone_bounded_waves (s : State) (id : GroupId) (t : Tile) (x : GEntry) (o : TmmaOp) (f : Slab)
    (rest : List Slab) (core : Nat) (ps : List Put) :
    ((s.modTile id fun _ => t.bounded x o f rest).gridDone (t.bounded x o f rest) { x with sat := (t.added x o f).2 } core
      ps).waves = (s.gridDone t x core ps).waves := by
  have ho : (t.bounded x o f rest).owner = t.owner := rfl
  unfold State.gridDone
  rw [ho]
  cases t.owner <;> rfl

end Sys2Proof.Machine
end

section
/-! Slabs of a tile: the statement about them, and its proof. -/

namespace Sys2Proof.Machine

/-- Settles O31: a slab is injected once the load pipes have read its step, and added past its boundary. -/
theorem gridSlabs : Obligations.GridSlabs := by
  refine ⟨?inject, ?boundary⟩
  case inject =>
    intro s id g t x o k a b ht hx ho hs hid hann hstop hrun hst hpo hsn dims n v step rs held hn hr hxl hi
    obtain ⟨u, hu, hfr, g', hut⟩ :=
      slabInject_injects ht hx ho hs hid hann hstop hrun hst hpo hsn hn (rs := rs) rfl hr hxl hi
    refine ⟨_, _, _, _, hu, tile?_modTile hut _, rfl, rfl, rfl, ?_, rfl, rfl, rfl, hfr.trans (gridRead_modTile ..)⟩
    subst hid
    rfl
  case boundary =>
    intro s id g t f rest ht hid hf hb
    refine ⟨fun hx => ⟨_, _, stepBoundary_killed ht hf hb hx, tile?_modTile ht _⟩, fun x o k a b hx => ?_⟩
    have hex := stepBoundary_adds ht hf hb hx
    have hut := tile?_modTile ht fun _ => t.bounded x o f rest
    by_cases hl : stepsOf o k ≤ f.step + 1
    · rw [if_pos hl] at hex
      subst hid
      obtain ⟨g', now, hpop⟩ := gridPop_tile? (t := t.bounded x o f rest) hut { x with sat := (t.added x o f).2 }
        (if (t.added x o f).2 then [.sat SatClass.int.bit] else [])
      refine ⟨_, _, _, hex, tile?_modTile hpop _, rfl, rfl, ?_, ?_⟩
      · intro r
        exact ⟨rfl, fun h => absurd h (Nat.not_lt.2 hl), fun _ => ⟨rfl, gridDone_bounded_waves ..⟩⟩
      · simp
    · rw [if_neg hl] at hex
      refine ⟨_, _, _, hex, hut, rfl, rfl, ?_, rfl⟩
      intro r
      exact ⟨rfl, fun _ => ⟨rfl, rfl⟩, fun h => absurd h hl⟩

end Sys2Proof.Machine
end

section
/-! Events of a tile: the statement about them, and a state that refutes it. -/

namespace Sys2Proof.Machine.SatTstAtStop

/-- The running TMMA of a tile, one slab of which has saturated an accumulator, with its rows at the top of the space. -/
def mma : TmmaOp := ⟨.b1x1, false, false, .i36, .i8, false, .wave, 12, 4, 6⟩
def rows : W64 := 0x7FFFFFFFFFFF8
def running : GEntry :=
  { GEntry.mk' 0 (.tmma mma 32 rows 0) 15 [] [] with started := true, sat := true }

def tile : Tile := { noTile with queue := [running], owner := some 0 }

/-- Its owner, of which a SATTST of every class has written predicate 0 in this cycle. -/
def owner : Wave := { Wave.fresh 0 ⟨0, 0, 0⟩ ⟨0, 0, 0⟩ 0 wideKern 0 0 with tst := [(0, 0xFF)] }

def group : Group :=
  { id := ⟨0, 0, 0⟩, core := 0, q0 := 0, nw := 1, kern := wideKern, exited := 0, relaunch := 0, killed := false,
    again := false, back := none, window := [], flips := [], lastExit := none, tile := some tile }

def before : State := { State.reset with waves := [owner], groups := [group] }

/-- The first range that lies outside the 51-bit space: row 0 of A. -/
def range : Nat × Nat := (0x7FFFFFFFFFFF8, 0x8000000000007)

theorem range_found :
    (slabRanges mma 32 rows 0 [] tile.nextStep 4 4).find? (fun r => 2 ^ 51 ≤ r.2) = some range := by decide +kernel

/-- The stop brings the saturation, and with it the predicate that the SATTST of this cycle has written. -/
theorem stop_writes_predicate :
    (match exec (.slabInject ⟨0, 0, 0⟩) before with
      | .next u => (u.waveUid? 0).any fun w => w.p ≠ owner.p
      | _ => false) = true := by decide +kernel

end Sys2Proof.Machine.SatTstAtStop

namespace Sys2Proof.Machine

open SatTstAtStop in
/-- Refutes O32: the last clause holds the owner's predicates at a TILE_STOP. A command that has saturated brings its owner
the flag as it ends (R287), and a SATTST whose write falls in that cycle sees it (R177), so the predicate changes. -/
theorem not_tileEvents : ¬ Obligations.TileEvents := by
  intro h
  obtain ⟨-, -, h⟩ := h
  obtain ⟨outside, -⟩ := h before ⟨0, 0, 0⟩ group tile running mma 32 rows 0 0 owner (by decide +kernel) rfl rfl rfl
    (by decide +kernel) rfl (by decide +kernel) rfl rfl (by decide +kernel)
  obtain ⟨u, g', t', w', hx, -, -, -, -, -, -, -, hw, -, -, -, hp, -⟩ := outside range range_found
  have changed := stop_writes_predicate
  rw [hx] at changed
  simp [hw, hp] at changed

end Sys2Proof.Machine
end

section
/-!
SUPPORT. What a copy's unit reads and writes leave alone, and the channel of a core.
-/

namespace Sys2Proof.Machine

open Sys2Proof.Claims

/-! ### The stores of an engine -/

/-- What an engine's accesses may change: bytes, lines, the groups with their windows, and what the banks have served. -/
def EngineAt (s t : State) : Prop :=
  t = { s with
    mem := t.mem, slc := t.slc, home := t.home, dirty := t.dirty, flip := t.flip, fresh := t.fresh, out := t.out, l1 := t.l1
    groups := t.groups, cores := t.cores }

section
variable {s t u : State}

theorem engineAt_refl (s : State) : EngineAt s s := rfl

theorem EngineAt.trans (h : EngineAt s t) (h' : EngineAt t u) : EngineAt s u :=
  Eq.trans h' (congrArg (fun x : State => { x with
    mem := u.mem, slc := u.slc, home := u.home, dirty := u.dirty, flip := u.flip, fresh := u.fresh, out := u.out, l1 := u.l1
    groups := u.groups, cores := u.cores }) h)

theorem engineAt_foldl {α : Type} {f : State → α → State} (hf : ∀ s x, EngineAt s (f s x)) (l : List α) (s : State) :
    EngineAt s (l.foldl f s) := by
  induction l generalizing s with
  | nil => exact engineAt_refl s
  | cons x l ih => exact (hf s x).trans (ih (f s x))

/-- Places and translations of bytes are as they were. -/
theorem EngineAt.places (h : EngineAt s t) : t.key = s.key ∧ t.engPa = s.engPa := by
  unfold EngineAt at h
  rw [h]
  exact ⟨rfl, rfl⟩

/-- A state that differs by what serving reads may change, written out. -/
theorem served_iff : Served s t ↔ ∃ a b c d e f, t = { s with slc := a, home := b, dirty := c, flip := d, fresh := e, out := f } :=
  ⟨fun h => ⟨_, _, _, _, _, _, h⟩, by rintro ⟨a, b, c, d, e, f, rfl⟩; rfl⟩

theorem engineAt_of_served (h : Served s t) : EngineAt s t := by
  obtain ⟨a, b, c, d, e, f, rfl⟩ := served_iff.1 h
  rfl

theorem engineAt_wrBytes (s : State) (pa : Nat) (bs : List Byte) : EngineAt s (s.wrBytes pa bs) := by
  induction bs generalizing s pa with
  | nil => exact engineAt_refl s
  | cons b bs ih =>
    have one : EngineAt s (s.wrByte pa b) := rfl
    exact one.trans (ih ..)

/-- What a write at a slice has stored, and what it leaves alone. -/
theorem engineAt_slcWrite (s : State) (ways pa : Nat) (bs : List Byte) : EngineAt s (s.slcWrite ways pa bs) := by
  have wrote := (engineAt_of_served (served_slcTouch s ways pa true)).trans (engineAt_wrBytes _ pa bs)
  simp only [State.slcWrite]
  split
  · exact wrote
  · exact wrote.trans (engineAt_of_served (served_cleanKey ..))

/-- What a run of bytes makes of memory rests on memory and on where addresses lie. -/
theorem wrBytes_mem_congr (hm : t.mem = s.mem) (hk : t.key = s.key) (pa : Nat) (bs : List Byte) :
    (t.wrBytes pa bs).mem = (s.wrBytes pa bs).mem := by
  induction bs generalizing s t pa with
  | nil => exact hm
  | cons b bs ih =>
    have one : (t.wrByte pa b).mem = (s.wrByte pa b).mem := by
      rw [State.wrByte_mem, State.wrByte_mem, hm, hk]
    exact ih one hk (pa + 1)

theorem slcWrite_mem (s : State) (ways pa : Nat) (bs : List Byte) : (s.slcWrite ways pa bs).mem = (s.wrBytes pa bs).mem := by
  have wrote := wrBytes_mem_congr (slcTouch_mem s ways pa true) (engineAt_of_served (served_slcTouch s ways pa true)).places.1 pa bs
  simp only [State.slcWrite]
  split
  · exact wrote
  · exact (cleanLine_mem ..).trans wrote

theorem wrBytes_cores_groups (s : State) (pa : Nat) (bs : List Byte) :
    (s.wrBytes pa bs).cores = s.cores ∧ (s.wrBytes pa bs).groups = s.groups :=
  ⟨State.wrBytes_cores s pa bs, State.wrBytes_groups s pa bs⟩

theorem served_cores_groups (h : Served s t) : t.cores = s.cores ∧ t.groups = s.groups := by
  obtain ⟨a, b, c, d, e, f, rfl⟩ := served_iff.1 h
  exact ⟨rfl, rfl⟩

theorem slcWrite_cores_groups (s : State) (ways pa : Nat) (bs : List Byte) :
    (s.slcWrite ways pa bs).cores = s.cores ∧ (s.slcWrite ways pa bs).groups = s.groups := by
  obtain ⟨h1, h2⟩ := served_cores_groups (served_slcTouch s ways pa true)
  obtain ⟨h3, h4⟩ := wrBytes_cores_groups (s.slcTouch ways pa true) pa bs
  simp only [State.slcWrite]
  split
  · exact ⟨h3.trans h1, h4.trans h2⟩
  · obtain ⟨h5, h6⟩ := served_cores_groups (served_cleanKey ((s.slcTouch ways pa true).wrBytes pa bs)
      (((s.slcTouch ways pa true).wrBytes pa bs).lineKey (pa / 128)))
    exact ⟨h5.trans (h3.trans h1), h6.trans (h4.trans h2)⟩

end

/-! ### The banks -/

section
variable {s t : State} {core : Nat} {sp : Bool} {vs : List Service}

theorem unitUse_frame (s : State) (core : Nat) (sp : Bool) (vs : List Service) :
    s.unitUse core sp vs = { s with cores := (s.unitUse core sp vs).cores } := by
  unfold State.unitUse
  split
  · induction vs generalizing s with
    | nil => rfl
    | cons v vs ih => exact ih (s.bankUse core v)
  · rfl

theorem served_bankUse (h : Served s t) (core : Nat) (v : Service) : Served (s.bankUse core v) (t.bankUse core v) := by
  obtain ⟨a, b, c, d, e, f, rfl⟩ := served_iff.1 h
  rfl

theorem served_unitUse (h : Served s t) (core : Nat) (sp : Bool) (vs : List Service) :
    Served (s.unitUse core sp vs) (t.unitUse core sp vs) := by
  unfold State.unitUse
  split
  · induction vs generalizing s t with
    | nil => exact h
    | cons v vs ih => exact ih (served_bankUse h core v)
  · exact h

theorem served_unitFree (h : Served s t) (core : Nat) (sp : Bool) (vs : List Service) :
    t.unitFree core sp vs = s.unitFree core sp vs := by
  obtain ⟨a, b, c, d, e, f, rfl⟩ := served_iff.1 h
  rfl

end

/-! ### The channel of a core -/

section
variable {s : State} {core : Nat}

theorem core_modCore (s : State) {core : Nat} (h : core < s.cores.length) (f : Core → Core) :
    (s.modCore core f).core core = f (s.core core) := by
  simp only [State.core, State.modCore, List.getD_eq_getElem?_getD, List.getElem?_modify_eq, List.getElem?_eq_getElem h]
  rfl

/-- A change of a core that keeps its channel. -/
theorem chan_modCore (s : State) (core : Nat) (f : Core → Core) (hf : ∀ c, (f c).chan = c.chan) :
    ((s.modCore core f).core core).chan = (s.core core).chan := by
  simp only [State.core, State.modCore, List.getD_eq_getElem?_getD, List.getElem?_modify_eq]
  cases s.cores[core]? with
  | none => rfl
  | some c => exact hf c

theorem chan_unitUse (s : State) (core : Nat) (sp : Bool) (vs : List Service) :
    ((s.unitUse core sp vs).core core).chan = (s.core core).chan := by
  unfold State.unitUse
  split
  · induction vs generalizing s with
    | nil => rfl
    | cons v vs ih => exact (ih (s.bankUse core v)).trans (chan_modCore s core _ fun _ => rfl)
  · rfl

theorem unitUse_cores_length (s : State) (core : Nat) (sp : Bool) (vs : List Service) :
    (s.unitUse core sp vs).cores.length = s.cores.length := by
  unfold State.unitUse
  split
  · induction vs generalizing s with
    | nil => rfl
    | cons v vs ih => exact (ih (s.bankUse core v)).trans (by simp [State.bankUse])
  · rfl

/-- The channel of a core that no core has is empty. -/
theorem core_lt_of_chan (h : (s.core core).chan ≠ Chan.empty) : core < s.cores.length := by
  by_contra hn
  refine h ?_
  simp only [State.core, List.getD_eq_getElem?_getD, List.getElem?_eq_none (Nat.not_lt.1 hn)]
  rfl

theorem chan_modChan (h : core < s.cores.length) (f : Chan → Chan) : ((s.modChan core f).core core).chan = f (s.core core).chan := by
  rw [State.modChan, core_modCore s h]

theorem modChan_self {f : Chan → Chan} (hf : f (s.core core).chan = (s.core core).chan) : s.modChan core f = s := by
  have same : s.cores.modify core (fun c => { c with chan := f c.chan }) = s.cores := by
    refine List.ext_getElem? fun k => ?_
    rw [List.getElem?_modify]
    cases hk : s.cores[k]? with
    | none => rfl
    | some c =>
      split
      case isTrue h =>
        have at_ : s.core core = c := by simp [State.core, h, hk]
        rw [at_] at hf
        simp [hf]
      case isFalse => rfl
  show { s with cores := _ } = s
  rw [same]

end

/-- What has the greatest key is one of a list. -/
theorem argMax_mem {α : Type} {key : α → Nat} {l : List α} {x : α} (h : argMax key l = some x) : x ∈ l := by
  induction l generalizing x with
  | nil => simp [argMax] at h
  | cons y l ih =>
    simp only [argMax] at h
    split at h
    · simp_all
    · split at h
      · simp_all
      · exact List.mem_cons_of_mem _ (ih (by simp_all))

end Sys2Proof.Machine
end

section
/-!
SUPPORT. The units of a copy, and the end of its command (R305, R306, R312, R313).
-/

namespace Sys2Proof.Machine

open Sys2Proof.Claims

/-! ### What a unit writes -/

section
variable (s : State) (core : Nat) (c : Copy) (dst : Nat) (bs : List Byte)

/-- One byte of a unit into memory. -/
def State.copyByte (x : Nat × Byte) : State :=
  let near := match c.o.rel with | some sc => !scopeFar sc | none => false
  let pa := s.engPa (some core) c.grp.part .write (dst + x.1)
  let s := s.slcWrite (s.partWays c.grp.part) pa [x.2]
  if near then s.l1Drop core (pa / 128) else s.l1Eng c.grp core (pa / 128)

theorem copyWrite_window (h : c.o.dsp = true) : s.copyWrite core c dst bs = s.modGroup c.grp fun g => g.put dst bs := by
  rw [State.copyWrite, if_pos h]

theorem copyWrite_memory (h : c.o.dsp = false) :
    s.copyWrite core c dst bs = ((List.range bs.length).zip bs).foldl (fun s x => s.copyByte core c dst x) s := by
  rw [State.copyWrite, if_neg (by simp [h])]
  rfl

/-- A byte is a write at its slice, and then a mark in the core's L1. -/
theorem copyByte_eq (x : Nat × Byte) : ∃ l, s.copyByte core c dst x =
    { s.slcWrite (s.partWays c.grp.part) (s.engPa (some core) c.grp.part .write (dst + x.1)) [x.2] with l1 := l } := by
  unfold State.copyByte
  generalize (match c.o.rel with | some sc => !scopeFar sc | none => false) = near
  cases near <;> exact ⟨_, rfl⟩

theorem copyByte_engineAt (x : Nat × Byte) : EngineAt s (s.copyByte core c dst x) := by
  obtain ⟨l, h⟩ := copyByte_eq s core c dst x
  rw [h]
  exact (engineAt_slcWrite ..).trans rfl

theorem copyByte_mem (x : Nat × Byte) :
    (s.copyByte core c dst x).mem = s.mem.set (s.key (s.engPa (some core) c.grp.part .write (dst + x.1))) x.2 := by
  obtain ⟨l, h⟩ := copyByte_eq s core c dst x
  rw [h]
  exact slcWrite_mem ..

theorem copyByte_cores_groups (x : Nat × Byte) :
    (s.copyByte core c dst x).cores = s.cores ∧ (s.copyByte core c dst x).groups = s.groups := by
  obtain ⟨l, h⟩ := copyByte_eq s core c dst x
  rw [h]
  exact slcWrite_cores_groups ..

/-- The bytes of a run of a unit, in memory as it stands. -/
theorem copyBytes_mem (l : List (Nat × Byte)) : (l.foldl (fun s x => s.copyByte core c dst x) s).mem =
    l.foldl (fun m x => m.set (s.key (s.engPa (some core) c.grp.part .write (dst + x.1))) x.2) s.mem := by
  induction l generalizing s with
  | nil => rfl
  | cons x l ih =>
    obtain ⟨hk, he⟩ := (copyByte_engineAt s core c dst x).places
    rw [List.foldl_cons, ih, hk, he, copyByte_mem, List.foldl_cons]

theorem copyBytes_cores_groups (l : List (Nat × Byte)) :
    (l.foldl (fun s x => s.copyByte core c dst x) s).cores = s.cores ∧
      (l.foldl (fun s x => s.copyByte core c dst x) s).groups = s.groups := by
  induction l generalizing s with
  | nil => exact ⟨rfl, rfl⟩
  | cons x l ih =>
    obtain ⟨h1, h2⟩ := copyByte_cores_groups s core c dst x
    obtain ⟨h3, h4⟩ := ih (s.copyByte core c dst x)
    exact ⟨h3.trans h1, h4.trans h2⟩

theorem copyWrite_engineAt : EngineAt s (s.copyWrite core c dst bs) := by
  cases h : c.o.dsp with
  | true =>
    rw [copyWrite_window s core c dst bs h]
    rfl
  | false =>
    rw [copyWrite_memory s core c dst bs h]
    exact engineAt_foldl (fun s x => copyByte_engineAt s core c dst x) _ s

theorem copyWrite_cores : (s.copyWrite core c dst bs).cores = s.cores := by
  cases h : c.o.dsp with
  | true =>
    rw [copyWrite_window s core c dst bs h]
    rfl
  | false =>
    rw [copyWrite_memory s core c dst bs h]
    exact (copyBytes_cores_groups ..).1

/-- What a unit stores rests on memory, windows and translations alone. -/
theorem copyWrite_congr {s t : State} (he : EngineAt s t) (hm : t.mem = s.mem) (hg : t.groups = s.groups) :
    (t.copyWrite core c dst bs).mem = (s.copyWrite core c dst bs).mem ∧
      (t.copyWrite core c dst bs).groups = (s.copyWrite core c dst bs).groups := by
  cases h : c.o.dsp with
  | true =>
    rw [copyWrite_window s core c dst bs h, copyWrite_window t core c dst bs h]
    exact ⟨hm, congrArg (upd _ _) hg⟩
  | false =>
    obtain ⟨hk, hx⟩ := he.places
    rw [copyWrite_memory s core c dst bs h, copyWrite_memory t core c dst bs h]
    exact ⟨by rw [copyBytes_mem, copyBytes_mem, hk, hx, hm],
      (copyBytes_cores_groups ..).2.trans (hg.trans (copyBytes_cores_groups ..).2.symm)⟩

end

/-! ### A command in its slot -/

/-- The command of a slot. -/
def State.slotCmd (s : State) (core n : Nat) : Option Copy := ((s.core core).chan.slots[n]?).bind (·.cmd)

section
variable {s t : State} {core n : Nat} {c : Copy}

/-- The running command stands in a slot of a core that exists. -/
theorem current_iff : (s.core core).chan.current = some (n, c) ↔
    (s.core core).chan.running.head? = some n ∧ s.slotCmd core n = some c := by
  unfold Chan.current State.slotCmd
  cases hr : (s.core core).chan.running with
  | nil => simp
  | cons m l =>
    simp only [Option.map_eq_some_iff, Prod.mk.injEq, List.head?_cons, Option.some.injEq]
    constructor
    · rintro ⟨x, hx, rfl, rfl⟩
      exact ⟨rfl, hx⟩
    · rintro ⟨rfl, hx⟩
      exact ⟨c, hx, rfl, rfl⟩

theorem core_lt_of_current (h : (s.core core).chan.current = some (n, c)) : core < s.cores.length := by
  refine core_lt_of_chan fun he => ?_
  rw [he] at h
  simp [Chan.current, Chan.empty] at h

theorem slotCmd_modCmd (h : core < s.cores.length) (f : Copy → Copy) :
    (s.modCmd core n f).slotCmd core n = (s.slotCmd core n).map f := by
  simp only [State.slotCmd, State.modCmd, chan_modChan h, List.getElem?_modify_eq]
  cases (s.core core).chan.slots[n]? <;> rfl

/-- A change of a channel that keeps its slots. -/
theorem slotCmd_modChan (h : core < s.cores.length) {f : Chan → Chan} (hf : ∀ x, (f x).slots = x.slots) :
    (s.modChan core f).slotCmd core n = s.slotCmd core n := by
  simp only [State.slotCmd, chan_modChan h, hf]

/-- Nothing is cancelled but the running command, so at a unit boundary no other command leaves. -/
theorem dropCancelled_self (hfifo : ∀ x ∈ (s.core core).chan.fifo, x.cancel = false)
    (hrun : ∀ m ∈ (s.core core).chan.running.drop 1, ∀ x, s.slotCmd core m = some x → x.cancel = false) :
    s.dropCancelled core = s := by
  have gone : ((s.core core).chan.running.drop 1).filterMap (fun n =>
      ((((s.core core).chan.slots[n]?).bind (·.cmd)).filter fun c => c.cancel && !s.saving c.grp.part).map fun c => (n, c)) = [] := by
    refine List.filterMap_eq_nil_iff.2 fun m hm => ?_
    rw [Option.map_eq_none_iff, Option.filter_eq_none_iff]
    intro x hx
    simp [hrun m hm x hx]
  have kept : (s.core core).chan.fifo.filter (fun c => !c.cancel || s.saving c.grp.part) = (s.core core).chan.fifo :=
    List.filter_eq_self.2 fun x hx => by simp [hfifo x hx]
  simp only [State.dropCancelled, gone, List.foldl_nil]
  exact modChan_self (by rw [kept])

end

/-! ### A unit that has been read -/

/-- What the read of a unit leaves: bytes, windows, and the channel as they were. -/
structure UnitRead (s t : State) (core : Nat) : Prop where
  rest : EngineAt s t
  mem : t.mem = s.mem
  groups : t.groups = s.groups
  chan : (t.core core).chan = (s.core core).chan
  len : t.cores.length = s.cores.length

section
variable {s t : State} {core n : Nat} {c : Copy}

theorem unitUse_read (s : State) (core : Nat) (sp : Bool) (vs : List Service) : UnitRead s (s.unitUse core sp vs) core where
  rest := by rw [unitUse_frame]; rfl
  mem := by rw [unitUse_frame]
  groups := by rw [unitUse_frame]
  chan := chan_unitUse s core sp vs
  len := unitUse_cores_length s core sp vs

theorem unitRead_of_served (h : Served s t) (core : Nat) : UnitRead s t core := by
  obtain ⟨a, b, c, d, e, f, rfl⟩ := served_iff.1 h
  exact ⟨rfl, rfl, rfl, rfl, rfl⟩

theorem UnitRead.trans {u : State} (h : UnitRead s t core) (h' : UnitRead t u core) : UnitRead s u core :=
  ⟨h.rest.trans h'.rest, h'.mem.trans h.mem, h'.groups.trans h.groups, h'.chan.trans h.chan, h'.len.trans h.len⟩

/-- The unit of a command is written, as `s` has its destination. -/
structure UnitMoved (s t : State) (core n : Nat) (c : Copy) (dst : Nat) (bs : List Byte) : Prop where
  cmd : t.slotCmd core n = some { c with prog := c.prog + 1, unit := none }
  waves : t.waves = s.waves
  mem : t.mem = (s.copyWrite core c dst bs).mem
  groups : t.groups = (s.copyWrite core c dst bs).groups

theorem EngineAt.waves (h : EngineAt s t) : t.waves = s.waves := by
  unfold EngineAt at h
  rw [h]

/-- The banks serve the words of a unit that has been read: it is written. -/
theorem landUnit_moves (hr : UnitRead s t core) (hlt : core < s.cores.length) (hc : s.slotCmd core n = some c) (dst : Nat)
    (bs : List Byte)
    (hf : t.unitFree core c.o.dsp (wordServices c.grp c.num (2 * c.prog + 1) dst bs.length) = true) :
    UnitMoved s (t.landUnit core n c dst bs) core n c dst bs := by
  let u := t.unitUse core c.o.dsp (wordServices c.grp c.num (2 * c.prog + 1) dst bs.length)
  have hu : UnitRead s u core := hr.trans (unitUse_read ..)
  let v := u.copyWrite core c dst bs
  have hv : v.cores = u.cores := copyWrite_cores u core c dst bs
  obtain ⟨hm, hg⟩ := copyWrite_congr core c dst bs hu.rest hu.mem hu.groups
  have hland : t.landUnit core n c dst bs = (v.modCmd core n fun c => { c with prog := c.prog + 1, unit := none }).modChan core
      fun ch => { ch with miss := [] } := by
    simp only [State.landUnit, hf, if_true]
    rfl
  have hvlt : core < v.cores.length := by rw [hv, hu.len]; exact hlt
  have hvc : v.slotCmd core n = some c := by
    have : v.core core = u.core core := by simp only [State.core, hv]
    rw [State.slotCmd, this, hu.chan]
    exact hc
  rw [hland]
  refine ⟨?_, (hu.rest.trans (copyWrite_engineAt ..)).waves, hm, hg⟩
  have hlen : core < (v.modCmd core n fun c => { c with prog := c.prog + 1, unit := none }).cores.length := by
    simpa [State.modCmd, State.modChan] using hvlt
  refine (slotCmd_modChan (f := fun ch => { ch with miss := [] }) hlen fun _ => rfl).trans ?_
  rw [slotCmd_modCmd hvlt, hvc]
  rfl

/-- The banks do not serve them yet: the unit is kept. -/
theorem landUnit_keeps (hr : UnitRead s t core) (hlt : core < s.cores.length) (hc : s.slotCmd core n = some c) (dst : Nat)
    (bs : List Byte)
    (hf : t.unitFree core c.o.dsp (wordServices c.grp c.num (2 * c.prog + 1) dst bs.length) = false) :
    let u := t.landUnit core n c dst bs
    u.slotCmd core n = some { c with unit := some bs } ∧ u.waves = s.waves ∧ u.mem = s.mem ∧ u.groups = s.groups := by
  intro u
  have hu : u = t.modCmd core n fun c => { c with unit := some bs } := by simp [u, State.landUnit, hf]
  have htc : t.slotCmd core n = some c := by
    rw [State.slotCmd, hr.chan]
    exact hc
  rw [hu]
  refine ⟨?_, hr.rest.waves, hr.mem, hr.groups⟩
  rw [slotCmd_modCmd (by rw [hr.len]; exact hlt), htc]
  rfl

end

/-! ### The end of a command -/

/-- An access that takes the status of a command as it ends. -/
def Copy.awaited (c : Copy) (a : Acc) : Bool := a.op = .handle && a.args = [BitVec.ofNat 64 c.num]

/-- A command has ended, as `s` has it, with what is then due in its wave. -/
structure CopyEnded (s t : State) (core n : Nat) (c : Copy) (st : CStat) (ds : List Due) : Prop where
  running : n ∉ (t.core core).chan.running
  mem : t.mem = s.mem
  accs : t.accs = s.accs.map fun a => if a.op = .handle ∧ a.args = [BitVec.ofNat 64 c.num] then a.withStatus { c with stat := st } else a
  cmd : ∃ x, t.slotCmd core n = some x ∧ x.stat = st ∧ x.prog = c.prog ∧ x.blk = c.blk
  waves : ∀ w, s.waveUid? c.uid = some w → w.life = .live →
    t.waveUid? c.uid = some { w.decSf c.sf (s.cyc core) with due := w.due ++ ds }

/-- What is due in the wave of a command that ends. -/
def failDues (fail : Option (Nat × W64)) : List Due :=
  match fail with
  | some (k, va) => [⟨k, va, none, 0⟩]
  | none => []

/-- The channel once a command has ended. -/
def Chan.over (n k : Nat) (head : Prop) [Decidable head] (stat : CStat) (fail : Option (Nat × W64)) (ch : Chan) : Chan :=
  { ch with
    running := ch.running.filter (· ≠ n), miss := if head then [] else ch.miss
    slots := ch.slots.modify n fun x =>
      { x with ended := k, cmd := x.cmd.map fun c => { c with stat := stat, cause := fail.map (·.1), unit := none } } }

/-- The wave of a command that has ended. -/
def Wave.copyOver (now : Nat) (c : Copy) (fail : Option (Nat × W64)) (w : Wave) : Wave :=
  if w.life = .exited then w else { w.decSf c.sf now with due := w.due ++ failDues fail }

section
variable {s t : State} {core n : Nat} {c : Copy}

theorem withStatus_op (a : Acc) (c : Copy) : (a.withStatus c).op = a.op := by
  by_cases h : c.stat = .done <;> simp [Acc.withStatus, h]

/-- The state once a command has ended, but for the HCANCELs of it. -/
def State.copyOver (s : State) (core n : Nat) (c : Copy) (stat : CStat) (fail : Option (Nat × W64)) : State :=
  let head := (s.core core).chan.running.head? = some n
  let t := { s with nextSeq := s.nextSeq + 1 }.modChan core (Chan.over n s.nextSeq head stat fail)
  let t := if head then t.fbLeave (.chan core) else t
  let woken := t.waves.filter fun w => t.accs.any fun a => c.awaited a && w.awaitsAcc a.id
  let t : State := { t with
    accs := upd c.awaited (fun a => a.withStatus { c with stat := stat }) t.accs
    events := woken.foldl (fun es w => insEvent (.wake w.id) es) t.events }
  t.modUid c.uid (Wave.copyOver (t.cyc core) c fail)

theorem copyOver_accs (s : State) (core n : Nat) (c : Copy) (stat : CStat) (fail : Option (Nat × W64)) :
    (s.copyOver core n c stat fail).accs = upd c.awaited (fun a => a.withStatus { c with stat := stat }) s.accs := by
  unfold State.copyOver
  simp only
  split <;> rfl

theorem copyOver_store (s : State) (core n : Nat) (c : Copy) (stat : CStat) (fail : Option (Nat × W64)) :
    (s.copyOver core n c stat fail).mem = s.mem ∧ (s.copyOver core n c stat fail).groups = s.groups := by
  unfold State.copyOver
  simp only
  split <;> exact ⟨rfl, rfl⟩

theorem copyOver_waveUid? (s : State) (core n : Nat) (c : Copy) (stat : CStat) (fail : Option (Nat × W64)) (uid : Nat) :
    (s.copyOver core n c stat fail).waveUid? uid = (s.modUid c.uid (Wave.copyOver (s.cyc core) c fail)).waveUid? uid := by
  unfold State.copyOver
  simp only
  split <;> rfl

theorem copyOver_chan (hlt : core < s.cores.length) (n : Nat) (c : Copy) (stat : CStat) (fail : Option (Nat × W64)) :
    ((s.copyOver core n c stat fail).core core).chan =
      Chan.over n s.nextSeq ((s.core core).chan.running.head? = some n) stat fail (s.core core).chan := by
  have once := chan_modChan (s := { s with nextSeq := s.nextSeq + 1 }) hlt
    (Chan.over n s.nextSeq ((s.core core).chan.running.head? = some n) stat fail)
  refine Eq.trans ?_ once
  unfold State.copyOver
  simp only
  split <;> rfl

theorem copyOver_uid (now : Nat) (c : Copy) (fail : Option (Nat × W64)) (w : Wave) : (w.copyOver now c fail).uid = w.uid := by
  unfold Wave.copyOver
  split
  · rfl
  · rw [decSf_eq]

/-- With no HCANCEL outstanding, nothing else comes with the end of a command. -/
theorem endCopy_eq (hno : ∀ a ∈ s.accs, a.op ≠ .cancelled) (stat : CStat) (fail : Option (Nat × W64)) :
    s.endCopy core n c stat fail = s.copyOver core n c stat fail := by
  have whole : s.endCopy core n c stat fail =
      ((s.copyOver core n c stat fail).accs.filter fun a => a.op = .cancelled && a.args = [BitVec.ofNat 64 c.num]).foldl
        (fun s a => s.complete a []) (s.copyOver core n c stat fail) := by
    unfold State.copyOver
    cases fail <;> rfl
  rw [whole, copyOver_accs, List.filter_eq_nil_iff.2, List.foldl_nil]
  intro a ha
  obtain ⟨b, hb, rfl⟩ := List.mem_map.1 ha
  split <;> simp [withStatus_op, hno b hb]

/-- The end of a command, in a state that has the accesses, the waves and the bytes of another. -/
theorem copyOver_ended {c' : Copy} (hlt : core < t.cores.length) (hc : t.slotCmd core n = some c') (hp : c'.prog = c.prog)
    (hb : c'.blk = c.blk) (hm : t.mem = s.mem) (ha : t.accs = s.accs) (hw : t.waves = s.waves) (hcl : t.clusters = s.clusters)
    (stat : CStat) (fail : Option (Nat × W64)) : CopyEnded s (t.copyOver core n c stat fail) core n c stat (failDues fail) where
  running := by
    rw [copyOver_chan hlt]
    simp [Chan.over]
  mem := (copyOver_store ..).1.trans hm
  accs := by
    rw [copyOver_accs, ha]
    refine List.map_congr_left fun a _ => ?_
    simp [Copy.awaited]
  cmd := by
    obtain ⟨x, hx, hxc⟩ := Option.bind_eq_some_iff.1 hc
    rw [State.slotCmd, copyOver_chan hlt]
    simp only [Chan.over, List.getElem?_modify_eq, hx]
    exact ⟨{ c' with stat := stat, cause := fail.map (·.1), unit := none }, by simp [hxc], rfl, hp, hb⟩
  waves := by
    intro w hs hl
    have ht : t.waveUid? c.uid = some w := by rw [State.waveUid?, hw]; exact hs
    have hcyc : t.cyc core = s.cyc core := by simp only [State.cyc, State.cluster, hcl]
    rw [copyOver_waveUid?, waveUid?_modUid (copyOver_uid _ c fail) ht, hcyc, Wave.copyOver, if_neg (by simp [hl])]

theorem endCopy_ended {c' : Copy} (hno : ∀ a ∈ t.accs, a.op ≠ .cancelled) (hlt : core < t.cores.length)
    (hc : t.slotCmd core n = some c') (hp : c'.prog = c.prog) (hb : c'.blk = c.blk) (hm : t.mem = s.mem) (ha : t.accs = s.accs)
    (hw : t.waves = s.waves) (hcl : t.clusters = s.clusters) (stat : CStat) (fail : Option (Nat × W64)) :
    CopyEnded s (t.endCopy core n c stat fail) core n c stat (failDues fail) ∧ (t.endCopy core n c stat fail).groups = t.groups := by
  rw [endCopy_eq hno]
  exact ⟨copyOver_ended hlt hc hp hb hm ha hw hcl stat fail, (copyOver_store ..).2⟩

/-- A command ends once reads have been served for it. -/
theorem endCopy_served (ht : Served s t) (hno : ∀ a ∈ s.accs, a.op ≠ .cancelled) (hlt : core < s.cores.length)
    (hc : s.slotCmd core n = some c) (stat : CStat) (fail : Option (Nat × W64)) :
    CopyEnded s (t.endCopy core n c stat fail) core n c stat (failDues fail) ∧ (t.endCopy core n c stat fail).groups = s.groups := by
  obtain ⟨a, b, c', d, e, f, rfl⟩ := served_iff.1 ht
  exact endCopy_ended (s := s) (t := { s with slc := a, home := b, dirty := c', flip := d, fresh := e, out := f }) hno hlt hc rfl rfl rfl
    rfl rfl rfl stat fail

end

/-! ### The next unit of the running command -/

section
variable {s t : State} {core n : Nat} {c : Copy}

theorem length_rdBytes (g : Group) (x n : Nat) : (g.rdBytes x n).length = n := by
  induction n generalizing x with
  | zero => rfl
  | succ n ih => simp [Group.rdBytes, ih]

theorem length_copyRead (s : State) (core : Nat) (g : GroupId) (sp : Bool) (src len : Nat) :
    (s.copyRead core g sp src len).length = len := by
  unfold State.copyRead
  split
  · cases s.group? g <;> simp [length_rdBytes]
  · simp

/-- What serving reads leaves of translations, units to read, and what bars an access. -/
theorem served_reads (h : Served s t) : t.copyXlate = s.copyXlate ∧ t.copyRead = s.copyRead ∧ t.copyLines = s.copyLines ∧
    t.poison = s.poison ∧ t.snoop = s.snoop := by
  obtain ⟨a, b, c, d, e, f, rfl⟩ := served_iff.1 h
  exact ⟨rfl, rfl, rfl, rfl, rfl⟩

theorem served_rdNat (h : Served s t) : t.rdNat = s.rdNat ∧ t.group? = s.group? := by
  obtain ⟨a, b, c, d, e, f, rfl⟩ := served_iff.1 h
  refine ⟨?_, rfl⟩
  have bytes : ∀ pa n, State.rdBytes { s with slc := a, home := b, dirty := c, flip := d, fresh := e, out := f } pa n = s.rdBytes pa n := by
    intro pa n
    induction n generalizing pa with
    | zero => rfl
    | succ n ih => exact congrArg (_ :: ·) (ih (pa + 1))
  funext pa n
  exact congrArg leNat (bytes pa n)

section
variable (src dst len : Nat)

/-- A unit whose pages are mapped, whose lines nobody holds, and whose words the banks serve. -/
theorem moveUnit_moves (h : Served s t) (hlt : core < s.cores.length) (hc : s.slotCmd core n = some c) (hpo : s.poison = []) (hsn : s.snoop = [])
    (hrd : s.copyXlate core c.grp.part c.o.ssp .read src len = .ok) (hwr : s.copyXlate core c.grp.part c.o.dsp .write dst len = .ok)
    (hf : s.unitFree core c.o.ssp (wordServices c.grp c.num (2 * c.prog) src len) = true) :
    let u := t.moveUnit core n c src dst len
    let bs := s.copyRead core c.grp c.o.ssp src len
    if (s.unitUse core c.o.ssp (wordServices c.grp c.num (2 * c.prog) src len)).unitFree core c.o.dsp
        (wordServices c.grp c.num (2 * c.prog + 1) dst len) = true then UnitMoved s u core n c dst bs
    else u.slotCmd core n = some { c with unit := some bs } ∧ u.waves = s.waves ∧ u.mem = s.mem ∧ u.groups = s.groups := by
  intro u bs
  let v := (s.copyLines core c.grp c.o.ssp .read src len).foldl (fun s pa => s.slcTouch (s.partWays c.grp.part) pa c.ownsSrc) t
  have hv : Served s v := h.trans (served_foldl (fun s pa => served_slcTouch s ..) _ t)
  obtain ⟨hx, -, hl, hpo', hsn'⟩ := served_reads h
  obtain ⟨-, hvr, -, -, -⟩ := served_reads hv
  have hu : u = (v.unitUse core c.o.ssp (wordServices c.grp c.num (2 * c.prog) src len)).landUnit core n c dst bs := by
    have clean : (s.copyLines core c.grp c.o.ssp .read src len).any t.poisoned = false := by
      simp [poisoned_nil (hpo'.trans hpo)]
    simp only [u, State.moveUnit, hx, hrd, hwr, hl, clean, snoopHeld_nil (hsn'.trans hsn), served_unitFree h, hf]
    simp only [bs, v, ← hvr]
    simp
  have hr : UnitRead s (v.unitUse core c.o.ssp (wordServices c.grp c.num (2 * c.prog) src len)) core :=
    (unitRead_of_served hv core).trans (unitUse_read ..)
  have hlen : bs.length = len := length_copyRead ..
  have hfree := served_unitFree (served_unitUse hv core c.o.ssp (wordServices c.grp c.num (2 * c.prog) src len)) core c.o.dsp
    (wordServices c.grp c.num (2 * c.prog + 1) dst len)
  rw [← hfree, hu]
  split
  case isTrue hw => exact landUnit_moves hr hlt hc dst bs (by rw [hlen]; exact hw)
  case isFalse hw => exact landUnit_keeps hr hlt hc dst bs (by rw [hlen]; simpa using hw)

/-- A source whose translation fails ends the command, and so does a destination whose does. -/
theorem moveUnit_bad {k : Nat} {va : W64} (h : s.copyXlate core c.grp.part c.o.ssp .read src len = .bad k va ∨
    s.copyXlate core c.grp.part c.o.ssp .read src len = .ok ∧ s.copyXlate core c.grp.part c.o.dsp .write dst len = .bad k va) :
    s.moveUnit core n c src dst len = s.endCopy core n c .failed (some (k, va)) := by
  rcases h with h | ⟨h, h'⟩
  · simp [State.moveUnit, h]
  · simp [State.moveUnit, h, h']

theorem moveUnit_poisoned (h : s.copyXlate core c.grp.part c.o.ssp .read src len = .ok)
    (h' : s.copyXlate core c.grp.part c.o.dsp .write dst len = .ok)
    (hp : (s.copyLines core c.grp c.o.ssp .read src len).any s.poisoned = true) :
    s.moveUnit core n c src dst len = s.endCopy core n c .failed (some (6, BitVec.ofNat 64 src)) := by
  simp only [State.moveUnit, h, h', hp, if_true]

end

section
variable (hd : s.dropCancelled core = s) (hcur : (s.core core).chan.current = some (n, c)) (hu : c.prog < c.units)
include hd hcur hu

/-- A unit that has been read is written before anything else. -/
theorem copyUnit_lands {bs : List Byte} (hb : c.unit = some bs) : exec (.copyUnit core) s =
    .next (s.landUnit core n c (c.dst + (c.spanAt (c.prog / c.perSpan)).2 + c.prog % c.perSpan * 128) bs) := by
  simp [exec, execCopyUnit, hd, hcur, Nat.not_le.2 hu, hb]

variable (hb : c.unit = none) (hs : s.saving c.grp.part = false)
include hb hs

theorem copyUnit_cancels (hc : c.cancel = true) : exec (.copyUnit core) s = .next (s.endCopy core n c .cancelled none) := by
  simp [exec, execCopyUnit, hd, hcur, Nat.not_le.2 hu, hb, hs, hc]

variable (hc : c.cancel = false) (ha : s.afterDone c.after = true)
include hc ha

theorem copyUnit_span (hform : c.o.form ≠ .gath) : exec (.copyUnit core) s = .next (s.moveUnit core n c
    (c.src + (c.spanAt (c.prog / c.perSpan)).1 + c.prog % c.perSpan * 128)
    (c.dst + (c.spanAt (c.prog / c.perSpan)).2 + c.prog % c.perSpan * 128)
    (min 128 (c.spanLen - c.prog % c.perSpan * 128))) := by
  cases h : c.o.form with
  | gath => exact absurd h hform
  | lin => simp [exec, execCopyUnit, hd, hcur, Nat.not_le.2 hu, hb, hs, hc, ha, h]
  | d2 => simp [exec, execCopyUnit, hd, hcur, Nat.not_le.2 hu, hb, hs, hc, ha, h]
  | d3 => simp [exec, execCopyUnit, hd, hcur, Nat.not_le.2 hu, hb, hs, hc, ha, h]

section
variable (hform : c.o.form = .gath)
include hform

theorem copyUnit_gather_bad {k : Nat} {va : W64}
    (hx : s.copyXlate core c.grp.part false .read (c.b64 8 + 4 * (c.prog / c.perSpan)) 4 = .bad k va) :
    exec (.copyUnit core) s = .next (s.endCopy core n c .failed (some (k, va))) := by
  simp [exec, execCopyUnit, hd, hcur, Nat.not_le.2 hu, hb, hs, hc, ha, hform, hx]

/-- The index of a gather is read, and then its element's unit moved, or its reach refused. -/
theorem copyUnit_gather (hx : s.copyXlate core c.grp.part false .read (c.b64 8 + 4 * (c.prog / c.perSpan)) 4 = .ok)
    (hpo : s.poison = []) (hsn : s.snoop = []) :
    ∃ t, Served s t ∧ exec (.copyUnit core) s =
      let src := c.src + s.rdNat (s.engPa (some core) c.grp.part .read (c.b64 8 + 4 * (c.prog / c.perSpan))) 4 * c.spanLen
      if (if c.o.ssp then ((s.group? c.grp).map (·.size)).getD 0 else 2 ^ 51) < src + c.spanLen then
        .next (t.endCopy core n c .failed (some (5, BitVec.ofNat 64 src)))
      else .next (t.moveUnit core n c src (c.dst + (c.spanAt (c.prog / c.perSpan)).2)
        (min 128 (c.spanLen - c.prog % c.perSpan * 128))) := by
  let pa := s.engPa (some core) c.grp.part .read (c.b64 8 + 4 * (c.prog / c.perSpan))
  let t := s.slcTouch (s.partWays c.grp.part) pa c.ownsSrc
  have ht : Served s t := served_slcTouch ..
  refine ⟨t, ht, ?_⟩
  obtain ⟨hrd, hgr⟩ := served_rdNat ht
  simp only [exec, execCopyUnit, hd, hcur, Nat.not_le.2 hu, hb, hs, hc, ha, hform, hx, poisoned_nil hpo, snoopHeld_nil hsn]
  simp only [if_false, Bool.false_eq_true, Bool.not_true, ← hrd, ← hgr]
  rfl

end

end

end

/-! ### Completion of a command -/

section
variable {s : State} {core n : Nat} {c : Copy}

/-- The state once the completion word of a command is written. -/
def State.worded (s : State) (core n : Nat) (c : Copy) : State :=
  (if c.o.cw && !c.cwDone then
    (s.unitUse core true (wordServices c.grp c.num (2 * c.prog) (c.b 5) 4)).modGroup c.grp fun g => g.wrNat (c.b 5) 4 (c.b 6)
  else s).modCmd core n fun c => { c with cwDone := true }

theorem worded_groups (s : State) (core n : Nat) (c : Copy) : (s.worded core n c).groups =
    if c.o.cw ∧ c.cwDone = false then upd (fun g => g.id = c.grp) (fun g => g.wrNat (c.b 5) 4 (c.b 6)) s.groups else s.groups := by
  have used := (unitUse_read s core true (wordServices c.grp c.num (2 * c.prog) (c.b 5) 4)).groups
  unfold State.worded
  by_cases h : c.o.cw ∧ c.cwDone = false
  · rw [if_pos h, if_pos (by simpa using h), ← used]
    rfl
  · rw [if_neg h, if_neg (by simpa using h)]
    rfl

/-- A completion word is a store of its window alone. -/
theorem worded_same (s : State) (core n : Nat) (c : Copy) : (s.worded core n c).mem = s.mem ∧ (s.worded core n c).accs = s.accs ∧
    (s.worded core n c).waves = s.waves ∧ (s.worded core n c).clusters = s.clusters := by
  unfold State.worded
  split
  · rw [unitUse_frame]
    exact ⟨rfl, rfl, rfl, rfl⟩
  · exact ⟨rfl, rfl, rfl, rfl⟩

theorem worded_slot (hlt : core < s.cores.length) (hc : s.slotCmd core n = some c) :
    core < (s.worded core n c).cores.length ∧ (s.worded core n c).slotCmd core n = some { c with cwDone := true } := by
  have used := unitUse_read s core true (wordServices c.grp c.num (2 * c.prog) (c.b 5) 4)
  unfold State.worded
  split
  · have hlt' := used.len ▸ hlt
    refine ⟨by simpa [State.modCmd, State.modChan] using hlt', ?_⟩
    rw [slotCmd_modCmd (by simpa using hlt')]
    have : State.slotCmd ((s.unitUse core true (wordServices c.grp c.num (2 * c.prog) (c.b 5) 4)).modGroup c.grp
        fun g => g.wrNat (c.b 5) 4 (c.b 6)) core n = s.slotCmd core n := by
      unfold State.slotCmd
      rw [← used.chan]
      rfl
    rw [this, hc]
    rfl
  · refine ⟨by simpa [State.modCmd, State.modChan] using hlt, ?_⟩
    rw [slotCmd_modCmd hlt, hc]
    rfl

theorem worded_chainQueued (s : State) (core n : Nat) (c : Copy) (k : Nat) :
    (s.worded core n c).chainQueued k = s.chainQueued k := by
  unfold State.chainQueued
  rw [worded_groups]
  split
  · rw [upd, List.any_map]
    refine congrArg (List.any s.groups) (funext fun g => ?_)
    have tile : (if decide (g.id = c.grp) then g.wrNat (c.b 5) 4 (c.b 6) else g).tile = g.tile := by split <;> rfl
    simp only [Function.comp_apply, tile]
  · rfl

section
variable (hcur : (s.core core).chan.current = some (n, c)) (hu : c.units ≤ c.prog) (hs : s.saving c.grp.part = false)
include hcur hu hs

theorem copyComplete_cancels (hc : c.cancel = true) (hch : c.chained ≠ some true) :
    exec (.copyComplete core) s = .next (s.endCopy core n c .cancelled none) := by
  simp [exec, execCopyComplete, hcur, Nat.not_lt.2 hu, hs, hc, hch]

theorem copyComplete_ends (hc : c.cancel = false)
    (hw : c.cwDone = true ∨ (if (c.o.rel.map scopeFar).getD true then s.afterDone c.rel else s.nearDone c.rel) = true ∧
      s.unitFree core c.o.cw (wordServices c.grp c.num (2 * c.prog) (c.b 5) 4) = true)
    (hch : c.chained = none ∨ c.chained = some true ∧ s.chainQueued c.num = false) :
    exec (.copyComplete core) s = .next ((s.worded core n c).endCopy core n c .done none) := by
  have word : (!c.cwDone && !(if (c.o.rel.map scopeFar).getD true then s.afterDone c.rel else s.nearDone c.rel)) = false ∧
      (!c.cwDone && !s.unitFree core c.o.cw (wordServices c.grp c.num (2 * c.prog) (c.b 5) 4)) = false := by
    rcases hw with hw | ⟨hr, hf⟩
    · simp [hw]
    · simp [hr, hf]
  obtain ⟨hr, hf⟩ := word
  have queued := worded_chainQueued s core n c c.num
  simp only [exec, execCopyComplete, hcur, Nat.not_lt.2 hu, hs, hc, hr, hf]
  rcases hch with hch | ⟨hch, hq⟩
  · simp only [hch]
    rfl
  · rw [hq] at queued
    simp only [State.worded] at queued
    simp only [hch, queued]
    rfl

end

end

/-! ### Acceptance (R300, R308) -/

/-- A free slot is one of the channel's. -/
theorem freeSlot_lt {ch : Chan} {n : Nat} (h : ch.freeSlot = some n) : n < ch.slots.length := by
  obtain ⟨x, hx, rfl⟩ := Option.map_eq_some_iff.1 h
  obtain ⟨k, hk, he⟩ := List.getElem_of_mem (List.mem_filter.1 (argMax_mem hx)).1
  simp only [List.length_zip, List.length_range, lt_min_iff] at hk
  rw [← he]
  simpa using hk.2

section
variable {s : State} {core n : Nat} {c : Copy} {rest : List Copy} {w : Wave}

/-- The channel once its oldest command has a slot. -/
def Chan.accepted (ch : Chan) (n : Nat) (gen : BitVec 16) (c : Copy) (rest : List Copy) : Chan :=
  { ch with
    fifo := rest, slots := ch.slots.modify n (fun x => { x with gen := gen, cmd := some c }), running := ch.running ++ [n] }

/-- The wave once its handle has the token. -/
def Wave.handed (h : Nat) (tok : W32) (w : Wave) : Wave :=
  if w.life = .exited then w else { w with h := w.h.set h tok, hpend := w.hpend.filter fun x => x ≠ h }

theorem copyAccept_accepts (hf : (s.core core).chan.fifo = c :: rest) (hn : (s.core core).chan.freeSlot = some n)
    (hs : s.saving c.grp.part = false) :
    let gen := ((s.core core).chan.slots.getD n ⟨0, none, 0⟩).gen + 1
    exec (.copyAccept core) s = .next ((s.modChan core fun ch => ch.accepted n gen c rest).modUid c.uid
      (Wave.handed c.o.h.toNat (token core n (s.cluPos c.grp.part core) gen))) := by
  simp only [exec, execCopyAccept, hf, hn, hs]
  rfl

end

/-! ### The status of a handle (R309, R311) -/

/-- The lines of the L1s once an access that ends has acquired, where it does. -/
def Acc.l1After (a : Acc) (l1 : List Line) : List Line :=
  if a.ord = .acq then l1.filter fun l => ¬ (l.core = a.w.core ∧ (scopeFar a.sco = true ∨ l.eng.contains a.grp = true)) else l1

section
variable {s : State}

theorem acquire_complete (a : Acc) (ps : List Put) :
    (if a.ord = .acq then s.l1Acquire a.grp a.w.core a.sco else s).complete a ps =
      { ended s a ps with l1 := a.l1After s.l1 } := by
  unfold Acc.l1After
  by_cases hacq : a.ord = .acq
  · rw [if_pos hacq, if_pos hacq]
    cases hfar : scopeFar a.sco with
    | true =>
      simp only [State.l1Acquire, hfar, if_true, true_or, and_true]
      rfl
    | false =>
      have lines : (fun l : Line => !(decide (l.core = a.w.core) && l.eng.contains a.grp)) =
          fun l => decide ¬ (l.core = a.w.core ∧ (false = true ∨ l.eng.contains a.grp = true)) := by
        funext l
        simp
      simp only [State.l1Acquire, hfar, lines]
      rfl
  · rw [if_neg hacq, if_neg hacq]
    rfl

theorem handleStatusWrite_writes {id : Nat} {a : Acc} {w : Wave} (hr : s.ripe id (· = .handle) = some a)
    (hw : s.waveUid? a.uid = some w) (ha : a.args = []) :
    exec (.handleStatusWrite id) s = .next { ended s a a.puts with l1 := a.l1After s.l1 } := by
  rw [← acquire_complete]
  simp [exec, execHandleStatusWrite, hr, hw, ha]

theorem handleStatusWrite_waits {id : Nat} {a : Acc} {w : Wave} (hr : s.ripe id (· = .handle) = some a)
    (hw : s.waveUid? a.uid = some w) (ha : a.args ≠ []) : exec (.handleStatusWrite id) s = .next s := by
  simp [exec, execHandleStatusWrite, hr, hw, ha]

/-- A wave that waits no more. -/
def Wave.woken (next : Nat) (w : Wave) : Wave := { w with wait := .none, notBefore := next }

/-- A wait of an HWAIT is satisfied once the status is taken, but not while the partition is saved. -/
theorem wakeable_handle {w : Wave} {id : Nat} {a : Acc} (hw : w.wait = .handle id) (ha : s.acc? id = some a) :
    s.wakeable w = (!s.saving w.grp.part && a.args.isEmpty) := by
  simp [State.wakeable, hw, ha]

end

end Sys2Proof.Machine
end

section
/-! Copies: the statement about them, and its proof. -/

namespace Sys2Proof.Machine

open Sys2Proof.Claims

/-- Settles O37: a unit is read by what serving leaves of a state and written as `copyWrite` has it there; the end of a command,
by what `endCopy` changes where no HCANCEL awaits it. -/
theorem copyWork : Obligations.CopyWork := by
  refine ⟨?units, ?accept, ?status, ?wake⟩
  case units =>
    intro s core n c hcur hs hno hfifo hrun cmd ended span off len gath ix win src dst bytes rdS wrS word moved
    have hd := dropCancelled_self hfifo hrun
    have hlt := core_lt_of_current hcur
    have hslot : s.slotCmd core n = some c := (current_iff.1 hcur).2
    have endsAs {t : State} {st : CStat} {fail : Option (Nat × W64)} (h : CopyEnded s t core n c st (failDues fail)) :
        ended t st (failDues fail) := ⟨h.running, h.mem, h.accs, h.cmd, h.waves⟩
    have ends {t : State} (ht : Served s t) (st : CStat) (fail : Option (Nat × W64)) :
        ended (t.endCopy core n c st fail) st (failDues fail) ∧ (t.endCopy core n c st fail).groups = s.groups :=
      let h := endCopy_served ht hno hlt hslot st fail
      ⟨endsAs h.1, h.2⟩
    have moves {t : State} {dst : Nat} {bs : List Byte} (h : UnitMoved s t core n c dst bs) : moved t dst bs :=
      ⟨h.cmd, h.waves, h.mem, h.groups⟩
    refine ⟨?_, ?_, ?_, ?_, ?_, ?_⟩
    · intro hu hc hb ha hg hrd hwr hpo hsn hf
      have moveHere {t : State} (ht : Served s t) (hex : exec (.copyUnit core) s = .next (t.moveUnit core n c src dst len)) :
          ∃ t, exec (.copyUnit core) s = .next t ∧ if (s.unitUse core c.o.ssp rdS).unitFree core c.o.dsp (wrS dst len) = true then
            moved t dst bytes else cmd t = some { c with unit := some bytes } ∧ t.waves = s.waves ∧ t.mem = s.mem ∧ t.groups = s.groups := by
        refine ⟨_, hex, ?_⟩
        have h := moveUnit_moves src dst len ht hlt hslot hpo hsn hrd hwr hf
        split
        case isTrue hw => exact moves ((if_pos hw).mp h)
        case isFalse hw => exact (if_neg hw).mp h
      by_cases hform : c.o.form = .gath
      · obtain ⟨hix, hin⟩ := hg hform
        obtain ⟨t, ht, hex⟩ := copyUnit_gather hd hcur hu hb hs hc ha hform hix hpo hsn
        have hsrc : src = c.src + s.rdNat (s.engPa (some core) c.grp.part .read ix) 4 * c.spanLen := by simp [src, gath, hform]
        have hdst : dst = c.dst + (c.spanAt span).2 := by simp [dst, gath, hform]
        refine moveHere ht (hex.trans ?_)
        rw [hsrc] at hin ⊢
        rw [hdst]
        exact if_neg (Nat.not_lt.2 hin)
      · have hex := copyUnit_span hd hcur hu hb hs hc ha hform
        have hsrc : src = c.src + (c.spanAt span).1 + off := by simp [src, gath, hform, Nat.add_assoc]
        have hdst : dst = c.dst + (c.spanAt span).2 + off := by simp [dst, gath, hform]
        refine moveHere (served_refl s) (hex.trans ?_)
        rw [hsrc, hdst]
    · intro hu hc hb ha fails
      have failsAt {t : State} (ht : Served s t) {k : Nat} {va : W64}
          (hex : exec (.copyUnit core) s = .next (t.endCopy core n c .failed (some (k, va)))) : fails k va :=
        ⟨_, hex, ends ht .failed (some (k, va))⟩
      constructor
      · intro hform
        have hex := copyUnit_span hd hcur hu hb hs hc ha hform
        have hsrc : c.src + (c.spanAt span).1 + off = src := by simp [src, gath, hform, Nat.add_assoc]
        have hdst : c.dst + (c.spanAt span).2 + off = dst := by simp [dst, gath, hform]
        have hex' : exec (.copyUnit core) s = .next (s.moveUnit core n c src dst len) := by
          rw [← hsrc, ← hdst]
          exact hex
        refine ⟨fun k va hb => ?_, fun k va hrd hb => ?_, fun hrd hwr hp => ?_⟩
        · exact failsAt (served_refl s) (hex'.trans (congrArg _ (moveUnit_bad src dst len (.inl hb))))
        · exact failsAt (served_refl s) (hex'.trans (congrArg _ (moveUnit_bad src dst len (.inr ⟨hrd, hb⟩))))
        · exact failsAt (served_refl s) (hex'.trans (congrArg _ (moveUnit_poisoned src dst len hrd hwr hp)))
      · intro hform
        refine ⟨fun k va hx => failsAt (served_refl s) (copyUnit_gather_bad hd hcur hu hb hs hc ha hform hx), ?_⟩
        intro hix hpo hsn hout
        obtain ⟨t, ht, hex⟩ := copyUnit_gather hd hcur hu hb hs hc ha hform hix hpo hsn
        have hsrc : src = c.src + s.rdNat (s.engPa (some core) c.grp.part .read ix) 4 * c.spanLen := by simp [src, gath, hform]
        refine failsAt ht (hex.trans ?_)
        rw [hsrc] at hout ⊢
        exact if_pos hout
    · intro bs hu hb dst hf
      exact ⟨_, copyUnit_lands hd hcur hu hb, moves (landUnit_moves (unitRead_of_served (served_refl s) core) hlt hslot _ bs hf)⟩
    · intro hu hc hb
      exact ⟨_, copyUnit_cancels hd hcur hu hb hs hc, ends (served_refl s) .cancelled none⟩
    · intro hu hc hch
      exact ⟨_, copyComplete_cancels hcur hu hs hc hch, ends (served_refl s) .cancelled none⟩
    · intro hu hc hw hch
      refine ⟨_, copyComplete_ends hcur hu hs hc hw hch, ?_⟩
      obtain ⟨hm, ha, hwv, hcl⟩ := worded_same s core n c
      obtain ⟨hlt', hslot'⟩ := worded_slot hlt hslot
      have h := endCopy_ended (s := s) (c := c) (by rw [ha]; exact hno) hlt' hslot' rfl rfl hm ha hwv hcl .done none
      exact ⟨endsAs h.1, h.2.trans (worded_groups s core n c)⟩
  case accept =>
    intro s core n c rest w hf hn hs hw hl gen
    have hlt : core < s.cores.length := core_lt_of_chan fun he => by simp [he, Chan.empty] at hf
    have hslot := List.getElem?_eq_getElem (freeSlot_lt hn)
    have hchan := chan_modChan (s := s) hlt fun ch => ch.accepted n gen c rest
    have hwave := waveUid?_modUid (s := s.modChan core fun ch => ch.accepted n gen c rest)
      (f := Wave.handed c.o.h.toNat (token core n (s.cluPos c.grp.part core) gen)) (fun x => by unfold Wave.handed; split <;> rfl) hw
    refine ⟨_, { (s.core core).chan.slots[n]'(freeSlot_lt hn) with gen := gen, cmd := some c }, copyAccept_accepts hf hn hs, ?_, ?_, ?_,
      ?_, rfl, rfl, rfl⟩
    · rw [hwave, Wave.handed, if_neg (by simp [hl])]
    · exact congrArg Chan.fifo hchan
    · exact congrArg Chan.running hchan
    · exact (congrArg (fun ch : Chan => ch.slots[n]?) hchan).trans (by simp [Chan.accepted, hslot])
  case status =>
    intro s id d a w hr hw _ l1
    exact ⟨handleStatusWrite_writes hr hw, handleStatusWrite_waits hr hw⟩
  case wake =>
    intro s id a w rest he hw hwait ha
    let u : State := { s with events := rest }
    have hstep : step s = .next (u.takeWake w.id) := by rw [step, he]
    have huw : u.wave? w.id = some w := hw
    have hwake : u.wakeable w = (!s.saving w.grp.part && a.args.isEmpty) := wakeable_handle (s := u) hwait ha
    refine ⟨fun hargs hs => ?_, fun h => ?_⟩
    · have htake : u.takeWake w.id = u.modWave w.id (Wave.woken (s.cyc w.id.core + 1)) := by
        simp only [State.takeWake, huw, hwake, hs, hargs]
        rfl
      refine ⟨_, hstep.trans (congrArg _ htake), wave?_modWave_same (f := Wave.woken _) (fun _ => rfl) huw, fun k hk => ?_, rfl⟩
      exact (wave?_modWave_other (s := u) (f := Wave.woken _) (fun _ => rfl) hk).trans rfl
    · have hno : u.wakeable w = false := by
        rcases h with h | h <;> simp [hwake, h]
      rw [hstep, State.takeWake, huw]
      simp only [hno]
      rfl

end Sys2Proof.Machine
end

section
/-!
SUPPORT. The order of launches, and the placement of groups (R27, R28, R364, R366–R370).
-/

namespace Sys2Proof.Machine

open Sys2Proof.Claims

/-! ### Ranks -/

theorem sortBy_eq {α : Type} (le : α → α → Bool) (l : List α) : sortBy le l = l.insertionSort fun a b => le a b = true := by
  have one (x : α) (l : List α) : insertBy le x l = l.orderedInsert (fun a b => le a b = true) x := by
    induction l with
    | nil => rfl
    | cons y l ih => simp only [insertBy, List.orderedInsert, ih]
  induction l with
  | nil => rfl
  | cons x l ih =>
    rw [List.insertionSort_cons, ← ih, ← one]
    rfl

theorem mem_sortBy {α : Type} {le : α → α → Bool} {l : List α} {x : α} : x ∈ sortBy le l ↔ x ∈ l := by
  rw [sortBy_eq]
  exact List.mem_insertionSort _

/-- A list sorted by the value of a key. -/
theorem pairwise_sortBy {α β : Type} [LinearOrder β] (key : α → β) {le : α → α → Bool}
    (h : ∀ a b, le a b = true ↔ key a ≤ key b) (l : List α) : (sortBy le l).Pairwise fun a b => key a ≤ key b := by
  have trans : IsTrans α fun a b => le a b = true :=
    ⟨fun a b c hab hbc => (h a c).2 (((h a b).1 hab).trans ((h b c).1 hbc))⟩
  have total : Std.Total fun a b => le a b = true := ⟨fun a b => by simp only [h]; exact le_total _ _⟩
  rw [sortBy_eq]
  exact (List.pairwise_insertionSort _ l).imp (h _ _).1

/-- Lists of one length, or with different heads, compare as words do. -/
theorem lexLt_iff {a b : List Nat} (h : a.length = b.length ∨ a ≠ [] ∧ b ≠ [] ∧ a.head? ≠ b.head?) : lexLt a b = true ↔ a < b := by
  induction a generalizing b with
  | nil =>
    rcases h with h | ⟨h, -⟩
    · simp [lexLt, List.length_eq_zero_iff.1 h.symm]
    · exact absurd rfl h
  | cons x a ih =>
    cases b with
    | nil => simp at h
    | cons y b =>
      simp only [lexLt, Bool.or_eq_true, Bool.and_eq_true, decide_eq_true_eq, List.cons_lt_cons_iff]
      refine or_congr_right (and_congr_right fun hxy => ih (.inl ?_))
      simpa [hxy] using h

/-- Whether a release is offered to a launch. -/
def Launch.ahead (l : Launch) : Bool := !l.offer.isEmpty && l.nextGroup.isSome

theorem turn_of_job {s : State} {l : Launch} {j : Job} (h : s.jobOf l = some j) : s.turn l =
    [63 - j.prio, if l.ahead then 0 else 1, if j.deadline.isSome then 0 else 1, (j.deadline.map (·.toNat)).getD 0,
      j.order.1, j.order.2.1, j.order.2.2, l.gi, l.idx] := by
  simp only [State.turn, State.rankBy, h]
  rfl

theorem turn_of_none {s : State} {l : Launch} (h : s.jobOf l = none) : s.turn l = [64] := by
  simp only [State.turn, State.rankBy, h]

theorem turn_lt_iff (s : State) (a b : Launch) : lexLt (s.turn a) (s.turn b) = true ↔ s.turn a < s.turn b := by
  refine lexLt_iff ?_
  cases ha : s.jobOf a with
  | none =>
    cases hb : s.jobOf b with
    | none => simp [turn_of_none ha, turn_of_none hb]
    | some j =>
      right
      simp [turn_of_none ha, turn_of_job hb]
      omega
  | some i =>
    cases hb : s.jobOf b with
    | none =>
      right
      simp [turn_of_none hb, turn_of_job ha]
      omega
    | some j => simp [turn_of_job ha, turn_of_job hb]

theorem mem_ranked {s : State} {p : Nat} {l : Launch} : l ∈ s.ranked p ↔ l ∈ s.launches ∧ l.part = p ∧ s.waiting l = true := by
  simp [State.ranked, mem_sortBy]

theorem pairwise_ranked (s : State) (p : Nat) : (s.ranked p).Pairwise fun a b => s.turn a ≤ s.turn b := by
  refine pairwise_sortBy s.turn (fun a b => ?_) _
  rw [Bool.not_eq_true', ← Bool.not_eq_true, turn_lt_iff, not_lt]

/-- What the order of two launches says of their jobs (R364). -/
theorem turn_le {s : State} {a b : Launch} (hj : ∀ j ∈ s.jobs, j.prio ≤ 63) (h : s.turn a ≤ s.turn b) : s.jp b ≤ s.jp a ∧
    (s.jp a = s.jp b → a.offer = [] → b.offer = [] → ∀ ja jb, s.jobOf a = some ja → s.jobOf b = some jb →
      (∀ y, jb.deadline = some y → ∃ x, ja.deadline = some x ∧ x ≤ y) ∧
      (ja.deadline = jb.deadline → lexLt [jb.order.1, jb.order.2.1, jb.order.2.2, b.gi, b.idx]
        [ja.order.1, ja.order.2.1, ja.order.2.2, a.gi, a.idx] = false)) := by
  have small {l : Launch} {j : Job} (hl : s.jobOf l = some j) : j.prio ≤ 63 := hj j (List.mem_of_find?_eq_some hl)
  cases hb : s.jobOf b with
  | none =>
    refine ⟨by simp [State.jp, hb], fun _ _ _ ja jb _ h => ?_⟩
    cases h
  | some jb =>
    have smallb := small hb
    cases ha : s.jobOf a with
    | none =>
      rw [turn_of_none ha, turn_of_job hb, ← not_lt, List.cons_lt_cons_iff] at h
      omega
    | some ja =>
      have smalla := small ha
      have jpa : s.jp a = ja.prio := by simp [State.jp, ha]
      have jpb : s.jp b = jb.prio := by simp [State.jp, hb]
      rw [turn_of_job ha, turn_of_job hb, ← not_lt, List.cons_lt_cons_iff, not_or, not_and] at h
      obtain ⟨h1, h2⟩ := h
      refine ⟨by omega, fun hp hoa hob ja' jb' e e' => ?_⟩
      obtain rfl := Option.some.inj e
      obtain rfl := Option.some.inj e'
      have h3 := h2 (by omega)
      simp only [Launch.ahead, hoa, hob, List.isEmpty_nil, Bool.not_true, Bool.false_and, List.cons_lt_cons_iff, not_or, lt_irrefl,
        not_false_eq_true, true_and, not_and] at h3
      obtain ⟨hset, hval⟩ := h3
      refine ⟨fun y hy => ?_, fun hd => ?_⟩
      · cases hx : ja.deadline with
        | none => simp [hx, hy] at hset
        | some x =>
          have hxy : ¬ y.toNat < x.toNat := by simpa [hx, hy] using (hval (by simp [hx, hy])).1
          exact ⟨x, rfl, BitVec.le_def.2 (Nat.not_lt.1 hxy)⟩
      · refine Bool.eq_false_iff.2 fun hlt => ?_
        have words := (lexLt_iff (by simp)).1 hlt
        have notWords := (hval (by rw [hd])).2 (by rw [hd])
        simp only [List.cons_lt_cons_iff, lt_irrefl, and_false, or_false, not_lt, implies_true, and_true] at words notWords
        omega

/-! ### Groups and their waves -/

/-- A wave of a group as its placement leaves it. -/
def FreshWave (g : Group) (prio now : Nat) (w : Wave) : Prop :=
  ∃ uid q slot k, w = Wave.fresh uid ⟨g.core, q, slot⟩ g.id k g.kern prio now

/-- Waves of a group, one after another. -/
theorem placeWaves {g : Group} {q0 prio : Nat} (ks : List Nat) (s : State) : ∃ ws n,
    ks.foldl (fun s k => s.placeWave g.id g.kern g.core q0 prio k) s = { s with waves := s.waves ++ ws, nextSeq := n } ∧
      ws.length = ks.length ∧ ∀ w ∈ ws, FreshWave g prio (s.cyc g.core) w := by
  induction ks generalizing s with
  | nil => exact ⟨[], s.nextSeq, by simp, rfl, by simp⟩
  | cons k ks ih =>
    obtain ⟨ws, n, h, hlen, hws⟩ := ih (s.placeWave g.id g.kern g.core q0 prio k)
    let w := Wave.fresh s.nextSeq ⟨g.core, (q0 + k) % 4, { s with nextSeq := s.nextSeq + 1 }.freeSlot g.core ((q0 + k) % 4)⟩ g.id k
      g.kern prio (s.cyc g.core)
    have hk : s.placeWave g.id g.kern g.core q0 prio k = { s with waves := s.waves ++ [w], nextSeq := s.nextSeq + 1 } := rfl
    refine ⟨w :: ws, n, ?_, by simp [hlen], List.forall_mem_cons.2 ⟨⟨_, _, _, _, rfl⟩, hws⟩⟩
    rw [List.foldl_cons, h, hk]
    simp

/-- A group as its placement leaves it. -/
def Group.fresh (l : Launch) (idx relaunch core q0 : Nat) : Group :=
  { id := ⟨l.part, l.lid, idx⟩, core := core, q0 := q0, nw := l.kern.waves, kern := l.kern, exited := 0, relaunch := relaunch,
    killed := false, again := false, back := none, window := freshWindow l.kern, flips := [], lastExit := none, tile := Tile.fresh l.kern }

section
variable {s t : State} {l : Launch} {prio : Nat}

theorem placeGroup_places (s : State) (l : Launch) (idx relaunch core prio : Nat) : ∃ q0 ws n,
    s.placeGroup l idx relaunch core prio =
      { s with groups := s.groups ++ [Group.fresh l idx relaunch core q0], waves := s.waves ++ ws, nextSeq := n } ∧
      ws.length = l.kern.waves ∧ ∀ w ∈ ws, FreshWave (Group.fresh l idx relaunch core q0) prio (s.cyc core) w := by
  let g := Group.fresh l idx relaunch core (s.firstQuarter core)
  obtain ⟨ws, n, h, hlen, hws⟩ := placeWaves (g := g) (q0 := s.firstQuarter core) (prio := prio) (List.range l.kern.waves)
    { s with groups := s.groups ++ [g] }
  exact ⟨s.firstQuarter core, ws, n, h, by simpa using hlen, hws⟩

/-- A core that a placement picks is one of those it may take. -/
theorem pick_mem {k : Kern} {cores : List Nat} {c : Nat} (h : s.pick k cores = some c) : c ∈ cores :=
  (List.mem_filter.1 (argMax_mem h)).1

/-- Groups of a launch, one after another, each with its waves. -/
theorem placeAll_places {cores is : List Nat} (h : s.placeAll l cores prio is = some t) : ∃ gs ws n,
    t = { s with groups := s.groups ++ gs, waves := s.waves ++ ws, nextSeq := n } ∧
      gs.length = is.length ∧ ws.length = is.length * l.kern.waves ∧
      (∀ (k : Nat) (g : Group), gs[k]? = some g → ∃ i core q0, is[k]? = some i ∧ core ∈ cores ∧ g = Group.fresh l i 0 core q0) ∧
      ∀ w ∈ ws, ∃ g ∈ gs, g.kern = l.kern ∧ FreshWave g prio (s.cyc g.core) w := by
  induction is generalizing s with
  | nil =>
    obtain rfl := Option.some.inj h
    exact ⟨[], [], s.nextSeq, by simp, rfl, by simp, by simp, by simp⟩
  | cons i is ih =>
    simp only [State.placeAll] at h
    split at h
    case h_1 => cases h
    case h_2 c hc =>
      obtain ⟨q0, ws0, n0, h0, hlen0, hws0⟩ := placeGroup_places s l i 0 c prio
      obtain ⟨gs, ws, n, rfl, hgs, hlen, hg, hws⟩ := ih h
      rw [h0] at hws ⊢
      refine ⟨Group.fresh l i 0 c q0 :: gs, ws0 ++ ws, n, by simp, by simp [hgs], by simp [hlen0, hlen]; ring, ?_, ?_⟩
      · intro k g hk
        cases k with
        | zero =>
          obtain rfl := Option.some.inj hk
          exact ⟨i, c, q0, rfl, pick_mem hc, rfl⟩
        | succ k => exact hg k g hk
      · intro w hw
        rcases List.mem_append.1 hw with hw | hw
        · exact ⟨_, List.mem_cons_self, rfl, hws0 w hw⟩
        · obtain ⟨g, hgm, hgk, hf⟩ := hws w hw
          exact ⟨g, List.mem_cons_of_mem _ hgm, hgk, hf⟩

end

/-- The L1s of some cores, emptied. -/
theorem l1Clear_foldl (cores : List Nat) (s : State) : ∃ l1, cores.foldl State.l1Clear s = { s with l1 := l1 } ∧
    ∀ x ∈ l1, x.core ∉ cores := by
  suffices h : cores.foldl State.l1Clear s = { s with l1 := s.l1.filter fun x => !cores.contains x.core } from
    ⟨_, h, fun x hx => by simpa using (List.mem_filter.1 hx).2⟩
  induction cores generalizing s with
  | nil => simp
  | cons c cores ih =>
    rw [List.foldl_cons, ih]
    simp only [State.l1Clear, List.filter_filter]
    congr 1
    refine List.filter_congr fun x _ => ?_
    by_cases hx : x.core = c <;> simp [hx]

/-! ### One decision -/

section
variable {s t : State} {l : Launch}

/-- The first placement of a launch empties the partition's L1s. -/
theorem firstClear (s : State) (p : Nat) (first : Bool) : ∃ l1,
    (if first then (s.coresOf p).foldl State.l1Clear s else s) = { s with l1 := l1 } ∧ (first = true → ∀ x ∈ l1, x.core ∉ s.coresOf p) := by
  cases first with
  | true =>
    obtain ⟨l1, h, hl⟩ := l1Clear_foldl (s.coresOf p) s
    exact ⟨l1, h, fun _ => hl⟩
  | false => exact ⟨s.l1, rfl, by simp⟩

/-- What a launch that is no gang places. -/
theorem tryPlace_one {i n c : Nat} (hg : l.kern.gang = false) (hn : l.nextGroup = some (i, n))
    (hc : s.pick l.kern (s.open_ l (s.placeable l.part l.cmask)) = some c) : ∃ q0 ws m l1,
    s.tryPlace l = some { s with
      groups := s.groups ++ [Group.fresh l i n c q0], waves := s.waves ++ ws, nextSeq := m, l1 := l1
      launches := upd (fun x => x.part = l.part && x.lid = l.lid) (fun x => { x.placed i with since := some s.timebase.toNat }) s.launches } ∧
      ws.length = l.kern.waves ∧ (∀ w ∈ ws, FreshWave (Group.fresh l i n c q0) (s.jp l) (s.cyc c) w) ∧
      (l.next = 0 → l.redo = [] → ∀ x ∈ l1, x.core ∉ s.coresOf l.part) := by
  obtain ⟨l1, h0, hclear⟩ := firstClear s l.part (l.next = 0 && l.redo.isEmpty)
  obtain ⟨q0, ws, m, hp, hlen, hws⟩ := placeGroup_places { s with l1 := l1 } l i n c (s.jp l)
  refine ⟨q0, ws, m, l1, ?_, hlen, hws, fun hnext hredo => hclear (by simp [hnext, hredo])⟩
  simp only [State.tryPlace, h0, hn, hc, hg, hp, Bool.false_and]
  rfl

/-- What a gang places. -/
theorem tryPlace_gang (hg : l.kern.gang = true) (hnext : l.next = 0) (hredo : l.redo = []) (h : s.tryPlace l = some t) :
    ∃ gs ws n l1 ls, t = { s with groups := s.groups ++ gs, waves := s.waves ++ ws, nextSeq := n, l1 := l1, launches := ls } ∧
      gs.length = l.total ∧ ws.length = l.total * l.kern.waves ∧
      (∀ (i : Nat) (g : Group), gs[i]? = some g → ∃ core q0, core ∈ s.open_ l (s.placeable l.part l.cmask) ∧ g = Group.fresh l i 0 core q0) ∧
      ∀ w ∈ ws, ∃ g ∈ gs, g.kern = l.kern ∧ FreshWave g (s.jp l) (s.cyc g.core) w := by
  obtain ⟨l1, h0, -⟩ := l1Clear_foldl (s.coresOf l.part) s
  have first : (decide (l.next = 0) && l.redo.isEmpty) = true := by simp [hnext, hredo]
  simp only [State.tryPlace, hg, first, h0, Bool.true_and, if_true] at h
  split at h
  case isTrue =>
    obtain ⟨u, hu, rfl⟩ := Option.map_eq_some_iff.1 h
    obtain ⟨gs, ws, n, rfl, hgs, hws, hg, hw⟩ := placeAll_places hu
    refine ⟨gs, ws, n, l1, _, rfl, by simpa using hgs, by simpa using hws, fun i g hi => ?_, hw⟩
    obtain ⟨j, core, q0, hj, hc, rfl⟩ := hg i g hi
    obtain ⟨-, rfl⟩ := List.getElem?_eq_some_iff.1 hj
    exact ⟨core, q0, hc, by simp⟩
  case isFalse => cases h

/-- The first launch of a list that can be placed. -/
theorem firstPlace_split {pre post : List Launch} (hpre : ∀ x ∈ pre, s.tryPlace x = none) (hl : s.tryPlace l = some t) :
    s.firstPlace (pre ++ l :: post) = some (l, t) := by
  induction pre with
  | nil => simp [State.firstPlace, hl]
  | cons x pre ih =>
    obtain ⟨hx, hpre⟩ := List.forall_mem_cons.1 hpre
    simp [State.firstPlace, hx, ih hpre]

theorem firstPlace_none {ls : List Launch} (h : ∀ x ∈ ls, s.tryPlace x = none) : s.firstPlace ls = none := by
  induction ls with
  | nil => rfl
  | cons x ls ih =>
    obtain ⟨hx, hls⟩ := List.forall_mem_cons.1 h
    simp [State.firstPlace, hx, ih hls]

theorem part_eq {p : Nat} {d : Part} (h : s.parts[p]? = some d) : s.part p = d := by
  simp [State.part, h]

/-- A partition that places: enabled, and neither held nor in the course of a command. -/
theorem open_of {d : Part} (hen : d.en = true) (hheld : d.held = none) (hrun : d.run = .idle) : d.open_ = true := by
  simp [Part.open_, hen, hheld, Part.saving, PRun.isSave, hrun]

/-- The partition once a launch of it is placed. -/
def Part.decided (d : Part) (cycle lid : Nat) : Part :=
  { d with placedAt := some cycle, resv := d.resv.bind fun r => if r.lid = lid then none else some r }

section
variable {p : Nat} {d : Part} (hd : s.parts[p]? = some d) (hen : d.en = true) (hheld : d.held = none) (hrun : d.run = .idle)
  (hat : d.placedAt ≠ some s.cycle)
include hd hen hheld hrun hat

theorem placementDecision_places {pre post : List Launch} (hr : s.ranked p = pre ++ l :: post) (hpre : ∀ x ∈ pre, s.tryPlace x = none)
    (hl : s.tryPlace l = some t) : ∃ tried, exec (.placementDecision p) s =
      .next ((t.offered tried p).modPart p fun d => d.decided s.cycle l.lid) ∧
      ((∀ x ∈ pre, x.lid ≠ l.lid) → tried = pre.map (·.lid)) := by
  refine ⟨((s.ranked p).map (·.lid)).takeWhile (· ≠ l.lid), ?_, fun h => ?_⟩
  · have hplace : s.placement p = some (l, t) := by
      simp [State.placement, part_eq hd, open_of hen hheld hrun, hat, hr, firstPlace_split hpre hl]
    simp only [exec, execPlacementDecision, hplace]
    refine congrArg _ (congrArg (State.modPart _ p) (funext fun d => ?_))
    cases hresv : d.resv <;> simp [Part.decided, hresv]
  · rw [hr, List.map_append, List.takeWhile_append_of_pos]
    · simp
    · intro x hx
      obtain ⟨y, hy, rfl⟩ := List.mem_map.1 hx
      simpa using h y hy

end

end

/-! ### Nothing to place, reservations, retirement and promotion -/

section
variable {s : State} {p : Nat}

theorem placementDecision_none (h : ∀ x ∈ s.ranked p, s.tryPlace x = none) :
    ∃ ls, exec (.placementDecision p) s = .next { s with launches := ls } := by
  have hplace : s.placement p = none := by
    simp only [State.placement]
    split
    · exact firstPlace_none h
    · rfl
  simp only [exec, execPlacementDecision, hplace]
  split <;> exact ⟨_, rfl⟩

theorem parts_modPart {d : Part} (h : s.parts[p]? = some d) (f : Part → Part) : (s.modPart p f).parts[p]? = some (f d) := by
  simp [State.modPart, h]

/-- What leaving the fault buffer changes. -/
def FbLeft (s t : State) : Prop := t = { s with fb := t.fb, fbwait := t.fbwait }

theorem FbLeft.trans {s t u : State} (h : FbLeft s t) (h' : FbLeft t u) : FbLeft s u :=
  Eq.trans h' (congrArg (fun x : State => { x with fb := u.fb, fbwait := u.fbwait }) h)

theorem fbLeft_foldl {α : Type} {f : State → α → State} (hf : ∀ s x, FbLeft s (f s x)) (l : List α) (s : State) :
    FbLeft s (l.foldl f s) := by
  induction l generalizing s with
  | nil => rfl
  | cons x l ih => exact (hf s x).trans (ih (f s x))

theorem fbLeft_fbLeave (s : State) (r : Requester) : FbLeft s (s.fbLeave r) := rfl

/-- What a group leaves behind: its waves, accesses and allotments are gone, and the other groups' are as they were. -/
theorem releaseGroup_frame (s : State) (g : Group) (keep : Acc → Bool) :
    s.releaseGroup g keep = { s with
      cores := (s.releaseGroup g keep).cores, trq := (s.releaseGroup g keep).trq
      fb := (s.releaseGroup g keep).fb, fbwait := (s.releaseGroup g keep).fbwait
      groups := s.groups.filter (fun x => x.id ≠ g.id), waves := s.waves.filter (fun w => w.grp ≠ g.id)
      accs := s.accs.filter fun a => a.grp ≠ g.id || keep a } := by
  have wave (t : State) (w : Wave) :
      FbLeft t (w.lmiss.foldl (fun s x => s.fbLeave (.launch x.1 w.id)) (t.fbLeave (.wave w.uid w.id))) :=
    (fbLeft_fbLeave t _).trans (fbLeft_foldl (fun s x => fbLeft_fbLeave s _) w.lmiss _)
  let t := s.trKeep fun w => w.grp = g.id
  have left : FbLeft t (((t.waves.filter fun w => w.grp = g.id).foldl (fun s w =>
      w.lmiss.foldl (fun s x => s.fbLeave (.launch x.1 w.id)) (s.fbLeave (.wave w.uid w.id))) t).fbLeave (.tile g.id g.core)) :=
    (fbLeft_foldl wave _ t).trans (fbLeft_fbLeave _ _)
  unfold FbLeft at left
  simp only [State.releaseGroup]
  rw [left]
  rfl

theorem exitPacket_frame (s : State) (g : Group) : s.exitPacket g = { s with trq := (s.exitPacket g).trq } := by
  unfold State.exitPacket
  simp only
  split
  · rfl
  · split <;> rfl

end

/-- A change of what a search finds, which finds it again. -/
theorem find?_upd_same {α : Type} (q : α → Bool) (f : α → α) (hf : ∀ x, q (f x) = q x) (l : List α) :
    (upd q f l).find? q = (l.find? q).map f := by
  rw [find?_upd q q f hf]
  cases h : l.find? q with
  | none => rfl
  | some x => simp [List.find?_some h]

section
variable {s : State} {p : Nat}

theorem groupRetire_retires {id : GroupId} {g : Group} (hg : s.group? id = some g) (hr : s.retirable g = true) :
    ∃ t, exec (.groupRetire id) s = .next t ∧ t.groups = s.groups.filter (fun x => x.id ≠ id) ∧
      t.waves = s.waves.filter (fun w => w.grp ≠ id) ∧ t.accs = s.accs.filter (fun a => a.grp ≠ id) ∧
      t.launches = upd (fun l => l.part = id.part && l.lid = id.lid)
        (fun l => { l with retired := l.retired + 1, offer := l.offer ++ [none] }) s.launches := by
  have hid := group?_id hg
  refine ⟨_, by simp only [exec, execGroupRetire, hg, hr]; rfl, ?_⟩
  rw [releaseGroup_frame, exitPacket_frame, hid]
  refine ⟨rfl, rfl, ?_, rfl⟩
  simp

theorem job?_modJob {jid : Nat} {f : Job → Job} (hf : ∀ j, (f j).part = j.part ∧ (f j).jid = j.jid) :
    (s.modJob p jid f).job? p jid = (s.job? p jid).map f :=
  find?_upd_same _ f (by simp [hf]) s.jobs

theorem launch?_modLaunch {lid : Nat} {f : Launch → Launch} (hf : ∀ l, (f l).part = l.part ∧ (f l).lid = l.lid) :
    (s.modLaunch p lid f).launch? p lid = (s.launch? p lid).map f :=
  find?_upd_same _ f (by simp [hf]) s.launches

/-- The job whose priority rises. -/
theorem job?_promoted {jid : Nat} {j : Job} (hj : s.job? p jid = some j) (prio : Nat) :
    ((s.setJobPrio p jid prio).modJob p jid fun j => { j with promoted := true }).job? p jid =
      some { j with prio := prio, promoted := true } := by
  have hset : (s.setJobPrio p jid prio).job? p jid = (s.modJob p jid fun j => { j with prio := prio }).job? p jid := rfl
  refine (job?_modJob (f := fun j => { j with promoted := true }) fun _ => ⟨rfl, rfl⟩).trans ?_
  rw [hset, job?_modJob (f := fun j => { j with prio := prio }) fun _ => ⟨rfl, rfl⟩, hj]
  rfl

theorem lehrPromotion_promotes {jid : Nat} {j : Job} (hj : s.job? p jid = some j) (hdue : s.lehrDue j = true) :
    exec (.lehrPromotion p jid) s = .next ((s.setJobPrio p jid (min (min (j.prio + 8) 63) (s.part p).pceil)).modJob p jid
      fun j => { j with promoted := true }) := by
  simp [exec, execLehrPromotion, hj, hdue]

/-! ### The completion of a unit (R29–R31, R359) -/

/-- What adding 1 to a completion counter leaves: memory with the counter, if there is one. -/
structure Counted (s t : State) (p : Nat) (va : W64) : Prop where
  rest : EngineAt s t
  none : va = 0 → t.mem = s.mem
  adds : va ≠ 0 → t.mem = (s.wrNat (s.engPa Option.none p .atomic va.toNat) 8
    ((s.rdNat (s.engPa Option.none p .atomic va.toNat) 8 + 1) % 2 ^ 64)).mem

theorem addCounter_adds {va : W64} (hsn : s.snoop = []) (hpo : s.poison = [])
    (hva : va = 0 ∨ (va.toNat % 8 = 0 ∧ va.toNat < 2 ^ 51 ∧ s.engXlate none p .atomic 8 [va] [] = .ok)) :
    ∃ t, s.addCounter p va [] = .done t ∧ Counted s t p va := by
  by_cases h0 : va = 0
  · exact ⟨s, by simp [State.addCounter, h0], engineAt_refl s, fun _ => rfl, fun h => absurd h0 h⟩
  · obtain ⟨hal, hin, hx⟩ := hva.resolve_left h0
    let pa := s.engPa none p .atomic va.toNat
    have cond : (va = 0 || va.toNat % 8 ≠ 0 || 2 ^ 51 ≤ va.toNat) = false := by
      simp only [h0, hal]
      simpa using hin
    have hadd : s.addCounter p va [] = .done (s.slcWrite (s.part p).ways pa (leBytes 8 ((s.rdNat pa 8 + 1) % 2 ^ 64))) := by
      simp only [State.addCounter, cond, hx, snoopHeld_nil hsn, poisoned_nil hpo]
      rfl
    exact ⟨_, hadd, engineAt_slcWrite .., fun h => absurd h h0, fun _ => slcWrite_mem ..⟩

/-- The state once a unit has ended with a status and its counter is added to. -/
def State.unitOut (s : State) (p : Nat) (u : UnitRef) (st : UStat) : State := (s.fbLeaveIn p (.unit u)).countUnit p st

theorem unitOut_frame (s : State) (p : Nat) (u : UnitRef) (st : UStat) :
    s.unitOut p u st = { s with
      fb := (s.unitOut p u st).fb, fbwait := (s.unitOut p u st).fbwait, parts := (s.unitOut p u st).parts } := by
  unfold State.unitOut State.countUnit
  split <;> rfl

/-- What does not end with a unit. -/
structure UnitOut (s t : State) : Prop where
  launches : t.launches = s.launches
  graphs : t.graphs = s.graphs
  jobs : t.jobs = s.jobs
  waves : t.waves = s.waves

theorem unitOut_same {t : State} (h : EngineAt s t) (p : Nat) (u : UnitRef) (st : UStat) : UnitOut s (t.unitOut p u st) := by
  unfold EngineAt at h
  rw [unitOut_frame, h]
  exact ⟨rfl, rfl, rfl, rfl⟩

theorem unitOut_mem (s : State) (p : Nat) (u : UnitRef) (st : UStat) : (s.unitOut p u st).mem = s.mem := by
  rw [unitOut_frame]

section
variable {t : State} (hs : s.saving p = false)
include hs

theorem unitComplete_launch {lid : Nat} {l : Launch} (hl : s.launch? p lid = some l) (hover : s.launchOver l = true)
    (hw : l.wait = []) (hc : s.addCounter p l.lcnt [] = .done t) : exec (.unitComplete p (.launch lid)) s =
      .next ((t.unitOut p (.launch lid) l.stat).modLaunch p lid fun l => { l with completed := true, wait := [] }) := by
  simp [exec, execUnitComplete, hs, State.unitOver, hl, hover, hw, hc, State.unitOut]

theorem unitComplete_graph {jid gi : Nat} {g : Graph}
    (hg : s.graphs.find? (fun x => x.part = p && x.jid = jid && x.gi = gi) = some g) (hnot : g.completed = false)
    (hdone : s.graphDone g = true) (hw : g.wait = []) (hc : s.addCounter p g.gcnt [] = .done t) :
    exec (.unitComplete p (.graph jid gi)) s =
      .next ((t.unitOut p (.graph jid gi) g.stat).modGraph p jid gi fun g => { g with completed := true, wait := [] }) := by
  simp [exec, execUnitComplete, hs, State.unitOver, hg, hnot, hdone, hw, hc, State.unitOut, unsettled]

theorem unitComplete_job {jid : Nat} {j : Job} (hj : s.job? p jid = some j) (hdone : s.jobDone j = true) (hw : j.wait = [])
    (hc : s.addCounter p j.jcnt [] = .done t) : exec (.unitComplete p (.job jid)) s =
      let u := t.unitOut p (.job jid) j.stat
      .next { u with
        jobs := u.jobs.filter fun x => !(x.part = p && x.jid = jid), graphs := u.graphs.filter fun x => !(x.part = p && x.jid = jid)
        launches := u.launches.filter fun x => !(x.part = p && x.jid = jid) } := by
  simp [exec, execUnitComplete, hs, State.unitOver, hj, hdone, hw, hc, State.unitOut, unsettled]

end

end

end Sys2Proof.Machine
end

section
/-! Placement and completion: the statement about them, and its proof. -/

namespace Sys2Proof.Machine

theorem upd_congr {α : Type} {q q' : α → Bool} (h : ∀ x, q x = q' x) (f : α → α) (l : List α) : upd q f l = upd q' f l := by
  rw [show q = q' from funext h]

/-- Settles O45: a decision by what each launch tries, in the order of the turns; a completion by what its counter's add and the
unit's end leave alone. -/
theorem placements : Obligations.Placements := by
  refine ⟨?place, ?units⟩
  case place =>
    intro s p d hd
    refine ⟨?one, ?gang, ?idle, ?order, ?reserve, ?retire, ?promote⟩
    case one =>
      intro l hen hheld hrun hat pre post hr hpre hg i n c hn hc hp
      subst hp
      obtain ⟨q0, ws, m, l1, htry, hlen, hws, hclear⟩ := tryPlace_one hg hn hc
      obtain ⟨tried, hex, htried⟩ := placementDecision_places hd hen hheld hrun hat hr (fun x hx => (hpre x hx).2) htry
      refine ⟨_, Group.fresh l i n c q0, ws, hex, rfl, rfl, rfl, rfl, rfl, rfl, rfl, hlen, ?_, ?_, hclear, rfl, parts_modPart hd _⟩
      · intro w hw
        obtain ⟨uid, q, slot, k, rfl⟩ := hws w hw
        exact ⟨rfl, rfl, rfl, rfl, rfl, rfl, rfl, rfl, rfl, rfl, rfl⟩
      · rw [htried fun x hx => (hpre x hx).1]
        refine (upd_congr (fun x => ?_) _ _).trans (congrArg _ (upd_congr (fun x => ?_) _ _))
        · simp
        · simp
    case gang =>
      intro l pre post hen hheld hrun hat hr hpre hg hnext hredo hp hsome
      subst hp
      obtain ⟨u, hu⟩ := Option.isSome_iff_exists.1 hsome
      obtain ⟨gs, ws, n, l1, ls, rfl, hgs, hws, hgroup, hwave⟩ := tryPlace_gang hg hnext hredo hu
      obtain ⟨tried, hex, -⟩ := placementDecision_places hd hen hheld hrun hat hr hpre hu
      refine ⟨_, gs, ws, hex, rfl, hgs, rfl, hws, fun i g hi => ?_, fun w hw => ?_, rfl⟩
      · obtain ⟨core, q0, hc, rfl⟩ := hgroup i g hi
        exact ⟨rfl, rfl, rfl, rfl, hc⟩
      · obtain ⟨g, hgm, hk, uid, q, slot, k, rfl⟩ := hwave w hw
        exact ⟨rfl, congrArg Kern.entry hk, rfl, rfl, g, hgm, rfl, rfl⟩
    case idle =>
      intro h
      obtain ⟨ls, hex⟩ := placementDecision_none h
      exact ⟨_, hex, rfl, rfl, rfl⟩
    case order =>
      exact ⟨fun l => mem_ranked, fun hj => (pairwise_ranked s p).imp fun h => turn_le hj h⟩
    case reserve =>
      intro l hl
      refine ⟨_, by simp only [exec, execReservationStart, hl]; rfl, parts_modPart hd _, rfl⟩
    case retire =>
      intro id g hg hr
      obtain ⟨t, hex, hgroups, hwaves, haccs, hlaunches⟩ := groupRetire_retires hg hr
      refine ⟨t, hex, ?_, by simp [hwaves], fun k hk => ?_, fun w hw hne => by simp [hwaves, hw, hne], by simp [haccs], fun l hl => ?_⟩
      · simp [State.group?, hgroups]
      · simp only [State.group?, hgroups, List.find?_filter]
        refine congrArg (fun q => s.groups.find? q) (funext fun x => ?_)
        by_cases hx : x.id = k <;> simp [hx, hk]
      · have hfound : s.launches.find? (fun l => l.part = id.part && l.lid = id.lid) = some l := hl
        simp only [State.launch?, hlaunches]
        rw [find?_upd_same _ _ (by simp), hfound]
        rfl
    case promote =>
      intro jid j hj hdue
      refine ⟨_, lehrPromotion_promotes hj hdue, ?_, rfl, rfl, rfl⟩
      rw [part_eq hd]
      exact job?_promoted hj _
  case units =>
    intro s p hs hsn hpo adds ready
    have counts {va : W64} {t : State} (h : Counted s t p va) (u : UnitRef) (st : UStat) : adds va (t.unitOut p u st) :=
      have hm := unitOut_mem t p u st
      ⟨fun h0 => hm.trans (h.none h0), fun h0 _ _ _ => hm.trans (h.adds h0)⟩
    refine ⟨fun lid l hl hover hw hready => ?_, fun jid gi g hg hnot hdone hw hready => ?_, fun jid j hj hdone hw hready => ?_⟩
    · obtain ⟨t, hc, hcount⟩ := addCounter_adds hsn hpo hready
      have hout := unitOut_same hcount.rest p (.launch lid) l.stat
      refine ⟨_, unitComplete_launch hs hl hover hw hc, counts hcount .., ?_, hout.jobs, hout.waves⟩
      refine (launch?_modLaunch (f := fun l => { l with completed := true, wait := [] }) fun _ => ⟨rfl, rfl⟩).trans ?_
      rw [State.launch?, hout.launches, ← State.launch?, hl]
      rfl
    · obtain ⟨t, hc, hcount⟩ := addCounter_adds hsn hpo hready
      have hout := unitOut_same hcount.rest p (.graph jid gi) g.stat
      refine ⟨_, unitComplete_graph hs hg hnot hdone hw hc, counts hcount .., ?_, hout.launches, hout.jobs, hout.waves⟩
      refine (find?_upd_same _ _ (by simp) _).trans ?_
      rw [hout.graphs, hg]
      rfl
    · obtain ⟨t, hc, hcount⟩ := addCounter_adds hsn hpo hready
      have hout := unitOut_same hcount.rest p (.job jid) j.stat
      refine ⟨_, unitComplete_job hs hj hdone hw hc, counts hcount .., ?_, ?_, ?_, ?_, hout.waves⟩
      · exact List.find?_eq_none.2 fun x hx => by simpa [imp_iff_not_or] using (List.mem_filter.1 hx).2
      · exact fun x hx => by simpa [imp_iff_not_or] using (List.mem_filter.1 hx).2
      · exact fun x hx => by simpa [imp_iff_not_or] using (List.mem_filter.1 hx).2
      · simp [hout.jobs, imp_iff_not_or]

end Sys2Proof.Machine
end

section
/-! Errors and debug: the statement about them, and a state that refutes it. -/

namespace Sys2Proof.Machine.TwoOfOneNumber

/-- The wave that reads a bad value, and a wave of another group that bears its number and waits for an UNLINK. -/
def reader : Wave := Wave.fresh 0 ⟨0, 0, 0⟩ ⟨0, 0, 0⟩ 0 wideKern 0 0
def twin : Wave := { Wave.fresh 0 ⟨0, 1, 0⟩ ⟨0, 0, 1⟩ 0 wideKern 0 0 with wait := .unlink }

def group : Group :=
  { id := ⟨0, 0, 0⟩, core := 0, q0 := 0, nw := 1, kern := wideKern, exited := 0, relaunch := 0, killed := false,
    again := false, back := none, window := [], flips := [], lastExit := none, tile := none }

def before : State :=
  { State.reset with
    waves := [reader, twin], groups := [group], parts := [{ Part.reset with tvec := 0x100 }], events := [.errTrap 0 0] }

/-- The trap of the one takes the other back to its UNLINK. -/
theorem trap_moves_twin :
    (match step before with
      | .next t => (t.wave? twin.id).any fun w => w.pc ≠ twin.pc
      | _ => false) = true := by decide +kernel

end Sys2Proof.Machine.TwoOfOneNumber

namespace Sys2Proof.Machine

open TwoOfOneNumber in
/-- Refutes O49: the clause on cause 13 holds every wave of another group as it was, and says nothing of the waves' numbers.
The reading wave gives up its wait by its number (R401), so a wave of another group that bears the number gives up its own;
no run gives two waves one number, but the statement is of every state. -/
theorem not_errorsAndDebug : ¬ Obligations.ErrorsAndDebug := by
  intro h
  obtain ⟨errors, -⟩ := h
  obtain ⟨-, -, -, -, -, -, trap, -⟩ := errors before 0 0 0 group ⟨0, 0, 0⟩ 0
  obtain ⟨t, w', g', hstep, -, -, -, -, -, -, -, -, -, -, -, others⟩ :=
    trap rfl rfl rfl reader 0 [] rfl rfl rfl rfl rfl rfl (.inl rfl) (by decide +kernel)
  have same := others twin.id twin rfl (by decide)
  have moved := trap_moves_twin
  rw [hstep] at moved
  simp [same] at moved

end Sys2Proof.Machine
end

section
/-!
SUPPORT. The sub-fields of an instruction word: a value written as its code is read back (R62–R64, R67, R68, R70, R71).
-/

namespace Sys2Proof

/-! ### Codes of the sub-fields -/

@[simp] theorem Tag.ofCode_code (t : Tag) : Tag.ofCode t.code = some t := by cases t <;> rfl
@[simp] theorem Order.ofCode_code (o : Order) : Order.ofCode o.code = some o := by cases o <;> rfl
@[simp] theorem Scope.ofCode_code (c : Scope) : Scope.ofCode c.code = some c := by cases c <;> rfl
@[simp] theorem Rnd.ofCode_code (r : Rnd) : Rnd.ofCode r.code = some r := by cases r <;> rfl
@[simp] theorem Cond.ofCode_code (c : Cond) : Cond.ofCode c.code = some c := by cases c <;> rfl
@[simp] theorem FCond.ofCode_code (c : FCond) : FCond.ofCode c.code = some c := by cases c <;> rfl
@[simp] theorem AtomOp.ofCode_code (o : AtomOp) : AtomOp.ofCode o.code = some o := by cases o <;> rfl
@[simp] theorem RedOp.ofCode_code (o : RedOp) : RedOp.ofCode o.code = some o := by cases o <;> rfl
@[simp] theorem ExOp.ofCode_code (o : ExOp) : ExOp.ofCode o.code = some o := by cases o <;> rfl
@[simp] theorem ShflMode.ofCode_code (m : ShflMode) : ShflMode.ofCode m.code = some m := by cases m <;> rfl
@[simp] theorem FenceKind.ofCode_code (k : FenceKind) : FenceKind.ofCode k.code = some k := by cases k <;> rfl
@[simp] theorem TexMode.ofCode_code (m : TexMode) : TexMode.ofCode m.code = some m := by cases m <;> rfl
@[simp] theorem BlendOp.ofCode_code (o : BlendOp) : BlendOp.ofCode o.code = some o := by cases o <;> rfl
@[simp] theorem CpyForm.ofCode_code (c : CpyForm) : CpyForm.ofCode c.code = some c := by cases c <;> rfl
@[simp] theorem Blk.ofCode_code (b : Blk) : Blk.ofCode b.code = some b := by cases b <;> rfl
@[simp] theorem CancelSel.ofCode_code (k : CancelSel) : CancelSel.ofCode k.code = some k := by cases k <;> rfl

/-- The codes that stand in FN are read from no other value of FN. -/
theorem ExOp.code_ofCode : ∀ {c : BitVec 4} {o : ExOp}, ExOp.ofCode c = some o → o.code = c := by decide
theorem ShflMode.code_ofCode : ∀ {c : BitVec 4} {o : ShflMode}, ShflMode.ofCode c = some o → o.code = c := by decide
theorem AtomOp.code_ofCode : ∀ {c : BitVec 4} {o : AtomOp}, AtomOp.ofCode c = some o → o.code = c := by decide
theorem FenceKind.code_ofCode : ∀ {c : BitVec 4} {o : FenceKind}, FenceKind.ofCode c = some o → o.code = c := by decide
theorem TexMode.code_ofCode : ∀ {c : BitVec 4} {o : TexMode}, TexMode.ofCode c = some o → o.code = c := by decide
theorem CpyForm.code_ofCode : ∀ {c : BitVec 4} {o : CpyForm}, CpyForm.ofCode c = some o → o.code = c := by decide

/-! ### Register fields -/

theorem VSrc.ofCode_code {w : Bool} {x : VSrc} (h : x.ok w = true) : VSrc.ofCode x.code = some x := by
  cases x with
  | v n => cases w <;> simp_all [VSrc.ok, VSrc.ok32, VSrc.ok64, VSrc.code, VSrc.ofCode]
  | q n => clear h; revert n; decide
  | bcast n => clear h; revert n; decide
  | laneid | tidX | tidY | tidZ | zero => rfl

theorem SSrc.ofCode_code {w : Bool} {x : SSrc} (h : x.ok w = true) : SSrc.ofCode x.code = some x := by
  cases x with
  | s n => clear h; revert n; decide
  | h n | q n => clear h; revert n; decide
  | f n => cases w <;> revert n <;> decide
  | _ => rfl

theorem Src.ofCode_code {u w : Bool} {x : Src} (h : x.ok u w = true) : Src.ofCode u x.code = some x := by
  cases x <;> simp only [Src.ok, Bool.and_eq_true, Bool.not_eq_true'] at h <;> obtain ⟨rfl, h⟩ := h
  · simp [Src.ofCode, Src.code, VSrc.ofCode_code h]
  · simp [Src.ofCode, Src.code, SSrc.ofCode_code h]

@[simp] theorem sreg_s9 (n : BitVec 8) : sreg (s9 n) = some n := by revert n; decide
@[simp] theorem preg_p9 (n : BitVec 7) : preg (p9 n) = some n := by revert n; decide

theorem vreg_of_ok {w : Bool} {n : BitVec 9} (h : vregOk w n = true) : vreg n = some n := by
  simp [vregOk] at h
  simp [vreg, h]

theorem Dst.ofCode_code {u w : Bool} {x : Dst} (h : x.ok u w = true) : Dst.ofCode u x.code = some x := by
  cases x with
  | v n =>
    obtain ⟨rfl, hn⟩ : u = false ∧ vregOk w n = true := by simpa [Dst.ok] using h
    simp [Dst.ofCode, Dst.code, vreg_of_ok hn]
  | s n =>
    obtain ⟨rfl, -⟩ : u = true ∧ sregOk w n = true := by simpa [Dst.ok] using h
    exact congrArg (Option.map Dst.s) (sreg_s9 n)
  | q n => simp [Dst.ok] at h

theorem Dst.ofMem_code {w : Bool} {x : Dst} (h : x.okMem w = true) : Dst.ofMem x.code = some x := by
  cases x with
  | v n =>
    obtain ⟨hn, -⟩ : n.toNat < 320 ∧ _ := by simpa [Dst.okMem, vregOk] using h
    simp [Dst.ofMem, Dst.code, hn]
  | q n => clear h; revert n; decide
  | s n => simp [Dst.okMem] at h

@[simp] theorem PairSrc.ofCode_code (x : PairSrc) : PairSrc.ofCode x.code = some x := by
  cases x with
  | s n => revert n; decide
  | exec => rfl

@[simp] theorem HSrc.ofCode_code (x : HSrc) : HSrc.ofCode x.code = some x := by
  cases x with
  | s n | h n => revert n; decide

theorem idxOf_flag {f : BitVec 4} (h : f.toNat < 12) : idxOf 272 284 (idxCode 272 f) = some f := by
  revert f; decide
@[simp] theorem idxOf_handle (n : BitVec 4) : idxOf 256 272 (idxCode 256 n) = some n := by revert n; decide
@[simp] theorem idxOf_port (n : BitVec 4) : idxOf 320 336 (idxCode 320 n) = some n := by revert n; decide

@[simp] theorem bit_eq_one (b : Bool) : bit b = 1#1 ↔ b = true := by cases b <;> decide
@[simp] theorem bit_beq_one (b : Bool) : (bit b == 1#1) = b := by cases b <;> rfl
@[simp] theorem bit_beq (u : BitVec 1) : bit (u == 1#1) = u := by revert u; decide

@[simp] theorem cpyScope_scopeOr0 (x : Option Scope) : cpyScope (bit x.isSome) (scopeOr0 x) = some x := by
  cases x <;> simp [cpyScope, scopeOr0]

/-! ### Layouts of M, and the word -/

section
variable {n v w start len : Nat} {inst : HAppend (BitVec v) (BitVec w) (BitVec n)} (x : BitVec v) (y : BitVec w)

/-- A field of the low part of a concatenation whose width is written as one number. -/
@[simp] theorem extract_append_low (hn : n = v + w)
    (hi : HEq inst (BitVec.instHAppendHAddNat : HAppend (BitVec v) (BitVec w) (BitVec (v + w)))) (h : start + len ≤ w) :
    (HAppend.hAppend x y : BitVec n).extractLsb' start len = y.extractLsb' start len := by
  subst hn; cases hi
  exact BitVec.extractLsb'_append_eq_of_add_le h

/-- A field of the high part of a concatenation whose width is written as one number. -/
@[simp] theorem extract_append_high (hn : n = v + w)
    (hi : HEq inst (BitVec.instHAppendHAddNat : HAppend (BitVec v) (BitVec w) (BitVec (v + w)))) (h : w ≤ start) :
    (HAppend.hAppend x y : BitVec n).extractLsb' start len = x.extractLsb' (start - w) len := by
  subst hn; cases hi
  exact BitVec.extractLsb'_append_eq_of_le h

end

section
variable (ops : BitVec 6) (rnd : BitVec 2) (sco ord x : BitVec 3) (tt2 tt : BitVec 5) (off : BitVec 8)

@[simp] theorem mOps_mGen : mOps (mGen ops rnd sco ord tt2 tt) = ops := by simp [mOps, mGen]
@[simp] theorem mRnd_mGen : mRnd (mGen ops rnd sco ord tt2 tt) = rnd := by simp [mRnd, mGen]
@[simp] theorem mSco_mGen : mSco (mGen ops rnd sco ord tt2 tt) = sco := by simp [mSco, mGen]
@[simp] theorem mOrd_mGen : mOrd (mGen ops rnd sco ord tt2 tt) = ord := by simp [mOrd, mGen]
@[simp] theorem mTt2_mGen : mTt2 (mGen ops rnd sco ord tt2 tt) = tt2 := by simp [mTt2, mGen]
@[simp] theorem mTt_mGen : mTt (mGen ops rnd sco ord tt2 tt) = tt := by simp [mTt, mGen]

@[simp] theorem mOff_mMem : mOff (mMem off sco ord x tt) = off := by simp [mOff, mMem]
@[simp] theorem mSco_mMem : mSco (mMem off sco ord x tt) = sco := by simp [mSco, mMem]
@[simp] theorem mOrd_mMem : mOrd (mMem off sco ord x tt) = ord := by simp [mOrd, mMem]
@[simp] theorem mX_mMem : mX (mMem off sco ord x tt) = x := by simp [mX, mMem]
@[simp] theorem mTt_mMem : mTt (mMem off sco ord x tt) = tt := by simp [mTt, mMem]

end

/-- A field of an M that holds one value from bit 0 on. -/
@[simp] theorem extract_m24 {w : Nat} (x : BitVec w) {start len : Nat} (h : start + len ≤ 24) :
    (m24 x).extractLsb' start len = x.extractLsb' start len :=
  BitVec.extractLsb'_setWidth_of_le h

section
variable (h : Hdr) (opc : BitVec 8) (fn : BitVec 4) (u : Bool) (d a b : BitVec 9) (m : BitVec 24) (imm : W32)

@[simp] theorem immOf_baseImm : immOf (baseImm h opc fn u d a imm) = imm := by
  simp only [immOf, baseImm, base, BitVec.extractLsb'_append_eq_right]
  exact BitVec.extractLsb'_append_extractLsb'

@[simp] theorem hdr_base : (base h opc fn u d a b m).hdr = h := by
  obtain ⟨_ | ⟨neg, p⟩, st, wt, sf, yl, ru⟩ := h <;> simp [Fields.hdr, base]

@[simp] theorem hdr_baseImm : (baseImm h opc fn u d a imm).hdr = h := hdr_base ..

end

theorem unpack_pack (f : Fields) : Fields.unpack f.pack = f := by simp [Fields.unpack, Fields.pack]

/-- A field in front of the fields below it. -/
theorem append_extract_below {n k w : Nat} {x : BitVec n} {y : BitVec k} (hy : y = x.extractLsb' 0 k) :
    x.extractLsb' k w ++ y = x.extractLsb' 0 (w + k) :=
  hy ▸ BitVec.extractLsb'_append_extractLsb'_eq_extractLsb' (Nat.zero_add k).symm

theorem pack_unpack (x : BitVec 96) : (Fields.unpack x).pack = x := by
  refine Eq.trans ?_ BitVec.extractLsb'_eq_self
  iterate 14 refine append_extract_below ?_
  rfl

end Sys2Proof
end

section
/-!
SUPPORT. The fields that the encoder writes, and the decoder's table read back from them (R69–R71).
-/

namespace Sys2Proof

/-! ### The fields of a word -/

section
variable (h : Hdr) (opc : BitVec 8) (fn : BitVec 4) (u : Bool) (d a b : BitVec 9) (m : BitVec 24) (imm : W32)
@[simp] theorem base_opc : (base h opc fn u d a b m).opc = opc := rfl
@[simp] theorem base_fn : (base h opc fn u d a b m).fn = fn := rfl
@[simp] theorem base_u : (base h opc fn u d a b m).u = bit u := rfl
@[simp] theorem base_d : (base h opc fn u d a b m).d = d := rfl
@[simp] theorem base_a : (base h opc fn u d a b m).a = a := rfl
@[simp] theorem base_b : (base h opc fn u d a b m).b = b := rfl
@[simp] theorem base_m : (base h opc fn u d a b m).m = m := rfl
@[simp] theorem baseImm_opc : (baseImm h opc fn u d a imm).opc = opc := rfl
@[simp] theorem baseImm_fn : (baseImm h opc fn u d a imm).fn = fn := rfl
@[simp] theorem baseImm_u : (baseImm h opc fn u d a imm).u = bit u := rfl
@[simp] theorem baseImm_d : (baseImm h opc fn u d a imm).d = d := rfl
@[simp] theorem baseImm_a : (baseImm h opc fn u d a imm).a = a := rfl
end


/-! ### The shared encoders -/

section
variable (h : Hdr) (opc : BitVec 8) (fn : BitVec 4)

@[simp] theorem encAlu3_opc (o : Alu3) (ops : BitVec 6) : (encAlu3 h opc fn o ops).opc = opc := rfl
@[simp] theorem encAlu3_fn (o : Alu3) (ops : BitVec 6) : (encAlu3 h opc fn o ops).fn = fn := rfl
@[simp] theorem encAlu3_u (o : Alu3) (ops : BitVec 6) : (encAlu3 h opc fn o ops).u = bit o.u := rfl
@[simp] theorem encAlu3_hdr (o : Alu3) (ops : BitVec 6) : (encAlu3 h opc fn o ops).hdr = h := hdr_base ..

@[simp] theorem encAlu2_opc (o : Alu2) (ops : BitVec 6) : (encAlu2 h opc fn o ops).opc = opc := rfl
@[simp] theorem encAlu2_fn (o : Alu2) (ops : BitVec 6) : (encAlu2 h opc fn o ops).fn = fn := rfl
@[simp] theorem encAlu2_u (o : Alu2) (ops : BitVec 6) : (encAlu2 h opc fn o ops).u = bit o.u := rfl
@[simp] theorem encAlu2_hdr (o : Alu2) (ops : BitVec 6) : (encAlu2 h opc fn o ops).hdr = h := hdr_base ..

@[simp] theorem encFAlu3_opc (o : FAlu3) : (encFAlu3 h opc o).opc = opc := rfl
@[simp] theorem encFAlu3_fn (o : FAlu3) : (encFAlu3 h opc o).fn = 0 := rfl
@[simp] theorem encFAlu3_u (o : FAlu3) : (encFAlu3 h opc o).u = bit o.u := rfl
@[simp] theorem encFAlu3_hdr (o : FAlu3) : (encFAlu3 h opc o).hdr = h := hdr_base ..

@[simp] theorem encFMin_opc (o : FMinOp) : (encFMin h opc o).opc = opc := rfl
@[simp] theorem encFMin_fn (o : FMinOp) : (encFMin h opc o).fn = 0 := rfl
@[simp] theorem encFMin_u (o : FMinOp) : (encFMin h opc o).u = bit o.u := rfl
@[simp] theorem encFMin_hdr (o : FMinOp) : (encFMin h opc o).hdr = h := hdr_base ..

@[simp] theorem encHAlu_opc (o : HAlu) : (encHAlu h opc o).opc = opc := rfl
@[simp] theorem encHAlu_u (o : HAlu) : (encHAlu h opc o).u = bit o.u := rfl
@[simp] theorem encHAlu_fn (o : HAlu) : (encHAlu h opc o).fn = if o.bf then 1 else 0 := rfl
@[simp] theorem encHAlu_hdr (o : HAlu) : (encHAlu h opc o).hdr = h := hdr_base ..

@[simp] theorem encSfu_opc (o : SfuOp) : (encSfu h opc o).opc = opc := rfl
@[simp] theorem encSfu_fn (o : SfuOp) : (encSfu h opc o).fn = 0 := rfl
@[simp] theorem encSfu_u (o : SfuOp) : (encSfu h opc o).u = bit false := rfl
@[simp] theorem encSfu_hdr (o : SfuOp) : (encSfu h opc o).hdr = h := hdr_base ..

@[simp] theorem encSpMem_opc (o : SpMem) : (encSpMem h opc o).opc = opc := rfl
@[simp] theorem encSpMem_fn (o : SpMem) : (encSpMem h opc o).fn = 0 := rfl
@[simp] theorem encSpMem_u (o : SpMem) : (encSpMem h opc o).u = bit false := rfl
@[simp] theorem encSpMem_hdr (o : SpMem) : (encSpMem h opc o).hdr = h := hdr_base ..

@[simp] theorem encSpAtom_opc (o : SpAtom) : (encSpAtom h opc o).opc = opc := rfl
@[simp] theorem encSpAtom_fn (o : SpAtom) : (encSpAtom h opc o).fn = o.op.code := rfl
@[simp] theorem encSpAtom_u (o : SpAtom) : (encSpAtom h opc o).u = bit false := rfl
@[simp] theorem encSpAtom_hdr (o : SpAtom) : (encSpAtom h opc o).hdr = h := hdr_base ..

@[simp] theorem encGlMem_opc (o : GlMem) : (encGlMem h opc o).opc = opc := rfl
@[simp] theorem encGlMem_fn (o : GlMem) : (encGlMem h opc o).fn = 0 := rfl
@[simp] theorem encGlMem_u (o : GlMem) : (encGlMem h opc o).u = bit false := rfl
@[simp] theorem encGlMem_hdr (o : GlMem) : (encGlMem h opc o).hdr = h := hdr_base ..

@[simp] theorem encGlAtom_opc (o : GlAtom) : (encGlAtom h opc o).opc = opc := rfl
@[simp] theorem encGlAtom_fn (o : GlAtom) : (encGlAtom h opc o).fn = o.op.code := rfl
@[simp] theorem encGlAtom_u (o : GlAtom) : (encGlAtom h opc o).u = bit false := rfl
@[simp] theorem encGlAtom_hdr (o : GlAtom) : (encGlAtom h opc o).hdr = h := hdr_base ..

@[simp] theorem encTdrain_opc (o : TdrainOp) : (encTdrain h fn o).opc = 0xB4 := rfl
@[simp] theorem encTdrain_fn (o : TdrainOp) : (encTdrain h fn o).fn = fn := rfl
@[simp] theorem encTdrain_u (o : TdrainOp) : (encTdrain h fn o).u = bit true := rfl
@[simp] theorem encTdrain_hdr (o : TdrainOp) : (encTdrain h fn o).hdr = h := hdr_base ..

end

/-! ### Operands -/

section
variable {h : Hdr} {opc : BitVec 8} {fn : BitVec 4} {w w' w'' : Bool}

theorem alu3Of_encAlu3 {o : Alu3} {ops : BitVec 6} (hd : o.d.ok o.u w = true) (ha : o.a.ok o.u w' = true)
    (hb : o.b.ok o.u w'' = true) : alu3Of (encAlu3 h opc fn o ops) = some o := by
  simp [alu3Of, encAlu3, Dst.ofCode_code hd, Src.ofCode_code ha, Src.ofCode_code hb]

theorem alu2Of_encAlu2 {o : Alu2} {ops : BitVec 6} (hd : o.d.ok o.u w = true) (ha : o.a.ok o.u w' = true) :
    alu2Of (encAlu2 h opc fn o ops) = some o := by
  simp [alu2Of, encAlu2, Dst.ofCode_code hd, Src.ofCode_code ha]

theorem falu3Of_encFAlu3 {o : FAlu3} (ho : o.ok = true) : falu3Of (encFAlu3 h opc o) = some o := by
  obtain ⟨⟨hd, ha⟩, hb⟩ : (_ ∧ _) ∧ _ := by simpa [FAlu3.ok] using ho
  simp [falu3Of, encFAlu3, Dst.ofCode_code hd, Src.ofCode_code ha, Src.ofCode_code hb]

theorem fminOf_encFMin {o : FMinOp} (ho : o.ok = true) : fminOf (encFMin h opc o) = some o := by
  obtain ⟨⟨hd, ha⟩, hb⟩ : (_ ∧ _) ∧ _ := by simpa [FMinOp.ok] using ho
  simp [fminOf, encFMin, Dst.ofCode_code hd, Src.ofCode_code ha, Src.ofCode_code hb]

theorem haluOf_encHAlu {o : HAlu} (ho : o.ok = true) : haluOf (encHAlu h opc o) = some o := by
  obtain ⟨u, bf, rnd, d, a, b⟩ := o
  obtain ⟨⟨⟨hd, ha⟩, hb⟩, -⟩ : ((_ ∧ _) ∧ _) ∧ _ := by simpa [HAlu.ok] using ho
  cases bf <;> simp [haluOf, encHAlu, Dst.ofCode_code hd, Src.ofCode_code ha, Src.ofCode_code hb]

theorem sfuOf_encSfu {o : SfuOp} (ho : o.ok = true) : sfuOf (encSfu h opc o) = some o := by
  obtain ⟨hd, ha⟩ : _ ∧ _ := by simpa [SfuOp.ok] using ho
  simp [sfuOf, encSfu, vreg_of_ok hd, VSrc.ofCode_code ha]

theorem spMemOf_encSpMem {o : SpMem} {load : Bool} (ho : o.ok load = true) : spMemOf (encSpMem h opc o) = some o := by
  obtain ⟨⟨⟨-, hd⟩, ha⟩, hb⟩ : ((_ ∧ _) ∧ _) ∧ _ := by simpa [SpMem.ok] using ho
  simp [spMemOf, encSpMem, vreg_of_ok hd, VSrc.ofCode_code ha, VSrc.ofCode_code hb]

theorem spAtomOf_encSpAtom {o : SpAtom} {ret : Bool} (ho : o.ok ret = true) :
    spAtomOf ret (encSpAtom h opc o) = some o := by
  obtain ⟨op, tag, ord, sco, off, d, a, b⟩ := o
  obtain ⟨⟨⟨-, ha⟩, hb⟩, hd⟩ : ((_ ∧ _) ∧ _) ∧ _ := by simpa [SpAtom.ok] using ho
  cases ret with
  | true => simp [spAtomOf, encSpAtom, vreg_of_ok hd, VSrc.ofCode_code ha, VSrc.ofCode_code hb]
  | false =>
    obtain rfl : d = 0 := by simp_all
    simp [spAtomOf, encSpAtom, VSrc.ofCode_code ha, VSrc.ofCode_code hb]

theorem glMemOf_encGlMem {o : GlMem} {load : Bool} (ho : o.ok load = true) : glMemOf (encGlMem h opc o) = some o := by
  obtain ⟨⟨⟨-, hd⟩, ha⟩, hb⟩ : ((_ ∧ _) ∧ _) ∧ _ := by simpa [GlMem.ok] using ho
  simp [glMemOf, encGlMem, Dst.ofMem_code hd, VSrc.ofCode_code ha, VSrc.ofCode_code hb]

theorem glAtomOf_encGlAtom {o : GlAtom} {ret : Bool} (ho : o.ok ret = true) :
    glAtomOf ret (encGlAtom h opc o) = some o := by
  obtain ⟨op, tag, ord, sco, off, d, a, b⟩ := o
  obtain ⟨⟨⟨-, ha⟩, hb⟩, hd⟩ : ((_ ∧ _) ∧ _) ∧ _ := by simpa [GlAtom.ok] using ho
  cases ret with
  | true =>
    obtain ⟨hd, -⟩ : d.okMem tag.wide = true ∧ _ := by simpa using hd
    simp [glAtomOf, encGlAtom, Dst.ofMem_code hd, VSrc.ofCode_code ha, VSrc.ofCode_code hb]
  | false =>
    obtain rfl : d = .v 0 := by simp_all
    simp [glAtomOf, encGlAtom, VSrc.ofCode_code ha, VSrc.ofCode_code hb]

@[simp] theorem tdrainOf_encTdrain (o : TdrainOp) : tdrainOf (encTdrain h fn o) = some o := by
  obtain ⟨spd, clr, blk, rnd, sco, rel, acc, dst, a, b⟩ := o
  cases rel <;> simp [tdrainOf, encTdrain]

end

/-! ### The decoder's table, read back from the encoder's words -/

theorem build_encode {i : Instr} (hl : i.legal = true) {g : Fields} (he : encodeFields i = some g) : build g = some i := by
  cases i with
  | nop | bra | bz | bnz | call | ret | exit | exitSucc | yield | sleep | exset | exget | pmask | gettime | csrr =>
    obtain rfl := Option.some.inj he
    simp [build, buildCtl]
  | jmpi h lnk =>
    cases lnk <;> obtain rfl := Option.some.inj he <;> simp [build, buildCtl]
  | waitc =>
    obtain ⟨hf, -⟩ : _ ∧ _ := by simpa [Instr.legal] using hl
    obtain rfl := Option.some.inj he
    simp [build, buildCtl, idxOf_flag hf]
  | xvi =>
    obtain ⟨-, ha⟩ : _ ∧ _ := by simpa [Instr.legal] using hl
    obtain rfl := Option.some.inj he
    simp [build, buildCtl, vreg_of_ok ha]
  | csrw h csr a =>
    obtain rfl := Option.some.inj he
    simp [build, buildCtl, SSrc.ofCode_code (w := false) hl]
  | sldkArg h wide | sldkConst h wide =>
    obtain rfl := Option.some.inj he
    cases wide <;> simp [build, buildCtl]
  | vadd _ o | vsub _ o | vmul _ o | vmulh _ o | vmad _ o | vand _ o | vor _ o | vxor _ o | vmin _ o | vmax _ o
  | vabsd _ o =>
    obtain ⟨-, ⟨hd, ha⟩, hb⟩ : _ ∧ (_ ∧ _) ∧ _ := by simpa [Instr.legal, Alu3.ok] using hl
    obtain rfl := Option.some.inj he
    simp [build, buildInt, alu3Of_encAlu3 hd ha hb]
  | vshl _ o | vshr _ o | vsra _ o | vbfe _ o | vbfi _ o =>
    obtain ⟨-, ⟨hd, ha⟩, hb⟩ : _ ∧ (_ ∧ _) ∧ _ := by simpa [Instr.legal, Alu3.okB32] using hl
    obtain rfl := Option.some.inj he
    simp [build, buildInt, alu3Of_encAlu3 hd ha hb]
  | vadds _ o =>
    obtain ⟨-, ⟨hd, ha⟩, hb⟩ : _ ∧ (_ ∧ _) ∧ _ := by simpa [Instr.legal, Alu3.ok] using hl
    obtain rfl := Option.some.inj he
    simp [build, buildInt, alu3Of_encAlu3 hd ha hb]
    simp [encAlu3]
  | vclz _ o | vpopc _ o | vmov _ o =>
    obtain ⟨-, hd, ha⟩ : _ ∧ _ ∧ _ := by simpa [Instr.legal, Alu2.okA] using hl
    obtain rfl := Option.some.inj he
    simp [build, buildInt, alu2Of_encAlu2 hd ha]
  | vsel _ o =>
    obtain ⟨-, ⟨hd, ha⟩, hb⟩ : _ ∧ (_ ∧ _) ∧ _ := by simpa [Instr.legal, Alu3.ok] using hl
    obtain rfl := Option.some.inj he
    simp [build, buildInt, alu3Of, mTt, Dst.ofCode_code hd, Src.ofCode_code ha, Src.ofCode_code hb]
  | vmovi _ o =>
    obtain ⟨u, wide, d, imm⟩ := o
    obtain rfl := Option.some.inj he
    cases wide <;> simp [build, buildInt, Dst.ofCode_code hl]
  | vcmp _ o =>
    obtain ⟨⟨-, ha⟩, hb⟩ : (_ ∧ _) ∧ _ := by simpa [Instr.legal] using hl
    obtain rfl := Option.some.inj he
    simp [build, buildInt, Src.ofCode_code ha, Src.ofCode_code hb]
  | vbint _ o =>
    obtain ⟨three, o⟩ := o
    obtain ⟨-, ⟨hd, ha⟩, hb⟩ : _ ∧ (_ ∧ _) ∧ _ := by simpa [Instr.legal, Alu3.okD] using hl
    obtain rfl := Option.some.inj he
    cases three <;> simp [build, buildInt, alu3Of_encAlu3 hd ha hb]
  | vbdei _ o =>
    obtain ⟨three, sel, o⟩ := o
    obtain ⟨⟨-, hd, ha⟩, -⟩ : (_ ∧ _ ∧ _) ∧ _ := by simpa [Instr.legal, Alu2.okA] using hl
    obtain rfl := Option.some.inj he
    cases three <;> simp [build, buildInt, alu2Of_encAlu2 hd ha] <;> simp [encAlu2]
  | plog =>
    obtain rfl := Option.some.inj he
    simp [build, buildInt]
  | pmov _ o =>
    obtain ⟨u, cnt, p, d | a⟩ := o
    · obtain ⟨-, hd⟩ : _ ∧ _ := by simpa [Instr.legal] using hl
      obtain rfl := Option.some.inj he
      simp [build, buildInt, Dst.ofCode_code hd]
    · obtain ⟨-, ha⟩ : _ ∧ _ := by simpa [Instr.legal] using hl
      obtain rfl := Option.some.inj he
      simp [build, buildInt, Src.ofCode_code ha]
  | fadd | fsub | fmul | ffma =>
    obtain rfl := Option.some.inj he
    simp [build, buildFp, falu3Of_encFAlu3 hl]
  | fmin | fmax =>
    obtain rfl := Option.some.inj he
    simp [build, buildFp, fminOf_encFMin hl]
  | fcmp =>
    obtain ⟨ha, hb⟩ : _ ∧ _ := by simpa [Instr.legal] using hl
    obtain rfl := Option.some.inj he
    simp [build, buildFp, Src.ofCode_code ha, Src.ofCode_code hb]
  | frnd =>
    obtain ⟨hd, ha⟩ : _ ∧ _ := by simpa [Instr.legal] using hl
    obtain rfl := Option.some.inj he
    simp [build, buildFp, Dst.ofCode_code hd, Src.ofCode_code ha]
  | hadd2 | hmul2 | hfma2 =>
    obtain rfl := Option.some.inj he
    simp [build, buildFp, haluOf_encHAlu hl]
  | frcp | frsq | fsqrt | fex2 | flg2 | fsin | fcos | ftanh =>
    obtain rfl := Option.some.inj he
    simp [build, buildFp, sfuOf_encSfu hl]
  | cvt =>
    obtain ⟨⟨-, hd⟩, ha⟩ : (_ ∧ _) ∧ _ := by simpa [Instr.legal, CvtOp.ok] using hl
    obtain rfl := Option.some.inj he
    simp [build, buildConv, vreg_of_ok hd, VSrc.ofCode_code ha]
  | qnt =>
    obtain ⟨⟨⟨-, hd⟩, ha⟩, hb⟩ : ((_ ∧ _) ∧ _) ∧ _ := by simpa [Instr.legal, QntOp.ok] using hl
    obtain rfl := Option.some.inj he
    simp [build, buildConv, vreg_of_ok hd, VSrc.ofCode_code ha, VSrc.ofCode_code hb]
  | pack6 _ o =>
    obtain ⟨fromF32, rnd, d, a⟩ := o
    obtain ⟨hd, ha⟩ : _ ∧ _ := by simpa [Instr.legal] using hl
    obtain rfl := Option.some.inj he
    cases fromF32 <;> simp [build, buildConv, vreg_of_ok hd, VSrc.ofCode_code ha]
  | unpack6 _ o =>
    obtain ⟨toF32, quad, sel, d, a⟩ := o
    obtain ⟨⟨hd, ha⟩, -⟩ : (_ ∧ _) ∧ _ := by simpa [Instr.legal] using hl
    obtain rfl := Option.some.inj he
    cases toF32 <;> simp [build, buildConv, vreg_of_ok hd, VSrc.ofCode_code ha]
  | mxsc _ o =>
    obtain ⟨mx4, seld, d, a⟩ := o
    obtain ⟨hd, ha⟩ : _ ∧ _ := by simpa [Instr.legal] using hl
    obtain rfl := Option.some.inj he
    cases mx4 <;> simp [build, buildConv, vreg_of_ok hd, VSrc.ofCode_code ha]
  | sattst | satclr | satarm =>
    obtain rfl := Option.some.inj he
    simp [build, buildConv]
  | shfl _ o =>
    obtain ⟨mode, wide, seg, d, a, b⟩ := o
    obtain ⟨⟨⟨-, hd⟩, ha⟩, hb⟩ : ((_ ∧ _) ∧ _) ∧ _ := by simpa [Instr.legal] using hl
    obtain rfl := Option.some.inj he
    cases wide <;> simp [build, buildConv, vreg_of_ok hd, VSrc.ofCode_code ha, VSrc.ofCode_code hb]
  | rdlane _ o =>
    obtain ⟨wide, d, a, b⟩ := o
    obtain ⟨⟨-, ha⟩, -⟩ : (_ ∧ _) ∧ _ := by simpa [Instr.legal] using hl
    obtain rfl := Option.some.inj he
    cases wide <;> simp [build, buildConv, vreg_of_ok ha]
  | wrlane _ o =>
    obtain ⟨wide, d, a, b⟩ := o
    obtain ⟨⟨hd, -⟩, -⟩ : (_ ∧ _) ∧ _ := by simpa [Instr.legal] using hl
    obtain rfl := Option.some.inj he
    cases wide <;> simp [build, buildConv, vreg_of_ok hd]
  | vred =>
    obtain ⟨-, ha⟩ : _ ∧ _ := by simpa [Instr.legal] using hl
    obtain rfl := Option.some.inj he
    simp [build, buildConv, VSrc.ofCode_code ha]
  | vscan _ o =>
    obtain ⟨excl, rop, tag, rnd, d, a⟩ := o
    obtain ⟨⟨-, hd⟩, ha⟩ : (_ ∧ _) ∧ _ := by simpa [Instr.legal] using hl
    obtain rfl := Option.some.inj he
    cases excl <;> simp [build, buildConv, vreg_of_ok hd, VSrc.ofCode_code ha]
  | vmatch =>
    obtain ⟨⟨-, hd⟩, ha⟩ : (_ ∧ _) ∧ _ := by simpa [Instr.legal] using hl
    obtain rfl := Option.some.inj he
    simp [build, buildConv, vreg_of_ok hd, VSrc.ofCode_code ha]
  | lds | sts =>
    obtain rfl := Option.some.inj he
    simp [build, buildMem, spMemOf_encSpMem hl]
  | atoms | reds =>
    obtain rfl := Option.some.inj he
    simp [build, buildMem, spAtomOf_encSpAtom hl]
  | barinit | bwait | btest | fence | qstat | qdrop =>
    obtain rfl := Option.some.inj he
    simp [build, buildMem, mOff, mSco_mGen]
  | arrive _ o =>
    obtain ⟨drn, off, cnti, d, a, b⟩ := o
    obtain hz | rfl : cnti = 0 ∨ b = 0 := by simpa [Instr.legal] using hl
    · obtain rfl := Option.some.inj he
      simp [build, buildMem, mOff, hz]
    · obtain rfl := Option.some.inj he
      by_cases hz : cnti = 0 <;> simp [build, buildMem, mOff, hz]
  | waita _ o =>
    obtain ⟨cond, spd, tmo, sco, acq, tag, pd, a, b⟩ := o
    obtain rfl := Option.some.inj he
    cases acq <;> simp [build, buildMem, mSco, mOrd, mTt]
  | ldg | stg =>
    obtain rfl := Option.some.inj he
    simp [build, buildMem, glMemOf_encGlMem hl]
  | atom | red =>
    obtain rfl := Option.some.inj he
    simp [build, buildMem, glAtomOf_encGlAtom hl]
  | cctlInv _ rng =>
    cases rng <;> obtain rfl := Option.some.inj he <;> simp [build, buildMem, rngOf]
  | cctlClean | cctlCleaninv =>
    obtain rfl := Option.some.inj he
    simp [build, buildMem, rngOf]
  | pref _ o =>
    obtain ⟨slc, scl, isgn, off, a, b⟩ := o
    obtain ⟨ha, hb⟩ : _ ∧ _ := by simpa [Instr.legal] using hl
    obtain rfl := Option.some.inj he
    cases slc <;> simp [build, buildMem, prefOf, VSrc.ofCode_code ha, VSrc.ofCode_code hb]
  | link | unlink | tzero | tdrainSt | tdrainAddst | htest | hcancel | hwait =>
    obtain rfl := Option.some.inj he
    simp [build, buildGrid]
  | tmma _ o =>
    obtain ⟨blk, cont, i4, acc, fmt, acq, sco, k, a, b⟩ := o
    obtain rfl := Option.some.inj he
    cases acq <;> simp [build, buildGrid]
  | gprog _ o =>
    obtain ⟨reg, d | a⟩ := o
    · obtain rfl := Option.some.inj he
      simp [build, buildGrid]
    · have htop : reg.extractLsb' 23 1 ≠ 1#1 := by clear hl he; revert reg; decide
      obtain rfl := Option.some.inj he
      simp [build, buildGrid, htop]
  | cpy =>
    obtain rfl := Option.some.inj he
    simp [build, buildGrid]
  | rbox =>
    obtain ⟨⟨⟨hd, ha⟩, hb⟩, -⟩ : ((_ ∧ _) ∧ _) ∧ _ := by simpa [Instr.legal] using hl
    obtain rfl := Option.some.inj he
    simp [build, buildSys, vreg_of_ok hd, vreg_of_ok ha, VSrc.ofCode_code hb]
  | rtri =>
    obtain ⟨⟨ha, hb⟩, -⟩ : (_ ∧ _) ∧ _ := by simpa [Instr.legal] using hl
    obtain rfl := Option.some.inj he
    simp [build, buildSys, vreg_of_ok ha, VSrc.ofCode_code hb]
  | rhint =>
    obtain ⟨⟨hd, ha⟩, -⟩ : (_ ∧ _) ∧ _ := by simpa [Instr.legal] using hl
    obtain rfl := Option.some.inj he
    simp [build, buildSys, vreg_of_ok hd, vreg_of_ok ha]
  | rhset =>
    obtain ⟨ha, -⟩ : _ ∧ _ := by simpa [Instr.legal] using hl
    obtain rfl := Option.some.inj he
    simp [build, buildSys, vreg_of_ok ha]
  | rast =>
    obtain rfl := Option.some.inj he
    simp [build, buildSys, vreg_of_ok hl]
  | tex =>
    obtain ⟨⟨⟨⟨hd, ha⟩, hb⟩, -⟩, -⟩ : (((_ ∧ _) ∧ _) ∧ _) ∧ _ := by simpa [Instr.legal] using hl
    obtain rfl := Option.some.inj he
    simp [build, buildSys, vreg_of_ok hd, VSrc.ofCode_code ha, VSrc.ofCode_code hb]
  | texq =>
    obtain ⟨⟨⟨hd, ha⟩, hb⟩, -⟩ : ((_ ∧ _) ∧ _) ∧ _ := by simpa [Instr.legal] using hl
    obtain rfl := Option.some.inj he
    simp [build, buildSys, vreg_of_ok hd, VSrc.ofCode_code ha, VSrc.ofCode_code hb]
  | blend _ o =>
    obtain ⟨bop, f16, ord, sco, off, a, b⟩ := o
    obtain ⟨⟨-, ha⟩, hb⟩ : (_ ∧ _) ∧ _ := by simpa [Instr.legal, BlendOpn.ok] using hl
    obtain rfl := Option.some.inj he
    cases f16 <;> simp [build, buildSys, VSrc.ofCode_code ha, VSrc.ofCode_code hb]
  | launchEnq | launchCancel | setpri | trap | trapret | faultretRetry | faultretSkip | faultretEmul | dbgbrk =>
    obtain rfl := Option.some.inj he
    simp [build, buildSys]
  | _ => exact absurd he nofun

end Sys2Proof
end

section
/-!
SUPPORT. The opcode, the FN and the scheduling fields of what the decoder's table reads (R69), and decoding by the table
and the encoding (R53, R54).
-/

namespace Sys2Proof

/-! ### What the table has read -/

/-- Two sets of fields with one opcode, one FN and the same scheduling fields: what the decoder's table reads of a word and
does not check against the encoding. -/
def Fields.sameHead (g f : Fields) : Prop :=
  g.opc.toNat = f.opc.toNat ∧ g.fn = f.fn ∧ g.ru = f.ru ∧ g.yl = f.yl ∧ g.sf = f.sf ∧ g.wt = f.wt ∧ g.st = f.st ∧ g.ge = f.ge

/-- What is read of `f` has an encoding with the opcode, the FN and the scheduling fields of `f`, where it has one. -/
def Fields.Reads (f : Fields) (x : Option Instr) : Prop := ∀ i, x = some i → ∀ g, encodeFields i = some g → g.sameHead f

section
variable {f : Fields} {α : Type}

@[simp] theorem reads_none : f.Reads none := fun _ h => nomatch h

@[simp] theorem reads_some {i : Instr} : f.Reads (some i) ↔ ∀ g, encodeFields i = some g → g.sameHead f := by
  simp [Fields.Reads]

@[simp] theorem reads_bind {x : Option α} {k : α → Option Instr} : f.Reads (x.bind k) ↔ ∀ a, x = some a → f.Reads (k a) := by
  cases x <;> simp [Fields.Reads]

@[simp] theorem reads_map {x : Option α} {k : α → Instr} : f.Reads (x.map k) ↔ ∀ a, x = some a → f.Reads (some (k a)) := by
  cases x <;> simp [Fields.Reads]

@[simp] theorem reads_ite {p : Prop} [Decidable p] {x y : Option Instr} :
    f.Reads (if p then x else y) ↔ (p → f.Reads x) ∧ (¬ p → f.Reads y) := by
  split <;> simp_all

@[simp] theorem base_sameHead {opc : BitVec 8} {fn : BitVec 4} {u : Bool} {d a b : BitVec 9} {m : BitVec 24} :
    (base f.hdr opc fn u d a b m).sameHead f ↔ opc.toNat = f.opc.toNat ∧ fn = f.fn := by
  have hge : bit f.hdr.guard.isSome = f.ge := by
    obtain h | h : f.ge = 0 ∨ f.ge = 1 := by generalize f.ge = x; revert x; decide
    all_goals simp [Fields.hdr, h, bit]
  have hyl : bit f.hdr.yl = f.yl := bit_beq _
  simp only [Fields.sameHead, base, hge, hyl]
  simp [Fields.hdr]

end

/-! ### The table's parts -/

theorem fn_of_haluOf {o : HAlu} (h : haluOf f = some o) : (if o.bf then 1#4 else 0#4) = f.fn := by
  simp only [haluOf, Option.bind_eq_bind, Option.bind_eq_some_iff] at h
  obtain ⟨r, -, d, -, a, -, b, -, h⟩ := h
  split_ifs at h with h0 h1 <;> cases h <;> simp [*]

theorem fn_of_spAtomOf {ret : Bool} {o : SpAtom} (h : spAtomOf ret f = some o) : o.op.code = f.fn := by
  simp only [spAtomOf, Option.bind_eq_bind, Option.bind_eq_some_iff] at h
  obtain ⟨op, hop, t, -, r, -, sc, -, h⟩ := h
  cases ret <;> simp [Option.bind_eq_some_iff] at h
  · obtain ⟨a, -, b, -, rfl⟩ := h
    exact AtomOp.code_ofCode hop
  · obtain ⟨d, -, a, -, b, -, rfl⟩ := h
    exact AtomOp.code_ofCode hop

theorem fn_of_glAtomOf {ret : Bool} {o : GlAtom} (h : glAtomOf ret f = some o) : o.op.code = f.fn := by
  simp only [glAtomOf, Option.bind_eq_bind, Option.bind_eq_some_iff] at h
  obtain ⟨op, hop, t, -, r, -, sc, -, h⟩ := h
  cases ret <;> simp [Option.bind_eq_some_iff] at h
  · obtain ⟨a, -, b, -, rfl⟩ := h
    exact AtomOp.code_ofCode hop
  · obtain ⟨d, -, a, -, b, -, rfl⟩ := h
    exact AtomOp.code_ofCode hop

theorem buildCtl_reads (f : Fields) : f.Reads (buildCtl f) := by
  unfold buildCtl
  split <;> simp +contextual [encodeFields, baseImm, *]
  exact fun _ h _ _ => ExOp.code_ofCode h

theorem buildInt_reads (f : Fields) : f.Reads (buildInt f) := by
  unfold buildInt
  split <;> simp +contextual [encodeFields, encAlu3, encAlu2, baseImm, *]

theorem buildFp_reads (f : Fields) : f.Reads (buildFp f) := by
  unfold buildFp
  split <;> simp +contextual [encodeFields, encFAlu3, encFMin, encHAlu, encSfu, *]
  all_goals exact fun _ => fn_of_haluOf


theorem slc_of_prefOf {slc : Bool} {o : PrefOp} (h : prefOf f slc = some o) : o.slc = slc := by
  simp only [prefOf, Option.bind_eq_bind, Option.bind_eq_some_iff] at h
  obtain ⟨a, -, b, -, h⟩ := h
  cases h
  rfl

theorem buildConv_reads (f : Fields) : f.Reads (buildConv f) := by
  unfold buildConv
  split <;> simp +contextual [encodeFields, *]
  intro mode h d hd a ha b hb
  exact ⟨fun _ => ShflMode.code_ofCode h, fun _ _ => ShflMode.code_ofCode h⟩

theorem buildMem_reads (f : Fields) : f.Reads (buildMem f) := by
  unfold buildMem
  split <;> simp +contextual [encodeFields, encSpMem, encSpAtom, encGlMem, encGlAtom, *]
  case h_3 | h_4 => exact fun _ => fn_of_spAtomOf
  case h_12 | h_13 => exact fun _ => fn_of_glAtomOf
  case h_14 => exact fun _ h _ _ => FenceKind.code_ofCode h
  case h_16 => exact ⟨fun _ _ => slc_of_prefOf, fun _ _ _ => slc_of_prefOf⟩

theorem buildGrid_reads (f : Fields) : f.Reads (buildGrid f) := by
  unfold buildGrid
  split
  case h_3 hopc => by_cases h0 : f.fn = 0#4 <;> simp [encodeFields, h0, hopc]
  case h_7 hopc => simpa [encodeFields, hopc] using fun _ h _ _ _ _ _ _ _ _ => CpyForm.code_ofCode h
  all_goals simp +contextual [encodeFields, encTdrain, *]

theorem buildSys_reads (f : Fields) : f.Reads (buildSys f) := by
  unfold buildSys
  split <;> simp +contextual [encodeFields, baseImm, *]
  exact fun _ h _ _ _ _ _ _ => TexMode.code_ofCode h

theorem build_reads (f : Fields) : f.Reads (build f) := by
  unfold build
  simp only [reads_ite]
  exact ⟨fun _ => buildCtl_reads f, fun _ => ⟨fun _ => buildInt_reads f, fun _ => ⟨fun _ => buildFp_reads f,
    fun _ => ⟨fun _ => buildConv_reads f, fun _ => ⟨fun _ => buildMem_reads f,
      fun _ => ⟨fun _ => buildGrid_reads f, fun _ => buildSys_reads f⟩⟩⟩⟩⟩⟩

/-! ### Decoding -/

/-- What decodes is what the table reads; it is legal, and its encoding has the M and the U of the word. -/
theorem decodeFields_ok {f : Fields} {i : Instr} {r : Bool} (h : decodeFields f = .ok i r) :
    build f = some i ∧ i.legal = true ∧ ∃ g, encodeFields i = some g ∧ g.m = f.m ∧ g.u = f.u ∧
      r = (g.d != f.d || g.a != f.a || g.b != f.b || g.gn != f.gn || g.gp != f.gp || i.exitFlag) := by
  unfold decodeFields at h
  split at h
  · cases h
  next j hb =>
    split at h
    · cases h
    next g he =>
      split at h
      · cases h
      next hc =>
        cases h
        obtain ⟨⟨hl, hm⟩, hu⟩ : (i.legal = true ∧ g.m = f.m) ∧ g.u = f.u := by simpa using hc
        exact ⟨hb, hl, g, he, hm, hu, rfl⟩

theorem decodeFields_encode {i : Instr} (hl : i.legal = true) {g : Fields} (he : encodeFields i = some g) :
    decodeFields g = .ok i i.exitFlag := by
  simp [decodeFields, build_encode hl he, he, hl]

/-- Where no field is reserved, the encoding has every field of the word. -/
theorem encodeFields_of_decodeFields {f : Fields} {i : Instr} (h : decodeFields f = .ok i false) :
    i.wf = true ∧ encodeFields i = some f := by
  obtain ⟨hb, hl, g, he, hm, hu, hr⟩ := decodeFields_ok h
  obtain ⟨⟨⟨⟨⟨hd, ha⟩, hB⟩, hgn⟩, hgp⟩, hx⟩ :
      ((((g.d = f.d ∧ g.a = f.a) ∧ g.b = f.b) ∧ g.gn = f.gn) ∧ g.gp = f.gp) ∧ i.exitFlag = false := by
    simpa using hr.symm
  obtain ⟨hopc, hfn, hru, hyl, hsf, hwt, hst, hge⟩ := build_reads f i hb g he
  have hgf : g = f := by
    cases g; cases f
    simp_all [BitVec.toNat_inj]
  exact ⟨by simp [Instr.wf, hl, hx], hgf ▸ he⟩

/-! ### The opcode map -/

open Claims in
theorem opcodeMap_encode {i : Instr} (hl : i.legal = true) {g : Fields} (he : encodeFields i = some g) :
    opcodeMap g.opc.toNat g.fn.toNat (g.u == 1#1) = true := by
  cases i with
  -- rows with one value of U and of FN
  | bra | bz | bnz | call | ret | exit | exitSucc | yield | sleep | exget | pmask | gettime | csrr | waitc | xvi | csrw
  | frcp | frsq | fsqrt | fex2 | flg2 | fsin | fcos | ftanh | cvt | qnt | pack6 | unpack6 | mxsc | sattst | satclr | satarm
  | rdlane | wrlane | vred | vmatch | lds | sts | barinit | arrive | bwait | btest | waita | ldg | stg | cctlClean
  | cctlCleaninv | qstat | qdrop | link | unlink | tmma | tzero | tdrainSt | tdrainAddst | htest | hcancel | hwait | rbox
  | rtri | rhint | rhset | rast | texq | blend | launchEnq | launchCancel | setpri | trap | trapret | faultretRetry
  | faultretSkip | faultretEmul | dbgbrk =>
    obtain rfl := Option.some.inj he
    simp
    decide
  -- rows of either U
  | nop _ u =>
    obtain rfl := Option.some.inj he
    cases u <;> simp <;> decide
  | vadd _ o | vsub _ o | vmul _ o | vmulh _ o | vmad _ o | vand _ o | vor _ o | vxor _ o | vshl _ o | vshr _ o | vsra _ o
  | vmin _ o | vmax _ o | vabsd _ o | vclz _ o | vpopc _ o | vbfe _ o | vbfi _ o | vmov _ o | vcmp _ o | plog _ o | fadd _ o
  | fsub _ o | fmul _ o | ffma _ o | fmin _ o | fmax _ o | fcmp _ o | frnd _ o =>
    obtain ⟨u⟩ := o
    obtain rfl := Option.some.inj he
    cases u <;> simp <;> decide
  | vadds _ o | vsel _ o =>
    obtain ⟨_, ⟨u⟩⟩ := o
    obtain rfl := Option.some.inj he
    cases u <;> simp <;> decide
  | pmov _ o =>
    obtain ⟨u, _, _, _ | _⟩ := o <;> obtain rfl := Option.some.inj he <;> cases u <;> simp <;> decide
  -- rows whose FN holds an operand
  | jmpi _ x | cctlInv _ x => cases x <;> obtain rfl := Option.some.inj he <;> simp <;> decide
  | gprog _ o => obtain ⟨_, _ | _⟩ := o <;> obtain rfl := Option.some.inj he <;> simp <;> decide
  | exset _ op =>
    obtain rfl := Option.some.inj he
    cases op <;> simp <;> decide
  | fence _ o | shfl _ o | tex _ o | cpy _ o =>
    obtain ⟨x⟩ := o
    obtain rfl := Option.some.inj he
    cases x <;> simp <;> decide
  | sldkArg _ wide | sldkConst _ wide =>
    obtain rfl := Option.some.inj he
    cases wide <;> simp <;> decide
  | vmovi _ o | hadd2 _ o | hmul2 _ o | hfma2 _ o =>
    obtain ⟨u, x⟩ := o
    obtain rfl := Option.some.inj he
    cases u <;> cases x <;> simp <;> decide
  | vbint _ o =>
    obtain ⟨x, ⟨u⟩⟩ := o
    obtain rfl := Option.some.inj he
    cases u <;> cases x <;> simp <;> decide
  | vbdei _ o =>
    obtain ⟨x, _, ⟨u⟩⟩ := o
    obtain rfl := Option.some.inj he
    cases u <;> cases x <;> simp <;> decide
  | vscan _ o | pref _ o =>
    obtain ⟨x⟩ := o
    obtain rfl := Option.some.inj he
    cases x <;> simp <;> decide
  | atoms _ o | atom _ o =>
    obtain ⟨op⟩ := o
    obtain rfl := Option.some.inj he
    cases op <;> simp <;> decide
  | reds _ o =>
    obtain ⟨op⟩ := o
    obtain ⟨-, ⟨⟨-, hexch⟩, hcas⟩, -⟩ : _ ∧ ((_ ∧ _) ∧ _) ∧ _ := by simpa [Instr.legal, SpAtom.ok] using hl
    obtain rfl := Option.some.inj he
    cases op <;> simp at hexch hcas ⊢ <;> decide
  | red _ o =>
    obtain ⟨op⟩ := o
    obtain ⟨-, ⟨⟨-, hexch⟩, hcas⟩, -⟩ : _ ∧ ((_ ∧ _) ∧ _) ∧ _ := by simpa [Instr.legal, GlAtom.ok] using hl
    obtain rfl := Option.some.inj he
    cases op <;> simp at hexch hcas ⊢ <;> decide
  | _ => exact absurd he nofun

end Sys2Proof
end

section
/-! The words of instructions: the statements about them, and their proofs. -/

namespace Sys2Proof

/-- Settles O54: by evaluation. -/
theorem decodeWords : Obligations.DecodeWords := by
  unfold Obligations.DecodeWords
  decide

/-- Settles O55: the map assigns the opcode, the FN and the U of every encoding, and a word that decodes has those of one. -/
theorem opcodeMap : Obligations.OpcodeMap := by
  intro x i r h
  obtain ⟨hb, hl, g, he, -, hu, -⟩ := decodeFields_ok h
  obtain ⟨hopc, hfn, -⟩ := build_reads _ i hb g he
  have hm := opcodeMap_encode hl he
  rwa [hopc, hfn, hu, show ((Fields.unpack x).u == 1#1) = x.getLsbD 12 from (BitVec.getLsbD_eq_extractLsb' x 12).symm] at hm

/-- Settles O56: an encoding is read back field by field, and the fields that the decoder does not compare are those that
its table has read. -/
theorem encodeDecode : Obligations.EncodeDecode := by
  refine ⟨fun i x hwf henc => ?_, fun i x hdec => ?_⟩
  · obtain ⟨hl, hx⟩ : i.legal = true ∧ i.exitFlag = false := by simpa [Instr.wf] using hwf
    obtain ⟨g, he, rfl⟩ := Option.map_eq_some_iff.1 henc
    simp [decode, unpack_pack, decodeFields_encode hl he, hx]
  · obtain ⟨hwf, he⟩ := encodeFields_of_decodeFields hdec
    exact ⟨hwf, by simp [encode, he, pack_unpack]⟩

end Sys2Proof
end

section
/-!
SUPPORT. What the record of a debug stop leaves alone (R271, R409–R411), the wave that a trap at issue makes (R106, R210), and
the common course of an issue whose queue ports are misused (R65, R209, R239, R245).
-/

namespace Sys2Proof.Machine

open Sys2Proof.Claims

/-! ### Records written to memory -/

/-- The waves, their groups, their accesses and the trap vectors are as they were. -/
structure KeepsWaves (s t : State) : Prop where
  waves : t.waves = s.waves
  groups : t.groups = s.groups
  accs : t.accs = s.accs
  tvec : ∀ p, (t.part p).tvec = (s.part p).tvec

section
variable {s t u : State}

theorem keepsWaves_refl (s : State) : KeepsWaves s s := ⟨rfl, rfl, rfl, fun _ => rfl⟩

theorem KeepsWaves.trans (h : KeepsWaves s t) (h' : KeepsWaves t u) : KeepsWaves s u :=
  ⟨h'.waves.trans h.waves, h'.groups.trans h.groups, h'.accs.trans h.accs, fun p => (h'.tvec p).trans (h.tvec p)⟩

theorem KeepsWaves.wave? (h : KeepsWaves s t) (k : WaveId) : t.wave? k = s.wave? k := by
  rw [State.wave?, h.waves, State.wave?]

theorem keepsWaves_foldl {α : Type} {f : State → α → State} (hf : ∀ s x, KeepsWaves s (f s x)) (l : List α) (s : State) :
    KeepsWaves s (l.foldl f s) := by
  induction l generalizing s with
  | nil => exact keepsWaves_refl s
  | cons x l ih => exact (hf s x).trans (ih (f s x))

theorem keepsWaves_slcTouch (s : State) (ways pa : Nat) (own : Bool) : KeepsWaves s (s.slcTouch ways pa own) := by
  obtain ⟨_, _, _, _, _, _, h⟩ := served_iff.1 (served_slcTouch s ways pa own)
  rw [h]
  exact ⟨rfl, rfl, rfl, fun _ => rfl⟩

theorem keepsWaves_wrBytes (s : State) (pa : Nat) (bs : List Byte) : KeepsWaves s (s.wrBytes pa bs) :=
  ⟨State.wrBytes_waves s pa bs, State.wrBytes_groups s pa bs, State.wrBytes_accs s pa bs, fun p => by simp [State.part]⟩

theorem keepsWaves_slcWrite (s : State) (ways pa : Nat) (bs : List Byte) : KeepsWaves s (s.slcWrite ways pa bs) := by
  have h := engineAt_slcWrite s ways pa bs
  unfold EngineAt at h
  exact ⟨by rw [h], (slcWrite_cores_groups s ways pa bs).2, by rw [h], fun p => by rw [h]; rfl⟩

theorem keepsWaves_merge (s : State) (x : Snoop) : KeepsWaves s (s.merge x) := by
  have given : KeepsWaves s { s with snoop := s.snoop.filter fun y => y ≠ x } := ⟨rfl, rfl, rfl, fun _ => rfl⟩
  have answered (t : State) : KeepsWaves t (t.flipAnswered x.host x.line) := ⟨rfl, rfl, rfl, fun _ => rfl⟩
  simp only [State.merge]
  split
  · exact (given.trans (keepsWaves_slcWrite ..)).trans (answered _)
  · exact given.trans (answered _)

theorem keepsWaves_reclaim (s : State) (pa : Nat) (write : Bool) : KeepsWaves s (s.reclaim pa write) := by
  have asked : KeepsWaves s (s.ask pa write) := ⟨rfl, rfl, rfl, fun _ => rfl⟩
  exact asked.trans (keepsWaves_foldl keepsWaves_merge _ _)

theorem keepsWaves_wrOut (s : State) (ways pa : Nat) (bs : List Byte) : KeepsWaves s (s.wrOut ways pa bs) :=
  (keepsWaves_foldl (fun s x => (keepsWaves_reclaim s x true).trans (keepsWaves_slcTouch _ ways x true)) _ s).trans
    (keepsWaves_wrBytes ..)

theorem keepsWaves_msix (s : State) (vec : Nat) : KeepsWaves s (s.msix vec) := by
  unfold State.msix
  repeat' split
  all_goals exact ⟨rfl, rfl, rfl, fun _ => rfl⟩

theorem part_modPart_of_keeps {α : Type} (fld : Part → α) {f : Part → Part} (hf : ∀ d, fld (f d) = fld d) (s : State)
    (p q : Nat) : fld ((s.modPart p f).part q) = fld (s.part q) := by
  simp only [State.part, State.modPart_parts, List.getD_eq_getElem?_getD, List.getElem?_modify]
  cases s.parts[q]? with
  | none => rfl
  | some d => by_cases h : p = q <;> simp [h, hf]

theorem keepsWaves_modPart {f : Part → Part} (hf : ∀ d, (f d).tvec = d.tvec) (s : State) (p : Nat) :
    KeepsWaves s (s.modPart p f) :=
  ⟨rfl, rfl, rfl, part_modPart_of_keeps Part.tvec hf s p⟩

theorem keepsWaves_dsDrain (s : State) (p fuel : Nat) : KeepsWaves s (s.dsDrain p fuel) := by
  induction fuel generalizing s with
  | zero => exact keepsWaves_refl s
  | succ n ih =>
    simp only [State.dsDrain]
    split
    · exact keepsWaves_refl s
    · split
      · refine .trans ?_ (ih _)
        split
        · exact ((keepsWaves_wrOut ..).trans (keepsWaves_modPart (by intro; rfl) _ p)).trans (keepsWaves_msix ..)
        · exact (keepsWaves_wrOut ..).trans (keepsWaves_modPart (by intro; rfl) _ p)
      · exact keepsWaves_refl s

theorem keepsWaves_dsPost (s : State) (w : Wave) (d : Due) (kind : Nat) : KeepsWaves s (s.dsPost w d kind) := by
  simp only [State.dsPost]
  split
  · exact (keepsWaves_modPart (by intro; rfl) s _).trans (keepsWaves_dsDrain ..)
  · exact keepsWaves_refl s

end

/-! ### A trap at issue -/

/-- A wave that takes a trap at issue with a cause of at most `k`: in its handler, with its registers, predicates, ports and
flags as they were, and with the instruction as return PC (R106, R209, R210). -/
structure TrapsAtIssue (s : State) (w : Wave) (k : Nat) (t : State) (w' : Wave) : Prop where
  there : t.wave? w.id = some w'
  handler : w'.handler = .trap
  cause : w'.tr.cause ≤ k
  tepc : w'.tr.tepc = w.pc
  pc : w'.pc = (s.part w.grp.part).tvec
  regs : w'.v = w.v ∧ w'.s = w.s ∧ w'.p = w.p
  ports : w'.q = w.q
  flags : w'.flags = w.flags
  groups : t.groups = s.groups
  accs : t.accs = s.accs

section
variable {s r : State} {w : Wave}

/-- A trap with a usable TVEC, outside a handler, after a record that keeps the waves. -/
theorem trapAt_enters (hr : KeepsWaves s r) (hw : s.wave? w.id = some w) (hh : w.handler = .none)
    (hv : tvecOk (s.part w.grp.part).tvec = true) {j k : Nat} (hj : j ≤ k) (tv : W64) :
    ∃ w', TrapsAtIssue s w k (r.trapAt w j w.pc tv) w' := by
  have htv := hr.tvec w.grp.part
  have hk : r.trapKill w = none := by simp [State.trapKill, hh, htv, hv]
  simp only [State.trapAt, hk, htv]
  exact ⟨_, {
    there := wave?_modWave_same (fun _ => rfl) ((hr.wave? w.id).trans hw)
    handler := rfl
    cause := hj
    tepc := rfl
    pc := rfl
    regs := ⟨rfl, rfl, rfl⟩
    ports := rfl
    flags := rfl
    groups := hr.groups
    accs := hr.accs }⟩

/-- What a check is once it has met a cause: a trap of that cause or a lower one, with the record of a stop or without. -/
theorem meet_cases (c : Chk) (k : Nat) (tv : W64) :
    ∃ j ≤ k, ∃ v, c.meet k tv = .trap j v ∨ ∃ d, c.meet k tv = .trapRec j v d := by
  cases c with
  | trap j v =>
    by_cases h : j ≤ k
    · exact ⟨j, h, v, .inl (if_pos h)⟩
    · exact ⟨k, le_rfl, tv, .inl (if_neg h)⟩
  | trapRec j v d =>
    by_cases h : j ≤ k
    · exact ⟨j, h, v, .inr ⟨d, if_pos h⟩⟩
    · exact ⟨k, le_rfl, tv, .inr ⟨d, if_neg h⟩⟩
  | stop d =>
    by_cases h : d.cause = 12
    · exact ⟨k, le_rfl, tv, .inr ⟨d, if_pos h⟩⟩
    · exact ⟨k, le_rfl, tv, .inl (if_neg h)⟩
  | ok | trapNext | park | hold => exact ⟨k, le_rfl, tv, .inl rfl⟩

/-- A check that has met a cause below that of a watchpoint traps. -/
theorem judge_meet (hw : s.wave? w.id = some w) (hh : w.handler = .none) (hv : tvecOk (s.part w.grp.part).tvec = true)
    (i : Instr) (c : Chk) {k n : Nat} (hk : k ≤ n) (hn : n < 12) (tv : W64) :
    ∃ w', TrapsAtIssue s w n (s.judge w i (c.meet k tv) id) w' := by
  obtain ⟨j, hj, v, hc | ⟨d, hc⟩⟩ := meet_cases c k tv
  · rw [hc]
    simp only [State.judge, State.oneshot, show j ≠ 12 by omega, if_false]
    exact trapAt_enters (keepsWaves_refl s) hw hh hv (hj.trans hk) v
  · rw [hc]
    simp only [State.judge, State.oneshot, show j ≠ 12 by omega, if_false]
    exact trapAt_enters (keepsWaves_dsPost ..) hw hh hv (hj.trans hk) v

end

/-! ### An issue that misuses a port -/

/-- The causes of an instruction that misuses a port: its own, where its address can be read, cause 7, and cause 6 where it
would pop a poisoned entry (R209, R239, R245). -/
def misuseChk (s : State) (w : Wave) (i : Instr) (u : Bool) (chk : State → Env → Chk) (n : BitVec 4) : Chk :=
  let e := mkEnv s w u i
  let c := (if addrPops w i (s.cyc w.id.core) then ownerChk e u (chk s.unheld e) else .ok).meet 7 (portVal n)
  match popPoison e with
  | some va => c.meet 6 va
  | none => c

section
variable {s : State} {w : Wave} {i : Instr} {h : Hdr} {u : Bool} {chk : State → Env → Chk} {eff : Env → State → State}
  {n : BitVec 4}

theorem issue_misuse (hw : s.wave? s.cur = some w) (hl : w.life = .live) (hf : i.fits w.allot = true)
    (hq : queueMisuse w i (s.cyc w.id.core) = some n) :
    issue i h u chk eff s = .next (s.judge w i (misuseChk s w i u chk n) id) := by
  cases hp : popPoison (mkEnv s w u i) <;> simp [issue, hw, hl, hf, hq, misuseChk, hp]

/-- The entries popped are those of any environment of the instruction at its slot. -/
theorem misuseChk_of_poison {va : W64} (hp : popPoison (envOf s w i false) = some va)
    (ha : addrPops w i (s.cyc w.id.core) = false) : misuseChk s w i u chk n = .trap 6 va := by
  have hp' : popPoison (mkEnv s w u i) = some va := hp
  simp [misuseChk, hp', ha, Chk.meet]

theorem misuseChk_of_sound (hp : popPoison (envOf s w i false) = none) (ha : addrPops w i (s.cyc w.id.core) = false) :
    misuseChk s w i u chk n = .trap 7 (portVal n) := by
  have hp' : popPoison (mkEnv s w u i) = none := hp
  simp [misuseChk, hp', ha, Chk.meet]

theorem judge_misuse (hw : s.wave? w.id = some w) (hh : w.handler = .none) (hv : tvecOk (s.part w.grp.part).tvec = true) :
    ∃ w', TrapsAtIssue s w 7 (s.judge w i (misuseChk s w i u chk n) id) w' := by
  simp only [misuseChk]
  split
  · exact judge_meet (k := 6) (n := 7) hw hh hv i _ (by decide) (by decide) _
  · exact judge_meet (k := 7) (n := 7) hw hh hv i _ le_rfl (by decide) _

end

/-- The meaning of `i` has the common course of an issue. -/
def HasCourse (i : Instr) : Prop := ∃ h u chk eff, ∀ s, exec i s = issue i h u chk eff s

theorem hasCourse_of {i : Instr} {h : Hdr} {u : Bool} {chk : State → Env → Chk} {eff : Env → State → State}
    (hx : ∀ s, exec i s = issue i h u chk eff s) : HasCourse i :=
  ⟨h, u, chk, eff, hx⟩

/-- Every instruction with an encoding but PREF has the common course of an issue. -/
theorem hasCourse {i : Instr} (henc : (encode i).isSome = true) (hp : ∀ h o, i ≠ .pref h o) :
    HasCourse i := by
  cases i with
  | nop | exit | waitc | yield | sleep | xvi | exset | csrr | csrw | plog | pmov | pack6 | lds | sts | bwait | btest
  | atom | red | fence | qstat | link | unlink | cpy | hcancel | rast | texq | launchEnq | launchCancel | setpri
  | trap | trapret =>
    exact hasCourse_of fun s => by
      simp only [exec]
      rfl
  | bra | bz | bnz | call | ret | jmpi =>
    exact hasCourse_of fun s => by
      simp only [exec, execBra, execBz, execBnz, execCall, execRet, execJmpi, transfer]
      rfl
  | exitSucc | sldkArg | sldkConst | cvt | barinit | arrive | waita | ldg | stg | qdrop | tex | blend | dbgbrk =>
    exact hasCourse_of fun s => by
      simp only [exec, execExitSucc, execSldkArg, execSldkConst, execCvt, execBarinit, execArrive, execWaita,
        execLdg, execStg, execQdrop, execTex, execBlend, execDbgbrk]
      rfl
  | exget | pmask | gettime =>
    exact hasCourse_of fun s => by
      simp only [exec, execExget, execPmask, execGettime, scalarPair]
      rfl
  | vadd | vsub | vmul | vmulh | vmad | vmin | vmax | vabsd =>
    exact hasCourse_of fun s => by
      simp only [exec, execVadd, execVsub, execVmul, execVmulh, execVmad, execVmin, execVmax, execVabsd, alu3]
      rfl
  | vand | vor | vxor =>
    exact hasCourse_of fun s => by
      simp only [exec, execVand, execVor, execVxor, aluBits]
      rfl
  | vshl | vshr | vsra | vbfe | vbfi =>
    exact hasCourse_of fun s => by
      simp only [exec, execVshl, execVshr, execVsra, execVbfe, execVbfi, aluB]
      rfl
  | vadds | vsel | vmov | vmovi | vbint | frnd | qnt | unpack6 | mxsc =>
    exact hasCourse_of fun s => by
      simp only [exec, execVadds, execVsel, execVmov, execVmovi, execVbint, execFrnd, execQnt, execUnpack6, execMxsc,
        mould]
      rfl
  | vclz | vpopc | vbdei =>
    exact hasCourse_of fun s => by
      simp only [exec, execVclz, execVpopc, execVbdei, aluCount]
      rfl
  | vcmp | fcmp =>
    exact hasCourse_of fun s => by
      simp only [exec, execVcmp, execFcmp, mouldP]
      rfl
  | fadd | fsub | fmul | ffma =>
    exact hasCourse_of fun s => by
      simp only [exec, execFadd, execFsub, execFmul, execFfma, fp3]
      rfl
  | fmin | fmax =>
    exact hasCourse_of fun s => by
      simp only [exec, execFmin, execFmax, fpMinMax]
      rfl
  | hadd2 | hmul2 | hfma2 =>
    exact hasCourse_of fun s => by
      simp only [exec, execHadd2, execHmul2, execHfma2, hmould]
      rfl
  | frcp | frsq | fsqrt | fex2 | flg2 | fsin | fcos | ftanh =>
    exact hasCourse_of fun s => by
      simp only [exec, execFrcp, execFrsq, execFsqrt, execFex2, execFlg2, execFsin, execFcos, execFtanh, special]
      rfl
  | sattst | satclr | satarm =>
    exact hasCourse_of fun s => by
      simp only [exec, execSattst, execSatclr, execSatarm, satInstr]
      rfl
  | shfl | rdlane | wrlane | vred | vscan | vmatch =>
    exact hasCourse_of fun s => by
      simp only [exec, execShfl, execRdlane, execWrlane, execVred, execVscan, execVmatch, crossLane]
      rfl
  | atoms | reds =>
    exact hasCourse_of fun s => by
      simp only [exec, execAtoms, execReds, spAtomic]
      rfl
  | cctlInv | cctlClean | cctlCleaninv =>
    exact hasCourse_of fun s => by
      simp only [exec, execCctlInv, execCctlClean, execCctlCleaninv, cctl]
      rfl
  | tmma | tzero | gprog =>
    exact hasCourse_of fun s => by
      simp only [exec, execTmma, execTzero, execGprog, command]
      rfl
  | tdrainSt | tdrainAddst =>
    exact hasCourse_of fun s => by
      simp only [exec, execTdrainSt, execTdrainAddst, tdrain]
      rfl
  | htest | hwait =>
    exact hasCourse_of fun s => by
      simp only [exec, execHtest, execHwait, handleRead]
      rfl
  | rbox | rtri | rhint | rhset =>
    exact hasCourse_of fun s => by
      simp only [exec, execRbox, execRtri, execRhint, execRhset, rayOp]
      rfl
  | faultretRetry | faultretSkip | faultretEmul =>
    exact hasCourse_of fun s => by
      simp only [exec, execFaultretRetry, execFaultretSkip, execFaultretEmul, faultret]
      rfl
  | pref h o => exact absurd rfl (hp h o)
  | _ => exact absurd henc nofun

/-! ### PREF -/

section
variable {s : State} {w : Wave} {h : Hdr} {o : PrefOp}

theorem pref_unfit (hw : s.wave? s.cur = some w) (hl : w.life = .live) (hf : (Instr.pref h o).fits w.allot = false) :
    exec (.pref h o) s = .next (s.trapAt w 0 w.pc (wordVal (.pref h o))) := by
  simp [exec, execPref, hw, hf, issue_unfit hw hl hf]

/-- The environment of a PREF that is dropped, which pops nothing. -/
def dropEnv (s : State) (w : Wave) (h : Hdr) (o : PrefOp) : Env := { mkEnv s w false (.pref h o) with id := .nop h false }

theorem pref_misuse {n : BitVec 4} (hw : s.wave? s.cur = some w) (hl : w.life = .live)
    (hf : (Instr.pref h o).fits w.allot = true) (hq : queueMisuse w (.pref h o) (s.cyc w.id.core) = some n) :
    exec (.pref h o) s = .next (done1 (mkEnv s w false (.pref h o)) h (s.enter w (dropEnv s w h o) h)) := by
  have hq' : queueMisuse w (.pref h o) (mkEnv s w false (.pref h o)).c0 = some n := hq
  simp [exec, execPref, hw, hl, hf, hq', dropEnv]

end

end Sys2Proof.Machine
end

section
/-! Operands outside the allotment and misused ports: the statement about them, and its proof. -/

namespace Sys2Proof.Machine

open Sys2Proof.Claims

/-- A dropped PREF issues and does nothing else. -/
theorem pref_dropped {s : State} {w : Wave} {h : Hdr} {o : PrefOp} (hw : s.wave? w.id = some w) :
    let t := done1 (mkEnv s w false (.pref h o)) h (s.enter w (dropEnv s w h o) h)
    ∃ w', t.wave? w.id = some w' ∧ w'.handler = w.handler ∧ w'.tr = w.tr ∧ w'.v = w.v ∧ w'.s = w.s ∧ w'.p = w.p ∧
      w'.pc = (if w.inPath then w.pc else w.pc + 12) ∧ t.accs = s.accs ∧ t.l1 = s.l1 := by
  have hen := enter_wave? (e := dropEnv s w h o) (h := h) hw
  refine ⟨_, wave?_modWave_same (fun x => ?_) hen, ?_⟩
  · rw [decSf_id]; rfl
  · rw [add_decSf_pend, entered_frame]
    exact ⟨rfl, rfl, rfl, rfl, rfl, rfl, rfl, rfl⟩

/-- Settles O58: a PREF on its own, and for every other instruction the common course of an issue, whose checks come before
its effect. -/
theorem operandTraps : Obligations.OperandTraps := by
  intro s w i hw hl henc
  have hid : s.wave? w.id = some w := by rw [wave?_id hw, hw]
  by_cases hp : ∃ h o, i = .pref h o
  · obtain ⟨h, o, rfl⟩ := hp
    refine ⟨pref_unfit hw hl, fun n hf hq => ⟨fun h' o' heq => ?_, fun hne => absurd rfl (hne h o)⟩⟩
    cases heq
    obtain ⟨w', hdrop⟩ := pref_dropped (h := h) (o := o) hid
    exact ⟨_, w', pref_misuse hw hl hf hq, hdrop⟩
  · have hne : ∀ h o, i ≠ .pref h o := fun h o heq => hp ⟨h, o, heq⟩
    obtain ⟨h, u, chk, eff, hx⟩ := hasCourse henc hne
    refine ⟨fun hf => (hx s).trans (issue_unfit hw hl hf), fun n hf hq => ⟨fun h o heq => absurd heq (hne h o), fun _ => ?_⟩⟩
    have hexec : exec i s = .next (s.judge w i (misuseChk s w i u chk n) id) := (hx s).trans (issue_misuse hw hl hf hq)
    refine ⟨fun ha => ⟨fun hpo => ?_, fun va hpo => ?_⟩, fun hh hv => ?_⟩
    · rw [hexec, misuseChk_of_sound hpo ha]
      rfl
    · rw [hexec, misuseChk_of_poison hpo ha]
      rfl
    · obtain ⟨w', ht⟩ := judge_misuse (i := i) (u := u) (chk := chk) (n := n) hid hh hv
      obtain ⟨hv', hs, hp'⟩ := ht.regs
      exact ⟨_, w', hexec, ht.there, ht.handler, ht.cause, ht.tepc, ht.pc, hv', hs, hp', ht.ports, ht.flags, ht.groups,
        ht.accs⟩

end Sys2Proof.Machine
end

section
/-!
SUPPORT. Accesses of memory: what leaves, performs and ends them (R238, R243–R246, R372).
-/

namespace Sys2Proof.Machine

open Sys2Proof.Claims

section
variable {s : State} {id : Nat} {a : Acc}

theorem acc?_id (h : s.acc? id = some a) : a.id = id := by
  simpa using List.find?_some h

/-- A change of one access that keeps its number, as its number finds it. -/
theorem acc?_modAcc {f : Acc → Acc} (hf : ∀ x, (f x).id = x.id) (h : s.acc? id = some a) :
    (s.modAcc id f).acc? id = some (f a) := by
  have := find?_upd (fun x : Acc => decide (x.id = id)) (fun x => decide (x.id = id)) f (by simp [hf]) s.accs
  simpa [State.acc?, State.modAcc, h, acc?_id h, show s.accs.find? (fun x => x.id = id) = some a from h] using this

/-! ### Leaving the core -/

theorem leave_of_left (ha : s.acc? id = some a) (hl : a.left.isSome ∨ a.op.writes = false) : s.leave id = s := by
  have stays : (a.left.isSome || !a.op.writes) = true := by
    rcases hl with h | h <;> simp [h]
  simp [State.leave, ha, stays]

/-- What an access does to its core's L1 as it leaves changes nothing else. -/
theorem leave_l1 (a : Acc) (ls : List Lane) (t : State) : ∃ l1, ls.foldl (fun s l =>
      if a.op = .store then s.l1Store a.w.core l.pa (leBytes (sizeOf' a.tag) l.data.toNat)
      else s.l1Drop a.w.core (l.pa / 128)) t = { t with l1 := l1 } := by
  induction ls generalizing t with
  | nil => exact ⟨t.l1, rfl⟩
  | cons l ls ih =>
    obtain ⟨l1, h⟩ := ih (if a.op = .store then t.l1Store a.w.core l.pa (leBytes (sizeOf' a.tag) l.data.toNat)
      else t.l1Drop a.w.core (l.pa / 128))
    refine ⟨l1, h.trans ?_⟩
    split <;> rfl

/-- An access that may leave takes the next number. -/
theorem leave_leaves (ha : s.acc? id = some a) (hw : a.op.writes = true) (hl : a.left = none) (hredo : a.redo = false)
    (hready : a.ready ≤ s.cyc a.w.core) (ho : s.orderOk a = true) : ∃ l1, s.leave id =
      { s.modAcc id fun x => { x with left := some s.nextSeq } with nextSeq := s.nextSeq + 1, l1 := l1 } := by
  obtain ⟨l1, h⟩ := leave_l1 a a.lanes
    ({ s with nextSeq := s.nextSeq + 1 }.modAcc id fun x => { x with left := some s.nextSeq })
  refine ⟨l1, ?_⟩
  simp only [State.leave, ha, hw, hl, hredo, ho, Nat.not_lt.2 hready]
  simpa using h

/-! ### Performing lanes -/

theorem perform_marks (s : State) (a : Acc) (l : Lane) : (s.perform a l).1.perf = true ∧ (s.perform a l).1.t = l.t := by
  unfold State.perform
  split
  case h_1 | h_2 | h_3 | h_4 | h_5 => split <;> exact ⟨rfl, rfl⟩
  case h_7 | h_8 => dsimp only; split <;> exact ⟨rfl, rfl⟩
  all_goals exact ⟨rfl, rfl⟩

/-- The lanes of a thread are the one that was set. -/
theorem lane_setLane {l x : Lane} {b : Acc} (hb : (s.setLane id l).acc? id = some b) (hx : x ∈ b.lanes) (ht : x.t = l.t) :
    x = l := by
  have hid := acc?_id hb
  obtain ⟨y, -, rfl⟩ := List.mem_map.1 (List.mem_of_find?_eq_some hb)
  have hy : y.id = id := by
    by_contra hne
    simp [hne] at hid
  simp only [hy, decide_true, if_true, upd, List.mem_map] at hx
  obtain ⟨z, -, rfl⟩ := hx
  by_cases hz : z.t = l.t
  · simp [hz]
  · simp [hz] at ht

theorem unpoison_eq (s : State) (id line : Nat) : ∃ p, s.unpoison id line = { s with poison := p } := by
  unfold State.unpoison
  split
  · exact ⟨_, rfl⟩
  · dsimp only
    split <;> exact ⟨_, rfl⟩

theorem performReady_one {l : Lane} (ha : s.acc? id = some a) (hl : s.laneReady a l = true) :
    s.performReady id [l] = ((s.perform a l).2.setLane id (s.perform a l).1).unpoison id (l.pa / 128) := by
  simp [State.performReady, ha, hl]

theorem performReady_barred {ls : List Lane} (ha : s.acc? id = some a) (hl : ∀ l ∈ ls, s.laneFree a l = false) :
    s.performReady id ls = s := by
  induction ls with
  | nil => rfl
  | cons l ls ih =>
    have barred : s.laneFree a l = false := hl l (List.mem_cons_self ..)
    simp only [State.performReady, ha, State.laneReady, barred]
    exact ih fun x hx => hl x (List.mem_cons_of_mem _ hx)

/-- Nothing is left to perform of an access, or nothing of it may be performed. -/
theorem performAll_self (ha : s.acc? id = some a) (hl : a.left.isSome ∨ a.op.writes = false)
    (hp : a.performed = true ∨ ∀ l ∈ a.lanes, s.laneFree a l = false) : s.performAll id = s := by
  simp only [State.performAll, leave_of_left ha hl, ha]
  rcases hp with hp | hp
  · rw [if_pos hp]
  · rw [performReady_barred ha hp, ite_self]

theorem sliceAluPerform_performs {t : Nat} {l : Lane} (ha : s.acc? id = some a) (hsp : a.op.sp = false)
    (hl : a.lanes.find? (fun x => x.t = t) = some l) (hr : s.laneReady a l = true) :
    exec (.sliceAluPerform id t) s =
      .next (((s.perform a l).2.setLane id (s.perform a l).1).unpoison id (l.pa / 128)) := by
  have left : a.left.isSome ∨ a.op.writes = false := by
    by_cases hw : a.op.writes = true
    · simp [State.laneReady, State.laneFree, hw] at hr
      exact .inl (by simp [hr])
    · exact .inr (by simpa using hw)
  simp only [exec, execSliceAluPerform, ha, hsp, hl, leave_of_left ha left, performReady_one ha hr]
  rfl

/-! ### Ending -/

/-- The lines that an acquire leaves in the L1s: the state in which its access ends. -/
theorem acquired_eq (s : State) (a : Acc) :
    s.acquired a = if a.ord = .acq ∨ a.ord = .ar then s.l1Acquire a.grp a.w.core a.sco else s := by
  simp [State.acquired]

theorem ripe_of {k : AccOp → Bool} (ha : s.acc? id = some a) (hready : a.ready ≤ s.cyc a.w.core) (hredo : a.redo = false)
    (him : (s.part a.grp.part).imaged = false) (hports : s.portsFree a = true) (hk : k a.op = true) :
    s.ripe id k = some a := by
  simp [State.ripe, ha, hready, hredo, him, hports, hk]

theorem ripe_imaged (ha : s.acc? id = some a) (him : (s.part a.grp.part).imaged = true) (k : AccOp → Bool) :
    s.ripe id k = none := by
  simp [State.ripe, ha, him]

/-- What an access of a kind that may complete is. -/
theorem ripe_some {k : AccOp → Bool} (h : s.ripe id k = some a) : s.acc? id = some a ∧ k a.op = true ∧
    a.ready ≤ s.cyc a.w.core ∧ a.redo = false ∧ (s.part a.grp.part).imaged = false ∧ s.portsFree a = true := by
  unfold State.ripe at h
  split at h
  · cases h
  · next b hb =>
    split at h
    · next hc =>
      cases h
      simp only [Bool.and_eq_true, Bool.not_eq_true', decide_eq_true_eq] at hc
      obtain ⟨⟨⟨⟨hk, hready⟩, hredo⟩, him⟩, hports⟩ := hc
      exact ⟨hb, hk, hready, hredo, him, hports⟩
    · cases h

end

/-! ### The events that end an access -/

/-- An access of memory that may end in this cycle once its lanes are performed. -/
structure MayEnd (s : State) (id : Nat) (a : Acc) : Prop where
  found : s.acc? id = some a
  ready : a.ready ≤ s.cyc a.w.core
  redo : a.redo = false
  taken : (s.part a.grp.part).imaged = false
  ports : s.portsFree a = true
  left : a.left.isSome ∨ a.op.writes = false

section
variable {s : State} {id : Nat} {a : Acc}

theorem MayEnd.ripe (h : MayEnd s id a) {k : AccOp → Bool} (hk : k a.op = true) : s.ripe id k = some a :=
  ripe_of h.found h.ready h.redo h.taken h.ports hk

theorem MayEnd.performAll (h : MayEnd s id a) (hp : a.performed = true) : s.performAll id = s :=
  performAll_self h.found h.left (.inl hp)

theorem loadDone_sound (hp : a.poisoned = none) : s.loadDone a = ended (s.acquired a) a a.loadPuts := by
  simp only [State.loadDone, hp]
  rfl

theorem loadDone_poisoned {va : W64} (hp : a.poisoned = some va) :
    s.loadDone a = (ended (s.acquired a) a []).modUid a.uid fun w =>
      if w.life = .exited then w else { w with due := w.due ++ [⟨6, va, none, 0⟩] } := by
  simp only [State.loadDone, hp]
  rfl

theorem lanes_of_poisoned {va : W64} (hp : a.poisoned = some va) : a.lanes ≠ [] := by
  intro h
  simp [Acc.poisoned, h] at hp

theorem MayEnd.load (h : MayEnd s id a) (hp : a.performed = true) (hop : a.op = .load ∨ ∃ op, a.op = .atom op)
    (hd : ∀ n wide, a.dst ≠ .q n wide) : exec (.globalLoadComplete id) s = .next (s.loadDone a) := by
  change execGlobalLoadComplete id s = _
  rw [execGlobalLoadComplete, h.ripe]
  · simp only [h.performAll hp, h.found, hp, if_true]
  · rcases hop with hop | ⟨op, hop⟩ <;> simp [hop]

theorem MayEnd.sldk (h : MayEnd s id a) (hp : a.performed = true) (hop : a.op = .sldk) :
    exec (.sldkComplete id) s = .next (if a.lanes.isEmpty then s.complete a a.puts else s.loadDone a) := by
  change execSldkComplete id s = _
  rw [execSldkComplete, h.ripe (by simp [hop])]
  simp only [h.performAll hp, h.found, hp, if_true]

/-- The entry of a queue as a load or atomic leaves it when it arrives (R238, R245). -/
def Acc.arrives (a : Acc) (now n : Nat) (w : Wave) : Wave :=
  if w.life = .exited then w
  else { w with q := w.q.modify n fun q => q.arrive a.id now (a.lanes.foldl (fun m l => m.set l.t l.res) []) a.poisoned }

theorem MayEnd.entry (h : MayEnd s id a) (hp : a.performed = true) (hop : a.op = .load ∨ ∃ op, a.op = .atom op)
    {n : Nat} {wide : Bool} (hd : a.dst = .q n wide) : exec (.entryArrive id) s =
      .next ((ended (s.acquired a) a []).modUid a.uid (a.arrives ((s.acquired a).cyc a.w.core) n)) := by
  change execEntryArrive id s = _
  rw [execEntryArrive, h.ripe]
  · simp only [hd, h.performAll hp, h.found, hp, if_true]
    rfl
  · rcases hop with hop | ⟨op, hop⟩ <;> simp [hop]

/-- A store or reduction that has been performed at its slice is outstanding no more, its flag counted down by now. -/
theorem MayEnd.store (h : MayEnd s id a) (hp : a.performed = true) (hop : a.op = .store ∨ ∃ op, a.op = .red op)
    (hn : a.nearStore = false ∨ a.told = true) :
    exec (.globalStorePerformed id) s = .next (if a.told then s.dropAcc id else s.complete a []) := by
  have later : (a.nearStore && !a.told) = false := by
    rcases hn with hn | hn <;> simp [hn]
  change execGlobalStorePerformed id s = _
  rw [execGlobalStorePerformed, h.ripe]
  · simp only [later, h.performAll hp, h.found, hp, if_true]
    rfl
  · rcases hop with hop | ⟨op, hop⟩ <;> simp [hop]

/-- A store at .wave or .grp that has left its core counts its flag down. -/
theorem MayEnd.tells (h : MayEnd s id a) (hop : a.op = .store) (hs : scopeFar a.sco = false) (ht : a.told = false) :
    exec (.globalStorePerformed id) s = .next { ended s a [] with
      accs := upd (fun x => x.id = id) (fun x => { x with told := true }) s.accs } := by
  have near : (a.nearStore && !a.told) = true := by
    simp [Acc.nearStore, hop, hs, ht]
  have left : a.left.isSome = true := by
    rcases h.left with hl | hl
    · exact hl
    · simp [hop, AccOp.writes] at hl
  change execGlobalStorePerformed id s = _
  rw [execGlobalStorePerformed, h.ripe (by simp [hop])]
  simp only [near, leave_of_left h.found h.left, h.found, left, if_true]
  rfl

/-- A reduction of which nothing may be performed waits. -/
theorem MayEnd.red_waits (h : MayEnd s id a) (hop : ∃ op, a.op = .red op) (hp : a.performed = false)
    (hl : ∀ l ∈ a.lanes, s.laneFree a l = false) : exec (.globalStorePerformed id) s = .next s := by
  obtain ⟨op, hop⟩ := hop
  have far : (a.nearStore && !a.told) = false := by
    simp [Acc.nearStore, hop]
  change execGlobalStorePerformed id s = _
  rw [execGlobalStorePerformed, h.ripe (by simp [hop])]
  simp only [far, performAll_self h.found h.left (.inr hl), h.found, hp]
  rfl

theorem imaged_waits (ha : s.acc? id = some a) (him : (s.part a.grp.part).imaged = true) :
    exec (.globalLoadComplete id) s = .next s ∧ exec (.sldkComplete id) s = .next s ∧ exec (.entryArrive id) s = .next s ∧
      exec (.globalStorePerformed id) s = .next s := by
  simp only [exec, execGlobalLoadComplete, execSldkComplete, execEntryArrive, execGlobalStorePerformed, ripe_imaged ha him]
  exact ⟨trivial, trivial, trivial, trivial⟩

/-- A store at .wave or .grp whose order allows it leaves its core and counts its flag down at once. -/
theorem store_leaves (hr : s.ripe id (· = .store) = some a) (hs : scopeFar a.sco = false) (ht : a.told = false)
    (hl : a.left = none) (ho : s.orderOk a = true) : ∃ l1, exec (.globalStorePerformed id) s = .next { ended s a [] with
      accs := upd (fun x => x.id = id) (fun x => { x with told := true })
        (s.modAcc id fun x => { x with left := some s.nextSeq }).accs
      nextSeq := s.nextSeq + 1, l1 := l1 } := by
  obtain ⟨ha, hk, hready, hredo, him, hports⟩ := ripe_some hr
  have hop : a.op = .store := by simpa using hk
  have near : (a.nearStore && !a.told) = true := by
    simp [Acc.nearStore, hop, hs, ht]
  obtain ⟨l1, hleave⟩ := leave_leaves ha (by simp [hop, AccOp.writes]) hl hredo hready ho
  refine ⟨l1, ?_⟩
  have found := acc?_modAcc (f := fun x => { x with left := some s.nextSeq }) (fun _ => rfl) ha
  have found' : (s.leave id).acc? id = some { a with left := some s.nextSeq } := by
    rw [hleave]
    exact found
  change execGlobalStorePerformed id s = _
  rw [execGlobalStorePerformed, ripe_of ha hready hredo him hports (by simp [hop])]
  simp only [near, found', if_true, Option.isSome_some]
  rw [hleave]
  rfl

end

end Sys2Proof.Machine
end

section
/-! Accesses of memory: the statement about their performing and their ends, and its proof. -/

namespace Sys2Proof.Machine

open Sys2Proof.Claims

section
variable {s : State} {id : Nat} {a : Acc}

/-- What the lanes of a load into registers put there, and the entry of one into a queue. -/
theorem loadPuts_eq : (∀ r wide, a.dst = .v r wide → a.loadPuts = putV wide r (a.lanes.map fun l => (l.t, l.res))) ∧
    (∀ r wide l, a.dst = .s r wide → a.lanes = [l] → a.loadPuts = putS wide r l.res) ∧
    (∀ r wide l x ls, a.dst = .s r wide → a.lanes = l :: x :: ls →
      a.loadPuts = putS wide r (BitVec.ofNat 64 (leNat (a.lanes.map fun l => l.res.truncate 8)))) := by
  refine ⟨fun r wide hd => ?_, fun r wide l hd hl => ?_, fun r wide l x ls hd hl => ?_⟩
  · simp only [Acc.loadPuts, hd]
  · simp [Acc.loadPuts, hd, hl]
  · simp [Acc.loadPuts, hd, hl]

theorem acquired_cyc (s : State) (a : Acc) (core : Nat) : (s.acquired a).cyc core = s.cyc core := by
  unfold State.acquired State.l1Acquire
  split
  · split <;> rfl
  · rfl

end

/-- Settles O20: a ready lane is performed as `State.perform` says, and an access that may end is ended by the event of its
kind. -/
theorem globalPerforms : Obligations.GlobalPerforms := by
  refine ⟨fun s id t a l ha hsp hl hr => ?_, fun s id a ha hready hredo him hports hleft => ?_,
    fun s id a ha him => imaged_waits ha him, fun s id a hr hs ht hl ho => ?_⟩
  · have ht : l.t = t := by simpa using List.find?_some hl
    obtain ⟨p, hp⟩ := unpoison_eq ((s.perform a l).2.setLane id (s.perform a l).1) id (l.pa / 128)
    obtain ⟨hperf, hlane⟩ := perform_marks s a l
    refine ⟨_, sliceAluPerform_performs ha hsp hl hr, by rw [hp]; rfl, fun b hb x hx hxt => ?_⟩
    rw [hp] at hb
    rw [lane_setLane hb hx (by rw [hxt, hlane, ht])]
    exact hperf
  · have h : MayEnd s id a := ⟨ha, hready, hredo, him, hports, hleft⟩
    intro got near s1
    have hs1 : s.acquired a = s1 := acquired_eq s a
    obtain ⟨putsV, putsS, putsB⟩ := loadPuts_eq (a := a)
    refine ⟨fun hp => ⟨fun hsound => ⟨fun r wide hd hgot => ?_, fun r wide l hd hop hls => ?_,
      fun r wide l x ls hd hop hls => ?_⟩, fun hop hls => ?_, fun va hpo => ⟨fun hop => ?_, fun hgot hd => ?_⟩,
      fun n wide hd hgot => ?_, fun hnear ht => ?_, fun hop ht => ?_⟩, fun hnear ht => ?_, fun hop hp hl => ?_⟩
    · rw [h.load hp hgot (by simp [hd]), loadDone_sound hsound, putsV r wide hd, hs1]
    · rw [h.sldk hp hop, loadDone_sound hsound, putsS r wide l hd hls, hs1, hls]
      rfl
    · rw [h.sldk hp hop, loadDone_sound hsound, putsB r wide l x ls hd hls, hs1, hls]
      rfl
    · rw [h.sldk hp hop, hls]
      rfl
    · rw [h.sldk hp hop, loadDone_poisoned hpo, hs1, if_neg (by simpa using lanes_of_poisoned hpo)]
    · rw [h.load hp hgot hd, loadDone_poisoned hpo, hs1]
    · rw [h.entry hp hgot hd, acquired_cyc, hs1]
      rfl
    · rw [h.store hp (.inl hnear.1) (.inr ht), ht]
      rfl
    · have far : a.nearStore = false := by
        rcases hop with ⟨hop, hs⟩ | ⟨op, hop⟩ <;> simp [Acc.nearStore, *]
      rw [h.store hp (hop.imp_left And.left) (.inl far), ht]
      rfl
    · exact ⟨_, h.tells hnear.1 hnear.2 ht, rfl⟩
    · exact h.red_waits hop hp hl
  · obtain ⟨l1, hx⟩ := store_leaves hr hs ht hl ho
    have found := acc?_modAcc (f := fun x => { x with left := some s.nextSeq }) (fun _ => rfl) (ripe_some hr).1
    exact ⟨_, _, hx, rfl, rfl, acc?_modAcc (f := fun x => { x with told := true }) (fun _ => rfl) found, rfl⟩

end Sys2Proof.Machine
end

section
/-!
SUPPORT. Waits that end: the wave as a BWAIT or WAITA leaves it, and what their reads change (R201, R205–R207, R382).
-/

namespace Sys2Proof.Machine

open Sys2Proof.Claims

/-! ### The wave at the end of its wait -/

/-- The predicates once the sticky flags change: a SATTST of the cycle sees them (R177). -/
theorem setSat_eq (w : Wave) (x : Byte) : w.setSat x = { w with sat := x, p := (w.setSat x).p } := by
  have fold : ∀ (l : List (Nat × Byte)) (u : Wave), l.foldl (fun w t => { w with p := w.tstPut t x }) u =
      { u with p := (l.foldl (fun w t => { w with p := w.tstPut t x }) u).p } := by
    intro l
    induction l with
    | nil => exact fun _ => rfl
    | cons t l ih =>
      intro u
      exact ih { u with p := u.tstPut t x }
  exact fold w.tst { w with sat := x }

/-- What the flags' change leaves of the predicates hangs on them, the threads and the SATTSTs of the cycle alone. -/
theorem setSat_p_congr {w u : Wave} (hp : u.p = w.p) (hpr : u.present = w.present) (ht : u.tst = w.tst) (x : Byte) :
    (u.setSat x).p = (w.setSat x).p := by
  have fold : ∀ (l : List (Nat × Byte)) (u w : Wave), u.p = w.p → u.present = w.present →
      (l.foldl (fun w t => { w with p := w.tstPut t x }) u).p = (l.foldl (fun w t => { w with p := w.tstPut t x }) w).p := by
    intro l
    induction l with
    | nil => exact fun _ _ h _ => h
    | cons t l ih =>
      intro u w hp hpr
      exact ih _ _ (by simp only [Wave.tstPut, Wave.satVal, hp, hpr]) hpr
  rw [Wave.setSat, Wave.setSat, ht]
  exact fold w.tst _ _ hp hpr

/-- The predicates of a wave whose wait ends: one is written in every thread that exists. -/
def Wave.waitPred (w : Wave) (pd : BitVec 7) (x : Bool) (sat : Byte) : Sparse 64 :=
  let p := (w.setSat (w.sat ||| sat)).p
  p.set pd.toNat ((p.get pd.toNat &&& ~~~w.present) ||| ((if x then w.present else 0) &&& w.present))

theorem waitPred_congr {w u : Wave} (hp : u.p = w.p) (hpr : u.present = w.present) (ht : u.tst = w.tst)
    (hs : u.sat = w.sat) (pd : BitVec 7) (x : Bool) (sat : Byte) : u.waitPred pd x sat = w.waitPred pd x sat := by
  simp only [Wave.waitPred, hs, hpr, setSat_p_congr hp hpr ht]

theorem satTest_eq (w : Wave) : ∃ ds, w.satTest = { w with due := ds } := by
  simp only [Wave.satTest]
  split <;> exact ⟨_, rfl⟩

/-- What the end of a wait adds to a wave whose predicate and sticky flags it has written. -/
theorem waitTail_eq (u : Wave) (sf : BitVec 4) (now : Nat) (ds : List Due) : ∃ due pend,
    { u.satTest.decSf sf now with wait := .none, notBefore := now + 1, due := u.satTest.due ++ ds } =
      { u with due := due, pend := pend, wait := .none, notBefore := now + 1 } := by
  obtain ⟨due, h⟩ := satTest_eq u
  rw [h, decSf_eq]
  exact ⟨_, _, rfl⟩

/-- A wait that ends writes its predicate and the sticky flags, and nothing else of what a program reads. -/
theorem waitDone_eq (w : Wave) (pd : BitVec 7) (x : Bool) (sat : Byte) (sf : BitVec 4) (now : Nat) (ds : List Due) :
    ∃ due pend, w.waitDone pd x sat sf now ds = { w with
      p := w.waitPred pd x sat, sat := w.sat ||| sat, due := due, pend := pend, wait := .none, notBefore := now + 1 } := by
  obtain ⟨due, pend, h⟩ := waitTail_eq
    ((w.setSat (w.sat ||| sat)).land (.p pd.toNat w.present (if x then w.present else 0))) sf now ds
  have written : ∀ u : Wave, u = { w with sat := w.sat ||| sat, p := u.p } →
      { u.land (.p pd.toNat w.present (if x then w.present else 0)) with
        due := due, pend := pend, wait := .none, notBefore := now + 1 } =
      { w with
        p := u.p.set pd.toNat ((u.p.get pd.toNat &&& ~~~w.present) ||| ((if x then w.present else 0) &&& w.present))
        sat := w.sat ||| sat, due := due, pend := pend, wait := .none, notBefore := now + 1 } := by
    intro u hu
    rw [hu]
    rfl
  exact ⟨due, pend, h.trans (written _ (setSat_eq w _))⟩

/-! ### The state at the end of a wait -/

section
variable {s t : State} {w : Wave}

/-- The wave of a slot waits no more: its predicate and sticky flags are written, and no other wave changes. -/
structure WaitOver (s : State) (w : Wave) (pd : BitVec 7) (x : Bool) (sat : Byte) (t : State) (w' : Wave) : Prop where
  there : t.wave? w.id = some w'
  eq : ∃ due pend next, w' = { w with
    p := w.waitPred pd x sat, sat := w.sat ||| sat, due := due, pend := pend, wait := .none, notBefore := next }
  others : ∀ k, k ≠ w.id → t.wave? k = s.wave? k

theorem waitDone_id (w : Wave) (pd : BitVec 7) (x : Bool) (sat : Byte) (sf : BitVec 4) (now : Nat) (ds : List Due) :
    (w.waitDone pd x sat sf now ds).id = w.id := by
  obtain ⟨_, _, h⟩ := waitDone_eq w pd x sat sf now ds
  rw [h]

theorem waitOver_waitDone {id : WaveId} (hw : s.wave? id = some w) (pd : BitVec 7) (x : Bool) (sat : Byte) (sf : BitVec 4)
    (now : Nat) (ds : List Due) : WaitOver s w pd x sat (s.modWave id fun u => u.waitDone pd x sat sf now ds)
      (w.waitDone pd x sat sf now ds) := by
  obtain rfl := wave?_id hw
  obtain ⟨due, pend, h⟩ := waitDone_eq w pd x sat sf now ds
  exact { there := wave?_modWave_same (fun u => waitDone_id u ..) hw, eq := ⟨due, pend, now + 1, h⟩,
          others := fun k hk => wave?_modWave_other (fun u => waitDone_id u ..) hk }

theorem late_of {d : Option W64} {x time : W64} (hd : d = some x) (hx : x ≤ time) : late d time = true := by
  simp [late, hd, hx]

theorem not_late {d : Option W64} {time : W64} (h : d = none ∨ ∃ x, d = some x ∧ time < x) : late d time = false := by
  rcases h with h | ⟨x, h, hlt⟩
  · simp [late, h]
  · simpa [late, h] using hlt

theorem l1Acquire_eq (s : State) (g : GroupId) (core : Nat) (sco : Scope) :
    ∃ l1, s.l1Acquire g core sco = { s with l1 := l1 } := by
  unfold State.l1Acquire
  split <;> exact ⟨_, rfl⟩

/-! ### Issues that may wait -/

/-- The state of an issue that then waits, and the wave in it. -/
def State.enterWait (s : State) (w : Wave) (e : Env) (h : Hdr) (c : Wait) : State :=
  (s.enter w e h).modWave w.id fun u => { u with wait := c }

def enteredWait (w : Wave) (e : Env) (h : Hdr) (c : Wait) : Wave := { entered w e h with wait := c }

theorem issued_waits (hw : s.wave? w.id = some w) (e : Env) (h : Hdr) (c : Wait) :
    issued s w e h (s.enterWait w e h c) (enteredWait w e h c) :=
  have hen := entered_issued (e := e) (h := h) hw
  { there := wave?_modWave_same (fun _ => rfl) hen.there, pc := hen.pc, prev := hen.prev, flags := hen.flags,
    others := fun k hk =>
      (wave?_modWave_other (f := fun u => { u with wait := c }) (fun _ => rfl) hk).trans (hen.others k hk) }

/-- An issue whose wait ends in its own cycle keeps the marks of an issue. -/
theorem issued_waitOver {e : Env} {h : Hdr} {u w' : Wave} {pd : BitVec 7} {x : Bool} {sat : Byte}
    (hi : issued s w e h t u) {r : State} (ho : WaitOver t u pd x sat r w') : issued s w e h r w' := by
  obtain ⟨due, pend, next, rfl⟩ := ho.eq
  have hid : u.id = w.id := wave?_id hi.there
  exact { there := by rw [← hid]; exact ho.there, pc := hi.pc, prev := hi.prev, flags := hi.flags,
          others := fun k hk => (ho.others k (by rw [hid]; exact hk)).trans (hi.others k hk) }

theorem enteredWait_frame (w : Wave) (e : Env) (h : Hdr) (c : Wait) :
    waveFrame { w with wait := c } (enteredWait w e h c) := by
  unfold waveFrame enteredWait
  conv_lhs => rw [entered_frame]
  rw [entered_frame]

theorem enteredWait_waitPred (w : Wave) (e : Env) (h : Hdr) (c : Wait) (pd : BitVec 7) (x : Bool) (sat : Byte) :
    (enteredWait w e h c).waitPred pd x sat = w.waitPred pd x sat := by
  have same : (entered w e h).p = w.p ∧ (entered w e h).present = w.present ∧ (entered w e h).tst = w.tst ∧
      (entered w e h).sat = w.sat := by
    rw [entered_frame]
    exact ⟨rfl, rfl, rfl, rfl⟩
  obtain ⟨hp, hpr, ht, hs⟩ := same
  exact waitPred_congr (u := enteredWait w e h c) hp hpr ht hs pd x sat

end

end Sys2Proof.Machine
end

section
/-! Waits on barriers: their reads, the statement about them, and its proof. -/

namespace Sys2Proof.Machine

open Sys2Proof.Claims

section
variable {s : State} {w : Wave}

/-- The wave reads the word of its token as passed (R201; log 33). -/
def State.barPass (s : State) (w : Wave) (tok : W32) : Prop :=
  phaseOf (s.barWord w.grp tok) ≠ bits tok 31 16 ∧ s.ownPending w true (8 * bits tok 15 0) = false ∧
    s.wordLocked w.grp none (bits tok 15 0) = false

/-- What the sticky flags gain of a word that has passed (R202). -/
def barLsat (word : W64) : Byte := if word.getLsbD 31 then BitVec.ofNat 8 (bits word 47 40) else 0

theorem barPass_iff (s : State) (w : Wave) (tok : W32) :
    (passed (s.barWord w.grp tok) tok && !s.ownPending w true (8 * bits tok 15 0) &&
      !s.wordLocked w.grp none (8 * bits tok 15 0 / 8)) = true ↔ s.barPass w tok := by
  simp [State.barPass, passed, and_assoc]

theorem bwaitRead_pass {tok : W32} (hp : s.barPass w tok) (pd : BitVec 7) (sf : BitVec 4) (late : Bool) :
    ∃ ds, s.bwaitRead w pd tok sf late = (s.l1Acquire w.grp w.id.core .grp).modWave w.id fun u =>
      u.waitDone pd true (barLsat (s.barWord w.grp tok)) sf (s.cyc w.id.core) ds := by
  simp only [State.bwaitRead, (barPass_iff s w tok).2 hp, if_true]
  exact ⟨_, rfl⟩

theorem bwaitRead_noPass {tok : W32} (hp : ¬ s.barPass w tok) (pd : BitVec 7) (sf : BitVec 4) (late : Bool) :
    s.bwaitRead w pd tok sf late =
      if late then s.modWave w.id fun u => u.waitDone pd false 0 sf (s.cyc w.id.core) [] else s := by
  have no := fun h => hp ((barPass_iff s w tok).1 h)
  simp only [State.bwaitRead, if_neg no]

/-- A BWAIT that reads its word as passed waits no more, and is an acquire at .grp. -/
theorem bwaitRead_over {u : Wave} (hw : s.wave? w.id = some u) {tok : W32} (hp : s.barPass w tok) (pd : BitVec 7)
    (sf : BitVec 4) (late : Bool) : ∃ l1 ws w', s.bwaitRead w pd tok sf late = { s with waves := ws, l1 := l1 } ∧
      WaitOver s u pd true (barLsat (s.barWord w.grp tok)) (s.bwaitRead w pd tok sf late) w' := by
  obtain ⟨ds, h⟩ := bwaitRead_pass hp pd sf late
  obtain ⟨l1, hl⟩ := l1Acquire_eq s w.grp w.id.core .grp
  have hover := waitOver_waitDone (s := { s with l1 := l1 }) hw pd true (barLsat (s.barWord w.grp tok)) sf (s.cyc w.id.core) ds
  rw [h, hl]
  exact ⟨l1, _, _, rfl, hover.there, hover.eq, hover.others⟩

theorem barChk_ok {e : Env} {h : Hdr} {x : Nat} (hg : e.w.uGuard h e.c0 = true) (hh : s.memHold e.w = false)
    (hx : x % 8 = 0) (hb : x + 8 ≤ e.winSize) : barChk s e h x false = .ok := by
  simp [barChk, hg, hh, winChk, hx, hb]

/-- The wait of a BWAIT, once it has issued. -/
def bwaitFor (s : State) (w : Wave) (h : Hdr) (o : BwaitOp) (tok : W32) : Wait :=
  .bar o.pd tok (if o.tmo = 0 then none else some (w.met.getD s.timebase + BitVec.ofNat 64 (2 ^ (o.tmo.toNat + 5)))) h.sf

/-- A BWAIT that passes its checks waits on its word, which it reads at once. -/
theorem bwait_issues {h : Hdr} {o : BwaitOp} (hi : Issues s w (.bwait h o) false)
    (hg : w.uGuard h (s.cyc w.id.core) = true) (hh : s.memHold w = false)
    (hb : 8 * bits (w.rs (s.cyc w.id.core) o.a.toNat) 15 0 + 8 ≤ (envOf s w (.bwait h o) false).winSize) :
    exec (.bwait h o) s = .next (State.bwaitRead
      (s.enterWait w (envOf s w (.bwait h o) false) h (bwaitFor s w h o (w.rs (s.cyc w.id.core) o.a.toNat)))
      w o.pd (w.rs (s.cyc w.id.core) o.a.toNat) h.sf false) := by
  change execBwait h o s = _
  rw [execBwait, issue_ok hi]
  · rw [if_pos (show (mkEnv s w false (.bwait h o)).w.uGuard h (mkEnv s w false (.bwait h o)).c0 = true from hg)]
    rfl
  · exact barChk_ok hg hh (Nat.mul_mod_right 8 _) hb

end

section
variable {s : State} {w : Wave} {id : WaveId} {pd : BitVec 7} {tok : W32} {d : Option W64} {sf : BitVec 4}

theorem bwaitWake_reads (hw : s.wave? w.id = some w) (hwait : w.wait = .bar pd tok d sf) (hp : s.parked w = false)
    (hs : s.saving w.grp.part = false) : exec (.bwaitWake w.id) s = .next (s.bwaitRead w pd tok sf false) := by
  simp only [exec, execBwaitWake, hw, hwait, hp, hs, Bool.or_self, Bool.false_eq_true, if_false]

theorem bwaitTimeout_reads (hw : s.wave? w.id = some w) (hwait : w.wait = .bar pd tok d sf) (hp : s.parked w = false)
    (hs : s.saving w.grp.part = false) :
    exec (.bwaitTimeout w.id) s = .next (s.bwaitRead w pd tok sf (late d s.timebase)) := by
  simp only [exec, execBwaitTimeout, hw, hwait, hp, hs, Bool.or_self, Bool.false_eq_true, if_false]

theorem l1Acquire_grp (s : State) (g : GroupId) (core : Nat) : s.l1Acquire g core .grp =
    { s with l1 := s.l1.filter fun x => ¬ (x.core = core ∧ x.eng.contains g = true) } := by
  have lines : (fun l : Line => !(decide (l.core = core) && l.eng.contains g)) =
      fun l => decide ¬ (l.core = core ∧ l.eng.contains g = true) := by
    funext l
    simp
  simp only [State.l1Acquire, scopeFar, lines]
  rfl

/-- A BTEST whose bank is free reads its word; having read it as passed, it is an acquire at .grp (R203). -/
theorem btestComplete_reads {n : Nat} {a : Acc} {l : Lane} {num : Nat} (hr : s.ripe num (· = .btest) = some a)
    (ho : s.orderOk a = true) (hw : s.waveUid? a.uid = some w) (hd : a.dst = .p n) (hl : a.lanes = [l])
    (hb : s.bankFree a.w.core (a.service l) = true) :
    let pass : Prop := phaseOf (s.barWord a.grp (lo32 (a.args.getD 0 0))) ≠ bits (lo32 (a.args.getD 0 0)) 31 16
    exec (.btestComplete num) s = .next { ended s a [.p n w.present (if pass then w.present else 0)] with
      cores := (s.bankUse a.w.core (a.service l)).cores
      l1 := if pass then s.l1.filter fun x => ¬ (x.core = a.w.core ∧ x.eng.contains a.grp = true) else s.l1 } := by
  intro pass
  have hw' : (s.bankUse a.w.core (a.service l)).waveUid? a.uid = some w := hw
  have hp : passed ((s.bankUse a.w.core (a.service l)).barWord a.grp (lo32 (a.args.getD 0 0))) (lo32 (a.args.getD 0 0)) =
      decide pass := rfl
  simp only [exec, execBtestComplete, hr, ho, hd, hl, List.getD_cons_zero, hb, hw', hp, l1Acquire_grp, decide_eq_true_eq]
  by_cases h : pass
  · simp only [if_pos h]
    rfl
  · simp only [if_neg h]
    rfl

/-- The bank of a service notes it, and no core changes but for that. -/
theorem bankUse_core (s : State) (core : Nat) (x : Service) (c : Nat) :
    (s.bankUse core x).core c = { s.core c with used := ((s.bankUse core x).core c).used } := by
  simp only [State.bankUse, State.core, State.modCore, List.getD_eq_getElem?_getD, List.getElem?_modify]
  by_cases hc : core = c
  · cases s.cores[c]? <;> simp [hc]
  · simp [hc]

end

/-- Settles O26: a BWAIT reads its word at its issue, when it is woken and at its deadline, and BTEST when its bank is free. -/
theorem barrierWaits : Obligations.BarrierWaits := by
  refine ⟨fun s w pd tok d sf hw hwait hpark hsave => ?_, fun s w h o hi => ?_,
    fun s id a w l n hr ho hw hd hl hb => ?_⟩
  · intro pass word done lsat
    have finish : ∀ {i : Instr} {x : Bool} {sat : Byte} {t : State} {w' : Wave} {ws : List Wave} {l1 : List Line},
        exec i s = .next t → t = { s with waves := ws, l1 := l1 } → WaitOver s w pd x sat t w' → done i x sat := by
      intro i x sat t w' ws l1 hx ht ho
      obtain ⟨due, pend, next, rfl⟩ := ho.eq
      exact ⟨t, _, hx, ho.there, rfl, rfl, rfl, rfl, rfl, rfl, rfl, ho.others, by rw [ht]⟩
    have wake := bwaitWake_reads hw hwait hpark hsave
    have timeout := bwaitTimeout_reads hw hwait hpark hsave
    refine ⟨fun hp => ?_, fun hp => ⟨?_, fun x hx hle => ?_, fun hx => ?_⟩⟩
    · obtain ⟨l1, ws, w', ht, ho⟩ := bwaitRead_over hw hp pd sf false
      obtain ⟨l1', ws', w'', ht', ho'⟩ := bwaitRead_over hw hp pd sf (late d s.timebase)
      exact ⟨finish wake ht ho, finish timeout ht' ho'⟩
    · rw [wake, bwaitRead_noPass hp]
      rfl
    · rw [bwaitRead_noPass hp, if_pos (late_of hx hle)] at timeout
      exact finish timeout rfl (waitOver_waitDone hw pd false 0 sf (s.cyc w.id.core) [])
    · rw [timeout, bwaitRead_noPass hp, not_late hx]
      rfl
  · intro e tok hg hh hb pass
    have hw : s.wave? w.id = some w := by rw [wave?_id hi.slot, hi.slot]
    have hx : exec (.bwait h o) s =
        .next ((s.enterWait w e h (bwaitFor s w h o tok)).bwaitRead w o.pd tok h.sf false) := bwait_issues hi hg hh hb
    have hiss := issued_waits hw e h (bwaitFor s w h o tok)
    by_cases hp : pass
    · obtain ⟨l1, ws, w', ht, ho⟩ := bwaitRead_over hiss.there hp o.pd h.sf false
      refine ⟨_, w', hx, issued_waitOver hiss ho, (congrArg State.accs ht).trans rfl, (congrArg State.groups ht).trans rfl,
        (congrArg State.mem ht).trans rfl, fun hn => absurd hp hn, fun _ => ?_⟩
      · obtain ⟨due, pend, next, hw'⟩ := ho.eq
        rw [hw']
    · have hread := bwaitRead_noPass (s := s.enterWait w e h (bwaitFor s w h o tok)) hp o.pd h.sf false
      rw [hread, if_neg Bool.false_ne_true] at hx
      exact ⟨_, _, hx, hiss, rfl, rfl, rfl, fun _ => ⟨rfl, enteredWait_frame w e h _⟩, fun hp' => absurd hp' hp⟩
  · exact ⟨_, btestComplete_reads hr ho hw hd hl hb, rfl, rfl, bankUse_core s a.w.core (a.service l)⟩

end Sys2Proof.Machine
end

section
/-!
SUPPORT. Waits on words: a WAITA's reads, and what they change (R205–R207, R254, R257, R382).
-/

namespace Sys2Proof.Machine

open Sys2Proof.Claims

section
variable {s t : State} {w u : Wave} {o : WaitaOp}

/-- A word that can be read of memory is one that no host's copy holds up: nothing is asked for. -/
theorem ask_free {pa : Nat} {write : Bool} (h : s.snoopHeld pa write = false) : s.ask pa write = s := by
  have unasked : ∀ x ∈ s.snoop, (decide (x.line = pa / 128) && s.inWay write x && !x.asked) = false := by
    intro x hx
    have held := List.any_eq_false.1 h x hx
    simp only [Bool.not_eq_true] at held
    rw [held, Bool.false_and]
  have asked : s.snoop.filter (fun x => decide (x.line = pa / 128) && s.inWay write x && !x.asked) = [] :=
    List.filter_eq_nil_iff.2 fun x hx => by rw [unasked x hx]; exact Bool.false_ne_true
  have kept : upd (fun x => decide (x.line = pa / 128) && s.inWay write x && !x.asked) (fun x => { x with asked := true })
      s.snoop = s.snoop := by
    unfold upd
    conv_rhs => rw [← List.map_id s.snoop]
    exact List.map_congr_left fun x hx => by simp [unasked x hx]
  simp only [State.ask, asked, kept, List.map_nil, List.append_nil]

theorem waitaRead_held {pa : Nat} {m : W64} (h : s.waitaRead w o pa = some m) (hsp : o.spd = false) :
    s.snoopHeld pa false = false := by
  by_contra hheld
  simp only [Bool.not_eq_false] at hheld
  simp [State.waitaRead, hsp, hheld] at h

theorem served_poisoned (h : Served s t) (pa : Nat) : t.poisoned pa = s.poisoned pa := by
  obtain ⟨_, _, _, _, _, _, rfl⟩ := served_iff.1 h
  rfl

/-! ### A read of the word -/

/-- The state once a WAITA's read has been served: at a slice, where the word is of memory (R382). -/
def State.waitaServed (s : State) (w : Wave) (o : WaitaOp) (pa : Nat) : State :=
  if o.spd then s else s.slcTouch (s.partWays w.grp.part) pa (o.sco = .sys)

/-- A WAITA that ends, with .acq an acquire. -/
def State.waitaEnd (s : State) (w : Wave) (o : WaitaOp) (sf : BitVec 4) (now : Nat) (x : Bool) : State :=
  (if o.acq then s.l1Acquire w.grp w.id.core o.sco else s).modWave w.id fun u => u.waitDone o.pd x 0 sf now []

theorem served_waitaServed (s : State) (w : Wave) (o : WaitaOp) (pa : Nat) : Served s (s.waitaServed w o pa) := by
  unfold State.waitaServed
  split
  · exact served_refl s
  · exact served_slcTouch ..

theorem waitaServed_window (h : o.spd = true) (s : State) (w : Wave) (pa : Nat) : s.waitaServed w o pa = s := by
  rw [State.waitaServed, if_pos h]

/-- A read that is served ends the wait by its condition, or at its deadline. -/
theorem waitaTry_served {pa : Nat} {m : W64} (hr : s.waitaRead w o pa = some m)
    (hp : o.spd = true ∨ s.poisoned pa = false) (va v : W64) (sf : BitVec 4) (late : Bool) :
    s.waitaTry w o va (some pa) v sf late =
      if waitaCond o m v then (s.waitaServed w o pa).waitaEnd w o sf (s.cyc w.id.core) true
      else if late then (s.waitaServed w o pa).waitaEnd w o sf (s.cyc w.id.core) false
      else s.waitaServed w o pa := by
  have asked : (if o.spd then s else s.ask pa false) = s := by
    split
    · rfl
    · next hsp => exact ask_free (waitaRead_held hr (by simpa using hsp))
  have sound : (!o.spd && (s.waitaServed w o pa).poisoned pa) = false := by
    rcases hp with hp | hp
    · rw [hp, Bool.not_true, Bool.false_and]
    · rw [served_poisoned (served_waitaServed s w o pa), hp, Bool.and_false]
  simp only [State.waitaServed] at sound ⊢
  simp only [State.waitaTry, asked, Option.bind_some, hr, Option.getD_some, Option.map_some, sound]
  rfl

/-- A copy that is asked for is held until it is given up. -/
theorem snoopHeld_ask (s : State) (pa : Nat) (write : Bool) (x : Nat) (write' : Bool) :
    (s.ask pa write).snoopHeld x write' = s.snoopHeld x write' := by
  simp only [State.snoopHeld, State.ask, upd, List.any_map]
  congr 1
  funext y
  simp only [Function.comp_apply]
  split <;> rfl

theorem rdNat_congr (h : t.rdByte = s.rdByte) : t.rdNat = s.rdNat := by
  have bytes : ∀ pa n, t.rdBytes pa n = s.rdBytes pa n := by
    intro pa n
    induction n generalizing pa with
    | zero => rfl
    | succ n ih => rw [State.rdBytes, State.rdBytes, h, ih]
  funext pa n
  exact congrArg leNat (bytes pa n)

/-- What a WAITA reads hangs on the bytes, and on the accesses, windows and copies that may hold it up, alone. -/
theorem waitaRead_congr (ha : t.accs = s.accs) (hg : t.groups = s.groups)
    (hs : ∀ pa, t.snoopHeld pa false = s.snoopHeld pa false) (hb : t.rdByte = s.rdByte) (w : Wave) (o : WaitaOp) (pa : Nat) :
    t.waitaRead w o pa = s.waitaRead w o pa := by
  simp only [State.waitaRead, State.ownPending, State.wordLocked, State.group?, State.pathFree, ha, hg, hs, rdNat_congr hb]
  rfl

theorem waitaRead_ask (s : State) (w : Wave) (o : WaitaOp) (pa : Nat) :
    (s.ask pa false).waitaRead w o pa = s.waitaRead w o pa :=
  waitaRead_congr (s := s) (t := s.ask pa false) rfl rfl (fun x => snoopHeld_ask s pa false x false) rfl w o pa

/-- A wait goes on over a word that cannot be read: at most a host's copy is asked for. -/
theorem waitaTry_unread {pa : Nat} (hr : s.waitaRead w o pa = none) (va v : W64) (sf : BitVec 4) :
    ∃ snoop out, s.waitaTry w o va (some pa) v sf false = { s with snoop := snoop, out := out } := by
  cases hsp : o.spd with
  | true =>
    simp only [State.waitaTry, hsp, Option.bind_some, hr, if_true]
    exact ⟨s.snoop, s.out, rfl⟩
  | false =>
    simp only [State.waitaTry, hsp, Option.bind_some, waitaRead_ask, hr, Bool.false_eq_true, if_false]
    exact ⟨_, _, rfl⟩

/-! ### The events of a wait -/

section
variable {va v : W64} {pa : Option Nat} {d : Option W64} {sf : BitVec 4} {again : Nat}

theorem waitaWake_reads (hw : s.wave? w.id = some w) (hwait : w.wait = .addr o va pa v d sf again)
    (hs : s.saving w.grp.part = false) : exec (.waitaWake w.id) s =
      .next (if s.notifies o pa then s.waitaTry w o va pa v sf false else s) := by
  simp only [exec, execWaitaWake, hw, hwait, hs, Bool.not_false, Bool.and_true]
  split <;> rfl

theorem waitaTimeout_reads (hw : s.wave? w.id = some w) (hwait : w.wait = .addr o va pa v d sf again)
    (hs : s.saving w.grp.part = false) :
    exec (.waitaTimeout w.id) s = .next (s.waitaTry w o va pa v sf (late d s.timebase)) := by
  simp only [exec, execWaitaTimeout, hw, hwait, hs, Bool.false_eq_true, if_false]

/-- The state in which a reread is made: the next one is 4,096 cycles later (R207). -/
def State.waitaReread (s : State) (w : Wave) (o : WaitaOp) (va : W64) (pa : Option Nat) (v : W64) (d : Option W64)
    (sf : BitVec 4) : State :=
  s.modWave w.id fun u => { u with wait := .addr o va pa v d sf (s.cyc w.id.core + 4096) }

theorem waitaPeriodicReread_reads (hw : s.wave? w.id = some w) (hwait : w.wait = .addr o va pa v d sf again)
    (hs : s.saving w.grp.part = false) (ha : again ≤ s.cyc w.id.core) : exec (.waitaPeriodicReread w.id) s =
      .next ((s.waitaReread w o va pa v d sf).waitaTry w o va pa v sf false) := by
  simp only [exec, execWaitaPeriodicReread, hw, hwait, hs, ha, decide_true, Bool.not_false, Bool.and_true, if_true]
  rfl

end

/-! ### What a read leaves -/

/-- What a read of a WAITA may change but for its wave and the L1s: what a slice's service of it may, where the word is of
memory. -/
def WaitaReads (o : WaitaOp) (s t : State) : Prop :=
  if o.spd then t = { s with waves := t.waves, l1 := t.l1 } else t = { s with
    waves := t.waves, l1 := t.l1, slc := t.slc, home := t.home, dirty := t.dirty, flip := t.flip, fresh := t.fresh,
    out := t.out }

theorem waitaReads_served (s : State) (w : Wave) (o : WaitaOp) (pa : Nat) (waves : List Wave) (l1 : List Line) :
    WaitaReads o s { s.waitaServed w o pa with waves := waves, l1 := l1 } := by
  cases hsp : o.spd with
  | true =>
    rw [WaitaReads, if_pos hsp, waitaServed_window hsp]
  | false =>
    obtain ⟨_, _, _, _, _, _, h⟩ := served_iff.1 (served_waitaServed s w o pa)
    rw [WaitaReads, hsp, h]
    rfl

theorem waitaEnd_over (hw : s.wave? w.id = some u) (o : WaitaOp) (sf : BitVec 4) (now : Nat) (x : Bool) :
    ∃ l1 ws w', s.waitaEnd w o sf now x = { s with waves := ws, l1 := l1 } ∧
      WaitOver s u o.pd x 0 (s.waitaEnd w o sf now x) w' := by
  have acq : ∃ l1, (if o.acq then s.l1Acquire w.grp w.id.core o.sco else s) = { s with l1 := l1 } := by
    split
    · exact l1Acquire_eq ..
    · exact ⟨s.l1, rfl⟩
  obtain ⟨l1, hl⟩ := acq
  have hover := waitOver_waitDone (s := { s with l1 := l1 }) hw o.pd x 0 sf now []
  rw [State.waitaEnd, hl]
  exact ⟨l1, _, _, rfl, hover.there, hover.eq, hover.others⟩

theorem WaitaReads.same (h : WaitaReads o s t) : t.accs = s.accs ∧ t.groups = s.groups ∧ t.mem = s.mem := by
  unfold WaitaReads at h
  split at h <;> rw [h] <;> exact ⟨rfl, rfl, rfl⟩

theorem served_wave? (h : Served s t) (k : WaveId) : t.wave? k = s.wave? k := by
  obtain ⟨_, _, _, _, _, _, rfl⟩ := served_iff.1 h
  rfl

/-- A read that ends the wait: what it leaves of the wave, and what else it may change. -/
theorem waitaEnd_ends (hw : s.wave? w.id = some u) (o : WaitaOp) (pa : Nat) (sf : BitVec 4) (now : Nat) (x : Bool) :
    ∃ w', WaitOver s u o.pd x 0 ((s.waitaServed w o pa).waitaEnd w o sf now x) w' ∧
      WaitaReads o s ((s.waitaServed w o pa).waitaEnd w o sf now x) := by
  have hserved := served_wave? (served_waitaServed s w o pa)
  obtain ⟨l1, ws, w', ht, ho⟩ := waitaEnd_over ((hserved w.id).trans hw) o sf now x
  refine ⟨w', ⟨ho.there, ho.eq, fun k hk => (ho.others k hk).trans (hserved k)⟩, ?_⟩
  rw [ht]
  exact waitaReads_served s w o pa ws l1

/-- A read of a word whose condition fails, or that cannot be read, changes no wave, access, window or byte. -/
theorem waitaTry_goesOn {pa : Nat} {v : W64} (hc : ∀ m, s.waitaRead w o pa = some m → waitaCond o m v = false)
    (hp : o.spd = true ∨ s.poisoned pa = false) (va : W64) (sf : BitVec 4) :
    let t := s.waitaTry w o va (some pa) v sf false
    t.waves = s.waves ∧ t.accs = s.accs ∧ t.groups = s.groups ∧ t.mem = s.mem := by
  intro t
  cases hr : s.waitaRead w o pa with
  | none =>
    obtain ⟨snoop, out, ht⟩ := waitaTry_unread hr va v sf
    rw [show t = _ from ht]
    exact ⟨rfl, rfl, rfl, rfl⟩
  | some m =>
    have ht : t = s.waitaServed w o pa := by
      rw [show t = _ from waitaTry_served hr hp va v sf false, hc m hr]
      rfl
    obtain ⟨_, _, _, _, _, _, hs⟩ := served_iff.1 (served_waitaServed s w o pa)
    rw [ht, hs]
    exact ⟨rfl, rfl, rfl, rfl⟩

/-! ### A reread -/

section
variable {pa : Nat} {va v : W64} {d : Option W64} {sf : BitVec 4}

theorem waitaReread_read (s : State) (w : Wave) (o : WaitaOp) (va : W64) (pa : Nat) (v : W64) (d : Option W64) (sf : BitVec 4) :
    (s.waitaReread w o va (some pa) v d sf).waitaRead w o pa = s.waitaRead w o pa :=
  waitaRead_congr (s := s) (t := s.waitaReread w o va (some pa) v d sf) rfl rfl (fun _ => rfl) rfl w o pa

theorem waitaReread_wave (hw : s.wave? w.id = some w) : (s.waitaReread w o va (some pa) v d sf).wave? w.id =
    some { w with wait := .addr o va (some pa) v d sf (s.cyc w.id.core + 4096) } :=
  wave?_modWave_same (fun _ => rfl) hw

theorem waitaReread_other {k : WaveId} (hk : k ≠ w.id) :
    (s.waitaReread w o va (some pa) v d sf).wave? k = s.wave? k :=
  wave?_modWave_other (f := fun u => { u with wait := .addr o va (some pa) v d sf (s.cyc w.id.core + 4096) })
    (fun _ => rfl) hk

/-- What a reread changes of its own is its wave. -/
theorem waitaReads_of_reread (h : WaitaReads o (s.waitaReread w o va (some pa) v d sf) t) : WaitaReads o s t := h

end

/-! ### The issue of a WAITA -/

/-- The wait of a WAITA, once it has issued. -/
def waitaFor (s : State) (w : Wave) (e : Env) (h : Hdr) (o : WaitaOp) (pa : Nat) : Wait :=
  .addr o (waitaAddr e o) (some pa) (waitaVal e o)
    (if o.tmo = 0 then none else some (w.met.getD s.timebase + BitVec.ofNat 64 (2 ^ (o.tmo.toNat + 5)))) h.sf (e.c0 + 4096)

/-- The word of a WAITA can be watched: it lies in the window, or its page is mapped, and it is not poisoned. -/
def WaitaAt (s : State) (e : Env) (o : WaitaOp) (pa : Nat) : Prop :=
  if o.spd then pa = (waitaAddr e o).toNat ∧ (waitaAddr e o).toNat + sizeOf' o.tag ≤ e.winSize
  else bits (waitaAddr e o) 63 51 = 0 ∧ s.poisoned pa = false ∧ ∃ nc,
    s.xlate (some e.w.id.core) e.w.grp.part .read (sizeOf' o.tag) [(0, waitaAddr e o)] = .ok [(0, waitaAddr e o, pa, nc)]

theorem pasOf_enter (s : State) (w : Wave) (e : Env) (h : Hdr) (k : AccKind) (n : Nat) (xs : List (Nat × W64)) :
    (s.enter w e h).pasOf e k n xs = s.pasOf e k n xs := rfl

theorem pasOf_ok {e : Env} {k : AccKind} {n : Nat} {xs : List (Nat × W64)} {ps : List (Nat × W64 × Nat × Bool)}
    (h : s.xlate (some e.w.id.core) e.w.grp.part k n xs = .ok ps) : s.pasOf e k n xs = ps := by
  rw [State.pasOf, h]

theorem winChk_ok {size win x : Nat} (ha : x % size = 0) (hb : x + size ≤ win) : winChk size win [(0, x)] = .ok := by
  simp [winChk, ha, hb]

theorem addrChk_ok {size : Nat} {x : W64} (ha : x.toNat % size = 0) (hb : bits x 63 51 = 0) : addrChk size [(0, x)] = .ok := by
  simp [addrChk, ha, hb]

theorem watchXlate_ok {e : Env} {rd wr : Bool} {size : Nat} {xs : List (Nat × W64)}
    (h : s.watchChk e rd wr false size xs .ok = .ok) : s.watchXlate e rd wr size xs .ok .ok = .ok := by
  simp only [State.watchXlate, h]

section
variable {e : Env} {pa : Nat}

/-- The place of the word, as the issue finds it. -/
theorem WaitaAt.place (h : WaitaAt s e o pa) : (if o.spd then some (waitaAddr e o).toNat
    else ((s.pasOf e .read (sizeOf' o.tag) [(0, waitaAddr e o)]).head?).map fun p => p.2.2.1) = some pa := by
  unfold WaitaAt at h
  split at h
  · next hsp => rw [if_pos hsp, h.1]
  · next hsp =>
    obtain ⟨-, -, nc, hxl⟩ := h
    rw [if_neg hsp, pasOf_ok hxl]
    rfl

theorem WaitaAt.sound (h : WaitaAt s e o pa) : o.spd = true ∨ s.poisoned pa = false := by
  unfold WaitaAt at h
  split at h
  · next hsp => exact .inl hsp
  · exact .inr h.2.1

/-- The checks of a WAITA's address at its issue (R205, R408). -/
def waitaChk (s : State) (e : Env) (o : WaitaOp) : Chk :=
  if o.spd then
    s.watchChk e true false true (sizeOf' o.tag) [(0, waitaAddr e o)]
      (winChk (sizeOf' o.tag) e.winSize [(0, (waitaAddr e o).toNat)])
  else
    s.watchXlate e true false (sizeOf' o.tag) [(0, waitaAddr e o)] (addrChk (sizeOf' o.tag) [(0, waitaAddr e o)])
      (match s.xlate (some e.w.id.core) e.w.grp.part .read (sizeOf' o.tag) [(0, waitaAddr e o)] with
       | .ok ps => if ps.any fun p => s.poisoned p.2.2.1 then .trap 6 (waitaAddr e o) else .ok
       | r => r.chk)

theorem WaitaAt.chk (h : WaitaAt s e o pa) (hsize : (waitaAddr e o).toNat % sizeOf' o.tag = 0)
    (hwatch : s.watchChk e true false o.spd (sizeOf' o.tag) [(0, waitaAddr e o)] .ok = .ok) : waitaChk s e o = .ok := by
  unfold WaitaAt at h
  unfold waitaChk
  split at h
  · next hsp =>
    rw [if_pos hsp, winChk_ok hsize h.2]
    rw [hsp] at hwatch
    exact hwatch
  · next hsp =>
    obtain ⟨hbits, hpoison, nc, hxl⟩ := h
    rw [if_neg hsp, addrChk_ok hsize hbits, hxl]
    rw [Bool.not_eq_true] at hsp
    rw [hsp] at hwatch
    simp only [List.any_cons, List.any_nil, hpoison, Bool.or_false, Bool.false_eq_true, if_false]
    exact watchXlate_ok hwatch

end

/-- A WAITA that passes its checks waits on its word, which it reads at once. -/
theorem waita_issues {h : Hdr} {pa : Nat} (hi : Issues s w (.waita h o) false) (hre : w.reissue = none)
    (hg : w.uGuard h (s.cyc w.id.core) = true) (hh : s.memHold w = false)
    (hchk : waitaChk s (envOf s w (.waita h o) false) o = .ok) (hpa : WaitaAt s (envOf s w (.waita h o) false) o pa) :
    exec (.waita h o) s = .next ((s.enterWait w (envOf s w (.waita h o) false) h
      (waitaFor s w (envOf s w (.waita h o) false) h o pa)).waitaTry w o (waitaAddr (envOf s w (.waita h o) false) o)
      (some pa) (waitaVal (envOf s w (.waita h o) false) o) h.sf false) := by
  have hg' : (mkEnv s w false (.waita h o)).w.uGuard h (mkEnv s w false (.waita h o)).c0 = true := hg
  have hre' : (mkEnv s w false (.waita h o)).w.reissue = none := hre
  have hh' : s.memHold (mkEnv s w false (.waita h o)).w = false := hh
  change execWaita h o s = _
  rw [execWaita, issue_ok hi]
  · simp only [hg', hre', if_true, Option.isSome_none, Bool.false_eq_true, if_false, pasOf_enter]
    rw [hpa.place]
    rfl
  · simp only [hg', hre', hh', Option.isSome_none, Bool.false_eq_true, if_false, Bool.not_true]
    exact hchk

/-- The marks of an issue stand while no wave changes. -/
theorem issued_of_waves {e : Env} {h : Hdr} {r : State} (hi : issued s w e h t u) (hr : r.waves = t.waves) :
    issued s w e h r u where
  there := by rw [State.wave?, hr]; exact hi.there
  pc := hi.pc
  prev := hi.prev
  flags := hi.flags
  others := fun k hk => by rw [State.wave?, hr]; exact hi.others k hk

theorem waitPred_zero (w : Wave) (pd : BitVec 7) (x : Bool) : w.waitPred pd x 0 =
    (let p := (w.setSat w.sat).p
     p.set pd.toNat ((p.get pd.toNat &&& ~~~w.present) ||| ((if x then w.present else 0) &&& w.present))) := by
  rw [Wave.waitPred, show w.sat ||| 0 = w.sat from BitVec.or_zero]

end

end Sys2Proof.Machine
end

section
/-! Waits on words: the statement about them, and its proof. -/

namespace Sys2Proof.Machine

open Sys2Proof.Claims

section
variable {s : State} {w : Wave} {o : WaitaOp} {va : W64} {pa : Nat} {v m : W64} {d : Option W64} {sf : BitVec 4} {again : Nat}

/-- A WAITA waits on a word that reads as `m`. -/
structure Watched (s : State) (w : Wave) (o : WaitaOp) (va : W64) (pa : Nat) (v : W64) (d : Option W64) (sf : BitVec 4)
    (again : Nat) (m : W64) : Prop where
  there : s.wave? w.id = some w
  waits : w.wait = .addr o va (some pa) v d sf again
  unsaved : s.saving w.grp.part = false
  read : s.waitaRead w o pa = some m
  sound : o.spd = true ∨ s.poisoned pa = false

/-- An event ends the wait of a WAITA with its predicate. -/
def WaitaDone (s : State) (w : Wave) (o : WaitaOp) (i : Instr) (x : Bool) : Prop :=
  ∃ t w', exec i s = .next t ∧ t.wave? w.id = some w' ∧ w'.wait = .none ∧
    (let p := (w.setSat w.sat).p
     w'.p = p.set o.pd.toNat ((p.get o.pd.toNat &&& ~~~w.present) ||| ((if x then w.present else 0) &&& w.present))) ∧
    w'.v = w.v ∧ w'.s = w.s ∧ w'.pc = w.pc ∧ w'.exec = w.exec ∧ (∀ k, k ≠ w.id → t.wave? k = s.wave? k) ∧ WaitaReads o s t

theorem waitaDone_of {i : Instr} {x : Bool} {c : Wait} {s₀ t : State} {w' : Wave} (hx : exec i s = .next t)
    (ho : WaitOver s₀ { w with wait := c } o.pd x 0 t w') (hothers : ∀ k, k ≠ w.id → s₀.wave? k = s.wave? k)
    (hreads : WaitaReads o s t) : WaitaDone s w o i x := by
  obtain ⟨due, pend, next, rfl⟩ := ho.eq
  refine ⟨t, _, hx, ho.there, rfl, ?_, rfl, rfl, rfl, rfl, fun k hk => (ho.others k hk).trans (hothers k hk), hreads⟩
  exact (waitPred_congr (w := w) (u := { w with wait := c }) rfl rfl rfl rfl o.pd x 0).trans (waitPred_zero w o.pd x)

/-- An event does no more than to read the word. -/
def WaitaOn (s : State) (o : WaitaOp) (i : Instr) : Prop :=
  ∃ t, exec i s = .next t ∧ Served s t ∧ (o.spd = true → t = s)

theorem waitaOn_of {i : Instr} (hx : exec i s = .next (s.waitaServed w o pa)) : WaitaOn s o i :=
  ⟨_, hx, served_waitaServed s w o pa, fun hsp => waitaServed_window hsp s w pa⟩

theorem Watched.wake_done (h : Watched s w o va pa v d sf again m) (hc : waitaCond o m v = true)
    (hn : s.notifies o (some pa) = true) : WaitaDone s w o (.waitaWake w.id) true := by
  have hx := waitaWake_reads h.there h.waits h.unsaved
  rw [if_pos hn, waitaTry_served h.read h.sound, if_pos hc] at hx
  obtain ⟨w', ho, hreads⟩ := waitaEnd_ends h.there o pa sf (s.cyc w.id.core) true
  exact waitaDone_of hx ho (fun _ _ => rfl) hreads

theorem Watched.wake_on (h : Watched s w o va pa v d sf again m) (hc : ¬ waitaCond o m v = true) :
    WaitaOn s o (.waitaWake w.id) := by
  have hx := waitaWake_reads h.there h.waits h.unsaved
  by_cases hn : s.notifies o (some pa) = true
  · rw [if_pos hn, waitaTry_served h.read h.sound, if_neg hc, if_neg Bool.false_ne_true] at hx
    exact waitaOn_of hx
  · rw [if_neg hn] at hx
    exact ⟨_, hx, served_refl s, fun _ => rfl⟩

theorem Watched.timeout_done (h : Watched s w o va pa v d sf again m) (hc : waitaCond o m v = true) :
    WaitaDone s w o (.waitaTimeout w.id) true := by
  have hx := waitaTimeout_reads h.there h.waits h.unsaved
  rw [waitaTry_served h.read h.sound, if_pos hc] at hx
  obtain ⟨w', ho, hreads⟩ := waitaEnd_ends h.there o pa sf (s.cyc w.id.core) true
  exact waitaDone_of hx ho (fun _ _ => rfl) hreads

theorem Watched.timeout_late (h : Watched s w o va pa v d sf again m) (hc : ¬ waitaCond o m v = true)
    (hl : late d s.timebase = true) : WaitaDone s w o (.waitaTimeout w.id) false := by
  have hx := waitaTimeout_reads h.there h.waits h.unsaved
  rw [waitaTry_served h.read h.sound, if_neg hc, if_pos hl] at hx
  obtain ⟨w', ho, hreads⟩ := waitaEnd_ends h.there o pa sf (s.cyc w.id.core) false
  exact waitaDone_of hx ho (fun _ _ => rfl) hreads

theorem Watched.timeout_on (h : Watched s w o va pa v d sf again m) (hc : ¬ waitaCond o m v = true)
    (hl : ¬ late d s.timebase = true) : WaitaOn s o (.waitaTimeout w.id) := by
  have hx := waitaTimeout_reads h.there h.waits h.unsaved
  rw [waitaTry_served h.read h.sound, if_neg hc, if_neg hl] at hx
  exact waitaOn_of hx

/-- A reread reads the word as any other event does. -/
theorem Watched.reread (h : Watched s w o va pa v d sf again m) (ha : again ≤ s.cyc w.id.core) :
    exec (.waitaPeriodicReread w.id) s = .next (
      if waitaCond o m v then ((s.waitaReread w o va (some pa) v d sf).waitaServed w o pa).waitaEnd w o sf (s.cyc w.id.core) true
      else (s.waitaReread w o va (some pa) v d sf).waitaServed w o pa) := by
  have hr := (waitaReread_read s w o va pa v d sf).trans h.read
  rw [waitaPeriodicReread_reads h.there h.waits h.unsaved ha,
    waitaTry_served (s := s.waitaReread w o va (some pa) v d sf) hr h.sound, if_neg Bool.false_ne_true]
  rfl

theorem Watched.reread_done (h : Watched s w o va pa v d sf again m) (hc : waitaCond o m v = true)
    (ha : again ≤ s.cyc w.id.core) : WaitaDone s w o (.waitaPeriodicReread w.id) true := by
  have hx := h.reread ha
  rw [if_pos hc] at hx
  obtain ⟨w', ho, hreads⟩ := waitaEnd_ends (waitaReread_wave h.there) o pa sf (s.cyc w.id.core) true
  exact waitaDone_of hx ho (fun k hk => waitaReread_other hk) (waitaReads_of_reread hreads)

/-- A reread of a word whose condition fails sets the next one 4,096 cycles later. -/
theorem Watched.reread_on (h : Watched s w o va pa v d sf again m) (hc : ¬ waitaCond o m v = true)
    (ha : again ≤ s.cyc w.id.core) : ∃ t w', exec (.waitaPeriodicReread w.id) s = .next t ∧ t.wave? w.id = some w' ∧
      w' = { w with wait := .addr o va (some pa) v d sf (s.cyc w.id.core + 4096) } ∧ t.l1 = s.l1 ∧
      (∀ k, k ≠ w.id → t.wave? k = s.wave? k) ∧ WaitaReads o s t := by
  have hx := h.reread ha
  rw [if_neg hc] at hx
  have hserved := served_waitaServed (s.waitaReread w o va (some pa) v d sf) w o pa
  refine ⟨_, _, hx, (served_wave? hserved _).trans (waitaReread_wave h.there), rfl, ?_,
    fun k hk => (served_wave? hserved k).trans (waitaReread_other hk), ?_⟩
  · rw [hserved]
    rfl
  · exact waitaReads_of_reread (waitaReads_served (s.waitaReread w o va (some pa) v d sf) w o pa _ _)

/-! ### The read at issue -/

variable {e : Env} {h : Hdr} {c : Wait}

theorem enterWait_read (s : State) (w : Wave) (e : Env) (h : Hdr) (c : Wait) (o : WaitaOp) (pa : Nat) :
    (s.enterWait w e h c).waitaRead w o pa = s.waitaRead w o pa :=
  waitaRead_congr (s := s) (t := s.enterWait w e h c) rfl rfl (fun _ => rfl) rfl w o pa

/-- The condition holds at issue: the wait ends in the same cycle. -/
theorem enterWait_ends (hw : s.wave? w.id = some w) (hm : s.waitaRead w o pa = some m) (hc : waitaCond o m v = true)
    (hp : o.spd = true ∨ s.poisoned pa = false) :
    let t := (s.enterWait w e h c).waitaTry w o va (some pa) v sf false
    ∃ w', issued s w e h t w' ∧ (t.accs = s.accs ∧ t.groups = s.groups ∧ t.mem = s.mem) ∧ w'.wait = .none ∧
      w'.p = w.waitPred o.pd true 0 := by
  intro t
  have hiss := issued_waits hw e h c
  obtain ⟨w', ho, hreads⟩ := waitaEnd_ends hiss.there o pa sf ((s.enterWait w e h c).cyc w.id.core) true
  have ht : t = _ := waitaTry_served (s := s.enterWait w e h c) ((enterWait_read s w e h c o pa).trans hm) hp va v sf false
  rw [if_pos hc] at ht
  rw [ht]
  refine ⟨w', issued_waitOver hiss ho, hreads.same, ?_⟩
  obtain ⟨due, pend, next, rfl⟩ := ho.eq
  exact ⟨rfl, enteredWait_waitPred w e h c o.pd true 0⟩

/-- The condition does not hold at issue, or the word cannot be read: the wave waits. -/
theorem enterWait_goesOn (hw : s.wave? w.id = some w) (hc : ∀ m, s.waitaRead w o pa = some m → waitaCond o m v = false)
    (hp : o.spd = true ∨ s.poisoned pa = false) :
    let t := (s.enterWait w e h c).waitaTry w o va (some pa) v sf false
    issued s w e h t (enteredWait w e h c) ∧ t.accs = s.accs ∧ t.groups = s.groups ∧ t.mem = s.mem := by
  obtain ⟨hwaves, haccs, hgroups, hmem⟩ := waitaTry_goesOn (s := s.enterWait w e h c) (v := v)
    (fun m hm => hc m ((enterWait_read s w e h c o pa).symm.trans hm)) hp va sf
  exact ⟨issued_of_waves (issued_waits hw e h c) hwaves, haccs, hgroups, hmem⟩

end

/-- Settles O27: a WAITA reads its word at its issue, at its notification, at its reread and at its deadline, by one rule. -/
theorem addressWaits : Obligations.AddressWaits := by
  refine ⟨fun s w o va pa v m d sf again hw hwait hs hr hp => ?_, fun s w h o pa hi hre => ?_⟩
  · have hwatched : Watched s w o va pa v d sf again m := ⟨hw, hwait, hs, hr, hp⟩
    refine ⟨fun hc => ⟨hwatched.wake_done hc, hwatched.reread_done hc, hwatched.timeout_done hc⟩, fun hc => ?_⟩
    have hno : ¬ waitaCond o m v = true := by
      rw [hc]
      exact Bool.false_ne_true
    refine ⟨hwatched.wake_on hno, fun x hx hle => hwatched.timeout_late hno (late_of hx hle),
      fun hx => hwatched.timeout_on hno (by rw [not_late hx]; exact Bool.false_ne_true), hwatched.reread_on hno⟩
  · intro e reg x size hg hh hsize hwatch hpa
    have hw : s.wave? w.id = some w := by rw [wave?_id hi.slot, hi.slot]
    have hat : WaitaAt s e o pa := hpa
    have hx : exec (.waita h o) s = .next ((s.enterWait w e h (waitaFor s w e h o pa)).waitaTry w o x (some pa)
      (waitaVal e o) h.sf false) := waita_issues hi hre hg hh (hat.chk hsize hwatch) hat
    by_cases hc : ∃ m, s.waitaRead w o pa = some m ∧ waitaCond o m (waitaVal e o) = true
    · obtain ⟨m, hm, hcond⟩ := hc
      obtain ⟨w', hiss, ⟨haccs, hgroups, hmem⟩, hnone, hpred⟩ := enterWait_ends (e := e) (h := h) (va := x) (sf := h.sf)
        (c := waitaFor s w e h o pa) hw hm hcond hat.sound
      exact ⟨_, w', hx, hiss, haccs, hgroups, hmem, fun _ => ⟨hnone, hpred.trans (waitPred_zero w o.pd true)⟩,
        fun hn => absurd (hn m hm) (by simp [hcond])⟩
    · have hno : ∀ m, s.waitaRead w o pa = some m → waitaCond o m (waitaVal e o) = false := fun m hm => by
        by_contra hcond
        exact hc ⟨m, hm, by simpa using hcond⟩
      obtain ⟨hiss, haccs, hgroups, hmem⟩ := enterWait_goesOn (e := e) (h := h) (va := x) (sf := h.sf)
        (c := waitaFor s w e h o pa) hw hno hat.sound
      refine ⟨_, _, hx, hiss, haccs, hgroups, hmem, fun hyes => absurd hyes hc, fun _ => ⟨?_, rfl⟩⟩
      rw [enteredWait, entered_frame]

end Sys2Proof.Machine
end

section
/-!
SUPPORT. Little-endian numbers in memory (R51, R85).
-/

namespace Sys2Proof.Machine

/-- The bytes of a number, each at its place. -/
theorem leBytes_eq_map (n x : Nat) : leBytes n x = (List.range n).map fun k => BitVec.ofNat 8 (x / 256 ^ k) := by
  induction n generalizing x with
  | zero => rfl
  | succ n ih => simp [leBytes, ih, List.range_succ_eq_map, Nat.div_div_eq_div_mul, Nat.pow_succ']

@[simp] theorem length_leBytes (n x : Nat) : (leBytes n x).length = n := by simp [leBytes_eq_map]

theorem getD_leBytes {n k : Nat} (hk : k < n) (x : Nat) : (leBytes n x).getD k 0 = BitVec.ofNat 8 (x / 256 ^ k) := by
  simp [leBytes_eq_map, hk]

/-- A number is read back from its bytes, modulo their width. -/
theorem leNat_leBytes (n x : Nat) : leNat (leBytes n x) = x % 256 ^ n := by
  induction n generalizing x with
  | zero => simp [leBytes, leNat, Nat.mod_one]
  | succ n ih =>
    calc leNat (leBytes (n + 1) x) = x % 256 + 256 * (x / 256 % 256 ^ n) := by rw [leBytes, leNat, ih, BitVec.toNat_ofNat]
      _ = x % 256 ^ (n + 1) := by rw [Nat.pow_succ', Nat.mod_mul]

/-- The bytes of a range, each read at its address. -/
theorem rdBytes_eq_map (s : State) (pa n : Nat) : s.rdBytes pa n = (List.range n).map fun k => s.rdByte (pa + k) := by
  induction n generalizing pa with
  | zero => rfl
  | succ n ih => simp [State.rdBytes, ih, List.range_succ_eq_map, Nat.add_comm, Nat.add_left_comm]

/-- A byte read after a number is written. -/
theorem rdByte_wrNat {s : State} (hm : Memory.wf s.mem = true) (pa n x a : Nat) : (s.wrNat pa n x).rdByte a =
    if pa ≤ a ∧ a < pa + n then BitVec.ofNat 8 (x / 256 ^ (a - pa)) else s.rdByte a := by
  rw [State.wrNat, rdByte_wrBytes hm, length_leBytes]
  split
  · exact getD_leBytes (by omega) x
  · rfl

/-- A number that has been written is read back, modulo its width. -/
theorem rdNat_wrNat_same {s : State} (hm : Memory.wf s.mem = true) (pa n x : Nat) :
    (s.wrNat pa n x).rdNat pa n = x % 2 ^ (8 * n) := by
  have hbytes : (s.wrNat pa n x).rdBytes pa n = leBytes n x := by
    rw [rdBytes_eq_map, leBytes_eq_map]
    refine List.map_congr_left fun k hk => ?_
    have hk := List.mem_range.1 hk
    rw [rdByte_wrNat hm, if_pos (by omega), Nat.add_sub_cancel_left]
  rw [State.rdNat, hbytes, leNat_leBytes, Nat.pow_mul]

/-- A write leaves what is read beside it. -/
theorem rdNat_wrNat_other {s : State} (hm : Memory.wf s.mem = true) {pa n x qa m : Nat} (h : qa + m ≤ pa ∨ pa + n ≤ qa) :
    (s.wrNat pa n x).rdNat qa m = s.rdNat qa m := by
  have hbytes : (s.wrNat pa n x).rdBytes qa m = s.rdBytes qa m := by
    rw [rdBytes_eq_map, rdBytes_eq_map]
    refine List.map_congr_left fun k hk => ?_
    have hk := List.mem_range.1 hk
    rw [rdByte_wrNat hm, if_neg (by omega)]
  rw [State.rdNat, hbytes, State.rdNat]

end Sys2Proof.Machine
end

section
/-! Bytes of memory: the statement about writes and the reads after them, and its proof. -/

namespace Sys2Proof.Machine

/-- Settles O18: a number's write is that of its bytes, and its read puts them together again. -/
theorem memoryBytes : Obligations.MemoryBytes :=
  ⟨fun _ pa n x a hm => rdByte_wrNat hm pa n x a,
    fun _ pa n x _ _ hm => ⟨rdNat_wrNat_same hm pa n x, rdNat_wrNat_other hm⟩⟩

end Sys2Proof.Machine
end

section
/-!
SUPPORT. Instructions of the moulds: what they send, whatever their operation (R64, R68, R98, R150).
-/

namespace Sys2Proof.Claims

open Sys2Proof.Machine

/-- The saturation classes that the lanes of an instruction set together. -/
def satOf (e : Env) (h : Hdr) (u : Bool) (f : Nat → Byte) : Byte := (lanesOf e h u).foldl (fun b t => b ||| f t) 0

theorem satPut_eq (b : Byte) : satPut b = if b = 0 then [] else [.sat b] := by simp [satPut]

theorem satPut_if (c : Prop) [Decidable c] {b : Byte} (hb : b ≠ 0) :
    satPut (if c then b else 0) = if c then [.sat b] else [] := by
  rw [satPut_eq]
  by_cases hc : c
  · rw [if_pos hc, if_pos hc, if_neg hb]
  · rw [if_neg hc, if_neg hc, if_pos rfl]

/-- The class of an operation with one class is set where some lane saturates. -/
theorem satOf_if (e : Env) (h : Hdr) (u : Bool) (p : Nat → Prop) [DecidablePred p] (b : Byte) :
    satOf e h u (fun t => if p t then b else 0) = if (lanesOf e h u).any (fun t => decide (p t)) then b else 0 := by
  have from_ (l : List Nat) (m : Byte) :
      l.foldl (fun m t => m ||| if p t then b else 0) m = m ||| if l.any (fun t => decide (p t)) then b else 0 := by
    induction l generalizing m with
    | nil => exact BitVec.or_zero.symm
    | cons t l ih =>
      rw [List.foldl_cons, ih, BitVec.or_assoc]
      congr 1
      by_cases ht : p t <;> cases hl : l.any fun t => decide (p t) <;> simp [ht, hl]
  exact (from_ _ 0).trans BitVec.zero_or

/-- No lane of an operation without a class saturates. -/
theorem satOf_zero (e : Env) (h : Hdr) (u : Bool) : satOf e h u (fun _ => 0#8) = 0#8 := by
  simpa using satOf_if e h u (fun _ => False) 0

/-- A narrow result is its low half in every lane. -/
theorem resultOf_narrow {e : Env} {h : Hdr} {u : Bool} {d : Dst} {f g : Nat → W64} (hfg : ∀ t, lo32 (f t) = lo32 (g t)) :
    resultOf e h u false d f = resultOf e h u false d g := by
  cases d with
  | v n => simp [resultOf, putDst, putV, hfg]
  | s n => cases hl : lanesOf e h u <;> simp [resultOf, putDst, putS, hfg, hl]
  | q n => rfl

/-- An instruction of the mould sends each lane's result and the classes that saturate. -/
theorem sends_of_mould {s : State} {w : Wave} {i : Instr} {h : Hdr} {u : Bool} {d : Dst} {dw : Bool}
    {f : Env → Nat → W64 × Byte} {ps : Env → List Put} (hx : exec i s = mould i h u d dw f s)
    (hps : resultOf (mkEnv s w u i) h u dw d (fun t => (f (mkEnv s w u i) t).1) ++
      satPut (satOf (mkEnv s w u i) h u fun t => (f (mkEnv s w u i) t).2) = ps (mkEnv s w u i)) (hi : Issues s w i u) :
    Sends s w i h u (aluLat u) ps := by
  refine sends_of_fixed hx hi rfl ?_
  rw [← hps]
  simp only [resultOf, satOf, List.map_map, List.foldl_map]
  rfl

/-- An instruction of the mould that never saturates sends each lane's result. -/
theorem sends_of_plainMould {s : State} {w : Wave} {i : Instr} {h : Hdr} {u : Bool} {d : Dst} {dw : Bool}
    {f g : Env → Nat → W64} (hx : exec i s = mould i h u d dw (fun e t => (f e t, 0)) s)
    (hfg : ∀ t, f (mkEnv s w u i) t = g (mkEnv s w u i) t) (hi : Issues s w i u) :
    Sends s w i h u (aluLat u) fun e => resultOf e h u dw d (g e) := by
  refine sends_of_mould hx ?_ hi
  rw [← funext hfg]
  exact (congrArg (_ ++ satPut ·) (satOf_zero _ h u)).trans (List.append_nil _)

/-! ### Narrow sources (R62–R64) -/

/-- A vector source, as a number. -/
theorem toNat_src_vec (e : Env) (f : Nat) (x : VSrc) (t : Nat) : (e.src f false (.vec x) t).toNat = (e.v32 f x t).toNat :=
  BitVec.toNat_setWidth_of_le (show 32 ≤ 64 by decide)

/-- A source of either space is the 32-bit value that it holds. -/
theorem toNat_src_narrow (e : Env) (f : Nat) (x : Src) (t : Nat) : (e.src f false x t).toNat = (src32 e f x t).toNat := by
  cases x <;> simp [src32, lo32, Env.src] <;> omega

/-! ### Integers of a tag's width (R93, R148, R151) -/

theorem readInt_wide (t : Tag) (x : W64) : readInt t 64 x = intOf t.signed x := by
  have := x.isLt
  cases ht : t.signed
  · simp [readInt, intOf, ht]
    omega
  · simp [readInt, intOf, ht, BitVec.toInt_eq_toNat_cond]
    split <;> split <;> omega

theorem readInt_narrow (t : Tag) (x : W64) : readInt t 32 x = intOf t.signed (lo32 x) := by
  cases ht : t.signed
  · simp [readInt, intOf, lo32, ht]
  · simp [readInt, intOf, lo32, ht, BitVec.toInt_eq_toNat_cond]
    split <;> split <;> omega

/-- A source of the tag's width, as the integer it is. -/
theorem readInt_src (g : Tag) (e : Env) (f : Nat) (x : Src) (t : Nat) : readInt g (tagW g) (e.src f g.wide x t) =
    if g.wide then intOf g.signed (src64 e f x t) else intOf g.signed (src32 e f x t) := by
  cases hw : g.wide
  · simp [tagW, hw, readInt_narrow, src32]
  · simp [tagW, hw, readInt_wide, src64]

theorem wrapInt_wide (x : Int) : wrapInt 64 x = BitVec.ofInt 64 x := by
  apply BitVec.eq_of_toNat_eq
  simp [wrapInt, BitVec.toNat_ofInt]
  omega

theorem lo32_wrapInt (x : Int) : lo32 (wrapInt 32 x) = lo32 (BitVec.ofInt 64 x) := by
  apply BitVec.eq_of_toNat_eq
  simp [wrapInt, lo32, BitVec.toNat_ofInt]
  omega

/-- An integer result, as the destination of the tag's width keeps it. -/
theorem resultOf_wrapInt (g : Tag) (e : Env) (h : Hdr) (u : Bool) (d : Dst) (f : Nat → Int) :
    resultOf e h u g.wide d (fun t => wrapInt (tagW g) (f t)) = resultOf e h u g.wide d fun t => BitVec.ofInt 64 (f t) := by
  cases hw : g.wide
  · exact resultOf_narrow fun t => by simp [tagW, hw, lo32_wrapInt]
  · simp [tagW, hw, wrapInt_wide]

/-- A value held between two bounds, and whether that changes it. -/
theorem wrapInt_clamp {lo hi : Int} (hle : lo ≤ hi) (w : Nat) (x : Int) (b : Byte) :
    (if x < lo then (wrapInt w lo, b) else if hi < x then (wrapInt w hi, b) else (wrapInt w x, 0)) =
      (wrapInt w (max lo (min hi x)), if max lo (min hi x) ≠ x then b else 0) := by
  by_cases hlo : x < lo
  · have hc : max lo (min hi x) = lo := by omega
    simp [hc, hlo, hlo.ne']
  · by_cases hhi : hi < x
    · have hc : max lo (min hi x) = hi := by omega
      simp [hc, hlo, hhi, hhi.ne]
    · have hc : max lo (min hi x) = x := by omega
      simp [hc, hlo, hhi]

/-- A saturating result is clamped to the range of its tag, and INT is set where that changes it (R93, R98). -/
theorem satInt_eq (g : Tag) (w : Nat) (x : Int) :
    satInt g w x = (wrapInt w (clampTag g.signed w x), if clampTag g.signed w x ≠ x then 1 else 0) := by
  have half : (0 : Int) < 2 ^ (w - 1) := by positivity
  have full : (0 : Int) < 2 ^ w := by positivity
  cases hg : g.signed
  · simpa [satInt, clampTag, SatClass.bit, hg] using wrapInt_clamp (lo := 0) (hi := 2 ^ w - 1) (by omega) w x 1
  · simpa [satInt, clampTag, SatClass.bit, hg] using wrapInt_clamp (lo := -2 ^ (w - 1)) (hi := 2 ^ (w - 1) - 1)
      (by omega) w x 1

end Sys2Proof.Claims
end

section
/-! Saturation: the statement about VADDS and the sticky flags, and its proof. -/

namespace Sys2Proof.Machine

open Sys2Proof.Claims

/-- SATTST, SATCLR and SATARM send their one effect where the guard holds. -/
theorem sends_of_satInstr {s : State} {w : Wave} {i : Instr} {h : Hdr} {p : Put} (hx : exec i s = satInstr i h p s)
    (hi : Issues s w i true) : Sends s w i h true 2 fun e => if w.uGuard h e.c0 then [p] else [] :=
  sends_of_fixed hx hi rfl rfl

/-- With no SATTST of the cycle landed, a change of the flags is that of the flags alone. -/
theorem setSat_of_tst_nil {w : Wave} (ht : w.tst = []) (x : Byte) : w.setSat x = { w with sat := x } := by
  simp [Wave.setSat, ht]

/-- The predicate that a SATTST writes, from flags of which those of its mask have just been cleared and some set again. -/
theorem tstPut_cleared (w : Wave) (pd : Nat) (m b : Byte) : w.tstPut (pd, m) ((w.sat &&& ~~~m) ||| b) =
    w.p.set pd (if b &&& m = 0 then w.p.get pd &&& ~~~w.present else w.p.get pd ||| w.present) := by
  have hm : ((w.sat &&& ~~~m) ||| b) &&& m = b &&& m := by
    ext k
    grind
  have hp (x : W64) : (x &&& ~~~w.present) ||| w.present = x ||| w.present := by
    ext k
    grind
  simp only [Wave.tstPut, Wave.satVal, hm]
  split <;> simp [hp]

/-- A SATTST, a saturation and a SATCLR of one cycle land in the order of their ranks, whatever order they were sent in. -/
theorem landDue_satChain {w : Wave} (m b : Byte) (pd due : Nat) (ht : w.tst = []) :
    ({ w with pend := [⟨due, .satTst pd m⟩, ⟨due, .sat b⟩, ⟨due, .satClr m⟩] } : Wave).landDue due =
      ({ w with pend := [], sat := (w.sat &&& ~~~m) ||| b, p := w.tstPut (pd, m) ((w.sat &&& ~~~m) ||| b), tst := [(pd, m)] } :
        Wave).marks due [.satTst pd m, .sat b, .satClr m] := by
  simp [Wave.landDue, Wave.putRank, Wave.putOut, Wave.land, Wave.tstPut, Wave.satVal, setSat_of_tst_nil, ht]

/-- Settles O2: VADDS by the mould, the clamp being the model's own saturation; the flags' instructions send one effect each,
and in one cycle the effects land by rank. -/
theorem saturationFlags : Obligations.SaturationFlags := by
  refine ⟨fun s w h o hi => ?_, fun s w h pd m c => ⟨sends_of_satInstr rfl, sends_of_satInstr rfl, sends_of_satInstr rfl⟩,
    fun w m b pd due ht => ?_⟩
  · refine sends_of_mould (show exec (.vadds h o) s = execVadds h o s from rfl) ?_ hi
    simp only [readInt_src, satInt_eq, resultOf_wrapInt, satOf_if]
    rw [satPut_if _ (by decide)]
    rfl
  · dsimp only
    rw [landDue_satChain m b pd due ht]
    exact ⟨rfl, rfl, tstPut_cleared w pd m b⟩

end Sys2Proof.Machine
end

section
/-! Arithmetic in floating point: the statement about it, and its proof. -/

namespace Sys2Proof.Machine

open Sys2Proof.Claims

/-- An FP32 form of three operands rounds its function of them once. -/
theorem sends_of_fp3 {s : State} {w : Wave} {i : Instr} {h : Hdr} {o : FAlu3} {f : Val → Val → Val → Val}
    (hx : exec i s = fp3 i h o f s) (hi : Issues s w i o.u) : Sends s w i h o.u (aluLat o.u) fun e =>
      resultOf e h o.u false o.d fun t => BitVec.ofNat 64 (fp32.round o.rnd (f (fp32.val (src32 e 0 o.a t).toNat)
        (fp32.val (src32 e 1 o.b t).toNat) (fp32.val (lo32 (e.old false o.d t)).toNat))) :=
  sends_of_plainMould hx (fun t => by simp [src32, lo32]) hi

theorem fminmax_nan (isMax prop : Bool) {a b : Nat} (hn : ((fp32.val a).isNan || (fp32.val b).isNan) = true) :
    fminmax fp32 isMax prop a b =
      if prop || ((fp32.val a).isNan && (fp32.val b).isNan) then 0x7FC00000 else if (fp32.val a).isNan then b else a := by
  have hnan : fp32.nanc.getD 0 = 0x7FC00000 := rfl
  cases ha : (fp32.val a).isNan <;> cases hb : (fp32.val b).isNan
  · simp [ha, hb] at hn
  all_goals simp [fminmax, ha, hb, hnan]

/-- The smaller or larger of two FP32 codes, with the cases in which one of them is a NaN said apart (R164). -/
theorem fminmax_fp32 (isMax prop : Bool) (a b : Nat) :
    (if (fp32.val a).isNan || (fp32.val b).isNan then
      (if prop || ((fp32.val a).isNan && (fp32.val b).isNan) then 0x7FC00000 else if (fp32.val a).isNan then b else a)
    else fminmax fp32 isMax prop a b) = fminmax fp32 isMax prop a b := by
  split
  · next hn => exact (fminmax_nan isMax prop hn).symm
  · rfl

theorem sends_of_fpMinMax {s : State} {w : Wave} {i : Instr} {h : Hdr} {o : FMinOp} {isMax : Bool}
    (hx : exec i s = fpMinMax i h o isMax s) (hi : Issues s w i o.u) : Sends s w i h o.u (aluLat o.u) fun e =>
      resultOf e h o.u false o.d fun t => BitVec.ofNat 64
        (fminmax fp32 isMax o.prop (src32 e 0 o.a t).toNat (src32 e 1 o.b t).toNat) :=
  sends_of_plainMould hx (fun t => by simp only [toNat_src_narrow]) hi

/-- A half of the low 32 bits of a value. -/
theorem extract_half (x : W64) {k : Nat} (hk : k < 2) :
    ((lo32 x).extractLsb' (16 * k) 16).toNat = x.toNat / 2 ^ (16 * k) % 2 ^ 16 := by
  obtain rfl | rfl : k = 0 ∨ k = 1 := by omega
  · simp [lo32]
  · simp [lo32, Nat.shiftRight_eq_div_pow]
    omega

/-- The two halves of a packed operation, apart. -/
def packedOf (o : HAlu) (f : Val → Val → Val → Val) (a b d : W32) : Nat :=
  let half (x : W32) (k : Nat) : Val := (if o.bf then bf16 else fp16).val (x.extractLsb' (16 * k) 16).toNat
  let el (k : Nat) : Nat := hround o.bf o.rnd (f (half a k) (half b k) (half d k))
  el 0 + el 1 * 2 ^ 16

theorem sends_of_hmould {s : State} {w : Wave} {i : Instr} {h : Hdr} {o : HAlu} {f : Val → Val → Val → Val}
    (hx : exec i s = hmould i h o f s) (hi : Issues s w i o.u) : Sends s w i h o.u (aluLat o.u) fun e =>
      resultOf e h o.u false o.d fun t =>
        BitVec.ofNat 64 (packedOf o f (src32 e 0 o.a t) (src32 e 1 o.b t) (lo32 (e.old false o.d t))) := by
  refine sends_of_plainMould hx (fun t => ?_) hi
  simp only [packedOf, src32, extract_half _ Nat.zero_lt_two, extract_half _ Nat.one_lt_two]

/-- Settles O6: each form by its mould, as a function of the 32-bit values of its operands. -/
theorem floatResults : Obligations.FloatResults := by
  refine ⟨fun s w h o r => ⟨sends_of_fp3 (f := fun a b _ => a.add o.rnd b) rfl,
      sends_of_fp3 (f := fun a b _ => a.add o.rnd b.neg) rfl, sends_of_fp3 (f := fun a b _ => a.mul b) rfl,
      sends_of_fp3 (f := fun a b d => a.fma o.rnd b d) rfl,
      sends_of_plainMould (show exec (.frnd h r) s = execFrnd h r s from rfl) fun _ => rfl⟩,
    fun s w h o => ?_,
    fun s w h o => ⟨sends_of_hmould (f := fun x y _ => x.add o.rnd y) rfl, sends_of_hmould (f := fun x y _ => x.mul y) rfl,
      sends_of_hmould (f := fun x y z => x.fma o.rnd y z) rfl⟩⟩
  simp only [fminmax_fp32]
  exact ⟨sends_of_fpMinMax rfl, sends_of_fpMinMax rfl⟩

end Sys2Proof.Machine
end

section
/-! Conversion and packing: the statement about them, and its proof. -/

namespace Sys2Proof.Machine

open Sys2Proof.Claims

/-- A conversion sends the elements of its active threads, and the classes that saturate. -/
theorem sends_of_vectorMould {s : State} {w : Wave} {i : Instr} {h : Hdr} {d : BitVec 9} {dw : Bool}
    {f g : Env → Nat → W64 × Byte} (hx : exec i s = mould i h false (.v d) dw f s)
    (hfg : ∀ t, f (mkEnv s w false i) t = g (mkEnv s w false i) t) (hi : Issues s w i false) :
    Sends s w i h false 4 fun e =>
      let ts := bitsOf (w.active h e.c0)
      let sat : Byte := ts.foldl (fun b t => b ||| (g e t).2) 0
      putV dw d.toNat (ts.map fun t => (t, (g e t).1)) ++ (if sat = 0 then [] else [.sat sat]) := by
  refine sends_of_mould hx ?_ hi
  rw [funext hfg, satPut_eq]
  rfl

/-! ### Elements of a register -/

theorem toNat_old_v (e : Env) (d : BitVec 9) (t : Nat) : (e.old false (.v d) t).toNat = (e.v32 2 (.v d) t).toNat :=
  toNat_src_vec e 2 (.v d) t

/-- Element `k` of `ws` bits of a source. -/
theorem src_element (e : Env) (x : VSrc) (t ws k : Nat) :
    (if ws = 64 then (e.src 0 (ws = 64) (.vec x) t).toNat
      else (e.src 0 (ws = 64) (.vec x) t).toNat / 2 ^ (ws * k) % 2 ^ ws) =
      if ws = 64 then (e.v64 0 x t).toNat else (e.v32 0 x t).toNat / 2 ^ (ws * k) % 2 ^ ws := by
  by_cases hw : ws = 64
  · simp [hw, Env.src]
  · simp [hw, toNat_src_vec]

/-! ### PACK6 (R174) -/

/-- The code that a thread gives, and the class that it sets. -/
def packCode (o : Pack6Op) (act : W64) (e : Env) (t : Nat) : Nat × Byte :=
  if act.getLsbD t then
    (if o.fromF32 then convert .l6 o.rnd (fp32.val (e.v32 0 o.a t).toNat) else ((e.v32 0 o.a t).toNat % 64, 0))
  else (0, 0)

/-- The four codes of each of some quads, put in its lowest thread, and the classes that its threads set. -/
theorem putV_quads (r : Nat) (quads ms : List Nat) (code : Nat → Nat × Byte) :
    let sat : Byte := (quads.flatMap fun m => (List.range 4).map fun k => (code (m + k)).2).foldl (· ||| ·) 0
    putV false r (ms.map fun m =>
      (m, BitVec.ofNat 64 ((code m).1 + (code (m + 1)).1 * 2 ^ 6 + (code (m + 2)).1 * 2 ^ 12 + (code (m + 3)).1 * 2 ^ 18))) ++
      satPut sat =
    .v r (ms.map fun m =>
      (m, BitVec.ofNat 32 ((code m).1 + (code (m + 1)).1 * 64 + (code (m + 2)).1 * 64 ^ 2 + (code (m + 3)).1 * 64 ^ 3))) ::
      (if sat = 0 then [] else [.sat sat]) := by
  simp [putV, satPut_eq, lo32]

/-- Settles O8: the conversions by the mould, each thread's element as the function of its sources; PACK6 by the codes of its
quads. -/
theorem conversionResults : Obligations.ConversionResults := by
  refine ⟨fun s w h c q m x => ⟨?_, ?_, ?_, ?_⟩, fun s w h o hi => ?_⟩
  · refine sends_of_vectorMould (show exec (.cvt h c) s = execCvt h c s from rfl) fun t => ?_
    simp only [src_element, toNat_old_v]
  · refine sends_of_vectorMould (show exec (.qnt h q) s = execQnt h q s from rfl) fun t => ?_
    simp only [toNat_old_v]
  · refine sends_of_vectorMould (show exec (.mxsc h m) s = execMxsc h m s from rfl) fun t => ?_
    simp only [toNat_old_v]
  · exact sends_of_vectorMould (show exec (.unpack6 h x) s = execUnpack6 h x s from rfl) fun t => rfl
  · refine sends_of_fixed (show exec (.pack6 h o) s = execPack6 h o s from rfl) hi rfl ?_
    exact congrArg (fixed _ h 4 · _)
      (putV_quads _ _ _ (packCode o (w.active h (s.cyc w.id.core)) (mkEnv s w false (.pack6 h o))))

end Sys2Proof.Machine
end

section
/-!
SUPPORT. How an XVI groups its threads into paths by their words (R133).
-/

namespace Sys2Proof.Machine

variable {l : List (BitVec 96 × W64)} {k : BitVec 96} {t : Nat}

theorem getLsbD_oneAt (t : Nat) {u : Nat} (hu : u < 64) : (1#64 <<< t).getLsbD u = decide (u = t) := by
  rw [BitVec.getLsbD_shiftLeft, BitVec.getLsbD_one, Bool.eq_iff_iff]
  simp [hu]
  omega

/-! ### Adding a thread -/

/-- The path of a key that stands in the list takes the thread. -/
def joins (k : BitVec 96) (t : Nat) (p : BitVec 96 × W64) : BitVec 96 × W64 := if p.1 = k then (p.1, p.2 ||| 1#64 <<< t) else p

theorem joins_key (p : BitVec 96 × W64) : (joins k t p).1 = p.1 := by
  unfold joins
  split <;> rfl

theorem getLsbD_joins (p : BitVec 96 × W64) {u : Nat} (hu : u < 64) :
    (joins k t p).2.getLsbD u = true ↔ p.2.getLsbD u = true ∨ p.1 = k ∧ u = t := by
  unfold joins
  split
  · next h => simp [h, getLsbD_oneAt t hu]
  · next h => simp [h]

theorem xviAdd_new (h : ∀ p ∈ l, p.1 ≠ k) : xviAdd l k t = l ++ [(k, 1#64 <<< t)] := by
  induction l with
  | nil => rfl
  | cons p l ih =>
    rw [List.forall_mem_cons] at h
    simp [xviAdd, h.1, ih h.2]

theorem xviAdd_old (hd : l.Pairwise fun p q => p.1 ≠ q.1) (h : ∃ p ∈ l, p.1 = k) : xviAdd l k t = l.map (joins k t) := by
  induction l with
  | nil => simp at h
  | cons p l ih =>
    rw [List.pairwise_cons] at hd
    by_cases hp : p.1 = k
    · have rest : l.map (joins k t) = l := by
        refine List.map_congr_left (g := id) (fun q hq => ?_) |>.trans (List.map_id l)
        exact if_neg fun hq' => hd.1 q hq (hp.trans hq'.symm)
      rw [List.map_cons, rest]
      simp [xviAdd, joins, hp]
    · obtain ⟨q, hq, hqk⟩ := h
      have hin : ∃ q ∈ l, q.1 = k := by
        rcases List.mem_cons.1 hq with rfl | hq
        · exact absurd hqk hp
        · exact ⟨q, hq, hqk⟩
      rw [List.map_cons, ← ih hd.2 hin]
      simp [xviAdd, joins, hp]

/-! ### The paths of a list of threads -/

/-- The paths of some threads, each with the key of its threads, in ascending order of their lowest ones. -/
structure PathsOf (key : Nat → BitVec 96) (ts : List Nat) (l : List (BitVec 96 × W64)) : Prop where
  masks : ∀ p ∈ l, ∀ t, t < 64 → (p.2.getLsbD t = true ↔ t ∈ ts ∧ key t = p.1)
  some_ : ∀ p ∈ l, ∃ t ∈ ts, key t = p.1
  all : ∀ t ∈ ts, ∃ p ∈ l, p.1 = key t
  order : l.Pairwise fun p q => p.1 ≠ q.1 ∧ ∀ t, t < 64 → q.2.getLsbD t = true → ∃ u, u < t ∧ p.2.getLsbD u = true

variable {key : Nat → BitVec 96} {ts : List Nat}

theorem pathsOf_nil : PathsOf key [] [] := ⟨by simp, by simp, by simp, .nil⟩

section
variable (h : PathsOf key ts l) (hlt : ∀ u ∈ ts, u < t) (ht : t < 64)
include h hlt ht

/-- A path holds a thread below any thread to come. -/
theorem PathsOf.below {p : BitVec 96 × W64} (hp : p ∈ l) : ∃ u, u < t ∧ p.2.getLsbD u = true := by
  obtain ⟨u, hu, hk⟩ := h.some_ p hp
  exact ⟨u, hlt u hu, (h.masks p hp u ((hlt u hu).trans ht)).2 ⟨hu, hk⟩⟩

/-- The next thread opens a path, after the others. -/
theorem PathsOf.opens (hnew : ∀ p ∈ l, p.1 ≠ key t) : PathsOf key (ts ++ [t]) (l ++ [(key t, 1#64 <<< t)]) where
  masks := by
    intro p hp u hu
    rw [List.mem_append, List.mem_singleton] at hp ⊢
    rcases hp with hp | rfl
    · rw [h.masks p hp u hu]
      have hne : u = t → key u ≠ p.1 := fun he => he ▸ (hnew p hp).symm
      tauto
    · have hout : u ∈ ts → key u ≠ key t := fun hin he => by
        obtain ⟨p, hp, hpk⟩ := h.all u hin
        exact hnew p hp (hpk.trans he)
      rw [getLsbD_oneAt t hu, decide_eq_true_iff]
      constructor
      · rintro rfl
        exact ⟨.inr rfl, rfl⟩
      · rintro ⟨hin | he, hk⟩
        · exact absurd hk (hout hin)
        · exact he
  some_ := by
    intro p hp
    rcases List.mem_append.1 hp with hp | hp
    · obtain ⟨u, hu, hk⟩ := h.some_ p hp
      exact ⟨u, List.mem_append_left _ hu, hk⟩
    · obtain rfl := List.mem_singleton.1 hp
      exact ⟨t, by simp, rfl⟩
  all := by
    intro u hu
    rcases List.mem_append.1 hu with hu | hu
    · obtain ⟨p, hp, hk⟩ := h.all u hu
      exact ⟨p, List.mem_append_left _ hp, hk⟩
    · obtain rfl := List.mem_singleton.1 hu
      exact ⟨_, List.mem_append_right _ (List.mem_singleton.2 rfl), rfl⟩
  order := by
    refine List.pairwise_append.2 ⟨h.order, List.pairwise_singleton .., fun p hp q hq => ?_⟩
    obtain rfl := List.mem_singleton.1 hq
    refine ⟨hnew p hp, fun u hu hb => ?_⟩
    rw [getLsbD_oneAt t hu, decide_eq_true_iff] at hb
    exact hb ▸ h.below hlt ht hp

/-- The next thread joins the path of its key. -/
theorem PathsOf.joined (hold : ∃ p ∈ l, p.1 = key t) : PathsOf key (ts ++ [t]) (l.map (joins (key t) t)) where
  masks := by
    refine List.forall_mem_map.2 fun p hp u hu => ?_
    rw [joins_key, getLsbD_joins p hu, h.masks p hp u hu, List.mem_append, List.mem_singleton]
    constructor
    · rintro (⟨hin, hk⟩ | ⟨hk, rfl⟩)
      · exact ⟨.inl hin, hk⟩
      · exact ⟨.inr rfl, hk.symm⟩
    · rintro ⟨hin | rfl, hk⟩
      · exact .inl ⟨hin, hk⟩
      · exact .inr ⟨hk.symm, rfl⟩
  some_ := by
    refine List.forall_mem_map.2 fun p hp => ?_
    obtain ⟨u, hu, hk⟩ := h.some_ p hp
    exact ⟨u, List.mem_append_left _ hu, hk.trans (joins_key p).symm⟩
  all := by
    have kept : ∀ {u}, (∃ p ∈ l, p.1 = key u) → ∃ p ∈ l.map (joins (key t) t), p.1 = key u :=
      fun ⟨p, hp, hk⟩ => ⟨_, List.mem_map_of_mem hp, (joins_key p).trans hk⟩
    intro u hu
    rcases List.mem_append.1 hu with hu | hu
    · exact kept (h.all u hu)
    · obtain rfl := List.mem_singleton.1 hu
      exact kept hold
  order := by
    refine List.pairwise_map.2 (h.order.imp_of_mem fun {p q} hp hq ⟨hne, hb⟩ => ?_)
    rw [joins_key, joins_key]
    refine ⟨hne, fun u hu hq' => ?_⟩
    have wider : (∃ v, v < u ∧ p.2.getLsbD v = true) → ∃ v, v < u ∧ (joins (key t) t p).2.getLsbD v = true :=
      fun ⟨v, hv, hb⟩ => ⟨v, hv, (getLsbD_joins p (hv.trans hu)).2 (.inl hb)⟩
    rcases (getLsbD_joins q hu).1 hq' with hq' | ⟨-, rfl⟩
    · exact wider (hb u hu hq')
    · exact wider (h.below hlt ht hp)

theorem PathsOf.add : PathsOf key (ts ++ [t]) (xviAdd l (key t) t) := by
  by_cases hold : ∃ p ∈ l, p.1 = key t
  · rw [xviAdd_old (h.order.imp And.left) hold]
    exact h.joined hlt ht hold
  · have hnew : ∀ p ∈ l, p.1 ≠ key t := fun p hp hk => hold ⟨p, hp, hk⟩
    rw [xviAdd_new hnew]
    exact h.opens hlt ht hnew

end

/-- Rising threads, added one after another, stand in the paths of their keys. -/
theorem pathsOf_foldl (hs : ts.Pairwise (· < ·)) (hts : ∀ t ∈ ts, t < 64) :
    PathsOf key ts (ts.foldl (fun l t => xviAdd l (key t) t) []) := by
  induction ts using List.reverseRecOn with
  | nil => exact pathsOf_nil
  | append_singleton ts t ih =>
    obtain ⟨hs, -, hlt⟩ := List.pairwise_append.1 hs
    rw [List.foldl_concat]
    exact (ih hs fun u hu => hts u (List.mem_append_left _ hu)).add (fun u hu => hlt u hu t (by simp)) (hts t (by simp))

/-! ### The groups of an XVI -/

/-- An XVI groups the threads whose words are permitted, and masks the others. -/
theorem xviGroup_eq (al : Allot) (word : Nat → BitVec 96) (ts : List Nat) : xviGroup al word ts =
    ((ts.filter fun t => xviPermitted al (word t)).foldl (fun l t => xviAdd l (xviKey (word t)) t) [],
      maskOf (ts.filter fun t => !xviPermitted al (word t))) := by
  unfold xviGroup maskOf
  generalize ([] : List (BitVec 96 × W64)) = l, (0 : W64) = m
  induction ts generalizing l m with
  | nil => rfl
  | cons t ts ih =>
    cases hp : xviPermitted al (word t) <;> simp [hp, ih]

theorem xviGroup_fault (al : Allot) (word : Nat → BitVec 96) (ts : List Nat) {t : Nat} (ht : t < 64) :
    (xviGroup al word ts).2.getLsbD t = true ↔ t ∈ ts ∧ xviPermitted al (word t) = false := by
  simp [xviGroup_eq, getLsbD_maskOf _ ht]

theorem xviGroup_paths {al : Allot} {word : Nat → BitVec 96} {ts : List Nat} (hs : ts.Pairwise (· < ·))
    (hts : ∀ t ∈ ts, t < 64) : PathsOf (fun t => xviKey (word t)) (ts.filter fun t => xviPermitted al (word t))
      (xviGroup al word ts).1 := by
  rw [xviGroup_eq]
  exact pathsOf_foldl (hs.sublist List.filter_sublist) fun t ht => hts t (List.mem_of_mem_filter ht)

end Sys2Proof.Machine
end

section
/-!
SUPPORT. The issue of an XVI, and its paths one by one (R131–R136).
-/

namespace Sys2Proof.Machine

open Sys2Proof.Claims

variable {s t : State} {w u : Wave}

/-! ### What an issue sends, and what its packets leave alone -/

theorem recordFrame_trans {r : State} (h : recordFrame s t) (h' : recordFrame t r) : recordFrame s r :=
  Eq.trans h' (congrArg (fun x : State => { x with
    waves := r.waves, cores := r.cores, mem := r.mem, home := r.home, dirty := r.dirty, slc := r.slc, snoop := r.snoop,
    flip := r.flip, fresh := r.fresh, out := r.out, trq := r.trq }) h)

theorem recordFrame_modWave (s : State) (id : WaveId) (f : Wave → Wave) : recordFrame s (s.modWave id f) := rfl

theorem recordFrame_trace (s : State) (w : Wave) (ps : List TrPkt) : recordFrame s (s.trace w ps) := by
  rw [trace_eq]
  rfl

/-- What an issue leaves of its wave. -/
theorem waveFrame_keeps (h : waveFrame w u) : u.v = w.v ∧ u.s = w.s ∧ u.p = w.p ∧ u.exec = w.exec ∧ u.h = w.h ∧
    u.life = w.life ∧ u.handler = w.handler ∧ u.xvi = w.xvi ∧ u.pathidx = w.pathidx := by
  rw [h]
  exact ⟨rfl, rfl, rfl, rfl, rfl, rfl, rfl, rfl, rfl⟩

/-- The wave that has issued, with the effects that its instruction sends on their way. -/
def Wave.sent (w : Wave) (e : Env) (h : Hdr) (lat : Nat) (ps : List Put) : Wave :=
  ((entered w e h).add (e.c + lat) ps).decSf h.sf (e.c + lat)

section
variable {e : Env} {h : Hdr} {lat : Nat} {ps : List Put}

theorem sent_frame (w : Wave) (e : Env) (h : Hdr) (lat : Nat) (ps : List Put) : w.sent e h lat ps = { entered w e h with
    pend := w.pend ++ ps.map (fun p => ⟨e.c + lat, p⟩) ++ countdown h (e.c + lat) } := by
  rw [Wave.sent, add_decSf_pend, entered_frame]

theorem sent_pend (w : Wave) (e : Env) (h : Hdr) (lat : Nat) (ps : List Put) :
    (w.sent e h lat ps).pend = w.pend ++ ps.map (fun p => ⟨e.c + lat, p⟩) ++ countdown h (e.c + lat) := by rw [sent_frame]

theorem sent_waveFrame (w : Wave) (e : Env) (h : Hdr) (lat : Nat) (ps : List Put) : waveFrame w (w.sent e h lat ps) := by
  unfold waveFrame
  conv_lhs => rw [sent_frame, entered_frame]
  rw [sent_frame, entered_frame]

theorem sent_issued (he : e.w = w) (hw : s.wave? w.id = some w) :
    issued s w e h (fixed e h lat ps (s.enter w e h)) (w.sent e h lat ps) := by
  subst he
  have hen := entered_issued (e := e) (h := h) hw
  have hid (x : Wave) : ((x.add (e.c + lat) ps).decSf h.sf (e.c + lat)).id = x.id := by rw [decSf_id]; rfl
  exact {
    there := wave?_modWave_same hid hen.there
    pc := by rw [sent_frame]; exact hen.pc
    prev := by rw [sent_frame]; exact hen.prev
    flags := by rw [sent_frame]; exact hen.flags
    others := fun k hk => (wave?_modWave_other hid hk).trans (hen.others k hk) }

end

section
variable {id : WaveId}

/-- Only the wave of the slot is changed. -/
theorem modWave_congr {f g : Wave → Wave} (h : ∀ x, x.id = id → f x = g x) (s : State) : s.modWave id f = s.modWave id g := by
  have same : upd (fun w : Wave => w.id = id) f s.waves = upd (fun w => w.id = id) g s.waves :=
    List.map_congr_left fun x _ => by
      split
      · next hx => exact h x (by simpa using hx)
      · rfl
  simp only [State.modWave, same]

theorem modWave_put {d : Wave} (hd : d.id = id) (s : State) : (s.modWave id fun _ => d) = s.modWave id fun x => { d with id := x.id } :=
  modWave_congr (fun x hx => by rw [hx, ← hd]) s

theorem wave?_put_same {d : Wave} (hd : d.id = id) (hw : s.wave? id = some w) : (s.modWave id fun _ => d).wave? id = some d := by
  rw [modWave_put hd, wave?_modWave_same (f := fun x => { d with id := x.id }) (fun _ => rfl) hw, wave?_id hw, ← hd]

theorem wave?_put_other {d : Wave} {k : WaveId} (hd : d.id = id) (hk : k ≠ id) : (s.modWave id fun _ => d).wave? k = s.wave? k := by
  rw [modWave_put hd]
  exact wave?_modWave_other (f := fun x => { d with id := x.id }) (fun _ => rfl) hk

end

/-! ### The issue of an XVI -/

/-- The word of a thread of an XVI, in the three registers from `a`. -/
def xviWord (e : Env) (a : BitVec 9) (t : Nat) : BitVec 96 :=
  e.w.rv (e.at_ t) (a.toNat + 2) t ++ (e.w.rv (e.at_ t) (a.toNat + 1) t ++ e.w.rv (e.at_ t) a.toNat t)

/-- The paths and the fault mask of an XVI. -/
def xviOf (e : Env) (h : Hdr) (a : BitVec 9) : List (BitVec 96 × W64) × W64 :=
  xviGroup e.w.allot (xviWord e a) (bitsOf (e.w.active h e.c0))

/-- The wave that has entered the paths of its XVI. -/
def Wave.inPaths (w : Wave) (e : Env) (h : Hdr) (r : List (BitVec 96 × W64) × W64) : Wave :=
  { w with pc := e.w.pc
           xvi := some { paths := r.1, next := 0, bad := r.2, sf := h.sf, start := e.c + 3, retPc := e.w.pc + 12 } }

/-- The wave whose XVI has no path. -/
def Wave.pathless (w : Wave) (e : Env) (bad : W64) : Wave :=
  { (w.xviEnd bad e.lfarm).stepDue with
    notBefore := if e.lfarm && bad ≠ 0 then max w.notBefore (e.c + 3) else w.notBefore }

/-- The state that an XVI leaves as it issues. -/
def State.xviIssued (s : State) (w : Wave) (e : Env) (h : Hdr) (d : BitVec 8) (r : List (BitVec 96 × W64) × W64) : State :=
  let s := fixed e h 3 (Wave.putPair d.toNat r.2) (s.enter w e h)
  if r.1.isEmpty then (s.modWave w.id fun u => u.pathless e r.2).trace w [.mask w.exec]
  else s.modWave w.id fun u => u.inPaths e h r

theorem xvi_issues {h : Hdr} {d : BitVec 8} {a : BitVec 9} (hi : Issues s w (.xvi h d a) false) (hh : w.handler = .none) :
    exec (.xvi h d a) s =
      .next (s.xviIssued w (envOf s w (.xvi h d a) false) h d (xviOf (envOf s w (.xvi h d a) false) h a)) := by
  have hx : exec (.xvi h d a) s = execXvi h d a s := rfl
  have hh' : (envOf s w (.xvi h d a) false).w.handler = .none := hh
  rw [hx, execXvi, issue_ok hi (by simp [hh'])]
  rfl

/-- An XVI leaves no single step due at its issue (R136). -/
theorem sent_xvi_due {w : Wave} {e : Env} {h₀ : Hdr} {d₀ : BitVec 8} {a₀ : BitVec 9} (he : e.id = .xvi h₀ d₀ a₀) (h : Hdr)
    (lat : Nat) (ps : List Put) : (w.sent e h lat ps).due = w.due := by
  rw [sent_frame, entered, he]
  change (w.incSf h.sf).due = w.due
  rw [incSf_eq]

theorem pathless_id (w : Wave) (e : Env) (bad : W64) : (w.pathless e bad).id = w.id := stepDue_id _

section
variable {e : Env} (he : e.w = w) (h : Hdr) (d : BitVec 8) (r : List (BitVec 96 × W64) × W64) (hw : s.wave? w.id = some w)
include he hw

theorem xviIssued_paths (hr : r.1 ≠ []) : (s.xviIssued w e h d r).wave? w.id =
    some ((w.sent e h 3 (Wave.putPair d.toNat r.2)).inPaths e h r) := by
  simp only [State.xviIssued, List.isEmpty_iff, hr, if_false]
  exact wave?_modWave_same (f := fun u => u.inPaths e h r) (fun _ => rfl) (sent_issued he hw).there

theorem xviIssued_pathless (hr : r.1 = []) : (s.xviIssued w e h d r).wave? w.id =
    some ((w.sent e h 3 (Wave.putPair d.toNat r.2)).pathless e r.2) := by
  simp only [State.xviIssued, List.isEmpty_iff, hr, if_true, wave?_trace]
  exact wave?_modWave_same (f := fun u => u.pathless e r.2) (fun x => pathless_id x e r.2) (sent_issued he hw).there

theorem xviIssued_other {k : WaveId} (hk : k ≠ w.id) : (s.xviIssued w e h d r).wave? k = s.wave? k := by
  have sent := (sent_issued (h := h) (lat := 3) (ps := Wave.putPair d.toNat r.2) he hw).others k hk
  simp only [State.xviIssued]
  split
  · rw [wave?_trace]
    exact (wave?_modWave_other (f := fun u => u.pathless e r.2) (fun x => pathless_id x e r.2) hk).trans sent
  · exact (wave?_modWave_other (f := fun u => u.inPaths e h r) (fun _ => rfl) hk).trans sent

end

theorem xviIssued_frame (s : State) (w : Wave) (e : Env) (h : Hdr) (d : BitVec 8) (r : List (BitVec 96 × W64) × W64) :
    recordFrame s (s.xviIssued w e h d r) := by
  have entered : recordFrame s (s.enter w e h) := rfl
  have sent (t : State) : recordFrame t (fixed e h 3 (Wave.putPair d.toNat r.2) t) := rfl
  simp only [State.xviIssued]
  split
  · exact recordFrame_trans (recordFrame_trans (recordFrame_trans entered (sent _)) (recordFrame_modWave ..))
      (recordFrame_trace ..)
  · exact recordFrame_trans (recordFrame_trans entered (sent _)) (recordFrame_modWave ..)

/-- The wave of an XVI without a path has ended it. -/
theorem pathless_eq (w : Wave) (e : Env) (bad : W64) : ∃ due dstate next, w.pathless e bad =
    { w with xvi := none, pathidx := 0xFFFF, due := due, dstate := dstate, notBefore := next } := by
  rw [Wave.pathless, stepDue_eq]
  exact ⟨_, _, _, rfl⟩

/-! ### A path that may issue -/

/-- The wave as its next path issues. -/
def Wave.pathStart (w : Wave) : Wave := { w.atPath with prev := none }

/-- The machine as the next path of a wave issues. -/
def State.pathStart (s : State) (id : WaveId) : State := s.modWave id fun y => { y.atPath with prev := none }

/-- The wave of the issue slot is between the paths of an XVI, and `i` is the word of the next one, which may issue. -/
structure PathReady (s : State) (w : Wave) (x : Xvi) (i : Instr) : Prop where
  slot : s.wave? s.cur = some w
  live : w.life = .live
  xvi : w.xvi = some x
  inPath : w.inPath = true
  start : x.start ≤ s.cyc w.id.core
  head : s.head w = .instr i

variable {x : Xvi} {i : Instr}

theorem atPath_id (w : Wave) : w.atPath.id = w.id := by
  unfold Wave.atPath
  repeat' split
  all_goals rfl

theorem atPath_life (w : Wave) : w.atPath.life = w.life := by
  unfold Wave.atPath
  repeat' split
  all_goals rfl

theorem pathStart_eq (hx : w.xvi = some x) (hp : w.inPath = true) :
    w.pathStart = { w with pathidx := BitVec.ofNat 16 x.next, prev := none } := by
  simp [Wave.pathStart, Wave.atPath, hx, hp]

theorem wave?_pathStart {k : WaveId} (hw : s.wave? k = some w) : (s.pathStart w.id).wave? k = some w.pathStart := by
  obtain rfl := wave?_id hw
  exact wave?_modWave_same (fun y => atPath_id y) hw

theorem wave?_pathStart_other {id k : WaveId} (hk : k ≠ id) : (s.pathStart id).wave? k = s.wave? k :=
  wave?_modWave_other (fun y => atPath_id y) hk

/-! ### The words of a path -/

theorem bits_pack_opc (g : Fields) : bits g.pack 7 0 = g.opc.toNat := by
  conv_rhs => rw [← unpack_pack g]
  simp [Fields.unpack, bits]

/-- A permitted opcode runs as the instruction that it is. -/
theorem xviExec_eq_exec {g : Fields} (he : encodeFields i = some g) (ho : xviOpc g.opc.toNat = true) (s : State) :
    xviExec i s = exec i s := by
  cases i with
  | vadd | vsub | vmul | vmulh | vmad | vand | vor | vxor | vshl | vshr | vsra | vmin | vmax | vabsd | vadds | vclz | vpopc
  | vbfe | vbfi | vsel | vmov | vmovi | vcmp | vbint | vbdei | plog | pmov | fadd | fsub | fmul | ffma | fmin | fmax | fcmp
  | frnd | hadd2 | hmul2 | hfma2 | frcp | frsq | fsqrt | fex2 | flg2 | fsin | fcos | ftanh | cvt | qnt | pack6 | unpack6
  | mxsc | lds | sts | atoms | reds => rfl
  | jmpi _ l | cctlInv _ l =>
    cases l <;> obtain rfl := Option.some.inj he <;> simp [xviOpc] at ho
  | gprog _ o =>
    obtain ⟨_, _ | _⟩ := o <;> obtain rfl := Option.some.inj he <;> simp [xviOpc] at ho
  | nop | bra | bz | bnz | call | ret | exit | exitSucc | waitc | yield | sleep | xvi | exset | exget | pmask | gettime | csrr
  | csrw | sldkArg | sldkConst | sattst | satclr | satarm | shfl | rdlane | wrlane | vred | vscan | vmatch | barinit | arrive
  | bwait | btest | waita | ldg | stg | atom | red | fence | cctlClean | cctlCleaninv | pref | qstat | qdrop | link | unlink
  | tmma | tzero | tdrainSt | tdrainAddst | cpy | htest | hcancel | hwait | rbox | rtri | rhint | rhset | rast | tex | texq
  | blend | launchEnq | launchCancel | setpri | trap | trapret | faultretRetry | faultretSkip | faultretEmul | dbgbrk =>
    obtain rfl := Option.some.inj he
    simp [xviOpc] at ho
  | _ => exact absurd he nofun

/-- An instruction of a permitted opcode has the common course of an issue. -/
theorem hasCourse_of_xviOpc {g : Fields} (he : encodeFields i = some g) (ho : xviOpc g.opc.toNat = true) : HasCourse i := by
  refine hasCourse (by simp [encode, he]) ?_
  rintro h o rfl
  obtain rfl := Option.some.inj he
  simp [xviOpc] at ho

/-! ### What a path leaves -/

theorem exec_xviPath (s : State) : exec .xviPath s = execXviPath s := rfl

/-- A path always goes on, as its instruction does. -/
theorem PathReady.goesOn (h : PathReady s w x i) (hr : xviExec i (s.pathStart w.id) = .next t) :
    ∃ r, exec .xviPath s = .next r := by
  have hr' : xviExec i (s.modWave w.id fun y => { y.atPath with prev := none }) = .next t := hr
  simp only [exec_xviPath, execXviPath, h.slot, h.head, hr']
  repeat' split
  all_goals exact ⟨_, rfl⟩

/-- The state once a path has issued and left its wave as `u`: on to the next one, or out of the XVI. -/
def State.pathOver (t : State) (w u : Wave) : State :=
  let done := u.pathDone (t.part w.grp.part).lfarm
  let t := (t.trace w.atPath [.mask w.execNow]).modWave w.id fun _ => done
  if done.xvi.isNone then t.trace w.atPath [.mask done.exec] else t

theorem PathReady.passes (h : PathReady s w x i) (hr : xviExec i (s.pathStart w.id) = .next t) (ht : t.wave? w.id = some u)
    (hh : u.handler = w.handler) (hl : u.life = w.life) {c : Nat} (hp : u.prev = some c) :
    exec .xviPath s = .next (t.pathOver w u) := by
  have hr' : xviExec i (s.modWave w.id fun y => { y.atPath with prev := none }) = .next t := hr
  have hgo : (w.life = .exited || !w.inPath || (w.xvi.map fun x => decide (s.cyc w.id.core < x.start)).getD true) = false := by
    simp [h.live, h.inPath, h.xvi, h.start]
  have hsame : (u.handler ≠ w.handler || u.life ≠ w.life) = false := by simp [hh, hl]
  simp only [exec_xviPath, execXviPath, h.slot, h.head, hr', ht, hgo, hsame, hp]
  rfl

section
variable (hu : t.wave? w.id = some u) (hd : (u.pathDone (t.part w.grp.part).lfarm).id = w.id)
include hd

theorem pathOver_wave (hu : t.wave? w.id = some u) :
    (t.pathOver w u).wave? w.id = some (u.pathDone (t.part w.grp.part).lfarm) := by
  have there := wave?_put_same hd ((wave?_trace t w.atPath [.mask w.execNow] w.id).trans hu)
  simp only [State.pathOver]
  split
  · exact (wave?_trace ..).trans there
  · exact there

theorem pathOver_other {k : WaveId} (hk : k ≠ w.id) : (t.pathOver w u).wave? k = t.wave? k := by
  have others := (wave?_put_other hd hk).trans (wave?_trace t w.atPath [.mask w.execNow] k)
  simp only [State.pathOver]
  split
  · exact (wave?_trace ..).trans others
  · exact others

end

section
variable {lf : Bool}

theorem pathDone_more (hx : u.xvi = some x) (hn : x.next + 1 < x.paths.length) :
    u.pathDone lf = { u with xvi := some { x with next := x.next + 1 } } := by
  simp [Wave.pathDone, hx, hn]

theorem pathDone_last (hx : u.xvi = some x) (hn : x.paths.length ≤ x.next + 1) :
    u.pathDone lf = { u.xviEnd x.bad lf with pc := x.retPc } := by
  simp [Wave.pathDone, hx, Nat.not_lt.2 hn]

theorem pathDone_eq (hx : u.xvi = some x) : ∃ v p c ds,
    u.pathDone lf = { u with xvi := v, pathidx := p, pc := c, due := ds } := by
  rcases Nat.lt_or_ge (x.next + 1) x.paths.length with hn | hn
  · exact ⟨_, _, _, _, pathDone_more hx hn⟩
  · exact ⟨_, _, _, _, pathDone_last hx hn⟩

end

/-- The wave once a path that only sends effects has issued. -/
structure PathSent (w : Wave) (x : Xvi) (e : Env) (h : Hdr) (lat : Nat) (ps : List Put) (w' : Wave) : Prop where
  pend : w'.pend = w.pend ++ ps.map (fun p => ⟨e.c + lat, p⟩) ++ countdown h (e.c + lat)
  regs : w'.v = w.v ∧ w'.s = w.s ∧ w'.p = w.p
  exec : w'.exec = w.exec
  handles : w'.h = w.h
  life : w'.life = w.life
  prev : w'.prev = some e.c
  flags : w'.flags = if h.sf.toNat < 12 then w.flags.set h.sf.toNat (w.flags.get h.sf.toNat + 1) else w.flags
  more : x.next + 1 < x.paths.length →
    w'.xvi = some { x with next := x.next + 1 } ∧ w'.pathidx = BitVec.ofNat 16 x.next ∧ w'.pc = w.pc
  last : x.paths.length ≤ x.next + 1 → w'.xvi = none ∧ w'.pathidx = 0xFFFF ∧ w'.pc = x.retPc

/-- A path whose word only sends effects sends them, and the XVI goes on (R133, R136). -/
theorem PathReady.sends (h : PathReady s w x i) (hx : ∀ s, xviExec i s = exec i s) {hd : Hdr} {lat : Nat}
    {ps : Env → List Put} (hs : Sends (s.pathStart w.id) w.pathStart i hd false lat ps) :
    let e := envOf (s.pathStart w.id) w.pathStart i false
    ∃ r w', exec .xviPath s = .next r ∧ r.wave? w.id = some w' ∧ PathSent w x e hd lat (ps e) w' ∧
      ∀ k, k ≠ w.id → r.wave? k = s.wave? k := by
  obtain ⟨t, u, hex, hiss, hfr, hpend, -⟩ := hs
  have hst := pathStart_eq h.xvi h.inPath
  have hid : w.pathStart.id = w.id := atPath_id w
  obtain ⟨hv, hs, hp, hexec, hh, hlife, hhan, hxvi, hpath⟩ := waveFrame_keeps hfr
  rw [hst] at hv hs hp hexec hh hlife hhan hxvi hpath
  have hx' : u.xvi = some x := hxvi.trans h.xvi
  have hth : t.wave? w.id = some u := by rw [← hid]; exact hiss.there
  have hr := h.passes ((hx _).trans hex) hth hhan hlife hiss.prev
  have hid' : u.id = w.id := wave?_id hth
  obtain ⟨v, p, c, ds, heq⟩ := pathDone_eq (lf := (t.part w.grp.part).lfarm) hx'
  have hdid : (u.pathDone (t.part w.grp.part).lfarm).id = w.id := by rw [heq]; exact hid'
  refine ⟨_, _, hr, pathOver_wave hdid hth, ?sent, fun k hk => ?others⟩
  case others =>
    exact (pathOver_other hdid hk).trans ((hiss.others k (hid ▸ hk)).trans (wave?_pathStart_other hk))
  case sent =>
    exact {
      pend := by rw [heq]; exact hpend.trans (by rw [hst])
      regs := by rw [heq]; exact ⟨hv, hs, hp⟩
      exec := by rw [heq]; exact hexec
      handles := by rw [heq]; exact hh
      life := by rw [heq]; exact hlife
      prev := by rw [heq]; exact hiss.prev
      flags := by rw [heq]; exact hiss.flags.trans (by rw [hst])
      more := fun hn => by
        rw [pathDone_more hx' hn]
        refine ⟨rfl, hpath, hiss.pc.trans ?_⟩
        rw [if_pos (by rw [hst]; exact h.inPath), hst]
      last := fun hn => by
        rw [pathDone_last hx' hn]
        exact ⟨rfl, rfl, rfl⟩ }

end Sys2Proof.Machine
end

section
/-!
SUPPORT. The sums of a VADD (R151).
-/

namespace Sys2Proof.Claims

open Sys2Proof.Machine

theorem ofInt_intOf {n : Nat} (signed : Bool) (x : BitVec n) : BitVec.ofInt n (intOf signed x) = x := by
  cases signed <;> simp [intOf]

theorem wrapInt_narrow (x : Int) : wrapInt 32 x = (BitVec.ofInt 32 x).zeroExtend 64 := by
  apply BitVec.eq_of_toNat_eq
  simp [wrapInt, BitVec.toNat_ofInt]

/-- An integer form of three operands sends its function of them, as the tag reads them. -/
theorem sends_of_alu3 {s : State} {w : Wave} {i : Instr} {h : Hdr} {o : Alu3} {f : Nat → Int → Int → Int → W64}
    {g : Env → Nat → W64} (hx : exec i s = alu3 i h o f s)
    (hfg : ∀ e t, f (tagW o.tag) (readInt o.tag (tagW o.tag) (e.src 0 o.tag.wide o.a t))
      (readInt o.tag (tagW o.tag) (e.src 1 o.tag.wide o.b t)) (readInt o.tag (tagW o.tag) (e.old o.tag.wide o.d t)) = g e t)
    (hi : Issues s w i o.u) : Sends s w i h o.u (aluLat o.u) fun e => resultOf e h o.u o.tag.wide o.d (g e) :=
  sends_of_plainMould hx (hfg _) hi

/-- The sum of two sources of a tag's width is that of their values, modulo that width. -/
theorem wrapInt_add_src (o : Alu3) (e : Env) (t : Nat) :
    wrapInt (tagW o.tag) (readInt o.tag (tagW o.tag) (e.src 0 o.tag.wide o.a t) +
      readInt o.tag (tagW o.tag) (e.src 1 o.tag.wide o.b t)) =
      atWidth o (fun a b _ => a + b) (fun a b _ => a + b) e t := by
  rw [readInt_src, readInt_src]
  cases hw : o.tag.wide
  · simp [tagW, atWidth, hw, wrapInt_narrow, BitVec.ofInt_add, ofInt_intOf]
  · simp [tagW, atWidth, hw, wrapInt_wide, BitVec.ofInt_add, ofInt_intOf]

theorem sends_of_vadd {s : State} {w : Wave} {h : Hdr} {o : Alu3} (hi : Issues s w (.vadd h o) o.u) :
    Sends s w (.vadd h o) h o.u (aluLat o.u) fun e =>
      resultOf e h o.u o.tag.wide o.d (atWidth o (fun a b _ => a + b) (fun a b _ => a + b) e) :=
  sends_of_alu3 (f := fun w a b _ => wrapInt w (a + b)) rfl (wrapInt_add_src o) hi

end Sys2Proof.Claims
end

section
/-! XVI and its paths: the statements about them, and their proofs. -/

namespace Sys2Proof.Machine

open Sys2Proof.Claims

/-- Settles O33: the groups by their keys; an XVI by the wave that it leaves; a path by the instruction that its word is. -/
theorem xviExecution : Obligations.XviExecution := by
  refine ⟨?groups, ?issue, ?path⟩
  case groups =>
    intro al word ts hs hts r
    have hpaths := xviGroup_paths (al := al) (word := word) hs hts
    refine ⟨fun t ht => xviGroup_fault al word ts ht, fun k m hm t ht => ?_, fun t ht hp => ?_, hpaths.order⟩
    · rw [hpaths.masks _ hm t ht, List.mem_filter, and_assoc]
    · obtain ⟨⟨k, m⟩, hm, rfl⟩ := hpaths.all t (List.mem_filter.2 ⟨ht, hp⟩)
      exact ⟨m, hm⟩
  case issue =>
    intro s w h d a hi hh e n r
    have hw : s.wave? w.id = some w := wave?_id hi.slot ▸ hi.slot
    let u := w.sent e h 3 (Wave.putPair d.toNat r.2)
    have hiss : issued s w e h _ u := sent_issued rfl hw
    obtain ⟨hv, hs, hp, hexec, -, -, -, -, hpath⟩ := waveFrame_keeps (sent_waveFrame w e h 3 (Wave.putPair d.toNat r.2))
    have hpend := sent_pend w e h 3 (Wave.putPair d.toNat r.2)
    have hothers (k : WaveId) (hk : k ≠ w.id) : (s.xviIssued w e h d r).wave? k = s.wave? k := xviIssued_other rfl h d r hw hk
    have hframe := xviIssued_frame s w e h d r
    by_cases hr : r.1 = []
    · obtain ⟨due, dstate, next, hend⟩ := pathless_eq u e r.2
      have hthere : (s.xviIssued w e h d r).wave? w.id = some (u.pathless e r.2) := xviIssued_pathless rfl h d r hw hr
      rw [hend] at hthere
      exact ⟨_, _, xvi_issues hi hh, hthere, hexec, hv, hs, hp, hiss.prev, hpend, fun hne => absurd hr hne,
        fun _ => ⟨rfl, rfl, hiss.pc⟩, hothers, hframe⟩
    · exact ⟨_, _, xvi_issues hi hh, xviIssued_paths rfl h d r hw hr, hexec, hv, hs, hp, hiss.prev, hpend,
        fun _ => ⟨rfl, hpath, rfl, sent_xvi_due (e := e) rfl h 3 _⟩, fun hnil => absurd hnil hr,
        hothers, hframe⟩
  case path =>
    intro s w x i hw hl hx hp hst hh ⟨y, hy, ho⟩ w0 s0
    have hready : PathReady s w x i := ⟨hw, hl, hx, hp, hst, hh⟩
    obtain ⟨g, hg, rfl⟩ := Option.map_eq_some_iff.1 hy
    rw [bits_pack_opc] at ho
    have hruns := xviExec_eq_exec hg ho
    have hw0 : (s.pathStart w.id).wave? (s.pathStart w.id).cur = some w.pathStart := wave?_pathStart hw
    refine ⟨?_, fun h lat ps hs => ?_⟩
    · obtain ⟨h, u, chk, eff, hcourse⟩ := hasCourse_of_xviOpc hg ho
      obtain ⟨t, ht⟩ := issue_next (i := i) (h := h) (u := u) (chk := chk) (eff := eff) hw0 ((atPath_life w).trans hl)
      exact hready.goesOn ((hruns _).trans ((hcourse _).trans ht))
    · obtain ⟨t, w', hex, ht, hsent, hothers⟩ := hready.sends hruns hs
      obtain ⟨hv, hsc, hpr⟩ := hsent.regs
      exact ⟨t, w', hex, ht, hsent.pend, hv, hsc, hpr, hsent.exec, hsent.handles, hsent.life.trans hl, hsent.more, hsent.last,
        hothers⟩

/-- Settles O53: a VADD only sends its sums, so its path passes. -/
theorem xviPathAdds : Obligations.XviPathAdds := by
  intro s w x h o hw hx hp hst hh hu w0 s0 e hi
  have hready : PathReady s w x (.vadd h o) := ⟨hw, (atPath_life w).symm.trans hi.live, hx, hp, hst, hh⟩
  have hsum := sends_of_vadd (h := h) (o := o) (hu.symm ▸ hi)
  rw [hu] at hsum
  obtain ⟨t, w', hex, ht, hsent, hothers⟩ := hready.sends (fun _ => rfl) hsum
  obtain ⟨hv, hs, hp'⟩ := hsent.regs
  exact ⟨t, w', hex, ht, hsent.pend, hsent.flags, hv, hs, hp', hsent.exec, hsent.prev, hsent.more, hsent.last, hothers⟩

end Sys2Proof.Machine
end

section
/-!
SUPPORT. Control transfers, and issues that change their own wave at once (R106, R107, R121, R125–R127).
-/

namespace Sys2Proof.Claims

open Sys2Proof.Machine

variable {s t : State} {w u : Wave} {e : Env} {h : Hdr} {pc : W64}

/-! ### What follows the marks of an issue -/

theorem sent_goesTo {lat : Nat} {ps : List Put} (he : e.w = w) (hw : s.wave? w.id = some w) :
    goesTo s w e h (if w.inPath then w.pc else w.pc + 12) (fixed e h lat ps (s.enter w e h)) (w.sent e h lat ps) :=
  have hi := sent_issued (h := h) (lat := lat) (ps := ps) he hw
  { there := hi.there, at_ := hi.pc, prev := hi.prev, flags := hi.flags, others := hi.others, frame := rfl,
    untraced := fun _ => rfl }

/-- The wave of the issue changes by what is no mark of it. -/
theorem goesTo_modWave {f : Wave → Wave} (g : goesTo s w e h pc t u) (hid : ∀ x, (f x).id = x.id)
    (hp : (f u).prev = u.prev) (hfl : (f u).flags = u.flags) : goesTo s w e h (f u).pc (t.modWave w.id f) (f u) where
  there := wave?_modWave_same hid g.there
  at_ := rfl
  prev := hp.trans g.prev
  flags := hfl.trans g.flags
  others := fun k hk => (wave?_modWave_other hid hk).trans (g.others k hk)
  frame := congrArg (fun x : State => { x with waves := (t.modWave w.id f).waves }) g.frame
  untraced := g.untraced

/-- The issue brings packets. -/
theorem goesTo_trace (g : goesTo s w e h pc t u) (ps : List TrPkt) : goesTo s w e h pc (t.trace w ps) u where
  there := (wave?_trace ..).trans g.there
  at_ := g.at_
  prev := g.prev
  flags := g.flags
  others := fun k hk => (wave?_trace ..).trans (g.others k hk)
  frame := by
    rw [trace_eq]
    exact congrArg (fun x : State => { x with trq := (t.trace w ps).trq }) g.frame
  untraced := fun hm => by
    have hpart : t.part w.grp.part = s.part w.grp.part := by rw [g.frame]; rfl
    have off : t.trace w ps = t := by simp [State.trace, State.traceFrom, hpart, hm]
    rw [off]
    exact g.untraced hm

theorem issued_modWave {f : Wave → Wave} (hi : issued s w e h t u) (hid : ∀ x, (f x).id = x.id) (hpc : (f u).pc = u.pc)
    (hp : (f u).prev = u.prev) (hfl : (f u).flags = u.flags) : issued s w e h (t.modWave w.id f) (f u) where
  there := wave?_modWave_same hid hi.there
  pc := hpc.trans hi.pc
  prev := hp.trans hi.prev
  flags := hfl.trans hi.flags
  others := fun k hk => (wave?_modWave_other hid hk).trans (hi.others k hk)

/-! ### A trap at issue -/

/-- A cause that the entry's own check of a U = 1 instruction finds is a trap at issue, with the instruction as return PC. -/
theorem issue_traps {i : Instr} {chk : State → Env → Chk} {eff : Env → State → State} {k : Nat} {tv : W64}
    (hi : Issues s w i true) (hc : chk s (mkEnv s w true i) = .trap k tv) (hk : k ≠ 12) :
    issue i h true chk eff s = .next (s.trapAt w k w.pc tv) := by
  obtain ⟨slot, live, fits, ports, data, handles, -, poison⟩ := hi
  simp only [issue, slot, live, fits, ports, data, handles, hc, ownerChk, poison]
  simp [State.judge, State.oneshot, hk]

/-! ### Control transfers -/

section
variable {i : Instr} {take taken : Env → Bool} {target target' : Env → W64} {link : Option (BitVec 8)}
  {tr : Bool → W64 → List TrPkt}

theorem targetChk_ok {x : W64} (h1 : bits x 1 0 = 0) (h2 : bits x 63 51 = 0) : targetChk x = .ok := by
  simp [targetChk, h1, h2]

theorem targetChk_misaligned {x : W64} (h1 : bits x 1 0 ≠ 0) : targetChk x = .trap 3 x := by
  simp [targetChk, h1]

theorem targetChk_outside {x : W64} (h1 : bits x 1 0 = 0) (h2 : bits x 63 51 ≠ 0) : targetChk x = .trap 5 x := by
  simp [targetChk, h1, h2]

/-- A transfer that is passed by issues, completes in c + 1 and writes no link. -/
theorem transfer_passed (hi : Issues s w i true) (ht : take (mkEnv s w true i) = false) :
    transfer i h take target link tr s = .next
      ((done1 (mkEnv s w true i) h (s.enter w (mkEnv s w true i) h)).trace w (tr false (w.pc + 12))) := by
  rw [transfer, issue_ok hi (by simp [ht])]
  simp only [ht, Bool.false_eq_true, if_false]
  rfl

/-- What a taken transfer sends: its link, in c + 2, or nothing but its completion in c + 1. -/
def linkLat (link : Option (BitVec 8)) : Nat := if link.isSome then 2 else 1
def linkPuts (w : Wave) (link : Option (BitVec 8)) : List Put :=
  match link with
  | some d => Wave.putPair d.toNat (w.pc + 12)
  | none => []

/-- The wave at the target of a transfer. -/
def jumped (pc : W64) (w : Wave) : Wave := { w with pc := pc, ctl := true }

theorem waveFrame_jumped (hf : waveFrame w u) (pc : W64) : waveFrame w (jumped pc u) := congrArg (jumped pc) hf

theorem transfer_taken (hi : Issues s w i true) (ht : take (mkEnv s w true i) = true)
    (hc : targetChk (target (mkEnv s w true i)) = .ok) :
    transfer i h take target link tr s = .next
      (((fixed (mkEnv s w true i) h (linkLat link) (linkPuts w link) (s.enter w (mkEnv s w true i) h)).trace w
        (tr true (target (mkEnv s w true i)))).modWave w.id (jumped (target (mkEnv s w true i)))) := by
  rw [transfer, issue_ok hi (by simp [ht, hc])]
  simp only [ht, if_true]
  cases link <;> rfl

theorem transfers_of_transfer (hx : exec i s = transfer i h take target link tr s) (hi : Issues s w i true)
    (ht : take (mkEnv s w true i) = taken (mkEnv s w true i))
    (hg : target (mkEnv s w true i) = target' (mkEnv s w true i)) : Transfers s w i h taken target' link := by
  intro hok
  let e := mkEnv s w true i
  have hw : s.wave? w.id = some w := wave?_id hi.slot ▸ hi.slot
  cases hd : taken e with
  | true =>
    obtain ⟨h1, h2⟩ := hok hd
    have hgo := goesTo_modWave (f := jumped (target' e)) (goesTo_trace (sent_goesTo (e := e) (h := h)
      (lat := linkLat link) (ps := linkPuts w link) rfl hw) (tr true (target' e))) (fun _ => rfl) rfl rfl
    have hrun := transfer_taken (h := h) (link := link) (tr := tr) hi (ht.trans hd) (hg ▸ targetChk_ok h1 h2)
    rw [hg] at hrun
    refine ⟨_, _, hx.trans hrun, ?_, hgo, rfl, ?_⟩
    · exact waveFrame_jumped (sent_waveFrame ..) _
    · have hp := sent_pend w e h (linkLat link) (linkPuts w link)
      cases link with
      | none =>
        rw [if_neg (by simp)]
        exact hp.trans (congrArg (· ++ countdown h (e.c + 1)) (List.append_nil _))
      | some d =>
        rw [if_pos ⟨rfl, rfl⟩]
        exact hp
  | false =>
    have hgo := goesTo_trace (sent_goesTo (e := e) (h := h) (lat := 1) (ps := []) rfl hw) (tr false (w.pc + 12))
    refine ⟨_, _, hx.trans (transfer_passed hi (ht.trans hd)), sent_waveFrame .., hgo, ?_, ?_⟩
    · rw [sent_frame, entered_frame]
    · simpa using sent_pend w e h 1 []

/-- A taken transfer to a bad target traps at the instruction, with the target in TVAL. -/
theorem transfer_traps {x : W64} (hx : exec i s = transfer i h take target link tr s) (hi : Issues s w i true)
    (ht : take (mkEnv s w true i) = true) (hg : target (mkEnv s w true i) = x) :
    (bits x 1 0 ≠ 0 → exec i s = .next (s.trapAt w 3 w.pc x)) ∧
      (bits x 1 0 = 0 → bits x 63 51 ≠ 0 → exec i s = .next (s.trapAt w 5 w.pc x)) := by
  refine ⟨fun h1 => ?_, fun h1 h2 => ?_⟩
  · rw [hx, transfer, issue_traps hi (by rw [ht, if_pos rfl, hg, targetChk_misaligned h1]) (by decide)]
  · rw [hx, transfer, issue_traps hi (by rw [ht, if_pos rfl, hg, targetChk_outside h1 h2]) (by decide)]

end

/-! ### EXSET, YIELD and SLEEP -/

/-- exec after an EXSET. -/
def exsetExec (w : Wave) (e : Env) (h : Hdr) (op : ExOp) (a : PairSrc) : W64 :=
  if w.uGuard h e.c0 then exsetVal op w.exec (e.pairSrc a) &&& w.present else w.exec

/-- The wave with another exec. -/
def withExec (x : W64) (w : Wave) : Wave := { w with exec := x }

theorem exset_issues {op : ExOp} {a : PairSrc} (hi : Issues s w (.exset h op a) true) :
    exec (.exset h op a) s = .next
      (((done1 (mkEnv s w true (.exset h op a)) h (s.enter w (mkEnv s w true (.exset h op a)) h)).modWave w.id
        (withExec (exsetExec w (mkEnv s w true (.exset h op a)) h op a))).trace w
        [.mask (exsetExec w (mkEnv s w true (.exset h op a)) h op a)]) :=
  (show exec (.exset h op a) s = execExset h op a s from rfl).trans (issue_ok hi rfl)

/-- An instruction that completes in c + 1 and, where its guard holds, does `f` to its wave at its issue. -/
def thenDoes (e : Env) (h : Hdr) (f : Wave → Wave) (s : State) : State :=
  if e.w.uGuard h e.c0 then (done1 e h s).modWave e.w.id f else done1 e h s

/-- A change of a wave that leaves the marks of its issue, and what is on its way to it. -/
structure OwnChange (f : Wave → Wave) : Prop where
  id : ∀ x, (f x).id = x.id
  pc : ∀ x, (f x).pc = x.pc
  prev : ∀ x, (f x).prev = x.prev
  flags : ∀ x, (f x).flags = x.flags
  pend : ∀ x, (f x).pend = x.pend
  frame : ∀ {w u}, waveFrame w u → waveFrame (f w) (f u)

/-- The wave yields for so many cycles, or sleeps until a tick. -/
def yielding (n : Nat) (w : Wave) : Wave := { w with yield := n }
def asleep (tick : W64) (w : Wave) : Wave := { w with wait := .sleep tick }

theorem ownChange_yielding (n : Nat) : OwnChange (yielding n) :=
  ⟨fun _ => rfl, fun _ => rfl, fun _ => rfl, fun _ => rfl, fun _ => rfl, congrArg (yielding n)⟩

theorem ownChange_asleep (tick : W64) : OwnChange (asleep tick) :=
  ⟨fun _ => rfl, fun _ => rfl, fun _ => rfl, fun _ => rfl, fun _ => rfl, congrArg (asleep tick)⟩

/-- An instruction that completes in c + 1, and where its guard holds changes its wave, has the marks of an issue. -/
theorem issues_thenDoes {i : Instr} {f : Env → Wave → Wave}
    (hx : exec i s = issue i h true noChk (fun e s => thenDoes e h (f e) s) s) (hi : Issues s w i true)
    (hf : ∀ e, OwnChange (f e)) :
    let e := envOf s w i true
    ∃ t w', exec i s = .next t ∧ issued s w e h t w' ∧ waveFrame (if w.uGuard h e.c0 then f e w else w) w' ∧
      w'.pend = w.pend ++ countdown h (e.c + 1) ∧ t = { s with waves := t.waves, cores := slotHeld s w e } := by
  intro e
  have hw : s.wave? w.id = some w := wave?_id hi.slot ▸ hi.slot
  have hiss := sent_issued (e := e) (h := h) (lat := 1) (ps := []) rfl hw
  have hfr := sent_waveFrame w e h 1 []
  have hp : (w.sent e h 1 []).pend = w.pend ++ countdown h (e.c + 1) := by simpa using sent_pend w e h 1 []
  have hrun : exec i s = .next (thenDoes e h (f e) (s.enter w e h)) := hx.trans (issue_ok hi rfl)
  have hew : e.w = w := rfl
  by_cases hg : w.uGuard h e.c0 = true
  · rw [thenDoes, hew, if_pos hg] at hrun
    rw [if_pos hg]
    exact ⟨_, _, hrun, issued_modWave hiss (hf e).id ((hf e).pc _) ((hf e).prev _) ((hf e).flags _), (hf e).frame hfr,
      ((hf e).pend _).trans hp, rfl⟩
  · rw [thenDoes, hew, if_neg hg] at hrun
    rw [if_neg hg]
    exact ⟨_, _, hrun, hiss, hfr, hp, rfl⟩

/-! ### Events of one wave -/

/-- An event that changes the wave of a slot and nothing else. -/
theorem changes_wave {f : Wave → Wave} {x : Wave} (hw : s.wave? w.id = some w) (hid : ∀ y, (f y).id = y.id) (hx : f w = x) :
    let t := s.modWave w.id f
    t.wave? w.id = some x ∧ (∀ k, k ≠ w.id → t.wave? k = s.wave? k) ∧ t = { s with waves := t.waves } :=
  ⟨hx ▸ wave?_modWave_same hid hw, fun _ hk => wave?_modWave_other hid hk, rfl⟩

end Sys2Proof.Claims
end

section
/-! Control: the statements about transfers, scalar control and EXSET, and their proofs. -/

namespace Sys2Proof.Machine

open Sys2Proof.Claims

/-- Settles O9: each instruction is a transfer under its condition, to its target. -/
theorem controlTransfers : Obligations.ControlTransfers := by
  have bra (s h imm) : exec (.bra h imm) s = execBra h imm s := rfl
  have bz (s h p imm) : exec (.bz h p imm) s = execBz h p imm s := rfl
  have bnz (s h p imm) : exec (.bnz h p imm) s = execBnz h p imm s := rfl
  have call (s h d imm) : exec (.call h d imm) s = execCall h d imm s := rfl
  have ret (s h a) : exec (.ret h a) s = execRet h a s := rfl
  have jmpi (s h l a) : exec (.jmpi h l a) s = execJmpi h l a s := rfl
  refine ⟨fun s w h imm p a d l => ?_, fun s w h imm p d a l => ?_⟩
  · refine ⟨fun hi => transfers_of_transfer (bra ..) hi rfl rfl, fun hi => transfers_of_transfer (bz ..) hi ?_ rfl,
      fun hi => transfers_of_transfer (bnz ..) hi ?_ rfl, fun hi => transfers_of_transfer (call ..) hi rfl rfl,
      fun hi => transfers_of_transfer (ret ..) hi rfl rfl, fun hi => transfers_of_transfer (jmpi ..) hi rfl rfl⟩
    all_goals cases p <;> rfl
  · intro pair cond x traps
    have hpair (i : Instr) : (mkEnv s w true i).pairSrc p = cond := by cases p <;> rfl
    refine ⟨fun hi hu => transfer_traps (bra ..) hi hu rfl, fun hc hi hu => transfer_traps (bz ..) hi ?_ rfl,
      fun hc hi hu => transfer_traps (bnz ..) hi ?_ rfl, fun hi hu => transfer_traps (call ..) hi hu rfl,
      fun hi hu => transfer_traps (ret ..) hi hu rfl, fun hi hu => transfer_traps (jmpi ..) hi hu rfl⟩
    · rw [hpair]
      exact (Bool.and_eq_true ..).mpr ⟨hu, decide_eq_true hc⟩
    · rw [hpair]
      exact (Bool.and_eq_true ..).mpr ⟨hu, decide_eq_true hc⟩

/-- Settles O12: exec is written in the wave that has issued. -/
theorem execMaskWrites : Obligations.ExecMaskWrites := by
  intro s w h op a hi e m x
  have hw : s.wave? w.id = some w := wave?_id hi.slot ▸ hi.slot
  have hx : exsetExec w e h op a = if w.uGuard h e.c0 then x &&& w.present else w.exec := by
    cases op <;> cases a <;> rfl
  have hgo := goesTo_trace (goesTo_modWave (f := withExec (exsetExec w e h op a))
    (sent_goesTo (e := e) (h := h) (lat := 1) (ps := []) rfl hw) (fun _ => rfl) rfl rfl) [.mask (exsetExec w e h op a)]
  have hpc : (withExec (exsetExec w e h op a) (w.sent e h 1 [])).pc = if w.inPath then w.pc else w.pc + 12 :=
    (sent_issued (e := e) rfl hw).pc
  have hfr : waveFrame (withExec (exsetExec w e h op a) w) (withExec (exsetExec w e h op a) (w.sent e h 1 [])) :=
    congrArg (withExec _) (sent_waveFrame w e h 1 [])
  rw [← hpc, ← hx]
  exact ⟨_, _, exset_issues hi, hgo, hfr, (sent_pend w e h 1 []).trans (by simp)⟩

/-- Settles O10: the instructions by what they send or do to their wave, and the events by the change of theirs. -/
theorem scalarControl : Obligations.ScalarControl := by
  refine ⟨fun s w h u f n r k a => ?_, fun s w h n imm => ?_, fun s w hw => ?_⟩
  · have csrr : exec (.csrr h r k) s = execCsrr h r k s := rfl
    have csrw : exec (.csrw h k a) s = execCsrw h k a s := rfl
    refine ⟨fun hi => sends_of_fixed (show exec (.nop h u) s = execNop h u s from rfl) hi rfl rfl, fun hi hn => ?waitc,
      sends_of_scalarPair (f := fun e => e.time) rfl rfl, fun x hi hx => ?csrr, fun hi hx hrw => ?csrw,
      fun hu => ⟨fun hi => ?noCsrr, fun hi => ?noCsrw⟩⟩
    case waitc =>
      have hle : ¬ n.toNat < (envOf s w (.waitc h f n) true).w.flag f.toNat := Nat.not_lt.2 hn
      exact sends_of_fixed (show exec (.waitc h f n) s = execWaitc h f n s from rfl) hi (by simp [hle]) rfl
    case csrr =>
      refine sends_of_fixed csrr hi (by simp [hx]) ?_
      rw [hx]
      rfl
    case csrw =>
      have hsome := Option.isNone_eq_false_iff.2 hx
      exact sends_of_fixed csrw hi (by simp [hsome, hrw]) rfl
    case noCsrr =>
      have hu' : (envOf s w (.csrr h r k) true).w.uGuard h (envOf s w (.csrr h r k) true).c0 = false := hu
      exact sends_of_fixed csrr hi (by simp [hu']) (by simp [hu'])
    case noCsrw =>
      have hu' : (envOf s w (.csrw h k a) true).w.uGuard h (envOf s w (.csrw h k a) true).c0 = false := hu
      exact sends_of_fixed csrw hi (by simp [hu']) (by simp [hu'])
  · exact ⟨fun hi => issues_thenDoes (f := fun _ => yielding (n.toNat + 2)) rfl hi fun _ => ownChange_yielding _,
      fun hi => issues_thenDoes (f := fun e => asleep (e.time + imm.zeroExtend 64)) rfl hi fun _ => ownChange_asleep _⟩
  · refine ⟨fun hy => ⟨_, rfl, changes_wave hw (fun y => ?_) (if_pos hy)⟩, fun tick ht hle hs => ⟨_, rfl, changes_wave hw (fun y => ?_) ?_⟩,
      fun ha => ⟨_, rfl, changes_wave hw (fun y => ?_) (if_pos ha)⟩⟩
    · split <;> rfl
    · repeat' split
      all_goals rfl
    · simp [ht, hle, hs]
    · split <;> rfl

end Sys2Proof.Machine
end

section
/-!
SUPPORT. What the entry of a trap leaves, and the end of a group that it kills (R32, R106, R210).
-/

namespace Sys2Proof.Machine

open Sys2Proof.Claims

variable {s t : State} {w : Wave}

/-! ### The trap vector -/

theorem tvecOk_iff {v : W64} : tvecOk v = true ↔ v ≠ 0 ∧ v.toNat % 4 = 0 ∧ v.toNat < 2 ^ 51 := by
  have hv := v.isLt
  have low : bits v 1 0 = v.toNat / 2 ^ 0 % 2 ^ 2 := rfl
  have high : bits v 63 51 = v.toNat / 2 ^ 51 % 2 ^ 13 := rfl
  simp only [tvecOk, low, high, Bool.and_eq_true, decide_eq_true_iff, and_assoc]
  refine and_congr_right fun _ => ?_
  omega

theorem trapKill_none (hh : w.handler = .none) (hv : tvecOk (s.part w.grp.part).tvec = true) : s.trapKill w = none := by
  simp [State.trapKill, hh, hv]

/-- A trap in a handler, or without a usable TVEC, kills the group with a record of its kind. -/
theorem trapKill_some {kind : Nat} (h : w.handler ≠ .none ∧ kind = 3 ∨
    w.handler = .none ∧ tvecOk (s.part w.grp.part).tvec = false ∧ kind = 4) : s.trapKill w = some kind := by
  rcases h with ⟨hh, rfl⟩ | ⟨hh, hv, rfl⟩
  · simp [State.trapKill, hh]
  · simp [State.trapKill, hh, hv]

/-! ### Entry -/

/-- A requester that leaves the fault buffer is in no entry of it. -/
theorem not_sameAs_fbLeave (s : State) (r : Requester) {e : FbEntry} (he : e ∈ (s.fbLeave r).fb) {q : Requester × AccKind}
    (hq : q ∈ e.reqs) : q.1.sameAs r = false := by
  obtain ⟨e₀, -, rfl⟩ := List.mem_map.1 he
  simpa using (List.mem_filter.1 hq).2

theorem trapEntry_enters (hk : s.trapKill w = none) (cause : Nat) (ret tval : W64) : s.trapEntry w cause ret tval =
    ((s.fbLeave (.wave w.uid w.id)).modWave w.id fun x => x.trapped cause ret tval (s.part w.grp.part).tvec).trace w
      [.pc (s.part w.grp.part).tvec, .mask w.present] := by
  simp only [State.trapEntry, State.trapEntryOf, hk]
  rfl

theorem trapEntry_kills {kind : Nat} (hk : s.trapKill w = some kind) (cause : Nat) (ret tval : W64) :
    s.trapEntry w cause ret tval = s.killGroup w kind cause ret := by
  simp only [State.trapEntry, State.trapEntryOf, hk]

theorem trapAt_eq_entry (hk : s.trapKill w = none) (cause : Nat) (ret tval : W64) : s.trapAt w cause ret tval =
    s.modWave w.id fun x => { ((x.trapped cause ret tval (s.part w.grp.part).tvec).add (s.cyc w.id.core + 1)
      [.entered x.trSrc (s.part w.grp.part).tvec]) with notBefore := s.cyc w.id.core + 1 } := by
  simp only [State.trapAt, hk]

theorem trapAt_eq_kill {kind : Nat} (hk : s.trapKill w = some kind) (cause : Nat) (ret tval : W64) :
    s.trapAt w cause ret tval = s.modWave w.id fun x =>
      { (x.add (s.cyc w.id.core + 1) [.kill kind cause ret]) with notBefore := s.cyc w.id.core + 1 } := by
  simp only [State.trapAt, hk]

/-! ### The fault queue -/

theorem keepsWaves_fqDrain (s : State) (p fuel : Nat) : KeepsWaves s (s.fqDrain p fuel) := by
  induction fuel generalizing s with
  | zero => exact keepsWaves_refl s
  | succ n ih =>
    simp only [State.fqDrain]
    split
    · exact keepsWaves_refl s
    · split
      · exact (((keepsWaves_wrOut ..).trans (keepsWaves_modPart (by intro; rfl) _ p)).trans (keepsWaves_msix ..)).trans (ih _)
      · exact keepsWaves_refl s

theorem keepsWaves_fqPost (s : State) (p : Nat) (bs : List Byte) : KeepsWaves s (s.fqPost p bs) :=
  (keepsWaves_modPart (by intro; rfl) s p).trans (keepsWaves_fqDrain ..)

/-! ### The end of a group -/

theorem stopWaves_waves (s : State) (which : Wave → Bool) :
    (s.stopWaves which).waves = upd which Wave.stop s.waves ∧ (s.stopWaves which).groups = s.groups := by
  have left := fbLeft_foldl (f := fun (s : State) (w : Wave) => s.fbLeave (.wave w.uid w.id)) (fun s _ => fbLeft_fbLeave s _)
  unfold FbLeft at left
  simp only [State.stopWaves]
  rw [left]
  exact ⟨rfl, rfl⟩

/-- The group as it is once its waves have stopped. -/
def Group.stopped (last : Option TrSrc) (x : Group) : Group :=
  { x with killed := true, exited := x.nw, back := none, lastExit := last <|> x.lastExit,
           tile := x.tile.map fun t => { t with queue := [], owner := none, ann := false, fault := false, miss := [] } }

theorem stopGroup_eq {g : GroupId} {x : Group} (hg : s.group? g = some x) : ∃ last,
    (s.stopGroup g).waves = upd (fun w => w.grp = g) Wave.stop s.waves ∧
      (s.stopGroup g).groups = upd (fun x => x.id = g) (Group.stopped last) s.groups := by
  obtain ⟨hw, hgs⟩ := stopWaves_waves s fun w => w.grp = g
  simp only [State.stopGroup, hg]
  exact ⟨_, hw, congrArg _ hgs⟩

/-- Every wave of a group has stopped, and no wave of another one has changed (R32). -/
structure GroupEnds (s t : State) (id : GroupId) (g : Group) : Prop where
  waves : t.waves = upd (fun w => w.grp = id) Wave.stop s.waves
  group : ∃ last, t.groups = upd (fun x => x.id = id) (Group.stopped last) s.groups
  there : s.group? id = some g

theorem killGroup_ends {g : Group} (hg : s.group? w.grp = some g) (kind cause : Nat) (ret : W64) :
    GroupEnds s (s.killGroup w kind cause ret) w.grp g := by
  have kept := keepsWaves_fqPost (s.stopGroup w.grp) w.grp.part
    (fqBytes ret 0 kind cause 0 w.id.core (w.id.q * 16 + w.id.slot) w.grp.lid)
  obtain ⟨last, hw, hgs⟩ := stopGroup_eq hg
  exact ⟨kept.waves.trans hw, ⟨last, kept.groups.trans hgs⟩, hg⟩

section
variable {id : GroupId} {g : Group} (h : GroupEnds s t id g)
include h

theorem GroupEnds.exited {k : WaveId} {x : Wave} (hx : t.wave? k = some x) (hg : x.grp = id) : x.life = .exited := by
  have hmem : x ∈ t.waves := List.mem_of_find?_eq_some hx
  rw [h.waves] at hmem
  obtain ⟨y, -, rfl⟩ := List.mem_map.1 hmem
  by_cases hy : y.grp = id
  · simp [hy, Wave.stop]
  · simp [hy] at hg

theorem GroupEnds.others {k : WaveId} {x : Wave} (hx : s.wave? k = some x) (hg : x.grp ≠ id) : t.wave? k = some x := by
  have hfind := find?_upd (fun w : Wave => decide (w.id = k)) (fun w => decide (w.grp = id)) Wave.stop (fun _ => rfl) s.waves
  rw [State.wave?, h.waves, hfind, ← State.wave?, hx]
  simp [hg]

theorem GroupEnds.killed : ∃ g', t.group? id = some g' ∧ g'.killed = true ∧ g'.window = g.window ∧
    ∀ k, k ≠ id → t.group? k = s.group? k := by
  obtain ⟨last, hgs⟩ := h.group
  have hgroup (k : GroupId) : t.group? k = (s.modGroup id (Group.stopped last)).group? k := by
    rw [State.group?, hgs]
    rfl
  refine ⟨g.stopped last, (hgroup id).trans (group?_modGroup_same (fun _ => rfl) h.there), rfl, rfl, fun k hk => ?_⟩
  exact (hgroup k).trans (group?_modGroup_other (f := Group.stopped last) (fun _ => rfl) hk)

end

theorem takeOut_kills (hw : s.waveUid? w.uid = some w) (hl : w.life = .live) (kind cause : Nat) (ret : W64) :
    s.takeOut w.sender (.kill kind cause ret) = s.killGroup w kind cause ret := by
  have hw' : s.waveUid? w.sender.uid = some w := hw
  simp [State.takeOut, hw', hl]

end Sys2Proof.Machine
end

section
/-! Taking a trap: the statement about it, and its proof. -/

namespace Sys2Proof.Machine

open Sys2Proof.Claims

/-- Settles O39: a trap that may enter changes its wave; one that kills ends the group. -/
theorem trapEntry : Obligations.TrapEntry := by
  intro s w cause ret tval hw v now usable at_ only killed
  refine ⟨fun hh hu => ?enters, fun g kind hg hkind => ?kills⟩
  case enters =>
    have hk := trapKill_none hh (tvecOk_iff.2 hu)
    rw [trapEntry_enters hk, trapAt_eq_entry hk]
    let f : Wave → Wave := fun x => x.trapped cause ret tval v
    obtain ⟨changed, others, frame⟩ := changes_wave hw (fun _ => rfl) (f := fun x =>
      { (f x).add (now + 1) [.entered x.trSrc v] with notBefore := now + 1 }) rfl
    refine ⟨⟨⟨?_, fun k hk => ?_⟩, ?_, fun x hx r hr => ?_⟩, ⟨changed, others⟩, frame⟩
    · exact (wave?_trace ..).trans (wave?_modWave_same (s := s.fbLeave (.wave w.uid w.id)) (f := f) (fun _ => rfl) hw)
    · exact (wave?_trace ..).trans (wave?_modWave_other (s := s.fbLeave (.wave w.uid w.id)) (f := f) (fun _ => rfl) hk)
    · rw [trace_eq]
      rfl
    · rw [trace_eq] at hx
      exact not_sameAs_fbLeave s _ hx hr
  case kills =>
    have hk : s.trapKill w = some kind := by
      refine trapKill_some (hkind.imp id fun ⟨hh, hu, hkind⟩ => ⟨hh, ?_, hkind⟩)
      exact Bool.eq_false_iff.2 fun hv => hu (tvecOk_iff.1 hv)
    have hends := killGroup_ends hg kind cause ret
    have ended : killed g (s.killGroup w kind cause ret) :=
      ⟨fun k x hx hgr => hends.exited hx hgr, fun k x hx hgr => hends.others hx hgr, hends.killed⟩
    obtain ⟨changed, others, frame⟩ := changes_wave hw (fun _ => rfl) (f := fun x =>
      { x.add (now + 1) [.kill kind cause ret] with notBefore := now + 1 }) rfl
    rw [trapEntry_kills hk, trapAt_eq_kill hk]
    exact ⟨ended, ⟨⟨changed, others⟩, frame⟩, fun hl hu => takeOut_kills hu hl kind cause ret ▸ ended⟩

end Sys2Proof.Machine
end

section
/-!
SUPPORT. Accesses that an issue starts: at the scratchpad port, and with a header or descriptor that it reads (R189, R322).
-/

namespace Sys2Proof.Claims

open Sys2Proof.Machine

variable {s t r : State} {w : Wave}

/-! ### Reads through L1 -/

/-- The state after a core has read: lines of its L1 and of the SLC may come and go, and nothing else differs. -/
def Filled (s t : State) : Prop :=
  t = { s with l1 := t.l1, slc := t.slc, home := t.home, dirty := t.dirty, flip := t.flip, fresh := t.fresh, out := t.out }

theorem filled_refl (s : State) : Filled s s := rfl

theorem Filled.trans (h : Filled s t) (h' : Filled t r) : Filled s r :=
  Eq.trans h' (congrArg (fun x : State => { x with
    l1 := r.l1, slc := r.slc, home := r.home, dirty := r.dirty, flip := r.flip, fresh := r.fresh, out := r.out }) h)

theorem filled_of_served (h : Served s t) : Filled s t := by
  obtain ⟨slc, home, dirty, flip, fresh, out, rfl⟩ := served_iff.1 h
  rfl

theorem filled_free (s : State) : Filled s s.free.2 := rfl

theorem filled_l1 (s : State) (ls : List Line) : Filled s { s with l1 := ls } := rfl

theorem filled_mk (s : State) (ls : List Line) (fresh : Nat) : Filled s { s with l1 := ls, fresh := fresh } := rfl

theorem filled_l1Drop (s : State) (core line : Nat) : Filled s (s.l1Drop core line) := rfl

/-- A run of reads, in a state that stands in what the run works on. -/
theorem filled_foldl {α β : Type} {st : β → State} {f : β → α → β} (hf : ∀ b x, Filled (st b) (st (f b x))) (l : List α) (b : β) :
    Filled (st b) (st (l.foldl f b)) := by
  induction l generalizing b with
  | nil => exact filled_refl _
  | cons x l ih => exact (hf b x).trans (ih (f b x))

theorem filled_l1Fill (s : State) (ways core line id : Nat) : Filled s (s.l1Fill ways core line id).2 := by
  have touched := filled_of_served (served_slcTouch s ways (128 * line) false)
  simp only [State.l1Fill]
  split
  · exact touched
  · have dropped := touched.trans (filled_l1Drop _ core line)
    split
    · exact dropped.trans (filled_l1 ..)
    · exact dropped.trans (filled_mk ..)

theorem filled_l1Load (s : State) (ways core pa n id : Nat) : Filled s (s.l1Load ways core pa n id).2.2 :=
  filled_foldl (st := fun r : List Byte × Bool × State => r.2.2) (fun r x => filled_l1Fill r.2.2 ways core (x / 128) id) _
    ([], false, s)

theorem filled_blockRead (s : State) (w : Wave) (pa : Nat) (l1 : Bool) : Filled s (s.blockRead w pa l1).2.2 := by
  unfold State.blockRead
  split
  · exact filled_of_served (served_slcTouch ..)
  · split
    · exact filled_refl s
    · exact filled_l1Load ..

/-! ### One access more -/

/-- The access `x` is outstanding, and nothing else differs but the units of the cores and what a read may move. -/
structure Adds (s t : State) (x : Acc) : Prop where
  accs : t.accs = s.accs ++ [x]
  id : x.id = s.nextSeq
  core : ∀ c, (t.core c).chan = (s.core c).chan ∧ (t.core c).trace = (s.core c).trace
  rest : t = { s with
    cores := t.cores, accs := t.accs, nextSeq := s.nextSeq + 1, l1 := t.l1, slc := t.slc, home := t.home,
    dirty := t.dirty, flip := t.flip, fresh := t.fresh, out := t.out }

theorem adds_of_filled (h : Filled s t) (a : Acc) : Adds s (t.addAcc a) { a with id := s.nextSeq } := by
  rw [h]
  exact ⟨rfl, rfl, fun _ => ⟨rfl, rfl⟩, rfl⟩

/-- An access of the instruction that `e` issues. -/
structure IssuedBy (e : Env) (h : Hdr) (op : AccOp) (a : Acc) : Prop where
  op : a.op = op
  uid : a.uid = e.w.uid
  at_ : a.w = e.w.id
  grp : a.grp = e.w.grp
  sf : a.sf = h.sf

/-- An issue whose effect adds one access of the instruction. -/
theorem started_of_adds {i : Instr} {h : Hdr} {u : Bool} {op : AccOp} {x : Acc} (hi : Issues s w i u)
    (ht : Adds (s.enter w (mkEnv s w u i) h) t x) (hx : IssuedBy (mkEnv s w u i) h op x) :
    started s w (mkEnv s w u i) h t (entered w (mkEnv s w u i) h) x := by
  have hw : s.wave? w.id = some w := wave?_id hi.slot ▸ hi.slot
  obtain ⟨accs, id, core, rest⟩ := ht
  have waves : t.waves = (s.enter w (mkEnv s w u i) h).waves := (congrArg State.waves rest :)
  have marks := entered_issued (e := mkEnv s w u i) (h := h) hw
  exact {
    marks := issued_of_waves marks waves
    frame := entered_waveFrame ..
    pend := by rw [entered_frame]
    accs := accs
    id := id
    uid := hx.uid
    there := hx.at_
    grp := hx.grp
    sf := hx.sf
    core := fun c => ⟨(core c).1.trans (enter_core ..).1, (core c).2.trans (enter_core ..).2⟩
    rest := by
      rw [waves]
      exact rest }

/-! ### The scratchpad port -/

theorem core_modCore_keeps (s : State) (k c : Nat) (f : Core → Core) (hf : ∀ x, (f x).chan = x.chan ∧ (f x).trace = x.trace) :
    ((s.modCore k f).core c).chan = (s.core c).chan ∧ ((s.modCore k f).core c).trace = (s.core c).trace := by
  simp only [State.core, State.modCore, List.getD_eq_getElem?_getD, List.getElem?_modify]
  by_cases hc : k = c
  · cases s.cores[c]? <;> simp [hc, hf]
  · simp [hc]

/-- A scratchpad access takes the port, under the next number (R189). -/
theorem startSp_adds (s : State) (e : Env) (a : Acc) (store rel atom : Bool) :
    Adds s (s.startSp e a store rel atom) { s.ordered e.w a store rel with id := s.nextSeq } :=
  ⟨rfl, rfl, fun c => core_modCore_keeps s e.w.id.core c _ fun _ => ⟨rfl, rfl⟩, rfl⟩

theorem winChk_ok_of_forall {size win : Nat} {xs : List (Nat × Nat)} (h : ∀ x ∈ xs, x.2 % size = 0 ∧ x.2 + size ≤ win) :
    winChk size win xs = .ok := by
  have aligned : (xs.find? fun x => x.2 % size ≠ 0) = none := by
    simpa using fun a b hx => (h (a, b) hx).1
  have inside : (xs.find? fun x => win < x.2 + size) = none := by
    simpa using fun a b hx => (h (a, b) hx).2
  simp only [winChk, aligned, inside]

section
variable (hun : Unhindered s w)
include hun

theorem Unhindered.accsOf : s.accsOf w.uid = [] := by
  simpa [State.accsOf] using fun a ha => (hun.quiet a ha).1

theorem Unhindered.memHold : s.memHold w = false := by
  simp [State.memHold, hun.accsOf]

theorem Unhindered.portFree {e : Env} (he : e.w = w) : s.portFree e = true := by
  unfold State.portFree
  rw [he]
  cases hq : (s.core w.id.core).quarters[w.id.q]? with
  | none => rfl
  | some q => simp [hun.port q hq]

/-- No watchpoint is enabled, and none acts. -/
theorem Unhindered.watchDue (lid : Nat) (rd wr sp : Bool) (size : Nat) (xs : List (Nat × W64)) :
    watchDue ((List.range 8).zip (s.part w.grp.part).wps) xs lid rd wr sp size = none := by
  have off : ∀ x ∈ (List.range 8).zip (s.part w.grp.part).wps, ∀ y ∈ xs, x.2.hits lid rd wr sp size y.2 = false := by
    intro x hx y _
    simp only [Watch.hits, hun.watch x.2 (List.of_mem_zip hx).2, Bool.false_and]
  have none_hit : (((List.range 8).zip (s.part w.grp.part).wps).filter fun x =>
      xs.any fun y => x.2.hits lid rd wr sp size y.2) = [] := by
    simpa [List.filter_eq_nil_iff] using fun a b hx c d hy => off (a, b) hx (c, d) hy
  simp only [Machine.watchDue, none_hit]

theorem Unhindered.spChk {e : Env} (he : e.w = w) {rd wr : Bool} {size : Nat} {xs : List (Nat × Nat)}
    (hxs : ∀ x ∈ xs, x.2 % size = 0 ∧ x.2 + size ≤ e.winSize) : spChk s e rd wr size xs = .ok := by
  simp only [Machine.spChk, he, hun.memHold, hun.portFree he, winChk_ok_of_forall hxs, State.watchChk, hun.watchDue]
  simp

end

/-- A scratchpad access of some size that nothing hinders starts where its offsets are aligned and inside the window. -/
def StartsInWindow (s : State) (w : Wave) (h : Hdr) (i : Instr) (size : Nat) (off : Env → Nat → Nat) (op : AccOp) : Prop :=
  let e := mkEnv s w false i
  Issues s w i false → Unhindered s w →
    (∀ t ∈ bitsOf (w.active h e.c0), off e t % size = 0 ∧ off e t + size ≤ e.winSize) →
      Starts s w i h false fun e x => x.op = op ∧
        x.lanes.map (fun l => (l.t, l.pa)) = (bitsOf (w.active h e.c0)).map fun t => (t, off e t)

theorem startsInWindow_of_startSp {i : Instr} {h : Hdr} {size : Nat} {off : Env → Nat → Nat} {op : AccOp}
    {rd wr store rel atom : Bool} {a : Env → Acc} (hx : exec i s = issue i h false
      (fun s e => spChk s e rd wr size ((lanesOf e h false).map fun t => (t, off e t)))
      (fun e s => s.startSp e (a e) store rel atom) s)
    (ha : ∀ e, IssuedBy e h op (a e))
    (hl : ∀ e, (a e).lanes.map (fun l => (l.t, l.pa)) = (lanesOf e h false).map fun t => (t, off e t)) :
    StartsInWindow s w h i size off op := by
  unfold StartsInWindow
  intro e hi hun hin
  have checked : spChk s e rd wr size ((lanesOf e h false).map fun t => (t, off e t)) = .ok :=
    hun.spChk rfl fun x hx => by
      obtain ⟨t, ht, rfl⟩ := List.mem_map.1 hx
      exact hin t ht
  have adds := startSp_adds (s.enter w e h) e (a e) store rel atom
  have made := ha e
  exact ⟨_, _, _, hx.trans (issue_ok hi checked), started_of_adds hi adds ⟨made.op, made.uid, made.at_, made.grp, made.sf⟩,
    ⟨made.op, hl e⟩, rfl, rfl, rfl, rfl, rfl⟩

/-! ### A header or descriptor and the data that it names -/

/-- An access as it starts: its number, lanes and order are given to it. -/
def StartsAs (a x : Acc) : Prop := x = { a with id := x.id, lanes := x.lanes, after := x.after, near := x.near }

theorem StartsAs.issuedBy {e : Env} {h : Hdr} {op : AccOp} {a x : Acc} (hx : StartsAs a x) (ha : IssuedBy e h op a) :
    IssuedBy e h op x := by
  rw [hx]
  exact ⟨ha.op, ha.uid, ha.at_, ha.grp, ha.sf⟩

theorem startLoad_adds (h : Filled s t) (a : Acc) (bound : List Nat) : ∃ x, Adds s (t.startLoad a bound) x ∧ StartsAs a x := by
  simp only [State.startLoad]
  refine ⟨_, adds_of_filled (h.trans ?_) _, rfl⟩
  split
  · exact filled_refl _
  · refine (filled_free _).trans (filled_foldl (st := id) (fun s x => ?_) _ _)
    split
    · exact filled_l1Drop ..
    · exact filled_refl _

theorem startBlock_adds (s : State) (e : Env) (a : Acc) (va : W64) (size : Nat) (rd : Reads) :
    ∃ x, Adds s (s.startBlock e a va size rd) x ∧ StartsAs a x := by
  simp only [State.startBlock]
  split
  · exact ⟨_, adds_of_filled (filled_refl s) a, rfl⟩
  · next pa l1 _ =>
    obtain ⟨x, adds, hx⟩ := startLoad_adds (filled_blockRead s e.w pa l1) _ _
    exact ⟨x, adds, hx⟩

/-- A readable address has its translation, and no class raises a cause. -/
theorem xlate_single {core : Option Nat} {p size th pa : Nat} {va : W64} {nc : Bool} (h : s.tlbHit core p va .read = some (pa, nc))
    (hc : s.classHit core p va .read = none) : s.xlate core p .read size [(th, va)] = .ok [(th, va, pa, nc)] := by
  simp [State.xlate, h, hc, argMax]

theorem xlate_ok_of_readable {size : Nat} {xs : List (Nat × W64)} (h : ∀ x ∈ xs, Readable s w x.2) :
    (s.xlate (some w.id.core) w.grp.part .read size xs).chk = .ok := by
  have mapped : ((xs.map fun x => (x, s.tlbHit (some w.id.core) w.grp.part x.2 .read)).filter fun r => r.2.isNone) = [] := by
    simp only [List.filter_eq_nil_iff, List.mem_map]
    rintro _ ⟨x, hx, rfl⟩
    obtain ⟨-, hit, -⟩ := h x hx
    simp [Option.isSome_iff_ne_none.1 hit]
  simp only [State.xlate, mapped, List.isEmpty_nil, if_true]
  rw [List.filterMap_eq_nil_iff.2]
  · rfl
  · simp only [List.mem_map]
    rintro _ ⟨x, hx, rfl⟩
    obtain ⟨-, -, sound⟩ := h x hx
    simp only [sound]
    split <;> rfl

theorem addrChk_ok_of_readable {xs : List (Nat × W64)} (h : ∀ x ∈ xs, Readable s w x.2) : addrChk 1 xs = .ok := by
  have aligned : (xs.find? fun x => x.2.toNat % 1 ≠ 0) = none := by simp [Nat.mod_one]
  have inside : (xs.find? fun x => bits x.2 63 51 ≠ 0) = none := by
    simpa using fun a b hx => (h (a, b) hx).1
  simp only [addrChk, aligned, inside]

section
variable {va : W64} {rd : Reads} (hun : Unhindered s w)

theorem blockAt_eq {pa : Nat} {nc : Bool} (ha : va.toNat % 32 = 0) (hb : bits va 63 51 = 0)
    (h : s.tlbHit (some w.id.core) w.grp.part va .read = some (pa, nc))
    (hc : s.classHit (some w.id.core) w.grp.part va .read = none) : s.blockAt w va = some (pa, s.l1able pa nc) := by
  simp [State.blockAt, ha, hb, xlate_single h hc]

include hun

/-- Nothing holds the read of a header. -/
theorem Unhindered.blockWait : s.blockWait w va = false := by
  have words (ls : List Lane) : s.wordIds w false ls = [] := by
    simp [State.wordIds, hun.accsOf]
  have bound (ls : List Nat) : s.l1Bound w.id.core ls = [] := by
    simpa [State.l1Bound] using fun a ha hcore => absurd hcore (hun.quiet a ha).2
  have free (pa : Nat) : s.snoopHeld pa false = false := by
    simp [State.snoopHeld, hun.copies]
  have gone (sent : Acc → Bool) : (s.accs.any fun b => b.w.core = w.id.core && sent b) = false := by
    simpa using fun a ha hcore => absurd hcore (hun.quiet a ha).2
  unfold State.blockWait
  split
  · rfl
  · simp only [words, bound, free, Bool.and_assoc, gone]
    simp

theorem Unhindered.blockChk {e : Env} (he : e.w = w) {ts : List Nat} {size : Nat} (hb : BlockReadable s w va rd) :
    blockChk s e ts va size rd = .ok := by
  obtain ⟨aligned, ⟨inside, hit, sound⟩, data⟩ := hb
  obtain ⟨⟨pa, nc⟩, hpa⟩ := Option.isSome_iff_exists.1 hit
  have readable := data pa nc hpa
  have header : s.block32 e (ts.headD 0) va = .bytes (s.blockRead w pa (s.l1able pa nc)).1 pa (s.l1able pa nc) := by
    simp [State.block32, he, aligned, inside, xlate_single hpa sound, blockAt_eq aligned inside hpa sound, hun.blockWait]
  simp only [Machine.blockChk, he, hun.memHold, header, addrChk_ok_of_readable readable, xlate_ok_of_readable readable]
  simp

end

theorem BlockReadable.judged {va : W64} {rd : Reads} (h : BlockReadable s w va rd) (e : Env) :
    BlockReadable s w va (e.judged rd) := by
  unfold Env.judged
  split
  · exact h
  · obtain ⟨aligned, header, -⟩ := h
    exact ⟨aligned, header, fun _ _ _ x hx => absurd hx List.not_mem_nil⟩

/-- `i` starts its access where the block at its pair, and the data that it reads by it, can be read. -/
def StartsOnBlock (s : State) (w : Wave) (h : Hdr) (i : Instr) (hs : BitVec 8) (rd : Env → Reads) (op : AccOp) : Prop :=
  Issues s w i false → Unhindered s w → BlockReadable s w ((mkEnv s w false i).srPair hs) (rd (mkEnv s w false i)) →
    StartsReading s w i h false fun _ x => x.op = op

theorem startsOnBlock_of_startBlock {i : Instr} {h : Hdr} {hs : BitVec 8} {size : Nat} {rd rd' : Env → Reads} {op : AccOp}
    {a : Env → Acc} (hx : exec i s = issue i h false (fun s e => blockChk s e (lanesOf e h false) (e.srPair hs) size (rd' e))
      (fun e s => s.startBlock e (a e) (e.srPair hs) size (rd e)) s)
    (ha : ∀ e, IssuedBy e h op (a e)) (hrd : ∀ e, rd' e = rd e ∨ rd' e = e.judged (rd e)) : StartsOnBlock s w h i hs rd op := by
  intro hi hun hb
  let e := mkEnv s w false i
  obtain ⟨x, adds, hstart⟩ := startBlock_adds (s.enter w e h) e (a e) (e.srPair hs) size (rd e)
  have issued := hstart.issuedBy (ha e)
  have readable : BlockReadable s w (e.srPair hs) (rd' e) := by
    rcases hrd e with same | judged
    · exact same ▸ hb
    · exact judged ▸ hb.judged e
  exact ⟨_, _, x, hx.trans (issue_ok hi (hun.blockChk rfl readable)), started_of_adds hi adds issued, issued.op⟩

/-- The data that a ray instruction reads by the header: none by one that is not valid (R322). -/
def rayReads (h : Hdr) (b : Env → Nat → W32) (reads : RayHdr → W32 → List W64) (e : Env) : Reads := fun bs =>
  if (rayHdr bs).bad then [] else (lanesOf e h false).flatMap fun t => (reads (rayHdr bs) (b e t)).map fun va => (t, va)

theorem startsOnBlock_of_rayOp {i : Instr} {h : Hdr} {op : AccOp} {hs : BitVec 8} {a : BitVec 9} {n : Nat} {b : Env → Nat → W32}
    {reads : RayHdr → W32 → List W64} {dst : AccDst} (hx : exec i s = rayOp i h op hs a n b reads dst s) :
    StartsOnBlock s w h i hs (rayReads h b reads) op :=
  startsOnBlock_of_startBlock (size := 8) (rd' := fun e => e.judged (rayReads h b reads e)) (a := fun e => { e.acc h op with
      tag := .b64, dst := dst
      args := BitVec.ofNat 64 a.toNat :: (lanesOf e h false).flatMap fun t => rayArg e a n (b e) t })
    hx (fun _ => ⟨rfl, rfl, rfl, rfl, rfl⟩) fun _ => .inr rfl

end Sys2Proof.Claims
end

section
/-!
SUPPORT. Scratchpad, texture, ray and raster instructions as issues that start an access (R189, R322, R336, R338, R342).
-/

namespace Sys2Proof.Machine

open Sys2Proof.Claims

variable {s : State} {w : Wave} {h : Hdr}

theorem lanes_mk' {xs : List (Nat × Nat)} {va data cmp : Nat × Nat → W64} :
    (xs.map fun x => Lane.mk' x.1 (va x) x.2 (data x) (cmp x) false).map (fun l => (l.t, l.pa)) = xs := by
  simp [Lane.mk', Function.comp_def]

/-- RAST reads no memory: it starts wherever it may issue. -/
theorem rast_starts {o : RastOp} (hi : Issues s w (.rast h o) false) : Starts s w (.rast h o) h false fun _ a => a.op = .rast :=
  starts_of_addAcc (show exec (.rast h o) s = execRast h o s from rfl) hi rfl rfl rfl rfl rfl rfl rfl

/-- An instruction of the mould of vector results only sends effects. -/
theorem sends_some_of_mould {i : Instr} {d : BitVec 9} {dw : Bool} {f : Env → Nat → W64 × Byte}
    (hx : exec i s = mould i h false (.v d) dw f s) (hi : Issues s w i false) : ∃ ps, Sends s w i h false 4 ps :=
  ⟨_, sends_of_vectorMould (g := f) hx (fun _ => rfl) hi⟩

/-! ### Scratchpad accesses -/

/-- The offset of a thread of LDS and STS. -/
def memOffset (o : SpMem) (e : Env) (t : Nat) : Nat :=
  (e.v32 0 o.a t).toNat + (e.v32 1 o.b t).toNat * 2 ^ o.scl.toNat + o.off.toNat * sizeOf' o.tag

/-- The offset of a thread of ATOMS and REDS. -/
def atomOffset (o : SpAtom) (e : Env) (t : Nat) : Nat := (e.v32 0 o.a t).toNat + o.off.toNat * sizeOf' o.tag

/-- The offset of a thread of BLEND. -/
def blendOffset (o : BlendOpn) (e : Env) (t : Nat) : Nat := (e.v32 0 o.a t).toNat + o.off.toNat * (if o.f16 then 8 else 4)

theorem lds_starts (o : SpMem) : StartsInWindow s w h (.lds h o) (sizeOf' o.tag) (memOffset o) .spLoad :=
  startsInWindow_of_startSp (show exec (.lds h o) s = execLds h o s from rfl) (fun _ => ⟨rfl, rfl, rfl, rfl, rfl⟩) fun _ => lanes_mk'

theorem sts_starts (o : SpMem) : StartsInWindow s w h (.sts h o) (sizeOf' o.tag) (memOffset o) .spStore :=
  startsInWindow_of_startSp (show exec (.sts h o) s = execSts h o s from rfl) (fun _ => ⟨rfl, rfl, rfl, rfl, rfl⟩) fun _ => lanes_mk'

theorem spAtomic_starts {i : Instr} {o : SpAtom} {op : AccOp} {dst : AccDst} {rd : Bool}
    (hx : exec i s = spAtomic i h o op dst rd s) : StartsInWindow s w h i (sizeOf' o.tag) (atomOffset o) op :=
  startsInWindow_of_startSp hx (fun _ => ⟨rfl, rfl, rfl, rfl, rfl⟩) fun _ => lanes_mk'

theorem atoms_starts (o : SpAtom) : StartsInWindow s w h (.atoms h o) (sizeOf' o.tag) (atomOffset o) (.spAtom o.op) :=
  spAtomic_starts (show exec (.atoms h o) s = execAtoms h o s from rfl)

theorem reds_starts (o : SpAtom) : StartsInWindow s w h (.reds h o) (sizeOf' o.tag) (atomOffset o) (.spRed o.op) :=
  spAtomic_starts (show exec (.reds h o) s = execReds h o s from rfl)

/-- The access of a BLEND. -/
def blendAcc (h : Hdr) (o : BlendOpn) (e : Env) : Acc :=
  { e.acc h (.blend o.bop o.f16) with
    tag := if o.f16 then .b64 else .b32, ord := o.ord, sco := o.sco
    lanes := (blendAddrs e h o).map fun x => Lane.mk' x.1 (BitVec.ofNat 64 x.2) x.2 (e.src 1 o.f16 (.vec o.b) x.1) 0 false }

theorem exec_blend (o : BlendOpn) : exec (.blend h o) s = issue (.blend h o) h false
    (fun s e => spChk s e false true (if o.f16 then 8 else 4) ((lanesOf e h false).map fun t => (t, blendOffset o e t)))
    (fun e s => s.startSp e (blendAcc h o e) true (o.ord = .rel) true) s := rfl

theorem blend_starts (o : BlendOpn) :
    StartsInWindow s w h (.blend h o) (if o.f16 then 8 else 4) (blendOffset o) (.blend o.bop o.f16) :=
  startsInWindow_of_startSp (exec_blend o) (fun _ => ⟨rfl, rfl, rfl, rfl, rfl⟩) fun _ => lanes_mk'

/-! ### Texture instructions -/

/-- The texels that TEX reads by a descriptor: none by one that is not valid (R338). -/
def texReads (h : Hdr) (o : TexOp) (e : Env) : Reads := fun bs =>
  if (texDesc bs).bad then []
  else (lanesOf e h false).flatMap fun t =>
    (texTexels (texDesc bs) o.mode (e.v32 0 o.a t) (e.v32 1 o.b t) (e.sr o.sd) t).flatMap fun y =>
      (List.range (texelSize (texDesc bs).fmt / 4)).map fun i => (t, BitVec.ofNat 64 (y.1 + 4 * i))

/-- The access of a TEX. -/
def texAcc (h : Hdr) (o : TexOp) (e : Env) : Acc :=
  { e.acc h .tex with
    dst := .v o.d.toNat false
    args := (match o.mode with | .point => 0 | .bilin => 1 | .stoch => 2) :: (e.sr o.sd).zeroExtend 64 ::
      (lanesOf e h false).flatMap fun t => [BitVec.ofNat 64 t, (e.v32 0 o.a t).zeroExtend 64, (e.v32 1 o.b t).zeroExtend 64] }

theorem exec_tex (o : TexOp) : exec (.tex h o) s = issue (.tex h o) h false
    (fun s e => blockChk s e (lanesOf e h false) (e.srPair o.td) 4 (e.judged (texReads h o e)))
    (fun e s => s.startBlock e (texAcc h o e) (e.srPair o.td) 4 (texReads h o e)) s := rfl

theorem tex_starts (o : TexOp) : StartsOnBlock s w h (.tex h o) o.td (texReads h o) .tex :=
  startsOnBlock_of_startBlock (exec_tex o) (fun _ => ⟨rfl, rfl, rfl, rfl, rfl⟩) fun _ => .inr rfl

theorem texq_starts (o : TexqOp) : StartsOnBlock s w h (.texq h o) o.td (fun _ _ => []) .texq :=
  startsOnBlock_of_startBlock (show exec (.texq h o) s = execTexq h o s from rfl) (fun _ => ⟨rfl, rfl, rfl, rfl, rfl⟩)
    fun _ => .inl rfl

/-! ### Ray instructions -/

/-- A ray instruction that reads nothing by its header. -/
theorem rayReads_nil (b : Env → Nat → W32) : rayReads h b (fun _ _ => []) = fun _ _ => [] := by
  funext e bs
  simp [rayReads]

theorem rhint_starts (o : RhintOp) : StartsOnBlock s w h (.rhint h o) o.hs (fun _ _ => []) .rhint :=
  rayReads_nil (h := h) _ ▸ startsOnBlock_of_rayOp (show exec (.rhint h o) s = execRhint h o s from rfl)

theorem rhset_starts (o : RhsetOp) : StartsOnBlock s w h (.rhset h o) o.hs (fun _ _ => []) .rhset :=
  rayReads_nil (h := h) _ ▸ startsOnBlock_of_rayOp (show exec (.rhset h o) s = execRhset h o s from rfl)

theorem rbox_starts (o : RboxOp) : StartsOnBlock s w h (.rbox h o) o.hs
    (rayReads h (fun e t => e.v32 1 o.b t) fun hd b => words8 (hd.nodes + 256 * b.toNat) 28) .rbox :=
  startsOnBlock_of_rayOp (show exec (.rbox h o) s = execRbox h o s from rfl)

theorem rtri_starts (o : RtriOp) : StartsOnBlock s w h (.rtri h o) o.hs
    (rayReads h (fun e t => e.v32 1 o.b t) fun hd b => (leafTris hd b).flatMap fun i => words8 (hd.tris + 48 * i) 6) .rtri :=
  startsOnBlock_of_rayOp (show exec (.rtri h o) s = execRtri h o s from rfl)

end Sys2Proof.Machine
end

section
/-! Where further forms complete: the statement about them, and its proof. -/

namespace Sys2Proof.Machine

open Sys2Proof.Claims

/-- Settles O52: the conversions by their results, and the accesses by what an unhindered issue starts. -/
theorem formsComplete : Obligations.FormsComplete := by
  intro s w h act sends inWindow block ray
  refine ⟨fun o hi => ?cvt, fun o hi => ?qnt, fun o hi => ?mxsc, fun o hi => ?pack6, fun o hi => ?unpack6,
    fun o => ⟨lds_starts o, sts_starts o⟩, fun o => ⟨atoms_starts o, reds_starts o⟩, blend_starts, rbox_starts, rtri_starts,
    rhint_starts, rhset_starts, tex_starts, texq_starts,
    fun o hi => rast_starts hi⟩
  case cvt => exact sends_some_of_mould (show exec (.cvt h o) s = execCvt h o s from rfl) hi
  case qnt => exact sends_some_of_mould (show exec (.qnt h o) s = execQnt h o s from rfl) hi
  case mxsc => exact sends_some_of_mould (show exec (.mxsc h o) s = execMxsc h o s from rfl) hi
  case pack6 => exact ⟨_, conversionResults.2 s w h o hi⟩
  case unpack6 => exact sends_some_of_mould (show exec (.unpack6 h o) s = execUnpack6 h o s from rfl) hi

end Sys2Proof.Machine
end

section
/-!
SUPPORT. Results of an integer operation on the values of one width (R93, R151).
-/

namespace Sys2Proof.Claims

open Sys2Proof.Machine

/-! ### Operations on integers as operations on values -/

section
variable {n : Nat} {g : Bool}

theorem ofInt_intOf_sub (a b : BitVec n) : BitVec.ofInt n (intOf g a - intOf g b) = a - b := by
  rw [Int.sub_eq_add_neg, BitVec.ofInt_add, BitVec.ofInt_neg, ofInt_intOf, ofInt_intOf, BitVec.sub_eq_add_neg]

/-- A value is extended to the integer that it is. -/
theorem ofInt_intOf_extend (m : Nat) (a : BitVec n) :
    BitVec.ofInt m (intOf g a) = if g then a.signExtend m else a.zeroExtend m := by
  cases g
  · simp [intOf]
  · rfl

/-- The order of two values, as the tag reads them. -/
theorem intOf_le (a b : BitVec n) : (if g then a.sle b else a.ule b) = decide (intOf g a ≤ intOf g b) := by
  cases g
  · simp [intOf, BitVec.ule_eq_decide]
  · simp [intOf, BitVec.sle_eq_decide]

/-- The high half of a number that is known modulo 2 ^ (2 n). -/
theorem ofInt_high_half (x : Int) : (BitVec.ofInt (2 * n) x >>> n).truncate n = BitVec.ofInt n (x / 2 ^ n) := by
  apply BitVec.eq_of_toNat_eq
  have pos : (0 : Int) < 2 ^ n := by positivity
  have high : x % 2 ^ (2 * n) / 2 ^ n % 2 ^ n = x / 2 ^ n % 2 ^ n := by
    rw [Int.emod_def x, Nat.two_mul, pow_add, mul_assoc, Int.sub_mul_ediv_left _ _ pos.ne', Int.sub_mul_emod_self_left]
  have low : 0 ≤ x % 2 ^ (2 * n) := Int.emod_nonneg _ (by positivity)
  simp only [BitVec.truncate_eq_setWidth, BitVec.toNat_setWidth, BitVec.toNat_ushiftRight, BitVec.toNat_ofInt,
    Nat.shiftRight_eq_div_pow]
  zify
  rw [Int.toNat_of_nonneg low, Int.toNat_of_nonneg (Int.emod_nonneg _ pos.ne'), high]

/-- The high half of a product, both operands extended to twice their width. -/
theorem high_product (a b : BitVec n) : BitVec.ofInt n (intOf g a * intOf g b / 2 ^ n) =
    if g then ((a.signExtend (2 * n) * b.signExtend (2 * n)) >>> n).truncate n
    else ((a.zeroExtend (2 * n) * b.zeroExtend (2 * n)) >>> n).truncate n := by
  rw [← ofInt_high_half, BitVec.ofInt_mul, ofInt_intOf_extend, ofInt_intOf_extend]
  cases g <;> rfl

theorem ofInt_min (a b : BitVec n) : BitVec.ofInt n (min (intOf g a) (intOf g b)) =
    if (if g then a.sle b else a.ule b) then a else b := by
  rw [intOf_le, Int.min_def]
  simp only [apply_ite (BitVec.ofInt n), ofInt_intOf, decide_eq_true_eq]

theorem ofInt_max (a b : BitVec n) : BitVec.ofInt n (max (intOf g a) (intOf g b)) =
    if (if g then a.sle b else a.ule b) then b else a := by
  rw [intOf_le, Int.max_def]
  simp only [apply_ite (BitVec.ofInt n), ofInt_intOf, decide_eq_true_eq]

theorem ofInt_distance (a b : BitVec n) : BitVec.ofInt n ((intOf g a - intOf g b).natAbs : Int) =
    if (if g then a.sle b else a.ule b) then b - a else a - b := by
  have swap : ((intOf g a - intOf g b).natAbs : Int) =
      if intOf g a ≤ intOf g b then intOf g b - intOf g a else intOf g a - intOf g b := by
    split <;> omega
  rw [intOf_le, swap]
  simp only [apply_ite (BitVec.ofInt n), ofInt_intOf_sub, decide_eq_true_eq]

end

/-! ### Results of the tag's width -/

section
variable {s : State} {w : Wave} {i : Instr} {h : Hdr} {o : Alu3}

/-- An integer form sends an operation on the values of the tag's width, where its exact result stands for that of the
operation. -/
theorem sends_of_integers {F : Nat → Int → Int → Int → Int} {f : ∀ n, BitVec n → BitVec n → BitVec n → BitVec n}
    (hx : exec i s = alu3 i h o (fun n a b d => wrapInt n (F n a b d)) s)
    (hF : ∀ n (a b d : BitVec n),
      BitVec.ofInt n (F n (intOf o.tag.signed a) (intOf o.tag.signed b) (intOf o.tag.signed d)) = f n a b d)
    (hi : Issues s w i o.u) :
    Sends s w i h o.u (aluLat o.u) fun e => resultOf e h o.u o.tag.wide o.d (atWidth o (f 32) (f 64) e) := by
  refine sends_of_alu3 hx (fun e t => ?_) hi
  cases hw : o.tag.wide
  · simp only [atWidth, tagW, hw, Bool.false_eq_true, if_false, readInt_narrow, wrapInt_narrow, hF]
  · simp only [atWidth, tagW, hw, if_true, readInt_wide, wrapInt_wide, hF]

end

end Sys2Proof.Claims
end

section
/-! Integer arithmetic: the statement about it, and its proof. -/

namespace Sys2Proof.Machine

open Sys2Proof.Claims

/-- Settles O1: each form's exact result stands for the operation on the values of its width. -/
theorem integerResults : Obligations.IntegerResults := by
  refine ⟨fun s w h o => ⟨sends_of_vadd, ?sub, ?mul, ?mad⟩, fun s w h o => ⟨?mulh, ?min, ?max, ?absd⟩⟩
  case sub =>
    exact sends_of_integers (F := fun _ a b _ => a - b) (f := fun _ a b _ => a - b) rfl fun _ a b _ => ofInt_intOf_sub a b
  case mul =>
    exact sends_of_integers (F := fun _ a b _ => a * b) (f := fun _ a b _ => a * b) rfl fun _ a b _ => by
      rw [BitVec.ofInt_mul, ofInt_intOf, ofInt_intOf]
  case mad =>
    exact sends_of_integers (F := fun _ a b d => a * b + d) (f := fun _ a b d => a * b + d) rfl fun _ a b d => by
      rw [BitVec.ofInt_add, BitVec.ofInt_mul, ofInt_intOf, ofInt_intOf, ofInt_intOf]
  case mulh =>
    exact sends_of_integers (F := fun n a b _ => a * b / 2 ^ n) (f := fun n a b _ => if o.tag.signed
        then ((a.signExtend (2 * n) * b.signExtend (2 * n)) >>> n).truncate n
        else ((a.zeroExtend (2 * n) * b.zeroExtend (2 * n)) >>> n).truncate n) rfl fun _ a b _ => high_product a b
  case min =>
    exact sends_of_integers (F := fun _ a b _ => min a b)
      (f := fun _ a b _ => if (if o.tag.signed then a.sle b else a.ule b) then a else b) rfl fun _ a b _ => ofInt_min a b
  case max =>
    exact sends_of_integers (F := fun _ a b _ => max a b)
      (f := fun _ a b _ => if (if o.tag.signed then a.sle b else a.ule b) then b else a) rfl fun _ a b _ => ofInt_max a b
  case absd =>
    exact sends_of_integers (F := fun _ a b _ => (a - b).natAbs)
      (f := fun _ a b _ => if (if o.tag.signed then a.sle b else a.ule b) then b - a else a - b) rfl
      fun _ a b _ => ofInt_distance a b

end Sys2Proof.Machine
end

section
/-!
SUPPORT. Bitwise operations, shifts, counts and bit fields (R93, R148, R151, R152).
-/

namespace Sys2Proof.Claims

open Sys2Proof.Machine

/-! ### Operations on bits, by their width -/

section
variable {s : State} {w : Wave} {i : Instr} {h : Hdr}

theorem lo32_ofNat (x : Nat) : lo32 (BitVec.ofNat 64 x) = BitVec.ofNat 32 x :=
  BitVec.setWidth_ofNat_of_le (by decide) x

theorem lo32_zeroExtend (x : W32) : lo32 (x.zeroExtend 64) = x := by
  simp [lo32]

/-- An instruction of the mould sends what agrees with its lanes, as far as the destination keeps them. -/
theorem sends_of_keptMould {u : Bool} {d : Dst} {dw : Bool} {f g : Env → Nat → W64}
    (hx : exec i s = mould i h u d dw (fun e t => (f e t, 0)) s) (hwide : dw = true → ∀ e t, f e t = g e t)
    (hnarrow : dw = false → ∀ e t, lo32 (f e t) = lo32 (g e t)) (hi : Issues s w i u) :
    Sends s w i h u (aluLat u) fun e => resultOf e h u dw d (g e) := by
  refine sends_of_mould hx ?_ hi
  refine (congrArg (_ ++ satPut ·) (satOf_zero _ h u)).trans ((List.append_nil _).trans ?_)
  cases dw with
  | true => exact congrArg _ (funext (hwide rfl _))
  | false => exact resultOf_narrow (hnarrow rfl _)

/-- A bitwise form, whose operation on the low halves is that on the values, cut. -/
theorem sends_of_aluBits {o : Alu3} {f : ∀ n, BitVec n → BitVec n → BitVec n} (hx : exec i s = aluBits i h o (f 64) s)
    (hf : ∀ a b : W64, lo32 (f 64 a b) = f 32 (lo32 a) (lo32 b)) (hi : Issues s w i o.u) :
    Sends s w i h o.u (aluLat o.u) fun e =>
      resultOf e h o.u o.tag.wide o.d (atWidth o (fun a b _ => f 32 a b) (fun a b _ => f 64 a b) e) := by
  refine sends_of_keptMould hx (fun hw e t => ?_) (fun hw e t => ?_) hi
  · simp only [atWidth, hw, if_true]
  · simp only [atWidth, hw, Bool.false_eq_true, if_false, lo32_zeroExtend, hf]

/-- A form with a 32-bit B sends an operation on values of the tag's width, the old D being cut to it. -/
theorem sends_of_aluB {o : Alu3} {F : Nat → Nat → Nat → Nat → Nat} {f : ∀ n, BitVec n → W32 → BitVec n → BitVec n}
    (hx : exec i s = aluB i h o F s)
    (hF : ∀ n, 0 < n → n ≤ 64 → ∀ (a : BitVec n) (b : W32) (d : W64),
      BitVec.ofNat n (F n a.toNat b.toNat d.toNat) = f n a b (d.setWidth n))
    (hi : Issues s w i o.u) :
    Sends s w i h o.u (aluLat o.u) fun e => resultOf e h o.u o.tag.wide o.d (atWidthB o (f 32) (f 64) e) := by
  refine sends_of_keptMould hx (fun hw e t => ?_) (fun hw e t => ?_) hi
  · simp only [atWidthB, tagW, hw, if_true, toNat_src_narrow, hF 64 (by decide) le_rfl, BitVec.setWidth_eq]
  · simp only [atWidthB, tagW, hw, Bool.false_eq_true, if_false, toNat_src_narrow, lo32_ofNat, lo32_zeroExtend,
      hF 32 (by decide) (by decide)]
    rfl

/-- A form of one source with a narrow result sends its function of that source. -/
theorem sends_of_aluCount {o : Alu2} {f : Nat → W64 → Nat} {g : W64 → Nat} (hx : exec i s = aluCount i h o f s)
    (hfg : ∀ x, f (tagW o.tag) x = g x) (hi : Issues s w i o.u) : Sends s w i h o.u (aluLat o.u) fun e =>
      resultOf e h o.u false o.d fun t => BitVec.ofNat 64 (g (e.src 0 o.tag.wide o.a t)) :=
  sends_of_plainMould (f := fun e t => BitVec.ofNat 64 (f (tagW o.tag) (e.src 0 o.tag.wide o.a t))) hx
    (fun _ => by rw [hfg]) hi

end

/-! ### Shifts (R151) -/

section
variable {n : Nat}

theorem ofNat_shl (a : BitVec n) (k : Nat) :
    BitVec.ofNat n (if k < n then a.toNat * 2 ^ k % 2 ^ n else 0) = a <<< k := by
  split
  · next hk =>
    apply BitVec.eq_of_toNat_eq
    simp [Nat.shiftLeft_eq]
  · next hk => exact (BitVec.shiftLeft_eq_zero (Nat.not_lt.1 hk)).symm

theorem ofNat_shr (a : BitVec n) (k : Nat) : BitVec.ofNat n (if k < n then a.toNat / 2 ^ k else 0) = a >>> k := by
  split
  · next hk =>
    apply BitVec.eq_of_toNat_eq
    simp [Nat.shiftRight_eq_div_pow, Nat.mod_eq_of_lt (Nat.lt_of_le_of_lt (Nat.div_le_self _ _) a.isLt)]
  · next hk => exact (BitVec.ushiftRight_eq_zero (Nat.not_lt.1 hk)).symm

/-- The number that an exact result is kept as, cut to its width. -/
theorem ofNat_wrapInt (hn : n ≤ 64) (x : Int) : BitVec.ofNat n (wrapInt n x).toNat = BitVec.ofInt n x := by
  apply BitVec.eq_of_toNat_eq
  rw [wrapInt, BitVec.toNat_ofNat, BitVec.toNat_ofNat, Nat.mod_mod_of_dvd _ (Nat.pow_dvd_pow 2 hn), BitVec.toNat_ofInt]
  have low : 0 ≤ x % 2 ^ n := Int.emod_nonneg _ (by positivity)
  have high : x % 2 ^ n < 2 ^ n := Int.emod_lt_of_pos x (by positivity)
  refine Nat.mod_eq_of_lt ?_
  zify
  rwa [Int.toNat_of_nonneg low]

/-- A value with its sign: the upper half of the numbers stands for the negative ones. -/
theorem toInt_eq_ite (a : BitVec n) :
    a.toInt = if 2 ^ (n - 1) ≤ a.toNat then (a.toNat : Int) - 2 ^ n else a.toNat := by
  rw [BitVec.toInt_eq_msb_cond, BitVec.msb_eq_decide]
  simp

/-- What a tag reads of a number is the integer that its low bits are. -/
theorem readInt_eq (t : Tag) (n : Nat) (x : W64) : readInt t n x = intOf t.signed (x.setWidth n) := by
  cases ht : t.signed
  · simp [readInt, intOf, ht]
  · simp [readInt, intOf, ht, toInt_eq_ite]

/-- A count past the width shifts in the sign, like one short of it. -/
theorem ofNat_sra (hn : 0 < n) (h64 : n ≤ 64) (a : BitVec n) (k : Nat) :
    BitVec.ofNat n (wrapInt n ((if 2 ^ (n - 1) ≤ a.toNat then (a.toNat : Int) - 2 ^ n else a.toNat) /
      2 ^ min k (n - 1))).toNat = a.sshiftRight k := by
  have shifted : BitVec.ofInt n (a.toInt / 2 ^ min k (n - 1)) = a.sshiftRight (min k (n - 1)) := by
    simp [BitVec.sshiftRight_eq, Int.shiftRight_eq_div_pow]
  rw [ofNat_wrapInt h64, ← toInt_eq_ite, shifted]
  ext j hj
  simp only [← BitVec.getLsbD_eq_getElem, BitVec.getLsbD_sshiftRight]
  by_cases hk : k ≤ n - 1
  · rw [min_eq_left hk]
  · have past : ¬ k + j < n := by omega
    rw [min_eq_right (by omega), if_neg past]
    split
    · rw [show n - 1 + j = n - 1 by omega, BitVec.msb_eq_getLsbD_last]
    · rfl

/-! ### Counts (R151) -/

theorem clz_eq (n : Nat) (x : W64) : clz n x = leadingZeros n x := by
  have length : clz n x = ((List.range n).map fun k => x.getLsbD (n - 1 - k)).findIdx id := by
    have short := List.findIdx_le_length (p := id) (xs := (List.range n).map fun k => x.getLsbD (n - 1 - k))
    simp only [clz, List.takeWhile_eq_take_findIdx_not, Bool.not_not, List.length_take]
    exact min_eq_left short
  have bit (k : Nat) (hk : k < n) : x.getLsbD k = (x.toNat % 2 ^ n).testBit k := by
    simp [BitVec.getLsbD, Nat.testBit_mod_two_pow, hk]
  rw [length, leadingZeros]
  by_cases h0 : x.toNat % 2 ^ n = 0
  · have none : ∀ k < n, x.getLsbD (n - 1 - k) = false := fun k hk => by
      rw [bit _ (by omega), h0, Nat.zero_testBit]
    rw [if_pos h0, List.findIdx_eq_length.2 (by simpa using none), List.length_map, List.length_range]
  · have top : (x.toNat % 2 ^ n).log2 < n := (Nat.log2_lt h0).2 (Nat.mod_lt _ (by positivity))
    have place : n - 1 - (n - 1 - (x.toNat % 2 ^ n).log2) = (x.toNat % 2 ^ n).log2 := by omega
    rw [if_neg h0, List.findIdx_eq (by simp; omega)]
    refine ⟨?_, fun j hj => ?_⟩
    · simpa [place, bit _ top] using Nat.testBit_log2 h0
    · have above : (x.toNat % 2 ^ n).log2 < n - 1 - j := by omega
      simpa [bit _ (show n - 1 - j < n by omega)] using Nat.testBit_lt_two_pow ((Nat.log2_lt h0).1 above)

theorem popcount_eq (n : Nat) (x : W64) : popcount n x = (List.range n).countP fun k => x.getLsbD k := by
  rw [popcount, List.countP_eq_length_filter]

/-! ### Fields (R152) -/

theorem fieldOf_eq (n : Nat) (b : W32) : fieldOf n b.toNat = (fieldPos b, fieldLen n b) := by
  unfold fieldOf fieldLen
  exact (apply_ite (Prod.mk _) _ _ _).symm

/-- A field that is not empty lies inside the width. -/
theorem field_fits (b : W32) : fieldPos b + fieldLen n b ≤ n ∨ fieldLen n b = 0 := by
  unfold fieldLen
  split <;> omega

/-- The bits of a field, as a value of their own width. -/
theorem setWidth_div (a : BitVec n) (pos : Nat) {len : Nat} (hl : len ≤ 64) :
    (BitVec.ofNat 64 (a.toNat / 2 ^ pos)).setWidth len = a.extractLsb' pos len := by
  apply BitVec.eq_of_toNat_eq
  rw [BitVec.setWidth_ofNat_of_le hl, BitVec.toNat_ofNat, BitVec.extractLsb'_toNat, Nat.shiftRight_eq_div_pow]

/-- A field is extended with its sign by a shift to the top and one back. -/
theorem signExtend_extract (a : BitVec n) {pos len : Nat} (h0 : len ≠ 0) (hl : pos + len ≤ n) :
    (a.extractLsb' pos len).signExtend n = (a <<< (n - pos - len)).sshiftRight (n - len) := by
  ext k hk
  simp only [← BitVec.getLsbD_eq_getElem, BitVec.getLsbD_signExtend, BitVec.getLsbD_sshiftRight,
    BitVec.getLsbD_shiftLeft, BitVec.getLsbD_extractLsb', BitVec.msb_eq_getLsbD_last]
  by_cases hin : k < len
  · have place : n - len + k - (n - pos - len) = pos + k := by omega
    rw [place]
    grind
  · have place : n - 1 - (n - pos - len) = pos + (len - 1) := by omega
    rw [place]
    grind

/-- A field is extended with zeros by a shift to the top and one back. -/
theorem setWidth_extract (a : BitVec n) {pos len : Nat} (hl : pos + len ≤ n) :
    (a.extractLsb' pos len).setWidth n = (a <<< (n - pos - len)) >>> (n - len) := by
  ext k hk
  simp only [← BitVec.getLsbD_eq_getElem, BitVec.getLsbD_setWidth, BitVec.getLsbD_ushiftRight, BitVec.getLsbD_shiftLeft,
    BitVec.getLsbD_extractLsb']
  by_cases hin : k < len
  · have place : n - len + k - (n - pos - len) = pos + k := by omega
    rw [place]
    grind
  · simp [hin, show ¬ n - len + k < n by omega]

/-- A field that is taken, extended to the width. -/
theorem ofNat_bfe (t : Tag) (h64 : n ≤ 64) (a : BitVec n) (b : W32) :
    BitVec.ofNat n (let (pos, len) := fieldOf n b.toNat
      if len = 0 then 0 else (wrapInt n (readInt t len (BitVec.ofNat 64 (a.toNat / 2 ^ pos)))).toNat) =
    extractField t.signed a b := by
  simp only [fieldOf_eq, extractField]
  by_cases h0 : fieldLen n b = 0
  · simp [h0]
  · have inside : fieldPos b + fieldLen n b ≤ n := (field_fits b).resolve_right h0
    have hl : fieldLen n b ≤ 64 := by omega
    rw [if_neg h0, if_neg h0, ofNat_wrapInt h64, readInt_eq, setWidth_div a _ hl, ofInt_intOf_extend,
      signExtend_extract a h0 inside, ← setWidth_extract a inside]

/-- A field that is put in. -/
theorem ofNat_bfi (h64 : n ≤ 64) (a : BitVec n) (b : W32) (d : W64) :
    BitVec.ofNat n (let (pos, len) := fieldOf n b.toNat
      if len = 0 then d.toNat
      else d.toNat - (d.toNat / 2 ^ pos % 2 ^ len) * 2 ^ pos + (a.toNat % 2 ^ len) * 2 ^ pos) =
    insertField a b (d.setWidth n) := by
  simp only [fieldOf_eq, insertField]
  by_cases h0 : fieldLen n b = 0
  · simp [h0]
  · have inside : fieldPos b + fieldLen n b ≤ n := (field_fits b).resolve_right h0
    have put : BitVec.ofNat n (d.toNat - (d.toNat / 2 ^ fieldPos b % 2 ^ fieldLen n b) * 2 ^ fieldPos b +
        (a.toNat % 2 ^ fieldLen n b) * 2 ^ fieldPos b) =
        (setBits d (fieldPos b + fieldLen n b - 1) (fieldPos b) a.toNat).setWidth n := by
      rw [setBits, BitVec.setWidth_ofNat_of_le h64,
        show fieldPos b + fieldLen n b - 1 + 1 - fieldPos b = fieldLen n b by omega]
    have order : fieldPos b ≤ fieldPos b + fieldLen n b - 1 := by omega
    rw [if_neg h0, put]
    ext k hk
    simp only [← BitVec.getLsbD_eq_getElem, BitVec.getLsbD_setWidth, getLsbD_setBits d order, BitVec.getLsbD_ofNat,
      BitVec.getLsbD_or, BitVec.getLsbD_and, BitVec.getLsbD_not, BitVec.getLsbD_shiftLeft,
      Nat.testBit_two_pow_sub_one, ← BitVec.testBit_toNat a]
    by_cases below : k < fieldPos b
    · simp [hk, below, show k < 64 by omega]
    · by_cases within : k - fieldPos b < fieldLen n b
      · simp [hk, below, within, show k < 64 by omega, show k - fieldPos b < n by omega,
          show fieldPos b ≤ k ∧ k ≤ fieldPos b + fieldLen n b - 1 by omega]
      · simp [hk, below, within, show k < 64 by omega,
          show ¬ (fieldPos b ≤ k ∧ k ≤ fieldPos b + fieldLen n b - 1) by omega]

end

end Sys2Proof.Claims
end

section
/-! Operations on bits: the statement about them, and its proof. -/

namespace Sys2Proof.Machine

open Sys2Proof.Claims

/-- Settles O3: each form by the mould, its operation on numbers being that on the values of its width. -/
theorem bitResults : Obligations.BitResults := by
  refine ⟨fun s w h o => ⟨?and, ?or, ?xor, ?shl, ?shr, ?sra⟩, fun s w h o o3 => ⟨?clz, ?popc, ?bfe, ?bfi⟩⟩
  case and => exact sends_of_aluBits (f := fun _ a b => a &&& b) rfl fun _ _ => BitVec.setWidth_and
  case or => exact sends_of_aluBits (f := fun _ a b => a ||| b) rfl fun _ _ => BitVec.setWidth_or
  case xor => exact sends_of_aluBits (f := fun _ a b => a ^^^ b) rfl fun _ _ => BitVec.setWidth_xor
  case shl =>
    exact sends_of_aluB (f := fun _ a b _ => a <<< b.toNat) (show exec (.vshl h o) s = execVshl h o s from rfl)
      fun _ _ _ a b _ => ofNat_shl a b.toNat
  case shr =>
    exact sends_of_aluB (f := fun _ a b _ => a >>> b.toNat) (show exec (.vshr h o) s = execVshr h o s from rfl)
      fun _ _ _ a b _ => ofNat_shr a b.toNat
  case sra =>
    exact sends_of_aluB (f := fun _ a b _ => a.sshiftRight b.toNat) (show exec (.vsra h o) s = execVsra h o s from rfl)
      fun _ hn h64 a b _ => ofNat_sra hn h64 a b.toNat
  case clz =>
    exact sends_of_aluCount (f := clz) (g := leadingZeros (if o.tag.wide then 64 else 32)) rfl (clz_eq _)
  case popc =>
    exact sends_of_aluCount (f := popcount)
      (g := fun x => (List.range (if o.tag.wide then 64 else 32)).countP fun k => x.getLsbD k) rfl (popcount_eq _)
  case bfe =>
    exact sends_of_aluB (f := fun _ a b _ => extractField o3.tag.signed a b)
      (show exec (.vbfe h o3) s = execVbfe h o3 s from rfl) fun _ _ h64 a b _ => ofNat_bfe o3.tag h64 a b
  case bfi =>
    exact sends_of_aluB (f := fun _ => insertField) (show exec (.vbfi h o3) s = execVbfi h o3 s from rfl)
      fun _ _ h64 a b d => ofNat_bfi h64 a b d

end Sys2Proof.Machine
end

section
/-! Selection, moves and predicates: the statement about them, and its proof. -/

namespace Sys2Proof.Machine

open Sys2Proof.Claims

/-- With U = 1 an instruction acts once, where its guard holds. -/
theorem map_lanesOf_scalar {α : Type} (e : Env) (h : Hdr) (f : Nat → α) :
    (lanesOf e h true).map f = if e.w.uGuard h e.c0 then [f 0] else [] := by
  rw [lanesOf, if_pos rfl]
  split <;> rfl

/-- A source that a predicate selects. -/
theorem src_select (e : Env) (p wide : Bool) (a b : Src) (t : Nat) :
    e.src (if p then 0 else 1) wide (if p then a else b) t = if p then e.src 0 wide a t else e.src 1 wide b t := by
  cases p <;> rfl

/-- Settles O4: the selections and moves by the mould, the predicates by what their issue sends. -/
theorem moveResults : Obligations.MoveResults := by
  refine ⟨fun s w h o o2 m => ⟨fun hi => ?sel, ?mov, ?movi⟩, fun s w h => ⟨fun o hi => ?plog, fun o hi => ?pmov⟩⟩
  case sel =>
    exact sends_of_plainMould (show exec (.vsel h o) s = execVsel h o s from rfl) (fun _ => src_select ..) hi
  case mov => exact sends_of_plainMould (show exec (.vmov h o2) s = execVmov h o2 s from rfl) fun _ => rfl
  case movi => exact sends_of_plainMould (show exec (.vmovi h m) s = execVmovi h m s from rfl) fun _ => rfl
  case plog => exact sends_of_fixed (show exec (.plog h o) s = execPlog h o s from rfl) hi rfl rfl
  case pmov =>
    refine sends_of_fixed (show exec (.pmov h o) s = execPmov h o s from rfl) hi rfl (congrArg (fixed _ h _ · _) ?_)
    obtain ⟨u, cnt, p, dir⟩ := o
    cases dir with
    | tor d =>
      cases u with
      | true =>
        refine congrArg (putDst true d) ?_
        rw [map_lanesOf_scalar, map_lanesOf_scalar]
        rfl
      | false => rfl
    | fromr a =>
      cases u with
      | true => exact map_lanesOf_scalar ..
      | false => rfl

end Sys2Proof.Machine
end

section
/-!
SUPPORT. Compares, and the interleaving of bits (R154, R157, R158, R165).
-/

namespace Sys2Proof.Claims

open Sys2Proof.Machine

/-! ### Compares -/

theorem maskOf_bitsOf (m : W64) : maskOf (bitsOf m) = m := by
  ext t ht
  rw [← BitVec.getLsbD_eq_getElem, getLsbD_maskOf _ ht]
  simp [bitsOf, ht]

/-- What a compare writes in its predicate: a bit per active thread, or one compare in every thread that exists. -/
def comparePuts (w : Wave) (h : Hdr) (e : Env) (u : Bool) (pd : BitVec 7) (c : Nat → Bool) : List Put :=
  if u then (if w.uGuard h e.c0 then [.p pd.toNat w.present (if c 0 then w.present else 0)] else [])
  else [.p pd.toNat (w.active h e.c0) (maskOf ((bitsOf (w.active h e.c0)).filter c))]

/-- An instruction of the predicate mould writes the compares of its lanes. -/
theorem sends_of_mouldP {s : State} {w : Wave} {i : Instr} {h : Hdr} {u : Bool} {pd : BitVec 7} {f g : Env → Nat → Bool}
    (hx : exec i s = mouldP i h u pd f s) (hfg : ∀ t, f (mkEnv s w u i) t = g (mkEnv s w u i) t) (hi : Issues s w i u) :
    Sends s w i h u (aluLat u) fun e => comparePuts w h e u pd (g e) := by
  refine sends_of_fixed hx hi rfl (congrArg (fixed _ h _ · _) ?_)
  rw [← funext hfg]
  have same : (mkEnv s w u i).w = w := rfl
  cases u with
  | true =>
    simp only [comparePuts, lanesOf, if_true, same]
    cases w.uGuard h (mkEnv s w true i).c0
    · rfl
    · cases hf : f (mkEnv s w true i) 0 <;> simp [hf]
  | false => simp only [comparePuts, lanesOf, Bool.false_eq_true, if_false, maskOf_bitsOf, same]

/-! ### Bits put each at its place -/

/-- The sum of the lowest bits of some numbers, each at its place. -/
theorem sumBits_testBit (x : Nat → Nat) (n : Nat) :
    (List.range n).foldl (fun r i => r + x i % 2 * 2 ^ i) 0 < 2 ^ n ∧
    ∀ j, ((List.range n).foldl (fun r i => r + x i % 2 * 2 ^ i) 0).testBit j = (decide (j < n) && decide (x j % 2 = 1)) := by
  induction n with
  | zero => simp
  | succ n ih =>
    obtain ⟨below, bit⟩ := ih
    have low : x n % 2 < 2 := Nat.mod_lt _ (by decide)
    rw [List.range_succ, List.foldl_append, List.foldl_cons, List.foldl_nil, Nat.add_comm, Nat.mul_comm]
    refine ⟨by rw [Nat.pow_succ]; nlinarith, fun j => ?_⟩
    rw [Nat.testBit_two_pow_mul_add _ below]
    by_cases hj : j < n
    · simp [hj, bit, show j < n + 1 by omega]
    · by_cases top : j = n
      · subst top
        simp
      · have past : x n % 2 < 2 ^ (j - n) := Nat.lt_of_lt_of_le low (Nat.le_self_pow (by omega) 2)
        simp only [hj, if_false, Nat.testBit_lt_two_pow past, show ¬ j < n + 1 by omega, decide_false, Bool.false_and]

/-- The places of an interleave, in order, each with its bit. -/
theorem interleave_places (xs : List Nat) (n : Nat) :
    ((List.range n).flatMap fun i => (List.range xs.length).map fun k => (xs.length * i + k, xs.getD k 0 / 2 ^ i % 2)) =
      (List.range (xs.length * n)).map fun j => (j, xs.getD (j % xs.length) 0 / 2 ^ (j / xs.length) % 2) := by
  induction n with
  | zero => simp
  | succ n ih =>
    rw [List.range_succ, List.flatMap_append, ih, Nat.mul_succ, List.range_add, List.map_append, List.map_map]
    simp only [List.flatMap_cons, List.flatMap_nil, List.append_nil]
    congr 1
    refine List.map_congr_left fun k hk => ?_
    have hk := List.mem_range.1 hk
    simp [Nat.mul_add_div (Nat.zero_lt_of_lt hk), Nat.mod_eq_of_lt hk, Nat.div_eq_of_lt hk]

/-- Bit m·i + k of an interleave of m values is bit i of value k. -/
theorem testBit_interleave (n : Nat) (xs : List Nat) (i : Nat) {k : Nat} (hk : k < xs.length) :
    (interleave n xs).testBit (xs.length * i + k) = (decide (i < n) && (xs.getD k 0).testBit i) := by
  have hm : 0 < xs.length := Nat.zero_lt_of_lt hk
  have place : xs.length * i + k < n * xs.length ↔ i < n := by
    rw [← Nat.div_lt_iff_lt_mul hm, Nat.mul_add_div hm, Nat.div_eq_of_lt hk, Nat.add_zero]
  simp only [interleave, interleave_places, List.foldl_map]
  rw [(sumBits_testBit (fun j => xs.getD (j % xs.length) 0 / 2 ^ (j / xs.length)) _).2, Nat.testBit_eq_decide_div_mod_eq]
  simp [Nat.mul_comm _ n, place, Nat.mul_add_div hm, Nat.mod_eq_of_lt hk, Nat.div_eq_of_lt hk]

/-- Bit i of a phase is bit m·i + k of the interleaved value. -/
theorem testBit_deinterleave (n m k x i : Nat) :
    (deinterleave n m k x).testBit i = (decide (i < n) && x.testBit (m * i + k)) := by
  rw [deinterleave, (sumBits_testBit (fun i => x / 2 ^ (m * i + k)) n).2, Nat.testBit_eq_decide_div_mod_eq]

theorem bintBits_le (three wide : Bool) : bintBits three wide ≤ 32 := by
  cases three <;> cases wide <;> decide

theorem bintBits_fit (three wide : Bool) : (if three then 3 else 2) * bintBits three wide ≤ 64 := by
  cases three <;> cases wide <;> decide

/-- The operands of an interleave. -/
def bintSources (o : BintOp) (e : Env) (t : Nat) : List Nat :=
  let a := (e.src 0 false o.o.a t).toNat
  let b := (e.src 1 false o.o.b t).toNat
  if o.three then [a, b, (e.old false o.o.d t).toNat] else [a, b]

theorem bintSources_length (o : BintOp) (e : Env) (t : Nat) : (bintSources o e t).length = if o.three then 3 else 2 := by
  unfold bintSources
  split <;> rfl

/-- An operand's bits that an interleave uses are those of its 32-bit value. -/
theorem testBit_bintSources (o : BintOp) (e : Env) (t : Nat) {i k : Nat} (hi : i < 32) (hk : k < if o.three then 3 else 2) :
    ((bintSources o e t).getD k 0).testBit i =
      (if k = 0 then src32 e 0 o.o.a t else if k = 1 then src32 e 1 o.o.b t else lo32 (e.old false o.o.d t)).getLsbD i := by
  have low (x : W64) : x.toNat.testBit i = (lo32 x).getLsbD i := by
    simp [lo32, BitVec.testBit_toNat, hi]
  match k, hk with
  | 0, _ => cases ht : o.three <;> simp [bintSources, ht, low]
  | 1, _ => cases ht : o.three <;> simp [bintSources, ht, low]
  | 2, hk => cases ht : o.three <;> simp_all [bintSources]
  | k + 3, hk => split at hk <;> omega

/-- Bit m·i + k of an interleave is bit i of operand k. -/
theorem getLsbD_bint (o : BintOp) (e : Env) (t i : Nat) {k : Nat} (hk : k < if o.three then 3 else 2) :
    (BitVec.ofNat 64 (interleave (bintBits o.three o.o.tag.wide) (bintSources o e t))).getLsbD
        ((if o.three then 3 else 2) * i + k) =
      (decide (i < bintBits o.three o.o.tag.wide) && (if k = 0 then src32 e 0 o.o.a t
        else if k = 1 then src32 e 1 o.o.b t else lo32 (e.old false o.o.d t)).getLsbD i) := by
  have bit := testBit_interleave (bintBits o.three o.o.tag.wide) (bintSources o e t) i
    (by rw [bintSources_length]; exact hk)
  rw [bintSources_length] at bit
  rw [BitVec.getLsbD_ofNat, bit]
  by_cases hi : i < bintBits o.three o.o.tag.wide
  · have fits := bintBits_fit o.three o.o.tag.wide
    have inside : (if o.three then 3 else 2) * i + k < 64 := by nlinarith
    rw [testBit_bintSources o e t (Nat.lt_of_lt_of_le hi (bintBits_le ..)) hk]
    rw [decide_eq_true inside, decide_eq_true hi]
    rfl
  · simp [hi]

/-- The phase that a deinterleave takes out. -/
def bdeiPhase (o : BdeiOp) (x : W64) : Nat :=
  deinterleave (bintBits o.three o.o.tag.wide) (if o.three then 3 else 2) o.sel.toNat x.toNat

theorem getLsbD_bdei (o : BdeiOp) (x : W64) (i : Nat) : (BitVec.ofNat 64 (bdeiPhase o x)).getLsbD i =
    (decide (i < bintBits o.three o.o.tag.wide) && x.getLsbD ((if o.three then 3 else 2) * i + o.sel.toNat)) := by
  rw [BitVec.getLsbD_ofNat, bdeiPhase, testBit_deinterleave, BitVec.testBit_toNat]
  by_cases hi : i < bintBits o.three o.o.tag.wide
  · have small := bintBits_le o.three o.o.tag.wide
    simp [show i < 64 by omega]
  · simp [hi]

end Sys2Proof.Claims
end

section
/-! Compares and interleaving: the statement about them, and its proof. -/

namespace Sys2Proof.Machine

open Sys2Proof.Claims

/-- The compare of two sources of a tag's width is that of the integers that they are. -/
theorem cmpInt_src (o : CmpOp) (e : Env) (t : Nat) : cmpInt o.cond (readInt o.tag (tagW o.tag) (e.src 0 o.tag.wide o.a t))
    (readInt o.tag (tagW o.tag) (e.src 1 o.tag.wide o.b t)) =
    if o.tag.wide then cmpInt o.cond (intOf o.tag.signed (src64 e 0 o.a t)) (intOf o.tag.signed (src64 e 1 o.b t))
    else cmpInt o.cond (intOf o.tag.signed (src32 e 0 o.a t)) (intOf o.tag.signed (src32 e 1 o.b t)) := by
  rw [readInt_src, readInt_src]
  split <;> rfl

/-- Settles O5: the compares by the predicate mould, the interleaves by the places of their bits. -/
theorem compareResults : Obligations.CompareResults := by
  refine ⟨fun s w h o f => ⟨?vcmp, ?fcmp⟩, fun s w h => ⟨fun o hi => ?bint, fun o hi => ?bdei⟩⟩
  case vcmp =>
    exact sends_of_mouldP (g := fun e t =>
        if o.tag.wide then cmpInt o.cond (intOf o.tag.signed (src64 e 0 o.a t)) (intOf o.tag.signed (src64 e 1 o.b t))
        else cmpInt o.cond (intOf o.tag.signed (src32 e 0 o.a t)) (intOf o.tag.signed (src32 e 1 o.b t)))
      (show exec (.vcmp h o) s = execVcmp h o s from rfl) fun t => cmpInt_src ..
  case fcmp =>
    exact sends_of_mouldP (g := fun e t =>
        fcmp f.cond (fp32.val (e.src 0 false f.a t).toNat) (fp32.val (e.src 1 false f.b t).toNat))
      (show exec (.fcmp h f) s = execFcmp h f s from rfl) fun _ => rfl
  case bint =>
    exact ⟨fun e t => BitVec.ofNat 64 (interleave (bintBits o.three o.o.tag.wide) (bintSources o e t)),
      sends_of_plainMould (show exec (.vbint h o) s = execVbint h o s from rfl) (fun _ => rfl) hi,
      fun e t i k => getLsbD_bint o e t i⟩
  case bdei =>
    exact ⟨fun e t => BitVec.ofNat 64 (bdeiPhase o (e.src 0 o.o.tag.wide o.o.a t)),
      sends_of_aluCount (f := fun _ => bdeiPhase o) (g := bdeiPhase o) rfl (fun _ => rfl) hi, fun e t i => getLsbD_bdei ..⟩

end Sys2Proof.Machine
end

section
/-!
SUPPORT. The start of a load (R159–R161, R237, R241, R256).
-/

namespace Sys2Proof.Claims

open Sys2Proof.Machine

variable {s : State} {w : Wave}

/-! ### What a start leaves of an access -/

/-- The thread of a lane, its address, where that lies, and whether L1 may serve it. -/
def lanePlace (l : Lane) : Nat × W64 × Nat × Bool := (l.t, l.va, l.pa, l.l1)

theorem l1Drop_foldl (core : Nat) (picks : Nat → Bool) (lines : List Nat) (s : State) :
    ∃ ls, lines.foldl (fun s k => if picks k then s.l1Drop core k else s) s = { s with l1 := ls } := by
  induction lines generalizing s with
  | nil => exact ⟨s.l1, rfl⟩
  | cons k lines ih =>
    obtain ⟨ls, h⟩ := ih (if picks k then s.l1Drop core k else s)
    refine ⟨ls, h.trans ?_⟩
    split <;> rfl

/-- A load that starts is one access more, with its lanes where they were; its core's L1 may have lost lines. -/
theorem startLoad_eq (s : State) (a : Acc) (bound : List Nat) : ∃ ls fresh x,
    s.startLoad a bound = { s with l1 := ls, fresh := fresh, accs := s.accs ++ [x], nextSeq := s.nextSeq + 1 } ∧
      x.id = s.nextSeq ∧ StartsAs a x ∧ x.lanes.map lanePlace = a.lanes.map lanePlace := by
  have places (c : Lane → Bool) (res : Lane → W64) :
      (a.lanes.map fun l => if c l then { l with perf := true, res := res l } else l).map lanePlace =
        a.lanes.map lanePlace := by
    rw [List.map_map]
    refine List.map_congr_left fun l _ => ?_
    simp only [Function.comp]
    split <;> rfl
  simp only [State.startLoad]
  split
  · exact ⟨s.l1, s.fresh, _, rfl, rfl, rfl, places ..⟩
  · obtain ⟨ls, h⟩ := l1Drop_foldl a.w.core (fun k => s.free.1.getLsbD (k % 64)) _ s.free.2
    exact ⟨ls, s.free.2.fresh, _, congrArg (State.addAcc · _) h, rfl, rfl, places ..⟩

/-! ### The issue of a load -/

/-- A change of a wave's queue ports alone. -/
def OnlyPorts (f : Wave → Wave) : Prop := ∀ x, ∃ q, f x = { x with q := q }

theorem OnlyPorts.waveFrame {f : Wave → Wave} (hf : OnlyPorts f) {x : Wave} (hx : waveFrame w x) : waveFrame w (f x) := by
  obtain ⟨q, hq⟩ := hf x
  rw [hq]
  exact congrArg (fun x : Wave => { x with q := q }) hx

/-- An issue that starts the load `a`, once its wave's queue ports have changed. -/
theorem started_of_startLoad {i : Instr} {h : Hdr} {u : Bool} {op : AccOp} {f : Wave → Wave} {a : Acc} {bound : List Nat}
    (hi : Issues s w i u)
    (hx : exec i s = .next (((s.enter w (mkEnv s w u i) h).modWave w.id f).startLoad a bound))
    (hf : OnlyPorts f) (ha : IssuedBy (mkEnv s w u i) h op a) :
    ∃ t x, exec i s = .next t ∧ started s w (mkEnv s w u i) h t (f (entered w (mkEnv s w u i) h)) x ∧
      (StartsAs a x ∧ x.lanes.map lanePlace = a.lanes.map lanePlace) ∧
      t.slc = s.slc ∧ t.home = s.home ∧ t.dirty = s.dirty ∧ t.flip = s.flip ∧ t.out = s.out := by
  have hw : s.wave? w.id = some w := wave?_id hi.slot ▸ hi.slot
  have entry := entered_issued (e := mkEnv s w u i) (h := h) hw
  have same (x : Wave) : (f x).id = x.id ∧ (f x).pc = x.pc ∧ (f x).prev = x.prev ∧ (f x).flags = x.flags ∧
      (f x).pend = x.pend := by
    obtain ⟨q, hq⟩ := hf x
    rw [hq]
    exact ⟨rfl, rfl, rfl, rfl, rfl⟩
  obtain ⟨-, hpc, hprev, hflags, hpend⟩ := same (entered w (mkEnv s w u i) h)
  have marks := issued_modWave entry (fun x => (same x).1) hpc hprev hflags
  obtain ⟨ls, fresh, x, hload, hnum, hstart, hplaces⟩ :=
    startLoad_eq ((s.enter w (mkEnv s w u i) h).modWave w.id f) a bound
  have made := hstart.issuedBy ha
  refine ⟨_, x, hx.trans (congrArg _ hload), ?_, ⟨hstart, hplaces⟩, rfl, rfl, rfl, rfl,
    rfl⟩
  exact {
    marks := issued_of_waves marks rfl
    frame := hf.waveFrame (entered_waveFrame ..)
    pend := by rw [hpend, entered_frame]
    accs := rfl
    id := hnum
    uid := made.uid
    there := made.at_
    grp := made.grp
    sf := made.sf
    core := enter_core s w _ h
    rest := rfl }

/-! ### Queue destinations (R237, R241) -/

/-- The wave with the entry of a load reserved, where its destination is a queue port. -/
def portReserved (d : Dst) (wide : Bool) (acc : Nat) (w : Wave) : Wave :=
  match d with
  | .q n =>
    { w with q := w.q.modify n.toNat fun p => { p with entries := p.entries ++ [⟨acc, wide, [], none, false, none⟩] } }
  | _ => w

theorem onlyPorts_portReserved (d : Dst) (wide : Bool) (acc : Nat) : OnlyPorts (portReserved d wide acc) := fun x => by
  cases d <;> exact ⟨_, rfl⟩

theorem onlyPorts_id : OnlyPorts id := fun x => ⟨x.q, rfl⟩

theorem modWave_id (s : State) (k : WaveId) : s.modWave k id = s := by
  simp [State.modWave, upd]

theorem pushDst_eq (s : State) (e : Env) (d : Dst) (wide : Bool) :
    s.pushDst e d wide = s.modWave e.w.id (portReserved d wide s.nextSeq) := by
  cases d with
  | q n => rfl
  | v n => exact (modWave_id s _).symm
  | s n => exact (modWave_id s _).symm

theorem length_popAll (free : Nat) (qs : List Queue) (ps : List Pop) : (popAll free qs ps).length = qs.length := by
  induction ps generalizing qs with
  | nil => rfl
  | cons p ps ih => exact (ih _).trans (List.length_modify ..)

/-- The entry reserved is the newest of its port. -/
theorem reserved_newest {n : BitVec 4} {w : Wave} (hn : n.toNat < w.q.length) (wide : Bool) (acc : Nat) :
    ∃ q, (portReserved (.q n) wide acc w).q[n.toNat]? = some q ∧
      q.entries.getLast? = some { acc := acc, wide := wide, vals := [], got := none, dropped := false, poison := none } := by
  have old : w.q[n.toNat]? = some w.q[n.toNat] := List.getElem?_eq_getElem hn
  exact ⟨_, (List.getElem?_modify_eq ..).trans (congrArg _ old), List.getLast?_concat ..⟩

/-! ### Addresses of an instruction that FAULTRET does not issue again (R227, R242) -/

theorem accessing_eq {e : Env} (hre : e.w.reissue = none) (ts : List Nat) : e.accessing ts = ts := by
  simp [Env.accessing, hre]

theorem emulated_eq {e : Env} (hre : e.w.reissue = none) (ts : List Nat) : e.emulated ts = [] := by
  simp [Env.emulated, hre]

/-- The lanes of a load, from its translations; `l1` says which of them L1 may serve. -/
def loadLanes (l1 : Nat → Bool → Bool) (ps : List (Nat × W64 × Nat × Bool)) : List Lane :=
  ps.map fun y => Lane.mk' y.1 y.2.1 y.2.2.1 0 0 (l1 y.2.2.1 y.2.2.2)

theorem places_loadLanes (l1 : Nat → Bool → Bool) (ps : List (Nat × W64 × Nat × Bool)) :
    (loadLanes l1 ps).map lanePlace = ps.map fun y => (y.1, y.2.1, y.2.2.1, l1 y.2.2.1 y.2.2.2) := by
  rw [loadLanes, List.map_map]
  rfl

/-- The threads, addresses and translations of lanes alone. -/
theorem addresses_of_places {ls : List Lane} {l1 : Nat → Bool → Bool} {ps : List (Nat × W64 × Nat × Bool)}
    (h : ls.map lanePlace = (loadLanes l1 ps).map lanePlace) :
    ls.map (fun l => (l.t, l.va, l.pa)) = ps.map fun y => (y.1, y.2.1, y.2.2.1) := by
  have short : ls.map (fun l => (l.t, l.va, l.pa)) = (ls.map lanePlace).map fun p => (p.1, p.2.1, p.2.2.1) := by
    rw [List.map_map]
    rfl
  rw [short, h, places_loadLanes, List.map_map]
  rfl

end Sys2Proof.Claims
end

section
/-! Scalar and global loads: the statement about them, and its proof. -/

namespace Sys2Proof.Machine

open Sys2Proof.Claims

variable {s : State} {w : Wave} {h : Hdr} {wide : Bool} {d : BitVec 8} {imm : W32}

/-- The width of a scalar load in bytes. -/
def sldkSize (wide : Bool) : Nat := if wide then 8 else 4

/-- SLDK.arg reads the bytes of the argument block that its offset names, where they are in the block. -/
theorem sldkArg_starts {l : Launch} (hi : Issues s w (.sldkArg h wide d imm) true)
    (hl : s.launch? w.grp.part w.grp.lid = some l) (hg : w.uGuard h (s.cyc w.id.core) = true)
    (ha : imm.toNat % sldkSize wide = 0) (hb : imm.toNat + sldkSize wide ≤ l.args.length) :
    Starts s w (.sldkArg h wide d imm) h true fun _ a => a.op = .sldk ∧ a.lanes = [] ∧
      a.puts = putS wide d.toNat (BitVec.ofNat 64 (leNat ((l.args.drop imm.toNat).take (sldkSize wide)))) := by
  let e := mkEnv s w true (.sldkArg h wide d imm)
  have hg' : e.w.uGuard h e.c0 = true := hg
  have hl' : s.launch? e.w.grp.part e.w.grp.lid = some l := hl
  have hle : (s.enter w e h).launch? e.w.grp.part e.w.grp.lid = some l := hl
  have hx : exec (.sldkArg h wide d imm) s = .next ((s.enter w e h).addAcc { e.acc h .sldk with
      puts := putS wide d.toNat (BitVec.ofNat 64 (leNat ((l.args.drop imm.toNat).take (sldkSize wide)))) }) := by
    change execSldkArg h wide d imm s = _
    rw [execSldkArg, issue_ok hi]
    · simp only [e, hg', hle, if_true, Option.map_some, Option.getD_some]
      rfl
    · have inside : ¬ l.args.length < imm.toNat + sldkSize wide := Nat.not_lt.2 hb
      unfold sldkSize at ha inside
      simp [e, hg', hl', ha, inside]
  exact ⟨_, _, _, hx, started_of_adds hi (adds_of_filled (filled_refl _) _) ⟨rfl, rfl, rfl, rfl, rfl⟩,
    ⟨rfl, rfl, rfl⟩, rfl, rfl, rfl, rfl, rfl⟩

/-- What one access of SLDK.const reads: the word, or a byte where its address is no multiple of its size (R160). -/
def sldkUnit (wide : Bool) (x : W64) : Nat := if x.toNat % sldkSize wide = 0 then sldkSize wide else 1

/-- The accesses of SLDK.const, each with its address. -/
def sldkParts (wide : Bool) (x : W64) : List (Nat × W64) :=
  (List.range (sldkSize wide / sldkUnit wide x)).map fun k => (k, x + BitVec.ofNat 64 k)

def sldkTag (wide : Bool) (x : W64) : Tag := if sldkUnit wide x = 1 then .n8 else if wide then .b64 else .b32

/-- The size, the accesses and the tag, as SLDK.const chooses them by its address. -/
theorem sldk_choices (wide : Bool) (x : W64) :
    let odd : Bool := x.toNat % (if wide then 8 else 4) ≠ 0
    (if odd then 1 else if wide then 8 else 4) = sldkUnit wide x ∧
    (if odd then (List.range (if wide then 8 else 4)).map fun k => (k, x + BitVec.ofNat 64 k) else [(0, x)]) =
      sldkParts wide x ∧
    (if odd then .n8 else if wide then .b64 else .b32) = sldkTag wide x := by
  by_cases hx : x.toNat % sldkSize wide = 0
  · have whole : sldkUnit wide x = sldkSize wide := if_pos hx
    unfold sldkSize at hx
    cases wide <;> simp_all [sldkParts, sldkTag, sldkSize]
  · have byte : sldkUnit wide x = 1 := if_neg hx
    unfold sldkSize at hx
    simp [sldkParts, sldkTag, byte, hx, sldkSize]

section
variable {ps : List (Nat × W64 × Nat × Bool)} {x : W64}

/-- The access of SLDK.const at address `x`, with the translations of what it reads. -/
def sldkAcc (s : State) (e : Env) (h : Hdr) (wide : Bool) (d : BitVec 8) (x : W64)
    (ps : List (Nat × W64 × Nat × Bool)) : Acc :=
  { e.acc h .sldk with tag := sldkTag wide x, lanes := loadLanes s.l1able ps, dst := .s d.toNat wide }

theorem sldkConst_runs (hx : x = w.kern.const + imm.zeroExtend 64) (hi : Issues s w (.sldkConst h wide d imm) true)
    (hre : w.reissue = none) (hg : w.uGuard h (s.cyc w.id.core) = true) (hh : s.memHold w = false)
    (ha : imm.toNat % sldkSize wide = 0) (hb : bits x 63 51 = 0)
    (hwatch : s.watchChk (envOf s w (.sldkConst h wide d imm) true) true false false (sldkSize wide) [(0, x)] .ok = .ok)
    (hps : s.xlate (some w.id.core) w.grp.part .read (sldkUnit wide x) (sldkParts wide x) = .ok ps) :
    let e := mkEnv s w true (.sldkConst h wide d imm)
    exec (.sldkConst h wide d imm) s = .next (((s.enter w e h).modWave w.id id).startLoad
      ((s.enter w e h).ordered w (sldkAcc s e h wide d x ps) false false)
      ((s.enter w e h).l1Bound w.id.core ((loadLanes s.l1able ps).map fun l => l.pa / 128))) := by
  intro e
  have hg' : e.w.uGuard h e.c0 = true := hg
  have hre' : e.w.reissue = none := hre
  have hh' : s.memHold e.w = false := hh
  have hps' : s.xlate (some e.w.id.core) e.w.grp.part .read (sldkUnit wide x) (sldkParts wide x) = .ok ps := hps
  have haddr : e.w.kern.const + imm.zeroExtend 64 = x := hx.symm
  obtain ⟨hunit, hparts, htag⟩ := sldk_choices wide x
  change execSldkConst h wide d imm s = _
  rw [execSldkConst, issue_ok hi]
  · simp only [e, hg', hre', haddr, if_true, Option.isSome_none, Bool.false_eq_true, if_false, pasOf_enter, hunit, hparts,
      htag, pasOf_ok hps', List.append_nil, modWave_id]
    rfl
  · unfold sldkSize at ha hwatch
    simp only [e, hg', hre', hh', haddr, Option.isSome_none, Bool.false_eq_true, if_false, Bool.not_true, hunit, hparts,
      hps', ha, hb, ne_eq, not_true_eq_false]
    exact watchXlate_ok hwatch

/-- SLDK.const starts the load of its word where it passes its checks. -/
theorem sldkConst_starts (hx : x = w.kern.const + imm.zeroExtend 64) (hi : Issues s w (.sldkConst h wide d imm) true)
    (hre : w.reissue = none) (hg : w.uGuard h (s.cyc w.id.core) = true) (hh : s.memHold w = false)
    (ha : imm.toNat % sldkSize wide = 0) (hb : bits x 63 51 = 0)
    (hwatch : s.watchChk (envOf s w (.sldkConst h wide d imm) true) true false false (sldkSize wide) [(0, x)] .ok = .ok)
    (hps : s.xlate (some w.id.core) w.grp.part .read (sldkUnit wide x) (sldkParts wide x) = .ok ps) :
    Starts s w (.sldkConst h wide d imm) h true fun _ a =>
      a.op = .sldk ∧ a.ord = .weak ∧ a.dst = .s d.toNat wide ∧ a.tag = sldkTag wide x ∧
      a.lanes.map lanePlace = ps.map fun y => (y.1, y.2.1, y.2.2.1, s.l1able y.2.2.1 y.2.2.2) := by
  have run := sldkConst_runs hx hi hre hg hh ha hb hwatch hps
  obtain ⟨t, y, hy, hst, ⟨made, places⟩, kept⟩ :=
    started_of_startLoad hi run onlyPorts_id ⟨rfl, rfl, rfl, rfl, rfl⟩
  exact ⟨t, _, y, hy, hst, ⟨congrArg Acc.op made, congrArg Acc.ord made, congrArg Acc.dst made, congrArg Acc.tag made,
    places.trans (places_loadLanes ..)⟩, kept⟩

variable {o : GlMem}

/-- The addresses of a global load's active threads (R242). -/
def ldgAddrs (s : State) (w : Wave) (h : Hdr) (o : GlMem) : List (Nat × W64) :=
  (bitsOf (w.active h (s.cyc w.id.core))).map fun t =>
    (t, indexAddr (mkEnv s w false (.ldg h o)) o.a o.b o.scl o.isgn o.off (sizeOf' o.tag) t)

theorem glAddrs_of_ldg (hre : w.reissue = none) : glAddrs (mkEnv s w false (.ldg h o)) h o = ldgAddrs s w h o := by
  rw [glAddrs, accessing_eq hre]
  rfl

/-- L1 may serve a weak load (R256). -/
def ldgL1 (s : State) (o : GlMem) (pa : Nat) (nc : Bool) : Bool := o.ord = .weak && s.l1able pa nc

/-- The access of a global load with the translations of its addresses. -/
def ldgAcc (s : State) (e : Env) (h : Hdr) (o : GlMem) (ps : List (Nat × W64 × Nat × Bool)) : Acc :=
  { e.acc h .load with
    tag := o.tag, ord := o.ord, sco := o.sco, lanes := loadLanes (ldgL1 s o) ps, dst := accDst o.d o.tag.wide }

theorem ldg_runs (hi : Issues s w (.ldg h o) false) (hre : w.reissue = none)
    (hchk : globalChk s (mkEnv s w false (.ldg h o)) .read true (sizeOf' o.tag) (ldgAddrs s w h o) = .ok)
    (hps : s.xlate (some w.id.core) w.grp.part .read (sizeOf' o.tag) (ldgAddrs s w h o) = .ok ps) :
    let e := mkEnv s w false (.ldg h o)
    let r := (s.enter w e h).modWave w.id (portReserved o.d o.tag.wide s.nextSeq)
    exec (.ldg h o) s = .next (r.startLoad ((s.enter w e h).ordered w (ldgAcc s e h o ps) false false)
      (r.l1Bound w.id.core ((loadLanes (ldgL1 s o) ps).map fun l => l.pa / 128))) := by
  intro e r
  have addrs : glAddrs e h o = ldgAddrs s w h o := glAddrs_of_ldg hre
  have passed : s.pasOf e .read (sizeOf' o.tag) (glAddrs e h o) = ps := pasOf_ok (by rw [addrs]; exact hps)
  have fresh : e.emulated (lanesOf e h false) = [] := emulated_eq hre _
  change execLdg h o s = _
  rw [execLdg, issue_ok hi (by rw [addrs]; exact hchk)]
  simp only [e] at passed fresh
  simp only [pasOf_enter, passed, fresh, List.map_nil, List.append_nil, pushDst_eq]
  rfl

/-- A global load that passes its checks starts its access, and its wave has reserved the entry of a queue destination. -/
theorem ldg_starts (hi : Issues s w (.ldg h o) false) (hre : w.reissue = none)
    (hchk : globalChk s (mkEnv s w false (.ldg h o)) .read true (sizeOf' o.tag) (ldgAddrs s w h o) = .ok)
    (hps : s.xlate (some w.id.core) w.grp.part .read (sizeOf' o.tag) (ldgAddrs s w h o) = .ok ps) :
    ∃ t x, exec (.ldg h o) s = .next t ∧ started s w (mkEnv s w false (.ldg h o)) h t
        (portReserved o.d o.tag.wide s.nextSeq (entered w (mkEnv s w false (.ldg h o)) h)) x ∧
      (x.op = .load ∧ x.tag = o.tag ∧ x.ord = o.ord ∧ x.sco = o.sco ∧ x.dst = accDst o.d o.tag.wide ∧
        x.lanes.map (fun l => (l.t, l.va, l.pa)) = ps.map fun x => (x.1, x.2.1, x.2.2.1)) ∧
      t.slc = s.slc ∧ t.home = s.home ∧ t.dirty = s.dirty ∧ t.flip = s.flip ∧ t.out = s.out := by
  obtain ⟨t, y, hy, hst, ⟨made, places⟩, kept⟩ :=
    started_of_startLoad hi (ldg_runs hi hre hchk hps) (onlyPorts_portReserved _ _ _) ⟨rfl, rfl, rfl, rfl, rfl⟩
  exact ⟨t, y, hy, hst, ⟨congrArg Acc.op made, congrArg Acc.tag made, congrArg Acc.ord made, congrArg Acc.sco made,
    congrArg Acc.dst made, addresses_of_places places⟩, kept⟩

end

/-- Settles O16: SLDK.arg adds one access with its bytes; the loads from memory start one with their lanes. -/
theorem loads : Obligations.Loads := by
  refine ⟨fun s w h wide d imm => ⟨fun l => sldkArg_starts, fun ps hi hre hg hh ha hb hwatch hps =>
    sldkConst_starts rfl hi hre hg hh ha hb hwatch hps⟩, fun s w h o ps hi hre hchk hps => ?_⟩
  obtain ⟨t, x, hrun, hst, made, kept⟩ := ldg_starts hi hre hchk hps
  refine ⟨⟨t, _, x, hrun, hst, made, kept⟩, fun n hn hlen => ?_⟩
  have room : n.toNat < (entered w (mkEnv s w false (.ldg h o)) h).q.length := by
    rw [entered_frame, length_popAll]
    exact hlen
  obtain ⟨q, hq, hlast⟩ := reserved_newest room o.tag.wide s.nextSeq
  rw [hn] at hst
  exact ⟨t, _, q, _, hrun, hst.marks.there, hq, hlast, rfl⟩

end Sys2Proof.Machine
end

section
/-! The machine after reset: the statement about it, and its proof. -/

namespace Sys2Proof.Machine

/-- A lease nonce is not 0 (R388). -/
theorem freshNonce_ne_zero (n : Nat) : freshNonce n ≠ 0 := by
  unfold freshNonce
  dsimp only
  split
  · decide
  · assumption

/-- Settles O60: the fields are those of the reset state, and its lists hold the reset values of their elements. -/
theorem resetState : Obligations.ResetState := by
  refine ⟨rfl, rfl, rfl, rfl, rfl, rfl, rfl, rfl, rfl, rfl, rfl, rfl, rfl, List.length_replicate, fun p hp => ?part,
    fun c hc => ?cluster, rfl, rfl, rfl, fun p hp => ?port, rfl, rfl⟩
  case part =>
    obtain rfl := List.eq_of_mem_replicate hp
    exact ⟨rfl, rfl, rfl, rfl, rfl, rfl, rfl, rfl, rfl, rfl⟩
  case cluster =>
    obtain ⟨k, -, rfl⟩ := List.mem_map.1 hc
    exact ⟨rfl, rfl⟩
  case port =>
    have reset : ∃ n, p = HostPort.reset n := by
      have two : p = HostPort.reset 0 ∨ p = HostPort.reset 1 := by simpa [State.reset] using hp
      exact two.elim (fun h => ⟨0, h⟩) fun h => ⟨1, h⟩
    obtain ⟨n, rfl⟩ := reset
    exact ⟨rfl, rfl, freshNonce_ne_zero n⟩

end Sys2Proof.Machine
end

section
/-!
SUPPORT. Reductions in any order (R104, R181, R182): the tree of an associative operation as a fold, and the folds of the
integer operations.
-/

namespace Sys2Proof.Machine

/-! ### The tree as a fold -/

section
variable {f : Nat → Nat → Nat}

theorem treeLevel_cons_cons (x y : Option Nat) (l : List (Option Nat)) :
    treeLevel f (x :: y :: l) = Option.merge f x y :: treeLevel f l := by
  cases x <;> cases y <;> rfl

theorem length_treeLevel : ∀ l : List (Option Nat), (treeLevel f l).length = (l.length + 1) / 2
  | [] => rfl
  | [_] => by simp [treeLevel]
  | x :: y :: l => by
    simp only [treeLevel_cons_cons, List.length_cons, length_treeLevel l]
    omega

/-- A level of the tree does not change what its nodes fold to. -/
theorem foldl_treeLevel [Std.Associative f] : ∀ (l : List (Option Nat)) (z : Option Nat),
    (treeLevel f l).foldl (Option.merge f) z = l.foldl (Option.merge f) z
  | [], _ => rfl
  | [_], _ => rfl
  | x :: y :: l, z => by
    simp only [treeLevel_cons_cons, List.foldl_cons, foldl_treeLevel l]
    rw [Std.Associative.assoc (op := Option.merge f)]

/-- The tree over 2^k leaves gives their fold. -/
theorem treeFold_eq_foldl [Std.Associative f] (k : Nat) {l : List (Option Nat)} (hl : l.length = 2 ^ k) :
    treeFold f k l = l.foldl (Option.merge f) none := by
  induction k generalizing l with
  | zero =>
    obtain ⟨x, rfl⟩ := List.length_eq_one_iff.1 hl
    simp [treeFold]
  | succ k ih =>
    have half : (treeLevel f l).length = 2 ^ k := by
      rw [length_treeLevel, hl, pow_succ]
      omega
    rw [treeFold, ih half, foldl_treeLevel]

/-- Absent leaves leave a fold as it is. -/
theorem foldl_merge_eq (l : List (Option Nat)) (z : Option Nat) :
    l.foldl (Option.merge f) z = (l.filterMap id).foldl (fun z x => Option.merge f z (some x)) z := by
  rw [List.foldl_filterMap]
  congr
  funext z x
  cases x with
  | none => exact Option.merge_none_right
  | some x => rfl

/-- The fold of a list from its first element. -/
theorem foldl_merge_cons (y : Nat) (l : List Nat) :
    (y :: l).foldl (fun z x => Option.merge f z (some x)) none = some (l.foldl f y) :=
  List.foldl_hom some fun _ _ => rfl

/-- The tree gives the fold of its leaves in any order, where the operation is associative, and commutes on the leaves. -/
theorem treeFold_eq_of_perm [Std.Associative f] {k : Nat} {xs : List (Option Nat)} {ys : List Nat}
    (hl : xs.length = 2 ^ k) (hp : ys.Perm (xs.filterMap id)) (comm : ∀ x ∈ ys, ∀ y ∈ ys, f x y = f y x) :
    treeFold f k xs = ys.foldl (fun z x => Option.merge f z (some x)) none := by
  have swap : ∀ x ∈ ys, ∀ y ∈ ys, ∀ z : Option Nat, Option.merge f (Option.merge f z (some x)) (some y) =
      Option.merge f (Option.merge f z (some y)) (some x) := fun x hx y hy z => by
    simp only [Std.Associative.assoc (op := Option.merge f)]
    exact congrArg (fun n => Option.merge f z (some n)) (comm x hx y hy)
  rw [treeFold_eq_foldl k hl, foldl_merge_eq, hp.foldl_eq' swap]

end

/-! ### Sums -/

theorem foldl_addMod {m y : Nat} (hy : y < m) (l : List Nat) :
    l.foldl (fun a b => (a + b) % m) y = (y :: l).sum % m := by
  induction l generalizing y with
  | nil => simp [Nat.mod_eq_of_lt hy]
  | cons x l ih => simp [ih (Nat.mod_lt _ (Nat.zero_lt_of_lt hy)), Nat.add_assoc]

/-! ### The least by a key -/

/-- Of two numbers the one of the lesser key, the first where neither is less. -/
def keepLeast (key : Nat → Int) (a b : Nat) : Nat := if key b < key a then b else a

section
variable {key : Nat → Int}

theorem keepLeast_assoc (key : Nat → Int) : Std.Associative (keepLeast key) := ⟨fun a b c => by
  simp only [keepLeast]
  split_ifs <;> omega⟩

theorem keepLeast_comm {a b : Nat} (inj : key a = key b → a = b) : keepLeast key a b = keepLeast key b a := by
  rcases lt_trichotomy (key a) (key b) with h | h | h
  · simp [keepLeast, h, h.le]
  · rw [inj h]
  · simp [keepLeast, h, h.le]

theorem argmin_eq_foldl (y : Nat) (l : List Nat) : (y :: l).argmin key = some (l.foldl (keepLeast key) y) :=
  List.foldl_hom some fun _ _ => (apply_ite some _ _ _).symm

/-- A fold of `keepLeast` is an element of least key. -/
theorem foldl_keepLeast (y : Nat) (l : List Nat) : l.foldl (keepLeast key) y ∈ y :: l ∧
    ∀ x ∈ y :: l, key (l.foldl (keepLeast key) y) ≤ key x :=
  ⟨List.argmin_mem (argmin_eq_foldl y l), fun _ hx => List.le_of_mem_argmin hx (argmin_eq_foldl y l)⟩

end

/-! ### Bits -/

theorem testBit_foldl_and (k y : Nat) (l : List Nat) :
    (l.foldl (· &&& ·) y).testBit k = (y :: l).all fun x => x.testBit k := by
  induction l generalizing y with
  | nil => simp
  | cons x l ih => simp [ih, Bool.and_assoc]

theorem testBit_foldl_or (k y : Nat) (l : List Nat) :
    (l.foldl (· ||| ·) y).testBit k = (y :: l).any fun x => x.testBit k := by
  induction l generalizing y with
  | nil => simp
  | cons x l ih => simp [ih, Bool.or_assoc]

/-- A bit of an exclusive or is set where it is set in an odd number of its operands. -/
theorem testBit_foldl_xor (k y : Nat) (l : List Nat) :
    (l.foldl (· ^^^ ·) y).testBit k = decide (((y :: l).countP fun x => x.testBit k) % 2 = 1) := by
  induction l generalizing y with
  | nil => cases h : y.testBit k <;> simp [h]
  | cons x l ih =>
    rw [List.foldl_cons, ih]
    cases hx : x.testBit k <;> cases hy : y.testBit k <;> simp [hx, hy]
    omega

/-! ### The operations on integers (R181) -/

/-- The integer of a number, as the tag reads it. -/
def redKey (t : Tag) (x : Nat) : Int := readInt t (tagW t) (BitVec.ofNat 64 x)

/-- Numbers of the tag's width are told apart by the integers that they are. -/
theorem redKey_inj {t : Tag} {x y : Nat} (hx : x < 2 ^ tagW t) (hy : y < 2 ^ tagW t) (h : redKey t x = redKey t y) :
    x = y := by
  have le : tagW t ≤ 64 := by
    unfold tagW
    split <;> decide
  have narrow (n : Nat) : (BitVec.ofNat 64 n).setWidth (tagW t) = BitVec.ofNat (tagW t) n :=
    BitVec.setWidth_ofNat_of_le le n
  rw [redKey, redKey, Claims.readInt_eq, Claims.readInt_eq, narrow, narrow] at h
  have value := congrArg (BitVec.ofInt (tagW t)) h
  rw [Claims.ofInt_intOf, Claims.ofInt_intOf] at value
  simpa [Nat.mod_eq_of_lt hx, Nat.mod_eq_of_lt hy] using congrArg BitVec.toNat value

theorem redComb_min (t : Tag) (m : Rnd) : redComb .min t m = keepLeast (redKey t) := rfl

theorem redComb_max (t : Tag) (m : Rnd) : redComb .max t m = keepLeast fun x => -redKey t x := by
  funext a b
  simp only [keepLeast, neg_lt_neg_iff]
  rfl

/-- An operation of VRED and VSCAN on integers. -/
def OnInts (op : RedOp) : Prop :=
  op = .add ∨ op = .min ∨ op = .max ∨ op = .and ∨ op = .or ∨ op = .xor

theorem redComb_assoc {op : RedOp} (h : OnInts op) (t : Tag) (m : Rnd) : Std.Associative (redComb op t m) := by
  obtain rfl | rfl | rfl | rfl | rfl | rfl := h
  · exact ⟨fun a b c => by simp [redComb, Nat.add_assoc]⟩
  · exact keepLeast_assoc _
  · exact redComb_max t m ▸ keepLeast_assoc _
  · exact ⟨Nat.and_assoc⟩
  · exact ⟨Nat.or_assoc⟩
  · exact ⟨Nat.xor_assoc⟩

theorem redComb_comm {op : RedOp} (h : OnInts op) {t : Tag} (m : Rnd) {x y : Nat} (hx : x < 2 ^ tagW t)
    (hy : y < 2 ^ tagW t) : redComb op t m x y = redComb op t m y x := by
  obtain rfl | rfl | rfl | rfl | rfl | rfl := h
  · exact congrArg (· % 2 ^ tagW t) (Nat.add_comm x y)
  · exact keepLeast_comm (redKey_inj hx hy)
  · rw [redComb_max]
    exact keepLeast_comm fun h => redKey_inj hx hy (neg_inj.1 h)
  · exact Nat.and_comm x y
  · exact Nat.or_comm x y
  · exact Nat.xor_comm x y

end Sys2Proof.Machine
end

section
/-! Integer reductions: the statement about them, and its proof. -/

namespace Sys2Proof.Machine

/-- Settles O15: the tree is a fold, whose order does not matter, and each operation's fold is what the rule names. -/
theorem integerReductionOrder : Obligations.IntegerReductionOrder := by
  intro op t m xs ys _ hop hlen hlt hperm rd
  have := redComb_assoc hop t m
  have small : ∀ y ∈ ys, y < 2 ^ tagW t := fun y hy => hlt y (by simpa using hperm.mem_iff.1 hy)
  have tree := treeFold_eq_of_perm (k := 6) hlen hperm fun x hx y hy => redComb_comm hop m (small x hx) (small y hy)
  cases ys with
  | nil => exact ⟨tree, fun r hr => nomatch tree.symm.trans hr⟩
  | cons y l =>
    rw [foldl_merge_cons] at tree
    refine ⟨tree, fun r hr => ?_⟩
    obtain rfl := Option.some.inj (tree.symm.trans hr)
    refine ⟨?add, ?min, ?max, ?and, ?or, ?xor⟩ <;> rintro rfl
    case add => exact foldl_addMod (small y List.mem_cons_self) l
    case min => exact foldl_keepLeast y l
    case max =>
      rw [redComb_max]
      obtain ⟨mem, least⟩ := foldl_keepLeast (key := fun x => -redKey t x) y l
      exact ⟨mem, fun x hx => neg_le_neg_iff.1 (least x hx)⟩
    case and => exact fun k => testBit_foldl_and k y l
    case or => exact fun k => testBit_foldl_or k y l
    case xor => exact fun k => testBit_foldl_xor k y l

end Sys2Proof.Machine
end

section
/-! Special functions, and the results of units that keep the order of issue: the statement about them, and its proof. -/

namespace Sys2Proof.Machine

open Sys2Proof.Claims

/-- A special function starts one access with the results of its active threads. -/
theorem starts_of_special {s : State} {w : Wave} {i : Instr} {h : Hdr} {o : SfuOp} {f : Sfu}
    (hx : exec i s = special i h o f s) (hi : Issues s w i false) : Starts s w i h false fun e a =>
      a.op = .sfu ∧ a.puts = [.v o.d.toNat ((bitsOf (w.active h e.c0)).map fun t => (t, sfu f (e.v32 0 o.a t)))] :=
  starts_of_addAcc hx hi rfl rfl rfl rfl rfl rfl ⟨rfl, rfl⟩

/-- A unit lands its wave's oldest results, and no later ones before them. -/
theorem orderedWrite_ripe {s : State} {k : AccOp → Bool} {id : Nat} {a : Acc} (hr : s.ripe id k = some a) :
    (s.oldest a = true → orderedWrite k id s = .next (ended s a a.puts)) ∧
      (s.oldest a = false → orderedWrite k id s = .next s) := by
  simp only [orderedWrite, hr]
  exact ⟨fun ho => if_pos ho, fun ho => if_neg (by simp [ho])⟩

/-- Settles O7: each function starts its access, and the two units write by one rule. -/
theorem specialResults : Obligations.SpecialResults := by
  refine ⟨fun s w h o => ⟨starts_of_special rfl, starts_of_special rfl, starts_of_special rfl, starts_of_special rfl,
    starts_of_special rfl, starts_of_special rfl, starts_of_special rfl, starts_of_special rfl⟩,
    fun s id a => ⟨orderedWrite_ripe, orderedWrite_ripe⟩⟩

end Sys2Proof.Machine
end

section
/-! Cross-lane instructions: the statement about them, and its proof. -/

namespace Sys2Proof.Machine

open Sys2Proof.Claims

/-- A cross-lane instruction starts one access with what it will write. -/
theorem starts_of_crossLane {s : State} {w : Wave} {i : Instr} {h : Hdr} {f g : Env → List Put}
    (hx : exec i s = crossLane i h f s) (hf : f (mkEnv s w false i) = g (mkEnv s w false i)) (hi : Issues s w i false) :
    Starts s w i h false fun e a => a.op = .xlane ∧ a.puts = g e :=
  starts_of_addAcc hx hi rfl rfl rfl rfl rfl rfl ⟨rfl, hf⟩

/-- A thread's number, taken from the low word of an element. -/
theorem toNat_lo32 (x : W64) : (lo32 x).toNat = x.toNat % 2 ^ 32 := BitVec.toNat_setWidth ..

/-- The thread that RDLANE and WRLANE name, where it exists (R180). -/
theorem laneOf_mkEnv (s : State) (w : Wave) (u : Bool) (i : Instr) (b : BitVec 8) : laneOf (mkEnv s w u i) b =
    let t := (w.rs (mkEnv s w u i).c0 b.toNat).toNat % 64
    if t < w.kern.width ∧ w.present.getLsbD t = true then some t else none := by
  simp only [laneOf, Bool.and_eq_true, decide_eq_true_eq]
  rfl

theorem mkEnv_w (s : State) (w : Wave) (u : Bool) (i : Instr) : (mkEnv s w u i).w = w := rfl

end Sys2Proof.Machine

namespace Sys2Proof.Claims

open Sys2Proof.Machine

/-- Settles O14: each instruction by its kind, what it writes being what the statement says thread by thread. -/
theorem crossLane : Obligations.CrossLane := by
  refine fun s w h => ⟨fun o => ?shfl, fun o => ?rdlane, fun o => ?wrlane, fun o => ?vred, fun o => ?vscan, fun o => ?vmatch⟩
  case shfl =>
    refine starts_of_crossLane (show exec (.shfl h o) s = execShfl h o s from rfl) ?_
    simp only [toNat_lo32]
    rfl
  case rdlane =>
    refine starts_of_crossLane (show exec (.rdlane h o) s = execRdlane h o s from rfl) ?_
    simp only [laneOf_mkEnv, mkEnv_w]
    split_ifs <;> rfl
  case wrlane =>
    refine starts_of_crossLane (show exec (.wrlane h o) s = execWrlane h o s from rfl) ?_
    simp only [laneOf_mkEnv, mkEnv_w, ite_and]
    split_ifs <;> rfl
  case vred => exact starts_of_crossLane (show exec (.vred h o) s = execVred h o s from rfl) rfl
  case vscan => exact starts_of_crossLane (show exec (.vscan h o) s = execVscan h o s from rfl) rfl
  case vmatch =>
    refine starts_of_crossLane (show exec (.vmatch h o) s = execVmatch h o s from rfl) ?_
    simp only [List.filter_map, List.map_map, Function.comp_def, List.map_id']
    rfl

end Sys2Proof.Claims
end

section
/-!
SUPPORT. Read-modify-writes of one word, at its slice and at its bank ALU (R190, R194, R244).
-/

namespace Sys2Proof.Machine

open Sys2Proof.Claims

/-! ### Numbers in a window -/

section
variable {g : Group}

/-- The bytes of a range of a window, each read at its offset. -/
theorem Group.rdBytes_eq_map (g : Group) (x n : Nat) :
    g.rdBytes x n = (List.range n).map fun k => g.window.get (x + k) := by
  induction n generalizing x with
  | zero => rfl
  | succ n ih => simp [Group.rdBytes, ih, List.range_succ_eq_map, Nat.add_comm, Nat.add_left_comm]

/-- A byte of a window after a number is written. -/
theorem Group.get_wrNat (h : Memory.wf g.window = true) (x n v b : Nat) : (g.wrNat x n v).window.get b =
    if x ≤ b ∧ b < x + n then BitVec.ofNat 8 (v / 256 ^ (b - x)) else g.window.get b := by
  have put : (g.wrNat x n v).window.get b =
      if x ≤ b ∧ b < x + (leBytes n v).length then (leBytes n v).getD (b - x) 0 else g.window.get b := winSet_get h x _ b
  rw [put, length_leBytes]
  split
  · exact getD_leBytes (by omega) v
  · rfl

/-- A number written to a window is read back, modulo its width. -/
theorem Group.rdNat_wrNat_same (h : Memory.wf g.window = true) (x n v : Nat) :
    (g.wrNat x n v).rdNat x n = v % 2 ^ (8 * n) := by
  have bytes : (g.wrNat x n v).rdBytes x n = leBytes n v := by
    rw [Group.rdBytes_eq_map, leBytes_eq_map]
    refine List.map_congr_left fun k hk => ?_
    have hk := List.mem_range.1 hk
    rw [Group.get_wrNat h, if_pos (by omega), Nat.add_sub_cancel_left]
  rw [Group.rdNat, bytes, leNat_leBytes, Nat.pow_mul]

/-- A number written to a window leaves the bytes beside it. -/
theorem Group.get_wrNat_other (h : Memory.wf g.window = true) {x n b : Nat} (v : Nat) (hb : b < x ∨ x + n ≤ b) :
    (g.wrNat x n v).window.get b = g.window.get b := by
  rw [Group.get_wrNat h, if_neg (by omega)]

end

/-! ### At a slice -/

section
variable {s : State} {a : Acc} {l : Lane} {op : AtomOp}

/-- Bytes written at their slice read as bytes written to memory. -/
theorem rdByte_slcWrite (s : State) (ways pa : Nat) (bs : List Byte) :
    (s.slcWrite ways pa bs).rdByte = (s.wrBytes pa bs).rdByte := by
  have places : (s.slcWrite ways pa bs).key = s.key := (engineAt_slcWrite s ways pa bs).places.1
  funext x
  rw [State.rdByte, State.rdByte, slcWrite_mem, places, key_wrBytes]

/-- A read-modify-write of a sound word, at its slice (R244): its core's L1 loses the line. -/
theorem perform_atomic (hop : a.op = .atom op ∨ a.op = .red op) (hp : s.poisoned l.pa = false) :
    s.perform a l = ({ l with perf := true, res := BitVec.ofNat 64 (s.rdNat l.pa (sizeOf' a.tag)) },
      (s.l1Drop a.w.core (l.pa / 128)).slcWrite (s.partWays a.grp.part) l.pa (leBytes (sizeOf' a.tag)
        (atomNew op a.tag (s.rdNat l.pa (sizeOf' a.tag)) l.data.toNat l.cmp.toNat))) := by
  have sound : (s.l1Drop a.w.core (l.pa / 128)).poisoned l.pa = false := hp
  have old : (s.l1Drop a.w.core (l.pa / 128)).rdNat = s.rdNat := rdNat_congr rfl
  rcases hop with hop | hop <;>
    simp only [State.perform, hop, sound, old, AccOp.newValue, Bool.false_eq_true, if_false]

end

/-! ### At a bank ALU -/

section
variable {s : State} {a : Acc} {l : Lane} {g : Group}

theorem performSp_load (hg : s.group? a.grp = some g) (hop : a.op = .spLoad) :
    s.performSp a l = ({ l with perf := true, res := extend a.tag (g.rdNat l.pa (sizeOf' a.tag)) }, s) := by
  simp only [State.performSp, hg, hop]

/-- What a store or a read-modify-write of the window makes of the word (R190, R194). -/
theorem performSp_writes (hg : s.group? a.grp = some g)
    (hop : a.op = .spStore ∨ ∃ op, a.op = .spAtom op ∨ a.op = .spRed op) :
    (s.performSp a l).2 = s.modGroup a.grp fun x => x.wrNat l.pa (sizeOf' a.tag)
      (a.op.newValue a.tag (g.rdNat l.pa (sizeOf' a.tag)) l.data.toNat l.cmp.toNat) := by
  rcases hop with hop | ⟨op, hop | hop⟩ <;> simp only [State.performSp, hg, hop, AccOp.newValue]

/-- A read-modify-write of the window gives its thread the old value. -/
theorem performSp_returns (hg : s.group? a.grp = some g) (hop : ∃ op, a.op = .spAtom op ∨ a.op = .spRed op) :
    (s.performSp a l).1.res = BitVec.ofNat 64 (g.rdNat l.pa (sizeOf' a.tag)) := by
  obtain ⟨op, hop | hop⟩ := hop <;> simp only [State.performSp, hg, hop]

/-- A number written to a group's window changes its bytes there alone, and no other group. -/
theorem modGroup_wrNat (hg : s.group? a.grp = some g) (hm : Memory.wf g.window = true) (x n v : Nat) :
    let t := s.modGroup a.grp fun y => y.wrNat x n v
    ∃ g', t.group? a.grp = some g' ∧ g' = { g with window := g'.window, flips := g'.flips } ∧
      g'.rdNat x n = v % 2 ^ (8 * n) ∧ (∀ b, b < x ∨ x + n ≤ b → g'.window.get b = g.window.get b) ∧
      (∀ k, k ≠ a.grp → t.group? k = s.group? k) ∧ t = { s with groups := t.groups } :=
  ⟨g.wrNat x n v, group?_modGroup_same (fun _ => rfl) hg, rfl, Group.rdNat_wrNat_same hm x n v,
    fun _ => Group.get_wrNat_other hm v, fun _ => group?_modGroup_other fun _ => rfl, rfl⟩

end

end Sys2Proof.Machine
end

section
/-! One lane of an atomic at its slice, and of any access at its bank ALU: the statement about them, and its proof. -/

namespace Sys2Proof.Machine

/-- Settles O19: what the lane writes, by how a number that was written is read, at the slice and in the window. -/
theorem atomicAlus : Obligations.AtomicAlus := by
  refine ⟨fun s a l op hm hp hop => ?slice, fun s a l g hg hm => ⟨fun hop => ?load, fun op hop => ?write⟩⟩
  case slice =>
    have hm' : Memory.wf (s.l1Drop a.w.core (l.pa / 128)).mem = true := hm
    dsimp only
    rw [perform_atomic hop hp, rdNat_congr (rdByte_slcWrite ..), rdByte_slcWrite]
    exact ⟨rfl, rfl, rdNat_wrNat_same hm' .., fun x hx => (rdByte_wrNat hm' ..).trans (if_neg (by omega))⟩
  case load => exact ⟨congrArg (·.1.res) (performSp_load hg hop), congrArg Prod.snd (performSp_load hg hop)⟩
  case write =>
    have writes : a.op = .spStore ∨ ∃ op, a.op = .spAtom op ∨ a.op = .spRed op :=
      hop.imp And.left fun h => ⟨op, h⟩
    have value : ∀ o b d, a.op.newValue a.tag o b d = atomNew op a.tag o b d := by
      rcases hop with ⟨hop, rfl⟩ | hop | hop <;> simp [hop, AccOp.newValue, atomNew]
    rw [performSp_writes hg writes, value]
    exact ⟨fun hne => performSp_returns hg (writes.resolve_left hne), modGroup_wrNat hg hm ..⟩

end Sys2Proof.Machine
end

section
/-!
SUPPORT. Accesses of the window as their issue starts them, at the scratchpad port and of a barrier word
(R189, R192, R196–R200).
-/

namespace Sys2Proof.Claims

open Sys2Proof.Machine

variable {s : State} {w : Wave} {i : Instr} {h : Hdr}

/-- A scratchpad access starts where its offsets pass the checks. -/
theorem starts_of_startSp {size : Nat} {off : Env → Nat → Nat} {op : AccOp} {rd wr store rel atom : Bool} {a : Env → Acc}
    (hx : exec i s = issue i h false (fun s e => spChk s e rd wr size ((lanesOf e h false).map fun t => (t, off e t)))
      (fun e s => s.startSp e (a e) store rel atom) s)
    (ha : ∀ e, IssuedBy e h op (a e)) (hi : Issues s w i false)
    (hc : spChk s (mkEnv s w false i) rd wr size
      ((bitsOf (w.active h (mkEnv s w false i).c0)).map fun t => (t, off (mkEnv s w false i) t)) = .ok) :
    Starts s w i h false fun e x => StartsAs (a e) x ∧ x.lanes = (a e).lanes := by
  let e := mkEnv s w false i
  have adds := startSp_adds (s.enter w e h) e (a e) store rel atom
  have made := ha e
  exact ⟨_, _, _, hx.trans (issue_ok hi hc), started_of_adds hi adds ⟨made.op, made.uid, made.at_, made.grp, made.sf⟩,
    ⟨rfl, rfl⟩, rfl, rfl, rfl, rfl, rfl⟩

/-- What a start says of its access may be said in other words. -/
theorem Starts.imp {u : Bool} {a b : Env → Acc → Prop} (hs : Starts s w i h u a)
    (hab : ∀ x, a (mkEnv s w u i) x → b (mkEnv s w u i) x) : Starts s w i h u b := by
  obtain ⟨t, w', x, hx, hst, ha, kept⟩ := hs
  exact ⟨t, w', x, hx, hst, hab x ha, kept⟩

/-- A barrier instruction whose word passes the checks starts its access of it. -/
theorem starts_of_barAccess {x : Env → Nat} {a : Env → Acc} {op : AccOp} {store rel : Bool}
    (hx : exec i s = issue i h false (fun s e => barChk s e h (x e) false)
      (fun e s => if e.w.uGuard h e.c0 then s.addAcc (s.ordered e.w (a e) store rel) else done1 e h s) s)
    (ha : ∀ e, IssuedBy e h op (a e)) (hi : Issues s w i false) (hg : w.uGuard h (s.cyc w.id.core) = true)
    (hh : s.memHold w = false) (haligned : x (mkEnv s w false i) % 8 = 0)
    (hin : x (mkEnv s w false i) + 8 ≤ (mkEnv s w false i).winSize) :
    Starts s w i h false fun e y => StartsAs (a e) y ∧ y.lanes = (a e).lanes := by
  have guarded : (mkEnv s w false i).w.uGuard h (mkEnv s w false i).c0 = true := hg
  have made := ha (mkEnv s w false i)
  exact starts_of_addAcc hx hi (barChk_ok hg hh haligned hin) (if_pos guarded) made.uid made.at_ made.grp made.sf ⟨rfl, rfl⟩

end Sys2Proof.Claims
end

section
/-! Barriers at their issue: the statement about them, and its proof. -/

namespace Sys2Proof.Machine

open Sys2Proof.Claims

section
variable {s : State} {w : Wave} {h : Hdr}

/-- The operand of a BARINIT, in the form of a barrier word. -/
def barArg (n : Nat) (sck : Bool) : W64 := setBits (setBits (0#64) 14 0 n) 31 31 sck.toNat

theorem barArg_exp {n : Nat} (hn : n < 2 ^ 15) (sck : Bool) : bits (barArg n sck) 14 0 = n := by
  rw [barArg, bits_setBits_other _ (by omega) (by omega), bits_setBits_same _ (by omega) (by omega)]
  exact Nat.mod_eq_of_lt hn

theorem barArg_sck (n : Nat) (sck : Bool) : (barArg n sck).getLsbD 31 = sck := by
  rw [barArg, getLsbD_setBits _ (by omega)]
  cases sck <;> rfl

/-- The one lane of an access of a barrier word. -/
def barLane (x : Nat) (data cmp : W64) : Lane := Lane.mk' 0 (BitVec.ofNat 64 x) x data cmp false

/-- The access of a BARINIT of the word at offset `x`. -/
def barinitAcc (h : Hdr) (o : BarinitOp) (x : Nat) (e : Env) : Acc :=
  { e.acc h .barinit with tag := .b64, ord := .rlx, sco := .grp, lanes := [barLane x (barArg (bits (e.sr o.b) 14 0) o.sck) 0] }

/-- The access of a BTEST of the word at offset `x`. -/
def btestAcc (h : Hdr) (o : BtestOp) (x : Nat) (e : Env) : Acc :=
  { e.acc h .btest with
    tag := .b64, ord := .acq, sco := .grp, dst := .p o.pd.toNat, args := [(e.sr o.a).zeroExtend 64], lanes := [barLane x 0 0] }

/-- The access of an ARRIVE at the word at offset `x`. -/
def arriveAcc (h : Hdr) (o : ArriveOp) (x : Nat) (e : Env) : Acc :=
  { e.acc h .arrive with
    tag := .b64, ord := .rel, sco := .grp, dst := .s o.d.toNat false
    lanes := [barLane x (BitVec.ofNat 64 (if o.cnti ≠ 0 then o.cnti.toNat else bits (e.sr o.b) 14 0))
      (e.w.sat.zeroExtend 64)] }

theorem exec_barinit (o : BarinitOp) : exec (.barinit h o) s = issue (.barinit h o) h false
    (fun s e => barChk s e h ((e.sr o.a).toNat + 8 * o.off.toNat) false)
    (fun e s => if e.w.uGuard h e.c0 then
      s.addAcc (s.ordered e.w (barinitAcc h o ((e.sr o.a).toNat + 8 * o.off.toNat) e) true false) else done1 e h s) s := rfl

theorem exec_btest (o : BtestOp) : exec (.btest h o) s = issue (.btest h o) h false
    (fun s e => barChk s e h (8 * bits (e.sr o.a) 15 0) false)
    (fun e s => if e.w.uGuard h e.c0 then
      s.addAcc (s.ordered e.w (btestAcc h o (8 * bits (e.sr o.a) 15 0) e) false false) else done1 e h s) s := rfl

/-- An ARRIVE that passes its checks adds its access and waits for the bank ALU's answer to it (R199). -/
theorem arrive_runs {o : ArriveOp} (hi : Issues s w (.arrive h o) false)
    (hg : w.uGuard h (s.cyc w.id.core) = true) (hh : s.memHold w = false) (hd : o.drn = false ∨ w.flagsZero = true)
    {x : Nat} (hx : x = (w.rs (s.cyc w.id.core) o.a.toNat).toNat + 8 * o.off.toNat) (ha : x % 8 = 0)
    (hb : x + 8 ≤ (mkEnv s w false (.arrive h o)).winSize) :
    let e := mkEnv s w false (.arrive h o)
    exec (.arrive h o) s = .next
      ((s.enterWait w e h (.arrive s.nextSeq)).addAcc ((s.enter w e h).ordered w (arriveAcc h o x e) true true)) := by
  subst hx
  have hg' : (mkEnv s w false (.arrive h o)).w.uGuard h (mkEnv s w false (.arrive h o)).c0 = true := hg
  have drained : (o.drn && !(mkEnv s w false (.arrive h o)).w.flagsZero) = false := by
    rcases hd with hd | hd
    · rw [hd, Bool.false_and]
    · rw [show (mkEnv s w false (.arrive h o)).w.flagsZero = true from hd, Bool.not_true, Bool.and_false]
  change execArrive h o s = _
  rw [execArrive, issue_ok hi (by rw [drained]; exact barChk_ok hg hh ha hb), if_pos hg']
  rfl

end

/-- Settles O24: each starts its access of the word, and an ARRIVE waits for the answer to it. -/
theorem barrierIssue : Obligations.BarrierIssue := by
  refine fun s w h i o t => ⟨fun hi ⟨hg, hh⟩ ha hb => ?barinit, fun hi ⟨hg, hh⟩ hb => ?btest,
    fun hi ⟨hg, hh⟩ hd ha hb => ?arrive⟩
  case barinit =>
    exact (starts_of_barAccess (exec_barinit i) (fun _ => ⟨rfl, rfl, rfl, rfl, rfl⟩) hi hg hh ha hb).imp
      fun y ⟨hy, hl⟩ => ⟨congrArg Acc.op hy, _, hl, rfl, barArg_exp (bits_lt _ 14 0) _, barArg_sck _ _⟩
  case btest =>
    exact (starts_of_barAccess (exec_btest t) (fun _ => ⟨rfl, rfl, rfl, rfl, rfl⟩) hi hg hh (Nat.mul_mod_right 8 _) hb).imp
      fun y ⟨hy, hl⟩ => ⟨congrArg Acc.op hy, congrArg Acc.dst hy, _, hl, rfl⟩
  case arrive =>
    let e := mkEnv s w false (.arrive h o)
    have hw : s.wave? w.id = some w := wave?_id hi.slot ▸ hi.slot
    have marks := issued_waits hw e h (.arrive s.nextSeq)
    exact ⟨_, _, _, arrive_runs hi hg hh hd rfl ha hb, marks.there, rfl,
      ⟨marks.there, marks.pc, marks.prev, marks.flags, marks.others⟩, rfl,
      enteredWait_frame w e h _, rfl, rfl, _, rfl, rfl, rfl⟩

end Sys2Proof.Machine
end

section
/-!
SUPPORT. The banks in one cycle: an access of the window whose lanes they all perform (R189, R190, R193, R299; log 21).
-/

namespace Sys2Proof.Machine

open Sys2Proof.Claims

/-! ### What the banks note -/

/-- No core changes but for the services that its banks note. -/
def BanksOnly (s t : State) : Prop := ∀ c, t.core c = { s.core c with used := (t.core c).used }

theorem banksOnly_refl (s : State) : BanksOnly s s := fun _ => rfl

theorem BanksOnly.trans {s t u : State} (h : BanksOnly s t) (h' : BanksOnly t u) : BanksOnly s u := fun c =>
  (h' c).trans (congrArg (fun x : Core => { x with used := (u.core c).used }) (h c))

/-- In a cycle in which a core's banks have served nothing, one that no TDRAIN bars is free. -/
theorem bankFree_of_idle {s : State} {core : Nat} {x : Service} (hidle : (s.core core).used.1 ≠ s.cyc core)
    (hlock : s.wordLocked x.grp (some x.acc) x.word = false) : s.bankFree core x = true := by
  simp [State.bankFree, hidle, hlock]

/-- A service leaves free the banks of the others, and its own for the threads that share it. -/
theorem bankFree_bankUse {s : State} {core : Nat} {x y : Service} (hy : s.bankFree core y = true)
    (hxy : x.word % 32 = y.word % 32 → x = y) : (s.bankUse core x).bankFree core y = true := by
  have used : ((s.bankUse core x).core core).used = (s.core core).used ∨ ((s.bankUse core x).core core).used =
      (s.cyc core, if (s.core core).used.1 = s.cyc core then x :: (s.core core).used.2 else [x]) := by
    simp only [State.bankUse, State.core, State.modCore, List.getD_eq_getElem?_getD, List.getElem?_modify]
    cases s.cores[core]? <;> simp
  have kept : (s.bankUse core x).wordLocked = s.wordLocked ∧ (s.bankUse core x).cyc = s.cyc := ⟨rfl, rfl⟩
  have own : (decide (x.word % 32 ≠ y.word % 32) || decide (x = y)) = true := by
    by_cases h : x.word % 32 = y.word % 32
    · simp [hxy h]
    · simp [h]
  rw [State.bankFree] at hy ⊢
  rw [kept.1, kept.2]
  rcases used with used | used <;> rw [used]
  · exact hy
  · by_cases hnow : (s.core core).used.1 = s.cyc core <;> simp_all

/-! ### Operations of the bank ALUs -/

/-- What every operation of a bank ALU keeps to: it reads and changes windows alone, and performs the lane. -/
structure BankOp (perf : State → Acc → Lane → Lane × State) : Prop where
  cores : ∀ s a l cs, perf { s with cores := cs } a l = ((perf s a l).1, { (perf s a l).2 with cores := cs })
  frame : ∀ s a l, (perf s a l).2 = { s with groups := (perf s a l).2.groups }
  locked : ∀ s a l, (perf s a l).2.wordLocked = s.wordLocked
  lane : ∀ s a l, (perf s a l).1.perf = true ∧ (perf s a l).1.t = l.t

/-- A number written to a group's window bars no word and frees none: the tile is as it was. -/
theorem wordLocked_wrNat (s : State) (g₀ : GroupId) (x n : Nat) (v : Group → Nat) :
    (s.modGroup g₀ fun y => y.wrNat x n (v y)).wordLocked = s.wordLocked := by
  funext g id word
  have same : ((s.modGroup g₀ fun y => y.wrNat x n (v y)).group? g).bind (·.tile) = (s.group? g).bind (·.tile) := by
    rw [group?_modGroup (f := fun y => y.wrNat x n (v y)) fun _ => rfl]
    cases s.group? g with
    | none => rfl
    | some y =>
      simp only [Option.map_some, Option.bind_some]
      split <;> rfl
  rw [State.wordLocked, State.wordLocked, same]

theorem bankOp_performSp : BankOp State.performSp where
  cores s a l cs := by
    have same : State.group? { s with cores := cs } a.grp = s.group? a.grp := rfl
    simp only [State.performSp, same]
    cases s.group? a.grp with
    | none => rfl
    | some g => dsimp only; split <;> rfl
  frame s a l := by
    unfold State.performSp
    split
    · rfl
    · dsimp only; split <;> rfl
  locked s a l := by
    unfold State.performSp
    split
    · rfl
    · dsimp only
      split
      case h_2 | h_3 | h_4 | h_5 => exact wordLocked_wrNat s ..
      case h_1 | h_6 => rfl
  lane s a l := by
    unfold State.performSp
    split
    · exact ⟨rfl, rfl⟩
    · dsimp only; split <;> exact ⟨rfl, rfl⟩

theorem bankOp_blendLane (op : BlendOp) (f16 : Bool) : BankOp (State.blendLane op f16) where
  cores _ _ _ _ := rfl
  frame _ _ _ := rfl
  locked s _ _ := wordLocked_wrNat s ..
  lane _ _ _ := ⟨rfl, rfl⟩

section
variable {perf : State → Acc → Lane → Lane × State} {a : Acc}

/-- An operation takes no bank: which are free is settled by the services noted. -/
theorem BankOp.bankFree (hop : BankOp perf) (s : State) (l : Lane) (core : Nat) (x : Service) :
    (perf s a l).2.bankFree core x = s.bankFree core x := by
  have core_ : (perf s a l).2.core = s.core := (congrArg State.core (hop.frame s a l) :)
  have cyc : (perf s a l).2.cyc = s.cyc := (congrArg State.cyc (hop.frame s a l) :)
  rw [State.bankFree, State.bankFree, hop.locked, core_, cyc]

/-! ### All the lanes of an access -/

/-- The lanes performed one after another. -/
def State.runLanes (perf : State → Acc → Lane → Lane × State) (a : Acc) (s : State) : List Lane → List Lane × State
  | [] => ([], s)
  | l :: ls => ((perf s a l).1 :: (State.runLanes perf a (perf s a l).2 ls).1, (State.runLanes perf a (perf s a l).2 ls).2)

theorem runLanes_frame (hop : BankOp perf) (s : State) (ls : List Lane) :
    (s.runLanes perf a ls).2 = { s with groups := (s.runLanes perf a ls).2.groups } := by
  induction ls generalizing s with
  | nil => rfl
  | cons l ls ih =>
    have first := congrArg (fun t : State => { t with groups := (s.runLanes perf a (l :: ls)).2.groups }) (hop.frame s a l)
    exact (ih (perf s a l).2).trans first

theorem runLanes_done (hop : BankOp perf) (s : State) (ls : List Lane) : ∀ l ∈ (s.runLanes perf a ls).1, l.perf = true := by
  induction ls generalizing s with
  | nil => exact fun l hl => absurd hl List.not_mem_nil
  | cons l ls ih => exact List.forall_mem_cons.2 ⟨(hop.lane s a l).1, ih _⟩

/-- The results that a run of lanes gives its threads, gathered on the way. -/
theorem foldl_runLanes (hop : BankOp perf) (s : State) (ls : List Lane) (rs : List (Nat × W64)) :
    ls.foldl (fun (r : List (Nat × W64) × State) l => (r.1 ++ [(l.t, (perf r.2 a l).1.res)], (perf r.2 a l).2)) (rs, s) =
      (rs ++ (s.runLanes perf a ls).1.map (fun l => (l.t, l.res)), (s.runLanes perf a ls).2) := by
  induction ls generalizing s rs with
  | nil => simp [State.runLanes]
  | cons l ls ih => simp [State.runLanes, ih, (hop.lane s a l).2]

/-- Lanes whose banks are free, none asked for two services, are performed in this cycle, one after another. -/
theorem performSpAll_run (hop : BankOp perf) (s : State) (cs : List Core) (ls : List Lane) (hnew : ∀ l ∈ ls, l.perf = false)
    (hfree : ∀ l ∈ ls, State.bankFree { s with cores := cs } a.w.core (a.service l) = true)
    (hone : ∀ l ∈ ls, ∀ k ∈ ls, (a.service l).word % 32 = (a.service k).word % 32 → a.service l = a.service k) :
    ∃ cs', State.performSpAll perf { s with cores := cs } a ls =
        ((s.runLanes perf a ls).1, { (s.runLanes perf a ls).2 with cores := cs' }) ∧
      BanksOnly { s with cores := cs } { s with cores := cs' } := by
  induction ls generalizing s cs with
  | nil => exact ⟨cs, rfl, banksOnly_refl _⟩
  | cons l ls ih =>
    obtain ⟨new, news⟩ := List.forall_mem_cons.1 hnew
    obtain ⟨free, frees⟩ := List.forall_mem_cons.1 hfree
    let used := (State.bankUse { s with cores := cs } a.w.core (a.service l)).cores
    have performed : perf (State.bankUse { s with cores := cs } a.w.core (a.service l)) a l =
        ((perf s a l).1, { (perf s a l).2 with cores := used }) := hop.cores s a l used
    have still : ∀ k ∈ ls, State.bankFree { (perf s a l).2 with cores := used } a.w.core (a.service k) = true := by
      intro k hk
      have kept := hop.bankFree (a := a) (State.bankUse { s with cores := cs } a.w.core (a.service l)) l a.w.core (a.service k)
      rw [performed] at kept
      exact kept.trans (bankFree_bankUse (frees k hk) (hone l List.mem_cons_self k (List.mem_cons_of_mem _ hk)))
    obtain ⟨cs', rest, banks⟩ := ih (perf s a l).2 used news still
      fun k hk j hj => hone k (List.mem_cons_of_mem _ hk) j (List.mem_cons_of_mem _ hj)
    refine ⟨cs', ?_, BanksOnly.trans (bankUse_core _ a.w.core (a.service l)) banks⟩
    simp only [State.performSpAll, new, free, Bool.not_true, Bool.or_self, Bool.false_eq_true, if_false, performed, rest]
    rfl

/-! ### The end of the access -/

/-- What an acquire takes out of L1 hangs on neither windows nor banks. -/
theorem acquired_congr (s : State) (a : Acc) (cs : List Core) (gs : List Group) (ls : List Lane) :
    State.acquired { s with cores := cs, groups := gs } { a with lanes := ls } =
      { s.acquired a with cores := cs, groups := gs } := by
  unfold State.acquired State.l1Acquire
  split
  · split <;> rfl
  · rfl

/-- An access whose lanes the banks can all perform in this cycle performs them one after another, and ends. -/
theorem scratchpadOp_performs {s : State} (hop : BankOp perf) (horder : s.orderOk a = true) (hturn : s.spInOrder a = true)
    (hport : s.pastPort a = true) (hidle : (s.core a.w.core).used.1 ≠ s.cyc a.w.core) (hnew : ∀ l ∈ a.lanes, l.perf = false)
    (hone : ∀ l ∈ a.lanes, ∀ k ∈ a.lanes, (a.service l).word % 32 = (a.service k).word % 32 → a.service l = a.service k)
    (hlock : ∀ l ∈ a.lanes, s.wordLocked a.grp (some a.id) (l.pa / 8) = false) :
    let run := s.runLanes perf a a.lanes
    ∃ t, scratchpadOp perf a s = .next t ∧ BanksOnly s t ∧
      t = { ended (s.acquired a) a ({ a with lanes := run.1 } : Acc).loadPuts with
        cores := t.cores, groups := run.2.groups } := by
  intro run
  obtain ⟨cs, all, banks⟩ := performSpAll_run hop s s.cores a.lanes hnew
    (fun l hl => bankFree_of_idle (x := a.service l) hidle (hlock l hl)) hone
  have all' : State.performSpAll perf s a a.lanes = (run.1, { run.2 with cores := cs }) := all
  have windows : ({ run.2 with cores := cs } : State) = { s with cores := cs, groups := run.2.groups } :=
    congrArg (fun t : State => { t with cores := cs }) (runLanes_frame hop s a.lanes)
  have performed : ({ a with lanes := run.1 } : Acc).performed = true := List.all_eq_true.2 (runLanes_done hop s a.lanes)
  refine ⟨{ ended (s.acquired a) a ({ a with lanes := run.1 } : Acc).loadPuts with cores := cs, groups := run.2.groups },
    ?_, banks, rfl⟩
  simp only [scratchpadOp, horder, hturn, hport, all', performed, windows, acquired_congr, Bool.and_self, if_true]
  rfl

end

end Sys2Proof.Machine
end

section
/-! Scratchpad accesses, at their issue and at their banks: the statement about them, and its proof. -/

namespace Sys2Proof.Machine

open Sys2Proof.Claims

/-! ### At their issue -/

section
variable {s : State} {w : Wave} {h : Hdr}

/-- The threads, offsets and data of lanes that an issue makes. -/
theorem operands_mk' {ts : List Nat} {off : Nat → Nat} {va data cmp : Nat × Nat → W64} :
    (((ts.map fun t => (t, off t)).map fun x => Lane.mk' x.1 (va x) x.2 (data x) (cmp x) false).map
      fun l => (l.t, l.pa, l.data)) = ts.map fun t => (t, off t, data (t, off t)) := by
  simp [Lane.mk', Function.comp_def]

/-- ATOMS and REDS that pass their checks start an access with the operands of their threads (R194). -/
theorem spAtomic_starts_checked {i : Instr} {o : SpAtom} {op : AccOp} {dst : AccDst} {rd : Bool}
    (hx : exec i s = spAtomic i h o op dst rd s) (hi : Issues s w i false)
    (hc : spChk s (mkEnv s w false i) rd true (sizeOf' o.tag)
      ((bitsOf (w.active h (mkEnv s w false i).c0)).map fun t => (t, atomOffset o (mkEnv s w false i) t)) = .ok) :
    Starts s w i h false fun e a => a.op = op ∧ a.tag = o.tag ∧ a.ord = o.ord ∧ a.dst = dst ∧
      a.lanes.map (fun l => (l.t, l.pa, l.data)) =
        (bitsOf (w.active h e.c0)).map fun t => (t, atomOffset o e t, e.src 1 o.tag.wide (.vec o.b) t) :=
  (starts_of_startSp (off := atomOffset o) hx (fun _ => ⟨rfl, rfl, rfl, rfl, rfl⟩) hi hc).imp fun _ ⟨hy, hl⟩ =>
    ⟨congrArg Acc.op hy, congrArg Acc.tag hy, congrArg Acc.ord hy, congrArg Acc.dst hy,
      (congrArg (List.map _) hl).trans operands_mk'⟩

end

/-! ### At their banks -/

section
variable {s : State} {id : Nat} {a : Acc}

/-- An access that may complete does so whatever kinds are asked for besides its own. -/
theorem ripe_kind {k k' : AccOp → Bool} (hr : s.ripe id k = some a) (hk : k' a.op = true) : s.ripe id k' = some a := by
  obtain ⟨ha, -, hready, hredo, him, hports⟩ := ripe_some hr
  exact ripe_of ha hready hredo him hports hk

theorem scratchpadOpPerformed_window {k : AccOp → Bool} (hr : s.ripe id k = some a)
    (hop : a.op = .spLoad ∨ a.op = .spStore ∨ a.op = .barinit ∨ ∃ op, a.op = .spAtom op ∨ a.op = .spRed op) :
    exec (.scratchpadOpPerformed id) s = scratchpadOp State.performSp a s := by
  change execScratchpadOpPerformed id s = _
  rcases hop with hop | hop | hop | ⟨op, hop | hop⟩ <;>
    rw [execScratchpadOpPerformed, ripe_kind hr (by rw [hop])] <;> simp only [hop]

theorem scratchpadOpPerformed_blend {k : AccOp → Bool} {op : BlendOp} {f16 : Bool} (hr : s.ripe id k = some a)
    (hop : a.op = .blend op f16) :
    exec (.scratchpadOpPerformed id) s = scratchpadOp (State.blendLane op f16) a s := by
  change execScratchpadOpPerformed id s = _
  rw [execScratchpadOpPerformed, ripe_kind hr (by rw [hop])]
  simp only [hop]

/-- A run of loads takes what the window holds, and changes nothing. -/
theorem runLanes_load {g : Group} (hg : s.group? a.grp = some g) (hop : a.op = .spLoad) (ls : List Lane) :
    s.runLanes State.performSp a ls =
      (ls.map fun l => { l with perf := true, res := extend a.tag (g.rdNat l.pa (sizeOf' a.tag)) }, s) := by
  induction ls with
  | nil => rfl
  | cons l ls ih => simp only [State.runLanes, performSp_load hg hop, ih, List.map_cons]

theorem acquired_groups (s : State) (a : Acc) : (s.acquired a).groups = s.groups := by
  unfold State.acquired State.l1Acquire
  split
  · split <;> rfl
  · rfl

end

/-- Settles O23: what each starts, by how a scratchpad access starts; and what each leaves, by how the banks perform all the
lanes of one in a cycle. -/
theorem scratchpad : Obligations.Scratchpad := by
  refine ⟨fun s w h o b => ⟨fun ⟨hi, hc⟩ => ?lds, fun ⟨hi, hc⟩ => ?sts,
    fun ⟨hi, hc⟩ => spAtomic_starts_checked (show exec (.atoms h b) s = execAtoms h b s from rfl) hi hc,
    fun ⟨hi, hc⟩ => spAtomic_starts_checked (show exec (.reds h b) s = execReds h b s from rfl) hi hc⟩,
    fun s id a horder hturn hport hidle hnew hone hlock => ?banks⟩
  case lds =>
    exact (starts_of_startSp (off := memOffset o) (show exec (.lds h o) s = execLds h o s from rfl)
      (fun _ => ⟨rfl, rfl, rfl, rfl, rfl⟩) hi hc).imp fun _ ⟨hy, hl⟩ =>
        ⟨congrArg Acc.op hy, congrArg Acc.tag hy, congrArg Acc.ord hy, congrArg Acc.dst hy,
          (congrArg (List.map _) hl).trans lanes_mk'⟩
  case sts =>
    exact (starts_of_startSp (off := memOffset o) (show exec (.sts h o) s = execSts h o s from rfl)
      (fun _ => ⟨rfl, rfl, rfl, rfl, rfl⟩) hi hc).imp fun _ ⟨hy, hl⟩ =>
        ⟨congrArg Acc.op hy, congrArg Acc.tag hy, congrArg Acc.ord hy, congrArg Acc.dst hy,
          (congrArg (List.map _) hl).trans operands_mk'⟩
  case banks =>
    intro banksOnly performs
    have ends {perf : State → Acc → Lane → Lane × State} (hop : BankOp perf) :=
      scratchpadOp_performs hop horder hturn hport hidle hnew hone hlock
    refine ⟨fun g r wide hr hg hd => ?load, fun hd => ?window⟩
    case load =>
      have hop : a.op = .spLoad := by
        obtain ⟨-, hk, -⟩ := ripe_some hr
        simpa using hk
      obtain ⟨t, hx, hb, ht⟩ := ends bankOp_performSp
      refine ⟨t, (scratchpadOpPerformed_window hr (.inl hop)).trans hx, hb, ht.trans ?_⟩
      have puts : ({ a with lanes := (s.runLanes State.performSp a a.lanes).1 } : Acc).loadPuts =
          putV wide r (a.lanes.map fun l => (l.t, extend a.tag (g.rdNat l.pa (sizeOf' a.tag)))) := by
        simp [Acc.loadPuts, hd, runLanes_load hg hop, Function.comp_def]
      rw [puts, runLanes_load hg hop, ← acquired_groups s a]
      rfl
    case window =>
      have done {i : Instr} {perf : State → Acc → Lane → Lane × State} (hop : BankOp perf)
          (hi : exec i s = scratchpadOp perf a s) : performs i perf := by
        obtain ⟨t, hx, hb, ht⟩ := ends hop
        refine ⟨t, hi.trans hx, hb, ht.trans ?_⟩
        dsimp only
        rw [foldl_runLanes hop]
        cases hdst : a.dst with
        | s r wide => exact absurd hdst (hd r wide)
        | none | v r wide | p n | q n wide => simp only [Acc.loadPuts, List.nil_append]
      exact ⟨fun ⟨k, hr⟩ hop => done bankOp_performSp (scratchpadOpPerformed_window hr (.inr hop)),
        fun op f ⟨k, hr⟩ hop => done (bankOp_blendLane op f) (scratchpadOpPerformed_blend hr hop)⟩

end Sys2Proof.Machine
end

section
/-!
SUPPORT. Returns from handlers: what a TRAPRET and a FAULTRET answer, and how they change their wave (R215, R227).
-/

namespace Sys2Proof.Machine

open Sys2Proof.Claims

variable {s : State} {w : Wave} {h : Hdr} {i : Instr}

/-- The instruction answers what its own check makes of the state. -/
theorem issue_judges {u : Bool} {chk : State → Env → Chk} {eff : Env → State → State} (hi : Issues s w i u) :
    issue i h u chk eff s =
      .next (s.judge w i (chk s (mkEnv s w u i)) fun s => eff (mkEnv s w u i) (s.enter w (mkEnv s w u i) h)) := by
  obtain ⟨slot, live, fits, ports, data, handles, owner, poison⟩ := hi
  have passed (c : Chk) : ownerChk (mkEnv s w u i) u c = c := by
    rcases owner with hu | hu <;> simp [ownerChk, hu]
  simp only [issue, slot, live, fits, ports, data, handles, poison, passed]
  rfl

/-! ### The check of a return -/

/-- The check of a return from a handler of kind `k` whose guard is true: it waits for the flags, and belongs in that handler. -/
def returnChk (k : HandlerKind) (i : Instr) (h : Hdr) (e : Env) : Chk :=
  if !e.w.uGuard h e.c0 then .ok
  else if !e.w.flagsZero then .hold
  else if e.w.handler ≠ k then .trap 0 (wordVal i)
  else .ok

section
variable {k : HandlerKind} {eff : Env → State → State}
  (hx : exec i s = issue i h true (fun _ e => returnChk k i h e) eff s) (hi : Issues s w i true)
include hx hi

theorem return_inside (hf : w.flagsZero = true) (hh : w.handler = k) :
    exec i s = .next (eff (mkEnv s w true i) (s.enter w (mkEnv s w true i) h)) := by
  have hf' : (mkEnv s w true i).w.flagsZero = true := hf
  have hh' : (mkEnv s w true i).w.handler = k := hh
  exact hx.trans (issue_ok hi (by simp [returnChk, hf', hh']))

variable (hu : w.uGuard h (s.cyc w.id.core) = true)
include hu

theorem return_waits (hf : w.flagsZero = false) : exec i s = .next s := by
  have hu' : (mkEnv s w true i).w.uGuard h (mkEnv s w true i).c0 = true := hu
  have hf' : (mkEnv s w true i).w.flagsZero = false := hf
  exact hx.trans (issue_held hi (by simp [returnChk, hu', hf']))

theorem return_outside (hf : w.flagsZero = true) (hh : w.handler ≠ k) :
    exec i s = .next (s.trapAt w 0 w.pc (wordVal i)) := by
  have hu' : (mkEnv s w true i).w.uGuard h (mkEnv s w true i).c0 = true := hu
  have hf' : (mkEnv s w true i).w.flagsZero = true := hf
  have hh' : (mkEnv s w true i).w.handler ≠ k := hh
  exact hx.trans (issue_traps hi (by simp [returnChk, hu', hf', hh']) (by decide))

end

/-! ### The wave that returns -/

/-- The instruction issues and leaves its wave as `x`, but for the marks of the issue; no other wave changes. -/
def GoesBack (s : State) (w : Wave) (h : Hdr) (i : Instr) (x : Wave) : Prop :=
  ∃ t w', exec i s = .next t ∧ t.wave? w.id = some w' ∧ waveFrame x w' ∧ w'.pc = x.pc ∧ w'.reissue = x.reissue ∧
    w'.pend = w.pend ++ countdown h (s.cyc w.id.core + 1) ∧ (∀ k, k ≠ w.id → t.wave? k = s.wave? k) ∧ recordFrame s t

/-- `f` takes a wave that has issued to `x`, but for the marks of the issue, and leaves what is on its way to it. -/
structure ReturnsTo (w x : Wave) (f : Wave → Wave) : Prop where
  id : ∀ u, (f u).id = u.id
  pend : ∀ u, (f u).pend = u.pend
  frame : ∀ u, waveFrame w u → waveFrame x (f u)
  pc : ∀ u, waveFrame w u → (f u).pc = x.pc
  reissue : ∀ u, u.reissue = none → (f u).reissue = x.reissue

theorem goesBack_of_effect {f : Wave → Wave} {x : Wave} {ps : List TrPkt} (hf : ReturnsTo w x f)
    (hw : s.wave? w.id = some w) (hx : exec i s = .next (((done1 (mkEnv s w true i) h
      (s.enter w (mkEnv s w true i) h)).modWave w.id f).trace w ps)) : GoesBack s w h i x := by
  let e := mkEnv s w true i
  have marks := sent_issued (e := e) (h := h) (lat := 1) (ps := []) rfl hw
  have frame := sent_waveFrame w e h 1 []
  have pend : (w.sent e h 1 []).pend = w.pend ++ countdown h (s.cyc w.id.core + 1) :=
    (sent_pend w e h 1 []).trans (congrArg (· ++ countdown h (e.c + 1)) (List.append_nil _))
  have anew : (w.sent e h 1 []).reissue = none := by rw [sent_frame, entered_frame]
  refine ⟨_, f (w.sent e h 1 []), hx, ?_, hf.frame _ frame, hf.pc _ frame, hf.reissue _ anew, (hf.pend _).trans pend,
    fun k hk => ?_, ?_⟩
  · exact (wave?_trace ..).trans (wave?_modWave_same hf.id marks.there)
  · exact (wave?_trace ..).trans ((wave?_modWave_other hf.id hk).trans (marks.others k hk))
  · exact recordFrame_trans (t := (done1 e h (s.enter w e h)).modWave w.id f) rfl (recordFrame_trace ..)

theorem trapReturn_returnsTo (w : Wave) : ReturnsTo w { w.trapReturn with reissue := none } Wave.trapReturn where
  id := fun _ => rfl
  pend := fun _ => rfl
  frame := fun u hu => by
    unfold waveFrame at hu ⊢
    rw [hu]
    rfl
  pc := fun u hu => by
    unfold waveFrame at hu
    rw [hu]
    rfl
  reissue := fun _ hr => hr

theorem faultReturn_returnsTo (w : Wave) (f : FaultSave) (m : Option (Option (W64 × Sparse 64 × W64))) :
    ReturnsTo w (w.faultReturn f m) fun u => u.faultReturn f m where
  id := fun _ => rfl
  pend := fun _ => rfl
  frame := fun u hu => by
    unfold waveFrame at hu ⊢
    rw [hu]
    rfl
  pc := fun _ _ => rfl
  reissue := fun _ _ => rfl

/-! ### TRAPRET -/

theorem stopGroup_ends {g : Group} (hg : s.group? w.grp = some g) : GroupEnds s (s.stopGroup w.grp) w.grp g := by
  obtain ⟨last, hw, hgs⟩ := stopGroup_eq hg
  exact ⟨hw, ⟨last, hgs⟩, hg⟩

/-- What a TRAPRET does in the handler of its trap. -/
def trapretEff (h : Hdr) (e : Env) (s : State) : State :=
  if !e.w.uGuard h e.c0 then (done1 e h s).trace e.w [.pc (e.w.pc + 12), .mask e.w.exec]
  else if e.w.tr.cause = 13 then s.stopGroup e.w.grp
  else ((done1 e h s).modWave e.w.id Wave.trapReturn).trace e.w [.pc e.w.tr.tepc, .mask (e.w.tr.texec &&& e.w.present)]

theorem exec_trapret (h : Hdr) (s : State) : exec (.trapret h) s =
    issue (.trapret h) h true (fun _ e => returnChk .trap (.trapret h) h e) (trapretEff h) s := rfl

section
variable (hi : Issues s w (.trapret h) true) (hu : w.uGuard h (s.cyc w.id.core) = true) (hf : w.flagsZero = true)
  (hh : w.handler = .trap)
include hi hu hf hh

theorem trapret_returns (hc : w.tr.cause ≠ 13) :
    GoesBack s w h (.trapret h) { w.trapReturn with reissue := none } := by
  have hu' : (mkEnv s w true (.trapret h)).w.uGuard h (mkEnv s w true (.trapret h)).c0 = true := hu
  have hc' : (mkEnv s w true (.trapret h)).w.tr.cause ≠ 13 := hc
  refine goesBack_of_effect (ps := [.pc w.tr.tepc, .mask (w.tr.texec &&& w.present)]) (trapReturn_returnsTo w)
    (wave?_id hi.slot ▸ hi.slot) ((return_inside (exec_trapret h s) hi hf hh).trans ?_)
  simp only [trapretEff, hu', hc', Bool.not_true, Bool.false_eq_true, if_false]
  rfl

/-- After the report of a failed access the group ends (R401). -/
theorem trapret_kills {g : Group} (hc : w.tr.cause = 13) (hg : s.group? w.grp = some g) :
    ∃ t, exec (.trapret h) s = .next t ∧ (∀ k x, t.wave? k = some x → x.grp = w.grp → x.life = .exited) ∧
      (∀ k x, s.wave? k = some x → x.grp ≠ w.grp → t.wave? k = some x) := by
  have hu' : (mkEnv s w true (.trapret h)).w.uGuard h (mkEnv s w true (.trapret h)).c0 = true := hu
  have hc' : (mkEnv s w true (.trapret h)).w.tr.cause = 13 := hc
  have hw : s.wave? w.id = some w := wave?_id hi.slot ▸ hi.slot
  have ends := stopGroup_ends (s := s.enter w (mkEnv s w true (.trapret h)) h) hg
  refine ⟨(s.enter w (mkEnv s w true (.trapret h)) h).stopGroup w.grp,
    (return_inside (exec_trapret h s) hi hf hh).trans ?_, fun k x hx hgr => ends.exited hx hgr, fun k x hx hgr => ?_⟩
  · simp only [trapretEff, hu', hc', Bool.not_true, Bool.false_eq_true, if_false, if_true]
    rfl
  · have other : k ≠ w.id := by
      rintro rfl
      exact hgr (congrArg Wave.grp (Option.some.inj (hx.symm.trans hw)))
    exact ends.others ((enter_other other).trans hx) hgr

end

/-! ### FAULTRET -/

/-- A return from a fault handler, to be issued again as `r` says. -/
def FaultReturns (s : State) (w : Wave) (h : Hdr) (i : Instr) (r : FaultSave → Option Reissue) : Prop :=
  Issues s w i true →
    (w.flagsZero = false → exec i s = .next s) ∧
    (w.flagsZero = true → w.handler ≠ .fault → exec i s = .next (s.trapAt w 0 w.pc (wordVal i))) ∧
    (∀ f, w.flagsZero = true → w.handler = .fault → w.fsave = some f → GoesBack s w h i { w with
      exec := f.exec &&& w.present, pc := f.pc, handler := .none, fsave := none, reissue := r f })

theorem faultReturns_of_faultret {mode : Env → FaultSave → Option (Option (W64 × Sparse 64 × W64))}
    {r : FaultSave → Option Reissue} (hx : exec i s = faultret i h mode s)
    (hu : w.uGuard h (s.cyc w.id.core) = true)
    (hm : ∀ f, (mode (mkEnv s w true i) f).map (fun m => ⟨f.i, m⟩) = r f) : FaultReturns s w h i r := by
  intro hi
  refine ⟨fun hf => return_waits (k := .fault) hx hi hu hf, fun hf hh => return_outside (k := .fault) hx hi hu hf hh,
    fun f hf hh hs => ?_⟩
  have hs' : (mkEnv s w true i).w.fsave = some f := hs
  have hu' : (mkEnv s w true i).w.uGuard h (mkEnv s w true i).c0 = true := hu
  have run := return_inside (k := .fault) hx hi hf hh
  simp only [hs', hu', if_true] at run
  rw [← hm f]
  exact goesBack_of_effect (faultReturn_returnsTo w f _) (wave?_id hi.slot ▸ hi.slot) run

end Sys2Proof.Machine
end

section
/-! Returns from handlers: the statement about them, and its proof. -/

namespace Sys2Proof.Machine

open Sys2Proof.Claims

/-- Settles O41: the check of each return, and the change of its wave; TRAPRET of cause 13 ends the group. -/
theorem handlerReturns : Obligations.HandlerReturns := by
  intro s w h a hu back outside
  refine ⟨fun hi => ⟨?waits, ?outside, ?returns, ?kills⟩, ?faultret⟩
  case waits => exact return_waits (exec_trapret h s) hi hu
  case outside => exact return_outside (exec_trapret h s) hi hu
  case returns => exact trapret_returns hi hu
  case kills => exact fun g hf hh hc hg => trapret_kills hi hu hf hh hc hg
  case faultret =>
    intro ret
    exact ⟨faultReturns_of_faultret (show exec (.faultretRetry h) s = execFaultretRetry h s from rfl) hu fun _ => rfl,
      faultReturns_of_faultret (show exec (.faultretSkip h) s = execFaultretSkip h s from rfl) hu fun _ => rfl,
      faultReturns_of_faultret (show exec (.faultretEmul h a) s = execFaultretEmul h a s from rfl) hu fun _ => rfl⟩

end Sys2Proof.Machine
end

section
/-!
SUPPORT. Traps after an instruction, single steps, and what a wave takes at its boundary (R214, R408, R409, R413).
-/

namespace Sys2Proof.Machine

open Sys2Proof.Claims

variable {s : State} {w : Wave} {h : Hdr} {i : Instr}

/-! ### TRAP and DBGBRK at their issue -/

/-- A cause that the instruction raises by itself is a trap at issue, with the next instruction as return PC. -/
theorem issue_trapsNext {u : Bool} {chk : State → Env → Chk} {eff : Env → State → State} {k : Nat} {tv : W64}
    (hi : Issues s w i u) (hc : chk s (mkEnv s w u i) = .trapNext k tv) :
    issue i h u chk eff s = .next (s.trapAt w k (w.pc + 12) tv) := by
  rw [issue_judges hi, hc]
  rfl

section
variable {imm : W32} (hi : Issues s w (.trap h imm) true)
include hi

theorem trap_traps (hg : w.uGuard h (s.cyc w.id.core) = true) :
    exec (.trap h imm) s = .next (s.trapAt w 16 (w.pc + 12) (imm.zeroExtend 64)) :=
  (show exec (.trap h imm) s = execTrap h imm s from rfl).trans (issue_trapsNext hi (if_pos hg))

theorem trap_passes (hg : w.uGuard h (s.cyc w.id.core) = false) : Sends s w (.trap h imm) h true 1 fun _ => [] :=
  sends_of_fixed (show exec (.trap h imm) s = execTrap h imm s from rfl) hi (if_neg (Bool.eq_false_iff.1 hg)) rfl

end

/-- A DBGBRK acts where its guard is true, outside a handler (R408). -/
def breaks (h : Hdr) (e : Env) : Bool := e.w.uGuard h e.c0 && e.w.handler = .none

/-- The stop of a DBGBRK is due first at the next boundary. -/
def breakDue (code : BitVec 16) (w : Wave) : Wave := { w with due := ⟨11, code.zeroExtend 64, some 0, 0⟩ :: w.due }

section
variable {code : BitVec 16}

theorem exec_dbgbrk (h : Hdr) (code : BitVec 16) (s : State) : exec (.dbgbrk h code) s =
    issue (.dbgbrk h code) h true
      (fun s e => if breaks h e && !(s.part e.w.grp.part).dbgctl.getLsbD 1 then .trapNext 11 (code.zeroExtend 64) else .ok)
      (fun e s => if breaks h e then (done1 e h s).modWave e.w.id (breakDue code) else done1 e h s) s := rfl

variable (hi : Issues s w (.dbgbrk h code) true)
include hi

theorem dbgbrk_passes (hb : breaks h (mkEnv s w true (.dbgbrk h code)) = false) :
    Sends s w (.dbgbrk h code) h true 1 fun _ => [] :=
  sends_of_fixed (exec_dbgbrk h code s) hi (by simp [hb]) (by simp only [hb, Bool.false_eq_true, if_false]; rfl)

variable (hb : breaks h (mkEnv s w true (.dbgbrk h code)) = true)
include hb

theorem dbgbrk_traps (hd : (s.part w.grp.part).dbgctl.getLsbD 1 = false) :
    exec (.dbgbrk h code) s = .next (s.trapAt w 11 (w.pc + 12) (code.zeroExtend 64)) := by
  have hd' : (s.part (mkEnv s w true (.dbgbrk h code)).w.grp.part).dbgctl.getLsbD 1 = false := hd
  exact (exec_dbgbrk h code s).trans (issue_trapsNext hi (by rw [hb, hd']; rfl))

/-- With BRKSTOP the instruction issues, and leaves its stop for the boundary. -/
theorem dbgbrk_stops (hd : (s.part w.grp.part).dbgctl.getLsbD 1 = true) : ∃ t w', exec (.dbgbrk h code) s = .next t ∧
    issued s w (envOf s w (.dbgbrk h code) true) h t w' ∧ waveFrame w w' ∧
    w'.due.head? = some ⟨11, code.zeroExtend 64, some 0, 0⟩ ∧ t.mem = s.mem := by
  let e := mkEnv s w true (.dbgbrk h code)
  have hd' : (s.part e.w.grp.part).dbgctl.getLsbD 1 = true := hd
  have run : exec (.dbgbrk h code) s = .next ((done1 e h (s.enter w e h)).modWave w.id (breakDue code)) := by
    rw [exec_dbgbrk, issue_ok hi (by rw [hb, hd']; rfl), if_pos hb]
    rfl
  have marks := sent_issued (e := e) (h := h) (lat := 1) (ps := []) rfl (wave?_id hi.slot ▸ hi.slot)
  exact ⟨_, _, run, issued_modWave marks (fun _ => rfl) rfl rfl rfl, congrArg (breakDue code) (sent_waveFrame w e h 1 []),
    rfl, rfl⟩

end

/-! ### Single steps -/

/-- The event of a single step: a stop under SS.STOP, and a trap without. -/
def Wave.stepEvent (w : Wave) : Due := ⟨11, 0x100000000, if w.dbg.getLsbD 1 then some 1 else none, 0⟩

theorem stepEvent_step (w : Wave) : w.stepEvent.step = true := by
  cases hs : w.dbg.getLsbD 1 <;> simp [Wave.stepEvent, Due.step, hs]

theorem stepEvent_stop (w : Wave) : w.stepEvent.stop ≠ some 0 := by
  cases hs : w.dbg.getLsbD 1 <;> simp [Wave.stepEvent, hs]

/-- The issue of a wave that runs under SS leaves its step due, outside a handler (R413). -/
theorem stepDue_due (hd : w.dstate = .run) :
    w.stepDue.due = w.due ++ if w.handler = .none ∧ w.dbg.getLsbD 0 = true then [w.stepEvent] else [] := by
  by_cases hh : w.handler = .none
  · simp [Wave.stepDue, Wave.stepEvent, hh, hd]
  · simp [Wave.stepDue, hh]

theorem issued_due (w : Wave) (e : Env) (h : Hdr) : (w.issued e h).due = w.due := by
  unfold Wave.issued Wave.incSf
  split <;> rfl

theorem nop_steps {u : Bool} (hi : Issues s w (.nop h u) u) (hd : w.dstate = .run) :
    ∃ t w', exec (.nop h u) s = .next t ∧ t.wave? w.id = some w' ∧
      w'.due = w.due ++ if w.handler = .none ∧ w.dbg.getLsbD 0 = true then [w.stepEvent] else [] := by
  let e := mkEnv s w u (.nop h u)
  have marks := sent_issued (e := e) (h := h) (lat := 1) (ps := []) rfl (wave?_id hi.slot ▸ hi.slot)
  refine ⟨_, _, (show exec (.nop h u) s = execNop h u s from rfl).trans (issue_ok hi rfl), marks.there, ?_⟩
  rw [sent_frame]
  exact (issued_due w.stepDue e h).trans (stepDue_due hd)

/-! ### What a boundary takes -/

/-- What a wave takes at its boundary, of all that is due: no step where another trap or the stop of a DBGBRK is due (R408). -/
def Wave.events (w : Wave) : List Due :=
  if w.due.any fun d => d.stop = some 0 || (d.stop.isNone && !d.step) then w.due.filter fun d => !d.step else w.due

/-- A step alone is taken. -/
theorem events_step (h : w.due = [w.stepEvent]) : w.events = [w.stepEvent] := by
  simp [Wave.events, h, stepEvent_step, stepEvent_stop]

/-- Beside a trap of another cause it is not. -/
theorem events_trap {d : Due} (hs : d.stop = none) (hd : d.step = false)
    (h : w.due = [d, w.stepEvent] ∨ w.due = [w.stepEvent, d] ∨ w.due = [d]) : w.events = [d] := by
  rcases h with h | h | h <;> simp [Wave.events, h, hs, hd, stepEvent_step]

section
variable {d : Due} (hx : w.xvi = none) (he : w.events = [d])
include hx he

theorem takeDue_trap (hs : d.stop = none) : s.takeDue w =
    let t := (s.modWave w.id fun _ => w).trapEntryOf w (w.dueSrc d) d.cause w.pc d.tval
    if d.cause = 10 then t.modWave w.id fun w => { w with arm := w.arm &&& ~~~(d.tval.truncate 8) } else t := by
  have there : w.atPath = w := by rw [Wave.atPath, hx]
  unfold Wave.events at he
  simp only [State.takeDue, there, he]
  simp [hs, argMax]

theorem takeDue_stop {k : Nat} (hs : d.stop = some k) : s.takeDue w = (s.modWave w.id fun _ => w).dbgStop w d k := by
  have there : w.atPath = w := by rw [Wave.atPath, hx]
  unfold Wave.events at he
  simp only [State.takeDue, there, he]
  simp [hs, argMax]

end

theorem dbgStop_wave {t : State} (hw : t.wave? w.id = some w) (d : Due) (k : Nat) :
    (t.dbgStop w d k).wave? w.id = some { w with dstate := .stopped k, due := [] } :=
  wave?_modWave_same (s := t.dsPost w d k) (f := fun x => { x with dstate := .stopped k, due := [] }) (fun _ => rfl)
    (((keepsWaves_dsPost t w d k).wave? w.id).trans hw)

/-- A trap at the boundary, outside a handler with a usable TVEC, brings its wave there (R106, R210). -/
theorem trapEntryOf_wave {t : State} (hw : t.wave? w.id = some w) (hk : t.trapKill w = none) (src : TrSrc) (cause : Nat)
    (ret tval : W64) : (t.trapEntryOf w src cause ret tval).wave? w.id =
      some (w.trapped cause ret tval (t.part w.grp.part).tvec) := by
  simp only [State.trapEntryOf, hk]
  rw [traceFrom_eq]
  exact wave?_modWave_same (s := t.fbLeave (.wave w.uid w.id))
    (f := fun x => x.trapped cause ret tval (t.part w.grp.part).tvec) (fun _ => rfl) hw

/-- The wave is in its trap handler at TVEC, for the event `d` at the instruction that it would issue. -/
structure Trapped (s : State) (w : Wave) (d : Due) (w' : Wave) : Prop where
  cause : w'.tr.cause = d.cause
  tepc : w'.tr.tepc = w.pc
  tval : w'.tr.tval = d.tval
  pc : w'.pc = (s.part w.grp.part).tvec
  handler : w'.handler = .trap
  due : w'.due = []
  dstate : w'.dstate = w.dstate

section
variable {d : Due} (hw : s.wave? w.id = some w) (hx : w.xvi = none) (he : w.events = [d])
include hw hx he

theorem takeDue_traps (hh : w.handler = .none) (hv : tvecOk (s.part w.grp.part).tvec = true) (hs : d.stop = none) :
    ∃ w', (s.takeDue w).wave? w.id = some w' ∧ Trapped s w d w' := by
  have entered := trapEntryOf_wave (wave?_put_same rfl hw)
    (trapKill_none (s := s.modWave w.id fun _ => w) hh hv) (w.dueSrc d) d.cause w.pc d.tval
  rw [takeDue_trap hx he hs]
  by_cases h10 : d.cause = 10
  · exact ⟨_, (congrArg (State.wave? · w.id) (if_pos h10)).trans (wave?_modWave_same (fun _ => rfl) entered),
      rfl, rfl, rfl, rfl, rfl, rfl, rfl⟩
  · exact ⟨_, (congrArg (State.wave? · w.id) (if_neg h10)).trans entered, rfl, rfl, rfl, rfl, rfl, rfl, rfl⟩

theorem takeDue_stops {k : Nat} (hs : d.stop = some k) :
    (s.takeDue w).wave? w.id = some { w with dstate := .stopped k, due := [] } := by
  rw [takeDue_stop hx he hs]
  exact dbgStop_wave (wave?_put_same rfl hw) d k

end

end Sys2Proof.Machine
end

section
/-!
SUPPORT. Watchpoints: which of them an access meets, and what a load that meets one does (R408, R415–R417).
-/

namespace Sys2Proof.Machine

open Sys2Proof.Claims

/-! ### TVAL of a watchpoint -/

/-- TVAL of cause 12: the address, the watchpoint, and whether the access is one of the scratchpad (R408). -/
def watchTval (x k sp : Nat) : W64 := setBits (setBits (setBits (0#64) 50 0 x) 53 51 k) 54 54 sp

theorem watchTval_fields {x k sp : Nat} (hx : x < 2 ^ 51) (hk : k < 8) (hs : sp < 2) :
    bits (watchTval x k sp) 50 0 = x ∧ bits (watchTval x k sp) 53 51 = k ∧ bits (watchTval x k sp) 63 54 = sp := by
  have value : (watchTval x k sp).toNat = sp * 2 ^ 54 + k * 2 ^ 51 + x := by
    simp only [watchTval, setBits, BitVec.toNat_ofNat]
    omega
  simp only [bits, value]
  omega

/-! ### The watchpoints of a partition, in order -/

/-- The watchpoints of a wave's partition with their numbers. -/
def State.watches (s : State) (w : Wave) : List (Nat × Watch) := (List.range 8).zip (s.part w.grp.part).wps

section
variable {s : State} {w : Wave} {k : Nat} {p : Watch}

theorem mem_watches : (k, p) ∈ s.watches w ↔ k < 8 ∧ (s.part w.grp.part).wps[k]? = some p := by
  simp only [State.watches, List.mem_iff_getElem?, List.getElem?_zip_eq_some]
  grind

theorem watches_ascend (s : State) (w : Wave) : (s.watches w).Pairwise fun a b => a.1 < b.1 := by
  simp only [State.watches, List.pairwise_iff_getElem, List.getElem_zip, List.getElem_range]
  exact fun _ _ _ _ h => h

/-- The lowest watchpoint of a kind is the first of them. -/
theorem watches_filter {hit : Nat × Watch → Bool} (hp : (k, p) ∈ s.watches w) (hh : hit (k, p) = true)
    (hlow : ∀ j q, j < k → (j, q) ∈ s.watches w → hit (j, q) = false) :
    ∃ rest, (s.watches w).filter hit = (k, p) :: rest ∧ ∀ y ∈ rest, k < y.1 := by
  have there : (k, p) ∈ (s.watches w).filter hit := List.mem_filter.2 ⟨hp, hh⟩
  have ascend := (watches_ascend s w).filter hit
  cases hl : (s.watches w).filter hit with
  | nil => simp [hl] at there
  | cons y rest =>
    rw [hl] at there ascend
    have first (z : Nat × Watch) (hz : z ∈ rest) : y.1 < z.1 := List.rel_of_pairwise_cons ascend hz
    rcases List.mem_cons.1 there with rfl | later
    · exact ⟨rest, rfl, first⟩
    · obtain ⟨hy, hit_y⟩ := List.mem_filter.1 (hl ▸ List.mem_cons_self : y ∈ (s.watches w).filter hit)
      exact absurd (hlow y.1 y.2 (first _ later) hy) (by simp [hit_y])

end

/-! ### The watchpoints that a load meets -/

/-- The load meets watchpoint `k`, which is `p`, at the address of an access. -/
def LoadMeets (s : State) (w : Wave) (size k : Nat) (p : Watch) (x : Nat × W64) : Prop :=
  k < 8 ∧ (s.part w.grp.part).wps[k]? = some p ∧ p.hits w.grp.lid true false false size x.2 = true

/-- Of the watchpoints that a load's accesses meet `k` is the lowest, and of the accesses that meet one `x` is the first. -/
structure FirstMet (s : State) (w : Wave) (size : Nat) (xs : List (Nat × W64)) (k n : Nat) (p : Watch) (x : Nat × W64) :
    Prop where
  met : ∃ y ∈ xs, LoadMeets s w size k p y
  lowest : ∀ j q, j < k → ∀ y ∈ xs, ¬ LoadMeets s w size j q y
  at_ : xs[n]? = some x
  meets : ∃ j q, LoadMeets s w size j q x
  first : ∀ m y, m < n → xs[m]? = some y → ∀ j q, ¬ LoadMeets s w size j q y

section
variable {s : State} {w : Wave} {size k n : Nat} {p : Watch} {xs : List (Nat × W64)} {x : Nat × W64}

theorem loadMeets_iff : LoadMeets s w size k p x ↔
    (k, p) ∈ s.watches w ∧ p.hits w.grp.lid true false false size x.2 = true := by
  rw [mem_watches, LoadMeets, and_assoc]

/-- A watchpoint with the given action is met. -/
def State.acts (s : State) (w : Wave) (size : Nat) (xs : List (Nat × W64)) (stops : Bool) : Bool :=
  (s.watches w).any fun z => z.2.ctl.getLsbD 6 = stops && xs.any fun x => z.2.hits w.grp.lid true false false size x.2

theorem acts_iff {stops : Bool} :
    s.acts w size xs stops = true ↔ ∃ k p, p.ctl.getLsbD 6 = stops ∧ ∃ y ∈ xs, LoadMeets s w size k p y := by
  simp only [State.acts, List.any_eq_true, Bool.and_eq_true, decide_eq_true_eq, loadMeets_iff]
  constructor
  · rintro ⟨⟨k, p⟩, hz, hs, y, hy, hh⟩
    exact ⟨k, p, hs, y, hy, hz, hh⟩
  · rintro ⟨k, p, hs, y, hy, hz, hh⟩
    exact ⟨(k, p), hz, hs, y, hy, hh⟩

/-- Where all that are met have one action none has the other. -/
theorem acts_other {stops : Bool} (h : ∀ j q, ∀ y ∈ xs, LoadMeets s w size j q y → q.ctl.getLsbD 6 = stops) :
    s.acts w size xs (!stops) = false :=
  Bool.eq_false_iff.2 fun hacts => by
    obtain ⟨j, q, hq, y, hy, hm⟩ := acts_iff.1 hacts
    exact Bool.not_ne_self stops (hq.symm.trans (h j q y hy hm))

/-- The watchpoints that a load meets. -/
def State.met (s : State) (w : Wave) (size : Nat) (xs : List (Nat × W64)) : List (Nat × Watch) :=
  (s.watches w).filter fun z => xs.any fun y => z.2.hits w.grp.lid true false false size y.2

theorem met_any {y : Nat × W64} (hy : y ∈ xs) :
    ((s.met w size xs).any fun z => z.2.hits w.grp.lid true false false size y.2) = true ↔
      ∃ j q, LoadMeets s w size j q y := by
  simp only [State.met, List.any_filter, List.any_eq_true, Bool.and_eq_true, Prod.exists, loadMeets_iff]
  exact ⟨fun ⟨j, q, hz, _, hh⟩ => ⟨j, q, hz, hh⟩, fun ⟨j, q, hz, hh⟩ => ⟨j, q, hz, ⟨y.1, y.2, hy, hh⟩, hh⟩⟩

theorem FirstMet.find (hm : FirstMet s w size xs k n p x) :
    (xs.find? fun y => (s.met w size xs).any fun z => z.2.hits w.grp.lid true false false size y.2) = some x := by
  obtain ⟨hn, hx⟩ := List.getElem?_eq_some_iff.1 hm.at_
  refine List.find?_eq_some_iff_getElem.2 ⟨(met_any (hx ▸ List.getElem_mem hn)).2 hm.meets, n, hn, hx, fun m hmn => ?_⟩
  have hm' : m < xs.length := hmn.trans hn
  rw [Bool.not_eq_true', Bool.eq_false_iff, Ne, met_any (List.getElem_mem hm')]
  exact fun ⟨j, q, hj⟩ => hm.first m _ hmn (List.getElem?_eq_getElem hm') j q hj

theorem FirstMet.head (hm : FirstMet s w size xs k n p x) : ∃ rest, s.met w size xs = (k, p) :: rest := by
  obtain ⟨y, hy, hmeet⟩ := hm.met
  obtain ⟨there, hits⟩ := loadMeets_iff.1 hmeet
  obtain ⟨rest, hrest, -⟩ := watches_filter
    (hit := fun z => xs.any fun y => z.2.hits w.grp.lid true false false size y.2) there
    (List.any_eq_true.2 ⟨y, hy, hits⟩) fun j q hj hq => List.any_eq_false.2 fun z hz hit =>
      hm.lowest j q hj z hz (loadMeets_iff.2 ⟨hq, hit⟩)
  exact ⟨rest, hrest⟩

/-- A watchpoint that a load meets is one of reads, or of reads and writes. -/
theorem LoadMeets.kind (hm : LoadMeets s w size k p x) : bits p.ctl 5 3 ≠ 1 := by
  obtain ⟨-, -, hits⟩ := hm
  intro h1
  simp [Watch.hits, h1] at hits

/-- TVAL names the lowest watchpoint and the first access, and the record is of a read (R408, R411). -/
theorem FirstMet.due (hm : FirstMet s w size xs k n p x) : ∃ hit,
    watchDue (s.watches w) xs w.grp.lid true false false size = some ⟨12, watchTval x.2.toNat k 0, some 2, hit⟩ := by
  obtain ⟨rest, hmet⟩ := hm.head
  obtain ⟨y, -, hmeet⟩ := hm.met
  have found := hm.find
  rw [hmet] at found
  unfold State.met at hmet
  refine ⟨((k, p) :: rest).foldl (fun m z => m ||| (1#8 <<< z.1)) 0, ?_⟩
  simp only [watchDue, hmet, found, hmeet.kind, watchTval]
  rfl

/-! ### The load -/

section
variable {e : Env} {d : Due} (hh : e.w.handler = .none) (ho : e.w.dbg.getLsbD 2 = false)
  (hd : watchDue (s.watches e.w) xs e.w.grp.lid true false false size = some d)
include hh ho hd

theorem watchChk_traps (hs : s.acts e.w size xs true = false) (ht : s.acts e.w size xs false = true) :
    s.watchChk e true false false size xs .ok = .trap 12 d.tval := by
  unfold State.watches at hd
  unfold State.acts State.watches at hs ht
  simp only [State.watchChk, hh, ho, hd, hs, ht]
  rfl

theorem watchChk_stops (ht : s.acts e.w size xs false = false) :
    s.watchChk e true false false size xs .ok = .stop d := by
  unfold State.watches at hd
  unfold State.acts State.watches at ht
  simp only [State.watchChk, hh, ho, hd, ht]
  rfl

end

theorem watchChk_off {e : Env} {c : Chk} (h : e.w.handler ≠ .none ∨ e.w.dbg.getLsbD 2 = true) :
    s.watchChk e true false false size xs c = c := by
  rcases h with h | h <;> simp [State.watchChk, h]

/-- A load whose addresses are sound and translated is checked against the watchpoints alone. -/
theorem globalChk_load {e : Env} {ps : List (Nat × W64 × Nat × Bool)} (hm : s.memHold e.w = false)
    (ha : addrChk size xs = .ok) (hx : s.xlate (some e.w.id.core) e.w.grp.part .read size xs = .ok ps) :
    globalChk s e .read true size xs = s.watchChk e true false false size xs .ok := by
  simp only [globalChk, hm, ha, hx, Xlate.chk, State.watchXlate, Bool.false_eq_true, if_false]
  split
  · next hc => exact hc.symm
  · rfl

theorem addrChk_range (ha : addrChk size xs = .ok) (hx : x ∈ xs) : x.2.toNat < 2 ^ 51 := by
  have fit : bits x.2 63 51 = 0 := by
    simp only [addrChk] at ha
    split at ha
    · contradiction
    · split at ha
      · contradiction
      · next hnone => simpa using List.find?_eq_none.1 hnone x hx
  have small := x.2.isLt
  simp only [bits] at fit
  omega

end

section
variable {s : State} {w : Wave} {h : Hdr} {o : GlMem} {ps : List (Nat × W64 × Nat × Bool)} {k n : Nat} {p : Watch}
  {x : Nat × W64}

/-- A load of sound and translated addresses is judged by the watchpoints. -/
theorem ldg_judges (hi : Issues s w (.ldg h o) false) (hre : w.reissue = none) (hm : s.memHold w = false)
    (ha : addrChk (sizeOf' o.tag) (ldgAddrs s w h o) = .ok)
    (hx : s.xlate (some w.id.core) w.grp.part .read (sizeOf' o.tag) (ldgAddrs s w h o) = .ok ps) :
    ∃ go, exec (.ldg h o) s = .next (s.judge w (.ldg h o)
      (s.watchChk (mkEnv s w false (.ldg h o)) true false false (sizeOf' o.tag) (ldgAddrs s w h o) .ok) go) := by
  have run : exec (.ldg h o) s = execLdg h o s := rfl
  rw [run, execLdg, issue_judges hi]
  rw [glAddrs_of_ldg hre, globalChk_load (e := mkEnv s w false (.ldg h o)) hm ha hx]
  exact ⟨_, rfl⟩

section
variable (hi : Issues s w (.ldg h o) false) (hre : w.reissue = none) (hm : s.memHold w = false)
  (ha : addrChk (sizeOf' o.tag) (ldgAddrs s w h o) = .ok)
  (hx : s.xlate (some w.id.core) w.grp.part .read (sizeOf' o.tag) (ldgAddrs s w h o) = .ok ps)
include hi hre hm ha hx

section
variable (hf : FirstMet s w (sizeOf' o.tag) (ldgAddrs s w h o) k n p x) (hh : w.handler = .none)
  (ho : w.dbg.getLsbD 2 = false)
include hf hh ho

/-- Where every watchpoint that it meets traps, the load is trapped at the instruction, and ONESHOT is set (R413, R416). -/
theorem ldg_watch_traps (hact : ∀ j q, ∀ y ∈ ldgAddrs s w h o,
    LoadMeets s w (sizeOf' o.tag) j q y → q.ctl.getLsbD 6 = false) :
    exec (.ldg h o) s = .next ((s.trapAt w 12 w.pc (watchTval x.2.toNat k 0)).modWave w.id fun y =>
      { y with dbg := y.dbg ||| 4 }) := by
  obtain ⟨hit, hdue⟩ := hf.due
  obtain ⟨go, run⟩ := ldg_judges hi hre hm ha hx
  obtain ⟨y, hy, hmeet⟩ := hf.met
  have trap : s.acts w (sizeOf' o.tag) (ldgAddrs s w h o) false = true :=
    acts_iff.2 ⟨k, p, hact k p y hy hmeet, y, hy, hmeet⟩
  rw [watchChk_traps (e := mkEnv s w false (.ldg h o)) hh ho hdue (acts_other hact) trap] at run
  exact run

/-- Where every one of them stops, its wave is stopped there. -/
theorem ldg_watch_stops (hact : ∀ j q, ∀ y ∈ ldgAddrs s w h o,
    LoadMeets s w (sizeOf' o.tag) j q y → q.ctl.getLsbD 6 = true) :
    ∃ t, exec (.ldg h o) s = .next t ∧
      t.wave? w.id = some { w with dstate := .stopped 2, due := [], dbg := w.dbg ||| 4 } ∧ t.accs = s.accs := by
  obtain ⟨hit, hdue⟩ := hf.due
  obtain ⟨go, run⟩ := ldg_judges hi hre hm ha hx
  rw [watchChk_stops (e := mkEnv s w false (.ldg h o)) hh ho hdue (acts_other hact)] at run
  have there := dbgStop_wave (wave?_id hi.slot ▸ hi.slot) ⟨12, watchTval x.2.toNat k 0, some 2, hit⟩ 2
  exact ⟨_, run, wave?_modWave_same (f := fun y => { y with dbg := y.dbg ||| 4 }) (fun _ => rfl) there,
    (keepsWaves_dsPost s w ⟨12, watchTval x.2.toNat k 0, some 2, hit⟩ 2).accs⟩

end

/-- In a handler or under ONESHOT no watchpoint acts (R408, R413). -/
theorem ldg_unwatched (hoff : w.handler ≠ .none ∨ w.dbg.getLsbD 2 = true) :
    Starts s w (.ldg h o) h false fun _ a => a.op = .load := by
  have passed : globalChk s (mkEnv s w false (.ldg h o)) .read true (sizeOf' o.tag) (ldgAddrs s w h o) = .ok :=
    (globalChk_load (e := mkEnv s w false (.ldg h o)) hm ha hx).trans (watchChk_off hoff)
  obtain ⟨t, y, run, start, ⟨op, -⟩, kept⟩ := ldg_starts hi hre passed hx
  exact ⟨t, _, y, run, start, op, kept⟩

end

end

/-! ### Watchpoints of barrier events -/

section
variable {s : State} {w : Wave} {kinds : List Nat} {k x : Nat} {p : Watch}

/-- The watchpoint is one of the given kinds of barrier event on the word at `x`. -/
def Watch.onBarrier (p : Watch) (lid : Nat) (kinds : List Nat) (x : Nat) : Bool :=
  p.ctl.getLsbD 7 && (bits p.ctl 63 32 = 0 || bits p.ctl 63 32 = lid) && kinds.contains (bits p.ctl 5 3) && p.addr.toNat = x

/-- An event on a barrier word meets watchpoint `k`, which is `p` (R417). -/
def BarrierMeets (s : State) (w : Wave) (kinds : List Nat) (x k : Nat) (p : Watch) : Prop :=
  k < 8 ∧ (s.part w.grp.part).wps[k]? = some p ∧ p.ctl.getLsbD 7 = true ∧
    (bits p.ctl 63 32 = 0 ∨ bits p.ctl 63 32 = w.grp.lid) ∧ bits p.ctl 5 3 ∈ kinds ∧ p.addr.toNat = x

theorem barrierMeets_iff : BarrierMeets s w kinds x k p ↔
    (k, p) ∈ s.watches w ∧ p.onBarrier w.grp.lid kinds x = true := by
  simp only [BarrierMeets, mem_watches, Watch.onBarrier, Bool.and_eq_true, Bool.or_eq_true, decide_eq_true_eq,
    List.contains_iff_mem, and_assoc]

/-- The watchpoints that a barrier event meets. -/
def State.barrierMet (s : State) (w : Wave) (kinds : List Nat) (x : Nat) : List (Nat × Watch) :=
  (s.watches w).filter fun z => z.2.onBarrier w.grp.lid kinds x

theorem barrierDue_handler (hh : w.handler ≠ .none) : s.barrierDue w kinds x = [] := by
  simp [State.barrierDue, hh]

theorem barrierDue_none (hn : s.barrierMet w kinds x = []) : s.barrierDue w kinds x = [] := by
  unfold State.barrierMet State.watches Watch.onBarrier at hn
  simp only [State.barrierDue, hn]
  split <;> rfl

/-- One watchpoint alone leaves its cause or its stop due, with its number and the word's offset in TVAL (R417). -/
theorem barrierDue_one (hh : w.handler = .none) (hm : s.barrierMet w kinds x = [(k, p)]) : s.barrierDue w kinds x =
    [⟨12, watchTval x k 1, if p.ctl.getLsbD 6 then some (bits p.ctl 5 3 + 1) else none, 1#8 <<< k⟩] := by
  unfold State.barrierMet State.watches Watch.onBarrier at hm
  have one : (0 : Byte) ||| 1#8 <<< k = 1#8 <<< k := BitVec.zero_or
  rw [← one]
  simp only [State.barrierDue, hh, hm, List.find?_cons, List.foldl_cons, List.foldl_nil]
  cases p.ctl.getLsbD 6 <;> rfl

theorem barrierMet_empty (hn : ∀ j q, ¬ BarrierMeets s w kinds x j q) : s.barrierMet w kinds x = [] :=
  List.filter_eq_nil_iff.2 fun z hz hit => hn z.1 z.2 (barrierMeets_iff.2 ⟨hz, hit⟩)

theorem barrierMet_single (hm : BarrierMeets s w kinds x k p) (hone : ∀ j q, BarrierMeets s w kinds x j q → j = k) :
    s.barrierMet w kinds x = [(k, p)] := by
  obtain ⟨there, hit⟩ := barrierMeets_iff.1 hm
  have met (z : Nat × Watch) (hz : z ∈ s.barrierMet w kinds x) : z.1 = k := by
    obtain ⟨hw, hb⟩ := List.mem_filter.1 hz
    exact hone z.1 z.2 (barrierMeets_iff.2 ⟨hw, hb⟩)
  obtain ⟨rest, hrest, above⟩ := watches_filter (hit := fun z => z.2.onBarrier w.grp.lid kinds x) there hit
    fun j q hj hq => Bool.eq_false_iff.2 fun hb => Nat.ne_of_lt hj (hone j q (barrierMeets_iff.2 ⟨hq, hb⟩))
  have none_above : rest = [] := List.eq_nil_iff_forall_not_mem.2 fun z hz =>
    Nat.ne_of_gt (above z hz) (met z (by rw [State.barrierMet, hrest]; exact List.mem_cons_of_mem _ hz))
  rw [State.barrierMet, hrest, none_above]

end

end Sys2Proof.Machine
end

section
/-! TRAP, DBGBRK, single steps and watchpoints: the statement about them, and its proof. -/

namespace Sys2Proof.Machine

open Sys2Proof.Claims

/-- Settles O40: the two at their issue; the step that an issue leaves and what the boundary takes; and the watchpoints
that a load and a barrier event meet. -/
theorem trapsAndBreaks : Obligations.TrapsAndBreaks := by
  intro s w h imm code on brk
  refine ⟨fun hi => ⟨trap_traps hi, trap_passes hi⟩, fun hi => ⟨?traps, ?stops, ?passes⟩, ?step, ?load, ?barrier⟩
  case traps => exact fun hg hh hb => dbgbrk_traps hi (Bool.and_eq_true_iff.2 ⟨hg, decide_eq_true hh⟩) hb
  case stops => exact fun hg hh hb => dbgbrk_stops hi (Bool.and_eq_true_iff.2 ⟨hg, decide_eq_true hh⟩) hb
  case passes =>
    exact fun hoff => dbgbrk_passes hi (Bool.and_eq_false_iff.2 (hoff.imp id fun hh => decide_eq_false hh))
  case step =>
    intro ev usable traps
    refine ⟨fun u hi hd => nop_steps hi hd, fun hw hx hh hv => ?_⟩
    have taken {d : Due} (he : w.events = [d]) (hs : d.stop = none) : traps d := by
      obtain ⟨w', there, t⟩ := takeDue_traps hw hx he hh hv hs
      exact ⟨w', there, t.cause, t.tepc, t.tval, t.pc, t.handler, t.due, t.dstate⟩
    exact ⟨fun hdue hs => taken (events_step hdue) hs, fun hdue hs => takeDue_stops hw hx (events_step hdue) hs,
      fun d hs hd hdue => taken (events_trap hs hd hdue) hs⟩
  case load =>
    intro o ps i e size addr xs meets hi hre hm ha hx
    refine ⟨fun k n p x met low at_ some_ first hh ho => ?_, ldg_unwatched hi hre hm ha hx⟩
    have hf : FirstMet s w size xs k n p x := ⟨met, low, at_, some_, first⟩
    intro names
    refine ⟨fun hact => ⟨_, ?_, ldg_watch_traps hi hre hm ha hx hf hh ho hact⟩,
      ldg_watch_stops hi hre hm ha hx hf hh ho⟩
    obtain ⟨y, hy, hk, -⟩ := met
    exact watchTval_fields (addrChk_range ha (List.mem_of_getElem? at_)) hk (by decide)
  case barrier =>
    intro kinds x hx meets
    refine ⟨fun k p hh hm hone => ?_, fun hoff => ?_⟩
    · have hk : k < 8 := hm.1
      obtain ⟨addr, num, sp⟩ := watchTval_fields hx hk (show 1 < 2 by decide)
      exact ⟨_, barrierDue_one hh (barrierMet_single hm hone), rfl, addr, num, sp, rfl, rfl⟩
    · rcases hoff with hh | hn
      · exact barrierDue_handler hh
      · exact barrierDue_none (barrierMet_empty hn)

end Sys2Proof.Machine
end

section
/-!
SUPPORT. The live entries of a queue port that a QDROP leaves (R251).
-/

namespace Sys2Proof.Machine

/-- Where the keys are distinct, what is left without the keys of the first `n` are the others. -/
theorem filter_key_not_take {α β : Type} [DecidableEq β] (key : α → β) (n : Nat) {l : List α} (hl : (l.map key).Nodup) :
    (l.filter fun x => !((l.take n).map key).contains (key x)) = l.drop n := by
  have parts : (l.take n).map key ++ (l.drop n).map key = l.map key := by rw [← List.map_append, List.take_append_drop]
  have apart := (List.nodup_append.1 (parts ▸ hl)).2.2
  conv_lhs => rw [← List.take_append_drop n l, List.filter_append]
  rw [List.take_append_drop, List.filter_eq_nil_iff.2, List.filter_eq_self.2, List.nil_append]
  · intro x hx
    have later : key x ∉ (l.take n).map key := fun hk => apart _ hk _ (List.mem_map_of_mem hx) rfl
    simpa using later
  · intro x hx
    have named : key x ∈ (l.take n).map key := List.mem_map_of_mem hx
    simpa using named

/-- What a drop of the accesses `ids` makes of a port's entries: those of them that are live are live no more. -/
theorem live_of_dropped (ids : List Nat) (es : List QEntry) :
    (((es.filter fun e => !((!e.dropped && ids.contains e.acc) && e.got.isSome)).map fun e =>
        if !e.dropped && ids.contains e.acc then { e with dropped := true } else e).filter fun e => !e.dropped) =
      (es.filter fun e => !e.dropped).filter fun e => !ids.contains e.acc := by
  induction es with
  | nil => rfl
  | cons e es ih =>
    cases hd : e.dropped with
    | true => simpa only [List.filter_cons, List.map_cons, hd, Bool.not_true, Bool.not_false, Bool.false_and, Bool.false_eq_true,
        if_true, if_false] using ih
    | false =>
      cases hm : ids.contains e.acc with
      | false => simpa only [List.filter_cons, List.map_cons, hd, hm, Bool.not_false, Bool.and_false, Bool.false_and,
          Bool.false_eq_true, if_true, if_false] using congrArg (e :: ·) ih
      | true => cases hg : e.got <;> simpa only [List.filter_cons, List.map_cons, hd, hm, hg, Bool.not_true, Bool.not_false,
          Bool.and_true, Bool.and_self, Option.isSome_none, Option.isSome_some, Bool.and_false, Bool.false_eq_true, if_true,
          if_false] using ih

/-- The element that a change of one place makes, where the change leaves the default. -/
theorem getD_modify {α : Type} {f : α → α} {d : α} (hd : f d = d) (k : Nat) (l : List α) :
    (l.modify k f).getD k d = f (l.getD k d) := by
  simp only [List.getD_eq_getElem?_getD, List.getElem?_modify_eq]
  cases l[k]? with
  | none => exact hd.symm
  | some x => rfl

theorem live_drop {q : Queue} (hq : (q.entries.map (·.acc)).Nodup) (n free : Nat) : (q.drop n free).live = q.live.drop n := by
  have live : (q.live.map (·.acc)).Nodup := hq.sublist (List.filter_sublist.map _)
  exact (live_of_dropped _ _).trans (filter_key_not_take (fun e : QEntry => e.acc) n live)

end Sys2Proof.Machine
end

section
/-! QSTAT and QDROP: the statement about them, and its proof. -/

namespace Sys2Proof.Machine

open Sys2Proof.Claims

section
variable {s : State} {w : Wave} {h : Hdr} {q : BitVec 4} {n : BitVec 6}

/-- The number of entries that a QDROP of `n` drops. -/
def dropCount (w : Wave) (q : BitVec 4) (n : BitVec 6) : Nat :=
  if n = 0 then (w.q.getD q.toNat ⟨[], []⟩).live.length else n.toNat

/-- The wave once a QDROP has dropped `k` entries of a port, whose slots are free from cycle `free`. -/
def Wave.dropped (q : BitVec 4) (k free : Nat) (w : Wave) : Wave := { w with q := w.q.modify q.toNat fun p => p.drop k free }

theorem ownChange_dropped (q : BitVec 4) (k free : Nat) : OwnChange (Wave.dropped q k free) :=
  ⟨fun _ => rfl, fun _ => rfl, fun _ => rfl, fun _ => rfl, fun _ => rfl, congrArg (Wave.dropped q k free)⟩

/-- The wave that a QDROP leaves. -/
def Wave.afterQdrop (w : Wave) (e : Env) (h : Hdr) (q : BitVec 4) (n : BitVec 6) : Wave :=
  (w.sent e h 1 []).dropped q (dropCount w q n) (e.c + 1)

theorem afterQdrop_q (e : Env) (he : e.id = .qdrop h q n) : (w.afterQdrop e h q n).q =
    w.q.modify q.toNat fun p => p.drop (dropCount w q n) (e.c + 1) := by
  rw [Wave.afterQdrop, Wave.dropped, sent_frame, entered_frame, he]
  rfl

theorem afterQdrop_waveFrame (e : Env) : waveFrame w (w.afterQdrop e h q n) :=
  (ownChange_dropped q (dropCount w q n) (e.c + 1)).frame (sent_waveFrame w e h 1 [])

/-- A QDROP of more entries than the port has traps. -/
def qdropChk (h : Hdr) (q : BitVec 4) (n : BitVec 6) (e : Env) : Chk :=
  if e.w.uGuard h e.c0 && (e.w.q.getD q.toNat ⟨[], []⟩).live.length < n.toNat then .trap 7 (portVal q) else .ok

theorem exec_qdrop : exec (.qdrop h q n) s = issue (.qdrop h q n) h true (fun _ e => qdropChk h q n e)
    (fun e s => thenDoes e h (Wave.dropped q (dropCount e.w q n) (e.c + 1)) s) s := rfl

theorem qdrop_issues (hi : Issues s w (.qdrop h q n) true) (hg : w.uGuard h (s.cyc w.id.core) = true)
    (hn : n.toNat ≤ (w.q.getD q.toNat ⟨[], []⟩).live.length) :
    let e := envOf s w (.qdrop h q n) true
    exec (.qdrop h q n) s =
      .next ((done1 e h (s.enter w e h)).modWave w.id (Wave.dropped q (dropCount w q n) (e.c + 1))) := by
  intro e
  have guarded : e.w.uGuard h e.c0 = true := hg
  have enough : decide ((e.w.q.getD q.toNat ⟨[], []⟩).live.length < n.toNat) = false := decide_eq_false (Nat.not_lt.2 hn)
  have passes : qdropChk h q n e = .ok := if_neg (by simp only [enough, Bool.and_false, Bool.false_eq_true, not_false_eq_true])
  exact (exec_qdrop.trans (issue_ok hi passes)).trans (congrArg Host.Outcome.next (if_pos guarded))

theorem qdrop_issued (hw : s.wave? w.id = some w) (e : Env) (he : e.w = w) :
    issued s w e h ((done1 e h (s.enter w e h)).modWave w.id (Wave.dropped q (dropCount w q n) (e.c + 1)))
      (w.afterQdrop e h q n) :=
  have own := ownChange_dropped q (dropCount w q n) (e.c + 1)
  issued_modWave (sent_issued (lat := 1) (ps := []) he hw) own.id (own.pc _) (own.prev _) (own.flags _)

/-- The access that a QSTAT starts, with its snapshot of the port. -/
def qstatAcc (e : Env) (h : Hdr) (d : BitVec 8) (q : BitVec 4) : Acc :=
  { e.acc h .qstat with puts := if e.w.uGuard h e.c0 then
      [.s d.toNat (qstatVal (e.w.q.getD q.toNat ⟨[], []⟩) e.w.kern.qd e.c0)] else [] }

theorem exec_qstat (d : BitVec 8) : exec (.qstat h d q) s =
    issue (.qstat h d q) h true noChk (fun e s => s.addAcc (qstatAcc e h d q)) s := rfl

end

/-- Settles O22: QSTAT adds its access, with what it has read of the port; QDROP changes its port alone, the entries dropped
being told from the others by the accesses that they await. -/
theorem queuePorts : Obligations.QueuePorts := by
  intro s w h d q n port
  refine ⟨fun hi => ?stat, fun id a hr => ?complete, fun hi hg hn => ?drop⟩
  case stat => exact starts_of_addAcc (exec_qstat d) hi rfl rfl rfl rfl rfl rfl ⟨rfl, rfl⟩
  case complete =>
    simp only [exec, execQstatComplete, hr]
    rfl
  case drop =>
    have hx := qdrop_issues hi hg hn
    have hiss := qdrop_issued (h := h) (q := q) (n := n) (wave?_id hi.slot ▸ hi.slot) (envOf s w (.qdrop h q n) true) rfl
    refine ⟨⟨_, _, hx, hiss, afterQdrop_waveFrame _, sent_pend w _ h 1 [], rfl⟩, _, _, hx, hiss.there, fun hnodup => ?_⟩
    rw [afterQdrop_q _ rfl, getD_modify rfl]
    exact live_drop hnodup ..

end Sys2Proof.Machine
end

section
/-!
SUPPORT. What a FENCE waits for, and what it makes later stores wait for (R247, R259).
-/

namespace Sys2Proof.Machine

open Sys2Proof.Claims

section
variable {s : State} {w : Wave} {e : Env} {h : Hdr}

theorem mem_pendingIds {uid id : Nat} : id ∈ s.pendingIds uid ↔
    ∃ a, a ∈ s.accs ∧ a.id = id ∧ a.uid = uid ∧ a.op.access = true ∧ a.settled = false := by
  simp only [State.pendingIds, State.accsOf, List.mem_map, List.mem_filter, Bool.and_eq_true, Bool.not_eq_true',
    decide_eq_true_eq]
  exact exists_congr fun a => ⟨fun ⟨⟨⟨ha, hu⟩, hx, hs⟩, hid⟩ => ⟨ha, hid, hu, hx, hs⟩,
    fun ⟨ha, hid, hu, hx, hs⟩ => ⟨⟨⟨ha, hu⟩, hx, hs⟩, hid⟩⟩

/-- A change of one element that a map does not see. -/
theorem map_modify_of_eq {α β : Type} {g : α → β} {f : α → α} (hf : ∀ x, g (f x) = g x) (k : Nat) (l : List α) :
    (l.modify k f).map g = l.map g := by
  refine List.ext_getElem? fun i => ?_
  simp only [List.getElem?_map, List.getElem?_modify]
  split
  · cases l[i]? <;> simp [hf]
  · simp

/-- An issue moves no command of a copy engine. -/
theorem chans_enter (s : State) (w : Wave) (e : Env) (h : Hdr) : (s.enter w e h).cores.map (·.chan) = s.cores.map (·.chan) := by
  rw [State.enter_cores]
  exact map_modify_of_eq (by intro; rfl) ..

theorem engineIds_congr {t : State} (hc : t.cores.map (·.chan) = s.cores.map (·.chan)) (hg : t.groups = s.groups) :
    t.engineIds = s.engineIds := by
  funext uid
  have chans (s : State) : (s.cores.flatMap fun c =>
        ((c.chan.fifo ++ c.chan.slots.filterMap (·.cmd)).filter fun x => x.uid = uid && x.stat = .outstanding).map (·.num)) =
      (s.cores.map (·.chan)).flatMap fun ch =>
        ((ch.fifo ++ ch.slots.filterMap (·.cmd)).filter fun x => x.uid = uid && x.stat = .outstanding).map (·.num) := by
    rw [List.flatMap_map]
  simp only [State.engineIds, chans, hc, hg]

theorem engineBusy_congr {t : State} (hc : t.cores.map (·.chan) = s.cores.map (·.chan)) (hg : t.groups = s.groups) :
    t.engineBusy = s.engineBusy := by
  funext id
  have chans (s : State) : (s.cores.any fun c => c.chan.fifo.any (fun x => x.num = id) ||
        c.chan.slots.any fun sl => (sl.cmd.map fun x => x.num = id && x.stat = .outstanding).getD false) =
      (s.cores.map (·.chan)).any fun ch => ch.fifo.any (fun x => x.num = id) ||
        ch.slots.any fun sl => (sl.cmd.map fun x => x.num = id && x.stat = .outstanding).getD false := by
    rw [List.any_map]
    rfl
  simp only [State.engineBusy, chans, hc, hg]

theorem fenceRel_enter (x : Wave) (s : State) (w : Wave) (e : Env) (h : Hdr) (sco : Scope) :
    x.fenceRel (s.enter w e h) sco = x.fenceRel s sco := by
  simp only [Wave.fenceRel, engineIds_congr (chans_enter s w e h) rfl, engineBusy_congr (chans_enter s w e h) rfl]
  rfl

theorem fenceRel_frame (x : Wave) (s : State) (sco : Scope) : x.fenceRel s sco = { x with
    relAfter := (x.fenceRel s sco).relAfter, relNear := (x.fenceRel s sco).relNear } := by
  unfold Wave.fenceRel
  split <;> rfl

/-- The numbers that a fence of a scope `far` or not adds to those that later stores wait for, of which the ended ones go. -/
theorem mem_fenceRel (x : Wave) (s : State) (sco : Scope) (id : Nat) :
    let busy : Prop := (s.acc? id).isSome ∨ s.engineBusy id = true
    let earlier : Prop := id ∈ s.pendingIds x.uid ∨ id ∈ s.engineIds x.uid
    (id ∈ (x.fenceRel s sco).relAfter ↔ (id ∈ x.relAfter ∧ busy) ∨ (scopeFar sco = true ∧ earlier)) ∧
    (id ∈ (x.fenceRel s sco).relNear ↔ (id ∈ x.relNear ∧ busy) ∨ (scopeFar sco = false ∧ earlier)) := by
  unfold Wave.fenceRel
  cases scopeFar sco <;> simp

/-- A wave that has issued a fence, with what its later stores wait for. -/
def Wave.fenced (w : Wave) (s : State) (e : Env) (h : Hdr) (o : FenceOp) : Wave :=
  if o.kind = .acq then entered w e h else (entered w e h).fenceRel s o.sco

/-- The state in which a fence has issued and has marked its wave. -/
def State.fenced (s : State) (w : Wave) (e : Env) (h : Hdr) (o : FenceOp) : State :=
  if o.kind = .acq then s.enter w e h else (s.enter w e h).modWave w.id fun x => x.fenceRel s o.sco

theorem fenced_issued (hw : s.wave? w.id = some w) (o : FenceOp) : issued s w e h (s.fenced w e h o) (w.fenced s e h o) := by
  have hen := entered_issued (e := e) (h := h) hw
  unfold State.fenced Wave.fenced
  split
  · exact hen
  · have same (x : Wave) := fenceRel_frame x s o.sco
    exact issued_modWave hen (fun x => by rw [same]) (by rw [same]) (by rw [same]) (by rw [same])

theorem fenced_frame (w : Wave) (s : State) (e : Env) (h : Hdr) (o : FenceOp) : w.fenced s e h o = { entered w e h with
    relAfter := (w.fenced s e h o).relAfter, relNear := (w.fenced s e h o).relNear } := by
  unfold Wave.fenced
  split
  · rfl
  · exact fenceRel_frame ..

theorem fenced_waveFrame (w : Wave) (s : State) (e : Env) (h : Hdr) (o : FenceOp) :
    waveFrame { w with relAfter := (w.fenced s e h o).relAfter, relNear := (w.fenced s e h o).relNear } (w.fenced s e h o) := by
  unfold waveFrame
  conv_lhs => rw [fenced_frame, entered_frame]
  rw [fenced_frame, entered_frame]

theorem fenced_pend (w : Wave) (s : State) (e : Env) (h : Hdr) (o : FenceOp) : (w.fenced s e h o).pend = w.pend := by
  rw [fenced_frame, entered_frame]

theorem fenced_acq {o : FenceOp} (ho : o.kind = .acq) : (w.fenced s e h o).relAfter = w.relAfter ∧
    (w.fenced s e h o).relNear = w.relNear := by
  rw [Wave.fenced, if_pos ho, entered_frame]
  exact ⟨rfl, rfl⟩

theorem mem_fenced {o : FenceOp} (ho : o.kind ≠ .acq) (id : Nat) :
    let busy : Prop := (s.acc? id).isSome ∨ s.engineBusy id = true
    let earlier : Prop := id ∈ s.pendingIds w.uid ∨ id ∈ s.engineIds w.uid
    (id ∈ (w.fenced s e h o).relAfter ↔ (id ∈ w.relAfter ∧ busy) ∨ (scopeFar o.sco = true ∧ earlier)) ∧
    (id ∈ (w.fenced s e h o).relNear ↔ (id ∈ w.relNear ∧ busy) ∨ (scopeFar o.sco = false ∧ earlier)) := by
  have marks := mem_fenceRel (entered w e h) s o.sco id
  have after : (entered w e h).relAfter = w.relAfter := by rw [entered_frame]
  have near : (entered w e h).relNear = w.relNear := by rw [entered_frame]
  have uid : (entered w e h).uid = w.uid := by rw [entered_frame]
  rw [Wave.fenced, if_neg ho]
  rwa [after, near, uid] at marks

theorem fenced_rest (s : State) (w : Wave) (e : Env) (h : Hdr) (o : FenceOp) : s.fenced w e h o =
    { s with waves := (s.fenced w e h o).waves, cores := slotHeld s w e } := by
  unfold State.fenced
  split <;> rfl

theorem fenceAfter_fenced (s : State) (w : Wave) (e : Env) (h : Hdr) (o : FenceOp) :
    (s.fenced w e h o).fenceAfter = s.fenceAfter := by
  have engines : (s.fenced w e h o).engineIds = s.engineIds := by
    rw [fenced_rest]
    exact engineIds_congr (chans_enter s w e h) rfl
  have accs : (s.fenced w e h o).accs = s.accs := by rw [fenced_rest]
  funext uid k
  simp only [State.fenceAfter, State.pendingIds, State.accsOf, accs, engines]

end

/-! ### FENCE at its issue and at its end -/

section
variable {s : State} {w : Wave} {h : Hdr} {o : FenceOp}

/-- The access that a fence other than .rel starts. -/
def fenceAcc (s : State) (e : Env) (h : Hdr) (o : FenceOp) : Acc :=
  let ids := s.fenceAfter e.w.uid o.kind
  let near := o.kind = .sc && !scopeFar o.sco
  { e.acc h (.fence o.kind) with sco := o.sco, after := if near then [] else ids, near := if near then ids else [] }

theorem fence_issues (hi : Issues s w (.fence h o) true) (hm : s.memHold w = false)
    (hg : w.uGuard h (s.cyc w.id.core) = true) :
    let e := envOf s w (.fence h o) true
    exec (.fence h o) s = .next (if o.kind = .rel then fixed e h 0 [] (s.fenced w e h o)
      else (s.fenced w e h o).addAcc (fenceAcc s e h o)) := by
  intro e
  have guarded : ¬ (!(mkEnv s w true (.fence h o)).w.uGuard h (mkEnv s w true (.fence h o)).c0) = true := by simp [mkEnv, hg]
  have marked : (if o.kind = .acq then s.enter w e h else (s.enter w e h).modWave e.w.id fun x =>
      x.fenceRel (s.enter w e h) o.sco) = s.fenced w e h o := by
    simp only [fenceRel_enter]
    rfl
  refine ((show exec (.fence h o) s = execFence h o s from rfl).trans (issue_ok hi (if_neg (by simp [mkEnv, hm])))).trans
    (congrArg Host.Outcome.next ((if_neg guarded).trans ?_))
  simp only [fenceAcc, ← fenceAfter_fenced s w e h o, ← marked]
  rfl

/-- The wave that a .rel leaves, its completion on its way. -/
theorem rel_issued (hw : s.wave? w.id = some w) (e : Env) (he : e.w = w) :
    issued s w e h (fixed e h 0 [] (s.fenced w e h o))
      { w.fenced s e h o with pend := w.pend ++ countdown h e.c } := by
  subst he
  have sent : (((e.w.fenced s e h o).add (e.c + 0) []).decSf h.sf (e.c + 0)) =
      { e.w.fenced s e h o with pend := e.w.pend ++ countdown h e.c } := by
    rw [add_decSf_pend, fenced_pend]
    simp
  rw [← sent]
  exact issued_modWave (fenced_issued hw o) (fun x => by rw [decSf_id]; rfl) (by rw [add_decSf_pend])
    (by rw [add_decSf_pend]) (by rw [add_decSf_pend])

theorem rel_waveFrame (w : Wave) (s : State) (e : Env) (h : Hdr) (o : FenceOp) :
    waveFrame { w with relAfter := (w.fenced s e h o).relAfter, relNear := (w.fenced s e h o).relNear }
      { w.fenced s e h o with pend := w.pend ++ countdown h e.c } :=
  (congrArg (fun x : Wave => { x with pend := w.pend ++ countdown h e.c }) (fenced_waveFrame w s e h o) :)

theorem mem_fenceAfter_loads {k : FenceKind} (hk : k ≠ .sc) {uid id : Nat} : id ∈ s.fenceAfter uid k ↔
    ∃ a, a ∈ s.accs ∧ a.id = id ∧ a.uid = uid ∧ a.op.loads = true := by
  have loads : s.fenceAfter uid k = ((s.accsOf uid).filter fun a => a.op.loads).map (·.id) := by
    cases k with
    | sc => exact absurd rfl hk
    | _ => rfl
  simp only [loads, State.accsOf, List.mem_map, List.mem_filter, decide_eq_true_eq]
  exact exists_congr fun a => ⟨fun ⟨⟨⟨ha, hu⟩, hl⟩, hid⟩ => ⟨ha, hid, hu, hl⟩, fun ⟨ha, hid, hu, hl⟩ => ⟨⟨⟨ha, hu⟩, hl⟩, hid⟩⟩

theorem mem_fenceAcc_sc (ho : o.kind = .sc) (e : Env) (id : Nat) :
    let earlier : Prop := id ∈ s.pendingIds e.w.uid ∨ id ∈ s.engineIds e.w.uid
    (id ∈ (fenceAcc s e h o).after ↔ scopeFar o.sco = true ∧ earlier) ∧
    (id ∈ (fenceAcc s e h o).near ↔ scopeFar o.sco = false ∧ earlier) := by
  cases hf : scopeFar o.sco <;> simp [fenceAcc, ho, hf, State.fenceAfter]

theorem fenceAcc_loads (ho : o.kind ≠ .sc) (e : Env) :
    (fenceAcc s e h o).near = [] ∧ (fenceAcc s e h o).after = s.fenceAfter e.w.uid o.kind := by
  simp [fenceAcc, ho]

theorem fenceComplete_ends {id : Nat} {a : Acc}
    (hr : s.ripe id (fun op => match op with | .fence _ => true | _ => false) = some a) (ho : s.fenceOk a = true) :
    exec (.fenceComplete id) s = .next { ended s a [] with
      l1 := s.l1.filter fun l => ¬ (l.core = a.w.core ∧ (scopeFar a.sco = true ∨ l.eng.contains a.grp = true)) } := by
  have acquired := acquire_complete (s := s) { a with ord := .acq } []
  rw [if_pos rfl, Acc.l1After, if_pos rfl] at acquired
  refine Eq.trans ?_ (congrArg Host.Outcome.next acquired)
  simp only [exec, execFenceComplete]
  split
  next hn => exact absurd (hr.symm.trans hn) nofun
  next b hb =>
    obtain rfl : a = b := Option.some.inj (hr.symm.trans hb)
    rw [if_pos ho]
    rfl

end

end Sys2Proof.Machine
end

section
/-!
SUPPORT. CCTL: the ranges that it names, its issue, and what its write-backs leave (R248).
-/

namespace Sys2Proof.Machine

open Sys2Proof.Claims

/-! ### Ranges -/

section
variable {s t : State}

theorem walkFrom_congr (h : t.rd64 = s.rd64) (va n lvl table : Nat) :
    Machine.walkFrom t va n lvl table = Machine.walkFrom s va n lvl table := by
  induction n generalizing lvl table with
  | zero => rfl
  | succ n ih => simp only [Machine.walkFrom, h, ih]

theorem rd64_congr (h : t.rdByte = s.rdByte) : t.rd64 = s.rd64 := by
  funext pa
  rw [State.rd64, State.rd64, rdNat_congr h]

/-- An issue maps no address anew. -/
theorem mapped_enter (s : State) (w : Wave) (e : Env) (h : Hdr) : (s.enter w e h).mapped = s.mapped := by
  have bytes : (s.enter w e h).rd64 = s.rd64 := rd64_congr rfl
  have walks : (s.enter w e h).walkFrom = s.walkFrom := rfl
  funext p va
  simp only [State.mapped, State.walkEnd, walks, walkFrom_congr bytes]
  rfl

theorem physRanges_enter (s : State) (w : Wave) (e : Env) (h : Hdr) : (s.enter w e h).physRanges = s.physRanges := by
  funext p va len
  simp only [State.physRanges, mapped_enter]

theorem coherentRange_of_noCopies (h : s.snoop = []) (p : Nat) (va : W64) (len : Nat) : s.coherentRange p va len = s := by
  simp [State.coherentRange, h]

theorem rangeHeld_of_noFlip (h : s.flip = none) (p : Nat) (va : W64) (len : Nat) : s.rangeHeld p va len = false := by
  simp [State.rangeHeld, h]

end

/-! ### Issue -/

section
variable {s : State} {w : Wave} {i : Instr} {h : Hdr} {k : Nat} {rng : Option CctlRng}

/-- The access that a CCTL starts. -/
def cctlAcc (e : Env) (h : Hdr) (k : Nat) (rng : Option CctlRng) : Acc :=
  { e.acc h (.cctl k) with args := match rng with | some r => [e.srPair r.a, (e.sr r.b).zeroExtend 64] | none => [] }

/-- The lines of the L1s that an invalidation leaves. -/
def State.invLeaves (s : State) (e : Env) (rng : Option CctlRng) : List Line :=
  match rng with
  | none => s.l1.filter fun l => l.core ≠ e.w.id.core
  | some r => s.l1.filter fun l => ¬ (l.core = e.w.id.core ∧
      inRanges (s.physRanges e.w.grp.part (e.srPair r.a) (e.sr r.b).toNat) l.line = true)

/-- What a CCTL does at its issue: an invalidation of a range first has its walks made coherent. -/
def State.cctlNow (s : State) (e : Env) (k : Nat) (rng : Option CctlRng) : State :=
  if k ≠ 0 then s else match rng with
    | none => s.l1Clear e.w.id.core
    | some r =>
      let len := ((e.sr r.b).zeroExtend 64).toNat
      let s := s.coherentRange e.w.grp.part (e.srPair r.a) len
      let rs := s.physRanges e.w.grp.part (e.srPair r.a) len
      { s with l1 := s.l1.filter fun l => !(l.core = e.w.id.core && inRanges rs l.line) }

theorem cctl_course (s : State) : cctl i h k rng s =
    issue i h true (fun s e => if s.memHold e.w || (k = 0 && s.cctlHeld e h rng) then .hold else .ok)
      (fun e s => if !e.w.uGuard h e.c0 then done1 e h s else (s.cctlNow e k rng).addAcc (cctlAcc e h k rng)) s := by
  cases rng <;> rfl

theorem cctlNow_enter (s : State) (w : Wave) (e : Env) (h : Hdr) (hfree : rng = none ∨ s.snoop = []) :
    (s.enter w e h).cctlNow e 0 rng = { s.enter w e h with l1 := s.invLeaves e rng } := by
  cases rng with
  | none => rfl
  | some r =>
    have hsnoop : (s.enter w e h).snoop = [] := hfree.resolve_left nofun
    have len : ((e.sr r.b).zeroExtend 64).toNat = (e.sr r.b).toNat := BitVec.toNat_setWidth_of_le (by decide)
    have outside (rs : List (Nat × Nat)) : (fun l : Line => !(decide (l.core = e.w.id.core) && inRanges rs l.line)) =
        fun l => decide ¬ (l.core = e.w.id.core ∧ inRanges rs l.line = true) := by
      funext l
      simp
    simp only [State.cctlNow, State.invLeaves, coherentRange_of_noCopies hsnoop, physRanges_enter, len, outside]
    rfl

/-- An invalidation takes lines out of the L1s at its issue, and every CCTL starts its access. -/
theorem cctl_issues (hx : exec i s = cctl i h k rng s) (hi : Issues s w i true) (hm : s.memHold w = false)
    (hg : w.uGuard h (s.cyc w.id.core) = true) (hfree : k = 0 → rng = none ∨ s.snoop = [] ∧ s.flip = none) :
    let e := envOf s w i true
    exec i s = .next (({ s.enter w e h with l1 := if k = 0 then s.invLeaves e rng else s.l1 } : State).addAcc
      (cctlAcc e h k rng)) := by
  intro e
  have guarded : ¬ (!(mkEnv s w true i).w.uGuard h (mkEnv s w true i).c0) = true := by simp [mkEnv, hg]
  have free : ¬ (s.memHold e.w || (k = 0 && s.cctlHeld e h rng)) = true := by
    have held (hk : k = 0) : s.cctlHeld e h rng = false := by
      rcases hfree hk with rfl | ⟨-, hflip⟩
      · rfl
      · cases rng <;> simp [State.cctlHeld, rangeHeld_of_noFlip hflip]
    have hm' : s.memHold e.w = false := hm
    by_cases hk : k = 0 <;> simp [hm', hk, held]
  refine ((hx.trans (cctl_course s)).trans (issue_ok hi (if_neg free))).trans
    (congrArg Host.Outcome.next ((if_neg guarded).trans (congrArg (State.addAcc · _) ?_)))
  by_cases hk : k = 0
  · subst hk
    exact cctlNow_enter s w e h ((hfree rfl).imp_right And.left)
  · simp only [State.cctlNow, hk, ne_eq, not_false_eq_true, if_true, if_false]
    rfl

/-- A CCTL starts its access, whether or not it has taken lines out of the L1s. -/
theorem cctl_starts {ls : List Line} (hi : Issues s w i true)
    (hx : exec i s = .next (({ s.enter w (envOf s w i true) h with l1 := ls } : State).addAcc (cctlAcc (envOf s w i true) h k rng))) :
    Starts s w i h true fun _ a => a.op = .cctl k ∧ a.lanes = [] :=
  ⟨_, _, _, hx, started_of_adds hi (adds_of_filled (filled_l1 _ ls) _) ⟨rfl, rfl, rfl, rfl, rfl⟩, ⟨rfl, rfl⟩,
    rfl, rfl, rfl, rfl, rfl⟩

end

/-! ### Write-backs -/

section
variable {s : State}

theorem mem_dirty_sendHome (s : State) (k l : Nat) : l ∈ (s.sendHome k).dirty ↔ l ∈ s.dirty ∧ l ≠ k := by
  unfold State.sendHome
  split
  · simp
  next hk =>
    have clean : k ∉ s.dirty := by simpa using hk
    exact ⟨fun hl => ⟨hl, fun e => clean (e ▸ hl)⟩, And.left⟩

theorem mem_dirty_cleanKey (s : State) (k l : Nat) : l ∈ (s.cleanKey k).dirty ↔ l ∈ s.dirty ∧ l ≠ k := by
  rw [cleanKey_eq]
  exact mem_dirty_sendHome s k l

theorem mem_dirty_cleanKeys (ks : List Nat) (s : State) (l : Nat) :
    l ∈ (ks.foldl State.cleanKey s).dirty ↔ l ∈ s.dirty ∧ l ∉ ks := by
  induction ks generalizing s with
  | nil => simp
  | cons k ks ih =>
    rw [List.foldl_cons, ih, mem_dirty_cleanKey, List.mem_cons, not_or, and_assoc]

/-- The end of an access leaves what is read of the waves' clocks and of L1 to the state before the write-backs. -/
theorem complete_of_served {r : State} (hr : Served s r) (slc : List SlcLine) (a : Acc) :
    let t := ({ r with slc := slc } : State).complete a []
    t.mem = s.mem ∧ t.accs = s.accs.filter (fun y => y.id ≠ a.id) ∧ t.waves = (ended s a []).waves ∧ t.l1 = s.l1 ∧
      t.dirty = r.dirty := by
  obtain ⟨_, _, _, _, _, _, rfl⟩ := served_iff.1 hr
  exact ⟨rfl, rfl, rfl, rfl, rfl⟩

/-- The state in which the modified lines of a CCTL's ranges are written back, and a .cleaninv has taken the lines out. -/
def State.cleaned (s : State) (a : Acc) (rs : List (Nat × Nat)) : State :=
  let r := (s.dirty.filter (s.keyIn rs)).foldl State.cleanKey s
  if a.op = .cctl 2 then { r with slc := r.slc.filter fun x => !inRanges rs x.line } else r

theorem cleaned_eq (s : State) (a : Acc) (rs : List (Nat × Nat)) : ∃ r slc, s.cleaned a rs = { r with slc := slc } ∧ Served s r ∧
    ∀ l, l ∈ r.dirty ↔ l ∈ s.dirty ∧ s.keyIn rs l = false := by
  have served : Served s ((s.dirty.filter (s.keyIn rs)).foldl State.cleanKey s) := served_foldl served_cleanKey _ s
  have left (l : Nat) : l ∈ ((s.dirty.filter (s.keyIn rs)).foldl State.cleanKey s).dirty ↔
      l ∈ s.dirty ∧ s.keyIn rs l = false := by
    rw [mem_dirty_cleanKeys, List.mem_filter, not_and, Bool.not_eq_true]
    exact ⟨fun ⟨hl, hk⟩ => ⟨hl, hk hl⟩, fun ⟨hl, hk⟩ => ⟨hl, fun _ => hk⟩⟩
  unfold State.cleaned
  split
  · exact ⟨_, _, rfl, served, left⟩
  · exact ⟨_, _, rfl, served, left⟩

section
variable {id : Nat} {a : Acc}

theorem cctlComplete_of_inv (hr : s.ripe id (fun op => match op with | .cctl _ => true | _ => false) = some a)
    (h0 : a.op = .cctl 0) : exec (.cctlComplete id) s = .next (s.complete a []) := by
  show execCctlComplete id s = _
  unfold execCctlComplete
  split
  next hn => exact absurd (hr.symm.trans hn) nofun
  next b hb =>
    obtain rfl : a = b := Option.some.inj (hr.symm.trans hb)
    exact if_pos h0

theorem cctlComplete_of_clean (hr : s.ripe id (fun op => match op with | .cctl _ => true | _ => false) = some a)
    (h0 : a.op ≠ .cctl 0) (hsnoop : s.snoop = []) (hflip : s.flip = none) : exec (.cctlComplete id) s =
      .next ((s.cleaned a (s.physRanges a.grp.part (a.args.getD 0 0) (a.args.getD 1 0).toNat)).complete a []) := by
  show execCctlComplete id s = _
  unfold execCctlComplete
  split
  next hn => exact absurd (hr.symm.trans hn) nofun
  next b hb =>
    obtain rfl : a = b := Option.some.inj (hr.symm.trans hb)
    simp only [h0, rangeHeld_of_noFlip hflip, coherentRange_of_noCopies hsnoop, hflip, Option.any_none, Bool.false_eq_true, if_false]
    rfl

/-- What a CCTL leaves as it ends: no byte has changed, and what is modified of its ranges is written back. -/
theorem cctlComplete_ends (hr : s.ripe id (fun op => match op with | .cctl _ => true | _ => false) = some a)
    (hfree : a.op = .cctl 0 ∨ s.snoop = [] ∧ s.flip = none) :
    ∃ t, exec (.cctlComplete id) s = .next t ∧ t.mem = s.mem ∧ t.accs = s.accs.filter (fun y => y.id ≠ a.id) ∧
      t.waves = (ended s a []).waves ∧ t.l1 = s.l1 ∧ (a.op ≠ .cctl 0 → ∀ l, l ∈ t.dirty ↔ l ∈ s.dirty ∧
        s.keyIn (s.physRanges a.grp.part (a.args.getD 0 0) (a.args.getD 1 0).toNat) l = false) := by
  by_cases h0 : a.op = .cctl 0
  · exact ⟨_, cctlComplete_of_inv hr h0, rfl, rfl, rfl, rfl, fun h => absurd h0 h⟩
  · obtain ⟨hsnoop, hflip⟩ := hfree.resolve_left h0
    obtain ⟨r, slc, hc, served, left⟩ := cleaned_eq s a (s.physRanges a.grp.part (a.args.getD 0 0) (a.args.getD 1 0).toNat)
    obtain ⟨mem, accs, waves, l1, dirty⟩ := complete_of_served served slc a
    refine ⟨_, (cctlComplete_of_clean hr h0 hsnoop hflip).trans (by rw [hc]), mem, accs, waves, l1, fun _ l => ?_⟩
    rw [dirty]
    exact left l

end

end

end Sys2Proof.Machine
end

section
/-!
SUPPORT. PREF: the lines that it brings, and those that it asks hosts for (R249, R271).
-/

namespace Sys2Proof.Machine

open Sys2Proof.Claims

/-- Between `s` and `t` lines of L1 and the SLC have come and gone, and hosts have been asked for copies; nothing else
differs. -/
def Asked (s t : State) : Prop :=
  t = { s with l1 := t.l1, slc := t.slc, home := t.home, dirty := t.dirty, flip := t.flip, fresh := t.fresh, out := t.out, snoop := t.snoop }

theorem Asked.trans {s t u : State} (h : Asked s t) (h' : Asked t u) : Asked s u :=
  Eq.trans h' (congrArg (fun x : State => { x with
    l1 := u.l1, slc := u.slc, home := u.home, dirty := u.dirty, flip := u.flip, fresh := u.fresh, out := u.out, snoop := u.snoop }) h)

theorem asked_of_filled {s t : State} (h : Filled s t) : Asked s t := by
  rw [Asked]
  conv_lhs => rw [h]
  rw [h]

theorem asked_asks {α : Type} (f : α → Nat) (write : Bool) (l : List α) (s : State) :
    Asked s (l.foldl (fun s x => s.ask (f x) write) s) := by
  induction l generalizing s with
  | nil => rfl
  | cons x l ih =>
    have one : Asked s (s.ask (f x) write) := rfl
    exact one.trans (ih _)

theorem filled_prefFill (s : State) (p core pa : Nat) (l1 : Bool) : Filled s (s.prefFill p core pa l1) := by
  unfold State.prefFill
  split
  · exact filled_of_served (served_slcTouch ..)
  · split
    · exact filled_refl s
    · exact filled_l1Fill ..

theorem snoopHeld_of_noCopies {s : State} (h : s.snoop = []) (pa : Nat) (write : Bool) : s.snoopHeld pa write = false := by
  simp [State.snoopHeld, h]

/-- What the prefetches of an instruction leave: lines that come, and where hosts hold some, one access that waits for
those. -/
structure Prefetched (s t : State) (uid : Nat) (ys : List Acc) : Prop where
  accs : t.accs = s.accs ++ ys
  waits : ∀ y ∈ ys, y.op = .pref ∧ y.uid = uid ∧ ∀ l ∈ y.lanes, s.snoopHeld l.pa false = true
  free : s.snoop = [] → ys = [] ∧ t.nextSeq = s.nextSeq ∧ t.snoop = []
  rest : t = { s with
    l1 := t.l1, slc := t.slc, home := t.home, dirty := t.dirty, flip := t.flip, fresh := t.fresh, out := t.out, snoop := t.snoop
    accs := t.accs, nextSeq := t.nextSeq }

theorem prefetched_of_fetches {s r : State} (h : Filled s r) (uid : Nat) : Prefetched s r uid [] := by
  have snoop : r.snoop = s.snoop := (congrArg State.snoop h :)
  have accs : r.accs = s.accs := (congrArg State.accs h :)
  have nextSeq : r.nextSeq = s.nextSeq := (congrArg State.nextSeq h :)
  refine ⟨by rw [accs, List.append_nil], by simp, fun hs => ⟨rfl, nextSeq, snoop.trans hs⟩, ?_⟩
  rw [accs, nextSeq]
  exact asked_of_filled h

theorem prefetched_of_asks {s r : State} (h : Asked s r) {x : Acc} (hop : x.op = .pref) (hne : s.snoop ≠ [])
    (hheld : ∀ l ∈ x.lanes, s.snoopHeld l.pa false = true) : Prefetched s (r.addAcc x) x.uid [{ x with id := r.nextSeq }] := by
  have accs : r.accs = s.accs := (congrArg State.accs h :)
  refine ⟨by rw [← accs]; rfl, fun y hy => ?_, fun hs => absurd hs hne, ?_⟩
  · obtain rfl := List.mem_singleton.1 hy
    exact ⟨hop, rfl, hheld⟩
  · exact congrArg (fun u : State => { u with accs := r.accs ++ [{ x with id := r.nextSeq }], nextSeq := r.nextSeq + 1 }) h

/-- The prefetches of the threads `ls`, and where hosts hold lines of the threads `held`, one access of those. -/
theorem fetches_prefetched (s : State) (p core : Nat) (ls held : List ((Nat × W64) × (Nat × Bool))) {x : Acc}
    (hheld : ∀ y ∈ held, s.snoopHeld y.2.1 false = true) (hop : x.op = .pref)
    (hlanes : x.lanes = held.map fun y => Lane.mk' y.1.1 y.1.2 y.2.1 0 0 y.2.2) :
    let r := ls.foldl (fun s x => s.prefFill p core x.2.1 x.2.2) s
    ∃ ys, Prefetched s (if held.isEmpty then r else (held.foldl (fun s x => s.ask x.2.1 false) r).addAcc x) x.uid ys := by
  intro r
  have filled : Filled s r := filled_foldl (st := id) (fun _ _ => filled_prefFill ..) ls s
  cases held with
  | nil => exact ⟨[], prefetched_of_fetches filled x.uid⟩
  | cons y held =>
    have copies : s.snoop ≠ [] := fun hs =>
      Bool.false_ne_true ((snoopHeld_of_noCopies hs ..).symm.trans (hheld y List.mem_cons_self))
    refine ⟨_, prefetched_of_asks ((asked_of_filled filled).trans (asked_asks ..)) hop copies fun l hl => ?_⟩
    rw [hlanes] at hl
    obtain ⟨z, hz, rfl⟩ := List.mem_map.1 hl
    exact hheld z hz

theorem prefetch_prefetched (s : State) (e : Env) (h : Hdr) (l1 : Bool) (xs : List (Nat × W64)) :
    ∃ ys, Prefetched s (s.prefetch e h l1 xs) e.w.uid ys :=
  fetches_prefetched s _ _ _ _ (fun _ hy => (List.mem_filter.1 hy).2) rfl rfl

section
variable {s : State} {w : Wave} {h : Hdr} {o : PrefOp}

/-- The lines that a PREF names. -/
def prefAddrs (e : Env) (h : Hdr) (o : PrefOp) : List (Nat × W64) :=
  (lanesOf e h false).map fun t => (t, indexAddr e o.a o.b o.scl o.isgn o.off 1 t)

theorem pref_issues (hi : Issues s w (.pref h o) false) (hm : s.memHold w = false) :
    let e := envOf s w (.pref h o) false
    exec (.pref h o) s = .next ((done1 e h (s.enter w e h)).prefetch e h (!o.slc) (prefAddrs e h o)) := by
  intro e
  have misuse : queueMisuse w (.pref h o) (mkEnv s w false (.pref h o)).c0 = none := hi.ports
  have owns : (mkEnv s w false (.pref h o)).ownsTile = false := hi.owner.resolve_left nofun
  have go : exec (.pref h o) s = issue (.pref h o) h false (fun s e => if s.memHold e.w then .hold else .ok)
      (fun e s => (done1 e h s).prefetch e h (!o.slc) (prefAddrs e h o)) s := by
    simp only [exec, execPref, hi.slot, hi.live, hi.fits, misuse, hi.poison, owns, reduceCtorEq, decide_false, Bool.not_true,
      Bool.or_self, Bool.false_eq_true, Option.isSome_none, if_false]
    rfl
  exact go.trans (issue_ok hi (if_neg (by simp [mkEnv, hm])))

/-- A PREF that is dropped pops nothing, and has else the marks of any issue that completes in c + 1. -/
theorem pref_dropped_issued (hw : s.wave? w.id = some w) :
    let e := mkEnv s w false (.pref h o)
    issued s w e h (done1 e h (s.enter w (dropEnv s w h o) h)) (w.sent (dropEnv s w h o) h 1 []) :=
  have sent := sent_issued (e := dropEnv s w h o) (h := h) (lat := 1) (ps := []) rfl hw
  ⟨sent.there, sent.pc, sent.prev, sent.flags, sent.others⟩

end

end Sys2Proof.Machine
end

section
/-! Fences, CCTL and PREF: the statement about them, and its proof. -/

namespace Sys2Proof.Machine

open Sys2Proof.Claims

/-- Settles O21: a fence marks its wave and starts its access, or completes as a .rel; a CCTL by its lines, now or at its end;
a PREF by what its fetches may move. -/
theorem fencesAndCaches : Obligations.FencesAndCaches := by
  refine ⟨?fence, fun s id a k hr hk ho => fenceComplete_ends hr ho, ?cctl, ?pref⟩
  case fence =>
    intro s w h o hi hm e busy pending orders hg
    have hw : s.wave? w.id = some w := wave?_id hi.slot ▸ hi.slot
    have hx : exec (.fence h o) s = .next (if o.kind = .rel then fixed e h 0 [] (s.fenced w e h o)
        else (s.fenced w e h o).addAcc (fenceAcc s e h o)) := fence_issues hi hm hg
    have earlier (id : Nat) : id ∈ s.pendingIds w.uid ∨ id ∈ s.engineIds w.uid ↔ pending id := or_congr_left mem_pendingIds
    have marks : if o.kind = .acq then (w.fenced s e h o).relAfter = w.relAfter ∧ (w.fenced s e h o).relNear = w.relNear
        else orders (w.fenced s e h o) := by
      split
      next ho => exact fenced_acq ho
      next ho =>
        have mem := mem_fenced (s := s) (w := w) (e := e) (h := h) ho
        simp only [earlier] at mem
        exact ⟨fun id => (mem id).1, fun id => (mem id).2⟩
    by_cases ho : o.kind = .rel
    · rw [if_pos ho] at hx
      refine ⟨_, _, hx, rel_issued hw e rfl, rel_waveFrame .., marks, fun _ => ⟨rfl, ?_⟩, fun h => absurd ho h⟩
      exact congrArg (fun t : State => fixed e h 0 [] t) (fenced_rest s w e h o)
    · rw [if_neg ho] at hx
      refine ⟨_, _, hx, issued_of_waves (fenced_issued hw o) rfl, fenced_waveFrame .., marks, fun h => absurd h ho,
        fun _ => ⟨fenced_pend .., { fenceAcc s e h o with id := s.nextSeq }, ?_, rfl, rfl, rfl, rfl, rfl, fun hsc => ?_, fun hsc => ?_⟩⟩
      · exact congrArg (fun t : State => t.addAcc (fenceAcc s e h o)) (fenced_rest s w e h o)
      · have mem := mem_fenceAcc_sc (s := s) (h := h) hsc e
        exact ⟨fun id => (mem id).1.trans (and_congr_right' (earlier id)), fun id => (mem id).2.trans (and_congr_right' (earlier id))⟩
      · obtain ⟨near, after⟩ := fenceAcc_loads (s := s) (h := h) hsc e
        exact ⟨near, fun id => (iff_of_eq (congrArg (id ∈ ·) after)).trans (mem_fenceAfter_loads hsc)⟩
  case cctl =>
    intro s w h r x free starts pair
    have issues {i : Instr} {k : Nat} {rng : Option CctlRng} (hx : exec i s = cctl i h k rng s) (hf : free i) :=
      cctl_issues hx hf.1 hf.2.1 hf.2.2
    refine ⟨fun hf hfree => cctl_starts hf.1 (issues rfl hf fun _ => hfree), fun hf => cctl_starts hf.1 (issues rfl hf nofun),
      fun hf => cctl_starts hf.1 (issues rfl hf nofun), fun hf => ⟨_, issues rfl hf fun _ => .inl rfl, rfl⟩,
      fun hf hs hfl => ⟨_, issues rfl hf fun _ => .inr ⟨hs, hfl⟩, rfl⟩, fun id a hr hfree => cctlComplete_ends hr hfree⟩
  case pref =>
    intro s w h o e
    refine ⟨fun hi hm => ?_, fun hw hl hf hq => ?_⟩
    · have hw : s.wave? w.id = some w := wave?_id hi.slot ▸ hi.slot
      have sent := sent_issued (e := e) (h := h) (lat := 1) (ps := []) rfl hw
      obtain ⟨ys, fetched⟩ := prefetch_prefetched (done1 e h (s.enter w e h)) e h (!o.slc) (prefAddrs e h o)
      have waves := (congrArg State.waves fetched.rest :)
      refine ⟨_, _, pref_issues hi hm, issued_of_waves sent waves, sent_waveFrame w e h 1 [], ?_,
        ⟨ys, fetched.accs, fetched.waits, fetched.free⟩, ?_⟩
      · exact (sent_pend w e h 1 []).trans (by simp)
      · rw [waves]
        exact fetched.rest
    · have hid : s.wave? w.id = some w := wave?_id hw ▸ hw
      obtain ⟨n, hn⟩ := Option.isSome_iff_exists.1 hq
      exact ⟨_, _, pref_misuse hw hl hf hn, pref_dropped_issued hid, sent_waveFrame w _ h 1 [],
        (sent_pend w _ h 1 []).trans (by simp; rfl), rfl⟩

end Sys2Proof.Machine
end

section
/-! Partition control: the statement about it, and a state that refutes it. -/

namespace Sys2Proof.Machine.ByteListedTwice

/-- A partition about to write its image, of the header and the directory alone, to address 0. -/
def saving : Part := { Part.reset with run := .save 0 false 3 0 }

/-- A memory that lists the byte at address 5 twice. -/
def before : State := { State.reset with grade := .e, parts := [saving], mem := [(5, 1), (5, 1)] }

/-- The image has 0 at byte 5, the high half of its version: the write takes one entry of memory away, and the other is read. -/
theorem written_byte_unread :
    (match exec (.imageWritten 0) before with
      | .next t => t.rdByte 5 = 1 && t.images.all fun x => x.bytes.length = imgHdr && x.bytes[5]? = some 0
      | _ => false) = true := by decide +kernel

end Sys2Proof.Machine.ByteListedTwice

namespace Sys2Proof.Machine

open ByteListedTwice in
/-- Refutes O46: the clause on step 4 of a SAVE has the image stand in memory, and asks nothing of the form that memory has,
as the clauses on COMMIT do. Where memory lists a byte twice, a 0 that is written over it takes one entry away and uncovers
the other; no step makes such a memory of a canonical one, but the statement is of every state. -/
theorem not_partitionCommands : ¬ Obligations.PartitionCommands := by
  intro h
  obtain ⟨-, saves, -⟩ := h
  obtain ⟨-, -, -, -, -, written⟩ := saves before 0 saving 0 rfl
  obtain ⟨t, d', x, hx, -, -, -, -, -, hmem, -, -, -, stands, -⟩ := written 0 false 0 rfl (by decide +kernel) rfl rfl
  have unread := written_byte_unread
  simp only [hx, Bool.and_eq_true, decide_eq_true_eq, List.all_eq_true] at unread
  obtain ⟨byte, image⟩ := unread
  obtain ⟨length, zero⟩ := image x hmem
  have fifth : (t.rdBytes 0 x.bytes.length)[5]? = some (t.rdByte 5) := by
    rw [rdBytes_eq_map, length, List.getElem?_map, List.getElem?_range (by decide)]
    rfl
  rw [stands (by rw [length]; decide) fun _ _ _ => rfl, zero, byte] at fifth
  exact absurd fifth (by decide)

end Sys2Proof.Machine
end

section
/-! Host memory: the statement about it, and a state that refutes it. -/

namespace Sys2Proof.Machine.ByteListedTwiceAtHome

/-- The first line of host 0's memory. -/
def line : Nat := 0x400000000000 / 128

/-- The SLC holds the line modified, all 0, and its home lists the first byte twice. -/
def before : State := { State.reset with grade := .e, dirty := [line], home := [(128 * line, 1), (128 * line, 1)] }

/-- The line's way home takes one entry of the home away, and the other is read. -/
theorem sent_byte_unread :
    (match exec (.hostSnoop 0 line false) before with
      | .next t => t.home.get (128 * line) ≠ before.rdByte (128 * line)
      | _ => false) = true := by decide +kernel

end Sys2Proof.Machine.ByteListedTwiceAtHome

namespace Sys2Proof.Machine

open ByteListedTwiceAtHome in
/-- Refutes O47: the clause on the snoop of a line by its home has the home hold what the SLC held modified, and asks nothing
of the form of the contents at the homes, as the clause on a flip's write-backs does. Where the home lists a byte twice, a 0
that comes to it takes one entry away and uncovers the other; no step makes such a home of a canonical one, but the statement
is of every state. -/
theorem not_hostMemory : ¬ Obligations.HostMemory := by
  intro h
  obtain ⟨-, copies, -⟩ := h
  obtain ⟨-, snooped, -⟩ := copies before 0 line false fun _ _ => rfl
  obtain ⟨t, hx, -, -, home, -⟩ := snooped (by decide +kernel) (by decide +kernel)
  have byte := home 0 (by decide) (by decide)
  have unread := sent_byte_unread
  simp only [hx, ne_eq, decide_not, Bool.not_eq_true', decide_eq_false_iff_not] at unread
  exact unread byte

end Sys2Proof.Machine
end

section
/-! Launches of the device: the statement about them, and a state that refutes it. -/

namespace Sys2Proof.Machine.RecordJustStored

/-- A wave whose pair S10 names a record at 0x1000, and its store of the record's first word, which has yet to be performed. -/
def writer : Wave := { Wave.fresh 0 ⟨0, 0, 0⟩ ⟨0, 0, 0⟩ 0 wideKern 0 0 with s := [(10, 0x1000)] }

def stored : Acc :=
  { id := 0, uid := 0, w := ⟨0, 0, 0⟩, grp := ⟨0, 0, 0⟩, op := .store, tag := .b32, ord := .weak, sco := .wave, sf := 15,
    ready := 0, dst := .none, lanes := [Lane.mk' 0 0x1000 0x1000 0x101 0 false], puts := [], args := [], after := [],
    near := [], left := none, told := false, redo := false, served := 0, lim := none }

/-- The page at address 0 is cached in the pipe of core 0, and the wave is about to enqueue what it has written. -/
def before : State :=
  { State.reset with
    waves := [writer], accs := [stored], nextSeq := 1, tlb := [⟨0, 3, 0, 0, 0x19F, State.reset.classes 0, true, [0]⟩] }

def plain : Hdr := { guard := none, st := 0, wt := 0, sf := 15, yl := false, ru := 0 }

theorem writer_issues : Issues before writer (.launchEnq plain 4 10) true :=
  ⟨by decide +kernel, by decide +kernel, by decide +kernel, by decide +kernel, by decide +kernel, by decide +kernel,
    .inl rfl, by decide +kernel⟩

/-- The record's address has its translation. -/
theorem record_translated : before.xlate (some 0) 0 .read 64 [(0, 0x1000)] = .ok [(0, 0x1000, 0x1000, false)] := by
  decide +kernel

/-- The access that reads the record names the store of its word, though the wave's fences name nothing. -/
theorem read_names_store :
    (match exec (.launchEnq plain 4 10) before with
      | .next t => t.accs.getLast?.map Acc.near
      | _ => none) = some [stored.id] := by decide +kernel

end Sys2Proof.Machine.RecordJustStored

namespace Sys2Proof.Machine

open RecordJustStored in
/-- Refutes O38: the clause on the access that LAUNCH.enq starts has its list of what comes before it at .wave and .grp be
that of the wave's fences. The access is ordered as a store is, and names there the wave's outstanding accesses of its words
too (R257 row a); a wave that has just stored its record has one. The release at .dev names them as well, so the record is
read no later for it; but the statement is of the list. -/
theorem not_deviceLaunches : ¬ Obligations.DeviceLaunches := by
  intro h
  obtain ⟨issues, -⟩ := h
  obtain ⟨enq, -⟩ := issues before writer plain 4 10 .launch false
  obtain ⟨t, w', x, hx, started, ⟨-, -, -, -, -, near, -⟩, -⟩ := enq [(0, 0x1000, 0x1000, false)] writer_issues
    (by decide +kernel) (by decide +kernel) (by decide +kernel) (by decide +kernel) (by decide +kernel) record_translated
  have read := read_names_store
  rw [hx] at read
  have named : writer.relNear = [stored.id] := by simpa [started.accs, near] using read
  exact absurd named (by decide)

end Sys2Proof.Machine
end

section
/-!
SUPPORT. What every step keeps of the stores' canonical form: the relation `Keeps`, and what the operations that change a
store, a wave, a group or an image do to it.
-/

namespace Sys2Proof.Sparse

variable {w : Nat}

theorem wfFrom_filter (p : Nat × BitVec w → Bool) {lo : Nat} {m : Sparse w} (hm : wfFrom lo m = true) :
    wfFrom lo (m.filter p) = true := by
  induction m generalizing lo with
  | nil => rfl
  | cons c m ih =>
    obtain ⟨j, x⟩ := c
    simp only [wfFrom, Bool.and_eq_true, decide_eq_true_eq] at hm
    by_cases hp : p (j, x)
    · simp only [List.filter_cons, hp, if_true, wfFrom, Bool.and_eq_true, decide_eq_true_eq]
      exact ⟨hm.1, ih hm.2⟩
    · simp only [List.filter_cons, hp]
      exact wfFrom_mono (by omega) (ih hm.2)

/-- Entries left out of a store leave it in canonical form. -/
theorem wf_filter (p : Nat × BitVec w → Bool) {m : Sparse w} (hm : m.wf = true) : wf (m.filter p) = true :=
  wfFrom_filter p hm

/-- Writes one after another keep the canonical form, whatever each of them writes. -/
theorem wf_foldl_set {α : Type} (k : α → Nat) (x : α → BitVec w) (l : List α) {m : Sparse w} (hm : m.wf = true) :
    (l.foldl (fun m a => m.set (k a) (x a)) m).wf = true := by
  induction l generalizing m with
  | nil => exact hm
  | cons a l ih => exact ih (wf_set hm _ _)

end Sys2Proof.Sparse

namespace Sys2Proof.Machine

open Sys2Proof.Claims

/-- Of what is stored, `t` has in canonical form whatever `s` has: memory and the homes, the windows, and the register files. -/
def Keeps (s t : State) : Prop :=
  (Memory.wf s.mem = true ∧ Memory.wf s.home = true → Memory.wf t.mem = true ∧ Memory.wf t.home = true) ∧
  (windowsWf s = true → windowsWf t = true) ∧ (filesWf s = true → filesWf t = true)

/-- A step that goes on keeps what is in canonical form. -/
def GoesOn (s : State) (r : Res) : Prop := ∀ t, r = .next t → Keeps s t

variable {s t u : State}

theorem windowsWf_iff : windowsWf s = true ↔
    (∀ g ∈ s.groups, Memory.wf g.window = true) ∧ ∀ x ∈ s.images, ∀ g ∈ x.groups, Memory.wf g.window = true := by
  simp [windowsWf]

theorem filesWf_iff : filesWf s = true ↔
    (∀ w ∈ s.waves, fileWf w = true) ∧ ∀ x ∈ s.images, ∀ w ∈ x.waves, fileWf w = true := by
  simp [filesWf]

theorem fileWf_iff {w : Wave} : fileWf w = true ↔
    Sparse.wf w.v = true ∧ Sparse.wf w.s = true ∧ Sparse.wf w.p = true ∧ Sparse.wf w.flags = true ∧ Sparse.wf w.h = true := by
  simp [fileWf, and_assoc]

namespace Keeps

@[refl] theorem refl (s : State) : Keeps s s := ⟨id, id, id⟩

@[trans] theorem trans (h : Keeps s t) (k : Keeps t u) : Keeps s u :=
  ⟨k.1 ∘ h.1, k.2.1 ∘ h.2.1, k.2.2 ∘ h.2.2⟩

theorem foldl {α : Type} {f : State → α → State} {l : List α} (h : Keeps s t)
    (hf : ∀ {u} (a : α), Keeps s u → Keeps s (f u a)) :
    Keeps s (l.foldl f t) := by
  induction l generalizing t with
  | nil => exact h
  | cons a l ih => exact ih (hf a h)

/-! #### The stores of memory -/

theorem withMem {m : Memory} (h : Keeps s t) (hm : Memory.wf t.mem = true → Memory.wf m = true) :
    Keeps s { t with mem := m } :=
  ⟨fun k => ⟨hm (h.1 k).1, (h.1 k).2⟩, h.2.1, h.2.2⟩

theorem withHome {m : Memory} (h : Keeps s t) (hm : Memory.wf t.home = true → Memory.wf m = true) :
    Keeps s { t with home := m } :=
  ⟨fun k => ⟨(h.1 k).1, hm (h.1 k).2⟩, h.2.1, h.2.2⟩

/-! #### Waves, groups and images -/

theorem withWaves {ws : List Wave} (h : Keeps s t)
    (hw : filesWf s = true → (∀ w ∈ t.waves, fileWf w = true) → ∀ w ∈ ws, fileWf w = true) :
    Keeps s { t with waves := ws } := by
  refine ⟨h.1, h.2.1, fun k => ?_⟩
  obtain ⟨h1, h2⟩ := filesWf_iff.mp (h.2.2 k)
  exact filesWf_iff.mpr ⟨hw k h1, h2⟩

theorem withGroups {gs : List Group} (h : Keeps s t)
    (hg : windowsWf s = true → (∀ g ∈ t.groups, Memory.wf g.window = true) → ∀ g ∈ gs, Memory.wf g.window = true) :
    Keeps s { t with groups := gs } := by
  refine ⟨h.1, fun k => ?_, h.2.2⟩
  obtain ⟨h1, h2⟩ := windowsWf_iff.mp (h.2.1 k)
  exact windowsWf_iff.mpr ⟨hg k h1, h2⟩

end Keeps

/-- A change of some elements keeps what holds of all, if it keeps it of each that it changes. -/
theorem forall_upd {α : Type} {P : α → Prop} {p : α → Bool} {f : α → α} {l : List α} (h : ∀ x ∈ l, P x)
    (hf : ∀ x ∈ l, p x = true → P x → P (f x)) : ∀ x ∈ upd p f l, P x := by
  intro x hx
  obtain ⟨y, hy, rfl⟩ := List.mem_map.mp hx
  by_cases hp : p y = true
  · rw [if_pos hp]; exact hf y hy hp (h y hy)
  · rw [if_neg hp]; exact h y hy

namespace Keeps

theorem updWaves {p : Wave → Bool} {f : Wave → Wave} (h : Keeps s t)
    (hf : filesWf s = true → ∀ w, fileWf w = true → fileWf (f w) = true) : Keeps s { t with waves := upd p f t.waves } :=
  h.withWaves fun k hw => forall_upd hw fun w _ _ => hf k w

theorem mapWaves {f : Wave → Wave} (h : Keeps s t) (hf : ∀ w, fileWf w = true → fileWf (f w) = true) :
    Keeps s { t with waves := t.waves.map f } :=
  h.withWaves fun _ hw => List.forall_mem_map.mpr fun w m => hf w (hw w m)

theorem filterWaves {p : Wave → Bool} (h : Keeps s t) : Keeps s { t with waves := t.waves.filter p } :=
  h.withWaves fun _ hw w m => hw w (List.mem_of_mem_filter m)

theorem updGroups {p : Group → Bool} {f : Group → Group} (h : Keeps s t)
    (hf : ∀ g, Memory.wf g.window = true → Memory.wf (f g).window = true) : Keeps s { t with groups := upd p f t.groups } :=
  h.withGroups fun _ hg => forall_upd hg fun g _ _ => hf g

theorem filterGroups {p : Group → Bool} (h : Keeps s t) : Keeps s { t with groups := t.groups.filter p } :=
  h.withGroups fun _ hg g m => hg g (List.mem_of_mem_filter m)

/-- A change of one wave. -/
theorem modWave {id : WaveId} {f : Wave → Wave} (h : Keeps s t) (hf : ∀ w, fileWf w = true → fileWf (f w) = true) :
    Keeps s (t.modWave id f) := h.updWaves fun _ => hf

theorem modUid {uid : Nat} {f : Wave → Wave} (h : Keeps s t) (hf : ∀ w, fileWf w = true → fileWf (f w) = true) :
    Keeps s (t.modUid uid f) := h.updWaves fun _ => hf

/-- A wave takes the place of one. -/
theorem setWave {id : WaveId} {w : Wave} (h : Keeps s t) (hw : filesWf s = true → fileWf w = true) :
    Keeps s (t.modWave id fun _ => w) := h.updWaves fun k _ _ => hw k

theorem modGroup {id : GroupId} {f : Group → Group} (h : Keeps s t)
    (hf : ∀ g, Memory.wf g.window = true → Memory.wf (f g).window = true) : Keeps s (t.modGroup id f) := h.updGroups hf

end Keeps

theorem fileWf_of_wave? {id : WaveId} {w : Wave} (hw : s.wave? id = some w) (h : filesWf s = true) : fileWf w = true :=
  (filesWf_iff.mp h).1 w (List.mem_of_find?_eq_some hw)

theorem fileWf_of_waveUid? {uid : Nat} {w : Wave} (hw : s.waveUid? uid = some w) (h : filesWf s = true) : fileWf w = true :=
  (filesWf_iff.mp h).1 w (List.mem_of_find?_eq_some hw)

theorem Keeps.ite {a b : State} {c : Prop} [Decidable c] (h : Keeps s a) (k : Keeps s b) :
    Keeps s (if c then a else b) := by
  split
  · exact h
  · exact k

/-- Nothing else of the state counts. -/
theorem Keeps.rest {cycle tickAcc fresh nextSeq : Nat} {timebase lfsave : W64} {agenda : List (Nat × Instr)}
    {eager biasRes : Bool}
    {events : List Event} {todo : List (Nat × Nat)} {posts : List Post} {trq : List TrEv} {cur : WaveId}
    {grade : Grade} {accs : List Acc} {launches : List Launch} {graphs : List Graph} {jobs : List Job}
    {parts : List Part} {dirty poison bias : List Nat} {slc : List SlcLine} {l1 ic : List Line} {tlb : List Tlb}
    {walks : List WalkEntry} {fb : List FbEntry} {fbwait : List FbWait} {snoop : List Snoop} {flip : Option Flip}
    {bfpage : BitVec 28} {cullet : List Cullet} {culletUse : List CulletUse} {slccfg : BitVec 24}
    {clusters : List Cluster} {cores : List Core} {active : Option Nat} {ports : List HostPort} {hpstat : Byte}
    {cxwin : List CxWin} {err : ErrLog} {mg : Mgmt} {out : List Out}
    (h : Keeps s t) :
    Keeps s
        (State.mk cycle timebase tickAcc agenda eager events todo posts trq cur fresh nextSeq grade t.waves accs t.groups launches
      graphs jobs parts t.images t.mem t.home dirty slc poison l1 ic tlb walks fb fbwait bias snoop flip bfpage
      biasRes cullet culletUse slccfg clusters cores active ports hpstat lfsave cxwin err mg out) := h

namespace GoesOn

theorem next (h : Keeps s t) : GoesOn s (.next t) := fun _ e => by cases e; exact h

theorem fault {f : Fault} : GoesOn s (.fault f) := nofun

theorem ite {a b : Res} {c : Prop} [Decidable c] (h : GoesOn s a) (k : GoesOn s b) : GoesOn s (if c then a else b) := by
  split
  · exact h
  · exact k

end GoesOn

/-! #### Bytes written -/

theorem Keeps.wrByte {pa : Nat} {x : Byte} (h : Keeps s t) : Keeps s (t.wrByte pa x) :=
  h.withMem fun k => Sparse.wf_set k _ _

theorem Keeps.wrBytes {pa : Nat} {bs : List Byte} (h : Keeps s t) : Keeps s (t.wrBytes pa bs) := by
  induction bs generalizing t pa with
  | nil => exact h
  | cons b bs ih => exact ih h.wrByte

theorem Keeps.sendHome {k : Nat} (h : Keeps s t) : Keeps s (t.sendHome k) := by
  unfold State.sendHome
  split
  · exact h.withHome fun hm => Sparse.wf_foldl_set _ _ _ hm
  · exact h

theorem Keeps.fileWf_wave? {id : WaveId} {w : Wave} (h : Keeps s t) (hw : t.wave? id = some w) :
    filesWf s = true → fileWf w = true := fun k => fileWf_of_wave? hw (h.2.2 k)

theorem Keeps.fileWf_waveUid? {uid : Nat} {w : Wave} (h : Keeps s t) (hw : t.waveUid? uid = some w) :
    filesWf s = true → fileWf w = true := fun k => fileWf_of_waveUid? hw (h.2.2 k)

end Sys2Proof.Machine
end

section
/-!
SUPPORT. Launches, units, translation, the slice, L1 and the traces: what the operations on them keep.
-/

namespace Sys2Proof.Machine

open Sys2Proof.Claims

variable {s t : State}

theorem Keeps.modLaunch {p lid : Nat} {f : Launch → Launch} (h : Keeps s t) : Keeps s (t.modLaunch p lid f) := by
  unfold State.modLaunch
  exact h

theorem Keeps.modJob {p jid : Nat} {f : Job → Job} (h : Keeps s t) : Keeps s (t.modJob p jid f) := by
  unfold State.modJob
  exact h

theorem Keeps.modGraph {p jid gi : Nat} {f : Graph → Graph} (h : Keeps s t) : Keeps s (t.modGraph p jid gi f) := by
  unfold State.modGraph
  exact h

theorem Keeps.modPart {p : Nat} {f : Part → Part} (h : Keeps s t) : Keeps s (t.modPart p f) := by
  unfold State.modPart
  exact h

theorem Keeps.modCore {c : Nat} {f : Core → Core} (h : Keeps s t) : Keeps s (t.modCore c f) := by
  unfold State.modCore
  exact h

theorem Keeps.modCluster {c : Nat} {f : Cluster → Cluster} (h : Keeps s t) : Keeps s (t.modCluster c f) := by
  unfold State.modCluster
  exact h

theorem Keeps.modAcc {id : Nat} {f : Acc → Acc} (h : Keeps s t) : Keeps s (t.modAcc id f) := by
  unfold State.modAcc
  exact h

theorem Keeps.dropAcc {id : Nat} (h : Keeps s t) : Keeps s (t.dropAcc id) := by
  unfold State.dropAcc
  exact h

theorem Keeps.wrNat {pa n x : Nat} (h : Keeps s t) : Keeps s (t.wrNat pa n x) := by
  unfold State.wrNat
  exact h.wrBytes

theorem Keeps.cleanKey {k : Nat} (h : Keeps s t) : Keeps s (t.cleanKey k) := by
  dsimp only [State.cleanKey]
  split
  · exact .ite (.rest h.sendHome) h
  · exact h.sendHome

theorem Keeps.cleanLine {line : Nat} (h : Keeps s t) : Keeps s (t.cleanLine line) := by
  unfold State.cleanLine
  exact h.cleanKey

theorem Keeps.slcDrop {line : Nat} (h : Keeps s t) : Keeps s (t.slcDrop line) := by
  unfold State.slcDrop
  exact .rest h.cleanLine

theorem Keeps.askLine {line : Nat} {own : Bool} (h : Keeps s t) : Keeps s (t.askLine line own) := by
  dsimp only [State.askLine]
  split
  · exact h
  · exact h

theorem Keeps.slcTouch {ways pa : Nat} {own : Bool} (h : Keeps s t) : Keeps s (t.slcTouch ways pa own) := by
  dsimp only [State.slcTouch, State.free]
  split
  · exact h
  · split
    · exact .ite (.askLine h) h
    · split
      · exact .askLine h
      · split
        · exact h.askLine
        · exact .askLine (.rest (.slcDrop h))

theorem Keeps.slcWrite {ways pa : Nat} {bs : List Byte} (h : Keeps s t) : Keeps s (t.slcWrite ways pa bs) := by
  unfold State.slcWrite
  exact .ite h.slcTouch.wrBytes h.slcTouch.wrBytes.cleanLine

theorem Keeps.flipAnswered {host line : Nat} (h : Keeps s t) : Keeps s (t.flipAnswered host line) := by
  unfold State.flipAnswered
  exact h

theorem Keeps.merge {x : Snoop} (h : Keeps s t) : Keeps s (t.merge x) := by
  unfold State.merge
  exact .flipAnswered (.ite (.slcWrite h) h)

theorem Keeps.ask {pa : Nat} {write : Bool} (h : Keeps s t) : Keeps s (t.ask pa write) := by
  unfold State.ask
  exact h

theorem Keeps.reclaim {pa : Nat} {write : Bool} (h : Keeps s t) : Keeps s (t.reclaim pa write) := by
  unfold State.reclaim
  exact .foldl h.ask fun _ h => h.merge

theorem Keeps.reclaimRange {pa len : Nat} {write : Bool} (h : Keeps s t) : Keeps s (t.reclaimRange pa len write) := by
  unfold State.reclaimRange
  exact .foldl h fun _ h => h.reclaim

theorem Keeps.wrOut {ways pa : Nat} {bs : List Byte} (h : Keeps s t) : Keeps s (t.wrOut ways pa bs) := by
  unfold State.wrOut
  exact .wrBytes (.foldl h fun _ h => h.reclaim.slcTouch)

theorem Keeps.l1Clear {core : Nat} (h : Keeps s t) : Keeps s (t.l1Clear core) := by
  unfold State.l1Clear
  exact h

theorem Keeps.l1Drop {core line : Nat} (h : Keeps s t) : Keeps s (t.l1Drop core line) := by
  unfold State.l1Drop
  exact h

theorem Keeps.msix {vec : Nat} (h : Keeps s t) : Keeps s (t.msix vec) := by
  dsimp only [State.msix]
  split
  · exact h
  · split
    · exact h
    · exact .ite h h

theorem Keeps.fqDrain {p n : Nat} (h : Keeps s t) : Keeps s (t.fqDrain p n) := by
  induction n generalizing t with
  | zero => exact h
  | succ n ih =>
    dsimp only [State.fqDrain]
    split
    · exact h
    · exact .ite (ih (.msix h.wrOut)) h

theorem Keeps.fqPost {p : Nat} {bytes : List Byte} (h : Keeps s t) : Keeps s (t.fqPost p bytes) := by
  unfold State.fqPost
  exact h.modPart.fqDrain

theorem Keeps.trWrite {ways base size off : Nat} {bs : List Byte} (h : Keeps s t) :
    Keeps s (t.trWrite ways base size off bs) := by
  induction bs generalizing t off with
  | nil => exact h
  | cons b bs ih => exact ih h.wrOut

theorem Keeps.modTrace {core : Nat} {f : Trace → Trace} (h : Keeps s t) : Keeps s (t.modTrace core f) := by
  unfold State.modTrace
  exact h.modCore

theorem Keeps.trDrop {core : Nat} {src : TrSrc} {timed : Bool} (h : Keeps s t) : Keeps s (t.trDrop core src timed) := by
  unfold State.trDrop
  exact h.modTrace

theorem Keeps.trPut {core base size : Nat} {src : TrSrc} {timed : Bool} {bytes : List Byte} (h : Keeps s t) :
    Keeps s (t.trPut core base size src timed bytes) := by
  unfold State.trPut
  exact .ite h.trWrite.modTrace h.trDrop

theorem Keeps.trSync {core base size : Nat} {src : TrSrc} (h : Keeps s t) : Keeps s (t.trSync core base size src) := by
  unfold State.trSync
  exact .ite h.trPut.trPut.trPut.modTrace h.trDrop.trDrop.trDrop

theorem Keeps.trLoss {core : Nat} (h : Keeps s t) : Keeps s (t.trLoss core) := by
  dsimp only [State.trLoss]
  split
  · exact .ite h h.modTrace.trPut.trSync
  · exact h

theorem Keeps.trSyncDue {core base size : Nat} {src : TrSrc} (h : Keeps s t) : Keeps s (t.trSyncDue core base size src) := by
  unfold State.trSyncDue
  exact .ite h.trSync h

theorem Keeps.trPacket {core base size : Nat} {src : TrSrc} {p : TrPkt} (h : Keeps s t) :
    Keeps s (t.trPacket core base size src p) := by
  dsimp only [State.trPacket]
  split
  · exact h.trSyncDue.trPut
  · exact .ite h.trSyncDue.trPut (.ite h.trSyncDue.trPut.trSyncDue.trPut (.trDrop (.ite h.trSyncDue.trDrop h.trSyncDue)))

theorem Keeps.trEvent {e : TrEv} (h : Keeps s t) : Keeps s (t.trEvent e) := by
  dsimp only [State.trEvent]
  split
  · exact h
  · exact .trLoss
      (.modTrace
          (.foldl
              (.ite h.trLoss.trSyncDue
                  (.ite h.trLoss.trSyncDue.trPut.modTrace h.trLoss.trSyncDue.trDrop)) fun _ h => h.trPacket))

theorem Keeps.trFlush (h : Keeps s t) : Keeps s t.trFlush := by
  unfold State.trFlush
  exact .foldl h fun _ h => .rest (.trEvent h)

theorem Keeps.trKeep {gone : Wave → Bool} (h : Keeps s t) : Keeps s (t.trKeep gone) := by
  unfold State.trKeep
  exact h

theorem Keeps.traceFrom {w : Wave} {src : TrSrc} {ps : List TrPkt} (h : Keeps s t) : Keeps s (t.traceFrom w src ps) := by
  unfold State.traceFrom
  exact .ite h h

theorem Keeps.trace {w : Wave} {ps : List TrPkt} (h : Keeps s t) : Keeps s (t.trace w ps) := by
  unfold State.trace
  exact h.traceFrom

theorem Keeps.dsDrain {p n : Nat} (h : Keeps s t) : Keeps s (t.dsDrain p n) := by
  induction n generalizing t with
  | zero => exact h
  | succ n ih =>
    dsimp only [State.dsDrain]
    split
    · exact h
    · exact .ite (ih (.ite h.wrOut.modPart.msix h.wrOut.modPart)) h

theorem Keeps.dsPost {w : Wave} {d : Due} {kind : Nat} (h : Keeps s t) : Keeps s (t.dsPost w d kind) := by
  unfold State.dsPost
  exact .ite h.modPart.dsDrain h

theorem Keeps.dbgStop {w : Wave} {d : Due} {kind : Nat} (h : Keeps s t) : Keeps s (t.dbgStop w d kind) := by
  unfold State.dbgStop
  exact .modWave h.dsPost fun _ => id

theorem Keeps.fbLeave {r : Requester} (h : Keeps s t) : Keeps s (t.fbLeave r) := by
  unfold State.fbLeave
  exact h

theorem fileWf_stop {w : Wave} (h : fileWf w = true) : fileWf w.stop = true := h

theorem Keeps.stopWaves {which : Wave → Bool} (h : Keeps s t) : Keeps s (t.stopWaves which) := by
  unfold State.stopWaves
  exact .foldl (Keeps.updWaves (f := Wave.stop) h fun _ _ => fileWf_stop) fun _ h => h.fbLeave

theorem Keeps.stopGroup {g : GroupId} (h : Keeps s t) : Keeps s (t.stopGroup g) := by
  dsimp only [State.stopGroup]
  split
  · exact h
  · exact .rest (.fbLeave (.modGroup h.stopWaves fun _ => id))

theorem Keeps.killGroup {w : Wave} {kind cause : Nat} {retpc : W64} (h : Keeps s t) :
    Keeps s (t.killGroup w kind cause retpc) := by
  unfold State.killGroup
  exact h.stopGroup.fqPost

theorem Keeps.trapEntryOf {w : Wave} {src : TrSrc} {cause : Nat} {retpc tval : W64} (h : Keeps s t) :
    Keeps s (t.trapEntryOf w src cause retpc tval) := by
  dsimp only [State.trapEntryOf]
  split
  · exact h.killGroup
  · exact .traceFrom (.modWave h.fbLeave fun _ => id)

theorem Keeps.trapEntry {w : Wave} {cause : Nat} {retpc tval : W64} (h : Keeps s t) :
    Keeps s (t.trapEntry w cause retpc tval) := by
  unfold State.trapEntry
  exact h.trapEntryOf

theorem Keeps.trapAt {w : Wave} {cause : Nat} {retpc tval : W64} (h : Keeps s t) :
    Keeps s (t.trapAt w cause retpc tval) := by
  dsimp only [State.trapAt]
  split
  · exact .modWave h fun _ => id
  · exact .modWave h fun _ => id

/-- A count on or off a flag. -/
theorem fileWf_flag {w : Wave} (h : fileWf w = true) (f : Nat) (x : BitVec 6) :
    fileWf { w with flags := w.flags.set f x } = true := by
  obtain ⟨hv, hs, hp, hf, hh⟩ := fileWf_iff.mp h
  exact fileWf_iff.mpr ⟨hv, hs, hp, Sparse.wf_set hf _ _, hh⟩

theorem Keeps.trapBack {w : Wave} {sf : BitVec 4} {cause : Nat} {tval : W64} (h : Keeps s t)
    (hw : filesWf s = true → fileWf w = true) : Keeps s (t.trapBack w sf cause tval) := by
  unfold State.trapBack
  refine .trapEntry (.setWave h fun k => ?_)
  split
  · exact fileWf_flag (hw k) _ _
  · exact hw k

theorem fileWf_atPath {w : Wave} (h : fileWf w = true) : fileWf w.atPath = true := by
  unfold Wave.atPath
  split
  · split <;> exact h
  · exact h

theorem Keeps.takeDue {w : Wave} (h : Keeps s t) (hw : filesWf s = true → fileWf w = true) : Keeps s (t.takeDue w) := by
  have h := h.setWave (id := w.atPath.id) fun k => fileWf_atPath (hw k)
  dsimp only [State.takeDue]
  split
  · split
    · exact h.dbgStop
    · refine .ite (.modWave ?_ fun _ => id) ?_ <;> exact .trapEntryOf (.foldl h fun _ h => .ite h.dsPost h)
  · exact h.dbgStop
  · exact h

end Sys2Proof.Machine
end

section
/-!
SUPPORT. What changes of a wave keep of its register files; walks, issue and the landing of results.
-/

namespace Sys2Proof.Machine

open Sys2Proof.Claims

variable {s t : State}

theorem Keeps.coherentWalk {p : Nat} {va : W64} (h : Keeps s t) : Keeps s (t.coherentWalk p va) := by
  unfold State.coherentWalk
  exact .ite h
      (.foldl (.foldl (.foldl h fun _ h => .ite h h.reclaim) fun _ h => .ite h h.reclaim) fun _ h => .ite h h.reclaim)

theorem Keeps.walkKeep {p : Nat} {va : W64} (h : Keeps s t) : Keeps s (t.walkKeep p va) := by
  unfold State.walkKeep State.free
  exact h

theorem Keeps.tlbEvict {held : Tlb → Bool} {max : Nat} {drop : Tlb → Tlb} (h : Keeps s t) :
    Keeps s (t.tlbEvict held max drop) := by
  unfold State.tlbEvict State.free
  exact .ite h h

theorem Keeps.tlbFill {core : Option Nat} {p : Nat} {va : W64} {lvl pa : Nat} {attr : BitVec 9} (h : Keeps s t) :
    Keeps s (t.tlbFill core p va lvl pa attr) := by
  dsimp only [State.tlbFill]
  split
  · refine .tlbEvict ?_
    refine .rest ?_
    split
    · exact h.modPart
    · exact h
  · refine .tlbEvict ?_
    refine .tlbEvict ?_
    refine .rest ?_
    split
    · exact h.modPart
    · exact h

theorem Keeps.missJoin {p : Nat} {va : W64} {k : AccKind} {r : Requester} (h : Keeps s t) :
    Keeps s (t.missJoin p va k r) := by
  dsimp only [State.missJoin, State.free]
  split
  · exact h
  · exact .ite h (.ite h h)

/-! #### What a wave's own operations keep of its register files -/

/-- A predicate written. -/
theorem fileWf_pred {w : Wave} (h : fileWf w = true) (n : Nat) (x : W64) : fileWf { w with p := w.p.set n x } = true := by
  obtain ⟨hv, hs, hp, hf, hh⟩ := fileWf_iff.mp h
  exact fileWf_iff.mpr ⟨hv, hs, Sparse.wf_set hp _ _, hf, hh⟩

theorem fileWf_setSat {w : Wave} (h : fileWf w = true) (x : Byte) : fileWf (w.setSat x) = true := by
  have fold (l : List (Nat × Byte)) {w : Wave} (h : fileWf w = true) :
      fileWf (l.foldl (fun w t => { w with p := w.tstPut t x }) w) = true := by
    induction l generalizing w with
    | nil => exact h
    | cons a l ih => exact ih (fileWf_pred h _ _)
  exact fold _ (w := { w with sat := x }) h

theorem fileWf_land {w : Wave} (h : fileWf w = true) (x : Put) : fileWf (w.land x) = true := by
  obtain ⟨hv, hs, hp, hf, hh⟩ := fileWf_iff.mp h
  cases x with
  | v r xs => exact fileWf_iff.mpr ⟨Sparse.wf_foldl_set _ _ _ hv, hs, hp, hf, hh⟩
  | s r x => exact fileWf_iff.mpr ⟨hv, Sparse.wf_set hs _ _, hp, hf, hh⟩
  | p n th b => exact fileWf_pred h _ _
  | flag f => exact fileWf_flag h _ _
  | sat b => exact fileWf_setSat h _
  | satClr m => exact fileWf_setSat h _
  | satTst pd m => exact fileWf_pred h _ _
  | csr n x =>
    dsimp only [Wave.land]
    repeat' split
    all_goals exact h
  | satArm _ _ => exact h
  | pri _ _ => exact h
  | cancel _ _ => exact h
  | kill _ _ _ => exact h
  | entered _ _ => exact h

theorem fileWf_lands (ps : List Put) {w : Wave} (h : fileWf w = true) : fileWf (ps.foldl Wave.land w) = true := by
  induction ps generalizing w with
  | nil => exact h
  | cons x ps ih => exact ih (fileWf_land h x)

theorem fileWf_landDue {w : Wave} (h : fileWf w = true) (now : Nat) : fileWf (w.landDue now) = true :=
  fileWf_lands _ (fileWf_lands _ (fileWf_lands _ (w := { w with pend := w.pend.filter fun p => ¬ p.due ≤ now }) h))

theorem fileWf_decSf {w : Wave} (h : fileWf w = true) (sf : BitVec 4) (n : Nat) : fileWf (w.decSf sf n) = true := by
  unfold Wave.decSf
  split <;> exact h

theorem fileWf_incSf {w : Wave} (h : fileWf w = true) (sf : BitVec 4) : fileWf (w.incSf sf) = true := by
  unfold Wave.incSf
  split
  · exact fileWf_flag h _ _
  · exact h

theorem fileWf_stepDue {w : Wave} (h : fileWf w = true) : fileWf w.stepDue = true := by
  unfold Wave.stepDue
  split <;> exact h

theorem fileWf_issued {w : Wave} (h : fileWf w = true) (e : Env) (hd : Hdr) : fileWf (w.issued e hd) = true :=
  fileWf_incSf h hd.sf

theorem fileWf_backFlag {w : Wave} (h : fileWf w = true) (sf : BitVec 4) :
    fileWf { w with flags := if sf.toNat < 12 then w.flags.set sf.toNat (w.flags.get sf.toNat - 1) else w.flags } = true := by
  split
  · exact fileWf_flag h _ _
  · exact h

/-- A wave back at its head instruction counts on its flag no more. -/
theorem fileWf_unwait {w : Wave} (h : fileWf w = true) : fileWf w.unwait = true := by
  unfold Wave.unwait
  extract_lets back
  cases w.wait with
  | bar => exact fileWf_backFlag h _
  | addr => exact fileWf_backFlag h _
  | link => exact fileWf_backFlag h _
  | none => exact h
  | sleep => exact h
  | arrive => exact h
  | handle => exact h
  | unlink => exact h

theorem fileWf_satTest {w : Wave} (h : fileWf w = true) : fileWf w.satTest = true := by
  dsimp only [Wave.satTest]
  split <;> exact h

theorem fileWf_waitDone {w : Wave} (h : fileWf w = true) (pd : BitVec 7) (x : Bool) (sat : Byte) (sf : BitVec 4) (now : Nat)
    (ds : List Due) : fileWf (w.waitDone pd x sat sf now ds) = true :=
  fileWf_decSf (fileWf_satTest (fileWf_land (fileWf_setSat h _) _)) _ _

/-- A successor's restart drops registers and predicates (R40). -/
theorem fileWf_restart {w : Wave} (h : fileWf w = true) (k : Nat) (pc : W64) (free : Nat) :
    fileWf (w.restart k pc free) = true := by
  obtain ⟨hv, hs, -, hf, hh⟩ := fileWf_iff.mp h
  exact fileWf_iff.mpr ⟨Sparse.wf_filter _ hv, hs, rfl, hf, hh⟩

theorem fileWf_pathDone {w : Wave} (h : fileWf w = true) (lfarm : Bool) : fileWf (w.pathDone lfarm) = true := by
  dsimp only [Wave.pathDone]
  split
  · exact h
  · split <;> exact h

theorem fileWf_fenceRel {w : Wave} (h : fileWf w = true) (s : State) (sco : Scope) : fileWf (w.fenceRel s sco) = true := by
  dsimp only [Wave.fenceRel]
  split <;> exact h

theorem fileWf_charge {w : Wave} (h : fileWf w = true) (r : Nat) : fileWf (w.charge r) = true := by
  dsimp only [Wave.charge]
  split <;> exact h

theorem fileWf_ageStep {w : Wave} (h : fileWf w = true) (s : State) : fileWf (s.ageStep w) = true := by
  dsimp only [State.ageStep]
  split
  · exact h
  · split <;> exact h

theorem fileWf_linkStep {w : Wave} (h : fileWf w = true) (s : State) (w0 : Wave) : fileWf (s.linkStep w0 w) = true := by
  dsimp only [State.linkStep]
  split <;> exact h

theorem fileWf_passCycle {w : Wave} (h : fileWf w = true) (s : State) (cs : List Wave) (free gated : Bool) :
    fileWf (s.passCycle cs free gated w) = true := by
  have aged (c : Bool) : fileWf (if c = true then w else s.ageStep w) = true := by
    split
    · exact h
    · exact fileWf_ageStep h s
  unfold State.passCycle
  extract_lets inBeats other passed old w1
  split
  · exact h
  · exact fileWf_linkStep (fileWf_charge (aged _) _) s w

theorem fileWf_begin {w : Wave} (h : fileWf w = true) (now : Nat) : fileWf (w.begin now) = true := by
  have k := fileWf_landDue (w := { w with stw := none, tst := [], tprio := w.prio }) h now
  dsimp only [Wave.begin]
  split <;> exact k

/-- A wave as it is placed has nothing in its registers. -/
theorem fileWf_fresh (uid : Nat) (id : WaveId) (g : GroupId) (k : Nat) (kern : Kern) (prio now : Nat) :
    fileWf (Wave.fresh uid id g k kern prio now) = true := rfl

theorem fileWf_saved {w : Wave} (h : fileWf w = true) : fileWf w.saved = true := fileWf_landDue h _

theorem wf_canon {w : Nat} (m : Sparse w) : Sparse.wf (Sparse.canon m) = true :=
  Sparse.wf_foldl_set _ _ m rfl

theorem fileWf_canon (w : Wave) : fileWf w.canon = true :=
  fileWf_iff.mpr ⟨wf_canon _, wf_canon _, wf_canon _, wf_canon _, wf_canon _⟩

theorem fileWf_waitaAgain {w : Wave} (h : fileWf w = true) (s : State) (p : Nat) (rng : Option (Nat × Nat))
    (gone : List Tlb) :
    fileWf (s.waitaAgain p rng gone w) = true := by
  dsimp only [State.waitaAgain]
  split
  · split
    · split
      · exact h
      · exact fileWf_unwait h
    · exact h
  · exact h

theorem fileWf_waveBack {w : Wave} (h : fileWf w = true) (s : State) (off : W64) : fileWf (s.waveBack off w) = true := by
  dsimp only [State.waveBack]
  split
  · exact h
  · exact h
  · split
    · exact h
    · split
      · exact h
      · exact fileWf_unwait (w := { w with last := _, met := _ }) h
  · exact h
  · exact h

theorem Keeps.fbGrant {p fuel : Nat} (h : Keeps s t) : Keeps s (t.fbGrant p fuel) := by
  induction fuel generalizing t with
  | zero => exact h
  | succ n ih =>
    dsimp only [State.fbGrant]
    split
    · split
      · exact h
      · exact ih (.foldl h fun _ h => h.missJoin)
    · exact h

theorem Keeps.park {w : Wave} {i : Option Instr} {ms : List Miss} (h : Keeps s t) : Keeps s (t.park w i ms) := by
  unfold State.park
  exact .foldl (.modWave h fun _ => id) fun _ h => h.missJoin

theorem Keeps.enter {w : Wave} {e : Env} {hd : Hdr} (h : Keeps s t) : Keeps s (t.enter w e hd) := by
  refine .modCore (.modWave h fun w k => fileWf_issued ?_ _ _)
  split
  · exact k
  · exact fileWf_stepDue k

theorem Keeps.oneshot {w : Wave} {cause : Nat} (h : Keeps s t) : Keeps s (t.oneshot w cause) := by
  unfold State.oneshot
  exact .ite (.modWave h fun _ => id) h

theorem Keeps.judge {w : Wave} {i : Instr} {c : Chk} {go : State → State} (h : Keeps s t) (hg : Keeps s (go t)) :
    Keeps s (t.judge w i c go) := by
  dsimp only [State.judge]
  split
  · exact hg
  · exact h
  · exact h.trapAt.oneshot
  · exact h.trapAt
  · exact h.dsPost.trapAt.oneshot
  · exact h.dbgStop.oneshot
  · exact h.park

/-- An issue keeps what its instruction's own effect keeps; the wave of the effect's environment is one of the state's. -/
theorem goesOn_issue {i : Instr} {hd : Hdr} {u : Bool} {chk : State → Env → Chk} {eff : Env → State → State} (h : Keeps s t)
    (k : ∀ (e : Env) (v : State), (filesWf s = true → fileWf e.w = true) → Keeps s v → Keeps s (eff e v)) :
    GoesOn s (issue i hd u chk eff t) := by
  dsimp only [issue]
  split
  · exact .fault
  · rename_i w hw
    have key : ∀ {c}, Keeps s (t.judge w i c fun v => eff (mkEnv t w u i) (v.enter w (mkEnv t w u i) hd)) :=
      h.judge (k _ _ (fun f => fileWf_of_wave? hw (h.2.2 f)) h.enter)
    have trap : ∀ {c}, Keeps s (t.judge w i c id) := h.judge h
    refine .ite .fault (.ite (.next trap) ?_)
    split
    · exact .next trap
    · exact .ite (.next h) (.next key)
    · exact .ite (.next h) (.next trap)

theorem keeps_fixed {e : Env} {hd : Hdr} {lat : Nat} {ps : List Put} (h : Keeps s t) : Keeps s (fixed e hd lat ps t) :=
  .modWave h fun _ k => fileWf_decSf (w := Wave.add _ _ _) k _ _

theorem keeps_done1 {e : Env} {hd : Hdr} (h : Keeps s t) : Keeps s (done1 e hd t) := by
  unfold done1
  exact keeps_fixed h

theorem Keeps.addAcc {a : Acc} (h : Keeps s t) : Keeps s (t.addAcc a) := by
  unfold State.addAcc
  exact h

theorem Keeps.landIn {a : Acc} {ps : List Put} (h : Keeps s t) : Keeps s (t.landIn a ps) := by
  refine .modUid h fun w k => ?_
  split
  · exact k
  · exact fileWf_decSf (w := Wave.marks _ _ _) (fileWf_lands _ k) _ _

theorem Keeps.complete {a : Acc} {ps : List Put} (h : Keeps s t) : Keeps s (t.complete a ps) := by
  unfold State.complete
  exact h.landIn.dropAcc

theorem Keeps.walk {p : Nat} {va : W64} {k : AccKind} {r : WalkRes × State} (h : Keeps s t) (e : t.walk p va k = r) :
    Keeps s r.2 := by
  subst e
  dsimp only [State.walk]
  split
  · split
    · exact .ite h h.slcWrite
    · exact h
  · exact h

end Sys2Proof.Machine
end

section
/-!
SUPPORT. Vector, scalar and control instructions, loads, stores, fences and prefetches.
-/

namespace Sys2Proof.Machine

open Sys2Proof.Claims

variable {s t : State}

theorem goesOn_mould {i : Instr} {hd : Hdr} {uu : Bool} {d : Dst} {dw : Bool} {f : Env → Nat → W64 × Byte} (h : Keeps s t) :
    GoesOn s (mould i hd uu d dw f t) := by
  unfold mould
  exact goesOn_issue h fun e _ k h => keeps_fixed h

theorem goesOn_mouldP {i : Instr} {hd : Hdr} {uu : Bool} {pd : BitVec 7} {f : Env → Nat → Bool} (h : Keeps s t) :
    GoesOn s (mouldP i hd uu pd f t) := by
  unfold mouldP
  exact goesOn_issue h fun e _ k h => keeps_fixed h

theorem goesOn_transfer {i : Instr} {hd : Hdr} {take : Env → Bool} {target : Env → W64} {link : Option (BitVec 8)}
    {tr : Bool → W64 → List TrPkt} (h : Keeps s t) :
    GoesOn s (transfer i hd take target link tr t) := by
  dsimp only [transfer]
  refine goesOn_issue h fun e u k h => ?_
  split
  · refine .modWave ?_ fun _ => id
    refine .trace ?_
    split
    · exact keeps_fixed h
    · exact keeps_done1 h
  · exact .trace (keeps_done1 h)

theorem goesOn_execExitSucc {hd : Hdr} {idx : BitVec 2} {kovr : Bool} {k : BitVec 9} (h : Keeps s t) :
    GoesOn s (execExitSucc hd idx kovr k t) := by
  dsimp only [execExitSucc]
  refine goesOn_issue h fun e u _ h => ?_
  split
  · exact .modWave (.rest h.trace) fun _ k => fileWf_restart k _ _ _
  · exact .trace (keeps_done1 h)

theorem goesOn_execYieldExpiry {id : WaveId} (h : Keeps s t) : GoesOn s (execYieldExpiry id t) := by
  unfold execYieldExpiry
  exact .next (.modWave h fun w k => by split <;> exact k)

theorem goesOn_execSleepWake {id : WaveId} (h : Keeps s t) : GoesOn s (execSleepWake id t) := by
  refine .next (.modWave h fun w k => ?_)
  cases w.wait with
  | sleep x => dsimp only; split <;> exact k
  | _ => exact k

theorem goesOn_execWaveAged {id : WaveId} (h : Keeps s t) : GoesOn s (execWaveAged id t) := by
  unfold execWaveAged
  exact .next (.modWave h fun w k => by split <;> exact k)

theorem goesOn_execXvi {hd : Hdr} {d : BitVec 8} {a : BitVec 9} (h : Keeps s t) : GoesOn s (execXvi hd d a t) := by
  dsimp only [execXvi]
  refine goesOn_issue h fun e u _ h => ?_
  split
  · exact .trace (.modWave (keeps_fixed h) fun w k => fileWf_stepDue (w := w.xviEnd _ _) k)
  · exact .modWave (keeps_fixed h) fun _ => id

theorem goesOn_scalarPair {i : Instr} {hd : Hdr} {d : BitVec 8} {f : Env → W64} (h : Keeps s t) :
    GoesOn s (scalarPair i hd d f t) := by
  unfold scalarPair
  exact goesOn_issue h fun e _ k h => keeps_fixed h

theorem goesOn_alu3 {i : Instr} {hd : Hdr} {o : Alu3} {f : Nat → ℤ → ℤ → ℤ → W64} (h : Keeps s t) :
    GoesOn s (alu3 i hd o f t) := by
  unfold alu3
  exact goesOn_mould h

theorem goesOn_aluB {i : Instr} {hd : Hdr} {o : Alu3} {f : Nat → Nat → Nat → Nat → Nat} (h : Keeps s t) :
    GoesOn s (aluB i hd o f t) := by
  unfold aluB
  exact goesOn_mould h

theorem goesOn_aluBits {i : Instr} {hd : Hdr} {o : Alu3} {f : W64 → W64 → W64} (h : Keeps s t) :
    GoesOn s (aluBits i hd o f t) := by
  unfold aluBits
  exact goesOn_mould h

theorem goesOn_aluCount {i : Instr} {hd : Hdr} {o : Alu2} {f : Nat → W64 → Nat} (h : Keeps s t) :
    GoesOn s (aluCount i hd o f t) := by
  unfold aluCount
  exact goesOn_mould h

theorem Keeps.l1Store {core pa : Nat} {bytes : List Byte} (h : Keeps s t) : Keeps s (t.l1Store core pa bytes) := by
  unfold State.l1Store
  exact h

theorem Keeps.l1Eng {g : GroupId} {core line : Nat} (h : Keeps s t) : Keeps s (t.l1Eng g core line) := by
  unfold State.l1Eng
  exact h

theorem Keeps.l1Acquire {g : GroupId} {core : Nat} {sco : Scope} (h : Keeps s t) : Keeps s (t.l1Acquire g core sco) := by
  unfold State.l1Acquire
  exact .ite h.l1Clear h

theorem Keeps.leave {id : Nat} (h : Keeps s t) : Keeps s (t.leave id) := by
  dsimp only [State.leave]
  split
  · exact h
  · exact .ite h (.foldl (.modAcc h) fun _ h => .ite h.l1Store h.l1Drop)

theorem Keeps.setLane {id : Nat} {l : Lane} (h : Keeps s t) : Keeps s (t.setLane id l) := by
  unfold State.setLane
  exact h.modAcc

theorem Keeps.unpoison {id line : Nat} (h : Keeps s t) : Keeps s (t.unpoison id line) := by
  dsimp only [State.unpoison]
  split
  · exact h
  · exact .ite h h

theorem Keeps.l1Fill {ways core line id : Nat} {r : List Byte × State} (h : Keeps s t) (e : t.l1Fill ways core line id = r) :
    Keeps s r.2 := by
  subst e
  dsimp only [State.l1Fill, State.free]
  split
  · exact h.slcTouch
  · split
    · exact .rest h.slcTouch.l1Drop
    · exact .rest h.slcTouch.l1Drop

theorem Keeps.l1Load {ways core pa n id : Nat} {r : List Byte × Bool × State} (h : Keeps s t)
    (e : t.l1Load ways core pa n id = r) : Keeps s r.2.2 := by
  subst e
  unfold State.l1Load
  generalize State.linesOf pa n = l, ([] : List Byte) = bs, false = p
  induction l generalizing t bs p with
  | nil => exact h
  | cons x l ih => exact ih (h.l1Fill rfl) _ _

theorem Keeps.perform {a : Acc} {l : Lane} {r : Lane × State} (h : Keeps s t) (e : t.perform a l = r) : Keeps s r.2 := by
  subst e
  dsimp only [State.perform]
  split
  · split
    · exact h.l1Load rfl
    · exact .foldl h fun _ h => h.slcTouch
  · split
    · exact h.l1Load rfl
    · exact .foldl h fun _ h => h.slcTouch
  · split
    · exact h.l1Load rfl
    · exact .foldl h fun _ h => h.slcTouch
  · split
    · exact h.l1Load rfl
    · exact .foldl h fun _ h => h.slcTouch
  · split
    · exact h.l1Load rfl
    · exact .foldl h fun _ h => h.slcTouch
  · exact h.slcWrite
  · split
    · exact h.l1Drop
    · exact h.l1Drop.slcWrite
  · split
    · exact h.l1Drop
    · exact h.l1Drop.slcWrite
  · exact h

theorem Keeps.performReady {id : Nat} {ls : List Lane} (h : Keeps s t) : Keeps s (t.performReady id ls) := by
  induction ls generalizing t with
  | nil => exact h
  | cons l ls ih =>
    dsimp only [State.performReady]
    split
    · exact h
    · exact .ite (ih (.unpoison (.setLane (h.perform rfl)))) (ih (.ite h.ask h))

theorem Keeps.reserve {w : WaveId} {q : BitVec 4} {wide : Bool} {acc : Nat} (h : Keeps s t) :
    Keeps s (t.reserve w q wide acc) := by
  unfold State.reserve
  exact .modWave h fun _ => id

theorem Keeps.startLoad {a : Acc} {bound : List Nat} (h : Keeps s t) : Keeps s (t.startLoad a bound) := by
  unfold State.startLoad State.free
  exact .addAcc (.ite h (.foldl h fun _ h => .ite h.l1Drop h))

theorem Keeps.pushDst {e : Env} {d : Dst} {wide : Bool} (h : Keeps s t) : Keeps s (t.pushDst e d wide) := by
  dsimp only [State.pushDst]
  split
  · exact h.reserve
  · exact h

theorem Keeps.startAtom {e : Env} {hd : Hdr} {o : GlAtom} {op : AccOp} {dst : AccDst} (h : Keeps s t) :
    Keeps s (t.startAtom e hd o op dst) := by
  unfold State.startAtom
  exact h.addAcc

theorem Keeps.performAll {id : Nat} (h : Keeps s t) : Keeps s (t.performAll id) := by
  dsimp only [State.performAll]
  split
  · exact .ite h.leave h.leave.performReady
  · exact h.leave

theorem goesOn_execSliceAluPerform {id tm : Nat} (h : Keeps s t) : GoesOn s (execSliceAluPerform id tm t) := by
  dsimp only [execSliceAluPerform]
  split
  · exact .next h
  · split
    · exact .next h
    · split
      · exact .next h
      · exact .next h.leave.performReady

theorem Keeps.acquired {a : Acc} (h : Keeps s t) : Keeps s (t.acquired a) := by
  unfold State.acquired
  exact .ite h.l1Acquire h

theorem Keeps.loadDone {a : Acc} (h : Keeps s t) : Keeps s (t.loadDone a) := by
  dsimp only [State.loadDone]
  split
  · exact h.acquired.complete
  · exact .modUid h.acquired.complete fun w k => by split <;> exact k

theorem goesOn_execGlobalLoadComplete {id : Nat} (h : Keeps s t) : GoesOn s (execGlobalLoadComplete id t) := by
  dsimp only [execGlobalLoadComplete]
  split
  · exact .next h
  · split
    · exact .next h
    · split
      · exact .next h.performAll
      · exact .ite (.next h.performAll.loadDone) (.next h.performAll)

theorem goesOn_execEntryArrive {id : Nat} (h : Keeps s t) : GoesOn s (execEntryArrive id t) := by
  dsimp only [execEntryArrive]
  split
  · exact .next h
  · split
    · split
      · exact .next h.performAll
      · exact .ite (.next (.modUid h.performAll.acquired.complete fun w k => by split <;> exact k)) (.next h.performAll)
    · exact .next h

theorem goesOn_execGlobalStorePerformed {id : Nat} (h : Keeps s t) : GoesOn s (execGlobalStorePerformed id t) := by
  dsimp only [execGlobalStorePerformed]
  split
  · exact .next h
  · split
    · split
      · exact .next h.leave
      · exact .ite (.next h.leave.landIn.modAcc) (.next h.leave)
    · split
      · exact .next h.performAll
      · exact .ite (.next (.ite h.performAll.dropAcc h.performAll.complete)) (.next h.performAll)

theorem Keeps.fenceRel {sco : Scope} {id : WaveId} {c : Prop} [Decidable c] (h : Keeps s t) :
    Keeps s (if c then t else t.modWave id fun w => w.fenceRel t sco) :=
  .ite h (.modWave h fun _ k => fileWf_fenceRel k _ _)

theorem goesOn_execFence {hd : Hdr} {o : FenceOp} (h : Keeps s t) : GoesOn s (execFence hd o t) := by
  dsimp only [execFence]
  refine goesOn_issue h fun e u _ h => ?_
  split
  · exact keeps_done1 h
  · exact .ite (keeps_fixed h.fenceRel) (.addAcc h.fenceRel)

theorem goesOn_execFenceComplete {id : Nat} (h : Keeps s t) : GoesOn s (execFenceComplete id t) := by
  dsimp only [execFenceComplete]
  split
  · exact .next h
  · exact .ite (.next h.l1Acquire.complete) (.next h)

theorem Keeps.coherentRange {p : Nat} {va : W64} {len : Nat} (h : Keeps s t) : Keeps s (t.coherentRange p va len) := by
  unfold State.coherentRange
  exact .ite h (.foldl h fun _ h => h.coherentWalk)

theorem Keeps.coherentWaits {p : Nat} {ws : List Wave} (h : Keeps s t) : Keeps s (t.coherentWaits p ws) := by
  dsimp only [State.coherentWaits]
  refine .foldl h fun x h => ?_
  split
  · exact .ite h.coherentWalk h
  · exact h

theorem goesOn_cctl {i : Instr} {hd : Hdr} {k : Nat} {rng : Option CctlRng} (h : Keeps s t) :
    GoesOn s (cctl i hd k rng t) := by
  dsimp only [cctl]
  refine goesOn_issue h fun e u k h => ?_
  split
  · exact keeps_done1 h
  · refine .addAcc ?_
    split
    · exact h
    · split
      · exact h.l1Clear
      · exact .rest h.coherentRange

theorem goesOn_execCctlComplete {id : Nat} (h : Keeps s t) : GoesOn s (execCctlComplete id t) := by
  dsimp only [execCctlComplete]
  split
  · exact .next h
  · exact .ite (.next h.complete)
      (.ite (.next h)
          (.ite (.next h.coherentRange)
              (.next (.complete
                  (.ite (.rest (.foldl h.coherentRange fun _ h => h.cleanKey))
                      (.foldl h.coherentRange fun _ h => h.cleanKey))))))

theorem Keeps.blockRead {w : Wave} {pa : Nat} {l1 : Bool} {r : List Byte × Bool × State} (h : Keeps s t)
    (e : t.blockRead w pa l1 = r) : Keeps s r.2.2 := by
  subst e
  dsimp only [State.blockRead]
  split
  · exact h.slcTouch
  · split
    · exact h
    · exact h.l1Load rfl

theorem Keeps.prefFill {p core pa : Nat} {l1 : Bool} (h : Keeps s t) : Keeps s (t.prefFill p core pa l1) := by
  exact .ite h.slcTouch (.ite h (h.l1Fill rfl))

theorem Keeps.prefetch {e : Env} {hd : Hdr} {l1 : Bool} {xs : List (Nat × W64)} (h : Keeps s t) :
    Keeps s (t.prefetch e hd l1 xs) := by
  unfold State.prefetch
  exact .ite (.foldl h fun _ h => h.prefFill) (.addAcc (.foldl (.foldl h fun _ h => h.prefFill) fun _ h => h.ask))

theorem Keeps.prefStep {a : Acc} (h : Keeps s t) : Keeps s (t.prefStep a) := by
  unfold State.prefStep
  exact .ite (.dropAcc (.foldl h fun _ h => h.prefFill)) (.modAcc (.foldl (.foldl h fun _ h => h.prefFill) fun _ h => h.ask))

theorem goesOn_execPref {hd : Hdr} {o : PrefOp} (h : Keeps s t) : GoesOn s (execPref hd o t) := by
  dsimp only [execPref]
  split
  · exact goesOn_issue h fun e _ k h => .prefetch (keeps_done1 h)
  · exact .ite (goesOn_issue h fun e _ k h => .prefetch (keeps_done1 h))
      (.ite (.next (keeps_done1 h.enter))
          (.ite (.next (.ite h (keeps_done1 h.enter))) (goesOn_issue h fun e _ k h => .prefetch (keeps_done1 h))))

theorem goesOn_execQstatComplete {id : Nat} (h : Keeps s t) : GoesOn s (execQstatComplete id t) := by
  dsimp only [execQstatComplete]
  split
  · exact .next h
  · exact .next h.complete

theorem goesOn_execSldkComplete {id : Nat} (h : Keeps s t) : GoesOn s (execSldkComplete id t) := by
  dsimp only [execSldkComplete]
  split
  · exact .next h
  · split
    · exact .next h.performAll
    · exact .ite (.next (.ite h.performAll.complete h.performAll.loadDone)) (.next h.performAll)

end Sys2Proof.Machine
end

section
/-!
SUPPORT. Scratchpad, barriers, WAITA, traps and fault handlers, and the fetch.
-/

namespace Sys2Proof.Machine

open Sys2Proof.Claims

variable {s t : State}

theorem Keeps.takePort {e : Env} {acc : Nat} {atom : Bool} {xs : List (Nat × Nat)} (h : Keeps s t) :
    Keeps s (t.takePort e acc atom xs) := by
  unfold State.takePort
  exact h.modCore

theorem Keeps.startSp {e : Env} {a : Acc} {store rel atom : Bool} (h : Keeps s t) :
    Keeps s (t.startSp e a store rel atom) := by
  unfold State.startSp
  exact h.takePort.addAcc

theorem goesOn_spAtomic {i : Instr} {hd : Hdr} {o : SpAtom} {op : AccOp} {dst : AccDst} {rd : Bool} (h : Keeps s t) :
    GoesOn s (spAtomic i hd o op dst rd t) := by
  unfold spAtomic
  exact goesOn_issue h fun _ _ _ h => h.startSp

theorem Keeps.bankUse {core : Nat} {x : Service} (h : Keeps s t) : Keeps s (t.bankUse core x) := by
  unfold State.bankUse
  exact h.modCore

theorem Keeps.performSp {a : Acc} {l : Lane} (h : Keeps s t) : Keeps s (t.performSp a l).2 := by
  dsimp only [State.performSp]
  split
  · exact h
  · split
    · exact h
    · exact h.modGroup fun g k => Group_wrNat_wf k _ _ _
    · exact h.modGroup fun g k => Group_wrNat_wf k _ _ _
    · exact h.modGroup fun g k => Group_wrNat_wf k _ _ _
    · exact h.modGroup fun g k => Group_wrNat_wf k _ _ _
    · exact h

theorem Keeps.performSpAll {perf : State → Acc → Lane → Lane × State} {a : Acc} {ls : List Lane}
    (hp : ∀ {u} (l : Lane), Keeps s u → Keeps s (perf u a l).2) (h : Keeps s t) : Keeps s (t.performSpAll perf a ls).2 := by
  induction ls generalizing t with
  | nil => exact h
  | cons l ls ih =>
    refine ih ?_
    split
    · exact h
    · exact hp l h.bankUse

theorem goesOn_scratchpadOp {perf : State → Acc → Lane → Lane × State} {a : Acc}
    (hp : ∀ {u} (l : Lane), Keeps s u → Keeps s (perf u a l).2) (h : Keeps s t) : GoesOn s (scratchpadOp perf a t) := by
  have k := h.performSpAll hp (ls := a.lanes)
  exact .ite (.next (.ite k.acquired.complete k.modAcc)) (.next h)

theorem Keeps.barrierPut {id : GroupId} {x : Nat} {new : W64} {last : Bool} (h : Keeps s t) :
    Keeps s (t.modGroup id fun g => if last then g.flip x new else g.put x (leBytes 8 new.toNat)) := by
  refine h.modGroup fun g k => ?_
  split <;> exact winSet_wf k _ _

theorem goesOn_execBarrierArrival {id : Nat} (h : Keeps s t) : GoesOn s (execBarrierArrival id t) := by
  dsimp only [execBarrierArrival]
  split
  · exact .next h
  · rename_i a _
    have live {w : Wave}
        (e : (t.waveUid? a.uid).filter (fun w => w.life = .live) = some w) : filesWf s = true → fileWf w = true :=
      h.fileWf_waveUid? (Option.filter_eq_some_iff.mp e).1
    refine .ite (.next h) ?_
    split
    · refine .ite (.next h) ?_
      split
      · exact .next h.bankUse.dropAcc
      · rename_i e
        exact .next (h.bankUse.dropAcc.trapBack (live e :))
      · refine .ite (.next h) ?_
        split
        · exact .next h.bankUse.barrierPut.complete
        · exact .next (h.bankUse.barrierPut.complete.modUid fun _ k => k)
    · exact .next h.dropAcc

theorem Keeps.waitDone {id : WaveId} {pd : BitVec 7} {x : Bool} {sat : Byte} {sf : BitVec 4} {now : Nat} {ds : List Due}
    (h : Keeps s t) : Keeps s (t.modWave id fun w => w.waitDone pd x sat sf now ds) :=
  h.modWave fun _ k => fileWf_waitDone k _ _ _ _ _ _

theorem Keeps.bwaitRead {w : Wave} {pd : BitVec 7} {tok : W32} {sf : BitVec 4} {late : Bool} (h : Keeps s t) :
    Keeps s (t.bwaitRead w pd tok sf late) :=
  .ite h.l1Acquire.waitDone (.ite h.waitDone h)

theorem goesOn_execBwaitWake {id : WaveId} (h : Keeps s t) : GoesOn s (execBwaitWake id t) := by
  dsimp only [execBwaitWake]
  split
  · exact .next h
  · split
    · exact .next (.ite h h.bwaitRead)
    · exact .next h

theorem goesOn_execBwaitTimeout {id : WaveId} (h : Keeps s t) : GoesOn s (execBwaitTimeout id t) := by
  dsimp only [execBwaitTimeout]
  split
  · exact .next h
  · split
    · exact .next (.ite h h.bwaitRead)
    · exact .next h

theorem goesOn_execBtestComplete {id : Nat} (h : Keeps s t) : GoesOn s (execBtestComplete id t) := by
  dsimp only [execBtestComplete]
  split
  · exact .next h
  · exact .ite (.next h) (.ite (.next h) (.next (.complete (.ite h.bankUse.l1Acquire h.bankUse))))

theorem Keeps.waitaTry {w : Wave} {o : WaitaOp} {va : W64} {pa : Option Nat} {v : W64} {sf : BitVec 4} {late : Bool}
    (h : Keeps s t) (hw : filesWf s = true → fileWf w = true) : Keeps s (t.waitaTry w o va pa v sf late) := by
  unfold State.waitaTry
  extract_lets now fin t' u
  have fin {x v} (h : Keeps s v) : Keeps s (fin x v) := .waitDone (.ite h.l1Acquire h)
  have h : Keeps s t' := by
    unfold t'
    split
    · exact .ite h h.ask
    · exact h
  split
  · have h : Keeps s u := .ite h h.slcTouch
    exact .ite (h.trapBack hw) (.ite (fin h) (.ite (fin h) h))
  · exact .ite (fin h) h

theorem goesOn_execWaita {hd : Hdr} {o : WaitaOp} (h : Keeps s t) : GoesOn s (execWaita hd o t) := by
  dsimp only [execWaita]
  refine goesOn_issue h fun e u k h => ?_
  split
  · split
    · exact .modWave h fun w k => fileWf_decSf (fileWf_satTest k) _ _
    · exact .ite h.waitDone (.modWave h fun _ => id)
    · exact .waitaTry (.modWave h fun _ => id) k
  · exact keeps_done1 h

theorem goesOn_execWaitaWake {id : WaveId} (h : Keeps s t) : GoesOn s (execWaitaWake id t) := by
  dsimp only [execWaitaWake]
  split
  · exact .next h
  · have hw := h.fileWf_wave? ‹_›
    split
    · exact .ite (.next (h.waitaTry hw)) (.next h)
    · exact .next h

theorem goesOn_execWaitaPeriodicReread {id : WaveId} (h : Keeps s t) : GoesOn s (execWaitaPeriodicReread id t) := by
  dsimp only [execWaitaPeriodicReread]
  split
  · exact .next h
  · have hw := h.fileWf_wave? ‹_›
    split
    · exact .ite (.next (.waitaTry (.modWave h fun _ k => k) hw)) (.next h)
    · exact .next h

theorem goesOn_execWaitaTimeout {id : WaveId} (h : Keeps s t) : GoesOn s (execWaitaTimeout id t) := by
  dsimp only [execWaitaTimeout]
  split
  · exact .next h
  · have hw := h.fileWf_wave? ‹_›
    split
    · exact .next (.ite h (h.waitaTry hw))
    · exact .next h

theorem goesOn_faultret {i : Instr} {hd : Hdr} {mode : Env → FaultSave → Option (Option (W64 × Sparse 64 × W64))}
    (h : Keeps s t) :
    GoesOn s (faultret i hd mode t) := by
  dsimp only [faultret]
  refine goesOn_issue h fun e u k h => ?_
  split
  · exact .ite (.trace (.modWave (keeps_done1 h) fun _ => id)) (.trace (keeps_done1 h))
  · exact .trace (keeps_done1 h)

theorem Keeps.faultEnter {w : Wave} {i : Instr} {ms : List Miss} {cause lvl : Nat} (h : Keeps s t) :
    Keeps s (t.faultEnter w i ms cause lvl) := by
  unfold State.faultEnter
  extract_lets word fmask low m at_ regs u
  clear_value regs fmask
  refine .trace (.modWave h fun w k => ?_)
  obtain ⟨hv, hs, hp, hf, hh⟩ := fileWf_iff.mp k
  exact fileWf_iff.mpr ⟨hv, Sparse.wf_foldl_set _ _ _ hs, hp, hf, hh⟩

theorem Keeps.settle {uid : Nat} (h : Keeps s t) : Keeps s (t.settle uid) := by
  dsimp only [State.settle]
  split
  · exact h
  · refine .ite h ?_
    split
    · exact h.trapEntry
    · exact h.faultEnter
    · exact h

theorem Keeps.icEvict {core : Nat} (h : Keeps s t) : Keeps s (t.icEvict core) := by
  unfold State.icEvict State.free
  exact .ite h h

theorem Keeps.icFill {w : Wave} (h : Keeps s t) : Keeps s (t.icFill w) := by
  dsimp only [State.icFill]
  split
  · exact .foldl h fun _ h => .ite h (.ite h.ask (.icEvict (.rest h.slcTouch)))
  · exact h

theorem goesOn_execInstructionFetchReturn {id : WaveId} (h : Keeps s t) : GoesOn s (execInstructionFetchReturn id t) := by
  dsimp only [execInstructionFetchReturn]
  split
  · exact .next h
  · exact .ite (.next h.icFill) (.next h)

theorem Keeps.askBlock {w : Wave} (h : Keeps s t) : Keeps s (t.askBlock w) := by
  dsimp only [State.askBlock]
  split
  · exact h
  · split
    · split
      · exact h.ask
      · exact h
    · exact h

end Sys2Proof.Machine
end

section
/-!
SUPPORT. Tiles and their queues, the copy engine, ray and texture instructions.
-/

namespace Sys2Proof.Machine

open Sys2Proof.Claims

variable {s t : State}

theorem Keeps.modTile {g : GroupId} {f : Tile → Tile} (h : Keeps s t) : Keeps s (t.modTile g f) := by
  unfold State.modTile
  exact .modGroup h fun _ => id

theorem Keeps.enqueue {g : GroupId} {core : Nat} {x : GEntry} (h : Keeps s t) : Keeps s (t.enqueue g core x) := by
  unfold State.enqueue
  exact h.modTile

theorem Keeps.post {e : Env} {hd : Hdr} {c : GCmd} {after rel : List Nat} (h : Keeps s t) :
    Keeps s (t.post e hd c after rel) := by
  unfold State.post
  exact .enqueue h

theorem goesOn_command {i : Instr} {hd : Hdr} {bad : Env → Tile → List (Nat × W64)} {mem : Bool} {c : Env → GCmd}
    {after rel : State → Env → List Nat} (h : Keeps s t) :
    GoesOn s (command i hd bad mem c after rel t) := by
  unfold command
  exact goesOn_issue h fun e _ k h => .ite h.post (keeps_done1 h)

theorem Keeps.tryLink {id : WaveId} (h : Keeps s t) : Keeps s (t.tryLink id) := by
  dsimp only [State.tryLink]
  split
  · exact h
  · split
    · exact .ite (.modWave h.modTile fun _ k => fileWf_decSf k _ _) h
    · exact h

theorem goesOn_execLinkComplete {id : WaveId} (h : Keeps s t) : GoesOn s (execLinkComplete id t) := by
  unfold execLinkComplete
  exact .next h.tryLink

theorem goesOn_tdrain {i : Instr} {hd : Hdr} {o : TdrainOp} {add : Bool} (h : Keeps s t) :
    GoesOn s (tdrain i hd o add t) := by
  unfold tdrain
  exact goesOn_command h

theorem Keeps.gridDone {tm : Tile} {x : GEntry} {core : Nat} {ps : List Put} (h : Keeps s t) :
    Keeps s (t.gridDone tm x core ps) := by
  unfold State.gridDone
  split
  · exact h
  · refine .modUid h fun w k => ?_
    split
    · exact k
    · exact fileWf_decSf (w := Wave.marks _ _ _) (fileWf_lands _ k) _ _

theorem Keeps.gridPop {g : Group} {tm : Tile} {x : GEntry} {ps : List Put} (h : Keeps s t) :
    Keeps s (t.gridPop g tm x ps) := by
  unfold State.gridPop
  exact h.gridDone.modTile

theorem Keeps.giveUp {w0 : Wave} {all : Bool} (h : Keeps s t) : Keeps s (t.giveUp w0 all) := by
  unfold State.giveUp
  extract_lets acc u v
  have hu : Keeps s u := by
    unfold u
    clear_value acc
    split
    · exact .modUid h.dropAcc fun _ k => k
    · exact h
  exact .modUid (.ite hu hu.fbLeave) fun _ k => fileWf_unwait k

theorem Keeps.tileStop {g : Group} {tm : Tile} {cause : Nat} {tval : W64} (h : Keeps s t) :
    Keeps s (t.tileStop g tm cause tval) := by
  dsimp only [State.tileStop]
  split
  · exact .modTile (.fbLeave (.foldl h fun _ h => h.gridDone))
  · exact .ite (.modTile (.fbLeave (.foldl h fun _ h => h.gridDone)))
      (.modUid (.giveUp (.modTile (.fbLeave (.foldl h fun _ h => h.gridDone)))) fun _ => id)

theorem Keeps.tileMiss {g : Group} {tm : Tile} {ms : List Miss} (h : Keeps s t) : Keeps s (t.tileMiss g tm ms) := by
  unfold State.tileMiss
  exact .modTile (.foldl h fun _ h => h.missJoin)

theorem Keeps.stage {g : Group} {n : Nat} {rs : List (Nat × Nat)} {pick : W64} {own : Bool} (h : Keeps s t) :
    Keeps s (t.stage g n rs pick own) := by
  dsimp only [State.stage]
  refine .foldl h fun x h => ?_
  split
  · exact h
  · exact .ite h (.ite (.foldl h fun _ h => h.ask) (.modTile (.foldl h fun _ h => h.slcTouch)))

theorem goesOn_execSlabInject {id : GroupId} (h : Keeps s t) : GoesOn s (execSlabInject id t) := by
  dsimp only [execSlabInject, State.free]
  split
  · exact .next h
  · split
    · exact .next h
    · split
      · exact .next h
      · split
        · exact .next (.ite h.tileStop h)
        · split
          · exact .next (.ite h.tileStop h)
          · exact .next h.tileMiss
          · split
            · exact .next (.stage h)
            · split
              · exact .next (.stage h)
              · split
                · exact .next (.ite (.tileStop (.stage h)) (.stage h))
                · split
                  · exact .next (.modTile (.stage h))
                  · split
                    · exact .next (.stage h)
                    · split
                      · exact .next (.stage (.stage h))
                      · exact .next (.stage h)

theorem goesOn_execStepBoundary {id : GroupId} (h : Keeps s t) : GoesOn s (execStepBoundary id t) := by
  dsimp only [execStepBoundary]
  split
  · exact .next h
  · split
    · exact .next h
    · split
      · exact .next h
      · split
        · exact .next h.modTile
        · exact .ite (.next h.modTile.gridPop.modTile) (.next h.modTile)

theorem Keeps.anneal {g : Group} {fault : Bool} (h : Keeps s t) : Keeps s (t.anneal g fault) := by
  unfold State.anneal
  exact h.modTile

theorem Keeps.markStop {g : Group} {tm : Tile} {cond : Bool} (h : Keeps s t) : Keeps s (t.markStop g tm cond) := by
  unfold State.markStop
  exact .ite h.modTile h

theorem Keeps.annealDue {g : Group} {tm : Tile} (h : Keeps s t) : Keeps s (t.annealDue g tm) := by
  unfold State.annealDue
  exact .ite h.anneal (.ite h.modTile h)

theorem goesOn_execTilePreempt {id : GroupId} (h : Keeps s t) : GoesOn s (execTilePreempt id t) := by
  dsimp only [execTilePreempt]
  split
  · exact .next h
  · split
    · exact .next h
    · refine .next ?_
      split
      · exact .annealDue (.ite h h.markStop)
      · exact .ite h h.markStop

theorem goesOn_execTileLinkWaitExpiry {id : GroupId} (h : Keeps s t) : GoesOn s (execTileLinkWaitExpiry id t) := by
  dsimp only [execTileLinkWaitExpiry]
  split
  · exact .next h
  · exact .ite (.next h) (.next h.markStop)

theorem goesOn_execTileRelink {id : GroupId} (h : Keeps s t) : GoesOn s (execTileRelink id t) := by
  dsimp only [execTileRelink]
  split
  · exact .next h
  · exact .ite (.next h.modTile) (.next h)

theorem Keeps.drainOne {core : Nat} {g : GroupId} {add : Bool} {o : TdrainOp} {x : BitVec 36} {va pa : Nat} (h : Keeps s t) :
    Keeps s (t.drainOne core g add o x va pa).1 := by
  dsimp only [State.drainOne]
  split
  · split
    · exact h
    · exact h.modGroup fun _ k => Group_wrNat_wf k _ _ _
  · split
    · exact h
    · exact h.slcWrite.l1Eng

theorem Keeps.drainAll {x : GEntry} {g : Group} {add : Bool} {o : TdrainOp} {val : Nat → Nat → BitVec 36}
    {es : List (Nat × Nat × Nat)} {n : Nat} (h : Keeps s t) : Keeps s (State.drainAll x g add o val es n t).1 := by
  induction es generalizing n t with
  | nil => exact h
  | cons e es ih =>
    dsimp only [State.drainAll]
    split
    · exact h
    · exact ih (.drainOne (.ite h.bankUse h))

theorem goesOn_execTdrainComplete {id : GroupId} (h : Keeps s t) : GoesOn s (execTdrainComplete id t) := by
  unfold execTdrainComplete
  split
  · exact .next h
  · split
    · exact .next h
    · split
      · extract_lets els n dims r cls lock u v now v'
        have hr : Keeps s r.1 := h.drainAll
        have hv : Keeps s v := .ite (.modTile (.ite (.foldl hr fun _ h => h.l1Drop) hr))
            (.ite (.foldl hr fun _ h => h.l1Drop) hr)
        have hv' : Keeps s v' := .modTile hv.gridPop
        refine .ite (.next h) (.ite (.next (.foldl h fun _ h => h.ask)) (.ite (.next hr.modTile) ?_))
        split
        · exact .next hv'.tileStop
        · exact .next hv'
      · exact .next h

theorem goesOn_execGridQueueHead {id : GroupId} (h : Keeps s t) : GoesOn s (execGridQueueHead id t) := by
  dsimp only [execGridQueueHead]
  split
  · exact .next h
  · split
    · exact .next h
    · split
      · exact .next h
      · split
        · exact .next h.modTile.gridPop
        · split
          · exact .next (.ite h.gridPop h)
          · exact .next h.gridPop
        · exact .next h.modTile.gridPop
        · refine .next ?_
          split
          · exact .modUid h.gridPop.modTile fun _ k => k
          · exact h.gridPop.modTile
        · exact .ite (.next h.modTile.tileStop)
            (.ite (.next h.modTile.tileStop) (.ite (.next h.modTile.gridPop) (.next h.modTile)))
        · split
          · exact .next h
          · split
            · exact .next h.modTile.tileStop
            · split
              · exact .next h.modTile
              · split
                · exact .next h.tileStop
                · exact .next h.tileMiss
                · exact .next h.modTile

theorem Keeps.modChan {core : Nat} {f : Chan → Chan} (h : Keeps s t) : Keeps s (t.modChan core f) := by
  unfold State.modChan
  exact h.modCore

theorem goesOn_execCopyAccept {core : Nat} (h : Keeps s t) : GoesOn s (execCopyAccept core t) := by
  dsimp only [execCopyAccept]
  split
  · refine .ite (.next h) (.next (.modUid h.modChan fun w k => ?_))
    split
    · exact k
    · obtain ⟨hv, hs, hp, hf, hh⟩ := fileWf_iff.mp k
      exact fileWf_iff.mpr ⟨hv, hs, hp, hf, Sparse.wf_set hh _ _⟩
  · exact .next h

theorem Keeps.modCmd {core n : Nat} {f : Copy → Copy} (h : Keeps s t) : Keeps s (t.modCmd core n f) := by
  unfold State.modCmd
  exact h.modChan

theorem Keeps.endCopy {core n : Nat} {c : Copy} {stat : CStat} {fail : Option (Nat × W64)} (h : Keeps s t) :
    Keeps s (t.endCopy core n c stat fail) := by
  dsimp only [State.endCopy, State.seq]
  refine .foldl (.modUid (.rest (.ite (.fbLeave (.modChan h)) (.modChan h))) fun w k => ?_) fun _ h => h.complete
  split
  · exact k
  · exact fileWf_decSf k _ _

theorem Keeps.chanMiss {core p : Nat} {ms : List Miss} (h : Keeps s t) : Keeps s (t.chanMiss core p ms) := by
  unfold State.chanMiss
  exact .modChan (.foldl h fun _ h => h.missJoin)

theorem Keeps.copyWrite {core : Nat} {c : Copy} {at_ : Nat} {bs : List Byte} (h : Keeps s t) :
    Keeps s (t.copyWrite core c at_ bs) := by
  dsimp only [State.copyWrite]
  split
  · exact .modGroup h fun _ k => winSet_wf k _ _
  · exact .foldl h fun _ h => .ite h.slcWrite.l1Drop h.slcWrite.l1Eng

theorem Keeps.unitUse {core : Nat} {sp : Bool} {vs : List Service} (h : Keeps s t) : Keeps s (t.unitUse core sp vs) := by
  unfold State.unitUse
  exact .ite (.foldl h fun _ h => h.bankUse) h

theorem Keeps.landUnit {core n : Nat} {c : Copy} {dst : Nat} {bs : List Byte} (h : Keeps s t) :
    Keeps s (t.landUnit core n c dst bs) := by
  unfold State.landUnit
  exact .ite h.unitUse.copyWrite.modCmd.modChan h.modCmd

theorem Keeps.moveUnit {core n : Nat} {c : Copy} {src dst len : Nat} (h : Keeps s t) :
    Keeps s (t.moveUnit core n c src dst len) := by
  dsimp only [State.moveUnit]
  split
  · exact h.endCopy
  · exact h.chanMiss
  · exact h.endCopy
  · exact h.chanMiss
  · exact .ite h.endCopy
      (.ite (.foldl (.foldl h fun _ h => h.ask) fun _ h => h.ask)
          (.ite h (.landUnit (.unitUse (.foldl h fun _ h => h.slcTouch)))))

theorem Keeps.dropCancelled {core : Nat} (h : Keeps s t) : Keeps s (t.dropCancelled core) := by
  unfold State.dropCancelled
  exact .modChan (.foldl h fun _ h => h.endCopy)

theorem goesOn_execCopyUnit {core : Nat} (h : Keeps s t) : GoesOn s (execCopyUnit core t) := by
  dsimp only [execCopyUnit]
  split
  · exact .next h.dropCancelled
  · split
    · exact .next h.dropCancelled
    · split
      · exact .next h.dropCancelled.landUnit
      · split
        · exact .next h.dropCancelled
        · split
          · exact .next h.dropCancelled.endCopy
          · split
            · exact .next h.dropCancelled
            · split
              · split
                · exact .next h.dropCancelled.endCopy
                · exact .next h.dropCancelled.chanMiss
                · exact .ite (.next h.dropCancelled.endCopy)
                    (.ite (.next h.dropCancelled.ask)
                        (.ite (.next h.dropCancelled.slcTouch.endCopy) (.next h.dropCancelled.slcTouch.moveUnit)))
              · exact .next h.dropCancelled.moveUnit

theorem goesOn_execCopyComplete {core : Nat} (h : Keeps s t) : GoesOn s (execCopyComplete core t) := by
  unfold execCopyComplete
  split
  · exact .next h
  · extract_lets word u v
    have hv : Keeps s v := .modCmd (.ite (.modGroup h.unitUse fun _ k => Group_wrNat_wf k _ _ _) h)
    refine .ite (.next h) (.ite (.next h.endCopy) (.ite (.next h) (.ite (.next h) ?_)))
    split
    · exact .next hv.endCopy
    · exact .ite (.next hv) (.next hv.endCopy)
    · split
      · split
        · exact .next hv.endCopy
        · exact .ite (.next hv) (.next (.modCmd (.enqueue (.rest hv))))
      · exact .next hv.endCopy

theorem goesOn_handleRead {i : Instr} {hd : Hdr} {d : BitVec 8} {a : HSrc} {wait : Bool} (h : Keeps s t) :
    GoesOn s (handleRead i hd d a wait t) := by
  unfold handleRead
  exact goesOn_issue h fun e u k h => .ite (.ite (.modWave h.addAcc fun _ => id) h.addAcc) (keeps_done1 h)

theorem Keeps.takeWake {id : WaveId} (h : Keeps s t) : Keeps s (t.takeWake id) := by
  dsimp only [State.takeWake]
  split
  · exact .ite (.modWave h fun _ k => k) h
  · exact h

theorem goesOn_execHandleStatusWrite {id : Nat} (h : Keeps s t) : GoesOn s (execHandleStatusWrite id t) := by
  dsimp only [execHandleStatusWrite]
  split
  · exact .next h
  · split
    · exact .next h.dropAcc
    · exact .ite (.next h) (.next (.complete (.ite h.l1Acquire h)))

theorem goesOn_execHcancel {hd : Hdr} {a : HSrc} (h : Keeps s t) : GoesOn s (execHcancel hd a t) := by
  dsimp only [execHcancel]
  refine goesOn_issue h fun e u k h => ?_
  split
  · exact keeps_done1 h
  · split
    · exact .ite h.modCmd.addAcc (keeps_done1 h)
    · exact keeps_done1 h

theorem goesOn_fp3 {i : Instr} {hd : Hdr} {o : FAlu3} {f : Val → Val → Val → Val} (h : Keeps s t) :
    GoesOn s (fp3 i hd o f t) := by
  unfold fp3
  exact goesOn_mould h

theorem goesOn_fpMinMax {i : Instr} {hd : Hdr} {o : FMinOp} {isMax : Bool} (h : Keeps s t) :
    GoesOn s (fpMinMax i hd o isMax t) := by
  unfold fpMinMax
  exact goesOn_mould h

theorem goesOn_hmould {i : Instr} {hd : Hdr} {o : HAlu} {f : Val → Val → Val → Val} (h : Keeps s t) :
    GoesOn s (hmould i hd o f t) := by
  unfold hmould
  exact goesOn_mould h

theorem goesOn_special {i : Instr} {hd : Hdr} {o : SfuOp} {f : Sfu} (h : Keeps s t) : GoesOn s (special i hd o f t) := by
  unfold special
  exact goesOn_issue h fun _ _ _ h => h.addAcc

theorem goesOn_orderedWrite {k : AccOp → Bool} {id : Nat} (h : Keeps s t) : GoesOn s (orderedWrite k id t) := by
  dsimp only [orderedWrite]
  split
  · exact .next h
  · exact .ite (.next h.complete) (.next h)

theorem goesOn_satInstr {i : Instr} {hd : Hdr} {p : Put} (h : Keeps s t) : GoesOn s (satInstr i hd p t) := by
  unfold satInstr
  exact goesOn_issue h fun e _ k h => keeps_fixed h

theorem goesOn_crossLane {i : Instr} {hd : Hdr} {f : Env → List Put} (h : Keeps s t) : GoesOn s (crossLane i hd f t) := by
  unfold crossLane
  exact goesOn_issue h fun _ _ _ h => h.addAcc

theorem Keeps.startBlock {e : Env} {a : Acc} {va : W64} {size : Nat} {reads : Reads} (h : Keeps s t) :
    Keeps s (t.startBlock e a va size reads) := by
  dsimp only [State.startBlock]
  split
  · exact h.addAcc
  · exact .startLoad (.blockRead h rfl)

theorem goesOn_rayOp {i : Instr} {hd : Hdr} {op : AccOp} {hs : BitVec 8} {a : BitVec 9} {n : Nat} {b : Env → Nat → W32}
    {reads : RayHdr → W32 → List W64} {dst : AccDst} (h : Keeps s t) :
    GoesOn s (rayOp i hd op hs a n b reads dst t) := by
  unfold rayOp
  exact goesOn_issue h fun _ _ k h => h.startBlock

theorem Keeps.rayHint {p : Nat} {hd : RayHdr} {ray : List W32} {r : (W32 × W32) × State} (h : Keeps s t)
    (e : t.rayHint p hd ray = some r) : Keeps s r.2 := by
  simp only [State.rayHint] at e
  split at e
  · cases e; exact h
  · split at e
    · cases e; exact h
    · split at e
      · cases e
      · cases e; exact h

theorem Keeps.raySet {p : Nat} {hd : RayHdr} {ray : List W32} {u : State} (h : Keeps s t)
    (e : t.raySet p hd ray = some u) : Keeps s u := by
  simp only [State.raySet] at e
  split at e
  · cases e; exact h
  · split at e
    · cases e; exact h
    · split at e
      · cases e
      · cases e; exact h

theorem Keeps.tableOps {a : Acc} {hd : RayHdr} {d : Nat} {ls : List (Nat × W32 × List W32)} (h : Keeps s t) :
    Keeps s (t.tableOps a hd d ls).2.2 := by
  induction ls generalizing t with
  | nil => exact h
  | cons x ls ih =>
    dsimp only [State.tableOps]
    split
    · exact h
    · rename_i ps u e
      refine ih ?_
      split at e
      · obtain ⟨r, hr, e⟩ := Option.map_eq_some_iff.mp e
        cases e
        exact h.rayHint hr
      · obtain ⟨r, hr, e⟩ := Option.map_eq_some_iff.mp e
        cases e
        exact h.raySet hr

theorem Keeps.serveTable {a : Acc} (h : Keeps s t) : Keeps s (t.serveTable a) := by
  unfold State.serveTable
  exact .ite h.tableOps.modAcc h

theorem goesOn_execRayOpComplete {id : Nat} (h : Keeps s t) : GoesOn s (execRayOpComplete id t) := by
  dsimp only [execRayOpComplete]
  split
  · exact .next h
  · split
    · exact .next h.dropAcc
    · split
      · exact .next h
      · split
        · exact .next h.performAll
        · split
          · exact .next h.performAll
          · split
            · split
              · exact .next h.performAll.dropAcc
              · exact .ite (.next h.performAll) (.next h.performAll.modCore.modAcc)
            · split
              · exact .next (.modUid h.performAll.complete fun w k => by split <;> exact k)
              · split
                · exact .next h.performAll.serveTable
                · exact .ite (.next h.performAll.serveTable.complete) (.next h.performAll.serveTable)

theorem Keeps.blendLane {op : BlendOp} {f16 : Bool} {a : Acc} {l : Lane} (h : Keeps s t) :
    Keeps s (State.blendLane op f16 t a l).2 := h.modGroup fun _ k => Group_wrNat_wf k _ _ _

theorem goesOn_execScratchpadOpPerformed {id : Nat} (h : Keeps s t) : GoesOn s (execScratchpadOpPerformed id t) := by
  unfold execScratchpadOpPerformed
  split
  · exact .next h
  · split
    · exact goesOn_scratchpadOp (fun _ h => h.blendLane) h
    · exact goesOn_scratchpadOp (fun _ h => h.performSp) h

end Sys2Proof.Machine
end

section
/-!
SUPPORT. Placement and retirement of groups, units and the queues of launches.
-/

namespace Sys2Proof.Machine

open Sys2Proof.Claims

variable {s t : State}

/-- The window that a group starts with holds its barrier word, or nothing. -/
theorem wf_freshWindow (k : Kern) : Memory.wf (freshWindow k) = true := by
  unfold freshWindow
  split
  · rfl
  · exact winSet_wf rfl _ _

theorem Keeps.placeWave {g : GroupId} {kern : Kern} {core q0 prio k : Nat} (h : Keeps s t) :
    Keeps s (t.placeWave g kern core q0 prio k) := by
  refine .withWaves (t := t.seq.2) h fun _ hw => ?_
  rw [List.forall_mem_append, List.forall_mem_singleton]
  exact ⟨hw, fileWf_fresh _ _ _ _ _ _ _⟩

theorem Keeps.placeGroup {l : Launch} {idx relaunch core prio : Nat} (h : Keeps s t) :
    Keeps s (t.placeGroup l idx relaunch core prio) := by
  refine .foldl (.withGroups h fun _ hg => ?_) fun _ h => h.placeWave
  rw [List.forall_mem_append, List.forall_mem_singleton]
  exact ⟨hg, wf_freshWindow _⟩

theorem Keeps.placeAll {l : Launch} {cores : List Nat} {prio : Nat} {is : List Nat} {u : State} (h : Keeps s t)
    (e : t.placeAll l cores prio is = some u) : Keeps s u := by
  induction is generalizing t with
  | nil => cases e; exact h
  | cons i is ih =>
    simp only [State.placeAll] at e
    split at e
    · cases e
    · exact ih h.placeGroup e

theorem Keeps.emptied {p : Nat} (h : Keeps s t) : Keeps s (t.emptied p) := h.filterWaves.filterGroups

theorem Keeps.offered {tried : List Nat} {p : Nat} (h : Keeps s t) : Keeps s (t.offered tried p) := by
  unfold State.offered
  exact h

theorem Keeps.tryPlace {l : Launch} {u : State} (h : Keeps s t) (e : t.tryPlace l = some u) : Keeps s u := by
  unfold State.tryPlace at e
  extract_lets cores prio first s0 placedL at e
  have h0 : Keeps s s0 := .ite (.foldl h fun _ h => h.l1Clear) h
  have hp {f v} (h : Keeps s v) : Keeps s (placedL v f) := h.modLaunch
  split at e
  · split at e
    · obtain ⟨v, hv, e⟩ := Option.map_eq_some_iff.mp e
      exact e ▸ hp (h0.placeAll hv)
    · cases e
  · split at e
    · cases e; exact hp h0.placeGroup
    · cases e

theorem Keeps.firstPlace {ls : List Launch} {r : Launch × State} (h : Keeps s t) (e : t.firstPlace ls = some r) :
    Keeps s r.2 := by
  induction ls with
  | nil => cases e
  | cons l ls ih =>
    simp only [State.firstPlace] at e
    split at e
    · cases e; exact h.tryPlace ‹_›
    · exact ih e

theorem Keeps.placement {p : Nat} {r : Launch × State} (h : Keeps s t) (e : t.placement p = some r) : Keeps s r.2 := by
  simp only [State.placement] at e
  split at e
  · exact h.firstPlace e
  · cases e

theorem goesOn_execPlacementDecision {p : Nat} (h : Keeps s t) : GoesOn s (execPlacementDecision p t) := by
  dsimp only [execPlacementDecision]
  split
  · exact .next (.ite h.offered h)
  · exact .next (.modPart (.offered (h.placement ‹_›)))

theorem Keeps.placeSome {l : Launch} {cores is : List Nat} (h : Keeps s t) : Keeps s (t.placeSome l cores is) := by
  induction is generalizing t with
  | nil => exact h
  | cons i is ih =>
    dsimp only [State.placeSome]
    split
    · exact h
    · exact ih h.placeGroup

theorem goesOn_execReservationStart {p : Nat} (h : Keeps s t) : GoesOn s (execReservationStart p t) := by
  dsimp only [execReservationStart]
  split
  · exact .next h
  · exact .next h.modPart

theorem Keeps.markEligible (h : Keeps s t) : Keeps s t.markEligible := by
  unfold State.markEligible
  exact h

theorem Keeps.exitPacket {g : Group} (h : Keeps s t) : Keeps s (t.exitPacket g) := by
  dsimp only [State.exitPacket]
  split
  · exact h
  · split
    · exact h
    · exact h

theorem Keeps.releaseGroup {g : Group} {keep : Acc → Bool} (h : Keeps s t) : Keeps s (t.releaseGroup g keep) := by
  dsimp only [State.releaseGroup]
  exact (Keeps.fbLeave (.foldl h.trKeep fun _ h => .foldl h.fbLeave fun _ h => h.fbLeave)).filterWaves.filterGroups

theorem goesOn_execGroupRetire {id : GroupId} (h : Keeps s t) : GoesOn s (execGroupRetire id t) := by
  dsimp only [execGroupRetire]
  split
  · exact .next h
  · exact .ite (.next h) (.next h.exitPacket.releaseGroup.modLaunch)

theorem Keeps.touchVa {p : Nat} {old : List Miss} {va n : Nat} {own : Bool} (h : Keeps s t) :
    Keeps s (t.touchVa p old va n own) := by
  dsimp only [State.touchVa]
  split
  · exact .foldl h fun _ h => h.slcTouch
  · exact h

theorem Keeps.askAll {pas : List Nat} {write : Bool} (h : Keeps s t) : Keeps s (t.askAll pas write) := by
  unfold State.askAll
  exact .foldl h fun _ h => h.ask

theorem Keeps.touchBody {p : Nat} {old : List Miss} {b : List Byte} (h : Keeps s t) : Keeps s (t.touchBody p old b) := by
  dsimp only [State.touchBody]
  split
  · exact h.touchVa.touchVa
  · exact h

theorem Keeps.touchUnits {p : Nat} {old : List Miss} {b : List Byte} (h : Keeps s t) : Keeps s (t.touchUnits p old b) := by
  dsimp only [State.touchUnits]
  split
  · exact h.touchBody
  · split
    · exact h
    · split
      · exact .foldl h.touchVa fun _ h => h.touchBody
      · exact h

theorem Keeps.newLid {p : Nat} (h : Keeps s t) : Keeps s (t.newLid p).2 := h.modPart

theorem Keeps.newGraph {p jid : Nat} {tag : W32} {gcnt : W64} {bs : List Body} (h : Keeps s t) :
    Keeps s (t.newGraph p jid tag gcnt bs) := by
  dsimp only [State.newGraph]
  split
  · exact h
  · exact .foldl (.modJob h) fun _ h => .rest h.newLid

theorem Keeps.cancelOne {p lid : Nat} {st : UStat} (h : Keeps s t) : Keeps s (t.cancelOne p lid st) := by
  dsimp only [State.cancelOne]
  split
  · exact h
  · exact .ite h (.modPart (.foldl h.modLaunch fun _ h => h.stopGroup))

theorem Keeps.cancelSucc {p jid gi : Nat} (h : Keeps s t) : Keeps s (t.cancelSucc p jid gi) := by
  unfold State.cancelSucc
  exact .foldl h fun _ h => .ite h.cancelOne h

theorem Keeps.cancelLaunch {p : Nat} {l : Launch} {st : UStat} (h : Keeps s t) : Keeps s (t.cancelLaunch p l st) := by
  unfold State.cancelLaunch
  exact h.cancelOne.cancelSucc

theorem Keeps.cancelGraph {p : Nat} {g : Graph} {st : UStat} (h : Keeps s t) : Keeps s (t.cancelGraph p g st) := by
  unfold State.cancelGraph
  exact .ite h (.foldl h.modGraph fun _ h => h.cancelOne)

theorem Keeps.cancelJob {p : Nat} {j : Job} {st : UStat} (h : Keeps s t) : Keeps s (t.cancelJob p j st) := by
  unfold State.cancelJob
  exact .ite h (.foldl h.modJob fun _ h => h.cancelGraph)

theorem Keeps.cancelBy {p : Nat} {k : CancelSel} {x : W32} (h : Keeps s t) : Keeps s (t.cancelBy p k x) := by
  dsimp only [State.cancelBy]
  split
  · exact .foldl h fun _ h => h.cancelLaunch
  · exact .foldl h fun _ h => h.cancelLaunch
  · exact .foldl h fun _ h => h.cancelGraph
  · exact .foldl h fun _ h => h.cancelJob

theorem Keeps.fbLeaveIn {p : Nat} {r : Requester} (h : Keeps s t) : Keeps s (t.fbLeaveIn p r) := by
  unfold State.fbLeaveIn
  exact h

theorem Keeps.joinNew {p : Nat} {r : Requester} {old ms : List Miss} (h : Keeps s t) : Keeps s (t.joinNew p r old ms) := by
  unfold State.joinNew
  exact .foldl h fun _ h => h.missJoin

theorem Keeps.unitAwait {p : Nat} {uu : UnitRef} {old : List Miss} {x : Await} (h : Keeps s t) :
    Keeps s (t.unitAwait p uu old x) := by
  unfold State.unitAwait
  exact h.askAll.joinNew

theorem Keeps.countUnit {p : Nat} {st : UStat} (h : Keeps s t) : Keeps s (t.countUnit p st) := by
  unfold State.countUnit
  exact .ite h h.modPart

theorem Keeps.newJob {p : Nat} {q : Option Nat} {tag : W32} {prio : Nat} {dl : Option (W64 × W64)} {order : Nat × Nat × Nat}
    (h : Keeps s t) : Keeps s (t.newJob p q tag prio dl order).2 := h

theorem Keeps.addCounter {p : Nat} {va : W64} {old : List Miss} {u : State} (h : Keeps s t)
    (e : t.addCounter p va old = .done u) : Keeps s u := by
  simp only [State.addCounter] at e
  split at e
  · cases e; exact h
  · split at e
    · cases e; exact h
    · cases e
    · split at e
      · cases e
      · split at e
        · cases e; exact h
        · cases e; exact h.slcWrite

theorem goesOn_execUnitComplete {p : Nat} {uu : UnitRef} (h : Keeps s t) : GoesOn s (execUnitComplete p uu t) := by
  dsimp only [execUnitComplete]
  refine .ite (.next h) ?_
  split
  · split
    · exact .next h
    · split
      · exact .next h.unitAwait.modLaunch
      · exact .next (h.addCounter ‹_›).fbLeaveIn.countUnit.modLaunch
  · split
    · exact .next h
    · split
      · exact .next h.unitAwait.modGraph
      · exact .next (h.addCounter ‹_›).fbLeaveIn.countUnit.modGraph
  · split
    · exact .next h
    · split
      · exact .next h.unitAwait.modJob
      · exact .next (.rest (h.addCounter ‹_›).fbLeaveIn.countUnit)

theorem Keeps.modLq {p q : Nat} {f : LQ → LQ} (h : Keeps s t) : Keeps s (t.modLq p q f) := by
  unfold State.modLq
  exact h.modPart

theorem Keeps.askSlots (h : Keeps s t) : Keeps s t.askSlots := by
  unfold State.askSlots
  exact .foldl h fun _ h => .ite (.foldl h fun _ h => .ite h.askAll h) h

theorem Keeps.consume {p q : Nat} {b : List Byte} (h : Keeps s t) : Keeps s (t.consume p q b) := by
  unfold State.consume
  exact h.fbLeaveIn.modLq

theorem Keeps.lqEvent {p q code : Nat} (h : Keeps s t) : Keeps s (t.lqEvent p q code) := by
  unfold State.lqEvent
  exact h.modLq.msix

theorem Keeps.lqMiss {p q : Nat} {x : Await} {write : Bool} (h : Keeps s t) : Keeps s (t.lqMiss p q x write) := by
  unfold State.lqMiss
  exact h.askAll.joinNew.modLq

theorem Keeps.closeJob {p q jid : Nat} {b : List Byte} (h : Keeps s t) : Keeps s (t.closeJob p q jid b) := by
  unfold State.closeJob
  exact .ite h.modJob.modLq h

theorem Keeps.hostJob {p q : Nat} {b : List Byte} (h : Keeps s t) : Keeps s (t.hostJob p q b).2 := by
  unfold State.hostJob
  split
  · exact h
  · exact h.newJob.modLq

theorem Keeps.reject {p q code : Nat} {b : List Byte} (h : Keeps s t) : Keeps s (t.reject p q code b) := by
  dsimp only [State.reject]
  split
  · refine .consume (.closeJob (.modLq ?_))
    split
    · exact h.lqEvent.hostJob.cancelJob
    · exact h.lqEvent.hostJob
  · exact h.lqEvent.consume

theorem Keeps.touchSlots {p q : Nat} (h : Keeps s t) : Keeps s (t.touchSlots p q) := by
  unfold State.touchSlots
  exact .foldl h fun _ h => h.slcTouch

theorem goesOn_onPacket {p q : Nat} {tm : Nat → Bool} {f : List Byte → State → Res} (h : Keeps s t)
    (hf : ∀ {u : State} (b : List Byte), Keeps s u → GoesOn s (f b u)) : GoesOn s (onPacket p q tm f t) := by
  dsimp only [onPacket]
  split
  · exact .next h
  · refine .ite (.next h) ?_
    split
    · exact .next h.touchSlots.reject
    · exact hf _ h.touchSlots

theorem Keeps.skipPacket {p q jid : Nat} {b : List Byte} (h : Keeps s t) : Keeps s (t.skipPacket p q jid b) := by
  unfold State.skipPacket
  exact h.closeJob.consume

theorem Keeps.parsePacket {p q : Nat} {b : List Byte} (h : Keeps s t) : Keeps s (t.parsePacket p q b) := by
  dsimp only [State.parsePacket]
  split
  · exact h.touchUnits.lqMiss
  · exact h.touchUnits.reject
  · exact .ite h.touchUnits.reject (.ite h.touchUnits.reject (.consume (.closeJob (.rest (.newGraph h.touchUnits.hostJob)))))

theorem goesOn_launchOrGraph {ty p q : Nat} (h : Keeps s t) : GoesOn s (launchOrGraph ty p q t) := by
  dsimp only [launchOrGraph]
  split
  · exact .ite (.next h.touchSlots.skipPacket) (goesOn_onPacket h fun _ h => .next h.parsePacket)
  · exact goesOn_onPacket h fun _ h => .next h.parsePacket

theorem Keeps.fenceTry {p q : Nat} {b : List Byte} (h : Keeps s t) : Keeps s (t.fenceTry p q b) := by
  dsimp only [State.fenceTry]
  split
  · exact .consume (.foldl h fun _ h => h.touchVa)
  · exact .modLq (.foldl h fun _ h => h.touchVa)
  · exact .lqMiss (.foldl h fun _ h => h.touchVa)
  · exact .reject (.foldl h fun _ h => h.touchVa)

theorem goesOn_execFenceCounterReread {p q : Nat} (h : Keeps s t) : GoesOn s (execFenceCounterReread p q t) := by
  dsimp only [execFenceCounterReread]
  split
  · exact .next h
  · exact .ite (.next h.fenceTry) (.next h)

theorem goesOn_execSignalWrite {p q : Nat} (h : Keeps s t) : GoesOn s (execSignalWrite p q t) := by
  dsimp only [execSignalWrite]
  split
  · exact .next h
  · split
    · exact .next h
    · split
      · exact .next h.reject
      · split
        · exact .next h.reject
        · exact .next h.lqMiss
        · exact .ite (.next h.askAll)
            (.next (.ite (.msix (.consume (.ite h (.foldl h fun _ h => h.slcWrite))))
                (.consume (.ite h (.foldl h fun _ h => h.slcWrite)))))

end Sys2Proof.Machine
end

section
/-!
SUPPORT. Launches by a wave, the outcome of a command, COMMIT, KILL and SAVE; what an image holds.
-/

namespace Sys2Proof.Machine

open Sys2Proof.Claims

variable {s t : State}

theorem goesOn_execDoorbellWrite {port page p q size : Nat} {value : W64} (h : Keeps s t) :
    GoesOn s (execDoorbellWrite port page p q size value t) := by
  unfold execDoorbellWrite
  exact .ite (.next h) (.ite (.next h.modLq.lqEvent.fbLeaveIn.modLq) (.next h.modLq))

/-- An image of which the waves' files and the groups' windows are in canonical form, if all of `s` are. -/
def ImageKept (s : State) (x : Image) : Prop :=
  (windowsWf s = true → ∀ g ∈ x.groups, Memory.wf g.window = true) ∧ (filesWf s = true → ∀ w ∈ x.waves, fileWf w = true)

theorem Keeps.imageKept {x : Image} (h : Keeps s t) (hx : x ∈ t.images) : ImageKept s x :=
  ⟨fun k => (windowsWf_iff.mp (h.2.1 k)).2 x hx, fun k => (filesWf_iff.mp (h.2.2 k)).2 x hx⟩

theorem Keeps.withImages {xs : List Image} (h : Keeps s t) (hx : ∀ x ∈ xs, ImageKept s x) :
    Keeps s { t with images := xs } := by
  refine ⟨h.1, fun k => ?_, fun k => ?_⟩
  · exact windowsWf_iff.mpr ⟨(windowsWf_iff.mp (h.2.1 k)).1, fun x m => (hx x m).1 k⟩
  · exact filesWf_iff.mpr ⟨(filesWf_iff.mp (h.2.2 k)).1, fun x m => (hx x m).2 k⟩

theorem Keeps.imageKept_capture {p pa : Nat} {mig : Bool} {bytes : List Byte} (h : Keeps s t) :
    ImageKept s (t.capture p pa mig bytes) :=
  ⟨fun k => List.forall_mem_map.mpr fun g m => (windowsWf_iff.mp (h.2.1 k)).1 g (List.mem_of_mem_filter m),
   fun k => List.forall_mem_map.mpr fun w m => fileWf_saved ((filesWf_iff.mp (h.2.2 k)).1 w (List.mem_of_mem_filter m))⟩

theorem Keeps.setJobPrio {p jid prio : Nat} (h : Keeps s t) : Keeps s (t.setJobPrio p jid prio) := by
  unfold State.setJobPrio
  exact h.modJob.updWaves fun _ _ k => k

theorem goesOn_execLehrPromotion {p jid : Nat} (h : Keeps s t) : GoesOn s (execLehrPromotion p jid t) := by
  dsimp only [execLehrPromotion]
  split
  · exact .next h
  · exact .ite (.next h.setJobPrio.modJob) (.next h)

theorem Keeps.deviceJob {a : Acc} {prio : Nat} {b : Body} (h : Keeps s t) : Keeps s (t.deviceJob a prio b).2 := by
  unfold State.deviceJob
  exact h.newJob.modJob.newGraph

theorem goesOn_execLaunchEnqComplete {id : Nat} (h : Keeps s t) : GoesOn s (execLaunchEnqComplete id t) := by
  unfold execLaunchEnqComplete
  split
  · exact .next h
  · split
    · extract_lets p old b u v fin
      have hv : Keeps s v := .ite h.slcTouch (Keeps.touchBody h.slcTouch)
      have hfin {lid code x} (h : Keeps s x) : Keeps s (fin lid code x) := .complete (.modUid h.fbLeave fun _ k => k)
      refine .ite (.next h) (.ite (.next h.ask) ?_)
      split
      · exact .ite (.next hv.askAll) (.next (.modUid hv.askAll.joinNew fun _ k => k))
      · exact .next (hfin hv)
      · exact .next (hfin hv.deviceJob)
    · exact .next h.dropAcc

theorem goesOn_execLaunchCancel {hd : Hdr} {kind : CancelSel} {a : BitVec 8} (h : Keeps s t) :
    GoesOn s (execLaunchCancel hd kind a t) :=
  goesOn_issue h fun _ _ _ h => .modWave h fun _ k => fileWf_decSf (w := Wave.add _ _ _) k _ _

theorem Keeps.landOut {src : Sender} {x : Put} (h : Keeps s t) : Keeps s (t.landOut src x) := by
  unfold State.landOut
  split
  · exact h.updWaves fun _ _ k => k
  · exact h.cancelBy
  · exact h

theorem Keeps.rejectCmd {p rsn : Nat} (h : Keeps s t) : Keeps s (t.rejectCmd p rsn) := by
  unfold State.rejectCmd
  exact h.modPart

theorem Keeps.syncNext {p : Nat} (h : Keeps s t) : Keeps s (t.syncNext p) := by
  unfold State.syncNext
  exact .foldl h fun _ h => h.modCore

theorem Keeps.applyDesc {p : Nat} {d : PDesc} (h : Keeps s t) : Keeps s (t.applyDesc p d) := by
  unfold State.applyDesc
  extract_lets old newCsm newCul u v w
  have hv : Keeps s v := .foldl h.modPart fun _ h => .foldl h fun _ h => h.l1Clear
  exact .withMem (t := w) (.ite hv.syncNext hv) fun k => Sparse.wf_filter _ k

theorem goesOn_execCommit {p : Nat} (h : Keeps s t) : GoesOn s (execCommit p t) := by
  dsimp only [execCommit]
  split
  · exact .next h.rejectCmd
  · split
    · exact .next h.rejectCmd
    · exact .ite (.next h.modPart.modPart) (.next h.modPart.applyDesc)

theorem goesOn_execCarvedWayWritebackEnd {p : Nat} (h : Keeps s t) : GoesOn s (execCarvedWayWritebackEnd p t) := by
  dsimp only [execCarvedWayWritebackEnd]
  split
  · exact .next (.modPart (.foldl h fun _ h => h.slcDrop))
  · exact .next (.ite h.applyDesc h)
  · exact .next h

theorem Keeps.killPart {p : Nat} (h : Keeps s t) : Keeps s (t.killPart p) := by
  unfold State.killPart
  exact .ite h.modPart.modPart (.foldl (.foldl h.modPart fun _ h => h.cancelJob) fun _ h => h.stopGroup)

theorem goesOn_execKill {p : Nat} (h : Keeps s t) : GoesOn s (execKill p t) := by
  unfold execKill
  exact .next (.ite h.rejectCmd h.killPart)

theorem goesOn_startSave {p : Nat} {img : W64} {mig : Bool} (h : Keeps s t) : GoesOn s (startSave p img mig t) := by
  unfold startSave State.free
  exact .ite (.next h.rejectCmd) (.ite (.next (.rejectCmd h)) (.ite (.next (.modPart h)) (.next (.modPart h))))

theorem goesOn_execCoresHalted {p : Nat} (h : Keeps s t) : GoesOn s (execCoresHalted p t) := by
  dsimp only [execCoresHalted]
  split
  · exact .ite (.next h.modPart) (.next h)
  · exact .next h

theorem goesOn_execImageComplete {p : Nat} (h : Keeps s t) : GoesOn s (execImageComplete p t) := by
  dsimp only [execImageComplete]
  split
  · exact .ite (.next h.modPart) (.next h)
  · exact .next h

theorem Keeps.fbQuit {p : Nat} (h : Keeps s t) : Keeps s (t.fbQuit p) := by
  unfold State.fbQuit
  exact h

theorem Keeps.evict {p : Nat} (h : Keeps s t) : Keeps s (t.evict p) := by
  unfold State.evict
  exact .modPart (.foldl (.rest h.trKeep.fbQuit.filterWaves.filterGroups) fun _ h => h.modChan)

theorem goesOn_execImageWritten {p : Nat} (h : Keeps s t) : GoesOn s (execImageWritten p t) := by
  unfold execImageWritten
  split
  · rename_i img mig size _
    extract_lets n u bytes old x v
    have hx : ImageKept s x := by
      have find : ∀ y, old = some y → ImageKept s y := fun y e => by
        obtain ⟨_, _, e⟩ := Option.bind_eq_some_iff.mp e
        exact Keeps.imageKept (t := u) h (List.mem_of_find?_eq_some e)
      unfold x
      clear_value old
      cases old with
      | none => exact Keeps.imageKept_capture (t := u) h
      | some y => exact find y rfl
    have hv : Keeps s v := .wrOut (.evict (t := u) h)
    refine .ite (.next h) (.next (.modPart (hv.withImages fun y hy => ?_)))
    rcases List.mem_cons.mp hy with rfl | hy
    · exact hx
    · exact hv.imageKept (List.mem_of_mem_filter hy)
  · exact .next h

end Sys2Proof.Machine
end

section
/-!
SUPPORT. RESTORE, the ends of walks and replies, errors, fences of clusters and flips of bias.
-/

namespace Sys2Proof.Machine

open Sys2Proof.Claims

variable {s t : State}

theorem Keeps.redoMiss {a : Acc} {ms : List Miss} (h : Keeps s t) : Keeps s (t.redoMiss a ms) := by
  dsimp only [State.redoMiss]
  split
  · exact h
  · exact .modUid h.joinNew fun _ => id

theorem Keeps.redoFail {a : Acc} {cause : Nat} {va : W64} (h : Keeps s t) : Keeps s (t.redoFail a cause va) := by
  unfold State.redoFail
  exact .modUid h.complete fun w k => by split <;> exact k

theorem Keeps.redoRay {a : Acc} (h : Keeps s t) : Keeps s (t.redoRay a) := by
  dsimp only [State.redoRay]
  split
  · split
    · exact h.redoMiss
    · exact h.redoFail
    · split
      · exact h
      · split
        · exact h.ask
        · split
          · exact h.redoFail
          · exact h.redoMiss
          · exact h.redoFail
          · exact .modAcc (.blockRead h rfl)
  · exact h.modAcc

theorem Keeps.redoLoad {a : Acc} (h : Keeps s t) : Keeps s (t.redoLoad a) := by
  dsimp only [State.redoLoad]
  split
  · exact h.redoMiss
  · exact h.redoFail
  · exact h.modAcc

theorem Keeps.redoAll {p : Nat} (h : Keeps s t) : Keeps s (t.redoAll p) := by
  unfold State.redoAll
  exact .ite h (.foldl h fun _ h => .ite h.redoRay h.redoLoad)

theorem Keeps.imageKept_imageOf {p pa : Nat} (h : Keeps s t) : ImageKept s (t.imageOf p pa) := by
  have key : ∀ x, t.imageAt pa = some x → ImageKept s x := fun x e => by
    rcases (Option.orElse_eq_some _ _ _).mp e with e | ⟨-, e⟩
    · exact h.imageKept (List.mem_of_find?_eq_some e)
    · exact h.imageKept (List.mem_of_find?_eq_some e)
  unfold State.imageOf
  extract_lets x
  suffices ImageKept s x from this
  unfold x
  split
  · exact key _ ‹_›
  · exact ⟨fun _ => List.forall_mem_map.mpr fun g _ => wf_canon g.window, fun _ => List.forall_mem_map.mpr fun w _ => fileWf_canon w⟩

theorem Keeps.unpackImage {p : Nat} {x : Image} {mig : Bool} (h : Keeps s t) (hx : ImageKept s x) :
    Keeps s (t.unpackImage p x mig) := by
  unfold State.unpackImage
  extract_lets d clus r off u v back w csm m n
  have hw : Keeps s w := .foldl (.modPart (.foldl (.rest h) fun _ h => h.l1Clear)) fun _ h => h.modChan
  have hn : Keeps s n := .coherentWaits
      (.ite (.withMem (t := w) hw fun k => Sparse.wf_foldl_set _ _ _ (Sparse.wf_filter _ k)) hw)
  have waves : ∀ {k : filesWf s = true}, (∀ w ∈ n.waves, fileWf w = true) →
      ∀ w ∈ n.waves ++ x.waves.map fun w => n.waveBack off (r.wave w), fileWf w = true := fun {k} hn => by
    rw [List.forall_mem_append, List.forall_mem_map]
    exact ⟨hn, fun w m => fileWf_waveBack (w := r.wave w) (hx.2 k w m) _ _⟩
  have groups : ∀ {k : windowsWf s = true}, (∀ g ∈ n.groups, Memory.wf g.window = true) →
      ∀ g ∈ n.groups ++ x.groups.map fun g => back (r.group g), Memory.wf g.window = true := fun {k} hn => by
    rw [List.forall_mem_append, List.forall_mem_map]
    exact ⟨hn, fun g m => hx.1 k g m⟩
  exact .rest ((hn.withWaves fun k => waves (k := k)).withGroups fun k => groups (k := k))

theorem Keeps.unpackImageAt {p pa : Nat} {mig : Bool} (h : Keeps s t) : Keeps s (t.unpackImage p (t.imageOf p pa) mig) :=
  h.unpackImage h.imageKept_imageOf

theorem Keeps.restoreGo {p : Nat} {img : W64} (h : Keeps s t) : Keeps s (t.restoreGo p img) := by
  unfold State.restoreGo
  exact .ite h.modPart (.ite h.reclaimRange.modPart.rejectCmd (.ite h.reclaimRange.modPart.modPart
    h.reclaimRange.modPart.reclaimRange.unpackImageAt.redoAll.syncNext))

theorem goesOn_execRestore {p : Nat} {img : W64} (h : Keeps s t) : GoesOn s (execRestore p img t) := by
  unfold execRestore
  exact .next (.ite h.rejectCmd h.restoreGo)

theorem Keeps.restoreAgain {p : Nat} (h : Keeps s t) : Keeps s (t.restoreAgain p) := by
  dsimp only [State.restoreAgain]
  split
  · exact h.restoreGo
  · exact h

theorem Keeps.modMiss {p : Nat} {r : Requester} {f : List Miss → List Miss} (h : Keeps s t) : Keeps s (t.modMiss p r f) := by
  dsimp only [State.modMiss]
  split
  · exact .modUid h fun _ => id
  · exact h.modChan
  · exact h.modTile
  · exact h.modLq
  · exact .modWave h fun _ => id
  · exact h.modLaunch
  · exact h.modGraph
  · exact h.modJob

theorem Keeps.afterMiss {r : Requester} (h : Keeps s t) : Keeps s (t.afterMiss r) := by
  dsimp only [State.afterMiss]
  split
  · exact .ite h h.settle
  · exact h

theorem Keeps.postFault {e : FbEntry} {res : WalkRes} {r : Requester} {k : AccKind} (h : Keeps s t) :
    Keeps s (t.postFault e res r k) := by
  unfold State.postFault
  exact h.fqPost

theorem Keeps.fbFree {e : FbEntry} (h : Keeps s t) : Keeps s (t.fbFree e) := by
  unfold State.fbFree
  exact .fbGrant h

theorem goesOn_execWalkComplete {fbid : Nat} (h : Keeps s t) : GoesOn s (execWalkComplete fbid t) := by
  dsimp only [execWalkComplete]
  split
  · exact .next h
  · split
    · exact .next h
    · split
      · exact .next (.foldl h fun _ h => h.ask)
      · refine .next ?_
        refine .redoAll ?_
        refine .foldl ?_ fun _ h => h.afterMiss
        split
        · refine .fbFree ?_
          refine .foldl ?_ fun x h => ?_
          · refine .foldl ?_ fun _ h => h.modMiss
            refine .foldl (.walkKeep (.foldl (.ite (.foldl h fun _ h => h.l1Clear) h) fun _ h => h.slcTouch)) fun x h => ?_
            split
            · have h := Keeps.walk h ‹_›
              exact .foldl h fun _ h => h.tlbFill
            · have h := Keeps.walk h ‹_›
              exact h
          · split
            · exact h.modMiss
            · exact h
        · refine .postFault ?_
          refine .rest ?_
          refine .foldl ?_ fun x h => ?_
          · refine .foldl ?_ fun _ h => h.modMiss
            refine .foldl (.walkKeep (.foldl (.ite (.foldl h fun _ h => h.l1Clear) h) fun _ h => h.slcTouch)) fun x h => ?_
            split
            · have h := Keeps.walk h ‹_›
              exact .foldl h fun _ h => h.tlbFill
            · have h := Keeps.walk h ‹_›
              exact h
          · split
            · exact h.modMiss
            · exact h

theorem goesOn_execFrespRetry {p fbid : Nat} (h : Keeps s t) : GoesOn s (execFrespRetry p fbid t) := by
  dsimp only [execFrespRetry]
  split
  · exact .next h
  · exact .next h

theorem Keeps.dropRedo {r : Requester} {page : Nat} (h : Keeps s t) : Keeps s (t.dropRedo r page) := by
  dsimp only [State.dropRedo]
  split
  · exact .foldl h fun _ h => h.complete
  · exact h

theorem goesOn_execFrespFail {p fbid : Nat} (h : Keeps s t) : GoesOn s (execFrespFail p fbid t) := by
  dsimp only [execFrespFail]
  split
  · exact .next h
  · refine .next ?_
    refine .foldl ?_ fun _ h => h.afterMiss
    refine .fbFree ?_
    refine .foldl h fun x h => ?_
    split
    · exact h.modMiss
    · exact .ite h.modMiss h.modMiss.dropRedo

theorem Keeps.tlbStart {p : Nat} {rng : Option (Nat × Nat)} {reg : W64} (h : Keeps s t) :
    Keeps s (t.tlbStart p rng reg) := by
  unfold State.tlbStart
  exact .ite h (.mapWaves (.coherentWaits (.rest h.modPart)) fun _ k => fileWf_waitaAgain k _ _ _ _)

theorem goesOn_execTlbinvPartition {p : Nat} (h : Keeps s t) : GoesOn s (execTlbinvPartition p t) := by
  unfold execTlbinvPartition
  exact .next h.tlbStart

theorem goesOn_execTlbinvRange {p : Nat} {npages : W32} (h : Keeps s t) : GoesOn s (execTlbinvRange p npages t) := by
  unfold execTlbinvRange
  exact .next h.tlbStart

theorem goesOn_execTlbInvalidationEnd {p : Nat} (h : Keeps s t) : GoesOn s (execTlbInvalidationEnd p t) := by
  unfold execTlbInvalidationEnd
  exact .ite (.next h.modPart) (.next h)

theorem goesOn_execFaultQueueHeadAdvance {p : Nat} {value : W64} (h : Keeps s t) :
    GoesOn s (execFaultQueueHeadAdvance p value t) := by
  unfold execFaultQueueHeadAdvance
  exact .next h.modPart.fqDrain

theorem goesOn_execStopRingHeadAdvance {p : Nat} {value : W64} (h : Keeps s t) :
    GoesOn s (execStopRingHeadAdvance p value t) := by
  unfold execStopRingHeadAdvance
  exact .next h.modPart.dsDrain

theorem Keeps.errLose (h : Keeps s t) : Keeps s t.errLose := by
  unfold State.errLose
  exact h

theorem Keeps.errDrain {fuel : Nat} (h : Keeps s t) : Keeps s (t.errDrain fuel) := by
  induction fuel generalizing t with
  | zero => exact h
  | succ n ih =>
    unfold State.errDrain
    split
    · exact h
    · exact .ite h (ih (.wrOut (.rest h)))
    · extract_lets err u
      have hu : Keeps s u := h
      split
      · exact ih hu.errLose
      · exact .ite (ih hu.errLose) (.ite h (ih (.ite (.msix (.rest hu.wrOut)) (.rest hu.wrOut))))

theorem Keeps.errQueue {at_ : Option Nat} {bytes : List Byte} (h : Keeps s t) : Keeps s (t.errQueue at_ bytes) := by
  unfold State.errQueue
  exact .errDrain h

theorem Keeps.errPost {src sev act : Nat} {addr : W64} {x : ErrAt} (h : Keeps s t) :
    Keeps s (t.errPost src sev act addr x) := by
  unfold State.errPost
  exact h.errQueue

theorem Keeps.ueCount (h : Keeps s t) : Keeps s t.ueCount := by
  unfold State.ueCount
  exact h

theorem goesOn_execCorrectedError {src : BitVec 8} {addr : W64} {part : BitVec 8} (h : Keeps s t) :
    GoesOn s (execCorrectedError src addr part t) := by
  unfold execCorrectedError
  exact .next (.ite (.errPost h) h)

theorem Keeps.errRecord {g : GroupId} {core slot : Nat} (h : Keeps s t) : Keeps s (t.errRecord g core slot) := by
  unfold State.errRecord
  exact h.fqPost

theorem Keeps.errRelaunch {g : Group} (h : Keeps s t) : Keeps s (t.errRelaunch g) := by
  unfold State.errRelaunch
  exact .rest (.modGroup h.stopGroup fun _ => id)

theorem Keeps.relaunchGroup {id : GroupId} (h : Keeps s t) : Keeps s (t.relaunchGroup id) := by
  dsimp only [State.relaunchGroup]
  split
  · exact .ite h.modChan.releaseGroup.modLaunch (.modGroup h fun _ k => k)
  · exact .modGroup h fun _ k => k

theorem Keeps.stopOthers {g : GroupId} {uid : Nat} (h : Keeps s t) : Keeps s (t.stopOthers g uid) := by
  unfold State.stopOthers
  exact .modGroup h.stopWaves fun _ => id

theorem Keeps.trap13 {uid : Nat} {tail : W64} (h : Keeps s t) : Keeps s (t.trap13 uid tail) := by
  dsimp only [State.trap13]
  split
  · exact h
  · split
    · exact h.giveUp.trapEntry
    · exact h.giveUp

theorem Keeps.errTrap {g : Group} {w : Wave} {tail : W64} (h : Keeps s t) : Keeps s (t.errTrap g w tail) := by
  unfold State.errTrap
  exact h.errRecord.stopOthers.trap13

theorem Keeps.takeErr {uid : Nat} {tail : W64} (h : Keeps s t) : Keeps s (t.takeErr uid tail) := by
  dsimp only [State.takeErr]
  split
  · exact h
  · split
    · exact h
    · exact .ite (.ite h.trap13 h.stopGroup.errRecord) (.ite h h.errTrap)

theorem Keeps.refetch {src core idx : Nat} (h : Keeps s t) : Keeps s (t.refetch src core idx) := by
  unfold State.refetch
  exact .ite h (.ite h (.ite h h))

theorem goesOn_execUncorrectableError {src : BitVec 8} {addr : W64} {g : GroupId} {rd : ErrReader} (h : Keeps s t) :
    GoesOn s (execUncorrectableError src addr g rd t) := by
  dsimp only [execUncorrectableError]
  split
  · exact .next h.ueCount.refetch.errPost
  · split
    · exact .next h
    · split
      · exact .next h
      · split
        · exact .next h.ueCount.errPost
        · split
          · exact .next h.ueCount.errPost.errRelaunch
          · split
            · exact .next (.rest h.ueCount.errPost)
            · exact .next h.ueCount.errPost.stopGroup.errRecord

theorem Keeps.poisonLine {line : Nat} (h : Keeps s t) : Keeps s (t.poisonLine line) := by
  unfold State.poisonLine
  exact h

theorem Keeps.dropCopies {line : Nat} (h : Keeps s t) : Keeps s (t.dropCopies line) := by
  unfold State.dropCopies
  exact .foldl h fun _ h => .flipAnswered h

theorem goesOn_execMemoryUncorrectableError {kind : MemErr} {pa : Nat} (h : Keeps s t) :
    GoesOn s (execMemoryUncorrectableError kind pa t) := by
  dsimp only [execMemoryUncorrectableError]
  split
  · exact .next h
  · split
    · exact .next h.ueCount.poisonLine.dropCopies.errPost
    · exact .next h.ueCount.poisonLine.errPost
    · exact .ite (.next h.ueCount.poisonLine.errPost) (.next (.errPost (.rest h.ueCount)))

theorem Keeps.failChan {core : Nat} (h : Keeps s t) : Keeps s (t.failChan core) := by
  dsimp only [State.failChan]
  refine .modChan ?_
  refine .foldl h fun x h => ?_
  split
  · exact h.endCopy
  · exact h

theorem Keeps.fenceGroup {g : Group} (h : Keeps s t) : Keeps s (t.fenceGroup g) := by
  unfold State.fenceGroup
  exact .ite h (.ite h.errRelaunch h.stopGroup.errRecord)

theorem goesOn_execClusterFence {c : Nat} (h : Keeps s t) : GoesOn s (execClusterFence c t) := by
  unfold execClusterFence
  extract_lets owner at_ u v w x y
  have hx : Keeps s x := .foldl (.foldl h.ueCount.errPost.modCluster fun _ h => h.fenceGroup) fun _ h => h.failChan
  have hy : Keeps s y := hx.updGroups fun _ k => k
  clear_value owner
  refine .ite (.next h) ?_
  split
  · exact .next hy
  · exact .next hy.modPart.fqPost

theorem goesOn_dresume {p : Nat} {lid : W32} {wave : BitVec 4} {d : DbgState} (h : Keeps s t) :
    GoesOn s (t.dresume p lid wave d) := by
  dsimp only [State.dresume]
  split
  · exact .next h
  · exact .next (.trace (.modWave h fun _ => id))

theorem goesOn_execDresumeKill {p : Nat} {lid : W32} {wave : BitVec 4} (h : Keeps s t) :
    GoesOn s (execDresumeKill p lid wave t) := by
  dsimp only [execDresumeKill]
  split
  · exact .next h
  · exact .next h.stopGroup

theorem goesOn_execTraceLoss {core : Nat} (h : Keeps s t) : GoesOn s (execTraceLoss core t) := by
  unfold execTraceLoss
  exact .next h.trLoss

theorem Keeps.modPort {hd : Nat} {f : HostPort → HostPort} (h : Keeps s t) : Keeps s (t.modPort hd f) := by
  unfold State.modPort
  exact h

theorem Keeps.bflip {page : BitVec 28} {op : Nat → Bool → State → State} (h : Keeps s t)
    (hop : ∀ {u : State} {n : Nat} {b : Bool}, Keeps s u → Keeps s (op n b u)) : Keeps s (t.bflip page op) := by
  unfold State.bflip
  exact .ite h (.ite h (hop (.rest h)))

theorem goesOn_execBflipToDevice {page : BitVec 28} (h : Keeps s t) : GoesOn s (execBflipToDevice page t) := by
  unfold execBflipToDevice
  exact .next (h.bflip fun h => .ite h (.rest (.foldl h fun _ h => h.ask)))

theorem goesOn_execBflipToHost {page : BitVec 28} (h : Keeps s t) : GoesOn s (execBflipToHost page t) := by
  unfold execBflipToHost
  exact .next (h.bflip fun h => .ite h (.rest h))

theorem goesOn_execBflipQuery {page : BitVec 28} (h : Keeps s t) : GoesOn s (execBflipQuery page t) := by
  unfold execBflipQuery
  exact .next (h.bflip fun h => h)

theorem Keeps.acceptBack {b : Nat × List Byte} (h : Keeps s t) : Keeps s (t.acceptBack b) :=
  h.withHome fun k => winSet_wf k _ _

end Sys2Proof.Machine
end

section
/-!
SUPPORT. The host's accesses, leases, links, resets, attestation and the registers.
-/

namespace Sys2Proof.Machine

open Sys2Proof.Claims

variable {s t : State}

theorem Keeps.flipAccept {f : Flip} (h : Keeps s t) : Keeps s (t.flipAccept f) := by
  dsimp only [State.flipAccept, State.free]
  split
  · exact h
  · exact .rest (.foldl h fun _ h => h.acceptBack)

theorem goesOn_execBiasFlipEnd (h : Keeps s t) : GoesOn s (execBiasFlipEnd t) := by
  dsimp only [execBiasFlipEnd]
  split
  · exact .next h
  · exact .ite (.next h) (.next (.ite h h.flipAccept))

theorem goesOn_execBackInvalidateResponse {host line : Nat} (h : Keeps s t) :
    GoesOn s (execBackInvalidateResponse host line t) := by
  dsimp only [execBackInvalidateResponse]
  split
  · exact .next h
  · exact .next h.merge

theorem Keeps.yieldLine {line : Nat} {own : Bool} (h : Keeps s t) : Keeps s (t.yieldLine line own) := by
  unfold State.yieldLine
  exact .rest h.sendHome

theorem goesOn_execHostSnoop {host line : Nat} {own : Bool} (h : Keeps s t) : GoesOn s (execHostSnoop host line own t) := by
  unfold execHostSnoop
  exact .ite (.next h) (.next (.rest h.yieldLine))

theorem Keeps.homeLine {pa : Nat} {own : Bool} (h : Keeps s t) : Keeps s (t.homeLine pa own) := by
  unfold State.homeLine
  exact .ite h.yieldLine h

theorem Keeps.takeLine {host pa : Nat} {write : Bool} (h : Keeps s t) : Keeps s (t.takeLine host pa write) := by
  unfold State.takeLine
  exact .reclaim (.ite (.foldl h fun _ h => h.merge) h)

theorem Keeps.makeRoom {host : Nat} (h : Keeps s t) : Keeps s (t.makeRoom host) := by
  dsimp only [State.makeRoom, State.free]
  split
  · split
    · exact h
    · exact .merge (.ite h h)
  · exact h

theorem Keeps.hostRead {host pa size : Nat} {keep : Bool} (h : Keeps s t) : Keeps s (t.hostRead host pa size keep) := by
  dsimp only [State.hostRead]
  split
  · exact h
  · split
    · exact h
    · exact .ite (.rest (.ite h.homeLine.takeLine h.homeLine.takeLine.slcTouch))
        (.ite (.rest (.makeRoom (.rest (.ite h.homeLine.takeLine h.homeLine.takeLine.slcTouch))))
            (.rest (.ite h.homeLine.takeLine h.homeLine.takeLine.slcTouch)))

theorem Keeps.hostOld {host : Nat} {rmw : Option HostAtom} {old : List Byte} (h : Keeps s t) :
    Keeps s (t.hostOld host rmw old) := by
  unfold State.hostOld
  exact .ite h h

theorem goesOn_execHostMemWrite {host pa : Nat} {bytes : List Byte} {own : Bool} {rmw : Option HostAtom} (h : Keeps s t) :
    GoesOn s (execHostMemWrite host pa bytes own rmw t) := by
  unfold execHostMemWrite
  extract_lets line n mine owned u v all old x s1 old1 new w w'
  have hu : Keeps s u := .foldl h fun _ h => h.ask.merge
  have h1 : Keeps s s1 := h.homeLine.takeLine
  have hw : Keeps s w := by
    unfold w
    split
    · exact .withHome (t := { s1 with mem := winSet s1.mem pa new })
        (h1.withMem fun k => winSet_wf k _ _) fun k => winSet_wf k _ _
    · exact h1.slcWrite
  have hv : Keeps s v := by
    unfold v
    clear_value mine
    exact .ite hu hu.makeRoom
  exact .ite (.next h) (.ite (.next (.hostOld (.rest hv))) (.ite (.next (.rest h1)) (.next (.hostOld (.ite (.rest hw) hw)))))

theorem goesOn_execCsmApertureAccess {host off size : Nat} {write : Option W64} (h : Keeps s t) :
    GoesOn s (execCsmApertureAccess host off size write t) := by
  dsimp only [execCsmApertureAccess]
  split
  · exact .next h
  · split
    · exact .next h
    · split
      · exact .next (.ite h.wrNat h)
      · exact .ite (.next h) (.next h)

theorem Keeps.flush {hd : Nat} (h : Keeps s t) : Keeps s (t.flush hd) := by
  unfold State.flush
  exact .ite h (.modPort h)

theorem Keeps.takeover (h : Keeps s t) : Keeps s t.takeover := by
  dsimp only [State.takeover]
  split
  · exact h
  · exact .flush (.foldl (.rest h.modPort.modPort) fun _ h => h.msix)

theorem Keeps.takeoverIf (h : Keeps s t) : Keeps s t.takeoverIf := by
  dsimp only [State.takeoverIf]
  split
  · exact .ite h.takeover h
  · exact h

theorem Keeps.leaseWrite {hd : Nat} {nonce : W32} {ok : Bool} {f : State → State} (h : Keeps s t)
    (hf : ∀ {u : State}, Keeps s u → Keeps s (f u)) : Keeps s (t.leaseWrite hd nonce ok f) :=
  .ite h (.ite (hf (.modPort h)) h.modPort)

theorem goesOn_execLeaseRenew {port : Nat} {nonce : W32} {period : BitVec 16} (h : Keeps s t) :
    GoesOn s (execLeaseRenew port nonce period t) := by
  unfold execLeaseRenew
  exact .next (h.leaseWrite fun h => h.modPort.flush)

theorem goesOn_execLeaseArm {port : Nat} {nonce : W32} (h : Keeps s t) : GoesOn s (execLeaseArm port nonce t) := by
  unfold execLeaseArm
  refine .next (h.leaseWrite fun {u} h => ?_)
  extract_lets v
  have hv : Keeps s v := h.modPort
  clear_value v
  split
  · exact .ite hv.takeover hv
  · exact hv

theorem goesOn_execLeaseDisarm {port : Nat} {nonce : W32} (h : Keeps s t) : GoesOn s (execLeaseDisarm port nonce t) := by
  unfold execLeaseDisarm
  exact .next (h.leaseWrite fun h => h.modPort)

theorem goesOn_execLeaseYield {port : Nat} {nonce : W32} (h : Keeps s t) : GoesOn s (execLeaseYield port nonce t) := by
  unfold execLeaseYield
  exact .next (h.leaseWrite fun h => h.takeover)

theorem goesOn_execLeaseExpiry (h : Keeps s t) : GoesOn s (execLeaseExpiry t) := by
  dsimp only [execLeaseExpiry]
  split
  · exact .ite (.next h) (.ite (.next h.takeover) (.next (.modPort h)))
  · exact .next h

theorem Keeps.lfSave {line : Nat} (h : Keeps s t) : Keeps s (t.lfSave line) := by
  unfold State.lfSave
  exact .rest (.ite h.ueCount.errPost h.errQueue)

theorem Keeps.lineLost {line : Nat} (h : Keeps s t) : Keeps s (t.lineLost line) :=
  h.withMem fun k => Sparse.wf_foldl_set _ _ _ k

theorem Keeps.fencePart {p : Nat} (h : Keeps s t) : Keeps s (t.fencePart p) := by
  unfold State.fencePart
  exact h.killPart.modPart

theorem goesOn_execLinkDown {port : Nat} (h : Keeps s t) : GoesOn s (execLinkDown port t) := by
  unfold execLinkDown
  exact .ite (.next h)
      (.ite (.next
          (.rest (.foldl
              (.rest (.foldl h.modPort fun _ h => .flipAnswered (.ite h.poisonLine h))) fun _ h => h.lfSave.lineLost)))
                  (.next (.ite
                      (.modPort
                          (.takeoverIf
                              (.rest (.foldl
                                  (.rest (.foldl h.modPort fun _ h => .flipAnswered
                                      (.ite h.poisonLine h))) fun _ h => h.lfSave.lineLost))))
                                          (.takeoverIf
                                              (.rest (.foldl
                                                  (.rest (.foldl h.modPort fun _ h => .flipAnswered
                                                      (.ite h.poisonLine h))) fun _ h => h.lfSave.lineLost))))))

theorem goesOn_execLinkUp {port : Nat} (h : Keeps s t) : GoesOn s (execLinkUp port t) := by
  unfold execLinkUp
  exact .ite (.next h.modPort.flush) (.next h)

theorem goesOn_execCxwinWrite {n : Nat} {sz : Bool} {value : W64} (h : Keeps s t) :
    GoesOn s (execCxwinWrite n sz value t) := by
  unfold execCxwinWrite
  exact .ite (.next h) (.ite (.ite (.next h) (.next h)) (.ite (.next h) (.next h)))

theorem goesOn_execCxlCompletionTimeout {pa : Nat} {who : Option (Nat × Nat)} (h : Keeps s t) :
    GoesOn s (execCxlCompletionTimeout pa who t) := by
  dsimp only [execCxlCompletionTimeout]
  split
  · exact .next h
  · split
    · exact .next h.ueCount.errPost.poisonLine
    · split
      · exact .next h
      · exact .ite (.next h.ueCount.errPost.poisonLine) (.next h)

theorem Keeps.recover {err : Nat} (h : Keeps s t) : Keeps s (t.recover err) := by
  unfold State.recover
  exact h

theorem Keeps.verify {img : List Byte} (h : Keeps s t) : Keeps s (t.verify img) := by
  dsimp only [State.verify]
  split
  · exact h
  · exact .rest h.recover

theorem Keeps.trained (h : Keeps s t) : Keeps s t.trained := by
  dsimp only [State.trained]
  split
  · exact h.recover
  · exact h

theorem Keeps.trainMemory (h : Keeps s t) : Keeps s t.trainMemory := by
  unfold State.trainMemory
  exact .ite h h

theorem Keeps.bootNext (h : Keeps s t) : Keeps s t.bootNext := by
  unfold State.bootNext
  exact .ite h (.ite h.trainMemory (.ite h.trained h.verify))

theorem Keeps.bootStep (h : Keeps s t) : Keeps s t.bootStep := by
  unfold State.bootStep State.free
  exact .ite h (.ite h.bootNext (.ite (.bootNext h) h))

theorem goesOn_execPowerGood (h : Keeps s t) : GoesOn s (execPowerGood t) := by
  unfold execPowerGood
  exact .next (.ite h h)

theorem goesOn_execRecoveryImageCheck {value : W64} (h : Keeps s t) : GoesOn s (execRecoveryImageCheck value t) := by
  unfold execRecoveryImageCheck
  exact .ite (.next h) (.ite (.next h.recover) (.next h))

/-- What is left after a reset has nothing stored. -/
theorem Keeps.cleared : Keeps s t.cleared := ⟨fun _ => ⟨rfl, rfl⟩, fun _ => rfl, fun _ => rfl⟩

/-- A state with no wave and no group has in canonical form what its memory, its homes and its images have. -/
theorem Keeps.vacated {u : State} (h : Keeps s t)
    (hm : Memory.wf s.mem = true ∧ Memory.wf s.home = true → Memory.wf u.mem = true)
    (hh : u.home = t.home) (hw : u.waves = []) (hg : u.groups = []) (hi : u.images = t.images) : Keeps s u := by
  refine ⟨fun k => ⟨hm k, ?_⟩, fun k => windowsWf_iff.mpr ?_, fun k => filesWf_iff.mpr ?_⟩
  · rw [hh]
    exact (h.1 k).2
  · rw [hg, hi]
    exact ⟨List.forall_mem_nil _, (windowsWf_iff.mp (h.2.1 k)).2⟩
  · rw [hw, hi]
    exact ⟨List.forall_mem_nil _, (filesWf_iff.mp (h.2.2 k)).2⟩

theorem goesOn_execDeviceReset (h : Keeps s t) : GoesOn s (execDeviceReset t) := by
  unfold execDeviceReset
  extract_lets kept u r
  have hk : Keeps s kept := .foldl h fun _ h => h.lineLost
  have hm : r.mem = kept.mem.filter fun x => !State.isCsm x.1 := rfl
  exact .next (.rest (t := r) (h.vacated (fun k => hm ▸ Sparse.wf_filter _ (hk.1 k).1) rfl rfl rfl rfl))

theorem goesOn_execPowerLoss : GoesOn s (execPowerLoss t) := .next (.rest .cleared)

theorem goesOn_execPmrExtend {p : Nat} {i : W64} (h : Keeps s t) : GoesOn s (execPmrExtend p i t) := by
  unfold execPmrExtend
  exact .ite (.next h) (.next h.modPart)

theorem goesOn_spdm {via : MgmtPath} {p : Nat} {bs : List Byte} (h : Keeps s t) : GoesOn s (t.spdm via p bs) := by
  unfold State.spdm
  exact .ite (.next h) (.next h)

theorem Keeps.nonced (h : Keeps s t) : Keeps s t.nonced := by
  unfold State.nonced
  exact h

theorem goesOn_execMailboxRequest {port : Nat} {m : MailAt} (h : Keeps s t) : GoesOn s (execMailboxRequest port m t) := by
  dsimp only [execMailboxRequest]
  split
  · exact .next h
  · split
    · exact .ite (goesOn_spdm h)
        (.ite (goesOn_spdm h)
            (.ite (goesOn_spdm h)
                (.ite (goesOn_spdm h)
                    (.ite (goesOn_spdm h) (.ite (goesOn_spdm h.nonced) (.ite (goesOn_spdm h.nonced) (goesOn_spdm h)))))))
    · exact .next h
    · exact .next h

theorem goesOn_execPldmSensorRead {x : Sensor} (h : Keeps s t) : GoesOn s (execPldmSensorRead x t) := by
  unfold execPldmSensorRead
  exact .next h

theorem goesOn_execPldmFwUpdate {image : List Byte} (h : Keeps s t) : GoesOn s (execPldmFwUpdate image t) := by
  unfold execPldmFwUpdate
  exact .next h

theorem Keeps.measure {diePower : Nat} {draws temps : List Nat} (h : Keeps s t) :
    Keeps s (t.measure diePower draws temps) := by
  unfold State.measure
  exact h

theorem Keeps.setClocks (h : Keeps s t) : Keeps s t.setClocks := by
  unfold State.setClocks
  exact h

theorem goesOn_execClockInterval {diePower : Nat} {draws temps : List Nat} (h : Keeps s t) :
    GoesOn s (execClockInterval diePower draws temps t) := by
  unfold execClockInterval
  exact .next (.ite h.measure h.measure.setClocks)

theorem Keeps.intervalStart (h : Keeps s t) : Keeps s t.intervalStart := by
  unfold State.intervalStart
  exact .ite h h.setClocks

theorem goesOn_execMsixVectorUnmask {port : Nat} {vec : MsixEntry} (h : Keeps s t) :
    GoesOn s (execMsixVectorUnmask port vec t) := by
  unfold execMsixVectorUnmask
  exact .next (.ite h.modPort h.modPort.flush)

theorem goesOn_transWrite {p off : Nat} {v : W64} (h : Keeps s t) : GoesOn s (t.transWrite p off v) := by
  dsimp only [State.transWrite]
  split
  · exact .next h.modPart
  · exact .next h.modPart.fqDrain
  · exact goesOn_execFaultQueueHeadAdvance h
  · exact .ite (goesOn_execFrespRetry h) (.ite (goesOn_execFrespFail h) (.next h))
  · exact .ite (.next h.tlbStart) (.ite (.next h.tlbStart) (.ite (.next h) (.next h.modPart)))
  · exact .ite (.next h) (.next h.modPart)
  · exact .next h

theorem goesOn_leaseCmd {port : Nat} {v : W64} (h : Keeps s t) : GoesOn s (t.leaseCmd port v) := by
  dsimp only [State.leaseCmd]
  split
  · exact goesOn_execLeaseRenew h
  · exact goesOn_execLeaseArm h
  · exact goesOn_execLeaseDisarm h
  · exact goesOn_execLeaseYield h
  · exact .next (h.leaseWrite id)

theorem goesOn_bflipCmd {v : W64} (h : Keeps s t) : GoesOn s (t.bflipCmd v) := by
  dsimp only [State.bflipCmd]
  split
  · exact goesOn_execBflipToDevice h
  · exact goesOn_execBflipToHost h
  · exact goesOn_execBflipQuery h
  · exact .next (.ite h h)

theorem Keeps.dbgctlWrite {p : Nat} {v : W64} (h : Keeps s t) : Keeps s (t.dbgctlWrite p v) := by
  unfold State.dbgctlWrite
  exact .ite h.modPart.syncNext h.modPart

theorem goesOn_dbgWrite {p off : Nat} {v : W64} (h : Keeps s t) : GoesOn s (t.dbgWrite p off v) := by
  dsimp only [State.dbgWrite]
  split
  · exact .next h.dbgctlWrite
  · exact .next h.modPart
  · exact goesOn_execStopRingHeadAdvance h
  · split
    · exact goesOn_dresume h
    · exact goesOn_dresume h
    · exact goesOn_execDresumeKill h
    · exact .next h
  · exact .next h.modPart
  · split
    · exact .next h
    · split
      · exact .next h.modPart
      · exact .next h.modPart
      · exact .next h.modPart
      · exact .next h

theorem goesOn_errWrite {off : Nat} {v : W64} (h : Keeps s t) : GoesOn s (t.errWrite off v) := by
  dsimp only [State.errWrite]
  split
  · exact .next h
  · exact .next h
  · exact .next h
  · exact .next h

theorem goesOn_pmrWrite {p off : Nat} {v : W64} (h : Keeps s t) : GoesOn s (t.pmrWrite p off v) := by
  unfold State.pmrWrite
  exact .ite (.next h.modPart) (.ite (goesOn_execPmrExtend h) (.next h))

theorem Keeps.hpstatWrite {v : W64} (h : Keeps s t) : Keeps s (t.hpstatWrite v) := by
  unfold State.hpstatWrite
  exact .modPort (.modPort h)

theorem goesOn_ctlWrite {p off : Nat} {v : W64} (h : Keeps s t) : GoesOn s (t.ctlWrite p off v) := by
  unfold State.ctlWrite
  refine .ite ?_ ?_
  · split
    · exact .next h.modPart
    · exact .next h.modPart
    · exact .next h.modPart
    · exact .next h.modPart
    · exact .next h.modPart
    · split
      · exact goesOn_execCommit h
      · exact goesOn_startSave h
      · exact goesOn_execRestore h
      · exact goesOn_startSave h
      · exact goesOn_execKill h
      · exact .next (.ite h.rejectCmd h)
    · exact .next h.modPart
    · exact .next h.modPart
    · exact .next h
  · split
    · exact .next h.modLq
    · exact .next h.modLq
    · exact .next h

theorem goesOn_writeReg {port off : Nat} {v : W64} (h : Keeps s t) : GoesOn s (t.writeReg port off v) := by
  unfold State.writeReg
  refine .ite (goesOn_transWrite h) <| .ite (.next (.rest h)) <| .ite (goesOn_ctlWrite h) <| .ite
      (.ite (goesOn_leaseCmd h) (.next h)) <|
    .ite (.ite (goesOn_leaseCmd h) (.next h)) <| .ite (.next h.hpstatWrite) <| .ite (goesOn_bflipCmd h) <| .ite
        (.next (.rest h)) <|
    .ite (goesOn_execCxwinWrite h) <| .ite (goesOn_dbgWrite h) <| .ite (goesOn_errWrite h) <| .ite
        (.next h.modCore.trLoss) <|
    .ite (goesOn_execRecoveryImageCheck h) <| .ite ?_ <| .ite (goesOn_pmrWrite h) <| .ite (.next h.modPart) (.next h)
  split
  · exact goesOn_execMailboxRequest h
  · exact .next h

theorem Keeps.bar0Read {port off size : Nat} (h : Keeps s t) : Keeps s (t.bar0Read port off size) := by
  unfold State.bar0Read
  exact .ite h (.ite h (.rest (.ite h h)))

theorem goesOn_execHostMemRead {host pa size : Nat} {keep : Bool} (h : Keeps s t) :
    GoesOn s (execHostMemRead host pa size keep t) := by
  unfold execHostMemRead
  exact .next (.ite h.bar0Read h.hostRead)

theorem goesOn_execRegisterWrite {port addr size : Nat} {value : W64} (h : Keeps s t) :
    GoesOn s (execRegisterWrite port addr size value t) := by
  unfold execRegisterWrite
  exact .ite (.next h)
      (.ite (.next h)
          (.ite (.next h.wrNat) (.ite (.ite (goesOn_execDoorbellWrite h) (.next h)) (.ite (goesOn_writeReg h) (.next h)))))

theorem goesOn_xviExec {i : Instr} (h : Keeps s t) : GoesOn s (xviExec i t) := by
  dsimp only [xviExec]
  split
  · exact goesOn_alu3 h
  · exact goesOn_alu3 h
  · exact goesOn_alu3 h
  · exact goesOn_alu3 h
  · exact goesOn_alu3 h
  · exact goesOn_aluBits h
  · exact goesOn_aluBits h
  · exact goesOn_aluBits h
  · exact goesOn_aluB h
  · exact goesOn_aluB h
  · exact goesOn_aluB h
  · exact goesOn_alu3 h
  · exact goesOn_alu3 h
  · exact goesOn_alu3 h
  · exact goesOn_mould h
  · exact goesOn_aluCount h
  · exact goesOn_aluCount h
  · exact goesOn_aluB h
  · exact goesOn_aluB h
  · exact goesOn_mould h
  · exact goesOn_mould h
  · exact goesOn_mould h
  · exact goesOn_mouldP h
  · exact goesOn_mould h
  · exact goesOn_aluCount h
  · exact goesOn_issue h fun e _ k h => keeps_fixed h
  · exact goesOn_issue h fun e _ k h => keeps_fixed h
  · exact goesOn_fp3 h
  · exact goesOn_fp3 h
  · exact goesOn_fp3 h
  · exact goesOn_fp3 h
  · exact goesOn_fpMinMax h
  · exact goesOn_fpMinMax h
  · exact goesOn_mouldP h
  · exact goesOn_mould h
  · exact goesOn_hmould h
  · exact goesOn_hmould h
  · exact goesOn_hmould h
  · exact goesOn_special h
  · exact goesOn_special h
  · exact goesOn_special h
  · exact goesOn_special h
  · exact goesOn_special h
  · exact goesOn_special h
  · exact goesOn_special h
  · exact goesOn_special h
  · exact goesOn_mould h
  · exact goesOn_mould h
  · exact goesOn_issue h fun e _ k h => keeps_fixed h
  · exact goesOn_mould h
  · exact goesOn_mould h
  · exact goesOn_issue h fun _ _ _ h => h.startSp
  · exact goesOn_issue h fun _ _ _ h => h.startSp
  · exact goesOn_spAtomic h
  · exact goesOn_spAtomic h
  · exact .next h

theorem goesOn_execXviPath (h : Keeps s t) : GoesOn s (execXviPath t) := by
  unfold execXviPath
  split
  · exact .next h
  · refine .ite (.next h) ?_
    split
    · rename_i w _ _ i _
      have hi := goesOn_xviExec (i := i) (t := t.modWave w.id fun w => { w.atPath with prev := none })
        (h.modWave fun w k => fileWf_atPath (w := w) k)
      split
      · rename_i u e
        have hu : Keeps s u := hi u e
        split
        · exact .next hu
        · refine .ite (.next hu) ?_
          have hw := hu.fileWf_wave? ‹_›
          split
          · exact .next (hu.modWave fun _ k => k)
          · extract_lets done v y
            have hy : Keeps s y := hu.trace.setWave fun k => fileWf_pathDone (hw k) _
            exact .next (.ite hy.trace hy)
      · exact hi
    · exact .next h

end Sys2Proof.Machine
end

section
/-!
SUPPORT. The cycle, the issue slot and the step.
-/

namespace Sys2Proof.Machine

open Sys2Proof.Claims

variable {s t : State}

theorem Keeps.passQuarter {core q : Nat} {sel : Option Nat} (h : Keeps s t) : Keeps s (t.passQuarter core q sel) :=
  h.updWaves fun _ _ k => fileWf_passCycle k _ _ _ _

theorem goesOn_execBwait {hd : Hdr} {o : BwaitOp} (h : Keeps s t) : GoesOn s (execBwait hd o t) :=
  goesOn_issue h fun _ _ _ h => .ite (.bwaitRead (.modWave h fun _ k => k)) (keeps_done1 h)

theorem goesOn_waitHead {w : Wave} {r : (State → Res) × Hdr} (e : t.waitHead w = some r) {u : State} (h : Keeps s u) :
    GoesOn s (r.1 u) := by
  simp only [State.waitHead] at e
  split at e
  · cases e
  · split at e
    · cases e; exact goesOn_execBwait h
    · cases e; exact goesOn_execWaita h
    · cases e

theorem Keeps.beginWait {w : Wave} {takes : Hdr → Wave → Bool} (h : Keeps s t) : Keeps s (t.beginWait w takes) := by
  unfold State.beginWait
  split
  · exact h
  · rename_i hr
    extract_lets now v
    have hv : Keeps s v := h.modWave fun _ k => k
    refine .ite (.ite ?_ hv) h
    split
    · exact .ite (.modWave (.rest (goesOn_waitHead hr (u := { v with cur := w.id }) hv _ ‹_›)) fun _ k => k) hv
    · exact hv

theorem Keeps.firstReads {core q : Nat} (h : Keeps s t) : Keeps s (t.firstReads core q) := by
  unfold State.firstReads
  exact .foldl h fun _ h => h.beginWait

theorem Keeps.passedReads {core q : Nat} {sel : Option Nat} (h : Keeps s t) : Keeps s (t.passedReads core q sel) := by
  unfold State.passedReads
  exact .foldl h fun _ h => h.beginWait

theorem Keeps.takeDues {core q : Nat} (h : Keeps s t) : Keeps s (t.takeDues core q) := by
  refine .foldl h fun x h => ?_
  split
  · exact .ite (h.takeDue (h.fileWf_wave? ‹_›)) h
  · exact h

theorem Keeps.badHead {w : Wave} {x : Head} (h : Keeps s t) : Keeps s (t.badHead w x) := by
  dsimp only [State.badHead]
  split
  · exact h.trapAt
  · exact h.trapAt
  · exact h

theorem Keeps.fetchPark {w : Wave} (h : Keeps s t) : Keeps s (t.fetchPark w) := by
  dsimp only [State.fetchPark]
  split
  · exact h
  · split
    · exact h.park
    · exact h

theorem Keeps.timeStep (h : Keeps s t) : Keeps s t.timeStep := by
  unfold State.timeStep
  exact .ite h (.ite h h)

theorem Keeps.prefAll (h : Keeps s t) : Keeps s t.prefAll := by
  unfold State.prefAll
  exact .foldl h fun _ h => h.prefStep

theorem Keeps.drainAllRecords (h : Keeps s t) : Keeps s t.drainAllRecords := by
  unfold State.drainAllRecords
  exact .foldl h.errDrain fun _ h => h.fqDrain.dsDrain

theorem Keeps.waitStep (h : Keeps s t) : Keeps s t.waitStep := by
  unfold State.waitStep
  exact .askSlots
      (.foldl
          (.drainAllRecords
              (.prefAll (.foldl (.foldl h fun _ h => h.fetchPark) fun _ h => h.redoAll))) fun _ h => h.askBlock)

theorem Keeps.capStep {before : Nat} (h : Keeps s t) : Keeps s (t.capStep before) := by
  unfold State.capStep
  exact .ite h h

theorem Keeps.tick (h : Keeps s t) : Keeps s t.tick := by
  unfold State.tick
  extract_lets u ticks boot u1 key outs u2 u3 due all
  have hu : Keeps s u := .ite h.trFlush h
  have h1 : Keeps s u1 := .capStep (.timeStep (.rest hu.bootStep))
  have h2 : Keeps s u2 := .rest (h1.mapWaves fun w k => by
    split
    · exact fileWf_begin k _
    · exact k)
  exact .rest h2.waitStep.markEligible

theorem Keeps.takeOut {src : Sender} {x : Put} (h : Keeps s t) : Keeps s (t.takeOut src x) := by
  dsimp only [State.takeOut]
  split
  · exact h.landOut
  · exact h.landOut
  · split
    · exact .ite h.killGroup h
    · exact h
  · split
    · exact .ite h.traceFrom h
    · exact h
  · exact h

theorem Keeps.parkCharge {w : Wave} (h : Keeps s t) : Keeps s (t.parkCharge w) := by
  refine .modUid h fun v k => ?_
  split
  · exact fileWf_charge k _
  · exact k

/-- What the machine executes keeps the canonical forms, whichever instruction or event it is. -/
theorem goesOn_exec {i : Instr} (h : Keeps s t) : GoesOn s (exec i t) := by
  cases i with
  | nop | trap => unfold exec; exact goesOn_issue h fun _ _ _ h => keeps_done1 h
  | bra | bz | bnz | call | ret | jmpi => unfold exec; exact goesOn_transfer h
  | exit =>
    unfold exec
    exact goesOn_issue h fun _ _ _ h => .ite (.modGroup (.modWave h fun _ k => k) fun _ k => k) (keeps_done1 h)
  | exitSucc => unfold exec; exact goesOn_execExitSucc h
  | waitc | csrr | csrw | plog | pmov | pack6 | setpri => unfold exec; exact goesOn_issue h fun _ _ _ h => keeps_fixed h
  | yield | sleep | qdrop | dbgbrk =>
    unfold exec
    dsimp only [execYield, execSleep, execQdrop, execDbgbrk]
    exact goesOn_issue h fun _ _ _ h => .ite (.modWave (keeps_done1 h) fun _ k => k) (keeps_done1 h)
  | xvi => unfold exec; exact goesOn_execXvi h
  | xviPath => unfold exec; exact goesOn_execXviPath h
  | exset => unfold exec; exact goesOn_issue h fun _ _ _ h => .trace (.modWave (keeps_done1 h) fun _ k => k)
  | exget | pmask | gettime => unfold exec; exact goesOn_scalarPair h
  | sldkArg | barinit | btest | launchEnq =>
    unfold exec
    dsimp only [execSldkArg, execBarinit, execBtest, execLaunchEnq]
    exact goesOn_issue h fun _ _ _ h => .ite h.addAcc (keeps_done1 h)
  | sldkConst =>
    unfold exec
    dsimp only [execSldkConst]
    exact goesOn_issue h fun _ _ _ h => .ite h.startLoad (keeps_done1 h)
  | sldkComplete => unfold exec; exact goesOn_execSldkComplete h
  | vadd | vsub | vmul | vmulh | vmad | vmin | vmax | vabsd => unfold exec; exact goesOn_alu3 h
  | vand | vor | vxor => unfold exec; exact goesOn_aluBits h
  | vshl | vshr | vsra | vbfe | vbfi => unfold exec; exact goesOn_aluB h
  | vadds | vsel | vmov | vmovi | vbint | frnd | cvt | qnt | unpack6 | mxsc => unfold exec; exact goesOn_mould h
  | vclz | vpopc | vbdei => unfold exec; exact goesOn_aluCount h
  | vcmp | fcmp => unfold exec; exact goesOn_mouldP h
  | fadd | fsub | fmul | ffma => unfold exec; exact goesOn_fp3 h
  | fmin | fmax => unfold exec; exact goesOn_fpMinMax h
  | hadd2 | hmul2 | hfma2 => unfold exec; exact goesOn_hmould h
  | frcp | frsq | fsqrt | fex2 | flg2 | fsin | fcos | ftanh => unfold exec; exact goesOn_special h
  | sfuResultWrite | crossLaneResultWrite => unfold exec; exact goesOn_orderedWrite h
  | sattst | satclr | satarm => unfold exec; exact goesOn_satInstr h
  | shfl | rdlane | wrlane | vred | vscan | vmatch => unfold exec; exact goesOn_crossLane h
  | lds | sts | blend =>
    unfold exec
    dsimp only [execLds, execSts, execBlend]
    exact goesOn_issue h fun _ _ _ h => h.startSp
  | atoms | reds => unfold exec; exact goesOn_spAtomic h
  | scratchpadOpPerformed => unfold exec; exact goesOn_execScratchpadOpPerformed h
  | arrive =>
    unfold exec
    dsimp only [execArrive]
    exact goesOn_issue h fun _ _ _ h => .ite (.modWave h.addAcc fun _ k => k) (keeps_done1 h)
  | barrierArrival => unfold exec; exact goesOn_execBarrierArrival h
  | bwait => unfold exec; exact goesOn_execBwait h
  | bwaitWake => unfold exec; exact goesOn_execBwaitWake h
  | bwaitTimeout => unfold exec; exact goesOn_execBwaitTimeout h
  | btestComplete => unfold exec; exact goesOn_execBtestComplete h
  | waita => unfold exec; exact goesOn_execWaita h
  | waitaWake => unfold exec; exact goesOn_execWaitaWake h
  | waitaPeriodicReread => unfold exec; exact goesOn_execWaitaPeriodicReread h
  | waitaTimeout => unfold exec; exact goesOn_execWaitaTimeout h
  | ldg =>
    unfold exec
    dsimp only [execLdg]
    exact goesOn_issue h fun _ _ _ h => h.pushDst.startLoad
  | stg | qstat | rast =>
    unfold exec
    dsimp only [execStg, execQstat, execRast]
    exact goesOn_issue h fun _ _ _ h => h.addAcc
  | atom => unfold exec; exact goesOn_issue h fun _ _ _ h => h.pushDst.startAtom
  | red => unfold exec; exact goesOn_issue h fun _ _ _ h => h.startAtom
  | globalLoadComplete => unfold exec; exact goesOn_execGlobalLoadComplete h
  | entryArrive => unfold exec; exact goesOn_execEntryArrive h
  | sliceAluPerform => unfold exec; exact goesOn_execSliceAluPerform h
  | globalStorePerformed => unfold exec; exact goesOn_execGlobalStorePerformed h
  | fence => unfold exec; exact goesOn_execFence h
  | fenceComplete => unfold exec; exact goesOn_execFenceComplete h
  | cctlInv | cctlClean | cctlCleaninv => unfold exec; exact goesOn_cctl h
  | cctlComplete => unfold exec; exact goesOn_execCctlComplete h
  | pref => unfold exec; exact goesOn_execPref h
  | qstatComplete => unfold exec; exact goesOn_execQstatComplete h
  | link => unfold exec; exact goesOn_issue h fun _ _ _ h => .ite (.tryLink (.modWave h fun _ k => k)) (keeps_done1 h)
  | linkComplete => unfold exec; exact goesOn_execLinkComplete h
  | unlink => unfold exec; exact goesOn_issue h fun _ _ _ h => .ite (.modWave h.post fun _ k => k) (keeps_done1 h)
  | tmma | tzero | gprog => unfold exec; exact goesOn_command h
  | tdrainSt | tdrainAddst => unfold exec; exact goesOn_tdrain h
  | gridQueueHead => unfold exec; exact goesOn_execGridQueueHead h
  | slabInject => unfold exec; exact goesOn_execSlabInject h
  | stepBoundary => unfold exec; exact goesOn_execStepBoundary h
  | tilePreempt => unfold exec; exact goesOn_execTilePreempt h
  | tileLinkWaitExpiry => unfold exec; exact goesOn_execTileLinkWaitExpiry h
  | tileRelink => unfold exec; exact goesOn_execTileRelink h
  | tdrainComplete => unfold exec; exact goesOn_execTdrainComplete h
  | cpy => unfold exec; exact goesOn_issue h fun _ _ _ h => .ite (.modWave (.modCore h) fun _ k => k) (keeps_done1 h)
  | copyAccept => unfold exec; exact goesOn_execCopyAccept h
  | copyUnit => unfold exec; exact goesOn_execCopyUnit h
  | copyComplete => unfold exec; exact goesOn_execCopyComplete h
  | htest | hwait => unfold exec; exact goesOn_handleRead h
  | handleStatusWrite => unfold exec; exact goesOn_execHandleStatusWrite h
  | hcancel => unfold exec; exact goesOn_execHcancel h
  | rbox | rtri | rhint | rhset => unfold exec; exact goesOn_rayOp h
  | tex | texq =>
    unfold exec
    dsimp only [execTex, execTexq]
    exact goesOn_issue h fun _ _ _ h => h.startBlock
  | rayOpComplete => unfold exec; exact goesOn_execRayOpComplete h
  | launchEnqComplete => unfold exec; exact goesOn_execLaunchEnqComplete h
  | launchCancel => unfold exec; exact goesOn_execLaunchCancel h
  | trapret =>
    unfold exec
    exact goesOn_issue h fun _ _ _ h => .ite (.trace (keeps_done1 h))
        (.ite h.stopGroup (.trace (.modWave (keeps_done1 h) fun _ k => k)))
  | faultretRetry | faultretSkip | faultretEmul => unfold exec; exact goesOn_faultret h
  | waveAged => unfold exec; exact goesOn_execWaveAged h
  | yieldExpiry => unfold exec; exact goesOn_execYieldExpiry h
  | sleepWake => unfold exec; exact goesOn_execSleepWake h
  | walkComplete => unfold exec; exact goesOn_execWalkComplete h
  | frespRetry => unfold exec; exact goesOn_execFrespRetry h
  | frespFail => unfold exec; exact goesOn_execFrespFail h
  | tlbinvPartition => unfold exec; exact goesOn_execTlbinvPartition h
  | tlbinvRange => unfold exec; exact goesOn_execTlbinvRange h
  | tlbInvalidationEnd => unfold exec; exact goesOn_execTlbInvalidationEnd h
  | doorbellWrite => unfold exec; exact goesOn_execDoorbellWrite h
  | nopPacket => unfold exec; exact goesOn_onPacket h fun _ h => .next (.ite h.consume h.reject)
  | launchPacket | graphPacket => unfold exec; exact goesOn_launchOrGraph h
  | fencePacket =>
    unfold exec
    exact goesOn_onPacket h fun _ h => .ite (.next h.reject) (.ite (.next h.reject) (.next h.fenceTry))
  | fenceCounterReread => unfold exec; exact goesOn_execFenceCounterReread h
  | signalPacket => unfold exec; exact goesOn_onPacket h fun _ h => .ite (.next h.modLq) (.next h.reject)
  | signalWrite => unfold exec; exact goesOn_execSignalWrite h
  | deadlinePacket => unfold exec; exact goesOn_onPacket h fun _ h => .ite (.next h.modLq.consume) (.next h.reject)
  | cancelPacket => unfold exec; exact goesOn_onPacket h fun _ h => .ite (.next h.reject) (.next h.cancelBy.consume)
  | placementDecision => unfold exec; exact goesOn_execPlacementDecision h
  | reservationStart => unfold exec; exact goesOn_execReservationStart h
  | groupRetire => unfold exec; exact goesOn_execGroupRetire h
  | unitComplete => unfold exec; exact goesOn_execUnitComplete h
  | lehrPromotion => unfold exec; exact goesOn_execLehrPromotion h
  | commit => unfold exec; exact goesOn_execCommit h
  | carvedWayWritebackEnd => unfold exec; exact goesOn_execCarvedWayWritebackEnd h
  | save | migsave => unfold exec; exact goesOn_startSave h
  | coresHalted => unfold exec; exact goesOn_execCoresHalted h
  | imageComplete => unfold exec; exact goesOn_execImageComplete h
  | imageWritten => unfold exec; exact goesOn_execImageWritten h
  | restore => unfold exec; exact goesOn_execRestore h
  | kill => unfold exec; exact goesOn_execKill h
  | bflipToDevice => unfold exec; exact goesOn_execBflipToDevice h
  | bflipToHost => unfold exec; exact goesOn_execBflipToHost h
  | bflipQuery => unfold exec; exact goesOn_execBflipQuery h
  | biasFlipEnd => unfold exec; exact goesOn_execBiasFlipEnd h
  | backInvalidateResponse => unfold exec; exact goesOn_execBackInvalidateResponse h
  | hostSnoop => unfold exec; exact goesOn_execHostSnoop h
  | hostMemRead => unfold exec; exact goesOn_execHostMemRead h
  | hostMemWrite => unfold exec; exact goesOn_execHostMemWrite h
  | csmApertureAccess => unfold exec; exact goesOn_execCsmApertureAccess h
  | leaseRenew => unfold exec; exact goesOn_execLeaseRenew h
  | leaseArm => unfold exec; exact goesOn_execLeaseArm h
  | leaseDisarm => unfold exec; exact goesOn_execLeaseDisarm h
  | leaseYield => unfold exec; exact goesOn_execLeaseYield h
  | leaseExpiry => unfold exec; exact goesOn_execLeaseExpiry h
  | linkDown => unfold exec; exact goesOn_execLinkDown h
  | linkUp => unfold exec; exact goesOn_execLinkUp h
  | cxwinWrite => unfold exec; exact goesOn_execCxwinWrite h
  | cxlCompletionTimeout => unfold exec; exact goesOn_execCxlCompletionTimeout h
  | correctedError => unfold exec; exact goesOn_execCorrectedError h
  | uncorrectableError => unfold exec; exact goesOn_execUncorrectableError h
  | memoryUncorrectableError => unfold exec; exact goesOn_execMemoryUncorrectableError h
  | clusterFence => unfold exec; exact goesOn_execClusterFence h
  | dresumeResume | dresumeStep => unfold exec; exact goesOn_dresume h
  | dresumeKill => unfold exec; exact goesOn_execDresumeKill h
  | traceLoss => unfold exec; exact goesOn_execTraceLoss h
  | powerGood => unfold exec; exact goesOn_execPowerGood h
  | recoveryImageCheck => unfold exec; exact goesOn_execRecoveryImageCheck h
  | pmrExtend => unfold exec; exact goesOn_execPmrExtend h
  | getVersion | getCapabilities | negotiateAlgorithms | getDigests | getCertificate => unfold exec; exact goesOn_spdm h
  | challenge | getMeasurements => unfold exec; exact goesOn_spdm (.nonced h)
  | mailboxRequest => unfold exec; exact goesOn_execMailboxRequest h
  | pldmSensorRead => unfold exec; exact goesOn_execPldmSensorRead h
  | pldmFwUpdate => unfold exec; exact goesOn_execPldmFwUpdate h
  | clockInterval => unfold exec; exact goesOn_execClockInterval h
  | msixVectorUnmask => unfold exec; exact goesOn_execMsixVectorUnmask h
  | registerWrite => unfold exec; exact goesOn_execRegisterWrite h
  | faultQueueHeadAdvance => unfold exec; exact goesOn_execFaultQueueHeadAdvance h
  | stopRingHeadAdvance => unfold exec; exact goesOn_execStopRingHeadAdvance h
  | instructionFetchReturn => unfold exec; exact goesOn_execInstructionFetchReturn h
  | deviceReset => unfold exec; exact goesOn_execDeviceReset h
  | powerLoss => unfold exec; exact goesOn_execPowerLoss

theorem goesOn_issueHead {w : Wave} {i : Instr} (h : Keeps s t) : GoesOn s (t.issueHead w i) := by
  dsimp only [State.issueHead]
  split
  · exact goesOn_execXviPath h
  · split
    · split
      · have hu := goesOn_exec h _ ‹_›
        split
        · exact goesOn_exec hu
        · exact .next hu
      · exact goesOn_exec h
    · exact goesOn_exec h

theorem goesOn_serve {core q : Nat} (h : Keeps s t) : GoesOn s (t.serve core q) := by
  unfold State.serve
  extract_lets s1 sel s2
  have h2 : Keeps s s2 := h.takeDues.firstReads.passedReads
  clear_value sel s2
  split
  · exact .next h2.passQuarter
  · extract_lets w s3
    have h3 : Keeps s s3 := .rest h2.passQuarter
    clear_value s3
    split
    · split
      · exact .next (goesOn_issueHead h3 _ ‹_›).parkCharge
      · exact goesOn_issueHead h3
    · exact .next h3.badHead

/-- Every step keeps the stores in canonical form. -/
theorem goesOn_step (h : Keeps s t) : GoesOn s (step t) := by
  unfold step
  split
  · exact .ite (goesOn_exec (.rest h)) (.next (.rest h))
  · exact .next (.takeOut (.rest h))
  · exact .next (.fencePart (.rest h))
  · exact .next (.relaunchGroup (.rest h))
  · exact .next (.takeErr (.rest h))
  · exact .next (.restoreAgain (.rest h))
  · exact .next (.takeWake (.rest h))
  · exact .next (.intervalStart (.rest h))
  · split
    · exact goesOn_serve (.rest h)
    · exact .next h.tick

/-- Settles O59: every branch of a step keeps the canonical forms, by `goesOn_step`. -/
theorem memoryCanonicalStep : Obligations.MemoryCanonicalStep := by
  have keeps (s t : State) (e : step s = .next t) : Keeps s t := goesOn_step (.refl s) t e
  exact ⟨fun s t hm hh e => (keeps s t e).1 ⟨hm, hh⟩, fun s t hw e => (keeps s t e).2.1 hw, fun s t hf e =>
      (keeps s t e).2.2 hf⟩

end Sys2Proof.Machine
end

section
/-!
SUPPORT. The commands of a tile's owner: what the issue of one asks, and the queue that it leaves.
-/

namespace Sys2Proof.Machine

open Sys2Proof.Claims

variable {s : State} {w : Wave} {g : Group} {t : Tile} {h : Hdr} {i : Instr}

/-- A command of the owner whose operands are good, with room in the queue, passes the check. -/
theorem ownerOnly_ok {bad : Env → Tile → List (Nat × W64)} {mem : Bool} (hg : s.group? w.grp = some g) (ht : g.tile = some t)
    (ho : t.owner = some w.uid) (hq : t.queue.length < 4) (hb : bad (mkEnv s w true i) t = [])
    (hm : mem = false ∨ s.memHold w = false) (he : s.entryHolds w i = []) :
    ownerOnly h bad mem s (mkEnv s w true i) = .ok := by
  have tile : (mkEnv s w true i).g.bind (·.tile) = some t := by simp [mkEnv, hg, ht]
  have hold : (mem && s.memHold w) = false := by rcases hm with hm | hm <;> simp [hm]
  have held : (mkEnv s w true i).w = w ∧ (mkEnv s w true i).id = i := ⟨rfl, rfl⟩
  simp only [ownerOnly, tile, hb, held, ho, hold, he]
  simp [lowest, argMax, Nat.not_le.2 hq]

theorem env_winSize (hg : s.group? w.grp = some g) : (mkEnv s w true i).winSize = g.size := by
  simp [Env.winSize, mkEnv, hg]

/-- The tile of a wave that owns one. -/
theorem ownTile_of_owner (hg : s.group? w.grp = some g) (ht : g.tile = some t) (ho : t.owner = some w.uid) :
    s.ownTile w = some t := by
  simp [State.ownTile, hg, ht, ho]

theorem modWave_group? (s : State) (id : WaveId) (f : Wave → Wave) (k : GroupId) : (s.modWave id f).group? k = s.group? k := rfl

/-- What a queued command of the owner leaves: its wave as an issue does but for `x`, the entry at the queue's end, and the
rest as it was. -/
def Queues (s : State) (w : Wave) (h : Hdr) (g : Group) (t : Tile) (i : Instr) (c : GCmd) (x : Wave) (after rel : List Nat) : Prop :=
  Issues s w i true →
    ∃ u w' y, exec i s = .next u ∧ issued s w (envOf s w i true) h u w' ∧ waveFrame x w' ∧ w'.pend = w.pend ∧
      y.id = s.nextSeq ∧ y.cmd = c ∧ y.sf = h.sf ∧ y.started = false ∧ y.chain = none ∧ y.after = after ∧ y.rel = rel ∧
      u.group? w.grp = some { g with tile := some { t with
        queue := t.queue ++ [y], seq := max t.seq (s.cyc w.id.core + 1) } } ∧
      (∀ k, k ≠ w.grp → u.group? k = s.group? k) ∧
      u = { s with waves := u.waves, groups := u.groups, nextSeq := s.nextSeq + 1, cores := slotHeld s w (envOf s w i true) }

section
variable (hg : s.group? w.grp = some g) (ht : g.tile = some t)
include hg ht

/-- The queue of the tile with a command of an issue at its end. -/
theorem post_group? (c : GCmd) (after rel : List Nat) :
    ((s.enter w (mkEnv s w true i) h).post (mkEnv s w true i) h c after rel).group? w.grp =
      some { g with tile := some { t with
        queue := t.queue ++ [GEntry.mk' s.nextSeq c h.sf after rel], seq := max t.seq (s.cyc w.id.core + 1) } } := by
  have := group?_modGroup_same (s := s) (k := w.grp) (f := fun x => { x with tile := x.tile.map fun t =>
    { t with queue := t.queue ++ [GEntry.mk' s.nextSeq c h.sf after rel], seq := max t.seq (s.cyc w.id.core + 1) } })
    (fun _ => rfl) hg
  rw [ht] at this
  exact this

variable (hu : w.uGuard h (s.cyc w.id.core) = true)
include hu

theorem queues_of_command {bad : Env → Tile → List (Nat × W64)} {mem : Bool} {c : Env → GCmd}
    {after rel : State → Env → List Nat} (hx : exec i s = command i h bad mem c after rel s)
    (hc : ownerOnly h bad mem s (mkEnv s w true i) = .ok) :
    Queues s w h g t i (c (mkEnv s w true i)) w (after (s.enter w (mkEnv s w true i) h) (mkEnv s w true i))
      (rel (s.enter w (mkEnv s w true i) h) (mkEnv s w true i)) := by
  intro hi
  have hw : s.wave? w.id = some w := by rw [wave?_id hi.slot]; exact hi.slot
  let e := mkEnv s w true i
  have guard : e.w.uGuard h e.c0 = true := hu
  refine ⟨(s.enter w e h).post e h (c e) (after (s.enter w e h) e) (rel (s.enter w e h) e), entered w e h, _, ?_,
    issued_of_waves (entered_issued hw) rfl, entered_waveFrame w e h, ?_, rfl, rfl, rfl, rfl, rfl, rfl, rfl,
    post_group? hg ht _ _ _, fun k hk => group?_modGroup_other (fun _ => rfl) hk, rfl⟩
  · rw [hx, command, issue_ok hi hc, if_pos guard]
  · rw [entered_frame]

theorem queues_unlink (hc : ownerOnly h (fun _ _ => []) false s (mkEnv s w true (.unlink h)) = .ok) :
    Queues s w h g t (.unlink h) .unlink { w with wait := .unlink } [] [] := by
  intro hi
  have hw : s.wave? w.id = some w := by rw [wave?_id hi.slot]; exact hi.slot
  let e := mkEnv s w true (.unlink h)
  have guard : e.w.uGuard h e.c0 = true := hu
  refine ⟨((s.enter w e h).post e h .unlink [] []).modWave w.id fun w => { w with wait := .unlink }, enteredWait w e h .unlink,
    _, ?_, issued_of_waves (issued_waits hw e h .unlink) rfl, enteredWait_frame w e h .unlink, ?_, rfl, rfl, rfl, rfl, rfl,
    rfl, rfl, (modWave_group? ..).trans (post_group? hg ht _ _ _),
    fun k hk => (modWave_group? ..).trans (group?_modGroup_other (fun _ => rfl) hk), rfl⟩
  · have hex : exec (.unlink h) s = execUnlink h s := rfl
    rw [hex, execUnlink, issue_ok hi hc, if_pos guard]
    rfl
  · rw [enteredWait, entered_frame]

end

/-- Settles O28: a command of the owner passes its checks and enters the queue as `queues_of_command` says. -/
theorem gridCommands : Obligations.GridCommands := by
  intro s w h g t o m d p hg ht ho hq hu pair reg base queues
  have own := ownTile_of_owner hg ht ho
  have room : ¬ 4 ≤ ((s.ownTile w).map fun t => t.queue.length).getD 0 := by simpa [own] using hq
  have checked {i : Instr} {bad : Env → Tile → List (Nat × W64)} {mem : Bool} :=
    ownerOnly_ok (h := h) (i := i) (bad := bad) (mem := mem) hg ht ho hq
  refine ⟨fun hm hb => ?_, fun hb => ?_, fun hm hb => ⟨?_, ?_⟩, ?_, fun hc => ?_⟩
  · have hx : exec (.tmma h o) s = execTmma h o s := rfl
    unfold execTmma at hx
    have free : s.entryHolds w (.tmma h o) = [] := by simp [State.entryHolds, room]
    exact queues_of_command hg ht hu hx (checked hb (.inr hm) free)
  · have hx : exec (.tzero h m) s = execTzero h m s := rfl
    unfold execTzero at hx
    have free : s.entryHolds w (.tzero h m) = [] := by simp [State.entryHolds, room]
    exact queues_of_command hg ht hu hx (checked (if_pos hb) (.inl rfl) free)
  · have hx : exec (.tdrainSt h d) s = execTdrainSt h d s := rfl
    unfold execTdrainSt tdrain at hx
    have free : s.entryHolds w (.tdrainSt h d) = [] := by simp [State.entryHolds, room]
    exact queues_of_command hg ht hu hx (checked (by rw [env_winSize hg]; exact hb) (.inr hm) free)
  · have hx : exec (.tdrainAddst h d) s = execTdrainAddst h d s := rfl
    unfold execTdrainAddst tdrain at hx
    have free : s.entryHolds w (.tdrainAddst h d) = [] := by simp [State.entryHolds, room]
    exact queues_of_command hg ht hu hx (checked (by rw [env_winSize hg]; exact hb) (.inr hm) free)
  · have hx : exec (.gprog h p) s = execGprog h p s := rfl
    unfold execGprog at hx
    have free : s.entryHolds w (.gprog h p) = [] := by simp [State.entryHolds, room]
    exact queues_of_command hg ht hu hx (checked rfl (.inl rfl) free)
  · have free : s.entryHolds w (.unlink h) = [] := by simp [State.entryHolds, room, hc]
    exact queues_unlink hg ht hu (checked rfl (.inl rfl) free)

end Sys2Proof.Machine
end

section
/-!
SUPPORT. The sequencer at the head of a tile's queue: what GPROG, TZERO and UNLINK do as they complete.
-/

namespace Sys2Proof.Sparse

variable {n : Nat}

theorem get_filter_from (p : Nat → Bool) {lo : Nat} {m : Sparse n} (hm : wfFrom lo m = true) (k : Nat) :
    get (m.filter fun e => p e.1) k = if p k then m.get k else 0 := by
  induction m generalizing lo with
  | nil => simp [get]
  | cons c m ih =>
    obtain ⟨j, x⟩ := c
    obtain ⟨⟨-, -⟩, hm⟩ : (_ ∧ _) ∧ wfFrom (j + 1) m = true := by simpa [wfFrom] using hm
    have below : k < j → get m k = 0 := fun h => get_below hm (by omega)
    cases hp : p j with
    | true =>
      simp only [List.filter_cons, hp, if_true, get, ih hm]
      by_cases hj : j = k
      · simp [hj, hj ▸ hp]
      · by_cases hk : k < j <;> simp [hj, hk]
    | false =>
      have skip : ((j, x) :: m).filter (fun e => p e.1) = m.filter fun e => p e.1 := by simp [hp]
      rw [skip, ih hm, get]
      by_cases hj : j = k
      · simp [hj ▸ hp]
      · by_cases hk : k < j <;> simp [hj, hk, below]

/-- What stands in a store of which entries are left out by their keys. -/
theorem get_filter (p : Nat → Bool) {m : Sparse n} (hm : m.wf = true) (k : Nat) :
    get (m.filter fun e => p e.1) k = if p k then m.get k else 0 :=
  get_filter_from p hm k

end Sys2Proof.Sparse

namespace Sys2Proof.Machine

open Sys2Proof.Claims

variable {s : State} {id : GroupId} {g : Group} {t : Tile} {x : GEntry} {rest : List GEntry} {uid : Nat} {w : Wave}

theorem gridPop_waveUid? (s : State) (g : Group) (t : Tile) (x : GEntry) (ps : List Put) (k : Nat) :
    (s.gridPop g t x ps).waveUid? k = (s.gridDone t x g.core ps).waveUid? k := rfl

/-- A completion in a live owner lands what it sends and counts the flag down. -/
theorem gridDone_waveUid? {ps : List Put} (hp : ∀ w : Wave, (ps.foldl Wave.land w).uid = w.uid) (ho : t.owner = some uid)
    (hw : s.waveUid? uid = some w) (hl : w.life = .live) (core : Nat) :
    (s.gridDone t x core ps).waveUid? uid = some (((ps.foldl Wave.land w).marks (s.cyc core) ps).decSf x.sf (s.cyc core)) := by
  unfold State.gridDone
  rw [ho]
  refine (waveUid?_modUid (fun w => ?_) hw).trans ?_
  · split
    · rfl
    · rw [decSf_eq]
      exact hp w
  · rw [if_neg (by simp [hl])]

/-- The tiles that a completion leaves. -/
theorem gridPop_tile?_eq {ps : List Put} {g' : Group} {t' : Tile} (h : s.tile? g.id = some (g', t')) :
    (s.gridPop g t x ps).tile? g.id =
      some ({ g' with tile := some (t'.popped ((s.gridDone t x g.core ps).cyc g.core)) },
        t'.popped ((s.gridDone t x g.core ps).cyc g.core)) :=
  tile?_modTile ((gridDone_tile? s t x g.core ps g.id).trans h) _

section
variable (ht : s.tile? id = some (g, t)) (hq : t.queue = x :: rest) (hs : x.started = false) (hn : t.seq ≤ s.cyc g.core)
  (hv : s.saving id.part = false) (ho : t.owner = some uid) (ha : s.afterDone x.after = true)
include ht hq hs hn hv ho ha

theorem gridQueueHead_gwr {n : Nat} {v : W32} (hx : x.cmd = .gwr n v) :
    exec (.gridQueueHead id) s = .next ((s.modTile id fun t =>
      { t with regs := t.regs.set n (if n = 7 then v &&& 0x003F003F else v) }).gridPop g t x []) := by
  simp [exec, execGridQueueHead, ht, hq, hs, hv, ho, ha, hx, Nat.not_lt.2 hn]

theorem gridQueueHead_grd {n : Nat} {d : BitVec 8} (hx : x.cmd = .grd n d) (hw : s.waveUid? uid = some w)
    (hf : s.writeFree uid w.id false true = true) :
    exec (.gridQueueHead id) s = .next (s.gridPop g t x [.s d.toNat (t.reg n)]) := by
  simp [exec, execGridQueueHead, State.ownerWave, ht, hq, hs, hv, ho, ha, hx, hw, Nat.not_lt.2 hn, waveUid?_uid hw, hf]

theorem gridQueueHead_tzero {m : BitVec 4} (hx : x.cmd = .tzero m) :
    exec (.gridQueueHead id) s = .next ((s.modTile id fun t =>
      { t with accs := t.accs.filter fun e => !(m = 0 || m.getLsbD (e.1 / 256)) }).gridPop g t x []) := by
  simp [exec, execGridQueueHead, ht, hq, hs, hv, ho, ha, hx, Nat.not_lt.2 hn]

theorem gridQueueHead_unlink (hx : x.cmd = .unlink) :
    exec (.gridQueueHead id) s = .next (((s.gridPop g t x []).modTile id fun t =>
      { t with owner := none, ann := false, fault := false }).modUid uid fun w =>
        { w with wait := .none, notBefore := s.cyc g.core + 1 }) := by
  simp [exec, execGridQueueHead, ht, hq, hs, hv, ho, ha, hx, Nat.not_lt.2 hn]

end

/-- Settles O30: TZERO keeps the entries of the accumulators that it does not name. -/
theorem gridZeroes : Obligations.GridZeroes := by
  intro s id g t x rest m uid w ht hid hq hx hs hn hv ho ha hm hw hl
  subst hid
  have htile := tile?_modTile ht fun t => { t with accs := t.accs.filter fun e => !(m = 0 || m.getLsbD (e.1 / 256)) }
  refine ⟨_, _, _, gridQueueHead_tzero ht hq hs hn hv ho ha hx, gridPop_tile?_eq htile, ?_, rfl, fun k i j hi hj => ?_, ?_, ?_⟩
  · simp [Tile.popped, hq]
  · have hk : ((k * 16 + i) * 16 + j) / 256 = k := by omega
    refine (Sparse.get_filter (fun n => !(m = 0 || m.getLsbD (n / 256))) hm _).trans ?_
    rw [hk]
    by_cases h0 : m = 0 <;> by_cases hb : m.getLsbD k <;> simp [h0, hb]
  · exact (gridPop_waveUid? ..).trans (gridDone_waveUid? (s := s.modTile g.id _) (ps := []) (fun _ => rfl) ho hw hl g.core)
  · simp

end Sys2Proof.Machine
end

section
/-!
SUPPORT. LINK: when a waiting wave takes its tile, and that an issue changes nothing that this rests on.
-/

namespace Sys2Proof.Machine

open Sys2Proof.Claims

section
variable {α : Type} {q : α → Bool} {f : α → α} {l : List α}

/-- A change of some elements that keeps what a filter asks. -/
theorem filter_upd {p : α → Bool} (hp : ∀ x, p (f x) = p x) : (upd q f l).filter p = upd q f (l.filter p) := by
  simp only [upd, List.filter_map]
  congr 1
  refine List.filter_congr fun x _ => ?_
  simp only [Function.comp]
  split <;> simp [hp]

theorem upd_upd {f' : α → α} (hq : ∀ x, q (f x) = q x) : upd q f' (upd q f l) = upd q (fun x => f' (f x)) l := by
  simp only [upd, List.map_map]
  refine List.map_congr_left fun x _ => ?_
  by_cases h : q x = true
  · simp [h, hq]
  · simp [h]

theorem all_upd {p : α → Bool} (hp : ∀ x, p (f x) = p x) : (upd q f l).all p = l.all p := by
  simp only [upd, List.all_map]
  congr 1
  funext x
  simp only [Function.comp]
  split <;> simp [hp]

end

variable {s : State} {w : Wave} {g : Group} {t : Tile} {e : Env} {h : Hdr} {c : Wait} {id : WaveId} {sf : BitVec 4} {since : Nat}

/-- What LINK asks of the tile of a group of partition `p` and of its footprint, but for waves of higher priority. -/
def State.mayLink (s : State) (p : Nat) (g : Group) (t : Tile) : Bool :=
  !s.saving p && !t.running && s.lanesFree g t.fp && s.arraysFree g t.fp && s.footSettled g t.fp

theorem mayLink_iff {p : Nat} : s.mayLink p g t = true ↔ s.saving p = false ∧ t.running = false ∧
    s.lanesFree g t.fp = true ∧ s.arraysFree g t.fp = true ∧ s.footSettled g t.fp = true := by
  simp [State.mayLink, and_assoc]

/-- A tile as it becomes a wave's, running from cycle `now`. -/
def Tile.taken (t : Tile) (uid now : Nat) : Tile :=
  { t with owner := some uid, ann := false, runAt := now, inj := none, stopAt := none, fault := false, seq := now + 1, miss := [] }

/-- A wave whose LINK completes in cycle `now`. -/
def Wave.linked (sf : BitVec 4) (now : Nat) (w : Wave) : Wave := { w.decSf sf now with wait := .none, notBefore := now + 1 }

/-- A LINK that waits, for a tile that is free, takes it in the first cycle in which it may. -/
theorem tryLink_eq (hw : s.wave? id = some w) (hl : w.wait = .link sf since) (hg : s.group? w.grp = some g)
    (ht : g.tile = some t) (ho : t.owner = none) :
    s.tryLink id = if s.mayLink w.grp.part g t && !s.outranked g t.fp w.uid w.tprio then
      (s.modTile w.grp fun t => t.taken w.uid (s.cyc id.core)).modWave id (Wave.linked sf (s.cyc id.core)) else s := by
  unfold State.tryLink
  simp only [hw, hl, tile?_eq_some.2 ⟨hg, ht⟩, ho, State.mayLink, Option.isNone_none, Bool.and_true]
  rfl

/-! ### An issue changes nothing that LINK asks -/

theorem enterWait_waves : (s.enterWait w e h c).waves = upd (fun x => x.id = w.id) (fun x => enteredWait x e h c) s.waves := by
  refine upd_upd (q := fun x => x.id = w.id) (f := fun x => entered x e h) fun x => ?_
  rw [entered_frame]

theorem enterWait_onFootprint (fp : Nat) : (s.enterWait w e h c).onFootprint g fp =
    upd (fun x => x.id = w.id) (fun x => enteredWait x e h c) (s.onFootprint g fp) := by
  unfold State.onFootprint
  rw [enterWait_waves]
  refine filter_upd fun x => ?_
  rw [enteredWait, entered_frame]

theorem enterWait_footSettled (fp : Nat) : (s.enterWait w e h c).footSettled g fp = s.footSettled g fp := by
  unfold State.footSettled
  rw [enterWait_onFootprint]
  refine all_upd fun x => ?_
  rw [enteredWait, entered_frame]

theorem enterWait_arraysFree (fp : Nat) : (s.enterWait w e h c).arraysFree g fp = s.arraysFree g fp := by
  have array (core q : Nat) : ((((s.enterWait w e h c).core core).quarters[q]?).getD ⟨0, [], 0⟩).array =
      (((s.core core).quarters[q]?).getD ⟨0, [], 0⟩).array := by
    have hc : (s.enterWait w e h c).cores = slotHeld s w e := rfl
    simp only [State.core, hc, slotHeld, List.getD_eq_getElem?_getD, List.getElem?_modify]
    by_cases hk : w.id.core = core
    · cases s.cores[core]? with
      | none => simp [hk]
      | some y =>
        simp only [hk, if_true, Option.map_eq_map, Option.map_some, Option.getD_some, List.getElem?_modify]
        cases y.quarters[q]? <;> simp
        split <;> rfl
    · simp [hk]
  unfold State.arraysFree
  simp only [array]
  rfl

theorem enterWait_mayLink (p : Nat) : (s.enterWait w e h c).mayLink p g t = s.mayLink p g t := by
  unfold State.mayLink
  rw [enterWait_arraysFree, enterWait_footSettled]
  rfl

/-- Where no wave of the footprint has a higher priority, none outranks one that issues. -/
theorem enterWait_not_outranked {fp uid prio : Nat} (hp : ∀ x ∈ s.onFootprint g fp, x.uid = uid ∨ x.tprio ≤ prio) :
    (s.enterWait w e h c).outranked g fp uid prio = false := by
  unfold State.outranked
  rw [enterWait_onFootprint, List.any_eq_false]
  refine forall_upd (P := fun x => ¬ _) (fun x hx => ?_) fun x hx _ _ => ?_
  · rcases hp x hx with hu | hu <;> simp [hu, Nat.not_lt.2]
  · rw [enteredWait, entered_frame]
    rcases hp x hx with hu | hu <;> simp [hu, Nat.not_lt.2]

/-- The tile and the wave of a LINK that completes. -/
theorem linked_group? {u : State} (hg : u.group? w.grp = some g) (ht : g.tile = some t) (uid now : Nat) (f : Wave → Wave) :
    ((u.modTile w.grp fun t => t.taken uid now).modWave id f).group? w.grp = some { g with tile := some (t.taken uid now) } := by
  refine (modWave_group? ..).trans ?_
  have := group?_modGroup_same (f := fun x => { x with tile := x.tile.map fun t => t.taken uid now }) (fun _ => rfl) hg
  rwa [ht] at this

theorem linked_id (sf : BitVec 4) (now : Nat) (w : Wave) : (w.linked sf now).id = w.id := by
  unfold Wave.linked
  rw [decSf_eq]

section
variable (hw : s.wave? w.id = some w) (hg : s.group? w.grp = some g) (ht : g.tile = some t) (ho : t.owner = none)
include hw hg ht ho

/-- A LINK whose tile is not to be had at issue waits. -/
theorem enterWait_link_waits (hc : s.mayLink w.grp.part g t = false) :
    (s.enterWait w e h (.link sf since)).tryLink w.id = s.enterWait w e h (.link sf since) := by
  have hv := (issued_waits hw e h (.link sf since)).there
  have grp : (enteredWait w e h (.link sf since)).grp = w.grp := by rw [enteredWait, entered_frame]
  rw [tryLink_eq hv rfl (grp.symm ▸ hg) ht ho, grp, enterWait_mayLink, hc]
  rfl

/-- A LINK whose tile is to be had at issue completes in its cycle. -/
theorem enterWait_link_takes (hc : s.mayLink w.grp.part g t = true)
    (hp : ∀ x ∈ s.onFootprint g t.fp, x.uid = w.uid ∨ x.tprio ≤ w.tprio) :
    (s.enterWait w e h (.link sf since)).tryLink w.id =
      ((s.enterWait w e h (.link sf since)).modTile w.grp fun t => t.taken w.uid (s.cyc w.id.core)).modWave w.id
        (Wave.linked sf (s.cyc w.id.core)) := by
  have hv := (issued_waits hw e h (.link sf since)).there
  obtain ⟨grp, uid, prio⟩ : (enteredWait w e h (.link sf since)).grp = w.grp ∧
      (enteredWait w e h (.link sf since)).uid = w.uid ∧ (enteredWait w e h (.link sf since)).tprio = w.tprio := by
    rw [enteredWait, entered_frame]
    exact ⟨rfl, rfl, rfl⟩
  rw [tryLink_eq hv rfl (grp.symm ▸ hg) ht ho, grp, uid, prio, enterWait_mayLink, hc, enterWait_not_outranked hp]
  rfl

end

end Sys2Proof.Machine
end

section
/-! LINK and the queue's head: the statement about them, and its proof. -/

namespace Sys2Proof.Machine

open Sys2Proof.Claims

variable {s : State} {w : Wave} {g : Group} {t : Tile} {h : Hdr} {id : GroupId} {x : GEntry} {rest : List GEntry} {uid : Nat}

theorem execLink_issues (hi : Issues s w (.link h) true) (hu : w.uGuard h (s.cyc w.id.core) = true)
    (hg : s.group? w.grp = some g) (ht : g.tile = some t) (ho : t.owner = none) (hf : g.covers t.fp w.id.core w.id.q = true) :
    exec (.link h) s = .next ((s.enterWait w (mkEnv s w true (.link h)) h (.link h.sf (s.cyc w.id.core))).tryLink w.id) := by
  let e := mkEnv s w true (.link h)
  have guard : e.w.uGuard h e.c0 = true := hu
  have hex : exec (.link h) s = execLink h s := rfl
  rw [hex, execLink, issue_ok hi, if_pos guard]
  · rfl
  · have grp : e.g = some g := hg
    have hew : e.w = w := rfl
    simp [grp, ht, ho, hf, hew, e]

/-- A LINK that completes as it issues. -/
theorem linked_issued (hw : s.wave? w.id = some w) (e : Env) (now : Nat) :
    let u := ((s.enterWait w e h (.link h.sf now)).modTile w.grp fun t => t.taken w.uid now).modWave w.id (Wave.linked h.sf now)
    let w' := (enteredWait w e h (.link h.sf now)).linked h.sf now
    issued s w e h u w' ∧ waveFrame { w with wait := .none, notBefore := now + 1 } w' ∧
      w'.pend = w.pend ++ countdown h now := by
  intro u w'
  have hen := issued_waits hw e h (.link h.sf now)
  have hw' : w' = { entered w e h with pend := w.pend ++ countdown h now, wait := .none, notBefore := now + 1 } := by
    unfold w' Wave.linked Wave.decSf countdown
    have hp : (entered w e h).pend = w.pend := by rw [entered_frame]
    split <;> simp [Wave.add, enteredWait, ← hp]
  refine ⟨⟨wave?_modWave_same (linked_id _ _) hen.there, ?_, ?_, ?_, fun k hk => ?_⟩, ?_, by rw [hw']⟩
  · exact hw' ▸ hen.pc
  · exact hw' ▸ hen.prev
  · exact hw' ▸ hen.flags
  · exact (wave?_modWave_other (linked_id _ _) hk).trans (hen.others k hk)
  · rw [hw', waveFrame]
    conv_lhs => rw [entered_frame]
    rw [entered_frame]

/-- Nothing but waves, groups and the slot differs. -/
theorem linked_rest (s : State) (w : Wave) (e : Env) (f : Tile → Tile) (f' : Wave → Wave) (c : Wait) :
    let u := ((s.enterWait w e h c).modTile w.grp f).modWave w.id f'
    u = { s with waves := u.waves, groups := u.groups, cores := slotHeld s w e } := by
  simp only [State.enterWait, State.enter, State.modWave, State.modCore, State.modTile, State.modGroup, slotHeld]

/-- What stays of the wave whose flag counts down. -/
theorem decSf_fields (w : Wave) (sf : BitVec 4) (n : Nat) :
    (w.decSf sf n).v = w.v ∧ (w.decSf sf n).pc = w.pc ∧ (w.decSf sf n).exec = w.exec ∧ (w.decSf sf n).s = w.s := by
  rw [decSf_eq]
  exact ⟨rfl, rfl, rfl, rfl⟩

/-- Settles O29: LINK by `tryLink_eq`, and each command at the head by what it leaves of the tile and of its owner. -/
theorem gridSequencer : Obligations.GridSequencer := by
  refine ⟨fun s w h g t hg ht ho => ?_, fun s id g t x rest uid w ht hid hq hs hn hv ho ha hw hl => ?_⟩
  · intro now taken clear
    have clear_iff : clear ↔ s.mayLink w.grp.part g t = true := mayLink_iff.symm
    refine ⟨fun hi hu hf => ?_, fun sf since hw hwait hc hr => ?_⟩
    · intro e
      have hw : s.wave? w.id = some w := by rw [wave?_id hi.slot]; exact hi.slot
      have hex := execLink_issues hi hu hg ht ho hf
      refine ⟨fun hc => ?_, fun hc hp => ?_⟩
      · rw [clear_iff, Bool.not_eq_true] at hc
        rw [enterWait_link_waits hw hg ht ho hc] at hex
        refine ⟨_, _, hex, issued_waits hw e h _, enteredWait_frame w e h _, ?_, rfl⟩
        rw [enteredWait, entered_frame]
      · rw [enterWait_link_takes hw hg ht ho (clear_iff.1 hc) hp] at hex
        obtain ⟨hiss, hframe, hpend⟩ := linked_issued (h := h) hw e now
        exact ⟨_, _, hex, hiss, hframe, hpend, linked_group? (u := s.enterWait w e h _) hg ht _ _ _, linked_rest ..⟩
    · have hex : exec (.linkComplete w.id) s = .next (s.tryLink w.id) := rfl
      rw [tryLink_eq hw hwait hg ht ho, clear_iff.1 hc, hr] at hex
      refine ⟨_, _, hex, wave?_modWave_same (linked_id _ _) hw, rfl, rfl, ?_, ?_, ?_, linked_group? hg ht _ _ _, rfl⟩
      · exact (decSf_fields w sf _).2.1
      · exact (decSf_fields w sf _).1
      · exact (decSf_fields w sf _).2.2.2
  · subst hid
    intro pops
    refine ⟨fun n v hx => ?_, fun n d hx hf => ?_, fun hx => ?_⟩
    · have htile := tile?_modTile ht fun t => { t with regs := t.regs.set n (if n = 7 then v &&& 0x003F003F else v) }
      have hwave := gridDone_waveUid? (s := s.modTile g.id fun t =>
        { t with regs := t.regs.set n (if n = 7 then v &&& 0x003F003F else v) }) (x := x) (ps := []) (fun _ => rfl) ho hw hl g.core
      obtain ⟨hv', hpc, hexec, hs'⟩ := decSf_fields w x.sf (s.cyc g.core)
      exact ⟨_, _, _, _, gridQueueHead_gwr ht hq hs hn hv ho ha hx, gridPop_tile?_eq htile, by simp [Tile.popped, hq], rfl,
        ⟨rfl, rfl⟩, hwave, hv', hpc, hexec, hs', by simp⟩
    · have hwave := gridDone_waveUid? (x := x) (ps := [.s d.toNat (t.reg n)]) (fun _ => rfl) ho hw hl g.core
      obtain ⟨hv', hpc, hexec, hs'⟩ := decSf_fields ((w.land (.s d.toNat (t.reg n))).marks (s.cyc g.core) [.s d.toNat (t.reg n)])
        x.sf (s.cyc g.core)
      exact ⟨_, _, _, _, gridQueueHead_grd ht hq hs hn hv ho ha hx hw hf, gridPop_tile?_eq ht, by simp [Tile.popped, hq], rfl,
        ⟨rfl, rfl⟩, hwave, hv', hpc, hexec, hs', by simp⟩
    · have hwave := gridDone_waveUid? (x := x) (ps := []) (fun _ => rfl) ho hw hl g.core
      obtain ⟨hv', hpc, hexec, -⟩ := decSf_fields w x.sf (s.cyc g.core)
      exact ⟨_, _, _, _, gridQueueHead_unlink ht hq hs hn hv ho ha hx, tile?_modTile (gridPop_tile?_eq ht) _,
        by simp [Tile.popped, hq], rfl, ⟨rfl, rfl⟩, waveUid?_modUid (fun _ => rfl) hwave, hv', hpc, hexec, ⟨rfl, rfl⟩, by simp⟩

end Sys2Proof.Machine
end

section
/-!
SUPPORT. Handles: what a token names as an issue begins and after it, and the read that HTEST and HWAIT start.
-/

namespace Sys2Proof.Machine

open Sys2Proof.Claims

variable {s : State} {w : Wave} {h : Hdr} {d : BitVec 8} {a : HSrc} {x : Core} {tok : W32} {n : Nat} {c : Copy}

/-- The token that the A field of a handle instruction names. -/
def Wave.tokOf (w : Wave) (at_ : Nat) : HSrc → W32
  | .h n => w.h.get n.toNat
  | .s n => w.rs at_ n.toNat

/-- TVAL of a misuse of a handle. -/
def handleField : HSrc → W64
  | .h n => BitVec.ofNat 64 (256 + n.toNat)
  | .s n => BitVec.ofNat 64 n.toNat

theorem hTok_eq (s : State) (w : Wave) (u : Bool) (i : Instr) (a : HSrc) :
    hTok (mkEnv s w u i) a = (w.tokOf (s.cyc w.id.core) a, handleField a) := by
  cases a <;> rfl

/-- An issue changes nothing that a token names. -/
theorem enter_resolve (e : Env) (v : Wave) (tok : W32) : (s.enter w e h).resolve v tok = s.resolve v tok := by
  unfold State.resolve
  rw [(enter_core s w e h v.id.core).1]
  rfl

/-- A token that names a command names the one of its slot. -/
theorem slotCmd_of_resolve (hr : s.resolve w tok = .cmd n c) : s.slotCmd w.id.core n = some c := by
  unfold State.resolve at hr
  extract_lets k m sl at hr
  split at hr
  · cases hr
  · split at hr
    · cases hr
    · split at hr
      · cases hr
      · rename_i y hy
        split at hr
        · obtain ⟨hm, hc⟩ := HRes.cmd.inj hr
          rw [← hm, ← hc]
          unfold sl at hy
          rw [List.getD_eq_getElem?_getD] at hy
          cases hs : (s.core w.id.core).chan.slots[m]? with
          | none => simp [hs] at hy
          | some z => simpa [State.slotCmd, hs] using hy
        · cases hr

/-- The read of a handle that resolves so. -/
def handleAcc (e : Env) (h : Hdr) (d : BitVec 8) (wait : Bool) : HRes → Acc
  | .cmd _ c =>
    if wait && c.stat = .outstanding then { e.acc h .handle with dst := .s d.toNat false, args := [BitVec.ofNat 64 c.num] }
    else { e.acc h .handle with dst := .s d.toNat false }.withStatus c
  | _ => { e.acc h .handle with dst := .s d.toNat false, puts := [.s d.toNat (BitVec.ofNat 32 CStat.retired.code)] }

/-- The effect of HTEST and of HWAIT, once the token is resolved. -/
theorem handleRead_eq (i : Instr) (h : Hdr) (d : BitVec 8) (a : HSrc) (wait : Bool) (s : State) :
    handleRead i h d a wait s = issue i h true (handleChk h a) (fun e s =>
      if e.w.uGuard h e.c0 then
        let y := handleAcc e h d wait (s.resolve e.w (hTok e a).1)
        if !y.args.isEmpty then (s.addAcc y).modWave e.w.id fun w => { w with wait := .handle s.nextSeq } else s.addAcc y
      else done1 e h s) s := by
  unfold handleRead
  rfl

theorem withStatus_args (y : Acc) (c : Copy) : (y.withStatus c).args = [] := by
  by_cases hc : c.stat = .done <;> simp [Acc.withStatus, hc]

/-- Only the read of HWAIT waits, and only for a command that is outstanding. -/
theorem handleAcc_args (e : Env) (h : Hdr) (d : BitVec 8) (wait : Bool) (r : HRes) :
    (handleAcc e h d wait r).args.isEmpty = false ↔ wait = true ∧ ∃ n c, r = .cmd n c ∧ c.stat = .outstanding := by
  cases r with
  | misuse => simp [handleAcc, Env.acc]
  | retired => simp [handleAcc, Env.acc]
  | cmd n c =>
    by_cases hw : wait = true ∧ c.stat = .outstanding
    · simp [handleAcc, hw.1, hw.2]
    · have : (wait && decide (c.stat = .outstanding)) = false := by simpa using hw
      simp only [handleAcc, this]
      simp [withStatus_args]
      simpa using hw

/-- What a handle's read is. -/
structure HandleRead (e : Env) (h : Hdr) (d : BitVec 8) (wait : Bool) (r : HRes) (y : Acc) : Prop where
  uid : y.uid = e.w.uid
  wave : y.w = e.w.id
  grp : y.grp = e.w.grp
  sf : y.sf = h.sf
  op : y.op = .handle
  dst : y.dst = .s d.toNat false
  retired : r = .retired → y.args = [] ∧ y.puts = [.s d.toNat 4]
  cmd : ∀ n c, r = .cmd n c →
    (wait = true ∧ c.stat = .outstanding → y.args = [BitVec.ofNat 64 c.num]) ∧
    (wait = false ∨ c.stat ≠ .outstanding → y.args = [] ∧ y.puts = [.s d.toNat (BitVec.ofNat 32 (min c.prog 0xFFFFFF * 256 + c.stat.code))] ∧
      (c.stat = .done → y.ord = .acq ∧ y.sco = c.o.rel.getD .wave) ∧ (c.stat ≠ .done → y.ord = .weak))

theorem handleAcc_read (e : Env) (h : Hdr) (d : BitVec 8) (wait : Bool) (r : HRes) (id : Nat) :
    HandleRead e h d wait r { handleAcc e h d wait r with id := id } := by
  cases r with
  | misuse => exact ⟨rfl, rfl, rfl, rfl, rfl, rfl, fun hr => HRes.noConfusion hr, fun _ _ hr => HRes.noConfusion hr⟩
  | retired => exact ⟨rfl, rfl, rfl, rfl, rfl, rfl, fun _ => ⟨rfl, rfl⟩, fun _ _ hr => HRes.noConfusion hr⟩
  | cmd n c =>
    by_cases hw : wait = true ∧ c.stat = .outstanding
    · have held : handleAcc e h d wait (.cmd n c) =
          { e.acc h .handle with dst := .s d.toNat false, args := [BitVec.ofNat 64 c.num] } := by simp [handleAcc, hw.1, hw.2]
      rw [held]
      refine ⟨rfl, rfl, rfl, rfl, rfl, rfl, fun hr => HRes.noConfusion hr, fun n' c' hc => ?_⟩
      cases hc
      exact ⟨fun _ => rfl, fun hn => by simp [hw.1, hw.2] at hn⟩
    · have now : handleAcc e h d wait (.cmd n c) = { e.acc h .handle with dst := .s d.toNat false }.withStatus c := by
        have : (wait && decide (c.stat = .outstanding)) = false := by simpa using hw
        simp only [handleAcc, this]
        rfl
      rw [now]
      by_cases hd : c.stat = .done
      · simp only [Acc.withStatus, hd, if_true]
        refine ⟨rfl, rfl, rfl, rfl, rfl, rfl, fun hr => HRes.noConfusion hr, fun n' c' hc => ?_⟩
        cases hc
        exact ⟨fun hh => absurd hh hw, fun _ => ⟨rfl, by rw [Copy.status, hd], fun _ => ⟨rfl, rfl⟩, fun hh => absurd hd hh⟩⟩
      · simp only [Acc.withStatus, hd, if_false]
        refine ⟨rfl, rfl, rfl, rfl, rfl, rfl, fun hr => HRes.noConfusion hr, fun n' c' hc => ?_⟩
        cases hc
        exact ⟨fun hh => absurd hh hw, fun _ => ⟨rfl, rfl, fun hh => absurd hh hd, fun _ => rfl⟩⟩

end Sys2Proof.Machine
end

section
/-! The copy engine's commands: the statement about them, and its proof. -/

namespace Sys2Proof.Machine

open Sys2Proof.Claims

variable {s : State} {w : Wave} {h : Hdr} {o : CpyOp} {d : BitVec 8} {a : HSrc} {x : Core} {i : Instr} {n : Nat} {c : Copy}
  {wait : Bool}

theorem lt_of_getElem? {core : Nat} (hx : s.cores[core]? = some x) : core < s.cores.length :=
  (List.getElem?_eq_some_iff.mp hx).1

theorem core_of_getElem? {core : Nat} (hx : s.cores[core]? = some x) : s.core core = x := by
  simp [State.core, List.getD_eq_getElem?_getD, hx]

/-! ### CPY -/

/-- The command that CPY submits, numbered and with what comes first. -/
def cpySent (s : State) (e : Env) (h : Hdr) (o : CpyOp) : Copy :=
  { cpyCmd e h o with num := s.nextSeq, after := s.engineFirst e.w o.acq.isSome,
                      rel := if o.rel.isSome then s.pendingIds e.w.uid else [] }

/-- The state that an issue of CPY leaves. -/
def State.cpySent (s : State) (w : Wave) (e : Env) (h : Hdr) (o : CpyOp) : State :=
  { ((s.enter w e h).modChan w.id.core fun ch => { ch with fifo := ch.fifo ++ [Machine.cpySent s e h o] }).modWave w.id fun w =>
    { w with hpend := insNat o.h.toNat w.hpend } with nextSeq := s.nextSeq + 1 }

theorem execCpy_issues (hi : Issues s w (.cpy h o) true) (hu : w.uGuard h (s.cyc w.id.core) = true) (hm : s.memHold w = false)
    (he : s.entryHolds w (.cpy h o) = [])
    (hb : cpyBad (cpyCmd (mkEnv s w true (.cpy h o)) h o) (mkEnv s w true (.cpy h o)).winSize (s.ownTile w)
      (wordVal (.cpy h o)) = []) :
    exec (.cpy h o) s = .next (s.cpySent w (mkEnv s w true (.cpy h o)) h o) := by
  let e := mkEnv s w true (.cpy h o)
  have guard : e.w.uGuard h e.c0 = true := hu
  have hew : e.w = w := rfl
  have hex : exec (.cpy h o) s = execCpy h o s := rfl
  rw [hex, execCpy, issue_ok hi, if_pos guard]
  · rfl
  · simp only [hew, hm, he, e, hb]
    simp [lowest, argMax]

theorem cpySent_rest (s : State) (w : Wave) (e : Env) (h : Hdr) (o : CpyOp) :
    s.cpySent w e h o =
      { s with waves := (s.cpySent w e h o).waves, cores := (s.cpySent w e h o).cores, nextSeq := s.nextSeq + 1 } := by
  simp only [State.cpySent, State.enter, State.modWave, State.modCore, State.modChan]

theorem cpySent_chan (hx : s.cores[w.id.core]? = some x) (e : Env) :
    ((s.cpySent w e h o).core w.id.core).chan = { x.chan with fifo := x.chan.fifo ++ [cpySent s e h o] } := by
  have hl : w.id.core < (s.enter w e h).cores.length := by simpa [State.enter_cores] using lt_of_getElem? hx
  refine (chan_modChan hl fun ch => { ch with fifo := ch.fifo ++ [cpySent s e h o] }).trans ?_
  rw [(enter_core s w e h w.id.core).1, core_of_getElem? hx]

theorem cpySent_chan_other (e : Env) {k : Nat} (hk : k ≠ w.id.core) :
    ((s.cpySent w e h o).core k).chan = (s.core k).chan := by
  refine Eq.trans ?_ (enter_core s w e h k).1
  have : (s.cpySent w e h o).cores = (s.enter w e h).cores.modify w.id.core fun y =>
    { y with chan := { y.chan with fifo := y.chan.fifo ++ [cpySent s e h o] } } := rfl
  simp only [State.core, this, List.getD_eq_getElem?_getD, List.getElem?_modify_ne _ _ (Ne.symm hk)]

theorem cpySent_issued (hw : s.wave? w.id = some w) (e : Env) :
    issued s w e h (s.cpySent w e h o) { entered w e h with hpend := insNat o.h.toNat (entered w e h).hpend } := by
  have hen := entered_issued (e := e) (h := h) hw
  exact { there := wave?_modWave_same (fun _ => rfl) hen.there, pc := hen.pc, prev := hen.prev, flags := hen.flags,
          others := fun k hk => (wave?_modWave_other (s := s.enter w e h)
            (f := fun w => { w with hpend := insNat o.h.toNat w.hpend }) (fun _ => rfl) hk).trans (hen.others k hk) }

/-! ### HTEST and HWAIT -/

/-- The state that a read of a handle leaves. -/
def State.handleSent (s : State) (w : Wave) (e : Env) (h : Hdr) (y : Acc) : State :=
  if y.args.isEmpty then (s.enter w e h).addAcc y else ((s.enterWait w e h (.handle s.nextSeq)).addAcc y)

section
variable (hu : w.uGuard h (s.cyc w.id.core) = true) (hr : s.resolve w (w.tokOf (s.cyc w.id.core) a) ≠ .misuse)
include hr

theorem handleChk_ok : handleChk h a s (mkEnv s w true i) = .ok := by
  have hew : (mkEnv s w true i).w = w := rfl
  simp [handleChk, hTok_eq, hew, hr]

include hu

theorem handleRead_issues (hi : Issues s w i true) :
    handleRead i h d a wait s = .next (s.handleSent w (mkEnv s w true i) h
      (handleAcc (mkEnv s w true i) h d wait (s.resolve w (w.tokOf (s.cyc w.id.core) a)))) := by
  let e := mkEnv s w true i
  have guard : e.w.uGuard h e.c0 = true := hu
  have hew : e.w = w := rfl
  rw [handleRead_eq, issue_ok hi (handleChk_ok hr), if_pos guard]
  simp only [hTok_eq, enter_resolve, hew, e, State.handleSent]
  cases (handleAcc (mkEnv s w true i) h d wait (s.resolve w (w.tokOf (s.cyc w.id.core) a))).args.isEmpty <;> rfl

end

theorem starts_htest (hu : w.uGuard h (s.cyc w.id.core) = true)
    (hr : s.resolve w (w.tokOf (s.cyc w.id.core) a) ≠ .misuse) (hi : Issues s w (.htest h d a) true) :
    Starts s w (.htest h d a) h true fun e y =>
      HandleRead e h d false (s.resolve w (w.tokOf (s.cyc w.id.core) a)) y := by
  let e := mkEnv s w true (.htest h d a)
  let y := handleAcc e h d false (s.resolve w (w.tokOf (s.cyc w.id.core) a))
  have hex : exec (.htest h d a) s = handleRead (.htest h d a) h d a false s := rfl
  have hy : y.args.isEmpty = true := by
    have := handleAcc_args e h d false (s.resolve w (w.tokOf (s.cyc w.id.core) a))
    simpa using this
  have guard : e.w.uGuard h e.c0 = true := hu
  have hew : e.w = w := rfl
  have read := handleAcc_read e h d false (s.resolve w (w.tokOf (s.cyc w.id.core) a)) 0
  refine starts_of_addAcc (x := y) (hex.trans (handleRead_eq ..)) hi (handleChk_ok hr) ?_ read.uid read.wave read.grp
    read.sf (handleAcc_read ..)
  rw [if_pos guard]
  simp only [hTok_eq, enter_resolve]
  exact if_neg (show ¬ (!y.args.isEmpty) = true by simp [hy])

/-- HWAIT starts the read of its handle, and waits for the end of a command that is outstanding. -/
theorem hwait_starts (hu : w.uGuard h (s.cyc w.id.core) = true)
    (hr : s.resolve w (w.tokOf (s.cyc w.id.core) a) ≠ .misuse) (hi : Issues s w (.hwait h d a) true) :
    let r := s.resolve w (w.tokOf (s.cyc w.id.core) a)
    let held : Prop := ∃ n c, r = .cmd n c ∧ c.stat = .outstanding
    ∃ t w' y, exec (.hwait h d a) s = .next t ∧ issued s w (envOf s w (.hwait h d a) true) h t w' ∧
      (held → waveFrame { w with wait := .handle s.nextSeq } w') ∧ (¬ held → waveFrame w w') ∧
      w'.pend = w.pend ∧ t.accs = s.accs ++ [y] ∧ y.id = s.nextSeq ∧
      HandleRead (envOf s w (.hwait h d a) true) h d true r y ∧ t.mem = s.mem ∧ t.groups = s.groups := by
  intro r held
  let e := mkEnv s w true (.hwait h d a)
  have hw : s.wave? w.id = some w := by rw [wave?_id hi.slot]; exact hi.slot
  have hex : exec (.hwait h d a) s = .next (s.handleSent w e h (handleAcc e h d true r)) := handleRead_issues hu hr hi
  have hargs := handleAcc_args e h d true r
  unfold State.handleSent at hex
  by_cases hh : held
  · rw [if_neg (by simpa using hargs.2 ⟨rfl, hh⟩)] at hex
    refine ⟨_, _, _, hex, issued_of_waves (issued_waits hw e h _) rfl, fun _ => enteredWait_frame w e h _,
      fun hn => absurd hh hn, ?_, rfl, rfl, handleAcc_read .., rfl, rfl⟩
    rw [enteredWait, entered_frame]
  · rw [if_pos (by simpa using mt hargs.1 fun k => hh k.2)] at hex
    refine ⟨_, _, _, hex, issued_of_waves (entered_issued hw) rfl, fun hn => absurd hn hh, fun _ => entered_waveFrame w e h,
      ?_, rfl, rfl, handleAcc_read .., rfl, rfl⟩
    rw [entered_frame]

/-! ### HCANCEL -/

section
variable (hu : w.uGuard h (s.cyc w.id.core) = true) (hr : s.resolve w (w.tokOf (s.cyc w.id.core) a) = .cmd n c)
  (hi : Issues s w (.hcancel h a) true)
include hu hr hi

theorem execHcancel_issues : exec (.hcancel h a) s = .next (
    let e := mkEnv s w true (.hcancel h a)
    if c.stat = .outstanding then
      ((s.enter w e h).modCmd w.id.core n fun c => { c with cancel := true }).addAcc
        { e.acc h .cancelled with args := [BitVec.ofNat 64 c.num] }
    else done1 e h (s.enter w e h)) := by
  let e := mkEnv s w true (.hcancel h a)
  have guard : e.w.uGuard h e.c0 = true := hu
  have hew : e.w = w := rfl
  have hex : exec (.hcancel h a) s = execHcancel h a s := rfl
  rw [hex, execHcancel, issue_ok hi (handleChk_ok (by rw [hr]; exact HRes.noConfusion)), if_neg (by simp [guard, e])]
  simp only [hTok_eq, enter_resolve, hew, e, hr]

omit hu in
/-- HCANCEL of a command that has ended only completes. -/
theorem hcancel_sends (hc : c.stat ≠ .outstanding) : Sends s w (.hcancel h a) h true 1 fun _ => [] := by
  have hex : exec (.hcancel h a) s = execHcancel h a s := rfl
  have hew : (mkEnv s w true (.hcancel h a)).w = w := rfl
  unfold execHcancel at hex
  refine sends_of_fixed hex hi (handleChk_ok (by rw [hr]; exact HRes.noConfusion)) ?_
  simp only [hTok_eq, enter_resolve, hew, hr, if_neg hc]
  exact ite_self _

end

/-! ### Misuse -/

section
variable (hu : w.uGuard h (s.cyc w.id.core) = true) (hr : s.resolve w (w.tokOf (s.cyc w.id.core) a) = .misuse)
include hu hr

theorem handleChk_misuse : handleChk h a s (mkEnv s w true i) = .trap 8 (handleField a) := by
  have guard : w.uGuard h (mkEnv s w true i).c0 = true := hu
  have hew : (mkEnv s w true i).w = w := rfl
  simp [handleChk, hTok_eq, hew, hr, guard]

theorem handleRead_traps (hi : Issues s w i true) :
    handleRead i h d a wait s = .next (s.trapAt w 8 w.pc (handleField a)) := by
  rw [handleRead_eq]
  exact issue_traps hi (handleChk_misuse hu hr) (by decide)

theorem execHcancel_traps (hi : Issues s w (.hcancel h a) true) :
    exec (.hcancel h a) s = .next (s.trapAt w 8 w.pc (handleField a)) := by
  have hex : exec (.hcancel h a) s = execHcancel h a s := rfl
  rw [hex, execHcancel]
  exact issue_traps hi (handleChk_misuse hu hr) (by decide)

end

theorem hcancel_marks (hx : s.cores[w.id.core]? = some x) (hu : w.uGuard h (s.cyc w.id.core) = true)
    (hr : s.resolve w (w.tokOf (s.cyc w.id.core) a) = .cmd n c) (hi : Issues s w (.hcancel h a) true)
    (hc : c.stat = .outstanding) :
    ∃ t w' y, exec (.hcancel h a) s = .next t ∧ issued s w (envOf s w (.hcancel h a) true) h t w' ∧ waveFrame w w' ∧
      w'.pend = w.pend ∧ t.accs = s.accs ++ [y] ∧ y.op = .cancelled ∧ y.args = [BitVec.ofNat 64 c.num] ∧ y.sf = h.sf ∧
      t.slotCmd w.id.core n = some { c with cancel := true } := by
  let e := mkEnv s w true (.hcancel h a)
  have hw : s.wave? w.id = some w := by rw [wave?_id hi.slot]; exact hi.slot
  have hex := execHcancel_issues hu hr hi
  rw [if_pos hc] at hex
  refine ⟨_, _, _, hex, issued_of_waves (entered_issued hw) rfl, entered_waveFrame w e h, ?_, rfl, rfl, rfl, rfl, ?_⟩
  · rw [entered_frame]
  · have hl : w.id.core < (s.enter w e h).cores.length := by simpa [State.enter_cores] using lt_of_getElem? hx
    have was : (s.enter w e h).slotCmd w.id.core n = some c := by
      rw [State.slotCmd, (enter_core s w e h w.id.core).1]
      exact slotCmd_of_resolve hr
    exact (slotCmd_modCmd hl _).trans (by rw [was]; rfl)

/-- Settles O36, form by form: what the instruction leaves is `cpySent`, the access of a `HandleRead`, or the mark on the
command that its token resolves to. -/
theorem copyCommands : Obligations.CopyCommands := by
  intro s w h o d a x hx hu tok
  have htok : tok = w.tokOf (s.cyc w.id.core) a := by cases a <;> rfl
  refine ⟨?cpy, ?reads, ?cancel, ?misuse⟩
  case cpy =>
    intro hi hm he e hb
    have hw : s.wave? w.id = some w := by rw [wave?_id hi.slot]; exact hi.slot
    refine ⟨_, _, cpySent s e h o, execCpy_issues hi hu hm he hb, cpySent_issued hw e, ?_, ?_, cpySent_chan hx e, rfl, rfl, rfl,
      rfl, rfl, rfl, rfl, rfl, rfl, rfl, rfl, fun k hk => cpySent_chan_other e hk, cpySent_rest s w e h o⟩
    · rw [entered_frame, waveFrame]
    · rw [entered_frame]
  case reads =>
    rw [htok]
    intro reads held
    have of_read {e : Env} {y : Acc} {wait : Bool}
        (hy : HandleRead e h d wait (s.resolve w (w.tokOf (s.cyc w.id.core) a)) y) : reads y wait :=
      ⟨hy.op, hy.dst, hy.retired, hy.cmd⟩
    refine ⟨fun hi hr => ?_, fun hi hr => ?_⟩
    · obtain ⟨t, w', y, hex, hst, hy, rest⟩ := starts_htest (d := d) hu hr hi
      exact ⟨t, w', y, hex, hst, of_read hy, rest⟩
    · obtain ⟨t, w', y, hex, hiss, hheld, hfree, hpend, haccs, hid, hy, hmem, hgr⟩ := hwait_starts (d := d) hu hr hi
      exact ⟨t, w', y, hex, hiss, hheld, hfree, hpend, haccs, hid, of_read hy, hmem, hgr⟩
  case cancel =>
    rw [htok]
    refine fun n c hi hr => ⟨hcancel_marks hx hu hr hi, hcancel_sends hr hi⟩
  case misuse =>
    rw [htok]
    intro hr v
    have hv : v = handleField a := by cases a <;> rfl
    rw [hv]
    exact ⟨handleRead_traps hu hr, handleRead_traps hu hr, execHcancel_traps hu hr⟩

end Sys2Proof.Machine
end

section
/-!
SUPPORT. What the parsers of the launch queues leave alone (R350–R353, R358): an interrupt, the fault buffer's parting, and the
registers of one queue; and the doorbell.
-/

namespace Sys2Proof.Machine

open Sys2Proof.Claims

variable {s t : State} {p q : Nat}

/-! ### Interrupts and queues -/

/-- An interrupt is sent to the active port, or waits in its table. -/
theorem msix_frame (s : State) (vec : Nat) : s.msix vec = { s with out := (s.msix vec).out, ports := (s.msix vec).ports } := by
  unfold State.msix
  repeat' split
  all_goals rfl

@[simp] theorem msix_parts (s : State) (vec : Nat) : (s.msix vec).parts = s.parts := by rw [msix_frame]
@[simp] theorem msix_mem (s : State) (vec : Nat) : (s.msix vec).mem = s.mem := by rw [msix_frame]
@[simp] theorem msix_jobs (s : State) (vec : Nat) : (s.msix vec).jobs = s.jobs := by rw [msix_frame]
@[simp] theorem msix_waves (s : State) (vec : Nat) : (s.msix vec).waves = s.waves := by rw [msix_frame]

@[simp] theorem modLq_parts (s : State) (p q : Nat) (f : LQ → LQ) :
    (s.modLq p q f).parts[p]? = s.parts[p]?.map fun d => { d with lqs := d.lqs.modify q f } := by
  simp [State.modLq]

theorem lq_of_getElem? {d : Part} {l : LQ} (hd : s.parts[p]? = some d) (hl : d.lqs[q]? = some l) : s.lq p q = l := by
  simp [State.lq, State.part, hd, hl]

/-! ### The doorbell -/

section
variable {d : Part} {l : LQ} {port page size : Nat} {v : W64} (hd : s.parts[p]? = some d) (hl : d.lqs[q]? = some l)
  (hp : p < 16) (hq : q < 8)
include hd hl hp hq

/-- A doorbell that counts says that TAIL stands still or moves on. -/
abbrev Rings (s : State) (port page size : Nat) (l : LQ) (v : W64) : Prop :=
  s.active = some port ∧ page = port ∧ (size = 4 ∨ size = 8) ∧
    ((l.tail - lo32 v).toNat = 0 ∨ 2 ^ 31 ≤ (l.tail - lo32 v).toNat)

theorem execDoorbellWrite_eq : execDoorbellWrite port page p q size v s = .next (
    if Rings s port page size l v then
      let s := s.modLq p q fun l => { l with tail := lo32 v }
      if 2 ^ l.szlog < (lo32 v - l.head).toNat then
        ((s.lqEvent p q 13).fbLeaveIn p (.parser q)).modLq p q fun l => { l with tail := l.head, hold := none, miss := [] }
      else s
    else s) := by
  have hlq := lq_of_getElem? hd hl
  have back (n : Nat) : (1 ≤ n ∧ n < 2 ^ 31) ↔ ¬ (n = 0 ∨ 2 ^ 31 ≤ n) := by omega
  have guard : (decide (s.active ≠ some port) || decide (page ≠ port) || decide (8 ≤ q) || decide (16 ≤ p) ||
      !(decide (size = 4) || decide (size = 8)) || (decide (1 ≤ (l.tail - lo32 v).toNat) &&
        decide ((l.tail - lo32 v).toNat < 2 ^ 31))) = true ↔ ¬ Rings s port page size l v := by
    simp only [Bool.or_eq_true, decide_eq_true_eq, Bool.and_eq_true, Bool.not_eq_true', Bool.or_eq_false_iff,
      decide_eq_false_iff_not, back, not_le.2 hp, not_le.2 hq, Rings]
    tauto
  simp only [execDoorbellWrite, hlq]
  by_cases h : Rings s port page size l v
  · rw [if_neg (by rw [guard]; exact not_not_intro h), if_pos h]
    split <;> rfl
  · rw [if_pos (guard.2 h), if_neg h]

omit hp hq in
/-- The queue that a doorbell has overrun. -/
theorem overrun_queue : ∃ d', ((((s.modLq p q fun l => { l with tail := lo32 v }).lqEvent p q 13).fbLeaveIn p (.parser q)).modLq p q
      fun l => { l with tail := l.head, hold := none, miss := [] }).parts[p]? = some d' ∧
    d'.lqs[q]? = some { l with tail := l.head, ev := true, code := 13, epos := l.head, hold := none, miss := [] } := by
  simp [State.lqEvent, State.fbLeaveIn, hd, hl]

end

end Sys2Proof.Machine
end

section
/-!
SUPPORT. Packets that hold their queue: a FENCE that reads its counters again, and the word of a SIGNAL (R357).
-/

namespace Sys2Proof.Machine

open Sys2Proof.Claims

variable {s t : State} {p q : Nat} {b : List Byte}

/-- A packet stands at the head of a queue that exists. -/
theorem queue_of_packet {d : Part} (hd : s.parts[p]? = some d) (h : s.packet p q = some b) : ∃ l, d.lqs[q]? = some l := by
  have hpart : s.part p = d := by simp [State.part, hd]
  unfold State.packet at h
  rw [hpart] at h
  split at h
  · cases h
  · next l hl => exact ⟨l, hl⟩

/-! ### A held FENCE -/

/-- The counters of a FENCE are read at their slices. -/
def State.readCounters (s : State) (p q : Nat) (b : List Byte) : State :=
  (List.range (fld b 8 1)).foldl (fun s k => s.touchVa p (s.lq p q).miss (fld b (16 + 16 * k) 8) 8 true) s

/-- What the counters of a FENCE say, once read. -/
def State.countersSay (s : State) (p q : Nat) (b : List Byte) : Parsed Bool :=
  (s.readCounters p q b).fenceTest p ((s.readCounters p q b).lq p q).miss b (List.range (fld b 8 1))

theorem fenceTry_passes (hr : s.countersSay p q b = .ok true) : s.fenceTry p q b = (s.readCounters p q b).consume p q b := by
  unfold State.countersSay State.readCounters at hr
  simp only [State.fenceTry, hr]
  rfl

theorem fenceTry_holds (hr : s.countersSay p q b = .ok false) : s.fenceTry p q b =
    (s.readCounters p q b).modLq p q fun l => { l with hold := some ((s.readCounters p q b).cycle + 4096), miss := [] } := by
  unfold State.countersSay State.readCounters at hr
  simp only [State.fenceTry, hr]
  rfl

theorem fenceTry_code {n : Nat} (hr : s.countersSay p q b = .code n) :
    s.fenceTry p q b = (s.readCounters p q b).reject p q n b := by
  unfold State.countersSay State.readCounters at hr
  simp only [State.fenceTry, hr]
  rfl

theorem execFenceCounterReread_held (hb : s.packet p q = some b) (hh : (s.lq p q).hold.isSome) (ht : fld b 0 1 = 3) :
    execFenceCounterReread p q s = .next (s.fenceTry p q b) := by
  simp [execFenceCounterReread, hb, hh, ht]

/-! ### The word of a SIGNAL -/

/-- Bytes written one by one at their slices leave in memory what writing them there leaves. -/
theorem foldl_slcWrite_mem (ways : State → Nat) (l : List (Nat × Byte)) (hm : t.mem = s.mem) (hk : t.key = s.key) :
    (l.foldl (fun s x => s.slcWrite (ways s) x.1 [x.2]) t).mem = (l.foldl (fun s x => s.wrByte x.1 x.2) s).mem := by
  induction l generalizing s t with
  | nil => exact hm
  | cons x l ih =>
    refine ih ?_ ?_
    · rw [slcWrite_mem]
      exact wrBytes_mem_congr hm hk x.1 [x.2]
    · rw [(engineAt_slcWrite ..).places.1, hk]
      rfl

/-- The bytes that a SIGNAL stores, each with its place. -/
def State.signalBytes (s : State) (p : Nat) (b : List Byte) : List (Nat × Byte) :=
  let add := fld b 2 1 / 4 % 2 = 1
  let pas := (List.range 8).map fun i => s.engPa none p (if add then .atomic else .write) (fld b 8 8 + i)
  pas.zip (leBytes 8 (if add then (leNat (pas.map s.rdByte) + fld b 16 8) % 2 ^ 64 else fld b 16 8))

/-- The state that the write or addition of a SIGNAL leaves, no host holding the word and none of it poisoned. -/
def State.signalled (s : State) (p q : Nat) (b : List Byte) : State :=
  let u := ((s.signalBytes p b).foldl (fun s x => s.slcWrite (s.part p).ways x.1 [x.2]) s).consume p q b
  if fld b 2 1 / 2 % 2 = 1 then u.msix (8 * p + q) else u

section
variable (hb : s.packet p q = some b) (hh : (s.lq p q).hold.isSome) (ht : fld b 0 1 = 4)
include hb hh ht

omit hh ht in
theorem execSignalWrite_early (hj : s.jobsDone p q = false) : execSignalWrite p q s = .next s := by
  simp [execSignalWrite, hb, hj]

theorem execSignalWrite_due (hj : s.jobsDone p q = true) (hva : fld b 8 8 + 8 ≤ 2 ^ 51)
    (hx : s.engXlate none p (if fld b 2 1 / 4 % 2 = 1 then .atomic else .write) 8 (rangePages [(fld b 8 8, fld b 8 8 + 7)])
      (s.lq p q).miss = .ok) (hsn : s.snoop = []) (hpo : s.poison = []) :
    execSignalWrite p q s = .next (s.signalled p q b) := by
  have sound (pa : Nat) : s.poisoned pa = false := by simp [State.poisoned, hpo]
  have free (pa : Nat) : s.snoopHeld pa true = false := by simp [State.snoopHeld, hsn]
  have hold : (s.lq p q).hold.isNone = false := by simpa using hh
  simp only [execSignalWrite, hb, ht, hold, hj, if_neg (Nat.not_lt.2 hva), hx, free]
  simp [State.signalled, State.signalBytes, sound]

end

/-- A run of bytes at their slices, with the queue's packet consumed after it and an interrupt or none sent. -/
theorem signalled_word (s : State) (p q : Nat) (b : List Byte) :
    ∃ u, EngineAt s u ∧ u.mem = ((s.signalBytes p b).foldl (fun s x => s.wrByte x.1 x.2) s).mem ∧
      (s.signalled p q b = u.consume p q b ∨ s.signalled p q b = (u.consume p q b).msix (8 * p + q)) := by
  refine ⟨_, engineAt_foldl (fun s _ => engineAt_slcWrite ..) (s.signalBytes p b) s,
    foldl_slcWrite_mem (fun s => (s.part p).ways) _ rfl rfl, ?_⟩
  unfold State.signalled
  split
  · exact .inr rfl
  · exact .inl rfl

/-- A packet of one slot is consumed. -/
theorem lq_consume {d : Part} {l : LQ} (hd : s.parts[p]? = some d) (hl : d.lqs[q]? = some l) (ht : fld b 0 1 ≠ 3) :
    (s.consume p q b).lq p q = { l with head := l.head + 1, hold := none, miss := [] } := by
  simp [State.consume, State.fbLeaveIn, State.lq, State.part, hd, hl, ht]

theorem lq_msix (s : State) (vec p q : Nat) : (s.msix vec).lq p q = s.lq p q := by simp [State.lq, State.part]

/-- What the word of a SIGNAL leaves in memory, and what it leaves alone. -/
theorem signalled_frame (s : State) (p q : Nat) (b : List Byte) :
    (s.signalled p q b).mem = ((s.signalBytes p b).foldl (fun s x => s.wrByte x.1 x.2) s).mem ∧
    (s.signalled p q b).jobs = s.jobs ∧ (s.signalled p q b).waves = s.waves := by
  obtain ⟨u, hu, hm, h⟩ := signalled_word s p q b
  have consumed : (u.consume p q b).mem = u.mem ∧ (u.consume p q b).jobs = s.jobs ∧ (u.consume p q b).waves = s.waves :=
    ⟨rfl, by rw [hu]; rfl, by rw [hu]; rfl⟩
  obtain ⟨cm, cj, cw⟩ := consumed
  rcases h with h | h <;> rw [h]
  · exact ⟨cm.trans hm, cj, cw⟩
  · exact ⟨(msix_mem ..).trans (cm.trans hm), (msix_jobs ..).trans cj, (msix_waves ..).trans cw⟩

theorem signalled_queue {d : Part} {l : LQ} (hd : s.parts[p]? = some d) (hl : d.lqs[q]? = some l) (ht : fld b 0 1 = 4) :
    (s.signalled p q b).lq p q = { l with head := l.head + 1, hold := none, miss := [] } := by
  obtain ⟨u, hu, -, h⟩ := signalled_word s p q b
  have hud : u.parts[p]? = some d := by rw [hu]; exact hd
  have hc := lq_consume (b := b) hud hl (by omega)
  rcases h with h | h
  · rw [h, hc]
  · rw [h, lq_msix, hc]

/-- Settles O43: a doorbell by `execDoorbellWrite_eq`, a held FENCE by what its counters say, a SIGNAL by the state `signalled`. -/
theorem queueState : Obligations.QueueState := by
  refine ⟨fun s port page p q size v d l hd hl hp hq => ?_, fun s p q b hb hh => ⟨fun ht => ?_, fun ht => ?_⟩⟩
  · intro i ok room
    have hex : exec i s = execDoorbellWrite port page p q size v s := rfl
    rw [execDoorbellWrite_eq hd hl hp hq] at hex
    refine ⟨fun h => ?_, fun h hr => ?_, fun h hr => ?_⟩
    · rw [hex, if_neg h]
    · rw [hex, if_pos h]
      exact congrArg Host.Outcome.next (if_neg (Nat.not_lt.2 hr))
    · obtain ⟨d', hd', hl'⟩ := overrun_queue (v := v) hd hl
      rw [hex, if_pos h]
      exact ⟨_, d', congrArg Host.Outcome.next (if_pos (Nat.lt_of_not_le hr)), hd', hl', msix_mem .., msix_jobs ..⟩
  · intro u r
    have hex : exec (.fenceCounterReread p q) s = .next (s.fenceTry p q b) := execFenceCounterReread_held hb hh ht
    have said : s.countersSay p q b = r := rfl
    exact ⟨fun hr => hex.trans (congrArg _ (fenceTry_passes (said.trans hr))),
      fun hr => hex.trans (congrArg _ (fenceTry_holds (said.trans hr))),
      fun n hr => hex.trans (congrArg _ (fenceTry_code (said.trans hr)))⟩
  · intro va add k pas
    refine ⟨execSignalWrite_early hb, fun hj hva hx hsn hpo => ?_⟩
    obtain ⟨hm, hjobs, hwaves⟩ := signalled_frame s p q b
    refine ⟨_, execSignalWrite_due hb hh ht hj hva hx hsn hpo, hm, hjobs, hwaves, fun l hl hd => ?_⟩
    obtain ⟨d, hd⟩ := Option.isSome_iff_exists.1 hd
    obtain ⟨l', hl'⟩ := queue_of_packet hd hb
    rw [signalled_queue hd hl' ht, ← hl, lq_of_getElem? hd hl']
    exact ⟨rfl, rfl⟩

end Sys2Proof.Machine
end

section
/-!
SUPPORT. Packet events: what reading a packet changes, a bad header, and the packets that are no launch (R351, R353, R357, R358).
-/

namespace Sys2Proof.Machine

open Sys2Proof.Claims

variable {s t : State} {p q : Nat} {b : List Byte}

/-! ### Reads at their slices -/

theorem served_touchVa (s : State) (p : Nat) (old : List Miss) (va n : Nat) (own : Bool) : Served s (s.touchVa p old va n own) := by
  unfold State.touchVa
  split
  · exact served_foldl (fun _ _ => served_slcTouch ..) _ s
  · exact served_refl s

theorem served_touchSlots (s : State) (p q : Nat) : Served s (s.touchSlots p q) :=
  served_foldl (fun _ _ => served_slcTouch ..) _ s

theorem served_touchBody (s : State) (p : Nat) (old : List Miss) (b : List Byte) : Served s (s.touchBody p old b) := by
  unfold State.touchBody
  split
  · exact (served_touchVa ..).trans (served_touchVa ..)
  · exact served_refl s

theorem served_touchUnits (s : State) (p : Nat) (old : List Miss) (b : List Byte) : Served s (s.touchUnits p old b) := by
  simp only [State.touchUnits]
  split
  · exact served_touchBody ..
  · split
    · exact served_refl s
    · split
      · exact (served_touchVa ..).trans (served_foldl (fun _ _ => served_touchBody ..) _ _)
      · exact served_refl s

/-! ### A packet at the head -/

/-- A rejected packet that is no launch is consumed. -/
theorem reject_other (s : State) (c : Nat) (h1 : fld b 0 1 ≠ 1) (h2 : fld b 0 1 ≠ 2) :
    s.reject p q c b = (s.lqEvent p q c).consume p q b := by
  simp [State.reject, h1, h2]

section
variable {T : Nat → Bool} {f : List Byte → State → Res} (hb : s.packet p q = some b) (hh : (s.lq p q).hold = none)
  (ht : T (fld b 0 1) = true)
include hb hh ht

theorem onPacket_bad {c : Nat} (hc : hdrCode b = some c) : onPacket p q T f s = .next ((s.touchSlots p q).reject p q c b) := by
  simp [onPacket, hb, hh, ht, hc]

theorem onPacket_good (hc : hdrCode b = none) : onPacket p q T f s = f b (s.touchSlots p q) := by
  simp [onPacket, hb, hh, ht, hc]

end

/-- The event of a packet that is no launch, by its type. -/
def otherEvent (p q t : Nat) : Instr :=
  if t = 3 then .fencePacket p q else if t = 4 then .signalPacket p q else if t = 5 then .deadlinePacket p q
  else if t = 6 then .cancelPacket p q else .nopPacket p q

section
variable (hb : s.packet p q = some b) (hh : (s.lq p q).hold = none) (h1 : fld b 0 1 ≠ 1) (h2 : fld b 0 1 ≠ 2)
include hb hh h1 h2

theorem exec_otherEvent_bad {c : Nat} (hc : hdrCode b = some c) :
    exec (otherEvent p q (fld b 0 1)) s = .next (((s.touchSlots p q).lqEvent p q c).consume p q b) := by
  rw [← reject_other _ c h1 h2]
  unfold otherEvent
  split_ifs with h3 h4 h5 h6
  · show execFencePacket p q s = _
    rw [execFencePacket, onPacket_bad hb hh (by simp [h3]) hc]
  · show execSignalPacket p q s = _
    rw [execSignalPacket, onPacket_bad hb hh (by simp [h4]) hc]
  · show execDeadlinePacket p q s = _
    rw [execDeadlinePacket, onPacket_bad hb hh (by simp [h5]) hc]
  · show execCancelPacket p q s = _
    rw [execCancelPacket, onPacket_bad hb hh (by simp [h6]) hc]
  · show execNopPacket p q s = _
    rw [execNopPacket, onPacket_bad hb hh (by simp; omega) hc]

end

section
variable (hb : s.packet p q = some b) (hh : (s.lq p q).hold = none) (hc : hdrCode b = none)
include hb hh hc

theorem execNopPacket_good (h : fld b 0 1 = 0) : execNopPacket p q s = .next (
    let u := s.touchSlots p q
    if zeros b 8 64 then u.consume p q b else (u.lqEvent p q 2).consume p q b) := by
  rw [execNopPacket, onPacket_good hb hh (by simp [h]) hc, reject_other _ _ (by omega) (by omega)]

theorem execSignalPacket_good (h : fld b 0 1 = 4) : execSignalPacket p q s = .next (
    let u := s.touchSlots p q
    if zeros b 24 64 then u.modLq p q fun l => { l with hold := some 0 } else (u.lqEvent p q 2).consume p q b) := by
  rw [execSignalPacket, onPacket_good hb hh (by simp [h]) hc, reject_other _ _ (by omega) (by omega), apply_ite Host.Outcome.next]

theorem execDeadlinePacket_good (h : fld b 0 1 = 5) : execDeadlinePacket p q s = .next (
    let u := s.touchSlots p q
    if zeros b 24 64 then
      (u.modLq p q fun l => { l with dl := some (BitVec.ofNat 64 (fld b 8 8), BitVec.ofNat 64 (fld b 16 8)) }).consume p q b
    else (u.lqEvent p q 2).consume p q b) := by
  rw [execDeadlinePacket, onPacket_good hb hh (by simp [h]) hc, reject_other _ _ (by omega) (by omega), apply_ite Host.Outcome.next]

theorem execCancelPacket_good (h : fld b 0 1 = 6) : execCancelPacket p q s = .next (
    let u := s.touchSlots p q
    if zeros b 9 12 = true ∧ zeros b 16 64 = true ∧ fld b 8 1 ≤ 2 then
      (u.cancelBy p (if fld b 8 1 = 0 then .ltag else if fld b 8 1 = 1 then .gtag else .jtag)
        (BitVec.ofNat 32 (fld b 12 4))).consume p q b
    else (u.lqEvent p q 2).consume p q b) := by
  rw [execCancelPacket, onPacket_good hb hh (by simp [h]) hc, reject_other _ _ (by omega) (by omega)]
  by_cases good : zeros b 9 12 = true ∧ zeros b 16 64 = true ∧ fld b 8 1 ≤ 2
  · obtain ⟨h1, h2, h3⟩ := good
    simp [h1, h2, h3, Nat.not_lt.2 h3]
  · have bad : (!zeros b 9 12 || !zeros b 16 64 || decide (2 < fld b 8 1)) = true := by
      simpa only [not_and_or, Bool.or_eq_true, Bool.not_eq_true', Bool.not_eq_true, decide_eq_true_eq, not_le, or_assoc] using good
    simp only [bad, if_pos, if_neg good]

theorem execFencePacket_good (h : fld b 0 1 = 3) : execFencePacket p q s = .next (
    let u := s.touchSlots p q
    if fld b 8 1 = 0 ∨ 12 < fld b 8 1 then (u.lqEvent p q 8).consume p q b
    else if zeros b 9 16 = true ∧ zeros b (16 + 16 * fld b 8 1) 256 = true then u.fenceTry p q b
    else (u.lqEvent p q 2).consume p q b) := by
  rw [execFencePacket, onPacket_good hb hh (by simp [h]) hc, reject_other _ _ (by omega) (by omega),
    reject_other _ _ (by omega) (by omega)]
  have count : (decide (fld b 8 1 = 0) || decide (12 < fld b 8 1)) = true ↔ fld b 8 1 = 0 ∨ 12 < fld b 8 1 := by simp
  have reserved : (!zeros b 9 16 || !zeros b (16 + 16 * fld b 8 1) 256) = true ↔
      ¬ (zeros b 9 16 = true ∧ zeros b (16 + 16 * fld b 8 1) 256 = true) := by simp [imp_iff_not_or]
  simp only [count, reserved, ite_not]
  split_ifs <;> rfl

end

end Sys2Proof.Machine
end

section
/-!
SUPPORT. LAUNCH and GRAPH packets: the job that a packet opens, its graph and its launches (R352, R354–R356, R361).
-/

namespace Sys2Proof.Machine

open Sys2Proof.Claims

variable {s t : State} {p q : Nat} {b : List Byte} {bs : List Body}

/-! ### The launches of a graph -/

/-- One launch more: its launchid, and the launch at the end of the list. -/
def State.pushLaunch (s : State) (p jid gi : Nat) (st : UStat) (x : Nat × Body) : State :=
  { (s.newLid p).2 with launches := s.launches ++ [x.2.launch p (s.newLid p).1 jid gi x.1 st] }

/-- A run of new launches adds one for each body, in order, and changes nothing else but the partition's next launchid. -/
theorem foldl_pushLaunch (p jid gi : Nat) (st : UStat) (xs : List (Nat × Body)) (s : State) :
    ∃ ls ds, xs.foldl (fun s x => s.pushLaunch p jid gi st x) s = { s with launches := s.launches ++ ls, parts := ds } ∧
      List.Forall₂ (fun x y => ∃ lid, y = x.2.launch p lid jid gi x.1 st) xs ls := by
  induction xs generalizing s with
  | nil => exact ⟨[], s.parts, by simp, .nil⟩
  | cons x xs ih =>
    obtain ⟨ls, ds, h, hf⟩ := ih (s.pushLaunch p jid gi st x)
    refine ⟨x.2.launch p (s.newLid p).1 jid gi x.1 st :: ls, ds, ?_, .cons ⟨_, rfl⟩ hf⟩
    rw [List.foldl_cons, h]
    simp [State.pushLaunch, State.newLid, State.modPart]

/-- The next graph of a job. -/
def Job.graph (j : Job) (p jid : Nat) (tag : W32) (gcnt : W64) (n : Nat) : Graph :=
  { part := p, jid := jid, gi := j.ngraphs, tag := tag, gcnt := gcnt, nl := n, stat := j.stat, completed := false, wait := [] }

/-- The graph of a job in the machine. -/
theorem newGraph_eq {jid : Nat} {j : Job} {tag : W32} {gcnt : W64} (hj : s.job? p jid = some j) :
    ∃ (ls : List Launch) (ds : List Part) (g : Graph) (js : List Job), s.newGraph p jid tag gcnt bs =
      { s with graphs := s.graphs ++ [g], jobs := js, launches := s.launches ++ ls, parts := ds } ∧
      g.part = p ∧ g.jid = jid ∧ g.nl = bs.length ∧ g.gcnt = gcnt ∧
      js = upd (fun k => k.part = p && k.jid = jid) (fun k => { k with ngraphs := j.ngraphs + 1 }) s.jobs ∧
      List.Forall₂ (fun x y => ∃ lid, y = x.2.launch p lid jid j.ngraphs x.1 j.stat) ((List.range bs.length).zip bs) ls := by
  simp only [State.newGraph, hj]
  obtain ⟨ls, ds, h, hf⟩ := foldl_pushLaunch p jid j.ngraphs j.stat ((List.range bs.length).zip bs)
    ({ s with graphs := s.graphs ++ [j.graph p jid tag gcnt bs.length] }.modJob p jid fun k => { k with ngraphs := j.ngraphs + 1 })
  exact ⟨ls, ds, _, _, h, rfl, rfl, rfl, rfl, rfl, hf⟩

/-! ### The job of a packet -/

/-- The job that a packet opens. -/
def State.openedJob (s : State) (p q : Nat) (b : List Byte) : Job :=
  { part := p, jid := s.nextSeq, q := some q, tag := BitVec.ofNat 32 (fld b 4 4), prio := (s.part p).clamp (fld b 3 1 % 64),
    deadline := (s.lq p q).dl.map (·.1), est := ((s.lq p q).dl.map (·.2)).getD 0, jcnt := 0, promoted := false, ended := false,
    ngraphs := 0, order := (s.cycle, 0, q), stat := .live, wait := [] }

theorem hostJob_opens (hj : (s.lq p q).job = none) : ∃ ds, s.hostJob p q b =
    (s.nextSeq, { s with nextSeq := s.nextSeq + 1, jobs := s.jobs ++ [s.openedJob p q b], parts := ds }) := by
  simp only [State.hostJob, hj]
  exact ⟨_, rfl⟩

theorem job?_append {jid : Nat} (j : Job) (hp : j.part = p) (hi : j.jid = jid) (hs : s.jobs = t.jobs ++ [j]) :
    ∃ k, s.job? p jid = some k := by
  rw [← Option.isSome_iff_exists, State.job?, List.find?_isSome]
  exact ⟨j, by simp [hs], by simp [hp, hi]⟩

/-- Jobs stay, each with its partition, its queue and its priority. -/
def JobsStay (js ks : List Job) : Prop := ∀ j ∈ js, ∃ k ∈ ks, k.part = j.part ∧ k.q = j.q ∧ k.prio = j.prio

theorem JobsStay.trans {js ks ls : List Job} (h : JobsStay js ks) (h' : JobsStay ks ls) : JobsStay js ls := by
  intro j hj
  obtain ⟨k, hk, hp, hq, hprio⟩ := h j hj
  obtain ⟨l, hl, hp', hq', hprio'⟩ := h' k hk
  exact ⟨l, hl, hp'.trans hp, hq'.trans hq, hprio'.trans hprio⟩

theorem jobsStay_upd {P : Job → Bool} {f : Job → Job} (hf : ∀ j, (f j).part = j.part ∧ (f j).q = j.q ∧ (f j).prio = j.prio)
    (js : List Job) : JobsStay js (upd P f js) := by
  intro j hj
  refine ⟨if P j then f j else j, List.mem_map_of_mem hj, ?_⟩
  split
  · exact hf j
  · exact ⟨rfl, rfl, rfl⟩

/-- The end of a job is noted at its queue. -/
theorem closeJob_frame (s : State) (p q jid : Nat) (b : List Byte) :
    ∃ js ds, s.closeJob p q jid b = { s with jobs := js, parts := ds } ∧ JobsStay s.jobs js := by
  unfold State.closeJob
  split
  · refine ⟨_, _, rfl, jobsStay_upd ?_ _⟩
    exact fun _ => ⟨rfl, rfl, rfl⟩
  · exact ⟨s.jobs, s.parts, rfl, fun j hj => ⟨j, hj, rfl, rfl, rfl⟩⟩

/-! ### A packet whose launches parse -/

/-- A partition's instruction caches lose their lines. -/
def State.dropCode (s : State) (p : Nat) : State := { s with ic := s.ic.filter fun l => !(s.coresOf p).contains l.core }

/-- GCNT of a packet: a LAUNCH has none. -/
def packetGcnt (b : List Byte) : W64 := if fld b 0 1 = 2 then BitVec.ofNat 64 (fld b 40 8) else 0

/-- The machine with a packet's graph in its queue's job, the packet consumed. -/
def State.openUnits (s : State) (p q : Nat) (b : List Byte) (bs : List Body) : State :=
  let h := s.hostJob p q b
  (((h.2.newGraph p h.1 (BitVec.ofNat 32 (fld b 4 4)) (packetGcnt b) bs).dropCode p).closeJob p q h.1 b).consume p q b

theorem parsePacket_ok {v : State} (hv : v = s.touchUnits p (s.lq p q).miss b)
    (hbs : v.parseUnits p (v.lq p q).miss b = .ok bs) (hj : (v.lq p q).job = none) (hg : v.gangBad p bs = false) :
    s.parsePacket p q b = v.openUnits p q b bs := by
  simp only [State.parsePacket, ← hv, hbs, hj, hg]
  rfl

theorem parsePacket_code {v : State} {n : Nat} (hv : v = s.touchUnits p (s.lq p q).miss b)
    (hbs : v.parseUnits p (v.lq p q).miss b = .code n) : s.parsePacket p q b = v.reject p q n b := by
  simp only [State.parsePacket, ← hv, hbs]

/-- What a good packet adds where no job is open. -/
structure OpensUnits (s : State) (p q : Nat) (b : List Byte) (bs : List Body) (u : State) (ls : List Launch) (g : Graph) : Prop where
  launches : u.launches = s.launches ++ ls
  each : ∃ gi st, List.Forall₂ (fun x y => ∃ lid, y = x.2.launch p lid s.nextSeq gi x.1 st) ((List.range bs.length).zip bs) ls
  graphs : u.graphs = s.graphs ++ [g]
  graph : g.nl = bs.length ∧ g.part = p ∧ g.jid = s.nextSeq ∧ g.gcnt = packetGcnt b
  jobs : JobsStay (s.jobs ++ [s.openedJob p q b]) u.jobs
  rest : u.waves = s.waves ∧ u.groups = s.groups ∧ u.mem = s.mem

/-- What ends the parse of a packet leaves the units and the stored state as they are. -/
theorem finish_frame (x : State) (p q jid : Nat) (b : List Byte) :
    let u := ((x.dropCode p).closeJob p q jid b).consume p q b
    u.launches = x.launches ∧ u.graphs = x.graphs ∧ JobsStay x.jobs u.jobs ∧ u.waves = x.waves ∧ u.groups = x.groups ∧
      u.mem = x.mem := by
  obtain ⟨js, ds, h, stay⟩ := closeJob_frame (x.dropCode p) p q jid b
  rw [h]
  exact ⟨rfl, rfl, stay, rfl, rfl, rfl⟩

theorem openUnits_opens (hj : (s.lq p q).job = none) : ∃ ls g, OpensUnits s p q b bs (s.openUnits p q b bs) ls g := by
  obtain ⟨ds, hhost⟩ := hostJob_opens (b := b) hj
  let w : State := { s with nextSeq := s.nextSeq + 1, jobs := s.jobs ++ [s.openedJob p q b], parts := ds }
  obtain ⟨k, hk⟩ : ∃ k, w.job? p s.nextSeq = some k := job?_append (t := s) (s.openedJob p q b) rfl rfl rfl
  obtain ⟨ls, ds', g, js, hnew, hgp, hgj, hgn, hgc, hjs, hls⟩ :=
    newGraph_eq (tag := BitVec.ofNat 32 (fld b 4 4)) (gcnt := packetGcnt b) (bs := bs) hk
  obtain ⟨hl, hg, hjobs, hrest⟩ :=
    finish_frame (w.newGraph p s.nextSeq (BitVec.ofNat 32 (fld b 4 4)) (packetGcnt b) bs) p q s.nextSeq b
  have stay : JobsStay w.jobs js := by
    rw [hjs]
    refine jobsStay_upd ?_ _
    exact fun _ => ⟨rfl, rfl, rfl⟩
  refine ⟨ls, g, ?_⟩
  rw [State.openUnits, hhost]
  rw [hnew] at hl hg hjobs hrest
  rw [hnew]
  exact ⟨hl, ⟨_, _, hls⟩, hg, ⟨hgn, hgp, hgj, hgc⟩, stay.trans hjobs, hrest⟩

/-- Each body has its launch, by its place in the packet. -/
theorem OpensUnits.launch {u : State} {ls : List Launch} {g : Graph} (h : OpensUnits s p q b bs u ls g) :
    ls.length = bs.length ∧ ∀ (k : Nat) (x : Body), bs[k]? = some x →
      ∃ lid gi st, ls[k]? = some (x.launch p lid s.nextSeq gi k st) := by
  obtain ⟨gi, st, hf⟩ := h.each
  have len : ls.length = bs.length := by simpa using hf.length_eq.symm
  refine ⟨len, fun k x hx => ?_⟩
  obtain ⟨hk, hget⟩ := List.getElem?_eq_some_iff.1 hx
  obtain ⟨lid, hy⟩ := hf.get (i := k) (by simpa using hk) (by omega)
  refine ⟨lid, gi, st, ?_⟩
  rw [List.getElem?_eq_getElem (by omega)]
  simpa [hget] using hy

end Sys2Proof.Machine
end

section
/-! The packets of a launch queue: the statement about them, and its proof. -/

namespace Sys2Proof.Machine

open Sys2Proof.Claims

variable {s : State} {p q t : Nat} {b : List Byte}

/-- A good header of a launch packet has one slot. -/
theorem nslot_of_hdrCode (ht : fld b 0 1 ≠ 3) (hc : hdrCode b = none) : fld b 1 1 = 1 := by
  unfold hdrCode at hc
  by_contra h
  simp [ht, h] at hc

section
variable (hb : s.packet p q = some b) (hh : (s.lq p q).hold = none) (ht : fld b 0 1 = t) (ht' : t = 1 ∨ t = 2)
  (hc : hdrCode b = none)
include hb hh ht ht' hc

omit hh in
theorem launchOrGraph_skipped {jid : Nat} (hs : (s.lq p q).skip = some jid) :
    launchOrGraph t p q s = .next (((s.touchSlots p q).closeJob p q jid b).consume p q b) := by
  have slots := nslot_of_hdrCode (by omega) hc
  simp only [launchOrGraph, hb, hs, ht, slots]
  simp [State.skipPacket]

omit ht' in
theorem launchOrGraph_parsed (hs : (s.lq p q).skip = none) :
    launchOrGraph t p q s = .next ((s.touchSlots p q).parsePacket p q b) := by
  simp only [launchOrGraph, hb, hs]
  exact onPacket_good hb hh (by simp [ht]) hc

end

/-- The units, the partitions and what is stored are as before the reads of a packet. -/
theorem served_units {u v : State} (h : Served u v) : v.launches = u.launches ∧ v.graphs = u.graphs ∧ v.nextSeq = u.nextSeq ∧
    v.parts = u.parts ∧ v.waves = u.waves ∧ v.groups = u.groups ∧ v.mem = u.mem := by
  rw [h]
  exact ⟨rfl, rfl, rfl, rfl, rfl, rfl, rfl⟩

/-- Settles O44: a packet that is no launch by its own equation, and a launch by the state `openUnits`. -/
theorem queuePackets : Obligations.QueuePackets := by
  refine ⟨fun s p q b hb hh h1 h2 => ?_, fun s p q b t hb hh ht ht' hc => ?_⟩
  · intro t s1 rejects i n
    have bad : ∀ c, hdrCode b = some c → rejects i c := fun c hc => exec_otherEvent_bad hb hh h1 h2 hc
    refine ⟨bad, fun hc => ⟨fun h => ?nop, fun h => ?signal, fun h => ?deadline, fun h => ?cancel, fun h => ?fence⟩⟩
    case nop =>
      have hex : exec i s = execNopPacket p q s := by simp only [i, h]; rfl
      rw [execNopPacket_good hb hh hc h] at hex
      exact ⟨fun hz => by rw [hex, if_pos hz], fun hz => by simp only [rejects, hex, hz]; rfl⟩
    case signal =>
      have hex : exec i s = execSignalPacket p q s := by simp only [i, t, h]; rfl
      rw [execSignalPacket_good hb hh hc h] at hex
      exact ⟨fun hz => by rw [hex, if_pos hz], fun hz => by simp only [rejects, hex, hz]; rfl⟩
    case deadline =>
      have hex : exec i s = execDeadlinePacket p q s := by simp only [i, t, h]; rfl
      rw [execDeadlinePacket_good hb hh hc h] at hex
      exact ⟨fun hz => by rw [hex, if_pos hz], fun hz => by simp only [rejects, hex, hz]; rfl⟩
    case cancel =>
      have hex : exec i s = execCancelPacket p q s := by simp only [i, t, h]; rfl
      rw [execCancelPacket_good hb hh hc h] at hex
      refine ⟨fun hz => by rw [hex, if_pos hz], fun hz => ?_⟩
      have bad : ¬ (zeros b 9 12 = true ∧ zeros b 16 64 = true ∧ fld b 8 1 ≤ 2) := by
        simpa only [not_and_or, Bool.not_eq_true, not_le] using hz
      exact hex.trans (congrArg Host.Outcome.next (if_neg bad))
    case fence =>
      have hex : exec i s = execFencePacket p q s := by simp only [i, t, h]; rfl
      rw [execFencePacket_good hb hh hc h] at hex
      refine ⟨fun hn => hex.trans (congrArg Host.Outcome.next (if_pos hn)), fun hl hu hz hz' => ?_⟩
      have count : ¬ (fld b 8 1 = 0 ∨ 12 < fld b 8 1) := by omega
      rw [if_neg count, if_pos ⟨hz, hz'⟩] at hex
      exact ⟨fun hr => hex.trans (congrArg _ (fenceTry_passes hr)), fun hr => hex.trans (congrArg _ (fenceTry_holds hr))⟩
  · intro i s1
    have hex : exec i s = launchOrGraph t p q s := by
      rcases ht' with rfl | rfl <;> rfl
    refine ⟨fun jid hs => hex.trans (launchOrGraph_skipped hb ht ht' hc hs), fun hs => ?_⟩
    rw [launchOrGraph_parsed hb hh ht hc hs] at hex
    intro v
    refine ⟨fun n hn => by rw [hex, parsePacket_code rfl hn], fun bs hbs hj hg => ?_⟩
    rw [parsePacket_ok rfl hbs hj hg] at hex
    have hv : Served s v := (served_touchSlots s p q).trans (served_touchUnits ..)
    obtain ⟨ls, g, h⟩ := openUnits_opens (b := b) (bs := bs) hj
    obtain ⟨len, each⟩ := h.launch
    obtain ⟨hl, hg, hn, hp, hw, hgr, hm⟩ := served_units hv
    obtain ⟨waves, groups, mem⟩ := h.rest
    obtain ⟨gnl, gpart, gjid, ggcnt⟩ := h.graph
    obtain ⟨j, jin, jpart, jq, jprio⟩ := h.jobs (v.openedJob p q b) (by simp)
    refine ⟨_, ls, j, g, hex, by rw [h.launches, hl], len, fun k x hx => ?_, by rw [h.graphs, hg], gnl, gpart, by rw [gjid, hn],
      by rw [ggcnt, packetGcnt, ht], jin, jpart, jq, ?_, by rw [waves, hw], by rw [groups, hgr], by rw [mem, hm]⟩
    · obtain ⟨lid, gi, st, hy⟩ := each k x hx
      exact ⟨_, hy, rfl, rfl, rfl, rfl, rfl, rfl, rfl, rfl, rfl, hn, rfl, rfl, rfl⟩
    · rw [jprio, State.openedJob, State.part, hp]
      rfl

end Sys2Proof.Machine
end

section
/-!
SUPPORT. Ray, raster, texture and blend instructions at issue: what their access holds, and the words that a blend makes (R322, R336,
R342).
-/

namespace Sys2Proof.Machine

open Sys2Proof.Claims

variable {s : State} {w : Wave} {i : Instr} {h : Hdr}

/-! ### Instructions that read a header -/

/-- What a start says of its access may be said in other words. -/
theorem startsReading_imp {u : Bool} {a b : Env → Acc → Prop} (hs : StartsReading s w i h u a)
    (hab : ∀ x, a (mkEnv s w u i) x → b (mkEnv s w u i) x) : StartsReading s w i h u b := by
  obtain ⟨t, w', x, hx, hst, ha⟩ := hs
  exact ⟨t, w', x, hx, hst, hab x ha⟩

/-- Data reads that pass the checks pass them where none is judged, too. -/
theorem blockChk_judged {e : Env} {ts : List Nat} {va : W64} {size : Nat} {rd : Reads}
    (hc : blockChk s e ts va size rd = .ok) : blockChk s e ts va size (e.judged rd) = .ok := by
  unfold Env.judged
  split
  · exact hc
  · unfold blockChk at hc ⊢
    split at hc
    · cases hc
    · next hold =>
      rw [if_neg hold]
      split at hc
      · next => exact hc
      · next => rfl

/-- An instruction that reads a header starts its access where the checks of header and data pass. -/
theorem startsReading_of_startBlock {hs : BitVec 8} {size : Nat} {rd rd' : Env → Reads} {op : AccOp} {a : Env → Acc}
    (hx : exec i s = issue i h false (fun s e => blockChk s e (lanesOf e h false) (e.srPair hs) size (rd' e))
      (fun e s => s.startBlock e (a e) (e.srPair hs) size (rd e)) s)
    (ha : ∀ e, IssuedBy e h op (a e)) (hrd : ∀ e, rd' e = rd e ∨ rd' e = e.judged (rd e)) (hi : Issues s w i false)
    (hc : blockChk s (mkEnv s w false i) (lanesOf (mkEnv s w false i) h false) ((mkEnv s w false i).srPair hs) size
      (rd (mkEnv s w false i)) = .ok) :
    StartsReading s w i h false fun e x => StartsAs (a e) x := by
  let e := mkEnv s w false i
  obtain ⟨x, adds, hstart⟩ := startBlock_adds (s.enter w e h) e (a e) (e.srPair hs) size (rd e)
  have checked : blockChk s e (lanesOf e h false) (e.srPair hs) size (rd' e) = .ok := by
    rcases hrd e with same | judged
    · rw [same]; exact hc
    · rw [judged]; exact blockChk_judged hc
  exact ⟨_, _, x, hx.trans (issue_ok hi checked), started_of_adds hi adds (hstart.issuedBy (ha e)), hstart⟩

/-- The access of an instruction on ray blocks. -/
def rayAcc (h : Hdr) (op : AccOp) (a : BitVec 9) (n : Nat) (b : Env → Nat → W32) (dst : AccDst) (e : Env) : Acc :=
  { e.acc h op with
    tag := .b64, dst := dst
    args := BitVec.ofNat 64 a.toNat :: (lanesOf e h false).flatMap fun t => rayArg e a n (b e) t }

theorem startsReading_of_rayOp {op : AccOp} {hs : BitVec 8} {a : BitVec 9} {n : Nat} {b : Env → Nat → W32}
    {reads : RayHdr → W32 → List W64} {dst : AccDst} (hx : exec i s = rayOp i h op hs a n b reads dst s) (hi : Issues s w i false)
    (hc : blockChk s (mkEnv s w false i) (lanesOf (mkEnv s w false i) h false) ((mkEnv s w false i).srPair hs) 8
      (rayReads h b reads (mkEnv s w false i)) = .ok) :
    StartsReading s w i h false fun e x => StartsAs (rayAcc h op a n b dst e) x :=
  startsReading_of_startBlock (size := 8) (rd := rayReads h b reads) (rd' := fun e => e.judged (rayReads h b reads e))
    (a := rayAcc h op a n b dst) hx (fun _ => ⟨rfl, rfl, rfl, rfl, rfl⟩) (fun _ => .inr rfl) hi hc

/-- An access starts with the kind, destination and operands it was made with. -/
theorem startsAs_fields {a x : Acc} (h : StartsAs a x) : x.op = a.op ∧ x.dst = a.dst ∧ x.args = a.args := by
  unfold StartsAs at h
  exact ⟨(congrArg Acc.op h :), (congrArg Acc.dst h :), (congrArg Acc.args h :)⟩

theorem startsAs_tag {a x : Acc} (h : StartsAs a x) : x.tag = a.tag := by
  unfold StartsAs at h
  exact (congrArg Acc.tag h :)

/-! ### The words of a blend -/

/-- A word of four bytes. -/
def word4 (c : Nat → Nat) : Nat := (List.range 4).foldl (fun n k => n + c k * 2 ^ (8 * k)) 0

theorem foldl_range_four (f : Nat → Nat) : (List.range 4).foldl (fun n k => n + f k) 0 = f 0 + f 1 + f 2 + f 3 := by
  simp [List.range_succ]

theorem word4_eq (c : Nat → Nat) : word4 c = c 0 + c 1 * 256 + c 2 * 65536 + c 3 * 16777216 := by
  have sum := foldl_range_four fun k => c k * 2 ^ (8 * k)
  rw [word4, sum]
  norm_num

theorem blendWord_u8 (op : BlendOp) (x d : Nat) : blendWord op false x d =
    word4 fun k => blendU8 op (x / 2 ^ (8 * k) % 256) (d / 2 ^ (8 * k) % 256) (x / 2 ^ (8 * 3) % 256) := rfl

theorem byte_word4 {c : Nat → Nat} (hc : ∀ k, c k < 256) {k : Nat} (hk : k < 4) : word4 c / 2 ^ (8 * k) % 256 = c k := by
  have h0 := hc 0
  have h1 := hc 1
  have h2 := hc 2
  have h3 := hc 3
  rw [word4_eq]
  interval_cases k <;> omega

/-- A channel of a blend of U8X4, saturating or not, from the channels of the source and of the window. -/
theorem byte_blendWord {op : BlendOp} {f : Nat → Nat → Nat} (hf : ∀ a b c, blendU8 op a b c = f a b)
    (bound : ∀ a b, a < 256 → b < 256 → f a b < 256) (x d : Nat) {k : Nat} (hk : k < 4) :
    blendWord op false x d / 2 ^ (8 * k) % 256 = f (x / 2 ^ (8 * k) % 256) (d / 2 ^ (8 * k) % 256) := by
  rw [blendWord_u8, byte_word4 (fun k => ?_) hk, hf]
  rw [hf]
  exact bound _ _ (Nat.mod_lt _ (by decide)) (Nat.mod_lt _ (by decide))

theorem word4_bytes {x : Nat} (hx : x < 2 ^ 32) : word4 (fun k => x / 2 ^ (8 * k) % 256) = x := by
  rw [word4_eq]
  omega

end Sys2Proof.Machine
end

section
/-! Ray, raster, texture and blend instructions start: the statement about them, and its proof. -/

namespace Sys2Proof.Machine

open Sys2Proof.Claims

variable {s : State} {w : Wave} {h : Hdr}

/-! ### RAST -/

/-- The low bits of a word, as a signed number. -/
theorem signedOf_bits_truncate (x : W32) : signedOf 24 (bits x 23 0) = ((x.truncate 24 : BitVec 24)).toInt := by
  rw [BitVec.toInt_eq_toNat_cond]
  simp only [signedOf, bits, BitVec.truncate_eq_setWidth, BitVec.toNat_setWidth]
  norm_num
  split_ifs <;> omega

/-- RAST's operands, from the scalar registers of its wave. -/
def rastOf (w : Wave) (e : Env) (o : RastOp) : Rast :=
  let sx (i : Nat) : W32 := w.rs e.c0 (o.a.toNat + i)
  let c (i : Nat) : Int := ((sx i).truncate 24 : BitVec 24).toInt
  ⟨[c 0, c 2, c 4], [c 1, c 3, c 5], bits (sx 6) 15 0, bits (sx 6) 31 16⟩

/-- RAST's sweep on from its cursor: the pixels and the cursor after them. -/
def rastRun (w : Wave) (h : Hdr) (e : Env) (o : RastOp) : List (Nat × Nat) × W32 :=
  (rastOf w e o).run (lanesOf e h false).length (w.rs e.c0 o.b.toNat)

/-- A pixel as RAST gives it. -/
def pixelWord : Option (Nat × Nat) → W32
  | some p => BitVec.ofNat 32 (p.2 % 65536 * 65536 + p.1 % 65536)
  | none => 0xFFFFFFFF

/-- A pixel and its two barycentric results. -/
def rastOut (r : Rast) (p : Option (Nat × Nat)) : W32 × W32 × W32 :=
  match p with
  | some (x, y) =>
    (BitVec.ofNat 32 (y % 65536 * 65536 + x % 65536),
     intQuot (r.edge 2 0 (256 * x + 128) (256 * y + 128)) r.area,
     intQuot (r.edge 0 1 (256 * x + 128) (256 * y + 128)) r.area)
  | none => (0xFFFFFFFF, 0, 0)

theorem rastOut_fst (r : Rast) (p : Option (Nat × Nat)) : (rastOut r p).1 = pixelWord p := by
  cases p <;> rfl

/-- The results of an issue of RAST, thread by thread. -/
def rastOuts (h : Hdr) (o : RastOp) (e : Env) : List (Nat × W32 × W32 × W32) :=
  ((List.range (lanesOf e h false).length).zip (lanesOf e h false)).map fun k =>
    (k.2, rastOut (rastOf e.w e o) (rastRun e.w h e o).1[k.1]?)

/-- What an issue of RAST makes its access hold. -/
def rastPuts (h : Hdr) (o : RastOp) (e : Env) : List Put :=
  if (lanesOf e h false).isEmpty then [] else
    [.v o.d.toNat ((rastOuts h o e).map fun x => (x.1, x.2.1)), .v (o.d.toNat + 1) ((rastOuts h o e).map fun x => (x.1, x.2.2.1)),
     .v (o.d.toNat + 2) ((rastOuts h o e).map fun x => (x.1, x.2.2.2)), .s o.b.toNat (rastRun e.w h e o).2]

theorem exec_rast (o : RastOp) : exec (.rast h o) s =
    issue (.rast h o) h false noChk (fun e s => s.addAcc { e.acc h .rast with puts := rastPuts h o e }) s := by
  show execRast h o s = _
  unfold execRast
  simp only [signedOf_bits_truncate]
  rfl

theorem rastOuts_pixels (h : Hdr) (o : RastOp) (e : Env) : ((rastOuts h o e).map fun x => (x.1, x.2.1)) =
    ((List.range (lanesOf e h false).length).zip (lanesOf e h false)).map fun k =>
      (k.2, pixelWord (rastRun e.w h e o).1[k.1]?) := by
  rw [rastOuts, List.map_map]
  exact List.map_congr_left fun k _ => Prod.ext rfl (rastOut_fst ..)

/-- RAST gives the k-th active thread the k-th pixel, and the cursor moves on. -/
theorem rastPuts_active {e : Env} (o : RastOp) (hn : lanesOf e h false ≠ []) : ∃ ys zs, rastPuts h o e =
    [.v o.d.toNat (((List.range (lanesOf e h false).length).zip (lanesOf e h false)).map fun k =>
      (k.2, pixelWord (rastRun e.w h e o).1[k.1]?)), .v (o.d.toNat + 1) ys, .v (o.d.toNat + 2) zs,
     .s o.b.toNat (rastRun e.w h e o).2] := by
  rw [← rastOuts_pixels]
  exact ⟨_, _, if_neg (by simpa using hn)⟩

theorem rastPuts_idle {e : Env} (o : RastOp) (hn : lanesOf e h false = []) : rastPuts h o e = [] :=
  if_pos (by simp [hn])

theorem rast_starts_with {o : RastOp} (hi : Issues s w (.rast h o) false) :
    Starts s w (.rast h o) h false fun e a => a.op = .rast ∧ a.puts = rastPuts h o e :=
  starts_of_addAcc (exec_rast o) hi rfl rfl rfl rfl rfl rfl ⟨rfl, rfl⟩

/-- Settles O34, instruction by instruction: each starts the access that its issue builds. -/
theorem rayCommands : Obligations.RayCommands := by
  refine ⟨fun s w h b t n r x q o => ?_, fun s w h o => ⟨fun hi => ?_, fun x d hx => ?_⟩⟩
  · intro act block uv ready starts rays
    have of_ray (i : Instr) (op : AccOp) (hs : BitVec 8) (a : BitVec 9) (k : Nat) (f : Env → Nat → W32)
        (reads : RayHdr → W32 → List W64) (dst : AccDst) (hx : exec i s = rayOp i h op hs a k f reads dst s)
        (hc : ready i hs 8 (rayReads h f reads)) : starts i op dst fun e => block e a k (f e) :=
      startsReading_imp (startsReading_of_rayOp hx hc.1 hc.2) fun y hy => startsAs_fields hy
    refine ⟨of_ray (.rbox h b) .rbox b.hs b.a 16 (fun e t => e.v32 1 b.b t) (fun hd v => words8 (hd.nodes + 256 * v.toNat) 28)
        (.v b.d.toNat true) rfl,
      of_ray (.rtri h t) .rtri t.hs t.a 48 (fun e l => e.v32 1 t.b l)
        (fun hd v => (leafTris hd v).flatMap fun i => words8 (hd.tris + 48 * i) 6) .none rfl,
      fun hc => of_ray (.rhint h n) .rhint n.hs n.a 16 (fun _ _ => 0) (fun _ _ => []) (.v n.d.toNat true) rfl ?_,
      fun hc => of_ray (.rhset h r) .rhset r.hs r.a 16 (fun _ _ => 0) (fun _ _ => []) .none rfl ?_,
      fun hc => ?tex, fun hc => ?texq, fun hi => ?rast⟩
    · rw [rayReads_nil]; exact hc
    · rw [rayReads_nil]; exact hc
    case tex =>
      exact startsReading_imp (startsReading_of_startBlock (exec_tex x) (fun _ => ⟨rfl, rfl, rfl, rfl, rfl⟩) (fun _ => .inr rfl)
        hc.1 hc.2) fun y hy => startsAs_fields hy
    case texq =>
      have hex : exec (.texq h q) s = execTexq h q s := rfl
      exact startsReading_imp (startsReading_of_startBlock hex (fun _ => ⟨rfl, rfl, rfl, rfl, rfl⟩) (fun _ => .inl rfl)
        hc.1 hc.2) fun y hy => startsAs_fields hy
    case rast =>
      let e := mkEnv s w false (.rast h o)
      refine (rast_starts_with hi).imp fun a ha => ⟨ha.1, fun hn => ha.2.trans (rastPuts_idle (e := e) o hn), fun hn => ?_⟩
      obtain ⟨ys, zs, hputs⟩ := rastPuts_active (e := e) o hn
      exact ⟨_, ys, zs, ha.2.trans hputs, List.map_congr_left fun k _ => rfl⟩
  · intro e size off hc
    refine (starts_of_startSp (off := blendOffset o) (exec_blend o) (fun _ => ⟨rfl, rfl, rfl, rfl, rfl⟩) hi hc).imp
      fun x hx => ⟨(startsAs_fields hx.1).1, startsAs_tag hx.1, (startsAs_fields hx.1).2.1, ?_⟩
    rw [hx.2]
    simp only [blendAcc, blendAddrs, List.map_map]
    exact List.map_congr_left fun t _ => rfl
  · have rep : blendWord .rep false x d = x := (blendWord_u8 ..).trans (word4_bytes hx)
    exact ⟨rep, fun k hk => ⟨byte_blendWord (f := fun a b => min 255 (a + b)) (fun _ _ _ => rfl) (fun a b _ _ => by omega) x d hk,
      byte_blendWord (f := min) (fun _ _ _ => rfl) (fun a b _ _ => by omega) x d hk,
      byte_blendWord (f := max) (fun _ _ _ => rfl) (fun a b _ _ => by omega) x d hk⟩⟩

end Sys2Proof.Machine
end

section
/-!
SUPPORT. How ray, raster and texture instructions complete (R323, R325), and the operations of the Cullet table (R331–R335).
-/

namespace Sys2Proof.Machine

open Sys2Proof.Claims

variable {s : State} {id : Nat} {a : Acc}

/-! ### The Cullet table -/

section
variable {p : Nat} {hd : RayHdr} {ray : List W32} {k : W64} {idx : Nat} {tag : W32}

/-- The entry of the table at an index. -/
def State.culletEntry (s : State) (j : Nat) : Option Cullet := s.cullet.find? fun c => c.idx = j

/-- What RHINT answers for a ray from an entry. -/
def culletAnswer (hd : RayHdr) (tag : W32) : Option Cullet → W32 × W32
  | some c => if c.tag = tag && c.gen = hd.gen then (1#1 ++ c.leaf, c.prim) else (0xFFFFFFFF, 0xFFFFFFFF)
  | none => (0xFFFFFFFF, 0xFFFFFFFF)

/-- The table with the hit of a ray in the entry at an index. -/
def State.culletSet (s : State) (hd : RayHdr) (ray : List W32) (idx : Nat) (tag : W32) : State :=
  { s with
    cullet := ⟨idx, tag, hd.gen, (ray.getD 13 0).truncate 31, ray.getD 8 0⟩ :: s.cullet.filter fun c => c.idx ≠ idx
    culletUse := ⟨idx, s.culletEntry idx, false⟩ :: s.culletUse }

theorem culletEntry_culletSet_same : (s.culletSet hd ray idx tag).culletEntry idx =
    some ⟨idx, tag, hd.gen, (ray.getD 13 0).truncate 31, ray.getD 8 0⟩ := by
  simp [State.culletEntry, State.culletSet]

theorem culletEntry_culletSet_other {j : Nat} (hj : j ≠ idx) :
    (s.culletSet hd ray idx tag).culletEntry j = s.culletEntry j := by
  simp only [State.culletEntry, State.culletSet, List.find?_cons, decide_eq_false hj.symm, List.find?_filter]
  congr 1
  funext c
  by_cases hc : c.idx = j
  · simp [hc, hj]
  · simp [hc]

section
variable (hbad : hd.bad = false) (hk : rayKey hd ray = some k) (hat : s.culletAt p k = some (idx, tag))
include hbad hk hat

theorem raySet_free (hit : (ray.getD 11 0).getLsbD 5 = true) (leaf : (ray.getD 13 0).getLsbD 31 = true)
    (hfree : ∀ u ∈ s.culletUse, u.idx ≠ idx) : s.raySet p hd ray = some (s.culletSet hd ray idx tag) := by
  have unused : (s.culletUse.any fun u => u.idx = idx) = false := by simpa using hfree
  simp only [State.raySet, hbad, hit, leaf, hk, Option.bind_some, hat, unused]
  rfl

theorem raySet_taken (hit : (ray.getD 11 0).getLsbD 5 = true) (leaf : (ray.getD 13 0).getLsbD 31 = true)
    (hused : ∃ u ∈ s.culletUse, u.idx = idx) : s.raySet p hd ray = none := by
  have used : (s.culletUse.any fun u => u.idx = idx) = true := by simpa using hused
  simp only [State.raySet, hbad, hit, leaf, hk, Option.bind_some, hat, used]
  rfl

theorem rayHint_free (hfree : ∀ u ∈ s.culletUse, u.idx ≠ idx) : ∃ us, s.rayHint p hd ray =
    some (culletAnswer hd tag (s.culletEntry idx), { s with culletUse := us }) := by
  have unused : (s.culletUse.any fun u => u.idx = idx && u.hint) = false := by
    simpa using fun u hu h => absurd h (hfree u hu)
  have untouched : (s.culletUse.find? fun u => u.idx = idx) = none := by simpa using hfree
  simp only [State.rayHint, hbad, hk, Option.bind_some, hat, unused, State.culletSeen, untouched]
  exact ⟨_, rfl⟩

end

/-- A ray with no entry in the table. -/
def NoEntry (s : State) (p : Nat) (hd : RayHdr) (ray : List W32) : Prop :=
  hd.bad = true ∨ rayKey hd ray = none ∨ s.hasCullet = false ∨ 8 < (s.part p).cs

theorem culletAt_of_noEntry (h : NoEntry s p hd ray) (hbad : hd.bad = false) : (rayKey hd ray).bind (s.culletAt p) = none := by
  rcases h with h | h | h | h
  · rw [hbad] at h; cases h
  · rw [h]; rfl
  all_goals
    cases rayKey hd ray with
    | none => rfl
    | some k => simp [State.culletAt, h]

theorem raySet_noEntry (h : NoEntry s p hd ray) : s.raySet p hd ray = some s := by
  cases hbad : hd.bad with
  | true => simp [State.raySet, hbad]
  | false =>
    simp only [State.raySet, culletAt_of_noEntry h hbad]
    exact ite_self _

theorem rayHint_noEntry (h : NoEntry s p hd ray) : s.rayHint p hd ray = some ((0xFFFFFFFF, 0xFFFFFFFF), s) := by
  cases hbad : hd.bad with
  | true => simp [State.rayHint, hbad]
  | false =>
    simp only [State.rayHint, culletAt_of_noEntry h hbad]
    exact ite_self _

theorem raySet_miss (h : (ray.getD 11 0).getLsbD 5 = false ∨ (ray.getD 13 0).getLsbD 31 = false) :
    s.raySet p hd ray = some s := by
  simp only [State.raySet]
  rw [if_pos]
  rcases h with h | h <;> simp only [h, Bool.not_false, Bool.or_true, Bool.true_or]

/-- Where no operation of the cycle has reached the table, RHINT is answered. -/
theorem rayHint_quiet (hq : s.culletUse = []) (p : Nat) (hd : RayHdr) (ray : List W32) :
    ∃ r us, s.rayHint p hd ray = some (r, { s with culletUse := us }) := by
  unfold State.rayHint
  split
  · exact ⟨_, s.culletUse, rfl⟩
  · split
    · exact ⟨_, s.culletUse, rfl⟩
    · rw [if_neg (by simp [hq])]
      exact ⟨_, _, rfl⟩

/-- Where no operation of the cycle has reached the table, RHSET is done. -/
theorem raySet_quiet (hq : s.culletUse = []) (p : Nat) (hd : RayHdr) (ray : List W32) :
    ∃ cs us, s.raySet p hd ray = some { s with cullet := cs, culletUse := us } := by
  simp only [State.raySet]
  split
  · exact ⟨s.cullet, s.culletUse, rfl⟩
  · split
    · exact ⟨s.cullet, s.culletUse, rfl⟩
    · rw [if_neg (by simp [hq])]
      exact ⟨_, _, rfl⟩

end

end Sys2Proof.Machine
end

section
/-! SUPPORT. The event that ends a ray, raster or texture instruction, and its turns at the Cullet table (R323, R325, R335). -/

namespace Sys2Proof.Machine

open Sys2Proof.Claims

variable {s : State} {id : Nat} {a : Acc}

/-! ### The event -/

/-- An access of this family that is the oldest of its wave and has read all its data, unpoisoned. -/
structure RayDue (s : State) (id : Nat) (a : Acc) : Prop where
  ripe : s.ripe id AccOp.ray = some a
  read : a.performed = true
  sound : a.poisoned = none
  kept : s.discarded a = false
  oldest : ∀ b ∈ s.accs, b.uid = a.uid → b.op.ray = true → id ≤ b.id

theorem writes_of_ray {op : AccOp} (h : op.ray = true) : op.writes = false := by
  cases op <;> simp [AccOp.ray, AccOp.writes] at h ⊢

theorem acc_id_of_acc? (h : s.acc? id = some a) : a.id = id := by
  simpa using List.find?_some h

section
variable (h : RayDue s id a)
include h

theorem RayDue.found : s.acc? id = some a := (ripe_some h.ripe).1

theorem RayDue.performAll : s.performAll id = s := by
  obtain ⟨ha, hop, -⟩ := ripe_some h.ripe
  exact performAll_self ha (.inr (writes_of_ray hop)) (.inl h.read)

theorem RayDue.first : (s.accs.any fun b => b.uid = a.uid && b.op.ray && b.id < id) = false := by
  simpa using fun b hb hu hr => h.oldest b hb hu hr

/-- It takes its turns at the table and ends once each of its threads has had one. -/
theorem RayDue.ends {u : State} {x : Acc} (hop : a.op = .rbox → a.told = true) (hu : s.serveTable a = u)
    (hx : u.acc? id = some x) (hdone : x.tableDone = true) : exec (.rayOpComplete id) s = .next (ended u x x.rayPuts) := by
  have compared : (decide (a.op = .rbox) && !a.told) = false := by
    by_cases hb : a.op = .rbox <;> simp [hb, hop]
  show execRayOpComplete id s = _
  simp only [execRayOpComplete, h.ripe, h.kept, h.first, h.performAll, h.found, h.read, compared, h.sound, hu, hx, hdone]
  rfl

/-- RBOX takes the lanes of its quarter first. -/
theorem RayDue.borrows {w : Wave} (hop : a.op = .rbox) (ht : a.told = false) (hw : s.waveUid? a.uid = some w)
    (hl : s.lanesHeld w = false) : exec (.rayOpComplete id) s = .next (
      let till := s.cyc w.id.core + 4 * (w.kern.width / 16)
      (s.modCore w.id.core fun c =>
        { c with quarters := c.quarters.modify w.id.q fun q => { q with array := max q.array till } }).modAcc id
          fun a => { a with told := true, ready := till }) := by
  show execRayOpComplete id s = _
  simp only [execRayOpComplete, h.ripe, h.kept, h.first, h.performAll, h.found, h.read, hop, ht, hw, hl]
  rfl

end

/-! ### Turns at the table -/

theorem serveTable_other (h1 : a.op ≠ .rhint) (h2 : a.op ≠ .rhset) : s.serveTable a = s := by
  simp [State.serveTable, h1, h2]

theorem modAcc_self {f : Acc → Acc} (hf : ∀ x, f x = x) : s.modAcc id f = s := by
  simp [State.modAcc, upd, hf]

/-- An access whose threads have all been served has no turn to take. -/
theorem serveTable_served (h : a.tableThreads.length ≤ a.served) : s.serveTable a = s := by
  simp only [State.serveTable, List.drop_eq_nil_of_le h, State.tableOps]
  split
  · exact modAcc_self fun x => by simp
  · rfl

/-- An access one of whose threads has had its turn at the table. -/
def Acc.took (a : Acc) (ps : List Put) : Acc := { a with served := a.served + 1, puts := a.puts ++ ps }

section
variable {t : Nat} {c : W32} {ray : List W32} (ht : a.tableThreads.drop a.served = [(t, c, ray)])
include ht

theorem tableDone_took (ps : List Put) : (a.took ps).tableDone = true := by
  have len := congrArg List.length ht
  simp only [List.length_drop, List.length_singleton] at len
  have all : (a.took ps).tableThreads.length ≤ (a.took ps).served := by
    show a.tableThreads.length ≤ a.served + 1
    omega
  simp only [Acc.tableDone, decide_eq_true all, Bool.or_true]

theorem serveTable_hint (hop : a.op = .rhint) {r : W32 × W32} {u : State}
    (hr : s.rayHint a.grp.part (rayHdr a.head) ray = some (r, u)) :
    s.serveTable a = u.modAcc a.id (Acc.took · (putRegs a.dst.reg [(t, [r.1, r.2])] 2)) := by
  simp [State.serveTable, hop, ht, State.tableOps, hr, Acc.took]

theorem serveTable_set (hop : a.op = .rhset) {u : State} (hr : s.raySet a.grp.part (rayHdr a.head) ray = some u) :
    s.serveTable a = u.modAcc a.id (Acc.took · []) := by
  simp [State.serveTable, hop, ht, State.tableOps, hr, Acc.took]

end

/-- The turn is noted at the access. -/
theorem acc?_took (ha : s.acc? id = some a) (cs : List Cullet) (us : List CulletUse) (ps : List Put) :
    ({ s with cullet := cs, culletUse := us }.modAcc a.id (Acc.took · ps)).acc? id = some (a.took ps) := by
  have hid := acc_id_of_acc? ha
  have found : s.accs.find? (fun x => x.id = id) = some a := ha
  rw [hid]
  have noted := find?_upd_same (fun x : Acc => decide (x.id = id)) (Acc.took · ps) (fun _ => rfl) s.accs
  rw [found] at noted
  exact noted

/-- A change of no element. -/
theorem upd_of_forall_not {α : Type} {q : α → Bool} {f : α → α} {l : List α} (h : ∀ x ∈ l, q x = false) : upd q f l = l := by
  refine (List.map_congr_left fun x hx => ?_).trans (List.map_id l)
  simp [h x hx]

/-- The end of an access after its turn is its end, and the table as the turn has left it. -/
theorem ended_took (cs : List Cullet) (us : List CulletUse) (ps qs : List Put) :
    ended ({ s with cullet := cs, culletUse := us }.modAcc a.id (Acc.took · ps)) (a.took ps) qs =
      { ended s a qs with cullet := cs, culletUse := us } := by
  have gone : (upd (fun x => x.id = a.id) (Acc.took · ps) s.accs).filter (fun x => x.id ≠ a.id) =
      s.accs.filter fun x => x.id ≠ a.id := by
    rw [filter_upd (f := (Acc.took · ps)) (p := fun x : Acc => decide (x.id ≠ a.id)) fun _ => rfl]
    exact upd_of_forall_not fun x hx => by simpa using (List.mem_filter.1 hx).2
  unfold ended State.modAcc
  rw [show (a.took ps).id = a.id from rfl, gone]
  rfl

end Sys2Proof.Machine
end

section
/-! What ray, raster and texture instructions write, and the statement about them (R323–R327, R333, R334, R338–R341). -/

namespace Sys2Proof.Machine

open Sys2Proof.Claims

variable {s : State} {id : Nat} {a : Acc}

/-! ### Results -/

/-- Registers from `d`, `n` for each thread. -/
def threadRegs (d n : Nat) (ts : List (Nat × W32 × List W32)) (r : Nat × W32 × List W32 → List W32) : List Put :=
  (List.range n).map fun k => .v (d + k) (ts.map fun y => (y.1, (r y).getD k 0))

theorem putRegs_map (d n : Nat) (ts : List (Nat × W32 × List W32)) (r : Nat × W32 × List W32 → List W32) :
    putRegs d (ts.map fun y => (y.1, r y)) n = threadRegs d n ts r := by
  simp [putRegs, threadRegs, Function.comp_def]

theorem rayPuts_held (hop : a.op = .rast ∨ a.op = .rhint) : a.rayPuts = a.puts := by
  rcases hop with hop | hop <;> simp only [Acc.rayPuts, hop]

theorem rayPuts_rhset (hop : a.op = .rhset) : a.rayPuts = [] := by
  simp only [Acc.rayPuts, hop]

theorem rayPuts_texq (hop : a.op = .texq) : a.rayPuts =
    let td := texDesc a.head
    threadRegs a.dst.reg 3 (rayThreads 1 a.args) fun y =>
      if td.bad then List.replicate 3 0xFFFFFFFF else
        let p := texPos td true y.2.1 (y.2.2.getD 0 0)
        [BitVec.ofNat 32 (texWrap p.j td.h td.wrapV * 65536 + texWrap p.i td.w td.wrapU),
         BitVec.ofNat 32 (p.fyq * 16 + p.fxq), BitVec.ofNat 32 (td.h * 65536 + td.w)] := by
  simp only [Acc.rayPuts, hop, ← putRegs_map]

/-- The mode that TEX keeps among its operands. -/
def Acc.texMode (a : Acc) : TexMode :=
  if a.args.getD 0 0 = 0 then .point else if a.args.getD 0 0 = 1 then .bilin else .stoch

/-- A mode by its number. -/
def modeOfNat : Nat → TexMode
  | 0 => .point
  | 1 => .bilin
  | _ => .stoch

theorem modeOfNat_toNat (x : W64) : modeOfNat x.toNat = if x = 0 then .point else if x = 1 then .bilin else .stoch := by
  split_ifs with h0 h1
  · rw [h0]; rfl
  · rw [h1]; rfl
  · unfold modeOfNat
    split
    · next heq => exact absurd (BitVec.eq_of_toNat_eq (y := 0) heq) h0
    · next heq => exact absurd (BitVec.eq_of_toNat_eq (y := 1) heq) h1
    · rfl

theorem rayPuts_tex (hop : a.op = .tex) : a.rayPuts =
    let td := texDesc a.head
    threadRegs a.dst.reg 4 (rayThreads 1 (a.args.drop 2)) fun y =>
      if td.bad then List.replicate 4 0x7FC00000 else
        texResult td (texTexels td a.texMode y.2.1 (y.2.2.getD 0 0) (lo32 (a.args.getD 1 0)) y.1)
          fun va => a.bytesAt 4 va (texelSize td.fmt) := by
  simp only [Acc.texMode, ← modeOfNat_toNat, ← putRegs_map, Acc.rayPuts, hop]
  rfl

theorem rayPuts_rbox (hop : a.op = .rbox) : a.rayPuts =
    let hd := rayHdr a.head
    let ts := rayThreads 16 (a.args.drop 1)
    threadRegs a.dst.reg 2 ts (fun y =>
      let r := if hd.bad then (0, 0) else rboxThread (a.bytesAt 8 (hd.nodes + 256 * y.2.1.toNat) 224) y.2.2
      [r.1, r.2]) ++
    if hd.bad then [] else [.v ((a.args.getD 0 0).toNat + 12) (ts.map fun y => (y.1, y.2.2.getD 12 0 + 1))] := by
  simp only [Acc.rayPuts, hop, ← putRegs_map, List.map_map]
  rfl

/-- The block that testing the triangles of a leaf, one after another, leaves. -/
def Acc.leafBlock (a : Acc) (y : Nat × W32 × List W32) : RayBlk :=
  (leafTris (rayHdr a.head) y.2.1).foldl
    (fun b i => b.test y.2.2 y.2.1 (a.bytesAt 8 ((rayHdr a.head).tris + 48 * i) 48)) (RayBlk.ofRegs y.2.2)

theorem rayPuts_rtri (hop : a.op = .rtri) : a.rayPuts =
    let hd := rayHdr a.head
    let ts := (rayThreads 48 (a.args.drop 1)).filter fun y => hd.bad = false ∧ y.2.1 ≠ 0xFFFFFFFF ∧ y.2.1.getLsbD 31 = true
    (List.range 41).map fun k => .v ((a.args.getD 0 0).toNat + 7 + k) (ts.map fun y =>
      (y.1, ((((a.leafBlock y).toRegs y.2.2).find? fun r => r.1 = 7 + k).map (·.2)).getD 0)) := by
  have leaf : (fun y : Nat × W32 × List W32 => !(rayHdr a.head).bad && decide (y.2.1 ≠ 0xFFFFFFFF) && y.2.1.getLsbD 31) =
      fun y => decide ((rayHdr a.head).bad = false ∧ y.2.1 ≠ 0xFFFFFFFF ∧ y.2.1.getLsbD 31 = true) := by
    funext y
    simp [Bool.and_assoc]
  simp only [Acc.rayPuts, hop, List.map_map, ← leaf]
  rfl

/-! ### What ends -/

section
variable (h : RayDue s id a)
include h

/-- An instruction with no turn left to take at the table ends with its results. -/
theorem RayDue.goes (hbox : a.op = .rbox → a.told = true)
    (htab : (a.op ≠ .rhint ∧ a.op ≠ .rhset) ∨ a.tableThreads.length ≤ a.served) :
    exec (.rayOpComplete id) s = .next (ended s a a.rayPuts) := by
  rcases htab with ⟨h1, h2⟩ | hs
  · exact h.ends hbox (serveTable_other h1 h2) h.found (by simp [Acc.tableDone, h1, h2])
  · exact h.ends hbox (serveTable_served hs) h.found (by simp [Acc.tableDone, hs])

variable {t : Nat} {c : W32} {ray : List W32} (ht : a.tableThreads.drop a.served = [(t, c, ray)])
include ht

theorem RayDue.hints (hop : a.op = .rhint) (hq : s.culletUse = []) : ∃ r u,
    s.rayHint a.grp.part (rayHdr a.head) ray = some (r, u) ∧ exec (.rayOpComplete id) s = .next { ended s a
      (a.puts ++ [.v a.dst.reg [(t, r.1)], .v (a.dst.reg + 1) [(t, r.2)]]) with culletUse := u.culletUse } := by
  obtain ⟨r, us, hr⟩ := rayHint_quiet hq a.grp.part (rayHdr a.head) ray
  have gone := h.ends (by simp [hop]) (serveTable_hint ht hop hr) (acc?_took h.found s.cullet us _) (tableDone_took ht _)
  refine ⟨r, _, hr, gone.trans ?_⟩
  have puts : (a.took (putRegs a.dst.reg [(t, [r.1, r.2])] 2)).rayPuts =
      a.puts ++ [.v a.dst.reg [(t, r.1)], .v (a.dst.reg + 1) [(t, r.2)]] := rayPuts_held (.inr hop)
  rw [puts]
  exact congrArg _ (ended_took s.cullet us _ _)

theorem RayDue.sets (hop : a.op = .rhset) (hq : s.culletUse = []) : ∃ u,
    s.raySet a.grp.part (rayHdr a.head) ray = some u ∧
      exec (.rayOpComplete id) s = .next { ended s a [] with cullet := u.cullet, culletUse := u.culletUse } := by
  obtain ⟨cs, us, hr⟩ := raySet_quiet hq a.grp.part (rayHdr a.head) ray
  have gone := h.ends (by simp [hop]) (serveTable_set ht hop hr) (acc?_took h.found cs us _) (tableDone_took ht _)
  refine ⟨_, hr, gone.trans ?_⟩
  have puts : (a.took []).rayPuts = [] := rayPuts_rhset hop
  rw [puts]
  exact congrArg _ (ended_took cs us _ _)

end

/-- Settles O35: results by what each instruction writes, the table by `culletSet` and `culletAnswer`. -/
theorem rayResults : Obligations.RayResults := by
  refine ⟨fun s id a hripe hread hsound hkept hold => ?_, fun s p hd ray => ?_⟩
  · have due : RayDue s id a := ⟨hripe, hread, hsound, hkept, hold⟩
    intro hd x td base regs go
    have goes (hbox : a.op = .rbox → a.told = true) (htab : (a.op ≠ .rhint ∧ a.op ≠ .rhset) ∨ a.tableThreads.length ≤ a.served)
        {ps : List Put} (hps : a.rayPuts = ps) : go ps := hps ▸ due.goes hbox htab
    have plain (hop : a.op ≠ .rhint ∧ a.op ≠ .rhset) (hbox : a.op = .rbox → a.told = true) {ps : List Put}
        (hps : a.rayPuts = ps) : go ps := goes hbox (.inl hop) hps
    have regs_congr {d n : Nat} {ts : List (Nat × W32 × List W32)} {r r' : Nat × W32 × List W32 → List W32}
        (hr : ∀ y, r y = r' y) : threadRegs d n ts r = regs d n ts r' := congrArg (threadRegs d n ts) (funext hr)
    refine ⟨fun hop => ?rast, fun hop hs => ?hint, fun hop hs => ?set, fun t c ray ht hq => ⟨fun hop => ?_, fun hop => ?_⟩,
      fun hop => ?texq, fun hop => ?tex, fun hop ht => ?rbox, fun hop => ?rtri, fun hop ht w hw hl => ?borrow⟩
    case rast => exact plain (by simp [hop]) (by simp [hop]) (rayPuts_held (.inl hop))
    case hint => exact goes (by simp [hop]) (.inr hs) (rayPuts_held (.inr hop))
    case set => exact goes (by simp [hop]) (.inr hs) (rayPuts_rhset hop)
    · exact due.hints ht hop hq
    · exact due.sets ht hop hq
    case texq =>
      exact ⟨fun hb => plain (by simp [hop]) (by simp [hop]) ((rayPuts_texq hop).trans (regs_congr fun y => if_pos hb)),
        fun hb => plain (by simp [hop]) (by simp [hop])
          ((rayPuts_texq hop).trans (regs_congr fun y => if_neg (by simp [td, hb])))⟩
    case tex =>
      exact ⟨fun hb => plain (by simp [hop]) (by simp [hop]) ((rayPuts_tex hop).trans (regs_congr fun y => if_pos hb)),
        fun hb => plain (by simp [hop]) (by simp [hop])
          ((rayPuts_tex hop).trans (regs_congr fun y => if_neg (by simp [td, hb])))⟩
    case rbox =>
      refine ⟨fun hb => plain (by simp [hop]) (fun _ => ht) ((rayPuts_rbox hop).trans ?_),
        fun hb => plain (by simp [hop]) (fun _ => ht) ((rayPuts_rbox hop).trans ?_)⟩
      · have bad : (rayHdr a.head).bad = true := hb
        simp only [bad, if_true, List.append_nil]
        rfl
      · have good : (rayHdr a.head).bad = false := hb
        simp only [good, Bool.false_eq_true, if_false]
        rfl
    case rtri => exact plain (by simp [hop]) (by simp [hop]) (rayPuts_rtri hop)
    case borrow => exact ⟨_, due.borrows hop ht hw hl, rfl, rfl⟩
  · intro entry miss
    refine ⟨fun k idx tag hbad hk hat => ⟨fun hit leaf => ⟨fun hfree => ?_, fun hused => ?_⟩, fun hfree => ?_⟩, fun hno => ?_,
      raySet_miss⟩
    · exact ⟨_, raySet_free hbad hk hat hit leaf hfree, culletEntry_culletSet_same, fun j hj => culletEntry_culletSet_other hj, rfl⟩
    · exact raySet_taken hbad hk hat hit leaf hused
    · obtain ⟨us, hr⟩ := rayHint_free hbad hk hat hfree
      refine ⟨_, hr, rfl, fun c hc htag hgen => ?_, fun c hc hne => ?_, fun hc => ?_⟩ <;>
        rw [show s.culletEntry idx = _ from hc, culletAnswer]
      · simp [htag, hgen]
      · rw [if_neg]
        simpa [imp_iff_not_or] using hne
    · exact ⟨raySet_noEntry hno, rayHint_noEntry hno⟩

end Sys2Proof.Machine
end
